-- ==== Sys2Proof/Word.lean ====
section
/-! DEFINITION. The words of the Larxiben L2 and the index types of its repeated parts
(spec/00_scope.md R5, R10; spec/01_anatomy.md R14 to R22). -/

namespace Sys2Proof

abbrev Byte := BitVec 8
abbrev Word := BitVec 64

/-- Module ply, 0 to 3 (R14). -/
abbrev PlyId := Fin 4
/-- Module field: ply × 96 + field index (R15). -/
abbrev FieldId := Fin 384
/-- Module site: ply × 6,912 + field × 72 + site (R16). -/
abbrev SiteId := Fin 27648
/-- Module ring id: ply × 16 + ring (R17). -/
abbrev RingId := Fin 64
/-- Far stack and its trunk: ply × 32 + stack (R20). -/
abbrev StackId := Fin 128
/-- Tenancy number (R363). -/
abbrev TenId := Fin 64
/-- Host port (R351). -/
abbrev HPortId := Fin 8
/-- Command queue of a host port (R353). -/
abbrev QId := Fin 8
/-- Stream port: ply × 8 + p (R22). -/
abbrev SPortId := Fin 32
/-- Inbound or outbound stream buffer of a tile (R47). -/
abbrev BufId := Fin 4
/-- Message channel of a tile (R190, R191). -/
abbrev ChId := Fin 32

/-- The four sides of a site, field, ring or router (R185, R283). -/
inductive Side where
  | north | east | south | west
  deriving DecidableEq, Repr

/-- The ordering codes' variants (R25, R480). -/
inductive Variant where
  | l2x | l2s | l2e
  deriving DecidableEq, Repr

end Sys2Proof
end

