-- ==== Sys2Proof/Syntax.lean ====
section
/-! DEFINITION. The commands of the Larxiben L2: one constructor of `Instr` for each row of
spec/opcode_table.json, with the row's operands. What the outside world or the physics of the module
decides (a sensor's reading, a self-test's outcome, a packet's bits) is an operand of the command that
reports it. -/

namespace Sys2Proof

/-- A path to the object dictionary (R400): a host port's mailbox or the CAN bus. -/
inductive Path where
  | host (p : HPortId)
  | can
  deriving DecidableEq, Repr

/-- What a bring-up or a reset test found (R444, R445, R452): the failing units of every step. -/
structure BootReport where
  /-- step 1: one of the two flash banks booted -/
  boxOk : Bool := true
  /-- step 2: tick generator and clock reference -/
  tickOk : Bool := true
  refOk : Bool := true
  /-- step 2: ring groups that latch off -/
  groupsOff : List RingId := []
  /-- step 3 -/
  sitesFailed : List SiteId := []
  meshSwitchFailed : List FieldId := []
  ringmastersFailed : List PlyId := []
  /-- step 4: stack and pseudo-channel -/
  pcsFailed : List (StackId × Nat) := []
  /-- step 5: field, side, crossing, working data lanes, spares used -/
  crossings : List (FieldId × Side × Nat × Nat × Nat) := []
  midwayFailed : List (FieldId × Side) := []
  /-- step 6 -/
  channelsFailed : List (FieldId × Nat) := []
  /-- units repeated under R445: step and unit -/
  repeats : List (Nat × Nat) := []
  /-- stored powered seconds and defect map come from flash; what final test wrote (R274, R279) -/
  factoryStatus : Nat := 0
  /-- uptime from the start of the sequence to its end, in ms -/
  ms : Nat := 5300
  deriving DecidableEq, Repr

/-- One grid of power samples (R421): busbar and regulator groups. -/
structure SampleReport where
  busMv : Nat
  busMa : Nat
  /-- mean input power of each ring group, in mW -/
  ringMw : List (RingId × Nat) := []
  /-- ply service rails, far-stack rails and housekeeping, in mW -/
  plyMw : List (PlyId × Nat) := []
  stackMw : List (StackId × Nat) := []
  houseMw : Nat := 0
  deriving DecidableEq, Repr

/-- One reading of a junction sensor in 0.1 °C (R433): field, true for the DRAM sensor, reading. -/
structure SensorReading where
  field : FieldId
  dram : Bool
  tenthC : Int
  deriving DecidableEq, Repr

/-- A canary run of one ring (R319): measured margins and the first canary that failed with no added delay. -/
structure CanaryReport where
  timingPs : Int
  voltMv : Int
  failed : Option Nat := none
  deriving DecidableEq, Repr

/-- One optical sample of a stream lane (R320): received power in 0.01 dBm, pre-FEC error rate as REAL32. -/
structure LaneReading where
  port : SPortId
  lane : Fin 8
  centiDbm : Int
  ber : BitVec 32
  deriving DecidableEq, Repr

/-- What patrol found in one codeword (R209, R228). -/
inductive PatrolErr where
  | corrected (addr : Nat)
  | uncorrectable (addr : Nat)
  deriving DecidableEq, Repr

/-- An item of the defect map (R274). -/
inductive MapItem where
  | site (s : SiteId)
  | seam (f : FieldId) (side : Side)
  | channel (f : FieldId) (c : Fin 32)
  | field (f : FieldId)
  | mwlink (f : FieldId) (side : Side)
  | farpc (st : StackId) (pc : Fin 32)
  | ring (r : RingId)
  deriving DecidableEq, Repr

/-- What the physics decides at a tick for the resets that the tick completes (R452, R453) and for
measured power (R421). -/
structure TickReport where
  boot : BootReport := {}
  deriving DecidableEq, Repr

/-- The producer of a word that reaches an inbound buffer (R56, R338): a tile of the clause, or an agent or a tile outside the
clause, with its endpoint address. -/
inductive Producer where
  | tile (vring vfield vtile : Nat)
  | stream (ep : BitVec 16)
  | dma (ep : BitVec 16)
  | host
  | other (ep : BitVec 16)
  deriving DecidableEq, Repr

/-- A 64 B word with its sideband (R59); one that goes to a Midway target carries its source's generations too (R60, R246). -/
structure MeshWord where
  bytes : List Byte
  par : BitVec 8
  psn : BitVec 8
  vb : BitVec 6
  eop : Bool
  btag : BitVec 2
  epoch : BitVec 8
  rgen : BitVec 8 := 0
  tgen : BitVec 8 := 0
  ngen : BitVec 8 := 0
  deriving DecidableEq, Repr

/-- How a word reaches an inbound buffer (R53, R59). A tile's word leaves the head of its outbound buffer `out` in cc `cc`,
through the mesh ports `path` (none for a Midway target); `flips` are the bits that turn over in transit, and `crc` the
crossing of the path whose check fails, with the lane that is blamed (R183). The word of any other producer comes whole. -/
inductive WordIn where
  | sent (out : BufId) (cc : Nat) (path : List Side) (flips : BitVec 512) (crc : Option (Nat × Fin 32))
  | whole (w : MeshWord)
  deriving DecidableEq, Repr

/-- A verb that can wait: MOV, SEND or RECV, and the cc that it has waited (R134). -/
structure VerbWait where
  v : BitVec 128
  wait : Nat
  deriving DecidableEq, Repr

/-- LD or ST, and the cc of the narrow slot that it takes (R148). -/
structure NarrowOp where
  w : BitVec 32
  cc : Nat
  deriving DecidableEq, Repr

/-- An arrival at the steering match buffer (R127, R128): the next word of a token buffer, or the next governed packet of a
rule. -/
inductive SteerArrival where
  | word (buf : BufId)
  | packet (rule : Fin 16)
  deriving DecidableEq, Repr

/-- Types of control packets (R245). -/
inductive CType where
  | ack | nack | credit | probe | abort | release | heartbeat | svc
  deriving DecidableEq, Repr

/-- Types of data packets (R246). -/
inductive DType where
  | desc | wwrite | wread | rdata | mcast | svc
  deriving DecidableEq, Repr

/-- The fields of a control packet that its endpoint reads (R245). Bit 0 of `arg` is packet bit 180. -/
structure CtlMsg where
  ctype : CType
  src : BitVec 16
  dst : BitVec 16
  arg : BitVec 76
  deriving DecidableEq, Repr

/-- The fields of a data packet that its endpoint reads (R246). `tspec` is header bits [511:256]. -/
structure DataMsg where
  dtype : DType
  btag : BitVec 2
  src : BitVec 16
  dst : BitVec 16
  len : Nat
  seq : BitVec 16
  ten : BitVec 8
  rgen : BitVec 8
  tgen : BitVec 8
  ngen : BitVec 8
  epoch : BitVec 8
  tspec : BitVec 256
  payload : List Byte := []
  /-- poisoned 64-bit lanes of the payload (R247), by lane number -/
  psn : List Nat := []
  /-- DESC: the sender's send channel and the receive channel it names (log entry 10) -/
  sch : Nat := 0
  rch : Nat := 0
  /-- DESC of an agent: what its identity adds to its endpoint (R194): virtual ring of a far-DMA engine or a sequencer, logical
  port of a stream port; DESC to an agent: the virtual ring that the send channel names (log entry 10) -/
  who : Nat := 0
  deriving DecidableEq, Repr

/-- What a packet in transit carries. -/
inductive Body where
  | ctl (c : CtlMsg)
  | data (d : DataMsg)
  deriving DecidableEq, Repr

/-- A packet in transit (R244 to R246): the rest of its route, its heading and its header counts. -/
structure Packet where
  route : List (BitVec 3)
  head : Side
  urg : Bool
  det : Bool
  dcnt : Nat
  age : Nat
  /-- a flit failed its CRC again after the resend (R247) -/
  crcDead : Bool := false
  /-- flits resent at this router (R247) -/
  crcResent : Nat := 0
  body : Body
  deriving DecidableEq, Repr

/-- The input of a router: a link or the local interface. -/
inductive RPort where
  | link (s : Side)
  | loc
  deriving DecidableEq, Repr

/-- An ASP frame (R378, R379): header word and payload. -/
structure Frame where
  hdr : BitVec 128
  payload : List Byte := []
  deriving DecidableEq, Repr

/-- What a stream port meets when it attempts training (R374 to R376). -/
structure TrainReport where
  refClk : Bool := true
  light0 : Bool := true
  light1 : Bool := true
  /-- lanes that pass training -/
  lanes : BitVec 8 := 0xFF
  /-- width the peer offers -/
  peerWidth : Nat := 8
  deriving DecidableEq, Repr

/-- What a partition reset found in its ring (R453). -/
structure PartReport where
  ctlOk : Bool := true
  sitesFailed : List SiteId := []
  meshSwitchFailed : List FieldId := []
  crossings : List (FieldId × Side × Nat × Nat × Nat) := []
  channelsFailed : List (FieldId × Nat) := []
  deriving DecidableEq, Repr

/-- The target of a register or entry write that has no row of its own. -/
inductive RegTarget where
  | ma (addr : BitVec 64)
  | bar0 (port : HPortId) (off : BitVec 16)
  | entry (path : Path) (index : BitVec 16) (sub : BitVec 8)
  deriving DecidableEq, Repr

/-- The commands: one constructor per row of the table. -/
inductive Instr where
  | powerOn (straps : BitVec 7) (rep : BootReport)
  | holdUpFlush (busMv : Nat)
  | wholeModuleReset
  | modResetDeassert (straps : BitVec 7) (rep : BootReport)
  | unpowered
  | throttleAssert
  | throttleDeassert
  | chatterQuiet
  | throttleRelease
  | throttleLong
  | powerSample (rep : SampleReport)
  | guardClear
  | capLoopAction
  | repeatBreach
  | breachEnd
  | sensorRead (rs : List SensorReading)
  | thermalCauseEnd
  | thermtrip (ply : PlyId) (tenthC : Nat)
  | phaseLost (ring : RingId) (vdram : Bool) (phase : Fin 24)
  | regLatchoff (ring : RingId)
  | efuseOpen (ring : RingId)
  | canaryRun (ring : RingId) (rep : CanaryReport)
  | opticalSample (ls : List LaneReading)
  | poweredSecond
  | poweredCountStore
  | beatTick (rep : TickReport)
  | stagingComplete (ten : TenId)
  | stageStall (ten : TenId)
  | tickMissing (site : SiteId)
  | sideshowTest (ring : RingId) (failed : List SiteId) (switchFailed : List SiteId)
  | heartbeat (ring : RingId) (c : CtlMsg)
  | ringLost (ring : RingId)
  | takeoverRestoreDone (ten : TenId)
  | tileRestore (site : SiteId)
  | farHomeMigrationDone (ten : TenId) (vring : RingId)
  | ringRejoin (ring : RingId) (rep : PartReport)
  | hangVerdict (ten : TenId)
  | extStall (ten : TenId)
  | computeResetTimeout
  | ringmasterFault (ply : PlyId)
  | escCountExpiry
  | suspectExpiry (item : MapItem)
  | guardCopyDone (ten : TenId)
  | laneRetire (field : FieldId) (side : Side) (crossing : Fin 9) (lane : Fin 32) (midway : Bool)
  | tsvLaneRetire (field : FieldId) (ch : Fin 32) (group : Fin 36) (lane : Fin 32)
  | rowRemap (field : FieldId) (ch : Fin 32) (half : Fin 2) (bank : Fin 32) (row : Fin 16384)
  | nearPatrol (field : FieldId) (ch : Fin 32) (errs : List PatrolErr)
  | farPatrol (stack : StackId) (errs : List PatrolErr)
  | pcRetrain (stack : StackId) (pc : Fin 32)
  | pcRetrainDone (stack : StackId) (pc : Fin 32) (ok : Bool)
  | boxOfficeRestart
  | eventRecord (src : Fin 5)
  | logFlashWrite
  | emcySend
  | canHeartbeat
  | busOff
  | busOffRecovery
  | sdoTimeout
  | nmtStart
  | enterPreOperational
  | nmtStop
  | resetCommunication
  | resetNode
  | usdoRead (index : BitVec 16) (sub : BitVec 8)
  | usdoWrite (index : BitVec 16) (sub : BitVec 8) (data : List Byte)
  | sqTail (port : HPortId) (q : QId) (tail : Nat)
  | cqHead (port : HPortId) (q : QId) (head : Nat)
  | completionPost (port : HPortId) (q : QId)
  | portReset (port : HPortId) (flr : Bool)
  | ptmDialog (port : HPortId) (masterNs : BitVec 64)
  | tenCreate (port : HPortId) (q : QId) (e : BitVec 512)
  | tenDestroy (port : HPortId) (q : QId) (e : BitVec 512)
  | ringAssign (port : HPortId) (q : QId) (e : BitVec 512)
  | ringRelease (port : HPortId) (q : QId) (e : BitVec 512)
  | sliceSet (port : HPortId) (q : QId) (e : BitVec 512)
  | switch (port : HPortId) (q : QId) (e : BitVec 512)
  | winOpen (port : HPortId) (q : QId) (e : BitVec 512)
  | winClose (port : HPortId) (q : QId) (e : BitVec 512)
  | load (port : HPortId) (q : QId) (e : BitVec 512)
  | run (port : HPortId) (q : QId) (e : BitVec 512)
  | stop (port : HPortId) (q : QId) (e : BitVec 512)
  | unload (port : HPortId) (q : QId) (e : BitVec 512)
  | dmaWr (port : HPortId) (q : QId) (e : BitVec 512) (data : List Byte)
  | dmaRd (port : HPortId) (q : QId) (e : BitVec 512)
  | bindingComplete (ten : TenId)
  | timeSliceQuantum (group : Fin 4)
  | clearDone (ring : RingId)
  | mailboxRead (port : HPortId) (index : BitVec 16) (sub : BitVec 8) (offset : BitVec 16)
  | mailboxWrite (port : HPortId) (index : BitVec 16) (sub : BitVec 8) (data : List Byte)
  | maRead (port : HPortId) (ma : BitVec 64) (len : Nat)
  | maWrite (port : HPortId) (ma : BitVec 64) (data : List Byte)
  | storeAll (path : Path) (data : List Byte)
  | restoreAll (path : Path) (data : List Byte)
  | fwImage (path : Path) (offset : Nat) (data : List Byte)
  | fwActivate (path : Path)
  | fwDiscard (path : Path)
  | level (path : Path) (data : List Byte)
  | role (path : Path) (port : HPortId) (data : List Byte)
  | revert (path : Path) (data : List Byte)
  | arm (path : Path) (data : List Byte)
  | rehearsalFire
  | laneDropReturn
  | moduleReset (path : Path) (data : List Byte)
  | unpinTo (path : Path) (data : List Byte)
  | alertClear (path : Path) (data : List Byte)
  | retrain (path : Path) (port : SPortId) (data : List Byte)
  | portEnable (path : Path) (port : SPortId) (data : List Byte)
  | reservePerPly (path : Path) (data : List Byte)
  | ringStateWrite (path : Path) (ring : RingId) (data : List Byte)
  | sideshowHold (path : Path) (data : List Byte)
  | sideshowHoldExpiry
  | errStatus (site : SiteId) (v : BitVec 64)
  | corrCount (site : SiteId)
  | discardCount (site : SiteId)
  | poisonCount (site : SiteId)
  | crcErr (field : FieldId) (side : Side)
  | nearChStatus (field : FieldId) (ch : Fin 32)
  | mwCount (field : FieldId)
  | poolStatus (ring : RingId)
  | fenceCount (ring : RingId)
  | evqLost (port : HPortId)
  | poolFlushQueue (ring : RingId) (queue : Fin 1024)
  | poolFlushAll (ring : RingId)
  | registerWrite (t : RegTarget) (data : List Byte)
  | mma (site : SiteId) (slot : Fin 8192) (v : BitVec 128)
  | mmaT (site : SiteId) (slot : Fin 8192) (v : BitVec 128)
  | mmaX (site : SiteId) (slot : Fin 8192) (v : BitVec 128)
  | sfu (site : SiteId) (slot : Fin 8192) (v : BitVec 128)
  | rand (site : SiteId) (slot : Fin 8192) (v : BitVec 128)
  | red (site : SiteId) (slot : Fin 8192) (v : BitVec 128)
  | smax (site : SiteId) (slot : Fin 8192) (v : BitVec 128)
  | castConvert (site : SiteId) (slot : Fin 8192) (v : BitVec 128)
  | castSlice (site : SiteId) (slot : Fin 8192) (v : BitVec 128)
  | castFinalize (site : SiteId) (slot : Fin 8192) (v : BitVec 128)
  | mov (site : SiteId) (slot : Fin 8192) (v : VerbWait)
  | drop (site : SiteId) (slot : Fin 8192) (v : BitVec 128)
  | send (site : SiteId) (slot : Fin 8192) (v : VerbWait)
  | recv (site : SiteId) (slot : Fin 8192) (v : VerbWait)
  | steer (site : SiteId) (slot : Fin 8192) (v : BitVec 128)
  | steerClear (site : SiteId) (slot : Fin 8192) (v : BitVec 128)
  | ccount (site : SiteId) (slot : Fin 8192) (v : BitVec 128)
  | checkCsum (site : SiteId) (slot : Fin 8192) (v : BitVec 128)
  | checkCmp (site : SiteId) (slot : Fin 8192) (v : BitVec 128)
  | checkPoison (site : SiteId) (slot : Fin 8192) (v : BitVec 128)
  | nop (site : SiteId) (slot : Fin 8192) (v : BitVec 128)
  | dynamicVerbStart (site : SiteId) (cc : Nat)
  | alu (site : SiteId) (w : BitVec 32)
  | addi (site : SiteId) (w : BitVec 32)
  | andi (site : SiteId) (w : BitVec 32)
  | ori (site : SiteId) (w : BitVec 32)
  | xori (site : SiteId) (w : BitVec 32)
  | shli (site : SiteId) (w : BitVec 32)
  | shri (site : SiteId) (w : BitVec 32)
  | srai (site : SiteId) (w : BitVec 32)
  | lui (site : SiteId) (w : BitVec 32)
  | cmp (site : SiteId) (w : BitVec 32)
  | plog (site : SiteId) (w : BitVec 32)
  | ld (site : SiteId) (w : NarrowOp)
  | st (site : SiteId) (w : NarrowOp)
  | narrowAccess (site : SiteId) (cc : Nat)
  | br (site : SiteId) (w : BitVec 32)
  | jal (site : SiteId) (w : BitVec 32)
  | jr (site : SiteId) (w : BitVec 32)
  | scalarSend (site : SiteId) (w : BitVec 32)
  | scalarRecv (site : SiteId) (w : BitVec 32)
  | qlen (site : SiteId) (w : BitVec 32)
  | issue (site : SiteId) (w : BitVec 32)
  | sbwait (site : SiteId) (w : BitVec 32)
  | rdreg (site : SiteId) (w : BitVec 32)
  | rdtime (site : SiteId) (w : BitVec 32)
  | trap (site : SiteId) (w : BitVec 32)
  | endCore (site : SiteId) (w : BitVec 32)
  | meshWord (site : SiteId) (buf : BufId) (src : Producer) (w : WordIn)
  | steerMatch (site : SiteId) (a : SteerArrival)
  | packetRoute (field : FieldId) (inp : RPort) (p : Packet) (free : List RPort)
  | desc (field : FieldId) (d : DataMsg)
  | descDelivery (site : SiteId) (ch : ChId)
  | wwrite (ring : RingId) (d : DataMsg)
  | wread (ring : RingId) (d : DataMsg)
  | fenceApply (ring : RingId) (write : Bool)
  | rdata (ring : RingId) (d : DataMsg)
  | mcast (field : FieldId) (d : DataMsg)
  | svc (ring : RingId) (d : DataMsg)
  | ack (ring : RingId) (c : CtlMsg)
  | nack (ring : RingId) (c : CtlMsg)
  | credit (ring : RingId) (c : CtlMsg)
  | probe (site : SiteId) (c : CtlMsg)
  | sendProbe (site : SiteId) (ch : ChId)
  | abort (ring : RingId) (c : CtlMsg)
  | release (ring : RingId) (c : CtlMsg)
  | requestResend (src : BitVec 16) (seq : BitVec 16)
  | dmaDescriptor (stack : StackId) (d : DataMsg)
  | dmaStart (stack : StackId)
  | dmaCompletion (stack : StackId)
  | collective (ply : PlyId) (d : DataMsg)
  | collectiveBegin (ply : PlyId)
  | collectiveCompletion (ply : PlyId) (collId : BitVec 32)
  | portTrain (port : SPortId) (rep : TrainReport)
  | hello (port : SPortId) (f : Frame)
  | helloResend (port : SPortId)
  | aspData (port : SPortId) (f : Frame)
  | aspCredit (port : SPortId) (f : Frame)
  | aspAck (port : SPortId) (f : Frame)
  | nak (port : SPortId) (f : Frame)
  | collStart (port : SPortId) (f : Frame)
  | collData (port : SPortId) (f : Frame)
  | aspAbort (port : SPortId) (f : Frame)
  | aspRetryTimeout (port : SPortId)
  | linkDown (port : SPortId)
  | psuOkAssert (rep : BootReport)
  | reservedVerb (site : SiteId) (slot : Fin 8192) (v : BitVec 128)
  | illegalInstruction (site : SiteId) (w : BitVec 32)
  | invalidCommand (port : HPortId) (q : QId) (e : BitVec 512)
  | protoErrFrame (port : SPortId) (f : Frame)
  | frameCrcFailure (port : SPortId)
  deriving DecidableEq, Repr

end Sys2Proof
end

