-- ==== Sys2Proof/Config.lean ====
section
/-! DEFINITION. What the spec leaves to the implementation or leaves open: constants without a body.
No proof can see their values, so a claim about them holds for every value. -/

namespace Sys2Proof

/-- Destination of an outbound buffer, fixed by the clause configuration (R481). -/
inductive Dest where
  | mesh (s : Side)
  | midway (vtile vfield vring buf : Nat)
  deriving DecidableEq, Repr, Inhabited

/-- A granule of a virtual field's channel: virtual ring, virtual field, channel, channel granule. -/
structure VGranule where
  vring : Nat
  vfield : Nat
  ch : Nat
  gran : Nat
  deriving DecidableEq, Repr, Inhabited

/-- What the load beat writes into one tile (R65, R106, R190, R191, R481). -/
structure TileCfg where
  verbs : List (BitVec 128) := []
  code : List (BitVec 32) := []
  sendCh : List (Nat × BitVec 32) := []
  recvCh : List (Nat × BitVec 32) := []
  segClass : BitVec 64 := 0
  mode : BitVec 64 := 0
  carry : BitVec 64 := 0
  dests : List (Nat × Dest) := []
  /-- resident scratchpad rows: row, and the near source of its 512 bytes (R289) -/
  resident : List (Nat × VGranule × Nat) := []
  deriving DecidableEq, Repr, Inhabited

/-- The part of a clause configuration that follows the preamble, the shape entries, the audit block and
the save block. Tiles are keyed by (virtual ring × 6 + virtual field) × 64 + virtual tile. -/
structure ClauseLayout where
  tiles : List (Nat × TileCfg) := []
  /-- resident table (R213): granule and, where named, the far source's Tenancy Address -/
  resident : List (VGranule × Option Nat) := []
  /-- guard map (R237) -/
  guarded : List VGranule := []
  /-- the highest channel granule that the clause marks as used, plus 1 (R220, R365) -/
  low : Nat := 0
  /-- cycles of issue that the load beat's broadcast needs (R35) -/
  broadcast : Nat := 0
  deriving DecidableEq, Repr, Inhabited

/-- The layout of a clause configuration after its save block, which no rule of the spec gives
(log entry 4). UNVERIFIED, free. -/
opaque Config.clauseLayout : List Byte → ClauseLayout

/-- Verification of a Box Office firmware image's ECDSA P-384 signature (R418); the key is Oasan's
(log entry 5). -/
opaque Config.fwSignatureOk : List Byte → Bool
/-- Major version and release in a firmware image (R418): the image header's layout is not given. -/
opaque Config.fwVersion : List Byte → Nat × Nat
/-- The length stated in a firmware image's header (R418), from its first piece. -/
opaque Config.fwLength : List Byte → Nat

/-- W of an anchored partial whose sum has left the range of W (R86, R94): the spec sets RANGE and states no
W there (log entry 7). -/
opaque Config.rangeW : Int → BitVec 192

/-- Destination code of an element whose source bytes lie beyond an inbound row's valid bytes, which SFU verbs
ignore (R53): by function code and element number (log entry 8). -/
opaque Config.ignoredElem : Nat → Nat → BitVec 32
/-- Index of a group of four weights in the LX14 encoding where no sum of squares is finite (R235 states none), by the
group's quotients as FP32 codes (log entry 33). -/
opaque Config.lexIndex : List Nat → BitVec 14
/-- Bytes of a destination row beyond the last result of SFU, SMAX and CAST, for which no rule states a value
(R111, R117, R121, R122 against R120), by verb code and byte number (log entry 9). -/
opaque Config.tailByte : Nat → Nat → Byte

/-- A byte the spec leaves undefined, by a running number (the DST range of an aborted collective, R392). -/
opaque Config.freeByte : Nat → Byte

/-- CODE of an urgent packet, which R245 places and no rule defines, by ring (log entry 80). -/
opaque Config.urgentCode : Nat → BitVec 8
/-- ARG of the service messages between Ringmasters (R245, R272), which no rule lays out, by ply (log entry 80). -/
opaque Config.serviceArg : Nat → BitVec 76

/-- OPC of the MCAST that updates the binding tables of ring pools (R246, R286), which no rule gives (log entry 80). -/
opaque Config.bindingOpc : BitVec 16

/-- Hop limit of the IPv6 header of an encapsulated frame, which R378 does not give (log entry 82). -/
opaque Config.hopLimit : BitVec 8
/-- FREE VALUE (log entry 83): whether the CAN controller is error-passive at an uptime; no row of the table reports it (R408). -/
opaque Config.canPassive : Nat → Bool

/-- What a host port's PCIe link has trained to, as 0x6001 gives it (R351, R371), by port and number of its resets: the
training is the host's and no command's (log entry 82). -/
opaque Config.hostLink : Nat → Nat → BitVec 9

end Sys2Proof
end

