-- ==== Sys2Proof/Machine/State.lean ====
section
/-! DEFINITION. The state of the module: everything the spec gives it, as plain data. Repeated parts are
lists of (number, record) pairs in which a part at its reset record is not listed (Machine/SMap.lean). The
reset values stand beside the fields; where the spec states none, INVENTORY.md's '## State' names the log
entry. -/

namespace Sys2Proof.Machine
open Sys2Proof

/-- Why the machine stops. -/
inductive Fault where
  /-- Raised by POWER_SAMPLE for a busbar voltage beyond the absolute maximum ratings, for which the spec
  defines no behaviour (R476). Safe: the machine stops where the spec says nothing. -/
  | beyondAbsoluteMaximum (busMv : Nat)
  deriving DecidableEq, Repr

/-- Why a command has no meaning. -/
inductive Refusal where
  /-- An arm of exec that has no meaning yet. Safe: nothing is claimed of it. -/
  | notModelled (mnemonic : String)
  deriving DecidableEq, Repr

/-- Fused at final test (R2, R12, R25). -/
structure Fused where
  variant : Variant := .l2s
  serial : BitVec 32 := 0
  deriving DecidableEq, Repr

/-! ### Time base and beats -/

/-- The time base (R170, R172, R456, R457, R475). -/
structure Time where
  uptime : Nat := 0
  ticks : Nat := 0
  /-- cc counted up to the last tick -/
  cc : Nat := 0
  /-- uptime at the tick that began the current beat (RDTIME) -/
  beatStart : Nat := 0
  beatLog2 : Nat := 15
  beatLog2Next : Option Nat := none
  cclkMhz : Nat := 1300
  /-- the clock that the last tick left, as 0x2021 shows it (R414) -/
  tickMhz : Nat := 1300
  spread : Bool := true
  spreadNext : Option Bool := none
  poweredS : Nat := 0
  /-- flash: stored count, and whether the previous power-on ended with a hold-up flush -/
  poweredStored : Nat := 0
  flushed : Bool := true
  /-- this power-on found no hold-up flush before it (R457), until bring-up records it -/
  missDue : Bool := false
  deriving DecidableEq, Repr

/-- Levels of the three-state output READY (R454). -/
inductive Tri where
  | released | low | high
  deriving DecidableEq, Repr

/-- Where the module stands between power and READY (R443, R451, R459, R463). -/
inductive Boot where
  /-- input applied or absent, no power-on yet (`psuSeen` of `Pins` tells) -/
  | unpowered
  /-- MOD_RESET_N asserted -/
  | inReset
  /-- MOD_RESET_N deasserted, bring-up waits for PSU_OK -/
  | waitPsu
  | rails | testing | merging
  | ready
  | computeReset
  | failed
  | held
  deriving DecidableEq, Repr

/-- Sideband pins (R454, R467 to R473). Active-low outputs are true while asserted. -/
structure Pins where
  psuOk : Bool := false
  modReset : Bool := false
  throttle : Bool := false
  straps : BitVec 7 := 0
  nodeId : BitVec 7 := 0
  ready : Tri := .released
  alert : Bool := false
  thermtrip : Bool := false
  pwrcycleReq : Bool := false
  /-- PSU_OK has been asserted since the input was applied: the next assertion is no power-on -/
  psuSeen : Bool := false
  deriving DecidableEq, Repr

/-! ### Power controller -/

/-- The power controller (R421 to R434, R441). -/
structure Power where
  /-- last four busbar samples in mW, newest first -/
  samples : List Nat := []
  inputMv : Nat := 0
  inputMa : Nat := 0
  /-- energy of the running beat and power of the last one (R421) -/
  beatNj : Nat := 0
  powerW : Nat := 0
  ringBeatNj : List (Nat × Nat) := []
  ringPowerW : List (Nat × Nat) := []
  farSteps : Nat := 0
  lanesShed : Bool := false
  clockSteps : Nat := 0
  /-- clock from which the loop's own clock steps count (R426) -/
  stepBase : Nat := 0
  /-- shed steps, most recent first: class 1, 2 or 3 -/
  shedOrder : List Nat := []
  lastAction : Option Nat := none
  lastShed : Option Nat := none
  capW : Nat := 100000
  capWNext : Option Nat := none
  fixedFreq : Bool := true
  fixedFreqNext : Option Bool := none
  /-- boost clock the loop has raised to (R429) -/
  boostMhz : Nat := 1300
  raiseAfter : Nat := 0
  breach : Bool := false
  breaches : Nat := 0
  overCount : Nat := 0
  /-- uptime since which every sample is at or below CAP_W -/
  quietSince : Option Nat := none
  throttleDemand : Bool := false
  throttleRestore : Bool := false
  /-- the far-tier rate and the lanes that a throttle assertion shed are not yet restored (R431) -/
  throttleShed : Bool := false
  throttleAt : Nat := 0
  throttleLongDone : Bool := false
  lastDeassert : Option Nat := none
  lastEdge : Nat := 0
  chatter : Bool := false
  chatterEdges : Nat := 0
  guardMhz : Option Nat := none
  guardQuietSince : Option Nat := none
  thermal : Bool := false
  thermalAt : Nat := 0
  thermalCoolSince : Option Nat := none
  /-- uptime at which the last thermal or THROTTLE_N cause ended (R428) -/
  causeEnd : Option Nat := none
  thermalMhz : Option Nat := none
  marginMhz : Option Nat := none
  holdUp : Bool := false
  capUnmetAt : Option Nat := none
  moduleNj : Nat := 0
  unattributedNj : Nat := 0
  /-- start and energy of the last completed beat, while samples that overlap it still arrive (R421) -/
  prevStart : Nat := 0
  prevNj : Nat := 0
  prevRingNj : List (Nat × Nat) := []
  /-- consecutive samples above the steady rating of 66 V (R476) -/
  overVolt : Nat := 0
  /-- hottest logic junction of the last reading, in 0.1 °C -/
  logicMax : Int := 0
  deriving DecidableEq, Repr

/-! ### Events -/

/-- An event record before it has its SEQ (R343). -/
structure EvRec where
  uptime : Nat
  ply : Nat := 0
  field : Nat := 0x7F
  site : Nat := 0x7F
  cls : Nat
  rehearsed : Bool := false
  level : Nat := 0
  code : Nat
  rgen : BitVec 8 := 0
  tgen : BitVec 8 := 0
  ngen : BitVec 8 := 0
  epoch : BitVec 8 := 0
  ten : Nat := 0xFF
  beat : Nat := 0
  detail : Nat := 0
  seq : Nat := 0
  deriving DecidableEq, Repr

/-! ### Tile -/

/-- TILE_STATE.STATE (R68), in the order of its values. -/
inductive TileSt where
  | unbound | idle | loading | running | draining | replay | halted | fenced
  deriving DecidableEq, Repr

/-- TRAP_INFO and TRAP_PC (R141). -/
structure TrapInfo where
  code : BitVec 8 := 0
  scalar : Bool := false
  dyn : Bool := false
  slot : BitVec 16 := 0
  sw : BitVec 16 := 0
  pc : Nat := 0
  deriving DecidableEq, Repr

/-- A row of an inbound bank (R50, R53 to R55). -/
structure InRow where
  bytes : List Byte
  count : Nat
  /-- poisoned 64-bit lanes and lanes whose parity does not match -/
  psn : List Nat := []
  badPar : List Nat := []
  discard : Bool := false
  endsPkt : Bool := false
  /-- produced by a beat whose audit is open (R59) -/
  prov : Bool := false
  /-- number of its packet in the bank -/
  pkt : Nat := 0
  deriving DecidableEq, Repr

/-- A bank of an inbound buffer (R50, R55, R56). Packets are numbered from 0 in each bank. -/
structure Bank where
  rows : List InRow := []
  /-- packets whose rest DROP has discarded -/
  dropped : List Nat := []
  /-- packets from producers outside the clause (R56) -/
  ext : List Nat := []
  /-- packets at its start that DROP had discarded before the beat -/
  skip : Nat := 0
  deriving DecidableEq, Repr

/-- An inbound stream buffer (R50 to R57, R71). -/
structure InBuf where
  live : Bank := {}
  held : Bank := {}
  liveBank : Bool := false
  frozen : Bool := false
  /-- a replay of the older of two beats reads the draining bank: `live` and `held` stand exchanged (R50, R51) -/
  crossed : Bool := false
  /-- next unread row of the live bank, and the packet that it belongs to -/
  rd : Nat := 0
  rdPkt : Nat := 0
  /-- tokens of that row that the steering unit has taken (R127) -/
  tok : Nat := 0
  /-- packet whose words arrive, and how many of them have arrived in this bank -/
  wrPkt : Nat := 0
  wrw : Nat := 0
  /-- the last row of the bank still takes words -/
  rowOpen : Bool := false
  lastVb : Nat := 0
  drops : Nat := 0
  last : Option Producer := none
  /-- beat in which the last word came (R338) -/
  lastAt : Nat := 0
  deriving DecidableEq, Repr

/-- A row of an outbound buffer (R58, R482). -/
structure OutRow where
  bytes : List Byte
  count : Nat
  psn : List Nat := []
  eop : Bool
  /-- SENT_BEAT of the beat that put the row there, modulo 4 (R59) -/
  btag : BitVec 2 := 0
  /-- row of a packet forwarded on prediction: its rule and number (R129) -/
  spec : Option (Nat × Nat) := none
  deriving DecidableEq, Repr

/-- An outbound stream buffer and its destination (R58, R481). -/
structure OutBuf where
  rows : List OutRow := []
  dest : Option Dest := none
  deriving DecidableEq, Repr

/-- An installed steering rule (R126) with its running packet number and its prediction tallies (R129). -/
structure SteerRule where
  din : Nat
  tin : Nat
  spec : Bool
  rbase : Nat
  rrows : Nat
  used : Nat := 0
  seq : Nat := 0
  deriving DecidableEq, Repr

/-- A match-buffer entry (R128, R129): a waiting token or a waiting or speculated packet. -/
structure MatchEntry where
  rule : Nat
  seq : Nat
  token : Option Nat := none
  /-- waiting packet: its rows -/
  rows : Option (List InRow) := none
  /-- outbound buffer or destination it was forwarded to on prediction -/
  specDest : Option Nat := none
  /-- last rows of a packet being forwarded that have found no room yet: the rows before them stand in the buffer -/
  left : Nat := 0
  /-- outbound buffer that a withdrawal header waits to enter -/
  undo : Option Nat := none
  deriving DecidableEq, Repr

/-- A send channel (R190, R195, R262). -/
structure SendCh where
  dstVtile : BitVec 6 := 0
  dstVfield : BitVec 3 := 0
  dstVring : BitVec 6 := 0
  dstCh : BitVec 5 := 0
  valid : Bool := false
  closed : Bool := false
  credits : Nat := 0
  /-- send count that numbers SEQ, and the count of descriptors sent that R262 uses -/
  seq : Nat := 0
  sent : Nat := 0
  deriving DecidableEq, Repr

/-- What an agent keeps of a receive channel that it sends to (R259, R262): its credits and the descriptors it has sent. -/
structure AgentCh where
  credits : Nat := 16
  sent : Nat := 0
  deriving DecidableEq, Repr

/-- A receive channel with its queue and its receive ring (R191, R193, R196, R197). -/
structure RecvCh where
  srcVtile : BitVec 6 := 0
  srcVfield : BitVec 3 := 0
  srcVring : BitVec 6 := 0
  srcCh : BitVec 5 := 0
  valid : Bool := false
  fin : Bool := false
  ring : Bool := false
  seg : BitVec 6 := 0
  size : BitVec 2 := 0
  queue : List (BitVec 256) := []
  expect : Nat := 0
  /-- SEQ of the last descriptors that were discarded as closed -/
  nacked : List Nat := []
  recvd : Nat := 0
  wp : Nat := 0
  rp : Nat := 0
  used : Nat := 0
  /-- units of each placed message with the skipped tail before it, in order; `taken` is the one that the
  last RECV returned -/
  units : List Nat := []
  taken : Nat := 0
  /-- descriptors of an agent that RECV has removed since the last copy: an agent does not send them again in a
  replay (R56, R195; log entry 26) -/
  past : List (BitVec 256) := []
  deriving DecidableEq, Repr

/-- A request a source endpoint holds until it is answered (R259, R260). -/
structure Req where
  msg : DataMsg
  sentAt : Nat
  resends : Nat := 0
  held : Bool := false
  /-- RETRY_NS and RETRY_MAX when it was sent (R260) -/
  retryNs : Nat := 2000
  retryMax : Nat := 8
  /-- false while a limit of R259 holds it back -/
  sent : Bool := true
  deriving DecidableEq, Repr

/-- One accumulator of the matrix engine (R47, R82, R90, R308). -/
structure Acc where
  w : Int := 0
  anchor : Int := 0
  nan : Bool := false
  pinf : Bool := false
  ninf : Bool := false
  trunc : Bool := false
  range : Bool := false
  residue : Nat := 0
  /-- a poisoned lane has entered the sum (R54) -/
  psn : Bool := false
  deriving DecidableEq, Repr

/-- Claims of wide ports (R147, R150): `n` accesses at cc, cc + step, ... of so many read and write ports. -/
structure PortUse where
  cc : Nat
  n : Nat
  step : Nat
  reads : Nat
  writes : Nat
  deriving DecidableEq, Repr

/-- A wait record (R337). -/
structure WaitRec where
  vtile : Nat
  vfield : Nat
  vring : Nat
  unit : Nat
  kind : Nat
  ext : Bool := false
  tVtile : Nat := 0
  tVfield : Nat := 7
  tVring : Nat := 0
  ch : Nat := 0
  agent : Nat := 0
  /-- uptime at which the wait began, for R262 -/
  since : Nat := 0
  deriving DecidableEq, Repr

/-- A scheduled verb that waits for rows or room (R123, R125), at most one on each unit: its slot, its unit (0 engine,
1 SFU, 2 steering, 3 memory), the rows it has moved, and its wait record. -/
structure Waiting where
  slot : Nat
  unit : Nat := 2
  moved : Nat := 0
  record : WaitRec
  deriving DecidableEq, Repr

/-- What a row held before a write that is presented in cc `w`: a read in that cc or earlier returns it (R151). `st` marks a
narrow ST, which is applied after the wide writes of its cc; `words` are the words that the write wrote, and `fixed`, `dead`,
`counted` and `rebuilt` the words of what the row held that a read corrects, finds uncorrectable, counts as poisoned, and
rebuilds. -/
structure OldRow where
  row : Nat
  w : Nat
  bytes : List Byte
  psn : List Nat
  st : Bool := false
  words : List Nat := []
  fixed : List Nat := []
  dead : List Nat := []
  counted : List Nat := []
  rebuilt : List Nat := []
  deriving DecidableEq, Repr

/-- The matrix engine's accumulators and the occupancy of the tile's units (R105, R106, R113 to R115). -/
structure Engine where
  /-- empty unless a sum is kept: 4,096 accumulators, row-major -/
  accs : List Acc := []
  keep : Bool := false
  keepCk : Bool := false
  pVec : List Nat := []
  qVec : List Nat := []
  engTo : Nat := 0
  drainTo : Nat := 0
  sfuTo : Nat := 0
  steerTo : Nat := 0
  memTo : Nat := 0
  lastStamp : Nat := 0
  /-- verbs of the beat program that have issued in this beat (R174) -/
  issued : Nat := 0
  /-- largest completion cc C of the beat's scheduled verbs (R174) -/
  doneBy : Nat := 0
  /-- slot of the verb that completes then (R344) -/
  doneSlot : Nat := 0
  /-- latest arrival of a word on the mesh (R174) -/
  arriveBy : Nat := 0
  /-- ticks that the beat has outlasted (R175): its stamps count from the tick before them -/
  past : Nat := 0
  /-- wide ports claimed by verbs that have issued (R150) -/
  ports : List PortUse := []
  waiting : List Waiting := []
  /-- accesses of the dynamic verb that starts: the cc that its fields give each, and the cc that R107 leaves it -/
  shift : List (Nat × Nat) := []
  /-- a rehearsed RING_STALL has held the tile for the whole beat: what it had to issue starts with the grace beat (R323) -/
  stalled : Bool := false
  deriving DecidableEq, Repr

/-- A verb in the dynamic queue or running (R107, R140, R164). -/
structure DynVerb where
  verb : BitVec 128
  tag : Nat
  writes : List (Nat × Nat)
  reads : List (Nat × Nat)
  /-- completion cc once started -/
  done : Option Nat := none
  deriving DecidableEq, Repr

/-- A held scoreboard entry (R163). -/
structure SbEntry where
  first : Nat
  last : Nat
  tag : Nat
  release : Option Nat := none
  deriving DecidableEq, Repr

/-- The scalar core (R65, R135 to R140). -/
structure Core where
  g : List (Nat × BitVec 64) := []
  pred : BitVec 8 := 1
  pc : Nat := 0
  ended : Bool := true
  /-- the narrow slot last taken, by LD, ST or the scrubber (R148) -/
  slotAt : Option Nat := none
  deriving DecidableEq, Repr

/-- The scratchpad's state beside its bytes (R146, R155, R157, R158, R161, R162). -/
structure Spm where
  segClass : BitVec 64 := 0
  /-- rows with XV set -/
  xv : List Nat := []
  hints : List Nat := []
  scrubRow : Nat := 0
  /-- row read by the scrubber that waits for its writeback -/
  writeback : Option Nat := none
  /-- words corrected by the scrubber in consecutive passes -/
  persist : List (Nat × Nat) := []
  /-- words that already counted as a site failure in this beat, and those of the run that this beat replays -/
  failedWords : List Nat := []
  priorWords : List Nat := []
  /-- the same words of rows that a write of this beat has replaced since: reads of the cc before it still find them (R151, R158) -/
  failedOld : List Nat := []
  priorOld : List Nat := []
  corrRec : Bool := false
  uncorrRec : Bool := false
  /-- narrow words of Module Address accesses whose slots are still to come (R148, R169) -/
  maDue : Nat := 0
  /-- first rows after outputs that were written without checksum vectors: a CHECK CSUM against them fails (R308) -/
  unsummed : List Nat := []
  deriving DecidableEq, Repr

/-- A tile site and what is bound to it (R47, R65 to R71). -/
structure Tile where
  st : TileSt := .unbound
  grace : Bool := false
  provIn : Bool := false
  bound : Bool := false
  vtile : BitVec 6 := 0
  vfield : BitVec 3 := 0
  vring : BitVec 6 := 0
  workBeat : BitVec 32 := 0
  pass : BitVec 32 := 0
  sentBeat : BitVec 32 := 0
  epoch : BitVec 8 := 0
  gen : BitVec 8 := 0
  role : BitVec 2 := 0
  mirror : Bool := false
  specEn : Bool := false
  carryBase : BitVec 13 := 0
  carryRows : BitVec 9 := 0
  err : BitVec 9 := 0
  corr : Nat := 0
  discards : Nat := 0
  closedSends : Nat := 0
  poisonCnt : Nat := 0
  trap : TrapInfo := {}
  spm : Spm := {}
  eng : Engine := {}
  core : Core := {}
  inb : List (Nat × InBuf) := []
  outb : List (Nat × OutBuf) := []
  sendCh : List (Nat × SendCh) := []
  recvCh : List (Nat × RecvCh) := []
  heldSend : List (Nat × SendCh) := []
  heldRecv : List (Nat × RecvCh) := []
  /-- the held copies of one tick earlier, for a replay that goes two beats back (R40, R315; log entry 25) -/
  olderSend : List (Nat × SendCh) := []
  olderRecv : List (Nat × RecvCh) := []
  reqs : List Req := []
  rules : List (Nat × SteerRule) := []
  matchBuf : List MatchEntry := []
  matchOvf : Bool := false
  /-- an arrival was refused since the last tick: the beat counts as an overrun (R130) -/
  ovfDue : Bool := false
  /-- tokens of this and of the previous work beat, by rule × 6 + DEST (R129) -/
  tally : List (Nat × Nat) := []
  tallyPrev : List (Nat × Nat) := []
  sb : List (Nat × SbEntry) := []
  dynQ : List DynVerb := []
  waits : List WaitRec := []
  verbs : List (BitVec 128) := []
  code : List (BitVec 32) := []
  /-- records already written in this beat: epoch discards, closed channels (R194, R199) -/
  epochDisc : Nat := 0
  closedRec : List Nat := []
  /-- rows with a write that has not reached its cc, earliest first (R151, R153) -/
  oldRows : List OldRow := []
  /-- mesh ports driven in this beat: side × 2^20 + cc (R178) -/
  driven : List Nat := []
  /-- upsets of the next SFU or SMAX verb's main path: element and bits that turn over (R311); no state of the spec -/
  sfuUpset : List (Nat × Nat) := []
  /-- lanes of B that the fusion link of a pair poisons on their way to the catcher, for each of the flyer's next engine verbs
  (R76); no state of the spec -/
  fusionUpset : List (List Nat) := []
  /-- words of the verb memory, and from 2^16 on of the instruction memory, that fail their parity (R142) -/
  badParity : List Nat := []
  /-- its units hold: hang analysis (R336) or a rehearsed RING_STALL (R323) -/
  stopped : Bool := false
  /-- the site's tile is moving or being reset and waits for its restore (R288, R289) -/
  restoring : Bool := false
  deriving DecidableEq, Repr

/-! ### Field, ring, ply, far stack -/

/-- A near channel's health (R212, R213, R215). Lanes are kept by TSV group, rows by half × 32 + bank. -/
structure NearCh where
  failed : Bool := false
  lanes : List (Nat × Nat) := []
  rows : List (Nat × Nat) := []
  /-- remapped DRAM rows: (half × 32 + bank) × 16,384 + row -/
  remapped : List Nat := []
  corr : Nat := 0
  uncorr : Nat := 0
  /-- refresh slots that patrol has had (R209) -/
  slots : Nat := 0
  /-- corrections of a DRAM row within the last second, and consecutive patrol passes that corrected it (R213) -/
  rowCorr : List (Nat × List Nat) := []
  rowPass : List (Nat × Nat) := []
  /-- rows to remap in the half's next refresh slot (R213), and lanes that move at the next tick: group × 32 + lane (R212) -/
  rowDue : List Nat := []
  /-- rows of them with an uncorrectable codeword (R278) -/
  rowHard : List Nat := []
  /-- the defect map has the channel DEGRADED (R274) -/
  degraded : Bool := false
  laneDue : List Nat := []
  deriving DecidableEq, Repr

/-- Site states of the defect map (R274, R282). -/
inductive SiteSt where
  | good | suspect | excluded | retired
  deriving DecidableEq, Repr

/-- A site's state and the powered seconds of its last failure (R276). -/
structure SiteMap where
  st : SiteSt := .good
  lastFail : Option Nat := none
  deriving DecidableEq, Repr

/-- The transfers of one scheduled near MOV: site and slot, channel, first cc, rows, first row, direction (R124). -/
structure NearXfer where
  site : Nat
  slot : Nat
  ch : Nat
  cc : Nat
  rows : Nat
  off : Nat
  write : Bool
  /-- first scratchpad row of a read, and what the places it wrote held before (R187) -/
  dst : Nat := 0
  old : List Byte := []
  oldPsn : List Nat := []
  deriving DecidableEq, Repr

/-- A reticle field (R179 to R185, R215, R243, R253, R281, R282). Crossings are keyed by side × 9 + crossing,
sides 0 to 3 in the order N, E, S, W; a value counts the data lanes lost. -/
structure Field where
  lanesLost : List (Nat × Nat) := []
  sparesUsed : List (Nat × Nat) := []
  crcErr : List (Nat × Nat) := []
  nearCh : List (Nat × NearCh) := []
  mwSpares : List (Nat × Nat) := []
  mwFail : List Nat := []
  deflect : Nat := 0
  dropDcnt : Nat := 0
  dropAge : Nat := 0
  dropFmt : Nat := 0
  crcRetry : Nat := 0
  /-- router input that an urgent packet left last: N, E, S, W, local (R249) -/
  urgLast : Nat := 4
  /-- packets dropped in this beat (R251) -/
  drops : Nat := 0
  /-- shifted rows and the column vacated -/
  shift : List (Nat × Nat) := []
  paired : Bool := false
  retired : Bool := false
  sites : List (Nat × SiteMap) := []
  /-- writer tags of SPILL granules (R205): channel × 1,024 + granule to clause-table entry -/
  writer : List (Nat × Nat) := []
  nearCorrRec : Bool := false
  /-- scheduled near transfers of the beat (R187) -/
  xfers : List NearXfer := []
  /-- claim map of the crossbar: channel × 2^14 + window (R189) -/
  claims : List Nat := []
  /-- failures attributed to a lane of a crossing within the last second, by (side × 9 + crossing) × 64 + lane (R184) -/
  laneFails : List (Nat × List Nat) := []
  /-- lanes to retire at the next tick -/
  laneDue : List Nat := []
  /-- lanes of Midway links to retire then: side × 64 + lane (R243) -/
  mwLaneDue : List Nat := []
  /-- output lanes of the router that stream a packet: output × 2 + 1 for data, and until which uptime (R249) -/
  busy : List (Nat × Nat) := []
  /-- dirty bits of near memory: channel × 2^19 + 4 KiB block (R238) -/
  dirty : List Nat := []
  /-- configuration areas that hold a staged configuration, 0 and 1 (R204) -/
  staged : List Nat := []
  deriving DecidableEq, Repr

/-- States of a ring (R295), in the order of their values. -/
inductive RingSt where
  | free | reserve | assigned | resetting | lost | degraded
  deriving DecidableEq, Repr

/-- An answer a ring fence keeps (R261). -/
inductive Answer where
  | done | held | nack (reason : Nat) | data
  deriving DecidableEq, Repr

/-- What a ring fence knows of one source (R259, R261). -/
structure FenceSrc where
  expect : Nat := 0
  answers : List (Nat × Answer) := []
  deriving DecidableEq, Repr

/-- A WWRITE in the commit queue with the beat that must commit first (R39, R266). -/
structure CommitEntry where
  msg : DataMsg
  beat : Nat
  /-- its beat has been released: the queue applies it -/
  released : Bool := false
  deriving DecidableEq, Repr

/-- A word for an inbound buffer that the ring's pool keeps while the bank does not take it (R52): site, buffer, producer. -/
structure PoolWord where
  site : Nat
  buf : Nat
  src : Producer
  word : MeshWord
  deriving DecidableEq, Repr

/-- A ring (R17, R18, R254 to R269, R295, R318, R319, R420). -/
structure Ring where
  st : RingSt := .free
  gen : BitVec 8 := 0
  queues : List (Nat × List DataMsg) := []
  /-- words of Midway senders that wait for their inbound buffers, oldest first (R52) -/
  words : List PoolWord := []
  commitQ : List CommitEntry := []
  /-- packets whose ejection has completed and whose command is still to come, with the queue that keeps their cells (R255) -/
  ejected : List (Nat × DataMsg) := []
  refused : Nat := 0
  cntClosed : Nat := 0
  cntRefused : Nat := 0
  cntStale : Nat := 0
  cntEpoch : Nat := 0
  srcs : List (Nat × FenceSrc) := []
  ejectOff : Bool := false
  sideCount : Nat := 0
  deepBeats : Nat := 0
  timingPs : Int := 0
  voltMv : Int := 0
  lowAtMhz : Option Nat := none
  /-- 0x3022: 0 on, 1 off by THERMTRIP, 2 latched off, 3 e-fuse open -/
  supply : Nat := 0
  vcoreLost : List Nat := []
  vdramLost : List Nat := []
  phaseTimes : List Nat := []
  /-- RING item of the defect map (R277): state and powered seconds of the last latch-off -/
  item : SiteSt := .good
  itemFail : Option Nat := none
  /-- failed engine-level recoveries, by uptime (R326) -/
  engFails : List Nat := []
  /-- ladder level of the repair in progress (R348) -/
  repair : Option Nat := none
  tjMax : Int := 0
  /-- the partition reset of a withdrawn ring has started (R453) -/
  partStart : Option Nat := none
  ctlDead : Bool := false
  /-- the last urgent ABORT and RELEASE delivered to the controller (R270) -/
  lastAbort : Option CtlMsg := none
  lastRelease : Option CtlMsg := none
  /-- urgent packets that wait for the controller, and the uptime of its last one (R270) -/
  urgQ : List CtlMsg := []
  urgAt : Option Nat := none
  /-- endpoints reported to the controller as not answering (R260) -/
  reported : List Nat := []
  clearing : Bool := false
  /-- sites that missed a tick, and which tick (R171) -/
  missed : List Nat := []
  missedTick : Nat := 0
  deriving DecidableEq, Repr

/-- A collective at a sequencer (R389 to R392). -/
structure Coll where
  desc : BitVec 512
  ten : Nat
  msg : DataMsg
  beat : Nat
  eligible : Bool := false
  running : Bool := false
  /-- the predecessor's COLL_START has come and agrees -/
  peersOk : Bool := false
  /-- running sums by chunk, and final chunks, as bytes -/
  work : List (Nat × List Byte) := []
  res : List (Nat × List Byte) := []
  /-- next step expected from the predecessor, and the bytes of it so far -/
  step : Nat := 0
  seg : List Byte := []
  poisoned : Bool := false
  /-- final status (R391) once it has completed or aborted -/
  status : Option Nat := none
  deriving DecidableEq, Repr

/-- A change that a Ringmaster sends to the Box Office (R273, R278): the entry, and the uptime of the failure. -/
structure Refinement where
  entry : BitVec 128
  at_ : Nat
  /-- refinements before it that found the queue full -/
  gap : Nat := 0
  deriving DecidableEq, Repr

/-- A ply: its Ringmaster, staging queue, trip latch and collective sequencer (R24, R272, R273, R345, R349, R435). -/
structure Ply where
  rmOk : Bool := true
  tripped : Bool := false
  tjMax : Int := 0
  staging : List EvRec := []
  refine : List Refinement := []
  refineLost : Nat := 0
  /-- repair in progress and queue: ring and level -/
  busy : Option (Nat × Nat) := none
  /-- uptime at which the action began (R349, R350) -/
  busyAt : Nat := 0
  repairQ : List (Nat × Nat) := []
  /-- rings of other plies whose requests for a reserve of this ply wait (R349) -/
  guests : List Nat := []
  /-- errors of class B and above since the last tick in rings under repair, by ring and code (R348) -/
  raised : List (Nat × Nat) := []
  colls : List Coll := []
  deriving DecidableEq, Repr

/-- A lexicon in one of the LX14 path's buffers (R234): tenancy, Tenancy Address, 64 KiB as one little-endian number and
its poisoned 8-byte words. -/
structure Lexicon where
  ten : Nat
  at_ : Nat
  w : Nat
  psn : List Nat
  deriving DecidableEq, Repr

/-- A far-DMA descriptor in an engine (R229 to R232); `lex` is the lexicon buffer it uses once started. -/
structure DmaJob where
  desc : BitVec 512
  msg : DataMsg
  beat : Nat
  eligible : Bool := false
  status : Nat := 0
  written : Nat := 0
  /-- its epoch is over: it finishes without a completion (R200) -/
  quiet : Bool := false
  lex : Option Lexicon := none
  deriving DecidableEq, Repr

/-- A far stack with its trunk, DMA engine and health (R225 to R232, R234, R367, R416). -/
structure Stack where
  queue : List DmaJob := []
  active : List DmaJob := []
  fenced : List Nat := []
  retraining : List Nat := []
  corr : Nat := 0
  uncorr : Nat := 0
  /-- granules that hold written data; a read of any other returns zeros -/
  written : List Nat := []
  /-- the resident lexicon -/
  lexicon : Option Lexicon := none
  /-- writer tags of far SPILL granules: granule to clause-table entry + 1 -/
  writer : List (Nat × Nat) := []
  /-- the lexicon buffer that is not resident, where a running descriptor still uses it (R234) -/
  lexicon2 : Option Lexicon := none
  deriving DecidableEq, Repr

/-! ### Tenancies, windows, sentences -/

/-- Window attributes (R37), in the order of their values. -/
inductive Attr where
  | input | output | spill | master | guarded
  deriving DecidableEq, Repr

/-- Where a window's granules lie (R220, R221, R366). `near` and `far` carry the number of the first
granule; a host window lists (stack, granule) of each. -/
inductive Place where
  | near (first : Nat)
  | far (first : Nat)
  | host (grans : List (Nat × Nat))
  deriving DecidableEq, Repr

/-- A window of a tenancy (R13, R33, R37, R366). -/
structure Window where
  base : Nat
  granules : Nat
  attr : Attr
  place : Place
  gen : BitVec 8 := 0
  fromSentence : Bool := true
  deriving DecidableEq, Repr

/-- A shape entry (R283). -/
structure Edge where
  va : Nat
  vb : Nat
  side : Side
  deriving DecidableEq, Repr

/-- A clause's or relocation option's configuration (R283, R291, R305, R369). -/
structure Cfg where
  edges : List Edge := []
  relayOk : Bool := false
  restoreMib : Nat := 0
  alevel : Nat := 0
  ak : Nat := 0
  save : BitVec 64 := 0
  layout : ClauseLayout := {}
  deriving DecidableEq, Repr

/-- A relocation option (R291). -/
structure Reloc where
  vring : Nat
  cfg : Cfg
  deriving DecidableEq, Repr

/-- A clause-table entry with its configuration and options (R32). -/
structure Clause where
  rings : Nat
  next : Nat
  loopTo : Nat
  loopCount : Nat
  workBeats : Nat
  trapeze : Bool
  guard : Bool
  cfg : Cfg
  relocs : List Reloc := []
  deriving DecidableEq, Repr

/-- A stream binding (R384). -/
structure Binding where
  stream : Nat
  egress : Bool
  lport : Nat
  port : Nat
  vl : Nat
  op : Nat
  ifmt : Nat
  ofmt : Nat
  base : Nat
  granules : Nat
  nVtile : Nat
  nVfield : Nat
  nVring : Nat
  nCh : Nat
  aux : Nat
  deriving DecidableEq, Repr

/-- A loaded sentence (R29, R30). -/
structure Sentence where
  seamFloor : Nat
  beatLog2 : Nat
  rings : Nat
  trapeze : Bool
  detColl : Bool
  guard : Bool
  spec : Bool
  mirror : Bool
  clauses : List Clause
  bindings : List Binding
  /-- physical ring of each sentence virtual ring, and its far home (R284, R294) -/
  bound : List Nat := []
  farHome : List Nat := []
  /-- virtual rings whose migration is complete: their far home changes at the next load beat (R294) -/
  migrated : List Nat := []
  low : Nat := 0
  high : Nat := 0
  nextNear : Nat := 0
  nextFar : Nat := 0
  /-- PORT_MAP as it was at LOAD (R386) -/
  portMap : List (Nat × Nat) := []
  deriving DecidableEq, Repr

/-- What the current beat of a running sentence is (R35, R63, R175, R288, R340, R369). -/
inductive Phase where
  /-- RUN accepted; the first load beat begins at the next tick -/
  | start
  | load
  | work
  | replay
  | grace
  | drain
  /-- rebind beats left, and whether the replay goes two beats back -/
  | rebind (left : Nat)
  /-- overrun fault: cc of the fault tick (R336) -/
  | hang (atCc : Nat)
  /-- EXTERNAL hold since this uptime (R340) -/
  | hold (since : Nat)
  /-- takeover of a virtual ring in progress (R297) -/
  | takeover (vring : Nat) (since : Nat)
  | wait
  | swap (left : Nat)
  /-- no work beat until the guard-save room suffices (R238) -/
  | guardHold
  /-- held by the hold-up flush -/
  | held
  deriving DecidableEq, Repr

/-- A command of a host port that has not completed. -/
structure Waiter where
  port : HPortId
  q : QId
  cid : BitVec 16
  /-- resets of the port when the command was fetched: after another reset its completion is discarded (R352) -/
  gen : Nat := 0
  deriving DecidableEq, Repr

/-- Sequence state of a clause's source endpoints and fences, copied at a tick (R195, R314): request SEQ by source
and ring, agents' counts, and by bound ring what its fence expects of tile sources. -/
structure SeqCopy where
  reqSeq : List (Nat × Nat)
  agentSeq : List (Nat × Nat)
  agentTaken : List (Nat × Nat)
  srcs : List (Nat × List (Nat × FenceSrc))
  deriving DecidableEq, Repr

/-- A guard copy (R238): its beat, the ranges of the GUARDED window it goes to (address, length), the bytes and poison
flags for them as they stood at the tick that committed the beat, and whether it has reached the window. -/
structure GuardCopy where
  beat : Nat
  ranges : List (Nat × Nat) := []
  cells : List Host.Cell
  psn : List Nat
  done : Bool := false
  /-- 4 KiB blocks that it reads: Module Address, and place in the GUARDED window -/
  blocks : List (Nat × Nat) := []
  /-- units of 128 B that later writes have moved into the guard-save granules: Module Address div 128 -/
  swaps : List Nat := []
  /-- guard map under which it is made: the guarded granules in order (R237) -/
  map : List VGranule := []
  deriving DecidableEq, Repr

/-- Where a work beat stands in its sentence: entry, work beat and pass counters (R34, R63). -/
structure BeatPos where
  beat : Nat
  clause : Nat
  workBeat : Nat
  passes : List (Nat × Nat)
  deriving DecidableEq, Repr

/-- A move of a virtual ring (R292): its target ring and the option applied. -/
structure Move where
  vring : Nat
  target : Nat
  option : Option Nat
  deriving DecidableEq, Repr

/-- A running sentence (R34, R63, R173 to R175, R313, R314). -/
structure Run where
  clause : Nat := 0
  passes : List (Nat × Nat) := []
  workBeat : Nat := 0
  sentBeat : Nat := 0
  phase : Phase := .start
  begun : Bool := false
  staged : Bool := true
  /-- the broadcast has had the second load beat that it needs (R35) -/
  bcast : Bool := false
  stageAt : Option Nat := none
  /-- failures raised in the running beat, by mechanism of 0x4005 (R313) -/
  fails : List Nat := []
  /-- failures of the beat before, reported after its tick (R315) -/
  late : List Nat := []
  pendingBeat : Option Nat := none
  lastCommitted : Option Nat := none
  replays : Nat := 0
  /-- uptime at which its last replay failed (R326) -/
  replayAt : Nat := 0
  overrun : Bool := false
  /-- the next replay is followed by a replay of the beat after it (R40) -/
  replayNext : Bool := false
  stopBy : Option Waiter := none
  stopReq : Bool := false
  runBy : Option Waiter := none
  /-- guard: beats committed whose outputs wait for their copy (R238), oldest first -/
  copies : List GuardCopy := []
  restorePoint : Option Nat := none
  /-- no copy has been made yet under the running clause's guard map: the first one takes every guarded granule whole -/
  guardNew : Bool := true
  level : Nat := 2
  k : Nat := 3
  option : Option Nat := none
  /-- cycle of the last DEADLOCK: tiles (R340) -/
  lastCycle : List Nat := []
  /-- traps of the running beat and of the failed run that it replays: code, slot, pc and site, newest first (R143) -/
  lastTraps : List (Nat × Nat × Nat × Nat) := []
  /-- flyers whose mirror compare or fusion link has failed in the running beat or in the failed run that it replays (R76) -/
  lastMirror : List Nat := []
  /-- near codewords read uncorrectable in this beat, by lane address of their first lane (R211) -/
  badWords : List Nat := []
  /-- what near rows held before tiles wrote them in beat `w`, by Module Address, for the beats that are not committed:
  a guard copy and the far DMA read committed data (R231, R238) -/
  nearOld : List OldRow := []
  /-- uptime of the injection of a rehearsed fault whose recovery is timed (R321) -/
  rehearsedAt : Option Nat := none
  /-- the beat in which it was injected -/
  rehearsedBeat : Nat := 0
  /-- sites named by the failures of the beat (R329) -/
  involved : List Nat := []
  /-- sequence copies of the last two ticks that took them, newest first -/
  seqs : List SeqCopy := []
  /-- the next replay follows a reset at the engine level (R326) -/
  engineTry : Bool := false
  /-- the last beat whose carry copies have been mirrored (R217) -/
  mirrored : Option Nat := none
  /-- rings to leave at the next tick (R297) -/
  moving : List Move := []
  /-- virtual rings of the takeover in progress, with the rings they have left (R297) -/
  moved : List (Nat × Nat) := []
  /-- bound sites whose test has failed: they are EXCLUDED at the tick that closes the audit (R290, R315) -/
  lateSites : List Nat := []
  /-- sites that raised a failed CHECK compare, whose buddies are involved (R329) -/
  cmpSites : List Nat := []
  /-- configuration area that the running clause's configuration is in (R204) -/
  area : Nat := 0
  /-- a takeover whose clause has not yet committed a beat (R326) -/
  resuming : Bool := false
  /-- an option has been applied: its load beat comes before the replay (R292) -/
  reload : Bool := false
  /-- positions of the last work beats, newest first -/
  history : List BeatPos := []
  /-- switched out at the end of a pass of the same entry (R198, R368) -/
  sameEntry : Bool := false
  /-- uptime of the loss that a takeover answers (R299, R326) -/
  lostAt : Nat := 0
  /-- the takeover has been counted as late (R326) -/
  lateSeen : Bool := false
  /-- windows of the granule map that the last load beat wrote into the crossbars (R205) -/
  grans : Option (List Window) := none
  /-- guard map under which the last complete copy stands in the GUARDED window (R237, R239) -/
  guardMap : Option (List VGranule) := none
  /-- failures of known-answer tests in the running beat, and their sites: they fail the audit of this beat at its normal close
  (R290, R315) -/
  lateDue : List Nat := []
  lateSitesDue : List Nat := []
  /-- sites named by the failure under repair (R348) -/
  repairSites : List Nat := []
  /-- first AGENT of the hang whose EXTERNAL hold lasts (R344) -/
  extAgent : Nat := 0
  /-- latest work beat that has passed: what is run again counts once for the quantum (R368) -/
  topBeat : Option Nat := none
  deriving DecidableEq, Repr

/-- A DMA_RD that waits for the beats that wrote its range to commit (R39, R358). -/
structure HostRead where
  w : Waiter
  ta : Nat
  len : Nat
  host : Nat
  /-- the bytes of a DMA_WR; none for a DMA_RD -/
  data : Option (List Byte) := none
  deriving DecidableEq, Repr

/-- States of a tenancy (R363), in the order of their values. -/
inductive TenSt where
  | none_ | created | ready | running | switchedOut | clearing
  deriving DecidableEq, Repr

/-- A tenancy (R306, R363 to R371, R386, R440). -/
structure Tenancy where
  st : TenSt := .none_
  port : Nat := 0xFF
  rings : List Nat := []
  group : Option Nat := none
  quantum : Nat := 0
  nearBase : Nat := 0
  nearLen : Nat := 0
  farBase : Nat := 0
  farLen : Nat := 0
  gen : BitVec 8 := 0
  epoch : BitVec 8 := 0
  auditLevel : Nat := 2
  replayK : Nat := 3
  windows : List Window := []
  hostNext : Nat := 0
  /-- generation each window base last had -/
  winGens : List (Nat × BitVec 8) := []
  portMap : List (Nat × Nat) := []
  sentence : Option Sentence := none
  binding : Option Waiter := none
  /-- sentence and windows of the LOAD that is being bound -/
  loading : Option (Sentence × List Window) := none
  reads : List HostRead := []
  run : Option Run := none
  /-- resident of its group (R368), and a switch is asked for -/
  resident : Bool := false
  switchReq : Bool := false
  switchBy : Option Waiter := none
  /-- work beats since it was switched in (R368) -/
  sinceIn : Nat := 0
  resumed : Bool := false
  /-- tile states saved at the switch-out, by (virtual ring × 6 + field) × 64 + tile (R369) -/
  saved : List (Nat × Tile) := []
  savedMem : List Host.Cell := []
  /-- and what the rings' fences and pools held for it: sequence state, and queues by ring -/
  savedSeq : Option SeqCopy := none
  savedQueues : List (Nat × List (Nat × List DataMsg)) := []
  /-- bytes of the saved state by physical field (R369) -/
  savedBytes : List (Nat × Nat) := []
  destroyBy : Option Waiter := none
  releaseBy : Option Waiter := none
  releasing : List Nat := []
  beatsCommitted : Nat := 0
  auditsFailed : Nat := 0
  beatsReplayed : Nat := 0
  lastCommitted : Nat := 0
  fenceClosed : Nat := 0
  dmaLate : Nat := 0
  loadRepeats : Nat := 0
  switchBeats : Nat := 0
  jobNj : Nat := 0
  tenNj : Nat := 0
  /-- energy of the running beat -/
  accNj : Nat := 0
  /-- Midway flits, trunk bytes and port bytes by ply, and bytes by stack, since the last sample (R440) -/
  plyTraffic : List (Nat × Nat) := []
  stackTraffic : List (Nat × Nat) := []
  /-- endpoints reported to the tenancy as not answering its agents (R260) -/
  reported : List Nat := []
  deriving DecidableEq, Repr

/-! ### Ports -/

/-- Roles of a host port (R354), in the order of their values. -/
inductive Role where
  | observer | tenant | owner
  deriving DecidableEq, Repr

/-- A completion entry (R357). -/
structure Completion where
  cid : BitVec 16
  status : Nat
  sq : Nat
  result : BitVec 64
  deriving DecidableEq, Repr

/-- A command queue with its completion queue (R353, R355, R357). -/
structure HQueue where
  sqBase : BitVec 64 := 0
  cqBase : BitVec 64 := 0
  sqLog : Nat := 0
  cqLog : Nat := 0
  enable : Bool := false
  error : Bool := false
  sqTail : Nat := 0
  fetched : Nat := 0
  cqHead : Nat := 0
  cqTail : Nat := 0
  /-- passes of the completion queue, whose parity gives PHASE -/
  cqPass : Nat := 0
  held : List Completion := []
  deriving DecidableEq, Repr

/-- Cursors and the granted level of a path (R347, R402, R410). -/
structure PathSt where
  level : Nat := 0x200
  readSeq : Nat := 0
  hangIdx : Nat := 0
  mapIdx : Nat := 0
  deriving DecidableEq, Repr

/-- A host port (R351 to R362). -/
structure HPort where
  role : Role := .observer
  evqBase : BitVec 64 := 0
  evqLog : Nat := 0
  evqEnable : Bool := false
  evqHead : Nat := 0
  evqTail : Nat := 0
  evqLost : Nat := 0
  evqLosing : Nat := 0
  queues : List (Nat × HQueue) := []
  mbCmd : BitVec 64 := 0
  mbBusy : Bool := false
  mbDone : Bool := false
  mbAbort : Nat := 0
  mbData : List (Nat × Byte) := []
  ptmUptime : Nat := 0
  ptmTime : BitVec 64 := 0
  ptmCount : Nat := 0
  /-- uptime of the latest dialog (R362) -/
  ptmLast : Option Nat := none
  path : PathSt := {}
  link : Nat := 0
  /-- port resets since power-on (R352) -/
  resets : Nat := 0
  /-- MSI-X messages sent, by vector: 0 to 7 completion queues, 8 event queue, 9 mailbox (R351) -/
  msix : List (Nat × Nat) := []
  deriving DecidableEq, Repr

/-- States of a stream port (R395), in the order of their values. -/
inductive SPortSt where
  | disabled | training | up | down | noLight | noRefclk | version
  deriving DecidableEq, Repr

/-- A descriptor in a port's egress buffer (R388): tenancy, beat, bytes to send once released. -/
structure Egress where
  ten : Nat
  beat : Nat
  msg : DataMsg
  released : Bool := false
  /-- its credit has been returned (R388) -/
  credited : Bool := false
  /-- bytes already framed -/
  sent : Nat := 0
  /-- binding of its stream when it came, and its bytes once its first frame has been made or a compute reset clears the near tier (R393) -/
  bind : Option Binding := none
  bytes : Option (List Byte) := none
  deriving DecidableEq, Repr

/-- A stream port (R373 to R395). -/
structure SPort where
  st : SPortSt := .training
  width : Nat := 0
  enable : Bool := true
  encap : Nat := 0
  version : Nat := 0
  peerId : BitVec 64 := 0
  retries : Nat := 0
  fecUncorr : Nat := 0
  laneAlarm : BitVec 8 := 0
  excluded : BitVec 8 := 0
  ipv6 : List Byte := []
  mac : List Byte := []
  frameMax : Nat := 9216
  frameLimit : Nat := 9216
  discards : Nat := 0
  protoErr : Nat := 0
  helloSeen : Bool := false
  /-- units this side has freed by VL, and units the peer still has room for -/
  freedVl : List (Nat × Nat) := []
  txSent : List (Nat × Nat) := []
  txLimit : List (Nat × Nat) := []
  /-- the peer's buffer sizes, from which its credits started (R381, R383) -/
  txBase : List (Nat × Nat) := []
  lsnTx : Nat := 0
  lsnAcked : Nat := 0
  lsnRx : Nat := 0
  gap : Bool := false
  retryBuf : List Frame := []
  noProgress : Nat := 0
  egress : List Egress := []
  /-- message in progress per stream: MSG, first offset, bytes so far -/
  msgs : List (Nat × Nat × Nat × Nat) := []
  /-- next MSG of each egress stream -/
  egressMsg : List (Nat × Nat) := []
  /-- retried frames that wait for credits or room in the retry buffer -/
  outQ : List Frame := []
  /-- frames the port has sent, oldest first -/
  tx : List Frame := []
  /-- collective frames that wait in the receive buffer until their collective begins here -/
  collHeld : List Frame := []
  /-- DATA frames that wait in the receive buffer for the end of a replay or a grace beat (R387), and whether their units
  are still to be freed on this link -/
  dataHeld : List (Frame × Bool) := []
  /-- units freed during a module compute reset, whose credits are withheld until it ends (R393) -/
  withheld : List (Nat × Nat) := []
  /-- VL that the round-robin of VL 1 to 7 served last (R381) -/
  rr : Nat := 7
  /-- lexicon buffers of its LX14 path, the resident one first (R234) -/
  lexicons : List Lexicon := []
  deriving DecidableEq, Repr

/-! ### Box Office and CAN -/

/-- A log slot (R346). -/
structure LogRec where
  rec_ : EvRec
  pinned : Bool := false
  deriving DecidableEq, Repr

/-- The stored set of R412 and the other settings of the dictionary that hold a plain value. -/
structure Settings where
  emcyInhibit : Nat := 10
  heartbeatMs : Nat := 1000
  retryNs : Nat := 2000
  retryMax : Nat := 8
  reservePerPly : Nat := 1
  emcyClasses : Nat := 0x3F
  shedOrder : Nat := 0x30201
  marginWarn : Nat := 15
  optWarn : Int := -600
  optAlarm : Int := -800
  berWarn : BitVec 32 := 0x3727C5AC
  berAlarm : BitVec 32 := 0x38D1B717
  stallMs : Nat := 1000
  minInterval : Nat := 60
  ptmMs : Nat := 10
  retryTimeoutUs : Nat := 4
  retryLimit : Nat := 8
  udpPort : Nat := 24920
  deriving DecidableEq, Repr

/-- A stream port's entries of the stored set (R412). -/
structure StoredPort where
  enable : Bool
  encap : Nat
  ipv6 : List Byte
  mac : List Byte
  frameMax : Nat
  deriving DecidableEq, Repr

/-- What STORE_ALL keeps in flash besides `Settings`: BEAT_LOG2, CAP_W, FIXED_FREQ and the stream ports'
PORT_ENABLE, ENCAP, IPV6, MAC and FRAME_MAX (R412). -/
structure Stored where
  set : Settings
  beatLog2 : Nat
  capW : Nat
  fixedFreq : Bool
  ports : List (Nat × StoredPort)
  deriving DecidableEq, Repr

/-- Fault rehearsal (R321 to R325). -/
structure Rehearsal where
  enable : Bool := false
  kind : Nat := 0
  target : BitVec 64 := 0
  status : Nat := 0
  reason : Nat := 0
  /-- the last arming was refused: STATUS reads REFUSED (R324) -/
  refused : Bool := false
  lastNs : Nat := 0
  count : Nat := 0
  firedAt : Option Nat := none
  lossAt : Option Nat := none
  /-- rehearsed POISON_WORD: lane addresses whose next read is poisoned -/
  poisonNext : List Nat := []
  /-- rehearsed LANE_DROP: uptime at which the lane returns, field, key, midway -/
  lane : Option (Nat × Nat × Nat × Bool) := none
  /-- rehearsed RING_STALL: ring held for this beat; rehearsed FENCE_SITE: site treated as dead (R323) -/
  stall : Option Nat := none
  fenced : Option Nat := none
  /-- rehearsed RING_LOSS: ring whose controller withholds its HEARTBEAT, until it has rejoined (R323) -/
  lossRing : Option Nat := none
  /-- a real fault has arisen since the rehearsal fired (R325) -/
  real : Bool := false
  deriving DecidableEq, Repr

/-- The most recent hang (R341). -/
structure HangRec where
  cls : Nat := 0
  ten : Nat := 0xFF
  seq : Nat := 0
  /-- the hang's record has not been accepted yet -/
  seqDue : Bool := false
  recs : List WaitRec := []
  deriving DecidableEq, Repr

/-- The Box Office (R346, R347, R397 to R419, R459, R472). -/
structure Box where
  state : Boot := .unpowered
  bootMs : Nat := 0
  lastReset : Nat := 0
  stepRepeats : Nat := 0
  flushMissed : Bool := false
  restarts : Nat := 0
  lastRestart : Nat := 0
  /-- module-level records waiting to be accepted -/
  staging : List EvRec := []
  stagedLost : Nat := 0
  /-- accepted, not yet in flash -/
  toFlash : List EvRec := []
  log : List (Nat × LogRec) := []
  nextSlot : Nat := 0
  nextSeq : Nat := 0
  overflow : Nat := 0
  pinRefused : Nat := 0
  set : Settings := {}
  stored : Option Stored := none
  fwStatus : Nat := 0
  fwOwner : Option Path := none
  fwBytes : List Byte := []
  fwRunning : List Byte := []
  /-- the bank that ran before the activation, and how often the new image has failed to boot (R418) -/
  fwPrev : List Byte := []
  fwTrial : Option Nat := none
  factory : List (BitVec 128) := []
  fieldMap : List (BitVec 128) := []
  factoryStatus : Nat := 0
  mapFull : Nat := 0
  hang : HangRec := {}
  reh : Rehearsal := {}
  detected : List (Nat × Nat) := []
  budget : Nat := 0
  katRuns : Nat := 0
  katFails : Nat := 0
  canaryRuns : Nat := 0
  marginLow : Nat := 0
  /-- 0x4101:04 to 08 by level 2 to 5, and 6 for aborts -/
  entries : List (Nat × Nat) := []
  pwrPending : Bool := false
  collAborts : Nat := 0
  /-- failed partition-level recoveries and failed compute resets, by uptime (R326) -/
  partFails : List Nat := []
  resetFails : List Nat := []
  resetStart : Option Nat := none
  /-- ply whose Ringmaster leads (R272) -/
  lead : Option Nat := none
  alertClasses : Nat := 0x30
  /-- SIDESHOW_HOLD, and the uptime of its write -/
  sideHold : Bool := false
  sideHoldAt : Nat := 0
  /-- tests and canaries are suspended since this uptime: a hold starts at the next tick (R417) -/
  heldFrom : Option Nat := none
  heldNs : Nat := 0
  deriving DecidableEq, Repr

/-- NMT states (R405). -/
inductive Nmt where
  | boot | preOp | operational | stopped
  deriving DecidableEq, Repr

/-- A message the node has put on the CAN bus (R405 to R407). -/
inductive CanMsg where
  | bootUp | heartbeat (st : Nmt) | emcy (code : Nat) (reg : Nat) (r : EvRec)
  | sdo (abort : Nat) (data : List Byte)
  deriving DecidableEq, Repr

/-- The CAN node (R404 to R408). -/
structure Can where
  nmt : Nmt := .boot
  onBus : Bool := false
  busOff : Bool := false
  path : PathSt := {}
  emcyQ : List EvRec := []
  emcyLast : Option Nat := none
  emcyLost : Nat := 0
  segmented : Bool := false
  /-- uptimes of the last segment and of the last heartbeat or boot-up (R405, R406) -/
  segAt : Nat := 0
  hbAt : Nat := 0
  tx : List CanMsg := []
  deriving DecidableEq, Repr

/-- A latent error of one 64-bit word (R154, R210): present in the storage until the word is rewritten. -/
inductive Latent where
  | corr | uncorr
  deriving DecidableEq, Repr

/-- A packet in transit and where it stands (R240, R249). -/
structure Flight where
  field : Nat
  inp : RPort
  p : Packet
  /-- uptime at which it reached the input, or was ready to be injected -/
  since : Nat := 0
  deriving DecidableEq, Repr

/-- The machine. -/
structure State where
  /-- commands waiting, first in, first out -/
  pending : List Instr := []
  fused : Fused := {}
  time : Time := {}
  pins : Pins := {}
  pwr : Power := {}
  tiles : List (Nat × Tile) := []
  fields : List (Nat × Field) := []
  rings : List (Nat × Ring) := []
  plies : List (Nat × Ply) := []
  farStacks : List (Nat × Stack) := []
  tens : List (Nat × Tenancy) := []
  hports : List (Nat × HPort) := []
  sports : List (Nat × SPort) := []
  box : Box := {}
  can : Can := {}
  net : List Flight := []
  /-- requests held by agents that are not tiles, by endpoint address (R259) -/
  agentReqs : List (Nat × List Req) := []
  /-- next request SEQ by source endpoint × 64 + target ring (R259) -/
  reqSeq : List (Nat × Nat) := []
  /-- descriptors that an agent has received and taken out of its queue, by (agent × 2^16 + source) × 32 +
  send channel (R229, R261, R262) -/
  agentSeq : List (Nat × Nat) := []
  agentTaken : List (Nat × Nat) := []
  /-- the last SEQs that an agent has answered with a NACK, by the same keys (R261) -/
  agentNack : List (Nat × List Nat) := []
  /-- an agent's credits toward receive channels, by 2^40 + (agent × 2^16 + tile) × 32 + receive channel (R262) -/
  agentOut : List (Nat × AgentCh) := []
  /-- descriptors for an agent that wait for a predecessor on their channel (R261) -/
  agentPark : List DataMsg := []
  /-- HEARTBEAT seen since the last tick; missed at the last tick; missed at two in a row (R297) -/
  hbSeen : BitVec 64 := 0
  hbMissed : BitVec 64 := 0
  hbLost : BitVec 64 := 0
  /-- NEAR, FAR and SPM bytes by Module Address (R10); an unlisted byte reads 0 -/
  mem : List Host.Cell := []
  /-- poisoned 64-bit words, by Module Address div 8 -/
  poison : List Nat := []
  latent : List (Nat × Latent) := []
  /-- bytes the module has written into host memory, by port × 2^64 + address -/
  hostOut : List Host.Cell := []
  /-- result of the last register read over the Module Address: value, and tagged as poisoned -/
  regOut : BitVec 64 := 0
  regPoison : Bool := false
  /-- free-value counter of the model, no state of the spec -/
  freeCtr : Nat := 0
  deriving DecidableEq, Repr

/-- Right after reset: the module with its 48 V input applied, before power-on (R443, R463), every register
at its reset value. Host port 0 is the Owner (R354). -/
def State.reset : State :=
  { hports := [(0, { role := .owner })] }

end Sys2Proof.Machine
end

