-- ==== Sys2Proof/Machine/Base.lean ====
section
/-! DEFINITION. Sparse maps, bit fields, byte order, addresses and the numbering of repeated parts
(spec/00_scope.md R5, R10; spec/01_anatomy.md R14 to R22). -/

namespace Sys2Proof.Machine
open Sys2Proof

/-! ### Sparse maps: sorted lists of (key, value) without entries equal to the default -/

def SMap.get {α : Type} (d : α) : List (Nat × α) → Nat → α
  | [], _ => d
  | (k, v) :: m, i => if i = k then v else SMap.get d m i

def SMap.erase {α : Type} (m : List (Nat × α)) (i : Nat) : List (Nat × α) :=
  m.filter (fun p => p.1 != i)

def SMap.insert {α : Type} : List (Nat × α) → Nat → α → List (Nat × α)
  | [], i, v => [(i, v)]
  | (k, w) :: m, i, v => if i < k then (i, v) :: (k, w) :: m else (k, w) :: SMap.insert m i v

/-- Store `v` at `i`; storing the default removes the entry. -/
def SMap.put {α : Type} [DecidableEq α] (d : α) (m : List (Nat × α)) (i : Nat) (v : α) : List (Nat × α) :=
  if v = d then SMap.erase m i else SMap.insert (SMap.erase m i) i v

/-- The canonical form: keys strictly rising, no entry equal to the default. -/
def SMap.wf {α : Type} [DecidableEq α] (d : α) : List (Nat × α) → Bool
  | [] => true
  | [(_, v)] => decide (v ≠ d)
  | (k, v) :: (k', v') :: m => decide (v ≠ d) && decide (k < k') && SMap.wf d ((k', v') :: m)

/-! ### Sorted sets of numbers -/

def NSet.add : List Nat → Nat → List Nat
  | [], i => [i]
  | k :: m, i => if i < k then i :: k :: m else if i = k then k :: m else k :: NSet.add m i

def NSet.del (m : List Nat) (i : Nat) : List Nat := m.filter (fun k => k != i)

/-! ### Bit fields and bytes -/

/-- Bits [lo + len − 1 : lo] of a number. -/
def fldN (w lo len : Nat) : Nat := (w >>> lo) % 2 ^ len

/-- Bits [lo + len − 1 : lo] of a word. -/
def fld {n : Nat} (w : BitVec n) (lo len : Nat) : Nat := fldN w.toNat lo len

def bit {n : Nat} (w : BitVec n) (i : Nat) : Bool := fld w i 1 = 1

/-- A signed field. -/
def sgn (len v : Nat) : Int := if v < 2 ^ (len - 1) then v else (v : Int) - 2 ^ len

def b2n (b : Bool) : Nat := if b then 1 else 0

/-- Little-endian value of bytes (R5). -/
def leNat : List Byte → Nat
  | [] => 0
  | b :: bs => b.toNat + 256 * leNat bs

/-- The `n` little-endian bytes of a number (R5). -/
def leBytes : Nat → Nat → List Byte
  | 0, _ => []
  | n + 1, v => BitVec.ofNat 8 v :: leBytes n (v / 256)

/-- Two's-complement pattern of an integer in `n` bits. -/
def ofInt (n : Nat) (v : Int) : Nat := (v % (2 ^ n : Int)).toNat

/-- A list cut or filled with `d` to `n` entries. -/
def padTo {α : Type} (d : α) : Nat → List α → List α
  | 0, _ => []
  | n + 1, [] => d :: padTo d n []
  | n + 1, x :: xs => x :: padTo d n xs

/-- Successive pieces of `n` entries (a fuel of the list's length is enough). -/
def chunks {α : Type} (n : Nat) : Nat → List α → List (List α)
  | 0, _ => []
  | f + 1, xs => match xs with
    | [] => []
    | _ => xs.take n :: chunks n f (xs.drop n)

def ceilDiv (a b : Nat) : Nat := (a + b - 1) / b

/-- A counter of the given width that stays at its largest value. -/
def sat (bits v : Nat) : Nat := min v (2 ^ bits - 1)

def eraseIdx1 {α : Type} (xs : List α) (p : α → Bool) : List α :=
  match xs with
  | [] => []
  | x :: r => if p x then r else x :: eraseIdx1 r p

/-! ### Numbering (R14 to R22) -/

def siteField (i : Nat) : Nat := i / 72
def siteNo (i : Nat) : Nat := i % 72
def fieldPly (f : Nat) : Nat := f / 96
def fieldRow (f : Nat) : Nat := f % 96 / 12
def fieldCol (f : Nat) : Nat := f % 12
/-- Module ring id of a module field (R17). -/
def fieldRing (f : Nat) : Nat := fieldPly f * 16 + fieldRow f / 2 * 4 + fieldCol f / 3
def siteRing (i : Nat) : Nat := fieldRing (siteField i)
def ringPly (r : Nat) : Nat := r / 16
/-- Virtual field of a module field within its ring (R26, R286). -/
def fieldVf (f : Nat) : Nat := fieldRow f % 2 * 3 + fieldCol f % 3
/-- Module field that runs virtual field `vf` of physical ring `r` (R286). -/
def ringField (r vf : Nat) : Nat :=
  r / 16 * 96 + (2 * (r % 16 / 4) + vf / 3) * 12 + (3 * (r % 4) + vf % 3)
/-- Module field of a ring's controller (R18). -/
def ringCentre (r : Nat) : Nat := r / 16 * 96 + (2 * (r % 16 / 4) + 1) * 12 + (3 * (r % 4) + 1)
def ringFields (r : Nat) : List Nat := (List.range 6).map (ringField r)
/-- The two far stacks of a ring, module numbers (R17, R20, R221). -/
def ringStack (r k : Nat) : Nat := r / 16 * 32 + (2 * (r % 16 / 4) + k) * 4 + r % 4
/-- The ring that a far trunk serves, and which of its two trunks it is (R20). -/
def stackRing (st : Nat) : Nat := st / 32 * 16 + st % 32 / 8 * 4 + st % 4
def stackTrunk (st : Nat) : Nat := st % 32 / 4 % 2
/-- Midway coordinates of a module field (R21). -/
def fieldX (f : Nat) : Nat := fieldCol f + 12 * (fieldPly f % 2)
def fieldY (f : Nat) : Nat := fieldRow f + 8 * (fieldPly f / 2)
def fieldOfXY (x y : Nat) : Nat := (y / 8 * 2 + x / 12) * 96 + y % 8 * 12 + x % 12
/-- Endpoint address (R241). -/
def epAddr (f ep : Nat) : BitVec 16 := BitVec.ofNat 16 (fieldX f + fieldY f * 32 + ep * 512)
def epField (a : BitVec 16) : Nat := fieldOfXY (fld a 0 5) (fld a 5 4)
def epNo (a : BitVec 16) : Nat := fld a 9 7
def innerCorner (p : Nat) : Nat := p * 96 + (match p with | 0 => 95 | 1 => 84 | 2 => 11 | _ => 0)
/-- Module field that a stream port attaches to (R22). -/
def portField (p : Nat) : Nat :=
  let ply := p / 8
  let k := p % 8
  let row := if ply < 2 then (if k < 4 then 0 else 2 * (k - 4) + 1) else (if k < 4 then 7 else 6 - 2 * (k - 4))
  let col := if k < 4 then 1 + 3 * k else (if ply % 2 = 0 then 0 else 11)
  ply * 96 + row * 12 + col
/-- A field in its ply's outer row or outer column (R14, R22). -/
def isEdge (f : Nat) : Bool :=
  let p := fieldPly f
  fieldRow f = (if p < 2 then 0 else 7) || fieldCol f = (if p % 2 = 0 then 0 else 11)

def Side.no : Side → Nat
  | .north => 0 | .east => 1 | .south => 2 | .west => 3

def Side.of : Nat → Side
  | 0 => .north | 1 => .east | 2 => .south | _ => .west

def Side.back : Side → Side
  | .north => .south | .east => .west | .south => .north | .west => .east

/-- The field on one side of a field, across a seam or a ply bridge; none at the module's boundary. -/
def neighbour (f : Nat) (s : Side) : Option Nat :=
  let x := fieldX f
  let y := fieldY f
  match s with
  | .north => if y = 0 then none else some (fieldOfXY x (y - 1))
  | .south => if y = 15 then none else some (fieldOfXY x (y + 1))
  | .west => if x = 0 then none else some (fieldOfXY (x - 1) y)
  | .east => if x = 23 then none else some (fieldOfXY (x + 1) y)

/-- A side that faces another ply (R185). -/
def isBridge (f : Nat) (sd : Side) : Bool :=
  match neighbour f sd with
  | some g => fieldPly g ≠ fieldPly f
  | none => false

/-- The ring on one side of a ring, at the ring coordinates of R283. -/
def ringNeighbour (r : Nat) (s : Side) : Option Nat :=
  let x := r % 4 + 4 * (r / 16 % 2)
  let y := r % 16 / 4 + 4 * (r / 32)
  let at_ (x y : Nat) : Nat := (y / 4 * 2 + x / 4) * 16 + y % 4 * 4 + x % 4
  match s with
  | .north => if y = 0 then none else some (at_ x (y - 1))
  | .south => if y = 7 then none else some (at_ x (y + 1))
  | .west => if x = 0 then none else some (at_ (x - 1) y)
  | .east => if x = 7 then none else some (at_ (x + 1) y)

/-! ### Module Addresses (R10) -/

def nearAddr (f ch off : Nat) : Nat :=
  fieldPly f * 2 ^ 58 + f % 96 * 2 ^ 51 + ch * 2 ^ 46 + off
def farAddr (st off : Nat) : Nat := 2 ^ 60 + st / 32 * 2 ^ 58 + st % 32 * 2 ^ 53 + off
def spmAddr (i off : Nat) : Nat :=
  2 * 2 ^ 60 + i / 6912 * 2 ^ 58 + i % 6912 / 72 * 2 ^ 51 + 2 ^ 50 + i % 72 * 2 ^ 43 + off

/-- Rows of a scratchpad (R145) and bytes of a row. -/
def spmRows : Nat := 6144
def rowBytes : Nat := 512
def spmSize : Nat := 0x300000

/-- Fixed clock, boost ceiling and power limit of each variant (R25). -/
def fixedMhz : Variant → Nat
  | .l2x => 1450 | .l2s => 1300 | .l2e => 1000
def boostMhz : Variant → Nat
  | .l2x => 1600 | .l2s => 1450 | .l2e => 1150
def limitW : Variant → Nat
  | .l2x => 120000 | .l2s => 100000 | .l2e => 72000
def Variant.no : Variant → Nat
  | .l2x => 0 | .l2s => 1 | .l2e => 2
def productCode : Variant → Nat
  | .l2x => 0x4C320078 | .l2s => 0x4C320064 | .l2e => 0x4C320048

end Sys2Proof.Machine
end

