-- ==== Sys2Proof/Machine/Arith.lean ====
section
/-! DEFINITION. Formats, exact accumulation and rounding (spec/04_arithmetic.md R77 to R101, R307).
Every finite value is an exact dyadic number; narrowing is explicit and happens once. -/

namespace Sys2Proof.Machine
open Sys2Proof

/-- A value of any element format: (−1)^neg × m × 2^e, an infinity or NaN. A zero keeps its sign. -/
inductive Num where
  | fin (neg : Bool) (m : Nat) (e : Int)
  | inf (neg : Bool)
  | nan
  deriving DecidableEq, Repr

/-- How a floating format spends its highest codes (R77). -/
inductive Special where
  | none | e4m3 | ieee
  deriving DecidableEq, Repr

structure FFmt where
  ebits : Nat
  mbits : Nat
  bias : Nat
  special : Special
  deriving DecidableEq, Repr

def fp32 : FFmt := ⟨8, 23, 127, .ieee⟩
def fp64 : FFmt := ⟨11, 52, 1023, .ieee⟩
def e4m3 : FFmt := ⟨4, 3, 7, .e4m3⟩

/-- The floating formats by format code (R77, R110). -/
def ffmt : Nat → Option FFmt
  | 0x0 => some ⟨2, 1, 1, .none⟩
  | 0x1 => some ⟨2, 3, 1, .none⟩
  | 0x2 => some ⟨3, 2, 3, .none⟩
  | 0x3 => some e4m3
  | 0x4 => some ⟨5, 2, 15, .ieee⟩
  | 0x8 => some ⟨8, 7, 127, .ieee⟩
  | 0x9 => some ⟨5, 10, 15, .ieee⟩
  | 0xA => some fp32
  | 0xB => some fp64
  | 0xC => some e4m3
  | _ => none

/-- Bits of an element of each format code (R78, R110). -/
def fbits : Nat → Nat
  | 0x0 => 4 | 0x1 => 6 | 0x2 => 6 | 0x3 => 8 | 0x4 => 8 | 0x5 => 8 | 0x6 => 8 | 0x7 => 4
  | 0x8 => 16 | 0x9 => 16 | 0xA => 32 | 0xB => 64 | 0xC => 8 | 0xD => 32 | 0xE => 16 | _ => 256

/-- Value of a floating code (R77). -/
def decFloat (f : FFmt) (c : Nat) : Num :=
  let m := fldN c 0 f.mbits
  let e := fldN c f.mbits f.ebits
  let neg := fldN c (f.mbits + f.ebits) 1 = 1
  let top := e = 2 ^ f.ebits - 1
  match f.special with
  | .ieee => if top then (if m = 0 then .inf neg else .nan) else fin_ neg m e
  | .e4m3 => if top && m = 7 then .nan else fin_ neg m e
  | .none => fin_ neg m e
where
  fin_ (neg : Bool) (m e : Nat) : Num :=
    if e = 0 then .fin neg m (1 - (f.bias : Int) - f.mbits)
    else .fin neg (2 ^ f.mbits + m) ((e : Int) - f.bias - f.mbits)

/-- An integer as a value. -/
def numOfInt (v : Int) (e : Int := 0) : Num := .fin (v < 0) v.natAbs e

/-- Value of an element before its block scale (R77 to R79, R110). -/
def decElem (code c : Nat) : Num :=
  match ffmt code with
  | some f => decFloat f c
  | none => match code with
    | 0x5 => numOfInt (sgn 8 c) (-6)
    | _ => numOfInt (sgn (fbits code) c)

/-- 2^k times a natural number, rounded down, for any k. -/
def shl (m : Nat) (k : Int) : Nat := if k < 0 then m >>> k.natAbs else m <<< k.natAbs

/-- Round p × 2^e / q to an integer, nearest, ties to even. -/
def rneQ (p q : Nat) (e : Int) : Nat :=
  let p := if e < 0 then p else p <<< e.natAbs
  let q := if e < 0 then q <<< e.natAbs else q
  let n := p / q
  let r := p % q
  if 2 * r > q || (2 * r = q && n % 2 = 1) then n + 1 else n

/-- floor(log2 (p × 2^e / q)) for p, q > 0. -/
def floorLog (p q : Nat) (e : Int) : Int :=
  let l : Int := (p.log2 : Int) - q.log2
  let big := if l < 0 then p <<< l.natAbs ≥ q else p ≥ q <<< l.natAbs
  (if big then l else l - 1) + e

/-- Largest finite magnitude code of a format. -/
def maxCode (f : FFmt) : Nat :=
  match f.special with
  | .none => 2 ^ (f.ebits + f.mbits) - 1
  | .e4m3 => 2 ^ (f.ebits + f.mbits) - 2
  | .ieee => (2 ^ f.ebits - 1) * 2 ^ f.mbits - 1

/-- The canonical NaN (R90); 0 in a format with none (R96). -/
def nanCode (f : FFmt) : Nat :=
  match f.special with
  | .none => 0
  | .e4m3 => 2 ^ (f.ebits + f.mbits) - 1
  | .ieee => (2 ^ f.ebits - 1) * 2 ^ f.mbits + 2 ^ (f.mbits - 1)

def signed (f : FFmt) (neg : Bool) (mag : Nat) : Nat := b2n neg * 2 ^ (f.ebits + f.mbits) + mag

/-- The result of an overflow (R91); formats without infinity and NaN saturate (R96). -/
def overflow (f : FFmt) (sat neg : Bool) : Nat :=
  match f.special with
  | .none => signed f neg (maxCode f)
  | .e4m3 => if sat then signed f neg (maxCode f) else nanCode f
  | .ieee => signed f neg (if sat then maxCode f else maxCode f + 1)

/-- Round (−1)^neg × p × 2^e / q once to a floating format (R88, R89, R91). -/
def roundQ (f : FFmt) (sat neg : Bool) (p q : Nat) (e : Int) : Nat :=
  if p = 0 then signed f neg 0
  else
    let emin : Int := 1 - f.bias
    let qe := max (floorLog p q e) emin - f.mbits
    let n := rneQ p q (e - qe)
    let mag := (qe + f.mbits + f.bias - 1).toNat * 2 ^ f.mbits + n
    if mag > maxCode f then overflow f sat neg else signed f neg mag

/-- A conversion to a floating format (R96): an infinity stays one where the format has infinities. -/
def encFloat (f : FFmt) (sat : Bool) : Num → Nat
  | .nan => nanCode f
  | .inf neg => if f.special = .ieee then signed f neg (maxCode f + 1) else overflow f sat neg
  | .fin neg m e => roundQ f sat neg m 1 e

/-- A conversion to a two's-complement integer of n bits (R96). -/
def encInt (n : Nat) : Num → Nat
  | .nan => 0
  | .inf neg => ofInt n (if neg then -(2 ^ (n - 1) : Int) else 2 ^ (n - 1) - 1)
  | .fin neg m e =>
    let v : Int := rneQ m 1 e
    let v := if neg then -v else v
    ofInt n (max (-(2 ^ (n - 1) : Int)) (min v (2 ^ (n - 1) - 1)))

/-- A conversion to the format of a code (R96). -/
def encElem (code : Nat) (sat : Bool) (x : Num) : Nat :=
  match ffmt code with
  | some f => encFloat f sat x
  | none => match code with
    | 0x5 => encInt 8 (match x with | .fin n m e => .fin n m (e + 6) | y => y)
    | _ => encInt (fbits code) x

def numNeg : Num → Bool
  | .fin n _ _ => n | .inf n => n | .nan => false

/-- Exact product (R90 for the non-finite cases: infinity × zero is NaN). -/
def numMul : Num → Num → Num
  | .nan, _ => .nan
  | _, .nan => .nan
  | .inf n, .inf n' => .inf (n != n')
  | .inf n, .fin n' m _ => if m = 0 then .nan else .inf (n != n')
  | .fin n m _, .inf n' => if m = 0 then .nan else .inf (n != n')
  | .fin n m e, .fin n' m' e' => .fin (n != n') (m * m') (e + e')

/-- Exact sum of two finite values or the IEEE result. -/
def numAdd : Num → Num → Num
  | .nan, _ => .nan
  | _, .nan => .nan
  | .inf n, .inf n' => if n = n' then .inf n else .nan
  | .inf n, _ => .inf n
  | _, .inf n => .inf n
  | .fin n m e, .fin n' m' e' =>
    let l := min e e'
    let a : Int := m <<< (e - l).toNat
    let b : Int := m' <<< (e' - l).toNat
    let v := (if n then -a else a) + (if n' then -b else b)
    if v = 0 then .fin (n && n') 0 l else numOfInt v l

def numNegate : Num → Num
  | .fin n m e => .fin (!n) m e
  | .inf n => .inf (!n)
  | .nan => .nan

/-- Order of two values that are not NaN, −0 below +0 (R118 for MAX and MIN). -/
def numLe (a b : Num) : Bool :=
  match a, b with
  | .inf true, _ => true
  | _, .inf false => true
  | .inf false, _ => false
  | _, .inf true => false
  | .fin n m e, .fin n' m' e' =>
    let l := min e e'
    let x : Int := m <<< (e - l).toNat
    let y : Int := m' <<< (e' - l).toNat
    let x := if n then -x else x
    let y := if n' then -y else y
    if x = y then (m != 0) || n || !n' else x < y
  | _, _ => false

/-- Equality by value, +0 = −0 (R131). -/
def numEq (a b : Num) : Bool :=
  match a, b with
  | .inf n, .inf n' => n = n'
  | .fin n m e, .fin n' m' e' =>
    let l := min e e'
    let x : Int := m <<< (e - l).toNat
    let y : Int := m' <<< (e' - l).toNat
    (if n then -x else x) = (if n' then -y else y)
  | _, _ => false

def numIsNan : Num → Bool
  | .nan => true
  | _ => false

def numFinite : Num → Bool
  | .fin _ _ _ => true
  | _ => false

/-! ### Anchors (R81, R83) -/

/-- The constant t of R81. -/
def tOf : Nat → Int
  | 0x0 => 2 | 0x1 => 2 | 0x2 => 4 | 0x3 => 8 | 0x4 => 15 | 0x5 => 1 | 0xC => 9 | _ => 0

def isInt (code : Nat) : Bool := code = 0x6 || code = 0x7
def isWide (code : Nat) : Bool := code = 0x8 || code = 0x9

/-- An operand element with its block scale: exact value, and the exponent that R83 takes for it, none
where its scale is not finite. -/
structure Opnd where
  v : Num
  s : Option Int
  /-- BF16 or FP16: the element is its own block -/
  wide : Bool
  deriving DecidableEq, Repr

/-- Own exponent of a BF16 or FP16 element, emin for subnormals and zero (R81). -/
def ownExp (f : FFmt) (c : Nat) : Int :=
  let e := fldN c f.mbits f.ebits
  if e = 0 then 1 - f.bias else (e : Int) - f.bias

/-- Element `c` of format `code` with scale byte `sc` when scaled (R79 to R81). -/
def opnd (code : Nat) (scaled : Bool) (c sc : Nat) : Opnd :=
  match ffmt code with
  | some f =>
    if isWide code then ⟨decFloat f c, some (ownExp f c), true⟩
    else if code = 0xC then
      match decFloat e4m3 sc with
      | .fin n m e => ⟨numMul (decFloat f c) (.fin n m e), some (ownExp e4m3 sc), false⟩
      | _ => ⟨.nan, none, false⟩
    else if scaled then
      if sc = 0xFF then ⟨.nan, none, false⟩
      else ⟨numMul (decFloat f c) (.fin false 1 ((sc : Int) - 127)), some ((sc : Int) - 127), false⟩
    else ⟨decFloat f c, some 0, false⟩
  | none =>
    if scaled then
      if sc = 0xFF then ⟨.nan, none, false⟩
      else ⟨numMul (decElem code c) (.fin false 1 ((sc : Int) - 127)), some ((sc : Int) - 127), false⟩
    else ⟨decElem code c, some 0, false⟩

/-- The exponent sum that one product gives to the maximum of R83, none where it is left out. -/
def pairExp (a b : Opnd) : Option Int :=
  match a.s, b.s with
  | some x, some y =>
    if (a.wide || b.wide) && !(numFinite a.v && numFinite b.v) then none else some (x + y)
  | _, _ => none

/-- Maximum of the exponents that remain. -/
def maxExp : List (Option Int) → Option Int
  | [] => none
  | x :: xs => match x, maxExp xs with
    | some a, some b => some (max a b)
    | some a, none => some a
    | none, m => m

/-- The anchor of a floating dot product (R83). -/
def anchorOf (ta tb : Int) (ps : List (Opnd × Opnd)) : Int :=
  match maxExp (ps.map fun p => pairExp p.1 p.2) with
  | some m => m + ta + tb + 1
  | none => ta + tb + 1

/-! ### Residues (R307) -/

def resM : Nat := 2 ^ 61 - 1

def resOfInt (v : Int) (e : Int) : Nat :=
  ((v % (resM : Int)).toNat * 2 ^ (e % 61).toNat) % resM

/-- Residue of a value; 0 if it is not finite. -/
def residue : Num → Nat
  | .fin n m e => resOfInt (if n then -(m : Int) else m) e
  | _ => 0

/-! ### Accumulators -/

/-- Add one exact value to an accumulator (R84 to R86, R90, R308). -/
def accAdd (c : Acc) (x : Num) : Acc :=
  match x with
  | .nan => { c with nan := true }
  | .inf false => { c with pinf := true }
  | .inf true => { c with ninf := true }
  | .fin n m e =>
    let k := e - (c.anchor - 150)
    let kept := shl m k
    let lost := m - shl kept (-k)
    let lost := if k < 0 then lost else 0
    let v : Int := if n then -(kept : Int) else kept
    let w := c.w + v
    let lv : Int := if n then -(lost : Int) else lost
    { c with
      w := w
      trunc := c.trunc || lost != 0
      range := c.range || decide (kept ≥ 2 ^ 152) || decide (w ≥ 2 ^ 191) || decide (w < -(2 ^ 191))
      residue := (c.residue + resOfInt lv e) % resM }

/-- The residue of the exact sum: the window's and what truncation removed (R308). -/
def accResidue (c : Acc) : Nat := (resOfInt c.w (c.anchor - 150) + c.residue) % resM

/-- An element that marks its row and column SKIP (R308). -/
def accSkip (c : Acc) : Bool := c.nan || c.pinf || c.ninf || c.range

/-- The output of an accumulator in a floating format (R88 to R91). -/
def accFloat (f : FFmt) (sat : Bool) (c : Acc) : Nat :=
  if c.nan || c.range || (c.pinf && c.ninf) then nanCode f
  else if c.pinf then overflow f sat false
  else if c.ninf then overflow f sat true
  else roundQ f sat (c.w < 0) c.w.natAbs 1 (c.anchor - 150)

/-- The output of an accumulator as an integer (R90). -/
def accInt (n : Nat) (c : Acc) : Nat :=
  if c.nan || c.range || (c.pinf && c.ninf) then 0
  else if c.pinf then encInt n (.inf false)
  else if c.ninf then encInt n (.inf true)
  else encInt n (numOfInt c.w (c.anchor - 150))

def accOut (code : Nat) (sat : Bool) (c : Acc) : Nat :=
  match ffmt code with
  | some f => accFloat f sat c
  | none => accInt (fbits code) c

/-- An anchored partial as a number of 256 bits (R94). The anchor's low 16 bits are written, and W is free only where the sum
itself lies outside the range of W (DESIGN CHOICE, log entry 75; log entry 7). -/
def partOf (c : Acc) : Nat :=
  (if c.w ≥ 2 ^ 191 ∨ c.w < -(2 ^ 191) then (Config.rangeW c.w).toNat else ofInt 192 c.w) + ofInt 16 c.anchor * 2 ^ 192 + b2n c.nan * 2 ^ 208 + b2n c.pinf * 2 ^ 209
    + b2n c.ninf * 2 ^ 210 + b2n c.trunc * 2 ^ 211 + b2n c.range * 2 ^ 212

/-- The accumulator that a partial carries (R94). -/
def accOfPart (v : Nat) : Acc :=
  { w := sgn 192 (fldN v 0 192), anchor := sgn 16 (fldN v 192 16)
    nan := fldN v 208 1 = 1, pinf := fldN v 209 1 = 1, ninf := fldN v 210 1 = 1
    trunc := fldN v 211 1 = 1, range := fldN v 212 1 = 1 }

/-- Move a partial to a larger anchor, truncating its magnitude (R95). -/
def accRebase (a : Int) (c : Acc) : Acc :=
  if a = c.anchor then c
  else
    let d := (a - c.anchor).toNat
    let kept := c.w.natAbs >>> d
    { c with
      w := if c.w < 0 then -(kept : Int) else kept
      anchor := a
      trunc := c.trunc || kept <<< d != c.w.natAbs }

/-- Combine two partials (R95). -/
def accJoin (x y : Acc) : Acc :=
  let a := max x.anchor y.anchor
  let x := accRebase a x
  let y := accRebase a y
  let w := x.w + y.w
  { w := w, anchor := a
    nan := x.nan || y.nan, pinf := x.pinf || y.pinf, ninf := x.ninf || y.ninf
    trunc := x.trunc || y.trunc
    range := x.range || y.range || decide (w ≥ 2 ^ 191) || decide (w < -(2 ^ 191)) }

/-! ### Packed elements (R78, R111) -/

/-- Element `p` of a packed array of `b`-bit elements held as one little-endian number. -/
def elemAt (w : Nat) (b p : Nat) : Nat := fldN w (b * p) b

/-- Pack codes of `b` bits, first lowest, into one number. -/
def packN (b : Nat) : List Nat → Nat
  | [] => 0
  | c :: cs => c + 2 ^ b * packN b cs

/-- All `n` elements of a packed array. -/
def unpackN (b : Nat) : Nat → Nat → List Nat
  | 0, _ => []
  | n + 1, w => w % 2 ^ b :: unpackN b n (w >>> b)

/-! ### MX scales (R97) -/

/-- The t that R97 takes: 0 for the MXINT8 element. -/
def tMx (code : Nat) : Int := if code = 0x5 then 0 else tOf code

/-- Scale code of a block (R97). -/
def mxScale (code : Nat) (xs : List Num) : Nat :=
  if xs.any (fun x => !numFinite x) then 0xFF
  else
    let es := xs.map fun x => match x with
      | .fin _ m e => if m = 0 then none else some (floorLog m 1 e)
      | _ => none
    match maxExp es with
    | none => 0
    | some l => (max (-127) (min (l - tMx code) 127) + 127).toNat

/-- One element of a block scaled by 2^(sc − 127) (R96, R97). A finite element of a block whose scale code is 0xFF is scaled by
2^128 (DESIGN CHOICE, log entry 75). -/
def mxElem (code sc : Nat) (x : Num) : Nat :=
  let y := match x with
    | .fin n m e => .fin n m (e - ((sc : Int) - 127))
    | z => z
  encElem code true y

end Sys2Proof.Machine
end

