-- ==== Sys2Proof/Machine/Crc.lean ====
section
/-! DEFINITION. The check codes of images, anchor tables and event records (spec/02_programming_model.md R29;
spec/12_hangs_errors_escalation.md R343; spec/14_stream_ports.md R378, R389). -/

namespace Sys2Proof.Machine
open Sys2Proof

/-- n shifts of a reflected CRC register. -/
def crcShift (poly : BitVec 32) : Nat → BitVec 32 → BitVec 32
  | 0, c => c
  | n + 1, c => crcShift poly n (if c &&& 1 = 1 then (c >>> 1) ^^^ poly else c >>> 1)

def crcByte (poly : BitVec 32) (c : BitVec 32) (b : Byte) : BitVec 32 :=
  crcShift poly 8 (c ^^^ b.setWidth 32)

/-- CRC-32C: reflected polynomial 0x82F63B78, initial value and final XOR 0xFFFFFFFF. -/
def crc32c (bs : List Byte) : BitVec 32 := bs.foldl (crcByte 0x82F63B78) 0xFFFFFFFF ^^^ 0xFFFFFFFF

/-- The CRC-32 of IEEE 802.3 (R378): reflected polynomial 0xEDB88320, initial value and final XOR 0xFFFFFFFF. -/
def crc32Ieee (bs : List Byte) : BitVec 32 := bs.foldl (crcByte 0xEDB88320) 0xFFFFFFFF ^^^ 0xFFFFFFFF

/-- n shifts of the CRC-16 register of R343. -/
def crc16Shift : Nat → BitVec 16 → BitVec 16
  | 0, c => c
  | n + 1, c => crc16Shift n (if c &&& 0x8000 = 0 then c <<< 1 else (c <<< 1) ^^^ 0x1021)

/-- CRC-16 of R343: polynomial 0x1021, initial value 0xFFFF, not reflected. -/
def crc16 (bs : List Byte) : BitVec 16 :=
  bs.foldl (fun (c : BitVec 16) (b : Byte) => crc16Shift 8 (c ^^^ (b.setWidth 16 <<< 8))) 0xFFFF

end Sys2Proof.Machine
end

