-- ==== Sys2Proof/Machine/Ops.lean ====
section
/-! DEFINITION. Named operations over the state: its parts, memory, event records, failures of a beat,
the defect map and traps (R10, R141 to R143, R275 to R277, R313, R343 to R345). -/

namespace Sys2Proof.Machine
open Sys2Proof

/-! ### Parts of the state -/

def tileOf (s : State) (i : Nat) : Tile := SMap.get {} s.tiles i
def setTile (s : State) (i : Nat) (t : Tile) : State := { s with tiles := SMap.put {} s.tiles i t }
def modTile (s : State) (i : Nat) (f : Tile → Tile) : State := setTile s i (f (tileOf s i))

def fieldOf (s : State) (i : Nat) : Field := SMap.get {} s.fields i
def setField (s : State) (i : Nat) (t : Field) : State := { s with fields := SMap.put {} s.fields i t }
def modField (s : State) (i : Nat) (f : Field → Field) : State := setField s i (f (fieldOf s i))

def ringOf (s : State) (i : Nat) : Ring := SMap.get {} s.rings i
/-- A ring group is off: its tiles, mesh, near channels, controller and fence do nothing (R23). -/
def dark (s : State) (r : Nat) : Bool := (ringOf s r).supply ≠ 0
def setRing (s : State) (i : Nat) (t : Ring) : State := { s with rings := SMap.put {} s.rings i t }
def modRing (s : State) (i : Nat) (f : Ring → Ring) : State := setRing s i (f (ringOf s i))

def plyOf (s : State) (i : Nat) : Ply := SMap.get {} s.plies i
def setPly (s : State) (i : Nat) (t : Ply) : State := { s with plies := SMap.put {} s.plies i t }
def modPly (s : State) (i : Nat) (f : Ply → Ply) : State := setPly s i (f (plyOf s i))

def stackOf (s : State) (i : Nat) : Stack := SMap.get {} s.farStacks i
def setStack (s : State) (i : Nat) (t : Stack) : State := { s with farStacks := SMap.put {} s.farStacks i t }
def modStack (s : State) (i : Nat) (f : Stack → Stack) : State := setStack s i (f (stackOf s i))

def tenOf (s : State) (i : Nat) : Tenancy := SMap.get {} s.tens i
def setTen (s : State) (i : Nat) (t : Tenancy) : State := { s with tens := SMap.put {} s.tens i t }
def modTen (s : State) (i : Nat) (f : Tenancy → Tenancy) : State := setTen s i (f (tenOf s i))

def hportOf (s : State) (i : Nat) : HPort := SMap.get {} s.hports i
def setHport (s : State) (i : Nat) (t : HPort) : State := { s with hports := SMap.put {} s.hports i t }
def modHport (s : State) (i : Nat) (f : HPort → HPort) : State := setHport s i (f (hportOf s i))

def sportOf (s : State) (i : Nat) : SPort := SMap.get {} s.sports i
def setSport (s : State) (i : Nat) (t : SPort) : State := { s with sports := SMap.put {} s.sports i t }
def modSport (s : State) (i : Nat) (f : SPort → SPort) : State := setSport s i (f (sportOf s i))

def nearCh (f : Field) (c : Nat) : NearCh := SMap.get {} f.nearCh c
def modNearCh (s : State) (f c : Nat) (g : NearCh → NearCh) : State :=
  modField s f fun x => { x with nearCh := SMap.put {} x.nearCh c (g (nearCh x c)) }

def inBuf (t : Tile) (b : Nat) : InBuf := SMap.get {} t.inb b
def setInBuf (t : Tile) (b : Nat) (x : InBuf) : Tile := { t with inb := SMap.put {} t.inb b x }
def outBuf (t : Tile) (b : Nat) : OutBuf := SMap.get {} t.outb b
def setOutBuf (t : Tile) (b : Nat) (x : OutBuf) : Tile := { t with outb := SMap.put {} t.outb b x }
def sendOf (t : Tile) (c : Nat) : SendCh := SMap.get {} t.sendCh c
def setSend (t : Tile) (c : Nat) (x : SendCh) : Tile := { t with sendCh := SMap.put {} t.sendCh c x }
def recvOf (t : Tile) (c : Nat) : RecvCh := SMap.get {} t.recvCh c
def setRecv (t : Tile) (c : Nat) (x : RecvCh) : Tile := { t with recvCh := SMap.put {} t.recvCh c x }

def allRings : List Nat := List.range 64
def allSites : List Nat := List.range 27648

/-! ### Memory (R10): bytes and poison flags by Module Address -/

/-- The canonical form of memory: addresses strictly rising, no byte that an unlisted address reads as. -/
def Memory.wf (m : List Host.Cell) : Bool := SMap.wf 0 m

def memByte (s : State) (a : Nat) : Byte := SMap.get 0 s.mem a

def memRead (s : State) (a n : Nat) : List Byte := (List.range n).map fun i => memByte s (a + i)

def memPut (m : List Host.Cell) (a : Nat) : List Byte → List Host.Cell
  | [] => m
  | b :: bs => memPut (SMap.put 0 m a b) (a + 1) bs

/-- Write bytes; every 64-bit word touched loses its poison flag and its latent error (R154, R159). -/
def memWrite (s : State) (a : Nat) (bs : List Byte) : State :=
  let inside (l : Nat) : Bool := bs.length ≠ 0 && decide (a / 8 ≤ l) && decide (l ≤ (a + bs.length - 1) / 8)
  { s with
    mem := memPut s.mem a bs
    poison := s.poison.filter fun l => !inside l
    latent := s.latent.filter fun p => !inside p.1 }

def poisonLanes (s : State) (ls : List Nat) : State := { s with poison := ls.foldl NSet.add s.poison }

/-- The poisoned words among the `n` bytes at `a`, numbered from the first. -/
def poisonIn (s : State) (a n : Nat) : List Nat :=
  (List.range ((a + n + 7) / 8 - a / 8)).filter fun i => s.poison.contains (a / 8 + i)

/-- The near or far codeword of an address carries its poison flag: one flag serves its eight lanes (R210, R226). -/
def codewordPoisoned (s : State) (a : Nat) : Bool :=
  (List.range 8).any fun l => s.poison.contains (a / 64 * 8 + l)

/-- Write bytes whose lanes `ls` (numbered from the first) are poisoned. -/
def memWriteP (s : State) (a : Nat) (bs : List Byte) (ls : List Nat) : State :=
  poisonLanes (memWrite s a bs) (ls.map (a / 8 + ·))

/-- Drop every listed byte and flag of an address range: it reads zero again (R168, R364). -/
def memClear (s : State) (lo hi : Nat) : State :=
  let out (a : Nat) : Bool := decide (a < lo) || decide (hi ≤ a)
  { s with
    mem := s.mem.filter fun c => out c.1
    poison := s.poison.filter fun l => out (8 * l)
    latent := s.latent.filter fun p => out (8 * p.1) }

/-- Codewords of a near or far range that are read as poisoned: the poison flag, an uncorrectable error, or a rehearsed word
(R210, R226, R323). -/
def badCodewords (s : State) (a len : Nat) : List Nat :=
  let mine (l : Nat) : Bool := decide (a / 64 * 8 ≤ l) && decide (8 * l < a + len)
  ((s.poison.filter mine ++ s.box.reh.poisonNext.filter mine ++
    (s.latent.filter fun p => mine p.1 && p.2 = .uncorr).map (·.1)).map (· / 8)).foldl NSet.add []

/-- Copy bytes with their poison from one range of near or far memory to another. -/
def copyMem (s : State) (src dst len : Nat) : State :=
  let bad := badCodewords s src len
  let s := memClear s dst (dst + len)
  let move (a : Nat) : Nat := dst + (a - src)
  let cells := s.mem.filter fun c => decide (src ≤ c.1) && decide (c.1 < src + len)
  let psn := bad.flatMap fun w => (List.range 8).map fun k => move (64 * w + 8 * k) / 8
  poisonLanes { s with mem := cells.foldl (fun m c => SMap.put 0 m (move c.1) c.2) s.mem } psn

def memRead64 (s : State) (a : Nat) : Nat := leNat (memRead s a 8)

/-- Bytes the module writes into host memory. -/
def hostWrite (s : State) (port a : Nat) (bs : List Byte) : State :=
  { s with hostOut := memPut s.hostOut (port * 2 ^ 64 + a) bs }

/-! ### Time -/

def beatLen (s : State) : Nat := 2 ^ s.time.beatLog2

/-- W_s of R317. -/
def sideWin (s : State) : Nat := ceilDiv (ceilDiv (3 * beatLen s) 200) 16 * 16

def nsOfMs (ms : Nat) : Nat := ms * 1000000

/-- Nanoseconds of a number of cc at the running clock. -/
def nsOfCc (s : State) (cc : Nat) : Nat := cc * 1000 / max 1 s.time.cclkMhz

/-! ### Tenancies on rings -/

/-- The tenancy that holds a ring (R12, R295, R364): its resident one where a group shares the ring. -/
def ringHolder (s : State) (r : Nat) : Option Nat :=
  let hs := s.tens.filter fun p => p.2.st ≠ .none_ && p.2.rings.contains r
  match hs.find? (fun p => p.2.resident) with
  | some p => some p.1
  | none => (hs.find? fun p => p.2.group = none).map (·.1)

/-- The tenancy that a ring's traffic belongs to: its holder, and for a ring that no tenancy holds the tenancy that runs
in relay from its stacks (R294). -/
def ringTen (s : State) (r : Nat) : Option Nat :=
  match ringHolder s r with
  | some t => some t
  | none => (s.tens.find? fun p => p.2.st ≠ .none_ && (match p.2.sentence with
      | some y => y.farHome.contains r
      | none => false)).map (·.1)

/-- The running sentence on a ring: tenancy and run. -/
def ringRun (s : State) (r : Nat) : Option (Nat × Run) :=
  match ringTen s r with
  | some t => match (tenOf s t).run with
    | some u => some (t, u)
    | none => none
  | none => none

def modRun (s : State) (t : Nat) (f : Run → Run) : State :=
  modTen s t fun x => { x with run := x.run.map f }

def rangesMeet (a b : Nat × Nat) : Bool := decide (a.1 < b.2) && decide (b.1 < a.2)

/-- Rings that a tenancy's sentence runs on. -/
def boundRings (s : State) (n : Nat) : List Nat :=
  match (tenOf s n).sentence with
  | some y => y.bound
  | none => []

/-- Physical ring of a tenancy's virtual ring (R284). -/
def physRing (s : State) (t vr : Nat) : Option Nat :=
  match (tenOf s t).sentence with
  | some x => x.bound[vr]?
  | none => none

/-- In rebind and takeover beats no verb of any ring of the clause issues (R288, R297). -/
def paused (s : State) (r : Nat) : Bool :=
  match ringRun s r with
  | some (_, u) => (match u.phase with | .rebind _ | .takeover _ _ => true | _ => false)
  | none => false

/-- No tile of the ring works: it has no power (R23), or its clause is held for a repair. -/
def halts (s : State) (r : Nat) : Bool := dark s r || paused s r

/-- A clause runs on the ring (R223, R257): the running clause of its tenancy's sentence uses it. -/
def clauseOnRing (s : State) (r : Nat) : Bool :=
  match ringRun s r with
  | some (t, u) => match (tenOf s t).sentence with
    | some x => match x.clauses[u.clause]? with
      | some c => (x.bound.take c.rings).contains r
      | none => false
    | none => false
  | none => false

def clauseRuns (s : State) : Bool := s.tens.any fun p => p.2.run.isSome && p.2.resident

/-- Tiles that run one virtual field: site of virtual tile `vt` (R286). -/
def siteOf (s : State) (f vt : Nat) : Nat :=
  let row := vt / 8
  let col := vt % 8
  let sh := SMap.get 0xF (fieldOf s f).shift row
  f * 72 + row * 9 + (if sh = 0xF || col < sh then col else col + 1)

/-- Site of a virtual tile of a tenancy, none where the virtual ring is not bound. -/
def vSite (s : State) (t vr vf vt : Nat) : Option Nat :=
  if vf < 6 then (physRing s t vr).map fun r => siteOf s (ringField r vf) vt else none

def vKey (vr vf vt : Nat) : Nat := (vr * 6 + vf) * 64 + vt

/-- Sites bound to a virtual tile of the tenancy's running clause. -/
def clauseSites (s : State) (t : Nat) : List Nat :=
  match (tenOf s t).sentence with
  | some x => (s.tiles.filter fun p => p.2.bound && x.bound.contains (siteRing p.1)).map (·.1)
  | none => []

/-- A producer outside the clause (R56, R176). -/
def extProducer : Producer → Bool
  | .tile _ _ _ => false
  | _ => true

/-! ### Event records (R342 to R345) -/

/-- Ring that a rehearsal's TARGET names (R321). -/
def rehRing (h : Rehearsal) : Nat := fld h.target 0 6

/-- A tenancy's clause recovers from a rehearsed fault, and no real fault has come since (R325): what fails then is left out of
every count (R327). The replay that a poisoned word leads to reads it no more, so what fails in it is real. -/
def rehearsedOn (s : State) (t : Option Nat) : Bool :=
  let h := s.box.reh
  match t with
  | some t => match (tenOf s t).run with
    | some u => u.rehearsedAt.isSome && !h.real && !(h.kind = 2 && u.phase = .replay && h.poisonNext.isEmpty)
    | none => false
  | none => false

/-- Records that a rehearsed fault of a kind causes in the clause that it strikes (R323, R327; DEDUCED, log entry 81): a level
above the rehearsed one has another code. -/
def rehearsedCode (kind code : Nat) (tile : Bool) : Bool :=
  match kind with
  | 1 => code = 0x0601 || code = 0x0602 || (code = 0x0401 && !tile)
  | 2 => code = 0x0102 || code = 0x0103 || code = 0x0105 || code = 0x0107 || code = 0x0401 || code = 0x0404
  | 3 => code = 0x0201
  | 4 => code = 0x0402
  | _ => code = 0x0606 || code = 0x0607 || code = 0x0608

/-- The REHEARSED bit of a record of a ring or of a tenancy. -/
def rehMark (s : State) (r t : Option Nat) (code : Nat) (tile : Bool := false) : Bool :=
  let h := s.box.reh
  (h.lossRing.isSome && h.lossRing = r && (code = 0x0604 || code = 0x0C03)) ||
  (h.status = 2 && (rehearsedOn s t || (!h.real && r = some (rehRing h) && (t.bind fun t => (tenOf s t).run).isNone)) &&
    rehearsedCode h.kind code tile)

/-- Number of a list element to give way to an arriving record (R345): the oldest of class A or B, and
for a record of class E or F the oldest of class C or D. -/
def displaced (q : List EvRec) (cls : Nat) : Option Nat :=
  match q.findIdx? (fun r => decide (r.cls ≤ 1)) with
  | some i => some i
  | none => if cls ≥ 4 then q.findIdx? (fun r => decide (r.cls ≤ 3)) else none

/-- A ply's staging queue of 256 records (R345); an error of class B or above in a ring under repair is noted (R348). -/
def stageRec (s : State) (ply : Nat) (r : EvRec) : State :=
  let g := fieldRing (ply * 96 + r.field)
  let s := if r.cls = 0 || r.rehearsed || r.field = 0x7F || (ringOf s g).repair.isNone then s
    else modPly s ply fun p => { p with raised := p.raised ++ [(g, r.code)] }
  let p := plyOf s ply
  if p.staging.length < 256 then setPly s ply { p with staging := p.staging ++ [r] }
  else
    let s := { s with box := { s.box with stagedLost := sat 32 (s.box.stagedLost + 1) } }
    match displaced p.staging r.cls with
    | some i => setPly s ply { p with staging := p.staging.eraseIdx i ++ [r] }
    | none => s

/-- A record of a module-level source, waiting for the Box Office; `reh` says that a rehearsal causes it. -/
def evModule (s : State) (cls code detail : Nat) (ten : Option Nat := none) (level : Nat := 0) (reh : Bool := false) : State :=
  let r : EvRec := { uptime := s.time.uptime, cls := cls, code := code, detail := detail % 2 ^ 32
                     level := level, rehearsed := reh || rehMark s none ten code
                     ten := ten.getD 0xFF
                     ngen := match ten with | some t => (tenOf s t).gen | none => 0
                     epoch := match ten with | some t => (tenOf s t).epoch | none => 0
                     beat := match ten with
                       | some t => match (tenOf s t).run with | some u => u.sentBeat | none => 0
                       | none => 0 }
  { s with box := { s.box with staging := s.box.staging ++ [r] } }

/-- A record of a field's ring controller, with the tenancy of its ring. -/
def evField (s : State) (f cls code detail : Nat) (level : Nat := 0) : State :=
  let ten := ringTen s (fieldRing f)
  stageRec s (fieldPly f)
    { uptime := s.time.uptime, ply := fieldPly f, field := f % 96, cls := cls, code := code
      detail := detail % 2 ^ 32, level := level, rehearsed := rehMark s (some (fieldRing f)) ten code
      rgen := (ringOf s (fieldRing f)).gen, ten := ten.getD 0xFF
      ngen := match ten with | some t => (tenOf s t).gen | none => 0
      epoch := match ten with | some t => (tenOf s t).epoch | none => 0
      beat := match ten with
        | some t => match (tenOf s t).run with | some u => u.sentBeat | none => 0
        | none => 0 }

/-- A record of a ring's controller. -/
def evRing (s : State) (r cls code detail : Nat) (level : Nat := 0) : State :=
  evField s (ringCentre r) cls code detail level

/-- A record of a tile; its BEAT is 0 where no clause runs on the tile (R343). -/
def evTile (s : State) (i cls code detail : Nat) (level : Nat := 0) : State :=
  let ten := ringTen s (siteRing i)
  let t := tileOf s i
  stageRec s (fieldPly (siteField i))
    { uptime := s.time.uptime, ply := fieldPly (siteField i), field := siteField i % 96, site := siteNo i
      cls := cls, code := code, detail := detail % 2 ^ 32, level := level
      rehearsed := rehMark s (some (siteRing i)) ten code true
      rgen := (ringOf s (siteRing i)).gen, tgen := t.gen, ten := ten.getD 0xFF
      ngen := match ten with | some t => (tenOf s t).gen | none => 0
      epoch := t.epoch
      beat := if t.bound && (ringRun s (siteRing i)).isSome then t.sentBeat.toNat else 0 }

/-- ACCESS_REFUSED with the Module Address (R344). -/
def evAccess (s : State) (ma : Nat) : State := evModule s 1 0x0305 (fldN ma 60 4 + fldN ma 0 28 * 16)

/-- A real fault of a tenancy's clause while it recovers from a rehearsed one: what follows counts (R325). -/
def noteReal (s : State) (t : Option Nat) : State :=
  if rehearsedOn s t then { s with box := { s.box with reh := { s.box.reh with real := true } } } else s

/-! ### Failures of a beat (R313) -/

/-- Mechanisms of 0x4005, and four causes that decide what the verdict leads to: an uncorrectable word
read again in a replay (R160), a trap that recurs (R143), a bound site that died (R288) and a granule
with no restore source (R211). -/
def mechCsum : Nat := 1
def mechSfu : Nat := 2
def mechCmp : Nat := 3
def mechMirror : Nat := 4
def mechPoison : Nat := 5
def mechTrap : Nat := 6
def mechKat : Nat := 7
def mechOther : Nat := 8
def mechAgain : Nat := 9
def mechProgram : Nat := 10
def mechDead : Nat := 11
def mechNoRestore : Nat := 12

def failRun (s : State) (t m : Nat) : State :=
  modRun s t fun u => { u with fails := NSet.add u.fails m }

/-- Raise a failure in the beat of the clause that a ring belongs to. -/
def failRing (s : State) (r m : Nat) : State :=
  match ringTen s r with
  | some t => failRun s t m
  | none => s

/-- A failure that names a site: the site is involved (R329). -/
def failTile (s : State) (i m : Nat) : State :=
  match ringTen s (siteRing i) with
  | some t => modRun (failRun s t m) t fun u => { u with
      involved := NSet.add u.involved i, cmpSites := if m = mechCmp then NSet.add u.cmpSites i else u.cmpSites }
  | none => s

/-- A failed CHECK, dual path, mirror compare or withdrawn row: failure and AUDIT_FAIL record (R132). -/
def failCheck (s : State) (i m : Nat) : State := evTile (failTile s i m) i 1 0x0401 m

/-- A failure reported after its tick (R315). -/
def failLate (s : State) (r m : Nat) : State :=
  match ringTen s r with
  | some t => modRun s t fun u => { u with late := NSet.add u.late m }
  | none => s

/-! ### The defect map (R273 to R278) -/

def mapStateNo : SiteSt → Nat
  | .good => 0 | .suspect => 1 | .excluded => 2 | .retired => 4

/-- A map entry of 16 bytes (R278). -/
def mapEntry (kind state ply field sub csrc powered seq cap cause : Nat) : BitVec 128 :=
  BitVec.ofNat 128 (kind % 16 + state % 16 * 2 ^ 4 + ply % 4 * 2 ^ 8 + field % 128 * 2 ^ 10 + sub % 128 * 2 ^ 17
    + csrc % 256 * 2 ^ 24 + powered % 2 ^ 32 * 2 ^ 32 + seq % 2 ^ 32 * 2 ^ 64 + cap % 256 * 2 ^ 96
    + cause % 2 ^ 16 * 2 ^ 104)

/-- A ply's Ringmaster sends a refinement; 256 may wait unacknowledged, and the next one that finds room stands after the gap of
those that found none (R273). -/
def refine (s : State) (ply : Nat) (e : BitVec 128) : State :=
  modPly s ply fun p =>
    if p.refine.length < 256 then { p with
      refine := p.refine ++ [{ entry := e, at_ := s.time.uptime, gap := p.refineLost }], refineLost := 0 }
    else { p with refineLost := p.refineLost + 1 }

def siteMap (s : State) (i : Nat) : SiteMap := SMap.get {} (fieldOf s (siteField i)).sites (siteNo i)

def setSiteMap (s : State) (i : Nat) (m : SiteMap) : State :=
  modField s (siteField i) fun f => { f with sites := SMap.put {} f.sites (siteNo i) m }

/-- 720 powered hours in seconds (R276, R277). -/
def suspectS : Nat := 720 * 3600

/-- State of a site after a failure (R276). -/
def siteAfter (m : SiteMap) (now : Nat) (unresolved : Bool) : SiteSt :=
  match m.st with
  | .retired => .retired
  | st =>
    match m.lastFail with
    | some l => if now ≤ l + suspectS then .retired else if unresolved || st = .excluded then .excluded else .suspect
    | none => if unresolved || st = .excluded then .excluded else .suspect

def siteDead : SiteSt → Bool
  | .excluded => true | .retired => true | _ => false

/-- A bound site that is dead: fence it, write SITE_DEAD and fail its beat (R276, R288). -/
def siteDies (s : State) (i : Nat) : State :=
  let t := tileOf s i
  let s := modTile s i fun t => { t with st := .fenced }
  if t.bound then
    failTile (evTile s i 2 0x0601 (siteNo i + mapStateNo (siteMap s i).st * 2 ^ 7)) i mechDead
  else s

/-- A failure of a site (R275, R276): new state, refinement, and what a dead site leads to. -/
def siteFails (s : State) (i : Nat) (unresolved : Bool) (csrc cause : Nat) : State :=
  let s := noteReal s (ringTen s (siteRing i))
  let m := siteMap s i
  let st := siteAfter m s.time.poweredS unresolved
  let s := setSiteMap s i { st := st, lastFail := some s.time.poweredS }
  let s := if st = m.st then s else
    refine s (fieldPly (siteField i))
      (mapEntry 0 (mapStateNo st) (fieldPly (siteField i)) (siteField i % 96) (siteNo i) csrc s.time.poweredS 0 0 cause)
  if siteDead st && !siteDead m.st then siteDies s i else s

/-- Dead sites of a physical row, by column (R280). -/
def deadCols (s : State) (f row : Nat) : List Nat :=
  (List.range 9).filter fun c =>
    siteDead (siteMap s (f * 72 + row * 9 + c)).st || s.box.reh.fenced = some (f * 72 + row * 9 + c)

/-- A field usable for a clause (R280). -/
def fieldUsable (s : State) (f : Nat) (trapeze : Bool) : Bool :=
  !(fieldOf s f).retired &&
  (if trapeze then (List.range 4).all fun k => decide ((deadCols s f (2 * k)).length + (deadCols s f (2 * k + 1)).length ≤ 1)
   else (List.range 8).all fun p => decide ((deadCols s f p).length ≤ 1))

/-! ### Seams (R180, R185) -/

def crossings (sd : Side) : Nat := match sd with | .north => 9 | .south => 9 | _ => 8

/-- Working data lanes of the worst crossing of a side. -/
def seamLanes (s : State) (f : Nat) (sd : Side) : Nat :=
  (List.range (crossings sd)).foldl
    (fun m c => min m (32 - SMap.get 0 (fieldOf s f).lanesLost (Side.no sd * 9 + c))) 32

/-- Seam state: 0 NONE, 1 FULL, 2 REDUCED, 3 FAILED; NONE at the module's edge. -/
def seamState (s : State) (f : Nat) (sd : Side) : Nat :=
  match neighbour f sd with
  | none => 0
  | some _ =>
    let w := seamLanes s f sd
    if w = 32 then 1 else if w ≥ 24 then 2 else 3

def seamCap (s : State) (f : Nat) (sd : Side) : Nat :=
  if seamState s f sd = 0 then 0 else 100 * seamLanes s f sd / 32

/-- A seam serves an image: not FAILED and at or above its floor (R31, R283). -/
def seamOk (s : State) (f : Nat) (sd : Side) (floor : Nat) : Bool :=
  let st := seamState s f sd
  (st = 1 || st = 2) && decide (floor ≤ seamCap s f sd) && (floor < 100 || st = 1)

/-- A ring whole for an image (R280). -/
def ringWhole (s : State) (r floor : Nat) : Bool :=
  (ringFields r).all fun f =>
    !(fieldOf s f).retired &&
    [Side.north, .east, .south, .west].all fun sd =>
      match neighbour f sd with
      | some g => fieldRing g ≠ r || seamOk s f sd floor
      | none => true

/-! ### Traps (R141 to R143) -/

def trIllegal : Nat := 0x01
def trReserved : Nat := 0x02
def trFormat : Nat := 0x03
def trRow : Nat := 0x04
def trCarry : Nat := 0x05
def trCatcher : Nat := 0x06
def trCollide : Nat := 0x07
def trStamp : Nat := 0x08
def trDrain : Nat := 0x09
def trAccum : Nat := 0x0A
def trDyn : Nat := 0x0B
def trBoard : Nat := 0x0C
def trNear : Nat := 0x0D
def trNarrow : Nat := 0x0E
def trReg : Nat := 0x0F
def trRegion : Nat := 0x10
def trSoft : Nat := 0x11
def trMode : Nat := 0x12
def trParity : Nat := 0x13

/-- Who raises a trap: a verb of the beat program, a dynamic verb or the scalar core. -/
inductive Src where
  | slot (n : Nat)
  | dyn
  | scalar
  | issue
  deriving DecidableEq, Repr

/-- TRAP_INFO of a trap (R141). -/
def trapInfo (t : Tile) (code : Nat) (src : Src) (sw : Nat := 0) : TrapInfo :=
  { code := BitVec.ofNat 8 code
    scalar := match src with | .scalar => true | .issue => true | _ => false
    dyn := match src with | .dyn => true | .issue => true | _ => false
    slot := match src with | .slot n => BitVec.ofNat 16 n | _ => 0xFFFF
    sw := BitVec.ofNat 16 sw
    pc := t.core.pc }

def trapWord (x : TrapInfo) : Nat :=
  x.code.toNat + b2n x.scalar * 2 ^ 8 + b2n x.dyn * 2 ^ 9 + x.slot.toNat * 2 ^ 10 + x.sw.toNat * 2 ^ 48

/-- The other half of a Trapeze pair, and the flyer's site (R72, R75): by TILE_MODE.ROLE alone (DESIGN CHOICE, log entry
75). -/
def pairSite (i : Nat) (t : Tile) : Option Nat :=
  if t.role = 1 then some (i + 9) else if t.role = 2 then some (i - 9) else none
def flyerSite (i : Nat) (t : Tile) : Nat := if t.role = 2 then i - 9 else i

/-- A trap that recurs in a replay with the same code and slot, or the same pc (R143). -/
def trapRecurs (s : State) (i : Nat) (x : TrapInfo) : Bool :=
  (tileOf s i).st = .replay &&
  match ringRun s (siteRing i) with
  | some (_, u) => u.lastTraps.any fun p =>
      p.2.2.2 = i && ((p.1 = x.code.toNat && p.2.1 = x.slot.toNat) || p.2.2.1 = x.pc)
  | none => false

/-- A bound site whose counted failure a replay could not resolve becomes EXCLUDED (R160, R276); where that failure was its
second within 720 powered hours it is RETIRED already. -/
def siteUnresolved (s : State) (i cause : Nat) : State :=
  let m := siteMap s i
  if siteDead m.st then s else
  let s := noteReal s (ringTen s (siteRing i))
  let s := setSiteMap s i { st := .excluded, lastFail := some s.time.poweredS }
  let s := refine s (fieldPly (siteField i))
    (mapEntry 0 2 (fieldPly (siteField i)) (siteField i % 96) (siteNo i) 0 s.time.poweredS 0 0 cause)
  siteDies s i

/-- A trap: the tile halts, and with it the other half of a pair; ERR_STATUS.TRAP, the record and the
failed audit (R76, R143). A trap that recurs is a program fault, or for PARITY a dead site. -/
def trapTile (s : State) (i code : Nat) (src : Src) (sw : Nat := 0) : State :=
  let t := tileOf s i
  let x := trapInfo t code src sw
  let again := trapRecurs s i x
  let s := setTile s i { t with st := .halted, err := t.err ||| 0x80, trap := x }
  let s := match pairSite i t with
    | some j => modTile s j fun t => { t with st := .halted }
    | none => s
  let s := match ringTen s (siteRing i) with
    | some n => modRun s n fun u =>
        { u with fails := NSet.add (if again && code ≠ trParity then NSet.add u.fails mechProgram else u.fails) mechTrap
                 involved := NSet.add u.involved i
                 lastTraps := (x.code.toNat, x.slot.toNat, x.pc, i) :: u.lastTraps }
    | none => s
  let s := evTile s (flyerSite i t) 1 0x0501 (trapWord x % 2 ^ 26)
  if again && code = trParity then siteFails s i true 1 trParity else s

end Sys2Proof.Machine
end

