-- ==== Sys2Proof/Machine/Flags.lean ====
section
/-! DEFINITION. Status words and flags of the tile, of a ring and of the module (spec/03_tile.md R65 to R71;
spec/06_scratchpad.md R163; spec/07_scheduled_mesh.md R185, R190, R191; spec/15_object_dictionary.md R413). -/

namespace Sys2Proof.Machine
open Sys2Proof

/-- Bits of ERR_STATUS (R70). -/
def errCorr : BitVec 9 := 0x001
def errUncorr : BitVec 9 := 0x002
def errSbPar : BitVec 9 := 0x004
def errEpoch : BitVec 9 := 0x008
def errClosed : BitVec 9 := 0x010
def errMirror : BitVec 9 := 0x020
def errMatch : BitVec 9 := 0x040
def errTrap : BitVec 9 := 0x080
def errAccess : BitVec 9 := 0x100

def setErr (s : State) (i : Nat) (b : BitVec 9) : State := modTile s i fun t => { t with err := t.err ||| b }

def tileStNo : TileSt → Nat
  | .unbound => 0 | .idle => 1 | .loading => 2 | .running => 3
  | .draining => 4 | .replay => 5 | .halted => 6 | .fenced => 7

/-- TILE_STATE (R68). -/
def tileState (t : Tile) : Nat := tileStNo t.st + b2n t.grace * 2 ^ 3 + b2n t.provIn * 2 ^ 4

/-- TILE_ID (R66). -/
def tileId (i : Nat) (t : Tile) : Nat :=
  fieldPly (siteField i) + siteField i % 96 * 2 ^ 2 + siteNo i * 2 ^ 9 + t.vtile.toNat * 2 ^ 16 + b2n t.bound * 2 ^ 22
    + b2n (siteNo i % 9 = 8) * 2 ^ 23 + t.vring.toNat * 2 ^ 24 + t.vfield.toNat * 2 ^ 30

/-- TILE_CAPS (R67). -/
def tileCaps : Nat := 2 * 2 ^ 4 + 7 * 2 ^ 8 + 4 * 2 ^ 11 + 4 * 2 ^ 14

/-- TILE_GEN (R68). -/
def tileGen (s : State) (i : Nat) (t : Tile) : Nat :=
  t.epoch.toNat + t.gen.toNat * 2 ^ 8 + (ringOf s (siteRing i)).gen.toNat * 2 ^ 16
    + (match ringTen s (siteRing i) with | some n => (tenOf s n).gen.toNat | none => 0) * 2 ^ 24

/-- TILE_MODE (R70). -/
def tileMode (t : Tile) : Nat := t.role.toNat + b2n t.mirror * 2 ^ 2 + b2n t.specEn * 2 ^ 3

/-- CARRY_CFG (R70). -/
def carryCfg (t : Tile) : Nat :=
  t.carryBase.toNat + t.carryRows.toNat * 2 ^ 16 + t.sentBeat.toNat % 2 * 2 ^ 32

/-- SB_IN_STATE (R71). -/
def sbIn (b : InBuf) : Nat :=
  let l := if b.crossed then b.held else b.live
  let h := if b.crossed then b.live else b.held
  min 64 l.rows.length + b2n b.liveBank * 2 ^ 7 + min 64 h.rows.length * 2 ^ 8 + b2n b.frozen * 2 ^ 15
    + b.lastVb * 2 ^ 16 + b.drops * 2 ^ 32

/-- Send and receive channel entries (R190, R191). -/
def sendWord (c : SendCh) : Nat :=
  c.dstVtile.toNat + c.dstVfield.toNat * 2 ^ 6 + c.dstVring.toNat * 2 ^ 9 + c.dstCh.toNat * 2 ^ 15
    + b2n c.valid * 2 ^ 20 + b2n c.closed * 2 ^ 21 + c.credits % 32 * 2 ^ 22
def recvWord (c : RecvCh) : Nat :=
  c.srcVtile.toNat + c.srcVfield.toNat * 2 ^ 6 + c.srcVring.toNat * 2 ^ 9 + c.srcCh.toNat * 2 ^ 15
    + b2n c.valid * 2 ^ 20 + b2n c.fin * 2 ^ 21 + b2n c.ring * 2 ^ 22 + c.seg.toNat * 2 ^ 23 + c.size.toNat * 2 ^ 29

/-- A scoreboard entry (R163). -/
def sbWord (e : SbEntry) : Nat :=
  e.first + e.last * 2 ^ 16 + 2 ^ 32 + e.tag % 16 * 2 ^ 33
    + (match e.release with | some c => min c 0xFFFFF | none => 0xFFFFF) * 2 ^ 40

/-- A tile register at an offset (R65); unlisted offsets read zero. -/
def tileReg (s : State) (i off : Nat) : Nat :=
  let t := tileOf s i
  match off with
  | 0x0000 => tileId i t
  | 0x0008 => tileCaps
  | 0x0010 => spmSize
  | 0x0018 => tileState t
  | 0x0020 => t.workBeat.toNat + t.pass.toNat * 2 ^ 32
  | 0x0028 => tileGen s i t
  | 0x0030 => tileMode t
  | 0x0038 => carryCfg t
  | 0x0040 => t.spm.segClass.toNat
  | 0x0048 => t.err.toNat
  | 0x0050 => t.corr
  | 0x0058 => trapWord t.trap
  | 0x0060 => t.trap.pc
  | 0x0068 => t.discards + t.closedSends * 2 ^ 32
  | 0x0070 => t.poisonCnt
  | 0x0078 => t.sentBeat.toNat
  | 0x00C0 => min 127 t.matchBuf.length + b2n t.matchOvf * 2 ^ 7
  | 0x0900 => t.core.pred.toNat ||| 1
  | 0x0908 => t.core.pc
  | _ =>
    if 0x80 ≤ off ∧ off ≤ 0x98 ∧ off % 8 = 0 then sbIn (inBuf t ((off - 0x80) / 8))
    else if 0xA0 ≤ off ∧ off ≤ 0xB8 ∧ off % 8 = 0 then (outBuf t ((off - 0xA0) / 8)).rows.length
    else if 0x100 ≤ off ∧ off < 0x180 ∧ off % 8 = 0 then
      sendWord (sendOf t ((off - 0x100) / 4)) + sendWord (sendOf t ((off - 0x100) / 4 + 1)) * 2 ^ 32
    else if 0x180 ≤ off ∧ off < 0x200 ∧ off % 8 = 0 then
      recvWord (recvOf t ((off - 0x180) / 4)) + recvWord (recvOf t ((off - 0x180) / 4 + 1)) * 2 ^ 32
    else if 0x400 ≤ off ∧ off < 0x480 ∧ off % 8 = 0 then
      match t.sb.find? (fun p => p.1 = (off - 0x400) / 8) with
      | some (_, e) => sbWord e
      | none => 0
    else if 0x800 ≤ off ∧ off ≤ 0x8F8 ∧ off % 8 = 0 then
      if off = 0x800 then 0 else (SMap.get 0 t.core.g ((off - 0x800) / 8)).toNat
    else 0

/-- No bring-up has trained the seams yet: the registers hold their reset values (R185, R444). -/
def seamsUntrained (s : State) : Bool :=
  match s.box.state with
  | .unpowered | .inReset | .waitPsu | .rails | .failed => true
  | _ => false

/-- A seam status register (R185), side in the order N, E, S, W. -/
def seamReg (s : State) (f : Nat) (sd : Side) : Nat :=
  let x := fieldOf s f
  let st := seamState s f sd
  let bridge := match neighbour f sd with | some g => decide (fieldPly g ≠ fieldPly f) | none => false
  let spares := (List.range (crossings sd)).foldl
    (fun n c => n + min 2 (SMap.get 0 x.sparesUsed (Side.no sd * 9 + c)) * 2 ^ (16 + 2 * c)) 0
  if st = 0 || seamsUntrained s then SMap.get 0 x.crcErr (Side.no sd) * 2 ^ 48
  else st + b2n bridge * 2 ^ 2 + seamCap s f sd * 2 ^ 4 + spares + seamLanes s f sd * 2 ^ 40
    + SMap.get 0 x.crcErr (Side.no sd) * 2 ^ 48

/-- NEAR_CH_STATUS (R215). -/
def nearChReg (c : NearCh) : Nat :=
  let lanes := c.lanes.foldl (fun n p => max n p.2) 0
  let rows := c.rows.foldl (fun n p => max n p.2) 0
  (if c.failed then 2 else if c.degraded ∨ lanes ≠ 0 ∨ rows ≠ 0 then 1 else 0) + min 2 lanes * 2 ^ 2 + min 64 rows * 2 ^ 8
    + c.corr * 2 ^ 32 + c.uncorr * 2 ^ 48

/-- SHIFT_COL with PAIRED and RETIRED (R281). -/
def shiftReg (f : Field) : Nat :=
  (List.range 8).foldl (fun n p => n + SMap.get 0xF f.shift p * 2 ^ (4 * p)) 0 + b2n f.paired * 2 ^ 32
    + b2n f.retired * 2 ^ 33

def siteStNo : SiteSt → Nat
  | .good => 0 | .suspect => 1 | .excluded => 2 | .retired => 3

/-- Site states of register k (R282). -/
def siteReg (f : Field) (k : Nat) : Nat :=
  (List.range (if k = 2 then 8 else 32)).foldl
    (fun n j => n + siteStNo (SMap.get {} f.sites (32 * k + j)).st * 2 ^ (2 * j)) 0

def ringStNo : RingSt → Nat
  | .free => 0 | .reserve => 1 | .assigned => 2 | .resetting => 3 | .lost => 4 | .degraded => 5

/-- RING_STATE of the MODULE_REG space (R12). -/
def ringStateReg (s : State) (r : Nat) : Nat :=
  ringStNo (ringOf s r).st + (match ringHolder s r with | some t => t | none => 0xFF) * 2 ^ 8
    + (ringOf s r).gen.toNat * 2 ^ 16

end Sys2Proof.Machine
end

