-- ==== Sys2Proof/Machine/Log.lean ====
section
/-! DEFINITION. The path of an event record: acceptance by the Box Office, the log, event queues, alerts and the CAN
node; the field part of the defect map; Box Office restarts (spec/12_hangs_errors_escalation.md R343 to R347;
spec/10_placement_and_repair.md R273, R278; spec/13_hosts_and_tenancy.md R359; spec/15_object_dictionary.md R404 to
R408; spec/18_module_interface.md R472). -/

namespace Sys2Proof.Machine
open Sys2Proof

/-! ### Records (R343) -/

/-- Bits [239:0] of a record. -/
def recWord (r : EvRec) : Nat :=
  r.uptime % 2 ^ 64 + r.seq % 2 ^ 32 * 2 ^ 64 + r.ply % 4 * 2 ^ 96 + r.field % 128 * 2 ^ 98 + r.site % 128 * 2 ^ 105
    + r.cls % 8 * 2 ^ 112 + b2n r.rehearsed * 2 ^ 115 + r.level % 8 * 2 ^ 116 + r.code % 2 ^ 16 * 2 ^ 120
    + r.rgen.toNat * 2 ^ 136 + r.tgen.toNat * 2 ^ 144 + r.ngen.toNat * 2 ^ 152 + r.epoch.toNat * 2 ^ 160
    + r.ten % 256 * 2 ^ 168 + r.beat % 2 ^ 32 * 2 ^ 176 + r.detail % 2 ^ 32 * 2 ^ 208

/-- The 32 bytes of a record, its CRC-16 last and little-endian. -/
def recBytes (r : EvRec) : List Byte :=
  let b := leBytes 30 (recWord r)
  b ++ leBytes 2 (crc16 b).toNat

def modBox (s : State) (f : Box → Box) : State := { s with box := f s.box }
def modCan (s : State) (f : Can → Can) : State := { s with can := f s.can }

/-- The error register 0x1001 (R413). -/
def errorReg (s : State) : Nat :=
  let heat := s.pwr.thermal || s.pins.thermtrip
  let comm := s.can.busOff || (s.can.onBus && Config.canPassive s.time.uptime) || (List.range 32).any fun p => (sportOf s p).enable && (sportOf s p).st ≠ .up
  let major := s.box.pwrPending || allRings.any fun r => (ringOf s r).st = .lost
  b2n (heat || comm || major) + b2n heat * 2 ^ 3 + b2n comm * 2 ^ 4 + b2n major * 2 ^ 7

/-! ### Host event queues (R354, R359) -/

def evqSize (p : HPort) : Nat := 2 ^ p.evqLog

/-- One entry stays free, so that a full queue differs from an empty one (log entry 22). -/
def evqFull (p : HPort) : Bool := (p.evqTail + 1) % evqSize p = p.evqHead % evqSize p

/-- A port's role lets it receive a record. -/
def evSees (s : State) (p : Nat) (r : EvRec) : Bool :=
  match (hportOf s p).role with
  | .owner => true
  | .tenant => r.ten = 0xFF || (tenOf s r.ten).port = p
  | .observer => r.ten = 0xFF

/-- A port sends an MSI-X message of a vector (R351). -/
def sendMsix (x : HPort) (v : Nat) : HPort := { x with msix := SMap.put 0 x.msix v (SMap.get 0 x.msix v + 1) }

/-- Write a record into a port's event queue, or count it as lost. -/
def evDeliver (s : State) (r : EvRec) (p : Nat) : State :=
  let x := hportOf s p
  if !x.evqEnable || !evSees s p r then s
  else if evqFull x then
    modHport s p fun x => { x with evqLost := sat 32 (x.evqLost + 1), evqLosing := x.evqLosing + 1 }
  else
    let s := hostWrite s p (x.evqBase.toNat + 32 * (x.evqTail % evqSize x)) (recBytes r)
    let s := if x.evqLosing = 0 then s
      else evModule s 1 0x0A02 (p + min x.evqLosing (2 ^ 24 - 1) * 2 ^ 8)
    modHport s p fun x => sendMsix { x with evqTail := (x.evqTail + 1) % evqSize x, evqLosing := 0 } 8

/-! ### Acceptance (R345, R407, R472) -/

/-- Queue a record's emergency message, 64 deep. -/
def emcyQueue (s : State) (r : EvRec) : State :=
  if !s.can.onBus || fldN s.box.set.emcyClasses r.cls 1 = 0 then s
  else if s.can.emcyQ.length < 64 then modCan s fun c => { c with emcyQ := c.emcyQ ++ [r] }
  else modCan s fun c => { c with emcyLost := sat 32 (c.emcyLost + 1) }

/-- The Box Office accepts a record: SEQ, the way to flash, alert, emergency message and event queues. -/
def accept (s : State) (r : EvRec) : State :=
  let r := { r with seq := s.box.nextSeq }
  let s := modBox s fun b => { b with nextSeq := (b.nextSeq + 1) % 2 ^ 32, toFlash := b.toFlash ++ [r] }
  let s := if s.box.hang.seqDue && r.ten = s.box.hang.ten && (r.code = 0x0401 || r.code = 0x0701 || r.code = 0x0702)
    then modBox s fun b => { b with hang := { b.hang with seq := r.seq, seqDue := false } } else s
  let s := if fldN s.box.alertClasses r.cls 1 = 1 then { s with pins := { s.pins with alert := true } } else s
  (List.range 8).foldl (fun s p => evDeliver s r p) (emcyQueue s r)

/-! ### The field part of the defect map (R278) -/

def entryKey (e : BitVec 128) : Nat := fld e 0 4 + fld e 8 16 * 16
def entryState (e : BitVec 128) : Nat := fld e 4 4

/-- Keep the latest entry of each item and every RETIRED entry. -/
def compactMap : List (BitVec 128) → List (BitVec 128)
  | [] => []
  | e :: m =>
    if entryState e = 4 || !(m.any fun f => entryKey f = entryKey e) then e :: compactMap m else compactMap m

/-- Append an entry; a full part is compacted, and a RETIRED entry may displace a GOOD or a SUSPECT one. -/
def mapAppend (s : State) (e : BitVec 128) : State :=
  let m := if s.box.fieldMap.length < 32768 then s.box.fieldMap else compactMap s.box.fieldMap
  if m.length < 32768 then modBox s fun b => { b with fieldMap := m ++ [e] }
  else
    let out (st : Nat) : Option Nat := m.findIdx? fun f => entryState f = st
    match (if entryState e = 4 then (match out 0 with | some i => some i | none => out 1) else none) with
    | some i => modBox s fun b => { b with fieldMap := m.eraseIdx i ++ [e] }
    | none =>
      let s := if s.box.mapFull = 0 then evModule s 5 0x0808 1 else s
      modBox s fun b => { b with fieldMap := m, mapFull := b.mapFull + 1 }

/-- SEQ of the first record raised for the failure that changed an item (R278): of the accepted records with the code, the ply,
the field and for a site the site of the entry, or for a catcher its flyer, which the records of a pair name (R76), the first of the uptime of the change, and where there is none then the
latest before it. -/
def seqOfEntry (s : State) (e : Refinement) : Nat :=
  let code := if fld e.entry 24 8 = 1 then 0x0501 else fld e.entry 104 16
  let mine (r : EvRec) : Bool := r.code = code && r.ply = fld e.entry 8 2 &&
    (fld e.entry 0 4 = 5 || (r.field = fld e.entry 10 7 && (fld e.entry 0 4 ≠ 0 || r.site = fld e.entry 17 7 ||
      ((code = 0x0404 || code = 0x0501) && r.site + 9 = fld e.entry 17 7))))
  let held := ((s.box.log.map fun p => p.2.rec_) ++ s.box.toFlash).filter mine
  match (held.filter fun r => r.uptime = e.at_).map (·.seq) with
  | q :: qs => qs.foldl min q
  | [] => ((held.filter fun r => decide (r.uptime < e.at_)).map (·.seq)).foldl max 0

/-- Accept one refinement of a ply (R273). -/
def acceptRefinement (s : State) (ply : Nat) : State :=
  let p := plyOf s ply
  match p.refine with
  | [] => s
  | e :: rest =>
    let w := if fld e.entry 24 8 ≤ 1 then e.entry ||| BitVec.ofNat 128 (seqOfEntry s e * 2 ^ 64) else e.entry
    let s := if e.gap = 0 then s else evModule s 5 0x0805 e.gap
    mapAppend (setPly s ply { p with refine := rest }) w

/-- EVENT_RECORD: the oldest staged record of a source: the plies 0 to 3, or the module's own sources. A ply without
staged records sends its next refinement. -/
def eventRecord (s : State) (src : Nat) : State :=
  if src < 4 then
    match (plyOf s src).staging with
    | r :: rest => accept (modPly s src fun p => { p with staging := rest }) r
    | [] => acceptRefinement s src
  else match s.box.staging with
    | r :: rest => accept (modBox s fun b => { b with staging := rest }) r
    | [] => s

/-- The Box Office runs: it has booted and is not held in reset. -/
def boxRuns (s : State) : Bool :=
  match s.box.state with
  | .unpowered | .inReset | .waitPsu => false
  | _ => true

/-- EVENT_RECORD. -/
def execEventRecord (src : Fin 5) (s : State) : Host.Outcome State Fault Refusal :=
  .next (if boxRuns s then eventRecord s src else s)

/-! ### The log (R346) -/

def pinnedCount (b : Box) : Nat := (b.log.filter fun p => p.2.pinned).length

/-- The next slot from `n` that is not pinned. -/
def freeSlot (b : Box) : Nat → Nat → Nat
  | 0, n => n % 4096
  | f + 1, n => if b.log.any (fun p => p.1 = n % 4096 && p.2.pinned) then freeSlot b f (n + 1) else n % 4096

def putLog (m : List (Nat × LogRec)) (k : Nat) (r : LogRec) : List (Nat × LogRec) := SMap.insert (SMap.erase m k) k r

def logWrite (b : Box) (r : EvRec) : Box :=
  let pin := decide (4 ≤ r.cls)
  let room := decide (pinnedCount b < 1024)
  let k := freeSlot b 4096 b.nextSlot
  let held := b.log.any fun p => p.1 = k
  { b with
    log := putLog b.log k { rec_ := r, pinned := pin && room }
    nextSlot := (k + 1) % 4096
    overflow := if held then sat 32 (b.overflow + 1) else b.overflow
    pinRefused := if pin && !room then b.pinRefused + 1 else b.pinRefused }

def logFlash (s : State) : State :=
  match s.box.toFlash with
  | [] => s
  | r :: rest => modBox s fun b => logWrite { b with toFlash := rest } r

/-- LOG_FLASH_WRITE. -/
def execLogFlashWrite (s : State) : Host.Outcome State Fault Refusal := .next (if boxRuns s then logFlash s else s)

/-- Every accepted record, then every staged one and every refinement, to flash (R439). -/
def flushToFlash (s : State) : State :=
  let all (s : State) (src : Nat) : State :=
    let n := if src < 4 then (plyOf s src).staging.length + (plyOf s src).refine.length else s.box.staging.length
    (List.range n).foldl (fun s _ => eventRecord s src) s
  let s := (List.range 5).foldl all s
  let s := all s 4
  (List.range s.box.toFlash.length).foldl (fun s _ => logFlash s) s

/-! ### The CAN node (R404 to R408) -/

/-- The node may send more than boot-up and heartbeat. -/
def canServes (s : State) : Bool :=
  s.can.onBus && !s.can.busOff && (s.can.nmt = .preOp || s.can.nmt = .operational)

def canSend (s : State) (m : CanMsg) : State := modCan s fun c => { c with tx := c.tx ++ [m] }

/-- EMCY_SEND (R407). -/
def execEmcySend (s : State) : Host.Outcome State Fault Refusal :=
  .next (
    match s.can.emcyQ with
    | [] => s
    | r :: rest =>
      let due : Bool := match s.can.emcyLast with
        | some t => decide (t + s.box.set.emcyInhibit * 100000 ≤ s.time.uptime)
        | none => true
      if canServes s && due then
        modCan (canSend s (.emcy (0xFF00 + r.cls) (errorReg s) r)) fun c =>
          { c with emcyQ := rest, emcyLast := some s.time.uptime }
      else s)

/-- CAN_HEARTBEAT: once in each period of 0x1017, counted from the last one or from boot-up (R405). -/
def execCanHeartbeat (s : State) : Host.Outcome State Fault Refusal :=
  .next (if s.can.onBus && !s.can.busOff && s.can.nmt ≠ .boot && s.box.set.heartbeatMs ≠ 0 &&
      decide (s.can.hbAt + nsOfMs s.box.set.heartbeatMs ≤ s.time.uptime)
    then modCan (canSend s (.heartbeat s.can.nmt)) fun c => { c with hbAt := s.time.uptime } else s)

/-- BUS_OFF (R408). -/
def execBusOff (s : State) : Host.Outcome State Fault Refusal :=
  .next (if s.can.onBus then modCan s fun c => { c with busOff := true } else s)

/-- BUS_OFF_RECOVERY (R408). -/
def execBusOffRecovery (s : State) : Host.Outcome State Fault Refusal := .next (modCan s fun c => { c with busOff := false })

/-- A firmware download over CAN ends with its segmented transfer. -/
def dropTransfer (s : State) : State :=
  let s := modCan s fun c => { c with segmented := false }
  if s.box.fwOwner = some .can then modBox s fun b => { b with fwOwner := none, fwBytes := [], fwStatus := 0 } else s

/-- SDO_TIMEOUT: a segmented transfer has paused for more than 1 s (R406); a node that may not send ends it without a message
(R405, R408). -/
def execSdoTimeout (s : State) : Host.Outcome State Fault Refusal :=
  .next (if s.can.segmented && decide (s.can.segAt + 1000000000 < s.time.uptime)
    then dropTransfer (if canServes s then canSend s (.sdo 0x05040000 []) else s) else s)

/-- The node hears the bus. -/
def nmtOk (s : State) : Bool := s.can.onBus && !s.can.busOff && s.can.nmt ≠ .boot

def setNmt (s : State) (n : Nmt) : State := if nmtOk s then modCan s fun c => { c with nmt := n } else s

/-- NMT_START. -/
def execNmtStart (s : State) : Host.Outcome State Fault Refusal := .next (setNmt s .operational)
/-- ENTER_PRE_OPERATIONAL. -/
def execEnterPreOperational (s : State) : Host.Outcome State Fault Refusal := .next (setNmt s .preOp)
/-- NMT_STOP. -/
def execNmtStop (s : State) : Host.Outcome State Fault Refusal := .next (setNmt s .stopped)

/-- Boot-up, then pre-operational (R405). -/
def canBoot (s : State) : State :=
  if s.can.onBus then
    modCan (canSend (dropTransfer s) .bootUp) fun c => { c with nmt := .preOp, busOff := false, hbAt := s.time.uptime }
  else dropTransfer s

/-- RESET_COMMUNICATION (R405, R410). -/
def execResetCommunication (s : State) : Host.Outcome State Fault Refusal :=
  .next (if nmtOk s then modCan (canBoot s) fun c => { c with path := { c.path with level := 0x200 } } else s)

/-! ### Box Office restarts (R405, R417, R418, R450) -/

/-- A restart takes 0.3 s (R450). -/
def restartNs : Nat := 300000000

/-- A watchdog restart while a new image is still booting is a failed boot of it: after the second one the Box
Office boots the previous bank. A later restart finds the image booted (R418; log entry 5). -/
def bootTrial (b : Box) (now : Nat) : Box :=
  match b.fwTrial with
  | none => b
  | some k =>
    if b.lastRestart + restartNs ≤ now then { b with fwTrial := none }
    else if k = 0 then { b with fwTrial := some 1 }
    else { b with fwRunning := b.fwPrev, fwPrev := [], fwTrial := none, fwStatus := 5 }

/-- A restart: cause 0 watchdog, 1 NMT reset node, 2 firmware activation. A compute reset starts again. -/
def boxRestart (s : State) (cause : Nat) : State :=
  let s := canBoot s
  let s := modBox s fun b => { b with
    restarts := b.restarts + 1, lastRestart := s.time.uptime
    resetStart := b.resetStart.map fun _ => s.time.uptime }
  evModule s 0 0x0C05 cause

/-- BOX_OFFICE_RESTART. -/
def execBoxOfficeRestart (s : State) : Host.Outcome State Fault Refusal :=
  .next (if boxRuns s then boxRestart (modBox s fun b => bootTrial b s.time.uptime) 0 else s)

/-- RESET_NODE. -/
def execResetNode (s : State) : Host.Outcome State Fault Refusal :=
  .next (if nmtOk s then boxRestart s 1 else s)

end Sys2Proof.Machine
end

