-- ==== Sys2Proof/Machine/Power.lean ====
section
/-! DEFINITION. Power measurement, the cap loop, throttle, heat, ring supplies and canaries
(spec/16_power_and_thermal.md R420 to R441; spec/11_audit_and_replay.md R319, R320; spec/17_bringup_reset_time.md
R457). -/

namespace Sys2Proof.Machine
open Sys2Proof

def modPwr (s : State) (f : Power → Power) : State := { s with pwr := f s.pwr }

/-! ### The clock (R423 to R430) -/

/-- 0.8 × a clock, on the grid of 10 MHz and never below the floor. -/
def grid (mhz : Nat) : Nat := max 640 (mhz / 10 * 10)
def fixedClk (s : State) : Nat := fixedMhz s.fused.variant
def lowClk (s : State) : Nat := grid (fixedClk s * 8 / 10)

/-- The clock that the cap loop's own steps count from. -/
def loopBase (s : State) : Nat :=
  if s.pwr.fixedFreq then (if s.pwr.breach then lowClk s else fixedClk s) else s.pwr.boostMhz

/-- The clock that the cap loop asks for: its steps count from the clock at which it began to shed, whatever the mode's clock has
become since (R423, R426). -/
def loopDemand (s : State) : Nat :=
  if s.pwr.clockSteps = 0 then loopBase s else min (loopBase s) (s.pwr.stepBase - 50 * s.pwr.clockSteps)

/-- The lowest of all demands, never above the mode's clock. -/
def clockDemand (s : State) : Nat :=
  let p := s.pwr
  let low (o : Option Nat) (m : Nat) : Nat := match o with | some x => min x m | none => m
  let m := loopDemand s
  let m := if p.breach && p.fixedFreq then min m (lowClk s) else m
  let m := if p.throttleDemand then min m (lowClk s) else m
  let m := low p.thermalMhz (low p.marginMhz (low p.guardMhz m))
  grid (if p.holdUp then 640 else m)

/-- The lowest demand of THROTTLE_N, the input-current guard and the hold-up flush, the only causes of a fast step (R424). -/
def fastDemand (s : State) : Nat :=
  let p := s.pwr
  let m := if p.throttleDemand then lowClk s else s.time.cclkMhz
  let m := match p.guardMhz with | some g => min g m | none => m
  if p.holdUp then 640 else m

/-- A fast step only ever lowers the running clock; every other demand waits for the tick (R424). -/
def fastStep (s : State) : State :=
  { s with time := { s.time with cclkMhz := min s.time.cclkMhz (grid (fastDemand s)) } }

/-- Active lowering demands (0x3003). -/
def clockCause (p : Power) : Nat :=
  b2n (p.clockSteps ≠ 0) + 2 * b2n p.breach + 4 * b2n p.throttleDemand + 8 * b2n p.thermalMhz.isSome
    + 16 * b2n p.marginMhz.isSome + 32 * b2n p.guardMhz.isSome + 64 * b2n p.holdUp

/-- At least `d` ns have passed since an instant. -/
def since (s : State) (t : Option Nat) (d : Nat) : Bool :=
  match t with
  | some t => decide (t + d ≤ s.time.uptime)
  | none => false

/-! ### Shed classes (R426) -/

/-- A port has idle lanes: no trained link, or a link narrower than the port. -/
def idleLanes (s : State) : Bool :=
  (List.range 32).any fun p =>
    let x := sportOf s p
    x.st = .down || x.st = .noLight || x.st = .noRefclk || x.st = .version || (x.st = .up && decide (x.width < 8))

def stepLeft (s : State) (c : Nat) : Bool :=
  match c with
  | 1 => decide (s.pwr.farSteps < 6)
  | 2 => (!s.pwr.fixedFreq || s.pwr.breach) && decide (640 < loopDemand s)
  | 3 => !s.pwr.lanesShed && idleLanes s
  | _ => false

def shedClasses (s : State) : List Nat := (List.range 3).map fun i => fldN s.box.set.shedOrder (8 * i) 8

/-- Shed one step of a class; a clock step lowers the loop's demand `clk`. -/
def shed (p : Power) (c now clk : Nat) : Power :=
  let p := { p with shedOrder := c :: p.shedOrder, lastShed := some now }
  match c with
  | 1 => { p with farSteps := p.farSteps + 1 }
  | 2 => { p with clockSteps := p.clockSteps + 1, stepBase := clk + 50 * p.clockSteps }
  | _ => { p with lanesShed := true }

/-- Restore the most recently shed step; what a throttle assertion also sheds stays shed with it. -/
def restore (p : Power) : Power :=
  match p.shedOrder with
  | [] => p
  | c :: r =>
    let p := { p with shedOrder := r }
    match c with
    | 1 => if p.throttleShed then p else { p with farSteps := p.farSteps - 1 }
    | 2 => { p with clockSteps := p.clockSteps - 1 }
    | _ => if p.throttleShed then p else { p with lanesShed := false }

/-- Undo what a throttle assertion shed: the loop's own steps stay. -/
def unthrottle (p : Power) : Power :=
  { p with farSteps := (p.shedOrder.filter (· = 1)).length, lanesShed := p.shedOrder.contains 3
           throttleRestore := false, throttleShed := false }

/-- Shed the far-tier rate to its limit; the loop restores it step by step. -/
def shedFar (p : Power) (now : Nat) : Power :=
  { (List.range (6 - (p.shedOrder.filter (· = 1)).length)).foldl (fun p _ => shed p 1 now 0) p with farSteps := 6 }

/-- Every class at its limit (R439). -/
def shedAll (s : State) : State :=
  modPwr s fun p => { shedFar p s.time.uptime with
    lanesShed := true, stepBase := loopBase s, clockSteps := max p.clockSteps ((loopBase s - 640 + 49) / 50) }

/-! ### Samples (R421, R432, R440) -/

/-- P200 in mW. -/
def p200 (p : Power) : Nat := if p.samples.isEmpty then 0 else p.samples.foldl (· + ·) 0 / p.samples.length

/-- Energy in nJ of `ns` nanoseconds at `mw`. -/
def energy (mw ns : Nat) : Nat := mw * ns / 1000

def addAt (m : List (Nat × Nat)) (k v : Nat) : List (Nat × Nat) := SMap.put 0 m k (SMap.get 0 m k + v)

/-- Split an amount among weighted tenancies; what no tenancy takes is unattributed. -/
def shareOut (s : State) (nj : Nat) (ws : List (Nat × Nat)) : State :=
  let total := ws.foldl (fun n w => n + w.2) 0
  if total = 0 then modPwr s fun p => { p with unattributedNj := p.unattributedNj + nj }
  else ws.foldl (fun s w => modTen s w.1 fun x => { x with accNj := x.accNj + nj * w.2 / total }) s

/-- Attribution of one sample (R440). -/
def attribute_ (s : State) (r : SampleReport) : State :=
  let live := s.tens.filter fun t => t.2.st ≠ .none_
  let s := r.ringMw.foldl (fun s (g, mw) =>
    match (if (ringOf s g).clearing then none else ringTen s g) with
    | some t => modTen s t fun x => { x with accNj := x.accNj + 50 * mw }
    | none => modPwr s fun p => { p with unattributedNj := p.unattributedNj + 50 * mw }) s
  let s := r.plyMw.foldl (fun s (p, mw) =>
    shareOut s (50 * mw) (live.map fun t => (t.1, SMap.get 0 t.2.plyTraffic p))) s
  let s := r.stackMw.foldl (fun s (k, mw) =>
    let ws := live.map fun t => (t.1, SMap.get 0 t.2.stackTraffic k)
    let ws := if ws.any (fun w => w.2 ≠ 0) then ws
      else live.map fun t => (t.1, if t.2.rings.contains (stackRing k) then t.2.farLen else 0)
    shareOut s (50 * mw) ws) s
  let s := shareOut s (50 * r.houseMw) (live.map fun t => (t.1, t.2.rings.length))
  live.foldl (fun s t => modTen s t.1 fun x => { x with plyTraffic := [], stackTraffic := [] }) s

/-- Energies of the running and of the last beat (R421). -/
def beatEnergy (s : State) (r : SampleReport) (mw : Nat) : State :=
  let t := s.time.uptime
  let b := s.time.beatStart
  let cur := min 50000 (t - b)
  let prev := min (50000 - cur) (b - s.pwr.prevStart)
  let rings (m : List (Nat × Nat)) (ns : Nat) : List (Nat × Nat) :=
    r.ringMw.foldl (fun m (g, w) => addAt m g (energy w ns)) m
  let s := modPwr s fun p => { p with
    beatNj := p.beatNj + energy mw cur, ringBeatNj := rings p.ringBeatNj cur
    prevNj := p.prevNj + energy mw prev, prevRingNj := rings p.prevRingNj prev }
  let len := b - s.pwr.prevStart
  if len = 0 || b + 50000 < t then s
  else modPwr s fun p => { p with
    powerW := p.prevNj / len
    ringPowerW := allRings.foldl (fun m g => SMap.put 0 m g (SMap.get 0 p.prevRingNj g / len)) [] }

/-- The module is powered: its regulators report. -/
def powered (s : State) : Bool := s.pins.psuSeen

def sample (s : State) (r : SampleReport) : State :=
  let mw := r.busMv * r.busMa / 1000
  let now := s.time.uptime
  let high := decide (103 * s.pwr.capW * 10 < mw)
  let s := attribute_ (beatEnergy s r mw) r
  let s := modPwr s fun p => { p with
    samples := (mw :: p.samples).take 4, inputMv := r.busMv, inputMa := r.busMa
    moduleNj := p.moduleNj + 50 * mw
    overVolt := if 66000 < r.busMv then p.overVolt + 1 else 0
    overCount := if high then p.overCount + 1 else 0
    quietSince := if mw ≤ p.capW * 1000 then (match p.quietSince with | some t => some t | none => some now) else none
    guardQuietSince := if r.busMa ≤ 2700000 then (match p.guardQuietSince with | some t => some t | none => some now) else none }
  if 2900000 < r.busMa then
    let low := grid (s.time.cclkMhz * 8 / 10)
    let s := modPwr s fun p => { shedFar p now with guardMhz := some (match p.guardMhz with | some g => min g low | none => low) }
    evModule (fastStep s) 0 0x090A (r.busMa / 1000)
  else s

/-- POWER_SAMPLE, on the grid of uptime multiples of 50 µs (R421, R432). Above 80 V, or above 66 V for longer than the 100 µs of a transient, the spec defines no
behaviour (R476). -/
def execPowerSample (rep : SampleReport) (s : State) : Host.Outcome State Fault Refusal :=
  if 80000 < rep.busMv || (66000 < rep.busMv && 2 ≤ s.pwr.overVolt) then .fault (.beyondAbsoluteMaximum rep.busMv)
  else .next (if powered s && s.time.uptime % 50000 = 0 then sample s rep else s)

/-- GUARD_CLEAR (R432). -/
def execGuardClear (s : State) : Host.Outcome State Fault Refusal :=
  .next (if s.pwr.guardMhz.isSome && since s s.pwr.guardQuietSince 100000000
    then modPwr s fun p => { p with guardMhz := none } else s)

/-! ### The cap loop (R425 to R429) -/

/-- The thermal demand drops 50 MHz at an action (R434). -/
def thermalStep (s : State) : State :=
  if s.pwr.thermal && (!s.pwr.fixedFreq || decide (s.pwr.thermalAt + 10000000 ≤ s.time.uptime)) then
    modPwr s fun p => { p with thermalMhz := some (grid ((p.thermalMhz.getD s.time.cclkMhz) - 50)) }
  else s

/-- One step: shed, restore, or raise in boost mode. CAP_UNMET needs every class at its limit: in fixed-frequency mode outside a breach
the compute clock is never there (R427, R428). -/
def loopStep (s : State) : State :=
  let p := s.pwr
  let w := p200 p
  let now := s.time.uptime
  if p.samples.isEmpty then s
  else if p.capW * 1000 < w then
    match (shedClasses s).find? (stepLeft s) with
    | some c => modPwr s fun p => shed p c now (loopDemand s)
    | none =>
      if 640 < loopDemand s then s else
      let due : Bool := match p.capUnmetAt with | some t => decide (t + 10000000000 ≤ now) | none => true
      if due then evModule (modPwr s fun p => { p with capUnmetAt := some now }) 0 0x0901 (w / 1000) else s
  else
    let calm : Bool := match p.lastShed with | some t => decide (t + 10000000 ≤ now) | none => true
    if !p.shedOrder.isEmpty && decide (100 * w < 97 * p.capW * 1000) && calm then modPwr s restore
    else if !p.fixedFreq && decide (100 * w < 95 * p.capW * 1000) && p.shedOrder.isEmpty && p.farSteps = 0 &&
        !p.lanesShed && decide (p.logicMax < 1000) && !p.throttleDemand && !p.throttleRestore && p.marginMhz.isNone &&
        decide (p.raiseAfter ≤ now) then
      modPwr s fun p => { p with boostMhz := min (Sys2Proof.Machine.boostMhz s.fused.variant) (p.boostMhz + 50) }
    else s

/-- CAP_LOOP_ACTION: what a throttle shed is restored ahead of the loop's own steps (R431). -/
def execCapLoopAction (s : State) : Host.Outcome State Fault Refusal :=
  .next (
    let due : Bool := match s.pwr.lastAction with | some t => decide (t + 200000 ≤ s.time.uptime) | none => true
    if !powered s || s.pwr.holdUp || !due then s
    else
      let s := modPwr (thermalStep s) fun p => { p with lastAction := some s.time.uptime }
      if s.pwr.throttleRestore then modPwr s unthrottle else loopStep s)

/-- Start a breach (R428); the clock drops at the next tick. -/
def startBreach (s : State) (thermal : Bool) : State :=
  let s := modPwr s fun p => { p with breach := true, breaches := p.breaches + 1 }
  evModule s 0 0x0902 (clockDemand s + b2n thermal * 2 ^ 16)

/-- REPEAT_BREACH. -/
def execRepeatBreach (s : State) : Host.Outcome State Fault Refusal :=
  .next (if s.pwr.fixedFreq && !s.pwr.breach && decide (40 ≤ s.pwr.overCount) && !s.pwr.holdUp then startBreach s false
    else s)

/-- BREACH_END. -/
def execBreachEnd (s : State) : Host.Outcome State Fault Refusal :=
  .next (if s.pwr.breach && since s s.pwr.quietSince 100000000 && !s.pwr.thermal && !s.pwr.throttleDemand &&
      (s.pwr.causeEnd.isNone || since s s.pwr.causeEnd 100000000) then
    modPwr s fun p => { p with breach := false, clockSteps := 0, shedOrder := p.shedOrder.filter (· ≠ 2), overCount := 0 }
    else s)

/-! ### THROTTLE_N (R431) -/

/-- The fast step, and the far-tier rate and the idle lanes at their limits. -/
def throttleOn (s : State) : State :=
  fastStep (modPwr s fun p => { p with throttleDemand := true, throttleRestore := false, throttleShed := true
                                       farSteps := 6, lanesShed := true
                                       throttleAt := s.time.uptime, throttleLongDone := false })

def edge (s : State) (level : Bool) : State :=
  let s := { s with pins := { s.pins with throttle := level } }
  modPwr s fun p => { p with lastEdge := s.time.uptime, chatterEdges := if p.chatter then p.chatterEdges + 1 else p.chatterEdges }

/-- THROTTLE_ASSERT. -/
def execThrottleAssert (s : State) : Host.Outcome State Fault Refusal :=
  .next (
    if s.pins.throttle then s
    else
      let s := edge s true
      if s.pwr.chatter || !powered s then s else throttleOn s)

/-- THROTTLE_DEASSERT: two deasserting edges less than 100 µs apart are chatter. -/
def execThrottleDeassert (s : State) : Host.Outcome State Fault Refusal :=
  .next (
    if !s.pins.throttle then s
    else
      let now := s.time.uptime
      let quick : Bool := match s.pwr.lastDeassert with | some t => decide (now < t + 100000) | none => false
      let s := edge s false
      let s := modPwr s fun p => { p with lastDeassert := some now }
      if s.pwr.chatter then s
      else if quick then modPwr s fun p => { p with chatter := true, chatterEdges := 3 }
      else modPwr s fun p => { p with throttleRestore := p.throttleDemand })

/-- CHATTER_QUIET: the input follows its level again. -/
def execChatterQuiet (s : State) : Host.Outcome State Fault Refusal :=
  .next (
    if s.pwr.chatter && decide (s.pwr.lastEdge + 1000000 ≤ s.time.uptime) then
      let s := evModule s 0 0x0904 s.pwr.chatterEdges
      modPwr s fun p => { p with chatter := false, chatterEdges := 0
                                 throttleRestore := p.throttleDemand && !s.pins.throttle }
    else s)

/-- THROTTLE_RELEASE. -/
def execThrottleRelease (s : State) : Host.Outcome State Fault Refusal :=
  .next (if s.pwr.throttleDemand && !s.pins.throttle && !s.pwr.chatter &&
      decide (s.pwr.lastEdge + 100000000 ≤ s.time.uptime) && since s s.pwr.quietSince 100000000 then
    modPwr s fun p => { p with throttleDemand := false, causeEnd := some s.time.uptime } else s)

/-- THROTTLE_LONG. -/
def execThrottleLong (s : State) : Host.Outcome State Fault Refusal :=
  .next (if (s.pins.throttle || s.pwr.chatter) && s.pwr.throttleDemand && !s.pwr.throttleLongDone &&
      decide (s.pwr.throttleAt + 60000000000 < s.time.uptime) then
    evModule (modPwr s fun p => { p with throttleLongDone := true }) 0 0x0903
      ((s.time.uptime - s.pwr.throttleAt) / 1000000000)
    else s)

/-! ### Heat (R433 to R435) -/

def maxInt (xs : List Int) : Option Int :=
  xs.foldl (fun m x => match m with | some y => some (max x y) | none => some x) none

/-- SENSOR_READ. -/
def execSensorRead (rs : List SensorReading) (s : State) : Host.Outcome State Fault Refusal :=
  .next (
    let s := (List.range 4).foldl (fun s p =>
      match maxInt ((rs.filter fun r => fieldPly r.field = p).map (·.tenthC)) with
      | some v => modPly s p fun x => { x with tjMax := v }
      | none => s) s
    let s := allRings.foldl (fun s g =>
      match maxInt ((rs.filter fun r => fieldRing r.field = g).map (·.tenthC)) with
      | some v => modRing s g fun x => { x with tjMax := v }
      | none => s) s
    let s := match maxInt ((rs.filter fun r => !r.dram).map (·.tenthC)) with
      | some v => modPwr s fun p => { p with logicMax := v }
      | none => s
    let hot := rs.filter fun r => decide ((if r.dram then 950 else 1050) ≤ r.tenthC)
    let cool := rs.all fun r => decide (r.tenthC < if r.dram then 900 else 1000)
    let s := modPwr s fun p => { p with
      thermalCoolSince := if cool then (match p.thermalCoolSince with | some t => some t | none => some s.time.uptime) else none }
    match maxInt (hot.map (·.tenthC)) with
    | none => s
    | some v =>
      if s.pwr.thermal then s
      else
        let ply := match hot.find? (fun r => r.tenthC = v) with | some r => fieldPly r.field | none => 0
        let s := modPwr s fun p => { p with thermal := true, thermalAt := s.time.uptime }
        let s := evModule s 0 0x0905 (ofInt 16 v + ply * 2 ^ 16)
        if s.pwr.fixedFreq then
          let s := modPwr s fun p => { p with thermalMhz := some (lowClk s) }
          if s.pwr.breach then s else startBreach s true
        else modPwr s fun p => { p with thermalMhz := some s.time.cclkMhz })

/-- THERMAL_CAUSE_END. -/
def execThermalCauseEnd (s : State) : Host.Outcome State Fault Refusal :=
  .next (if s.pwr.thermal && since s s.pwr.thermalCoolSince 100000000
    then modPwr s fun p => { p with thermal := false, thermalMhz := none, causeEnd := some s.time.uptime } else s)

/-- THERMTRIP (R435, R473): the ply's ring groups go off. -/
def execThermtrip (ply : PlyId) (tenthC : Nat) (s : State) : Host.Outcome State Fault Refusal :=
  .next (
    if (plyOf s ply).tripped || tenthC < 1150 then s
    else
      let s := modPly s ply fun p => { p with tripped := true }
      let s := (List.range 16).foldl (fun s k => modRing s ((ply : Nat) * 16 + k) fun r =>
        if r.supply = 0 then { r with supply := 1 } else r) s
      evModule { s with pins := { s.pins with thermtrip := true } } 5 0x0906 ((ply : Nat) + tenthC * 4))

/-! ### Ring supplies (R436, R437) -/

/-- A latch-off is a failure of the RING item (R275, R277). -/
def ringItemFails (s : State) (g cause : Nat) : State :=
  let r := ringOf s g
  let again : Bool := match r.itemFail with | some t => decide (s.time.poweredS ≤ t + suspectS) | none => false
  let st : SiteSt := if again || r.item = .retired then .retired else .suspect
  let s := modRing s g fun r => { r with item := st, itemFail := some s.time.poweredS }
  refine s (ringPly g) (mapEntry 6 (mapStateNo st) (ringPly g) (ringCentre g % 96) 0 0 s.time.poweredS 0 0 cause)

/-- A group goes off until power-on. -/
def groupOff (s : State) (g : Nat) (fuse : Bool) : State :=
  if (ringOf s g).supply ≠ 0 then s
  else
    let s := modRing s g fun r => { r with supply := if fuse then 3 else 2 }
    ringItemFails (evRing s g 3 0x0908 (g + b2n fuse * 2 ^ 6)) g 0x0908

def vcoreLeft (r : Ring) : Nat := 24 - r.vcoreLost.length
def vdramLeft (r : Ring) : Nat := 4 - r.vdramLost.length

/-- PHASE_LOST. -/
def execPhaseLost (ring : RingId) (vdram : Bool) (phase : Fin 24) (s : State) : Host.Outcome State Fault Refusal :=
  .next (
    let r := ringOf s ring
    let gone := if vdram then r.vdramLost else r.vcoreLost
    if r.supply ≠ 0 || gone.contains (phase : Nat) || (vdram && decide (4 ≤ (phase : Nat))) then s
    else
      let now := s.time.uptime
      let s := modRing s ring fun r => { r with
        vcoreLost := if vdram then r.vcoreLost else NSet.add r.vcoreLost phase
        vdramLost := if vdram then NSet.add r.vdramLost phase else r.vdramLost
        phaseTimes := (r.phaseTimes.filter fun t => decide (now ≤ t + 1000000)) ++ [now] }
      let s := evRing s ring 0 0x0907 ((phase : Nat) + b2n vdram * 2 ^ 5)
      let r := ringOf s ring
      if vcoreLeft r < 20 || vdramLeft r < 3 || 3 ≤ r.phaseTimes.length then groupOff s ring false else s)

/-- REG_LATCHOFF. -/
def execRegLatchoff (ring : RingId) (s : State) : Host.Outcome State Fault Refusal := .next (groupOff s ring false)

/-- EFUSE_OPEN. -/
def execEfuseOpen (ring : RingId) (s : State) : Host.Outcome State Fault Refusal := .next (groupOff s ring true)

/-! ### Canaries and optical lanes (R319, R320, R430) -/

/-- CANARY_RUN. -/
def execCanaryRun (ring : RingId) (rep : CanaryReport) (s : State) : Host.Outcome State Fault Refusal :=
  .next (
    if s.box.heldFrom.isSome || (ringOf s ring).supply ≠ 0 then s
    else
      let clk := s.time.cclkMhz
      let low := decide (rep.timingPs < s.box.set.marginWarn)
      let s := modRing s ring fun r => { r with timingPs := rep.timingPs, voltMv := rep.voltMv
                                                lowAtMhz := if low then some clk else none }
      let s := modBox s fun b => { b with canaryRuns := b.canaryRuns + 1 }
      let s := if low then evRing (modBox s fun b => { b with marginLow := b.marginLow + 1 }) ring 0 0x0405 (ofInt 32 rep.timingPs)
        else s
      let s := match rep.failed with
        | some c => evRing (modRing s ring fun r => { r with deepBeats := 54 }) ring 1 0x0406 c
        | none => s
      if s.pwr.fixedFreq then s
      else
        let s := if low then modPwr s fun p => { p with marginMhz := some (max (fixedClk s) (clk - 50)) }
          else if allRings.all fun g => (ringOf s g).lowAtMhz.isNone then modPwr s fun p => { p with marginMhz := none }
          else s
        match rep.failed with
        | some _ => modPwr s fun p => { p with boostMhz := fixedClk s, raiseAfter := s.time.uptime + 60000000000 }
        | none => s)

/-- A REAL32 exceeds another. -/
def realGt (a b : BitVec 32) : Bool := !numLe (decFloat fp32 a.toNat) (decFloat fp32 b.toNat)

/-- OPTICAL_SAMPLE. -/
def execOpticalSample (ls : List LaneReading) (s : State) : Host.Outcome State Fault Refusal :=
  .next (ls.foldl (fun s l =>
    let set := s.box.set
    let alarm := decide (l.centiDbm < set.optAlarm) || realGt l.ber set.berAlarm
    let warn := decide (l.centiDbm < set.optWarn) || realGt l.ber set.berWarn
    let m : BitVec 8 := 1#8 <<< (l.lane : Nat)
    let s := modSport s l.port fun x => { x with laneAlarm := if alarm then x.laneAlarm ||| m else x.laneAlarm &&& ~~~m }
    let d := (l.port : Nat) + (l.lane : Nat) * 2 ^ 5
    if alarm then evModule s 1 0x0408 d else if warn then evModule s 0 0x0407 d else s) s)

/-! ### Powered time (R457) -/

/-- POWERED_SECOND. -/
def execPoweredSecond (s : State) : Host.Outcome State Fault Refusal :=
  .next (if powered s then { s with time := { s.time with poweredS := s.time.poweredS + 1 } } else s)

/-- POWERED_COUNT_STORE. -/
def execPoweredCountStore (s : State) : Host.Outcome State Fault Refusal :=
  .next (if powered s && boxRuns s then { s with time := { s.time with poweredStored := s.time.poweredS } } else s)

end Sys2Proof.Machine
end

