-- ==== Sys2Proof/Machine/Inflector.lean ====
section
/-! DEFINITION. The Inflector's conversions over sequences of bytes (spec/08_memory_tiers.md R233, R235, R236;
spec/04_arithmetic.md R79, R80, R96, R97). A poisoned source lane poisons every result element that depends on it. -/

namespace Sys2Proof.Machine
open Sys2Proof

/-- Source bytes as a number, with their poisoned 64-bit lanes. -/
structure Source where
  w : Nat
  len : Nat
  psn : List Nat

/-- Bits [pos, pos + n) touch a poisoned lane. -/
def Source.bad (x : Source) (pos n : Nat) : Bool :=
  x.psn.any fun l => decide (pos / 64 ≤ l) && decide (l ≤ (pos + n - 1) / 64)

/-- Result elements of one width with their poison. -/
structure Piece where
  /-- first byte in the result -/
  at_ : Nat
  bits : Nat
  codes : List (Nat × Bool)

def Piece.len (p : Piece) : Nat := ceilDiv (p.codes.length * p.bits) 8

/-- Bytes and poisoned lanes of a piece, lanes numbered from its first byte. -/
def Piece.bytes (p : Piece) : List Byte := leBytes p.len (packN p.bits (p.codes.map (·.1)))

def Piece.lanes (p : Piece) : List Nat :=
  let bad := (p.codes.zipIdx.filter fun c => c.1.2).map (·.2)
  (bad.map fun e => (List.range ((p.bits * (e + 1) - 1) / 64 + 1 - p.bits * e / 64)).map (· + p.bits * e / 64)).flatten

def round512 (n : Nat) : Nat := ceilDiv n 512 * 512

/-- Elements first and their scale bytes from the next 512 B row. -/
def scaledPieces (bits : Nat) (es scales : List (Nat × Bool)) : List Piece :=
  let p : Piece := ⟨0, bits, es⟩
  [p, ⟨round512 p.len, 8, scales⟩]

/-! ### Decoding -/

/-- Number of 32-element blocks of an MX source of a given length, scales included. -/
def mxBlocks (bits len : Nat) : Nat :=
  (((List.range (len / (4 * bits + 1) + 1)).reverse.find? fun k => decide (round512 (4 * bits * k) + k ≤ len)).getD 0)

/-- Values of an MX source: element × scale (R79). -/
def mxValues (code : Nat) (x : Source) : List (Num × Bool) :=
  let b := fbits code
  let k := mxBlocks b x.len
  let at_ := 8 * round512 (4 * b * k)
  (List.range (32 * k)).map fun e =>
    let sc := fldN x.w (at_ + 8 * (e / 32)) 8
    ((opnd code true (fldN x.w (b * e) b) sc).v, x.bad (b * e) b || x.bad (at_ + 8 * (e / 32)) 8)

/-- Element codes and phrase scales of an LX14 source (R80). A LEN that is no multiple of 29 ends in part of a block, which yields
no phrase: the rest is dropped (DESIGN CHOICE, log entry 82). -/
def lxCodes (lex : Source) (x : Source) : List ((Nat × Nat) × Bool) :=
  (List.range (64 * (x.len / 29))).map fun e =>
    let p := 232 * (e / 64)
    let idx := fldN x.w (p + 14 * (e % 64 / 4)) 14
    let at_ := 32 * idx + 8 * (e % 4)
    ((fldN lex.w at_ 8, fldN x.w (p + 224) 8),
     x.bad (p + 14 * (e % 64 / 4)) 14 || x.bad (p + 224) 8 || lex.bad at_ 8)

/-- Blocks of 32 values as elements and scales of an MX format (R97). A number of values that is no multiple of 32 ends in a
short block with its own scale, for the spec states none (DESIGN CHOICE, log entry 80). -/
def toMx (code : Nat) (vs : List (Num × Bool)) : List Piece :=
  let bs := chunks 32 vs.length vs
  let sc (b : List (Num × Bool)) : Nat := mxScale code (b.map (·.1))
  let bad (b : List (Num × Bool)) : Bool := b.any (·.2)
  scaledPieces (fbits code)
    (bs.map fun b => b.map fun v => (mxElem code (sc b) v.1, bad b)).flatten (bs.map fun b => (sc b, bad b))

/-- Values rounded to BF16 or FP32, or as MXFP8 E4M3. -/
def fromValues (ofmt : Nat) (vs : List (Num × Bool)) : List Piece :=
  if ofmt = 3 then toMx 3 vs
  else [⟨0, fbits ofmt, vs.map fun v => (encElem ofmt true v.1, v.2)⟩]

/-- DECODE. -/
def decode (ifmt ofmt : Nat) (lex x : Source) : List Piece :=
  if ifmt = 0xC then
    let cs := lxCodes lex x
    if ofmt = 0xC then
      scaledPieces 8 (cs.map fun c => (c.1.1, c.2))
        ((List.range (x.len / 29)).map fun p => (fldN x.w (232 * p + 224) 8, x.bad (232 * p + 224) 8))
    else fromValues ofmt (cs.map fun c => ((opnd 0xC true c.1.1 c.1.2).v, c.2))
  else fromValues ofmt (mxValues ifmt x)

/-! ### Encoding -/

/-- Values of a BF16 or FP32 source. -/
def plainValues (code : Nat) (x : Source) : List (Num × Bool) :=
  let b := fbits code
  (List.range (8 * x.len / b)).map fun e => (decElem code (fldN x.w (b * e) b), x.bad (b * e) b)

/-- A finite value times 2^160, an integer for every FP32 and E4M3 value. -/
def fix160 : Num → Int
  | .fin n m e => let v : Int := shl m (e + 160); if n then -v else v
  | _ => 0

def numMag : Num → Num
  | .fin _ m e => .fin false m e
  | .inf _ => .inf false
  | .nan => .nan

def maxNum (xs : List Num) : Num := xs.foldl (fun a b => if numLe a b then b else a) (.fin false 0 0)

/-- Entry i of a lexicon. -/
def lexEntry (lex : Source) (i : Nat) : List Num := (List.range 4).map fun j => decElem 3 (fldN lex.w (32 * i + 8 * j) 8)

/-- Index of the nearest lexicon entry, lowest on ties (R235); an entry with a NaN is no candidate. With a scale that rounds
to zero no quotient is a number and the index is free (log entry 33). -/
def nearest (lex : Source) (ts : List Num) : Nat :=
  let dist (i : Nat) : Nat :=
    (List.zip ts (lexEntry lex i)).foldl (fun s p => s + ((fix160 p.1 - fix160 p.2).natAbs) ^ 2) 0
  let step (best : Option (Nat × Nat)) (i : Nat) : Option (Nat × Nat) :=
    if (lexEntry lex i).any numIsNan then best
    else match best with
      | some (_, d) => if dist i < d then some (i, dist i) else best
      | none => some (i, dist i)
  match (if ts.all numFinite then (List.range 16384).foldl step none else none) with
  | some (i, _) => i
  | none => (Config.lexIndex (ts.map (encFloat fp32 false))).toNat

/-- Quotient of two finite values rounded to FP32; by zero it is no finite value. -/
def quotNum (a b : Num) : Num :=
  match a, b with
  | .fin n m e, .fin n' m' e' =>
    if m' = 0 then .nan else decFloat fp32 (roundQ fp32 false (n != n') m m' (e - e'))
  | _, _ => .nan

/-- One phrase of 64 weights: indices and scale (R235). -/
def phrase (lex : Source) (vs : List Num) : Nat :=
  if vs.any (fun v => !numFinite v) then 0x7F * 2 ^ 224
  else if vs.all (fun v => numEq v (.fin false 0 0)) then 0
  else
    let big := maxNum (vs.map numMag)
    let l := maxNum (((List.range 65536).map fun k => numMag (decElem 3 (fldN lex.w (8 * k) 8))).filter numFinite)
    let sc := match big, l with
      | .fin _ m e, .fin _ m' e' => if m' = 0 then 0x7E else roundQ e4m3 true false m m' (e - e')
      | _, _ => 0x7E
    let s := decElem 3 sc
    let idx := (chunks 4 64 vs).map fun g => nearest lex (g.map fun w => quotNum w s)
    packN 14 idx + sc * 2 ^ 224

/-- A phrase whose scale and indices depend on the lexicon: it has only finite values, and one that is not zero (R235). -/
def readsLex (vs : List Num) : Bool := vs.all numFinite && !vs.all (fun v => numEq v (.fin false 0 0))

/-- ENCODE. -/
def encode (ifmt ofmt : Nat) (lex x : Source) : List Piece :=
  let vs := plainValues ifmt x
  if ofmt = 0xC then
    let ps := (chunks 64 vs.length vs).map fun g => padTo (.fin false 0 0, false) 64 g
    [⟨0, 232, ps.map fun g => (phrase lex (g.map (·.1)), g.any (·.2) || (!lex.psn.isEmpty && readsLex (g.map (·.1))))⟩]
  else toMx ofmt vs

/-! ### Packed partials (R236) -/

/-- Position of the lowest set bit of a nonzero number. -/
def lowBit (v : Nat) : Nat := ((List.range 192).find? fun k => fldN v k 1 = 1).getD 0

def flagsClear (c : Acc) : Bool := !(c.nan || c.pinf || c.ninf || c.trunc || c.range)

/-- One block: header and elements (R236). -/
def packBlock (cs : List Acc) (anchors : List Int) (raw : List Nat) : List (Nat × Nat) :=
  let ws := cs.map fun c => ofInt 192 c.w
  let low := ((ws.filter (· ≠ 0)).map lowBit).foldl min 192
  let low := if low = 192 then 0 else low
  let norm := cs.all flagsClear && (List.zip cs anchors).all (fun p => p.1.anchor = p.2) &&
    cs.all fun c => let v := c.w / 2 ^ low; -(2 ^ 63 : Int) ≤ v && v < 2 ^ 63
  if norm then (64, low) :: cs.map fun c => (64, ofInt 64 (c.w / 2 ^ low))
  else (64, low + 256) :: raw.map fun r => (256, r)

/-- PACK. A number of partials that is no multiple of 32 makes a short last block, for the spec states none (DESIGN CHOICE, log
entry 80). -/
def pack (table x : Source) : List Piece :=
  let n := x.len / 32
  let es := (List.range n).map fun e => (fldN x.w (256 * e) 256, sgn 16 (fldN table.w (16 * e) 16),
    x.bad (256 * e) 256 || table.bad (16 * e) 16)
  let add (acc : List Piece × Nat) (g : List (Nat × Int × Bool)) : List Piece × Nat :=
    let bad := g.any fun y => y.2.2
    (packBlock (g.map fun y => accOfPart y.1) (g.map fun y => y.2.1) (g.map fun y => y.1)).foldl
      (fun a c => (a.1 ++ [⟨a.2, c.1, [(c.2, bad)]⟩], a.2 + c.1 / 8)) acc
  ((chunks 32 n es).foldl add ([], 0)).1

/-- A block of n elements of the packed form at byte `o`: its partials and its length; `lost` says that an earlier header, on which
the block's place depends, is poisoned. -/
def unpackBlock (table x : Source) (lost : Bool) (o e n : Nat) : List (Nat × Bool) × Nat :=
  let h := fldN x.w (8 * o) 64
  let wide := fldN h 8 1 = 1
  let sz := if wide then 256 else 64
  let hb := lost || x.bad (8 * o) 64
  ((List.range n).map fun k =>
    let p := 8 * o + 64 + sz * k
    let a := sgn 16 (fldN table.w (16 * (e + k)) 16)
    (if wide then fldN x.w p 256
     else partOf { w := sgn 64 (fldN x.w p 64) * 2 ^ fldN h 0 8, anchor := a },
     hb || x.bad p sz || (!wide && table.bad (16 * (e + k)) 16)), 8 + sz / 8 * n)

/-- UNPACK, block by block until the source ends; a short last block gives as many partials as fit (DESIGN CHOICE, log entry
80). -/
def unpackFrom (table x : Source) : Nat → Bool → Nat → Nat → List (Nat × Bool)
  | 0, _, _, _ => []
  | f + 1, lost, o, e =>
    if x.len < o + 16 then []
    else
      let room := (x.len - o - 8) / (if fldN x.w (8 * o + 8) 1 = 1 then 32 else 8)
      let b := unpackBlock table x lost o e (min 32 room)
      b.1 ++ unpackFrom table x f (lost || x.bad (8 * o) 64) (o + b.2) (e + 32)

def unpack (table x : Source) : List Piece := [⟨0, 256, unpackFrom table x (x.len / 264 + 2) false 0 0⟩]

/-- One operation of the Inflector: OP 0 COPY, 1 DECODE, 2 ENCODE, 3 PACK, 4 UNPACK. -/
def inflect (op ifmt ofmt : Nat) (aux x : Source) : List Piece :=
  match op with
  | 0 => [⟨0, 8, (List.range x.len).map fun k => (fldN x.w (8 * k) 8, x.bad (8 * k) 8)⟩]
  | 1 => decode ifmt ofmt aux x
  | 2 => encode ifmt ofmt aux x
  | 3 => pack aux x
  | _ => unpack aux x

/-- Formats that an operation takes (R230, R233). -/
def inflectOk (op ifmt ofmt : Nat) : Bool :=
  let mx (c : Nat) : Bool := c ≤ 5
  match op with
  | 0 => ifmt ≠ 0xF && ofmt ≠ 0xF
  | 1 => (mx ifmt && (ofmt = 8 || ofmt = 0xA || ofmt = 3)) ||
         (ifmt = 0xC && (ofmt = 0xC || ofmt = 8 || ofmt = 0xA || ofmt = 3))
  | 2 => (ifmt = 8 || ifmt = 0xA) && (mx ofmt || ofmt = 0xC)
  | 3 | 4 => ifmt = 0xF && ofmt = 0xF
  | _ => false

end Sys2Proof.Machine
end

