-- ==== Sys2Proof/Machine/Windows.lean ====
section
/-! DEFINITION. Windows, views and placement: from Tenancy Addresses and a virtual field's channel offsets to
Module Addresses (R13, R23, R37, R204, R205, R220, R221, R237, R365, R366). -/

namespace Sys2Proof.Machine
open Sys2Proof

def granBytes : Nat := 0x200000

/-- Physical granule of a near view granule (R365). -/
def nearView (x : Tenancy) (g : Nat) : Option Nat :=
  match x.group with
  | none => some g
  | some _ => match x.sentence with
    | some st =>
      if g < st.low then some (x.nearBase + g)
      else if 1023 - st.high ≤ g then some (x.nearBase + st.low + g - (1023 - st.high))
      else none
    | none => none

/-- View position of near window granule G: virtual ring, virtual field, channel, view granule (R220). -/
def nearPos (n G : Nat) : VGranule :=
  { vring := G / 192 % n, vfield := G / 32 % 6, ch := G % 32, gran := 1022 - G / (192 * n) }

/-- Near window granule at a view position, where there is one. -/
def nearNum (n : Nat) (v : VGranule) : Nat :=
  (1022 - v.gran) * (192 * n) + v.vring * 192 + v.vfield * 32 + v.ch

/-- Module Address of a view position's byte. -/
def viewAddr (x : Tenancy) (v : VGranule) (off : Nat) : Option Nat :=
  match x.sentence with
  | some st => match st.bound[v.vring]?, nearView x v.gran with
    | some r, some g => some (nearAddr (ringField r v.vfield) v.ch (g * granBytes + off))
    | _, _ => none
  | none => none

/-- Module Address of a byte of far granule F (R221, R365). -/
def farGran (x : Tenancy) (F off : Nat) : Option Nat :=
  match x.sentence with
  | some st => match st.farHome[F / 2 % max 1 st.rings]? with
    | some r => some (farAddr (ringStack r (F % 2)) ((x.farBase + F / (2 * max 1 st.rings)) * granBytes + off))
    | none => none
  | none => none

/-- Module Address of a byte of a window. -/
def winAddr (x : Tenancy) (w : Window) (ta : Nat) : Option Nat :=
  let k := (ta - w.base) / granBytes
  let off := ta % granBytes
  match w.place with
  | .near first => match x.sentence with
    | some st => viewAddr x (nearPos (max 1 st.rings) (first + k)) off
    | none => none
  | .far first => farGran x (first + k) off
  | .host gs => match gs[k]? with
    | some (st, g) => some (farAddr st (g * granBytes + off))
    | none => none

def winEnd (w : Window) : Nat := w.base + w.granules * granBytes

/-- The window that holds a range of Tenancy Addresses. -/
def winFind (x : Tenancy) (ta len : Nat) : Option Window :=
  x.windows.find? fun w => decide (w.base ≤ ta) && decide (ta + len ≤ winEnd w)

/-- Bytes of a range of one window. -/
def winBytes (s : State) (x : Tenancy) (w : Window) (ta len : Nat) : List Byte :=
  (List.range len).map fun i => match winAddr x w (ta + i) with
    | some a => memByte s a
    | none => 0

/-- A near or far codeword that any reader gets poisoned: its flag, an uncorrectable error, or a rehearsed one (R210, R226,
R323). -/
def wordBad (s : State) (a : Nat) : Bool :=
  codewordPoisoned s a || s.latent.any (fun p => p.1 = a / 64 * 8 && p.2 = .uncorr) ||
  s.box.reh.poisonNext.any fun l => l / 8 = a / 64

/-- Poisoned lanes of 8 bytes of a range whose bytes lie where `addr` says, numbered from the first. -/
def lanesBad (s : State) (addr : Nat → Option Nat) (len : Nat) : List Nat :=
  (List.range (ceilDiv len 8)).filter fun i => [8 * i, min (8 * i + 7) (len - 1)].any fun k =>
    match addr k with | some a => wordBad s a | none => false

/-- Poisoned 64-bit lanes of a range of one window, numbered from its first byte. -/
def winPoison (s : State) (x : Tenancy) (w : Window) (ta len : Nat) : List Nat :=
  lanesBad s (fun k => winAddr x w (ta + k)) len

/-- Mark the far granule of a Module Address as written (R367). -/
def markWritten (s : State) (a : Nat) : State :=
  if a / 2 ^ 60 = 1 then
    let st := fldN a 58 2 * 32 + fldN a 53 5
    modStack s st fun k => { k with written := NSet.add k.written (fldN a 21 18) }
  else s

/-- A write marks the dirty bits of the 4 KiB blocks it reaches, and moves what a pending guard copy has still to read into
the guard-save granule, 128 B at a time (R238). -/
def noteWrite (s : State) (a len : Nat) : State :=
  if a / 2 ^ 60 ≠ 0 || len = 0 then s
  else
    let f := fldN a 58 2 * 96 + fldN a 51 7
    let s := modField s f fun x => { x with
      dirty := (List.range ((a + len - 1) / 4096 + 1 - a / 4096)).foldl (fun m k =>
        NSet.add m (fldN a 46 5 * 2 ^ 19 + a % 2 ^ 31 / 4096 + k)) x.dirty }
    let units := (List.range ((a + len - 1) / 128 + 1 - a / 128)).map (a / 128 + ·)
    match ringRun s (fieldRing f) with
    | none => s
    | some (n, u) =>
      if u.copies.isEmpty then s
      else
        let due (g : GuardCopy) : List Nat :=
          units.filter fun k => !g.swaps.contains k && g.blocks.any fun b => b.1 / 4096 = k / 32
        modRun s n fun u => { u with copies := u.copies.map fun g =>
          if g.done then g else { g with swaps := (due g).foldl NSet.add g.swaps } }

/-- Write bytes with poisoned lanes at a Module Address, near or far. -/
def placeWrite (s : State) (a : Nat) (bs : List Byte) (psn : List Nat) : State :=
  markWritten (memWriteP (noteWrite s a bs.length) a bs psn) a

/-- Write a range of one window, by pieces of 64 bytes. -/
def winWrite (s : State) (x : Tenancy) (w : Window) (ta : Nat) (bs : List Byte) (psn : List Nat := []) : State :=
  ((chunks 64 bs.length bs).zipIdx).foldl (fun s (b, i) =>
    match winAddr x w (ta + 64 * i) with
    | some a => placeWrite s a b ((psn.filter fun l => decide (l / 8 = i)).map (· % 8))
    | none => s) s

/-! ### What a granule of a virtual field's channel holds (R205) -/

inductive GranUse where
  | free | resident | spill | held | service | absent
  deriving DecidableEq, Repr

/-- The clause that a tenancy runs. -/
def clauseOf (x : Tenancy) : Option Clause :=
  match x.sentence, x.run with
  | some st, some u => st.clauses[u.clause]?
  | _, _ => none

/-- The configuration in force: the clause's own or the relocation option applied (R292). -/
def cfgOf (x : Tenancy) : Option Cfg :=
  match clauseOf x, x.run with
  | some c, some u => match u.option with
    | some k => (c.relocs[k]?).map (·.cfg)
    | none => some c.cfg
  | _, _ => none

/-- Windows of the granule map in force: those of the running clause's load beat. -/
def mapWindows (x : Tenancy) : List Window := match x.run with | some u => u.grans.getD x.windows | none => x.windows

def granUse (x : Tenancy) (v : VGranule) : GranUse :=
  if v.gran ≥ 1023 then .service
  else match x.sentence with
  | none => .free
  | some st =>
    if (nearView x v.gran).isNone then .absent
    else
      let G := nearNum (max 1 st.rings) v
      match (mapWindows x).find? (fun w => match w.place with
        | .near first => decide (first ≤ G) && decide (G < first + w.granules)
        | _ => false) with
      | some w => if w.attr = .spill then .spill else .held
      | none => match cfgOf x with
        | some c => if c.layout.resident.any (fun p => p.1 = v) then .resident else .free
        | none => .free

/-! ### The guard copy (R237) -/

/-- First far granule of the tenancy's GUARDED window. -/
def guardFirst (x : Tenancy) : Option Nat :=
  match x.windows.find? (fun w => w.attr = .guarded) with
  | some w => match w.place with
    | .far first => some first
    | _ => none
  | none => none

/-- Where the GUARDED window keeps a byte of a guarded granule under a guard map. -/
def guardAddrIn (x : Tenancy) (m : List VGranule) (v : VGranule) (off : Nat) : Option Nat :=
  match guardFirst x, m.findIdx? (fun w => w = v) with
  | some f, some k => farGran x (f + k) off
  | _, _ => none

/-- Where it keeps a byte of the mirror area of a channel (R204, R237). -/
def guardMirrorIn (x : Tenancy) (m : List VGranule) (vr vf ch off : Nat) : Option Nat :=
  (guardFirst x).bind fun f =>
    let b := (vf * 32 + ch) * 0x80000 + off
    farGran x (f + m.length + 48 * vr + b / granBytes) (b % granBytes)

/-- Guard map of the copy that stands in the GUARDED window for the running clause: none where the clause runs without ring guard
or no copy has reached the window (R211, R239). -/
def guardMapOf (x : Tenancy) : Option (List VGranule) :=
  match clauseOf x, x.run with
  | some c, some u => if c.guard then u.guardMap else none
  | _, _ => none

/-- The place of a guarded granule's byte in that copy. -/
def guardAddr (x : Tenancy) (v : VGranule) (off : Nat) : Option Nat := (guardMapOf x).bind fun m => guardAddrIn x m v off

/-- The place of a mirror area's byte in that copy. -/
def guardMirror (x : Tenancy) (vr vf ch off : Nat) : Option Nat :=
  (guardMapOf x).bind fun m => guardMirrorIn x m vr vf ch off

/-- Offset of storage slot k of a virtual tile's mirror in channel v mod 32 (R216). -/
def mirrorOff (v k : Nat) : Nat := 0x7FE00000 + v / 32 * 0x40000 + k * 0x20000

/-- The source that restores a near granule of a clause: its resident far source, else the guard copy (R211). -/
def restoreSrc (x : Tenancy) (v : VGranule) (off : Nat) : Option Nat :=
  match cfgOf x with
  | some c => match c.layout.resident.find? (fun p => p.1 = v) with
    | some (_, some ta) => match winFind x (ta + off) 1 with
      | some w => winAddr x w (ta + off)
      | none => none
    | _ => guardAddr x v off
  | none => none

/-! ### Who may read and write a window (R37, R205) -/

/-- Who sends a request. -/
inductive Agent where
  | tile | dma | sequencer | stream | host | service
  deriving DecidableEq, Repr

def agentOf (src : BitVec 16) : Agent :=
  let e := epNo src
  if e < 72 then .tile else if e = 74 then .dma else if e = 76 then .sequencer else if e = 77 then .stream
  else if 79 ≤ e ∧ e ≤ 86 then .host else .service

/-- The attribute permits a write or a read of an agent (R37): a far-DMA engine acts for the tenancy's tiles, a
collective sequencer reads OUTPUT and writes INPUT windows (R389). -/
def mayWrite (a : Agent) (w : Attr) : Bool :=
  match a with
  | .tile | .dma => w = .output || w = .spill || w = .master
  | .sequencer | .stream | .host => w = .input
  | .service => w = .guarded

def mayRead (a : Agent) (w : Attr) : Bool :=
  match a with
  | .tile | .dma => w = .input || w = .spill || w = .master
  | .host => w = .output || w = .master
  | .sequencer | .stream => w = .output
  | .service => w = .guarded

/-- Ring that a near or far Module Address belongs to. -/
def maRing (a : Nat) : Nat :=
  if a / 2 ^ 60 = 1 then stackRing (fldN a 58 2 * 32 + fldN a 53 5) else fieldRing (fldN a 58 2 * 96 + fldN a 51 7)

/-- Writer tag of a SPILL granule (R205): clause-table entry + 1, or 0. -/
def spillTag (s : State) (a : Nat) : Nat :=
  if a / 2 ^ 60 = 1 then SMap.get 0 (stackOf s (fldN a 58 2 * 32 + fldN a 53 5)).writer (fldN a 21 18)
  else SMap.get 0 (fieldOf s (fldN a 58 2 * 96 + fldN a 51 7)).writer (fldN a 46 5 * 1024 + fldN a 21 10)

def setSpillTag (s : State) (a tag : Nat) : State :=
  if a / 2 ^ 60 = 1 then
    modStack s (fldN a 58 2 * 32 + fldN a 53 5) fun k => { k with writer := SMap.put 0 k.writer (fldN a 21 18) tag }
  else
    modField s (fldN a 58 2 * 96 + fldN a 51 7) fun f =>
      { f with writer := SMap.put 0 f.writer (fldN a 46 5 * 1024 + fldN a 21 10) tag }

def runTag (x : Tenancy) : Nat := match x.run with | some u => u.clause + 1 | none => 0

/-- Granules of a range of one window, by their Module Addresses. -/
def rangeGrans (x : Tenancy) (w : Window) (ta len : Nat) : List Nat :=
  (List.range (ceilDiv (ta % granBytes + max 1 len) granBytes)).filterMap fun k =>
    winAddr x w (ta / granBytes * granBytes + k * granBytes)

/-- Only the clause that wrote a SPILL granule reads it (R37, R205). -/
def tagsOk (s : State) (x : Tenancy) (w : Window) (ta len : Nat) : Bool :=
  (rangeGrans x w ta len).all fun m => spillTag s m = 0 || spillTag s m = runTag x

/-- A write into a SPILL window sets the writer tags of its granules. -/
def setTags (s : State) (x : Tenancy) (w : Window) (ta len : Nat) : State :=
  (rangeGrans x w ta len).foldl (fun s m => setSpillTag s m (runTag x)) s

/-- A tile, or an engine that acts for it, reads a range of a window. -/
def tileReads (s : State) (x : Tenancy) (w : Window) (ta len : Nat) : Bool :=
  mayRead .tile w.attr && (w.attr ≠ .spill || tagsOk s x w ta len)

/-- A range lies in a near tier whose ring is dark, where nothing answers (R23). -/
def rangeDark (s : State) (x : Tenancy) (w : Window) (ta len : Nat) : Bool :=
  (rangeGrans x w ta len).any fun m => decide (m / 2 ^ 60 = 0) && dark s (maRing m)

end Sys2Proof.Machine
end

