-- ==== Sys2Proof/Machine/Spm.lean ====
section
/-! DEFINITION. The paths to a tile's data: scratchpad rows with their correction, XOR words and poison, near
rows through the crossbar, and inbound buffer rows (spec/06_scratchpad.md R151 to R162, R168;
spec/08_memory_tiers.md R205, R206, R210, R211, R217; spec/03_tile.md R53 to R55, R62). -/

namespace Sys2Proof.Machine
open Sys2Proof

/-- A row as a reader takes it: 512 bytes, poisoned lanes, valid bytes, last row of its packet. -/
structure RowRd where
  bytes : List Byte
  psn : List Nat := []
  count : Nat := 512
  eop : Bool := false
  deriving DecidableEq, Repr

def latentAt (s : State) (w : Nat) : Option Latent := (s.latent.find? fun p => p.1 = w).map (·.2)

/-- Key of a row's XOR word among the latent errors. -/
def xorKey (i row : Nat) : Nat := 2 ^ 61 + i * spmRows + row

def rowLane (i row : Nat) : Nat := spmAddr i (row * rowBytes) / 8

/-- The segment of a row is class W (R146, R154). -/
def classW (t : Tile) (row : Nat) : Bool := bit t.spm.segClass (row / 128)

/-- Data words of a row with an uncorrectable and with a correctable error. -/
def badWords (s : State) (i row : Nat) (k : Latent) : List Nat :=
  (List.range 64).filter fun w => latentAt s (rowLane i row + w) = some k

/-- The one uncorrectable word of a class W row is rebuilt (R156). -/
def rebuilds (s : State) (i row : Nat) : Bool :=
  let t := tileOf s i
  classW t row && t.spm.xv.contains row && (badWords s i row .uncorr).length = 1 &&
  latentAt s (xorKey i row) ≠ some .uncorr

/-- Uncorrectable words that are delivered poisoned (R156, R158). -/
def deadWords (s : State) (i row : Nat) : List Nat :=
  if rebuilds s i row then [] else badWords s i row .uncorr

/-- Words that one access to a row corrects, the rebuilt one last. -/
def fixedWords (s : State) (i row : Nat) : List Nat :=
  badWords s i row .corr ++ if rebuilds s i row then badWords s i row .uncorr else []

/-- Words corrected in one access (R157). A single-bit error of the XOR word counts nothing: the rule counts corrected words
of the row (DESIGN CHOICE, log entry 80). -/
def corrWords (s : State) (i row : Nat) : Nat := (fixedWords s i row).length

/-- Lanes delivered poisoned: uncorrectable, stored poison (R159), and a rehearsed word (R323). -/
def poisonWords (s : State) (i row : Nat) : List Nat :=
  (List.range 64).filter fun w =>
    (deadWords s i row).contains w || s.poison.contains (rowLane i row + w) ||
    s.box.reh.poisonNext.contains (rowLane i row + w)

def readRow (s : State) (i row : Nat) : RowRd :=
  { bytes := memRead s (spmAddr i (row * rowBytes)) rowBytes, psn := poisonWords s i row }

/-- Who reads a row: a unit of the tile, the carry mirror on port B, the scrubber, or a Module Address access. -/
inductive ReadBy where
  | unit | mirror | scrub | path
  deriving DecidableEq, Repr

/-- Words that have counted as a failure in this beat, and those of the run that this beat replays; of a row as it stood before
a write of this beat (`old`) those that the write has replaced (R151, R158). -/
def Spm.counted (x : Spm) (old : Bool) : List Nat := if old then x.failedOld else x.failedWords
def Spm.prior (x : Spm) (old : Bool) : List Nat := if old then x.priorOld else x.priorWords
def Spm.count (x : Spm) (old : Bool) (k : Nat) : Spm :=
  if old then { x with failedOld := NSet.add x.failedOld k } else { x with failedWords := NSet.add x.failedWords k }

/-- A write replaces some words: what counted of them counts for the reads that still find them (R158). -/
def Spm.rewrite (x : Spm) (gone : Nat → Bool) : Spm :=
  { x with
    failedOld := (x.failedWords.filter gone).foldl NSet.add x.failedOld
    priorOld := (x.priorWords.filter gone).foldl NSet.add x.priorOld
    failedWords := x.failedWords.filter fun k => !gone k
    priorWords := x.priorWords.filter fun k => !gone k }

/-- Count one uncorrectable word of a beat (R158): a failure of the site once a beat. Read again by a unit in the
replay of the beat and not rewritten in between, it is the same failure, which the replay could not resolve: the
cause of the engine level (R160). -/
def countDead (s : State) (i row : Nat) (by_ : ReadBy) (old : Bool) (w : Nat) : State :=
  let t := tileOf s i
  let k := row * 64 + w
  if (t.spm.counted old).contains k then s
  else
    let again := t.st = .replay && (t.spm.prior old).contains k
    if again && by_ = .scrub then s
    else
      let s := modTile s i fun t => { t with spm := t.spm.count old k }
      if again then siteUnresolved (failTile s i mechAgain) i 0x0102 else siteFails s i false 0 0x0102

/-- Lanes of a read that add to POISON_COUNT: stored poison counts nothing (R159). -/
def countedPoison (s : State) (i row : Nat) : List Nat :=
  (poisonWords s i row).filter fun w => (deadWords s i row).contains w || !s.poison.contains (rowLane i row + w)

/-- A rebuilt word is an uncorrectable word too: it counts as a failure of its site, once a beat and its replays (R158, and
the example after R160). -/
def countRebuilt (s : State) (i row : Nat) (old : Bool) (w : Nat) : State :=
  let k := row * 64 + w
  if ((tileOf s i).spm.counted old).contains k then s
  else
    let s := modTile s i fun t => { t with spm := t.spm.count old k }
    if ((tileOf s i).spm.prior old).contains k then s else siteFails s i false 0 0x0101

/-- What one access to a row finds: words it corrects, uncorrectable words it delivers poisoned, poisoned lanes that count,
all poisoned lanes, and the word it rebuilds. -/
structure RowErrs where
  fixed : List Nat
  dead : List Nat
  counted : List Nat
  psn : List Nat
  rebuilt : List Nat := []
  deriving DecidableEq, Repr

def rowErrs (s : State) (i row : Nat) : RowErrs :=
  { fixed := fixedWords s i row, dead := deadWords s i row, counted := countedPoison s i row, psn := poisonWords s i row
    rebuilt := if rebuilds s i row then badWords s i row .uncorr else [] }

/-- The class B records of a read: the first uncorrectable word of the beat, and each that the scrubber finds (R158, R162). -/
def deadRecords (s : State) (i row : Nat) (by_ : ReadBy) (first : Bool) (dead : List Nat) : State :=
  (if by_ = .scrub then dead else if first then dead.take 1 else []).foldl (fun s w => evTile s i 1 0x0102 (row + w * 2 ^ 13)) s

/-- Counters, flags, hints and records of one read that finds `e` (R157, R158, R161): each correction by a wide read or an
LD adds a hint; `old` where the row is read as it stood before a write. -/
def noteErrs (s : State) (i row : Nat) (by_ : ReadBy) (e : RowErrs) (old : Bool := false) : State :=
  let nc := e.fixed.length
  let t := tileOf s i
  let hints := if by_ = .unit ∨ by_ = .mirror then (t.spm.hints ++ List.replicate nc row).take 4 else t.spm.hints
  let newC := nc ≠ 0 && !t.spm.corrRec
  let newU := !e.dead.isEmpty && !t.spm.uncorrRec
  let s := setTile s i { t with
    corr := sat 32 (t.corr + nc)
    poisonCnt := if by_ = .scrub then t.poisonCnt else sat 32 (t.poisonCnt + e.counted.length)
    err := t.err ||| (if nc ≠ 0 then 1 else 0) ||| (if e.dead.isEmpty then 0 else 2)
    spm := { t.spm with hints := hints, corrRec := t.spm.corrRec || newC, uncorrRec := t.spm.uncorrRec || newU } }
  let s := { s with box := { s.box with reh := { s.box.reh with
    poisonNext := s.box.reh.poisonNext.filter fun l => decide (l < rowLane i row) || decide (rowLane i row + 64 ≤ l) } } }
  let s := if newC then evTile s i 0 0x0101 row else s
  let s := deadRecords s i row by_ newU e.dead
  let again := if by_ = .unit && t.st = .replay then e.psn.filter fun w => (t.spm.prior old).contains (row * 64 + w) else []
  let s := e.rebuilt.foldl (fun s w => countRebuilt s i row old w) s
  (e.dead ++ again).foldl (fun s w => countDead s i row by_ old w) s

/-- One read of the row as the memory holds it. -/
def noteRead (s : State) (i row : Nat) (by_ : ReadBy) : State := noteErrs s i row by_ (rowErrs s i row)

/-- What a row held before the first write to it that a read in `cc` does not see (R151, R153). -/
def oldRow (t : Tile) (row cc : Nat) : Option OldRow := t.oldRows.find? fun o => o.row = row && decide (cc ≤ o.w)

def OldRow.errs (o : OldRow) : RowErrs :=
  { fixed := o.fixed, dead := o.dead, counted := o.counted, psn := o.psn, rebuilt := o.rebuilt }

/-- The cc that an access of the verb being started takes: the one its fields give, or for a dynamic verb the one that R107
leaves it. -/
def accessCc (t : Tile) (cc : Nat) : Nat := match t.eng.shift.find? fun p => p.1 = cc with
  | some p => p.2
  | none => cc

/-- A read in `cc`: the row as it stood at the start of that cc (R151), with what that read counts and reports. -/
def readRowIn (s : State) (i row cc : Nat) : State × RowRd :=
  match oldRow (tileOf s i) row cc with
  | some o => (noteErrs s i row .unit o.errs true, { bytes := o.bytes, psn := o.psn })
  | none => (noteRead s i row .unit, readRow s i row)

/-- A verb's read whose fields put it in `cc`. -/
def readRowAt (s : State) (i row cc : Nat) : State × RowRd := readRowIn s i row (accessCc (tileOf s i) cc)

/-- Read rows of the scratchpad in order, from cc on, one every `step` cc. -/
def readRows (s : State) (i row cc step : Nat) : Nat → State × List RowRd
  | 0 => (s, [])
  | n + 1 =>
    let q := readRowAt s i row cc
    let p := readRows q.1 i (row + 1) (cc + step) step n
    (p.1, q.2 :: p.2)

/-- Read rows of the scratchpad in order, row `k` with the ones after it, two in each cc on both ports. -/
def readPairs (s : State) (i row cc step k : Nat) : Nat → State × List RowRd
  | 0 => (s, [])
  | n + 1 =>
    let q := readRowAt s i row (cc + k / 2 * step)
    let p := readPairs q.1 i (row + 1) cc step (k + 1) n
    (p.1, q.2 :: p.2)

/-- Read `n` rows in the cc of a claim, counted from cc on (R150; log entry 30). -/
def readPort (s : State) (i row cc : Nat) (u : PortUse) (n : Nat) : State × List RowRd :=
  if u.reads = 2 then readPairs s i row (cc + u.cc) u.step 0 n else readRows s i row (cc + u.cc) u.step n

/-! ### Carry region (R62, R160) -/

/-- First row of the carry copy of the given parity. -/
def copyRow (t : Tile) (k : Nat) : Nat := t.carryBase.toNat + k * t.carryRows.toNat

def inCopy (t : Tile) (k row : Nat) : Bool :=
  decide (copyRow t k ≤ row) && decide (row < copyRow t k + t.carryRows.toNat)

/-- A write to the copy that the running beat only reads (R62). -/
def carryBroken (t : Tile) (first n : Nat) : Bool :=
  let k := 1 - t.sentBeat.toNat % 2
  n ≠ 0 && t.carryRows ≠ 0 && decide (first < copyRow t k + t.carryRows.toNat) && decide (copyRow t k < first + n)

/-- Poison written into the copy of the running beat is flagged as it is written and fails the beat (R160, R313). -/
def carryPoison (s : State) (i row : Nat) (psn : List Nat) : State :=
  let t := tileOf s i
  if psn.isEmpty || !inCopy t (t.sentBeat.toNat % 2) row then s else failCheck s i mechPoison

/-! ### Writes -/

/-- A wide write (R153, R155, R159, R161). -/
def writeRow (s : State) (i row : Nat) (bs : List Byte) (psn : List Nat) : State :=
  let s := memWriteP s (spmAddr i (row * rowBytes)) (padTo 0 rowBytes bs) psn
  let s := { s with latent := s.latent.filter fun p => p.1 ≠ xorKey i row }
  let s := modTile s i fun t => { t with spm := { t.spm.rewrite fun k => decide (k / 64 = row) with
    xv := if classW t row then NSet.add t.spm.xv row else t.spm.xv
    unsummed := NSet.del t.spm.unsummed row
    writeback := if t.spm.writeback = some row then none else t.spm.writeback } }
  carryPoison s i row psn

/-- Write successive rows. -/
def writeRows (s : State) (i row : Nat) : List (List Byte × List Nat) → State
  | [] => s
  | r :: rs => writeRows (writeRow s i row r.1 r.2) i (row + 1) rs

/-- A write of one 64-bit word: a narrow ST, or the masked words of RECV and CCOUNT (R125, R155, R166). -/
def writeWord (s : State) (i row w : Nat) (v : Nat) (psn : Bool) : State :=
  let t := tileOf s i
  let lost := classW t row && t.spm.xv.contains row &&
    (latentAt s (rowLane i row + w) = some .uncorr || latentAt s (xorKey i row) = some .uncorr)
  let s := memWriteP s (spmAddr i (row * rowBytes + 8 * w)) (leBytes 8 v) (if psn then [0] else [])
  let s := modTile s i fun t => { t with
    err := if lost then t.err ||| 2 else t.err
    spm := { t.spm.rewrite fun k => decide (k = row * 64 + w) with
      xv := if lost then NSet.del t.spm.xv row else t.spm.xv
      writeback := if t.spm.writeback = some row then none else t.spm.writeback } }
  carryPoison s i row (if psn then [w] else [])

/-- Bytes with poisoned lanes, from a place that starts a 64-bit word on, through the wide write port (R193): whole rows, and of
a row that they fill in part its words (R155); of a word that they end in, the bytes behind them stay. -/
def writeBytes (s : State) (i off : Nat) (bs : List Byte) (psn : List Nat) : State :=
  let row (s : State) (r : Nat) : State :=
    let a := r * rowBytes
    if off ≤ a && a + rowBytes ≤ off + bs.length then
      writeRow s i r ((bs.drop (a - off)).take rowBytes)
        ((List.range 64).filter fun k => psn.contains ((a - off) / 8 + k))
    else (List.range 64).foldl (fun s k =>
      let w := a + 8 * k
      if off ≤ w && w < off + bs.length then
        let new := (bs.drop (w - off)).take 8
        writeWord s i r k (leNat (new ++ (memRead s (spmAddr i w) 8).drop new.length)) (psn.contains ((w - off) / 8))
      else s) s
  ((List.range ((off + bs.length + rowBytes - 1) / rowBytes - off / rowBytes)).map (off / rowBytes + ·)).foldl row s

/-- A kept write comes after one that is presented in cc `w`: in a later cc, or as the narrow ST of the same cc (R151). -/
def OldRow.after (o : OldRow) (w : Nat) (st : Bool) : Bool := decide (w < o.w) || (o.w = w && o.st && !st)

/-- Keep what a row held, in the order of the writes. -/
def putOld (l : List OldRow) (o : OldRow) : List OldRow :=
  (l.filter fun x => !x.after o.w o.st) ++ o :: l.filter fun x => x.after o.w o.st

/-- The writes to a row that come after cc `w` and that the memory holds already, earliest first. -/
def laterWrites (t : Tile) (row w : Nat) (st : Bool) : List OldRow := t.oldRows.filter fun o => o.row = row && o.after w st

/-- What a row held, before the write of some words that a step makes to it in cc `w`. -/
def keepOld (s : State) (i row w : Nat) (st : Bool) (words : List Nat) : State :=
  let r := readRow s i row
  let e := rowErrs s i row
  let o : OldRow :=
    { row := row, w := w, bytes := r.bytes, psn := r.psn, st := st, words := words, fixed := e.fixed, dead := e.dead
      counted := e.counted, rebuilt := e.rebuilt }
  modTile s i fun t => { t with oldRows := putOld t.oldRows o }

/-- Some words of a row from new contents, the others as they are. -/
def mergeWords (words : List Nat) (old new : List Byte) : List Byte :=
  (List.range 64).flatMap fun k => ((if words.contains k then new else old).drop (8 * k)).take 8

/-- A row as a later write found it, with the words of an earlier write in it. -/
def OldRow.patch (o : OldRow) (words : List Nat) (bs : List Byte) (psn : List Nat) : OldRow :=
  let out (l : List Nat) : List Nat := l.filter fun k => !words.contains k
  { o with bytes := mergeWords words o.bytes bs, psn := out o.psn ++ psn.filter words.contains
           fixed := out o.fixed, dead := out o.dead, counted := out o.counted, rebuilt := out o.rebuilt }

/-- Each of the later writes found the earlier write's words, but for those that a write between them had replaced. -/
def patchAll (bs : List Byte) (psn : List Nat) : List OldRow → List Nat → List OldRow
  | [], _ => []
  | o :: os, ws => o.patch ws bs psn :: patchAll bs psn os (ws.filter fun k => !o.words.contains k)

/-- The words of a write in cc `w` that no later write has replaced. -/
def lasting (later : List OldRow) (words : List Nat) : List Nat := words.filter fun k => !later.any (·.words.contains k)

/-- Keep what a row held before a write in cc `w` that the writes `later` come after: the first of them had found the row so. -/
def keepBefore (s : State) (i row w : Nat) (st : Bool) (words : List Nat) (bs : List Byte) (psn : List Nat)
    (later : List OldRow) : State :=
  modTile s i fun t =>
    let rest := t.oldRows.filter fun o => !(o.row = row && o.after w st)
    let before := later.take 1 |>.map fun o => { o with w := w, st := st, words := words }
    { t with oldRows := (before ++ patchAll bs psn later words).foldl putOld rest }

/-- A wide write presented in cc `w`: reads see it from `w` + 1 on, and later writes stay on top of it (R151, R153, R155). -/
def writeRowAt (s : State) (i row w : Nat) (bs : List Byte) (psn : List Nat) : State :=
  let all := List.range 64
  let bs := padTo 0 rowBytes bs
  let later := laterWrites (tileOf s i) row w false
  if later.isEmpty then writeRow (keepOld s i row w false all) i row bs psn
  else
    let a := spmAddr i (row * rowBytes)
    let ws := lasting later all
    writeRow (keepBefore s i row w false all bs psn later) i row (mergeWords ws (memRead s a rowBytes) bs)
      (psn.filter ws.contains ++ (poisonIn s a rowBytes).filter fun k => !ws.contains k)

/-- A write of one word in cc `w`, by a narrow ST or through the masked wide port. -/
def writeWordAt (s : State) (i row k w : Nat) (st : Bool) (v : Nat) (psn : Bool) : State :=
  let later := laterWrites (tileOf s i) row w st
  if later.isEmpty then writeWord (keepOld s i row w st [k]) i row k v psn
  else
    let bad := if psn then [k] else []
    let s := keepBefore s i row w st [k] (List.replicate (8 * k) 0 ++ leBytes 8 v) bad later
    if (lasting later [k]).isEmpty then carryPoison s i row bad else writeWord s i row k v psn

/-- Write zero to every row of a site: no poison, XV clear, class A (R168). -/
def clearSpm (s : State) (i : Nat) : State :=
  let s := memClear s (spmAddr i 0) (spmAddr i spmSize)
  let keep (p : Nat × Latent) : Bool := decide (p.1 < xorKey i 0) || decide (xorKey (i + 1) 0 ≤ p.1)
  let s := { s with latent := s.latent.filter keep }
  modTile s i fun t => { t with spm := {}, oldRows := [] }

/-! ### Near rows (R123, R124, R203, R210, R211) -/

/-- View position of a near row of a tile's virtual field. -/
def nearGran (t : Tile) (ch row : Nat) : VGranule :=
  { vring := t.vring.toNat, vfield := t.vfield.toNat, ch := ch, gran := row / 4096 }

/-- Module Address of a near row, by the physical field and the tenancy's view (R186, R365). -/
def nearRowAddr (s : State) (i ch row : Nat) : Option Nat :=
  match ringTen s (siteRing i) with
  | some n => (nearView (tenOf s n) (row / 4096)).map fun g =>
      nearAddr (siteField i) ch (g * granBytes + row % 4096 * 512)
  | none => some (nearAddr (siteField i) ch (row * 512))

/-- The granule map allows a transfer (R124, R205). -/
def nearAllowed (s : State) (i ch row : Nat) (write : Bool) : Bool :=
  match ringTen s (siteRing i) with
  | none => decide (row / 4096 < 1023)
  | some n =>
    let x := tenOf s n
    let v := nearGran (tileOf s i) ch row
    match granUse x v with
    | .free => true
    | .resident => !write
    | .spill =>
      let tag := SMap.get 0 (fieldOf s (siteField i)).writer (ch * 1024 + ((nearView x v.gran).getD v.gran))
      write || tag = 0 || (match x.run with | some u => tag = u.clause + 1 | none => false)
    | .held => !write
    | .service => false
    | .absent => false

/-- A scheduled transfer in a refresh or carry-mirror slot (R124, R206, R217). -/
def nearSlotHit (s : State) (ch cc n : Nat) : Bool :=
  (List.range (4 * n)).any fun j =>
    let o := (cc + j) % beatLen s
    o % 16 = 8 || (o % 1024 / 32 = ch && o / 1024 % 2 = j % 2)

/-- DRAM row of a near channel offset, with its bank and half (R203). -/
def dramRow (off : Nat) : Nat := fldN off 17 14
def dramBankHalf (off : Nat) : Nat := fldN off 7 1 * 32 + fldN off 8 5

/-- A DRAM row of a channel: (half × 32 + bank) × 16,384 + row (R203). -/
def dramKey (off : Nat) : Nat := (fldN off 7 1 * 32 + fldN off 8 5) * 16384 + fldN off 17 14

/-- A corrected near codeword: its count, and at most one record a beat of its field (R211). -/
def nearCorrected (s : State) (f ch off : Nat) : State :=
  let s := modNearCh s f ch fun c =>
    let ts := (SMap.get [] c.rowCorr (dramKey off)).filter (fun t => decide (s.time.uptime ≤ t + 1000000000)) ++ [s.time.uptime]
    { c with corr := sat 16 (c.corr + 1), rowCorr := SMap.put [] c.rowCorr (dramKey off) ts
             rowDue := if 16 < ts.length then NSet.add c.rowDue (dramKey off) else c.rowDue }
  if (fieldOf s f).nearCorrRec then s else
    evField (modField s f fun x => { x with nearCorrRec := true }) f 0 0x0104 (ch + dramRow off * 32)

/-- A near codeword that cannot be corrected: its count and its record. -/
def nearUncorrected (s : State) (f ch off : Nat) : State :=
  evField (modNearCh s f ch fun c => { c with
    uncorr := sat 8 (c.uncorr + 1), rowDue := NSet.add c.rowDue (dramKey off)
    rowHard := NSet.add c.rowHard (dramKey off) }) f 1 0x0105 (ch + dramRow off * 32)

/-- What the read of the near or far codeword at an address counts and reports, where no tile's own port reads it (R211,
R226). A rehearsed poisoned word has been read then (R323). -/
def noteTier (s : State) (a : Nat) : State :=
  let s := { s with box := { s.box with reh := { s.box.reh with
    poisonNext := s.box.reh.poisonNext.filter fun l => l / 8 ≠ a / 64 } } }
  match latentAt s (a / 64 * 8) with
  | none => s
  | some k =>
    if a / 2 ^ 60 = 1 then
      let st := fldN a 58 2 * 32 + fldN a 53 5
      match k with
      | .corr => modStack s st fun y => { y with corr := sat 32 (y.corr + 1) }
      | .uncorr => evRing (modStack s st fun y => { y with uncorr := sat 32 (y.uncorr + 1) }) (stackRing st) 1 0x0106
          (st % 32 + fldN a 8 5 * 2 ^ 5)
    else
      let f := fldN a 58 2 * 96 + fldN a 51 7
      match k with
      | .corr => nearCorrected s f (fldN a 46 5) (a % 2 ^ 31)
      | .uncorr => nearUncorrected s f (fldN a 46 5) (a % 2 ^ 31)

/-- The codewords of a range whose bytes lie where `addr` says, each once. -/
def noteRange (s : State) (addr : Nat → Option Nat) (len : Nat) : State :=
  let s := (List.range (ceilDiv len 8)).foldl (fun s k => match addr (8 * k) with
    | some a => if k = 0 ∨ a % 64 < 8 then noteTier s a else s
    | none => s) s
  match addr ((len - 1) / 8 * 8), addr (len - 1) with
  | some a, some b => if a / 64 = b / 64 then s else noteTier s b
  | _, _ => s

/-- The latent errors of a range of near or far memory that is read at its Module Addresses. -/
def noteSpan (s : State) (a len : Nat) : State :=
  let mine (l : Nat) : Bool := decide (a / 64 * 8 ≤ l) && decide (8 * l < a + len)
  ((((s.latent.map (·.1) ++ s.box.reh.poisonNext).filter mine).map (· / 8)).foldl NSet.add []).foldl
    (fun s w => noteTier s (64 * w)) s

/-- A restore or a move of near or far memory: what its reads count, and the bytes with their poison. -/
def copyTier (s : State) (src dst len : Nat) : State := noteSpan (copyMem (noteWrite s dst len) src dst len) src len

/-- What one near codeword read does: counts, records, and for a word read again in the replay the restore of
its granule (R211). -/
def noteCodeword (s : State) (i ch a off : Nat) (v : VGranule) : State :=
  let f := siteField i
  match latentAt s (a / 8) with
  | some .corr => nearCorrected s f ch off
  | some .uncorr =>
    let s := nearUncorrected s f ch off
    match ringTen s (siteRing i) with
    | some n =>
      match (tenOf s n).run with
      | some u =>
        if (tileOf s i).st = .replay && u.badWords.contains (a / 8) then
          match restoreSrc (tenOf s n) v (off % granBytes) with
          | some b => failTile (copyTier s (b / granBytes * granBytes) (a / granBytes * granBytes) granBytes) i mechPoison
          | none => evTile (failTile s i mechNoRestore) i 4 0x0608 (ch + v.gran * 32)
        else modRun s n fun u => { u with badWords := NSet.add u.badWords (a / 8) }
      | none => s
    | none => s
  | none => s

/-- Lanes of a near row that are delivered poisoned. -/
def nearPoison (s : State) (a : Nat) : List Nat :=
  (List.range 64).filter fun w =>
    latentAt s (a / 8 + w / 8 * 8) = some .uncorr || codewordPoisoned s (a + 8 * w) ||
    s.box.reh.poisonNext.contains (a / 8 + w / 8 * 8)

/-- Read near rows of the tile's channel. -/
def readNear (s : State) (i ch row : Nat) : Nat → State × List RowRd
  | 0 => (s, [])
  | n + 1 =>
    match nearRowAddr s i ch row with
    | none => (s, [])
    | some a =>
      let psn := nearPoison s a
      let r : RowRd := { bytes := memRead s a rowBytes, psn := psn }
      let s' := (List.range 8).foldl (fun s c =>
        noteCodeword s i ch (a + 64 * c) (a % 2 ^ 31 + 64 * c) (nearGran (tileOf s i) ch row)) s
      let s' := { s' with box := { s'.box with reh := { s'.box.reh with
        poisonNext := s'.box.reh.poisonNext.filter fun l => decide (l < a / 8) || decide (a / 8 + 64 ≤ l) } } }
      let s' := modTile s' i fun t => { t with poisonCnt := sat 32 (t.poisonCnt + psn.length) }
      let p := readNear s' i ch (row + 1) n
      (p.1, r :: p.2)

/-- Keep what a row of near or far memory held before beat `b` wrote it; a replay of the beat before changes what was kept
for later ones: `new` is what the row holds then. Rows of committed beats need no keeping (R38, R231, R238). -/
def keepRow (s : State) (n b a : Nat) (new : OldRow → OldRow) : State :=
  modRun s n fun u =>
    let old := u.nearOld.filter fun o => match u.lastCommitted with | some c => decide (c < o.w) | none => true
    let kept := old.map fun o => if o.row = a && decide (b < o.w) then new o else o
    let now : OldRow := { row := a, w := b, bytes := memRead s a rowBytes, psn := poisonIn s a rowBytes }
    { u with nearOld := if old.any (fun o => o.row = a && o.w = b) then kept else kept ++ [now] }

/-- The near MOV of a tile writes a whole row. -/
def keepNear (s : State) (i a : Nat) (r : RowRd) : State :=
  match ringRun s (siteRing i) with
  | some (n, u) => keepRow s n u.sentBeat a fun o => { o with bytes := r.bytes, psn := r.psn }
  | none => s

/-- Bytes laid over a row from an offset on; bytes before the row's start are skipped. -/
def layOver (row : List Byte) (start : Int) (bs : List Byte) : List Byte :=
  row.zipIdx.map fun p => match ((p.2 : Int) - start).toNat with
    | k => if start ≤ (p.2 : Int) then bs.getD k p.1 else p.1

/-- A write of beat `b` into a SPILL window keeps what its rows held before (R38). -/
def keepWrite (s : State) (n : Nat) (w : Window) (ta : Nat) (bs : List Byte) (b : Nat) : State :=
  (List.range (ceilDiv (ta % rowBytes + bs.length) rowBytes)).foldl (fun s k =>
    let t := ta / rowBytes * rowBytes + k * rowBytes
    match winAddr (tenOf s n) w t with
    | some a => keepRow s n b a fun o => { o with bytes := layOver o.bytes ((ta : Int) - t) bs }
    | none => s) s

/-- Write near rows; a SPILL granule takes the running entry as its writer tag (R205). -/
def writeNear (s : State) (i ch row : Nat) : List RowRd → State
  | [] => s
  | r :: rs =>
    match nearRowAddr s i ch row with
    | none => s
    | some a =>
      let s := memWriteP (noteWrite (keepNear s i a r) a rowBytes) a (padTo 0 rowBytes r.bytes) r.psn
      let v := nearGran (tileOf s i) ch row
      let s := match ringRun s (siteRing i) with
        | some (n, u) =>
          if granUse (tenOf s n) v = .spill then
            modField s (siteField i) fun f =>
              { f with writer := SMap.put 0 f.writer (ch * 1024 + fldN a 21 10) (u.clause + 1) }
          else s
        | none => s
      writeNear s i ch (row + 1) rs

/-! ### Inbound buffers (R50 to R55, R113) -/

/-- Rows of the live bank whose words have all arrived. -/
def inAvail (b : InBuf) : Nat := if b.rowOpen then b.live.rows.length - 1 else b.live.rows.length

/-- The unread rows that a reader would take next. -/
def inUnread (b : InBuf) : List InRow := ((b.live.rows.take (inAvail b)).drop b.rd).filter fun r => !r.discard

/-- Index of the next unread row among the first `n`, discarded rows skipped. -/
def inNextOf (b : InBuf) (n : Nat) : Option Nat :=
  (List.range n).find? fun k => decide (b.rd ≤ k) &&
    (match b.live.rows[k]? with | some r => !r.discard | none => false)

/-- Index of the next unread row whose words have all arrived. -/
def inNext (b : InBuf) : Option Nat := inNextOf b (inAvail b)

/-- Row `k` has been read. -/
def passRow (b : InBuf) (k : Nat) (r : InRow) : InBuf :=
  { b with rd := k + 1, tok := 0, rdPkt := if r.endsPkt then r.pkt + 1 else r.pkt }

/-- What a read of a row does: its parity is checked now (R54), and a provisional row is recorded (R59). -/
def noteRow (s : State) (i b k : Nat) (r : InRow) (x : InBuf) : State × List Nat :=
  let t := tileOf s i
  let bad := r.badPar.filter fun l => decide (8 * l < r.count)
  let psn := (List.range 64).filter fun l => decide (8 * l < r.count) && (r.psn.contains l || bad.contains l)
  let s := setTile s i { setInBuf t b x with
    err := if bad.isEmpty then t.err else t.err ||| 4
    poisonCnt := sat 32 (t.poisonCnt + psn.length)
    provIn := t.provIn || r.prov }
  (if bad.isEmpty then s else evTile s i 1 0x0103 (b + k * 4), psn)

/-- Take the next unread row. -/
def takeRow (s : State) (i b : Nat) : Option (State × RowRd) :=
  let x := inBuf (tileOf s i) b
  match inNext x with
  | none => none
  | some k => match x.live.rows[k]? with
    | none => none
    | some r =>
      let p := noteRow s i b k r (passRow x k r)
      some (p.1, { bytes := r.bytes, psn := p.2, count := r.count, eop := r.endsPkt })

def takeRows (s : State) (i b : Nat) : Nat → Option (State × List RowRd)
  | 0 => some (s, [])
  | n + 1 => match takeRow s i b with
    | none => none
    | some (s, r) => match takeRows s i b n with
      | none => none
      | some (s, rs) => some (s, r :: rs)

/-- A wait of a unit of a tile for rows or room in a buffer; the target it names is found when the record is written (R338,
`waitTarget` in Machine/Beat.lean). -/
def waitRows (t : Tile) (b unit kind : Nat) : WaitRec :=
  { vtile := t.vtile.toNat, vfield := t.vfield.toNat, vring := t.vring.toNat, unit := unit, kind := kind, ch := b }

/-- The wait records of a tile's core and dynamic queue, and of the scheduled verbs that wait. -/
def waitRecs (t : Tile) : List WaitRec := t.waits ++ t.eng.waiting.map (·.record)

/-- Record a wait of one unit of a tile, in place of an earlier one of the same unit; a wait that goes on keeps
the time at which it began. -/
def setWait (s : State) (i : Nat) (w : WaitRec) : State :=
  let since (t : Tile) : Nat :=
    match t.waits.find? (fun x => x.unit = w.unit && x.kind = w.kind && x.ch = w.ch) with
    | some x => x.since
    | none => s.time.uptime
  modTile s i fun t => { t with waits := t.waits.filter (fun x => x.unit ≠ w.unit) ++ [{ w with since := since t }] }

def clearWait (s : State) (i unit : Nat) : State :=
  modTile s i fun t => { t with waits := t.waits.filter (fun x => x.unit ≠ unit) }

/-- The current packet of an inbound buffer (R55): that of the row which a read would take next, whether or not its
words have arrived. In a replay the packet that the same DROP discarded before is found again by its number. -/
def curPkt (b : InBuf) : Nat :=
  if b.live.dropped.contains b.rdPkt then b.rdPkt
  else match (inNextOf b b.live.rows.length).bind fun k => b.live.rows[k]? with
    | some r => r.pkt
    | none => b.rdPkt

/-- First packet from `p` on whose producer is replayed with the bank (R56). -/
def nextPkt (b : Bank) (p : Nat) : Nat :=
  ((List.range (b.ext.length + 1)).find? fun k => !b.ext.contains (p + k)).getD 0 + p

/-- 64 B words of the rows that are not discarded. -/
def liveWords (rs : List InRow) : Nat := (rs.filter fun r => !r.discard).foldl (fun n r => n + ceilDiv r.count 64) 0

/-- Discard the rest of the current packet of an inbound buffer (R55); words of it that have not arrived are discarded
when they do. -/
def dropPacket (b : InBuf) : InBuf :=
  let p := curPkt b
  let mine (r : InRow) (n : Nat) : Bool := decide (b.rd ≤ n) && r.pkt = p
  let gone := (b.live.rows.zipIdx.filter fun (r, n) => mine r n).map (·.1)
  { b with
    live := { b.live with
      rows := b.live.rows.zipIdx.map fun (r, n) => if mine r n then { r with discard := true } else r
      dropped := NSet.add b.live.dropped p }
    rdPkt := p + 1, tok := 0
    rowOpen := b.rowOpen && (match b.live.rows.getLast? with | some r => r.pkt ≠ p | none => false)
    drops := sat 16 (b.drops + liveWords gone) }

end Sys2Proof.Machine
end

