-- ==== Sys2Proof/Machine/Net.lean ====
section
/-! DEFINITION. Packets of the Midway: routes, injection, replies and the copies a source holds of its requests
(spec/09_midway.md R240 to R248, R259, R268). -/

namespace Sys2Proof.Machine
open Sys2Proof

/-! ### Routes (R243, R244, R248) -/

/-- A router's link on one side: present and not FAILED on either end. -/
def linkOk (s : State) (f : Nat) (sd : Side) : Bool :=
  match neighbour f sd with
  | none => false
  | some g => !(fieldOf s f).mwFail.contains (Side.no sd) && !(fieldOf s g).mwFail.contains (Side.no (Side.back sd))

def walkOk (s : State) : Nat → List Side → Bool
  | _, [] => true
  | f, sd :: r => linkOk s f sd && (match neighbour f sd with | some g => walkOk s g r | none => false)

def noTurnBack : List Side → Bool
  | a :: b :: r => b ≠ Side.back a && noTurnBack (b :: r)
  | _ => true

def legX (a b : Nat) : List Side := if a ≤ b then List.replicate (b - a) .east else List.replicate (a - b) .west
def legY (a b : Nat) : List Side := if a ≤ b then List.replicate (b - a) .south else List.replicate (a - b) .north

/-- The path X first then Y, and the paths of the route tables that replace it where it meets a FAILED link:
Y first, or through one other column or row (log entry 11). -/
def paths (f g : Nat) : List (List Side) :=
  let x := fieldX f
  let y := fieldY f
  let x' := fieldX g
  let y' := fieldY g
  (legX x x' ++ legY y y') :: (legY y y' ++ legX x x') ::
    ((List.range 24).map fun c => legX x c ++ legY y y' ++ legX c x') ++
    ((List.range 16).map fun r => legY y r ++ legX x x' ++ legY r y')

/-- One turn code for each direction, relative to a heading (R244). -/
def turnSide (h : Side) (code : Nat) : Side :=
  match code with
  | 0 => h
  | 1 => Side.of ((Side.no h + 3) % 4)
  | 2 => Side.of ((Side.no h + 1) % 4)
  | _ => Side.back h

/-- Turn from one direction of travel to the next. -/
def turnOf (a b : Side) : BitVec 3 :=
  match (Side.no b + 4 - Side.no a) % 4 with
  | 0 => 0 | 1 => 2 | 2 => 3 | _ => 1

def turns : List Side → List (BitVec 3)
  | a :: b :: r => turnOf a b :: turns (b :: r)
  | _ => [4]

/-- Routers reached in one more hop, each with a shortest path to it, sides last first. -/
def spread (s : State) (at_ : List (Nat × List Side)) (seen : List Nat) : List (Nat × List Side) × List Nat :=
  at_.foldl (fun acc p => [Side.north, .east, .south, .west].foldl (fun acc sd =>
    match (if linkOk s p.1 sd then neighbour p.1 sd else none) with
    | some h => if acc.2.contains h then acc else ((h, sd :: p.2) :: acc.1, h :: acc.2)
    | none => acc) acc) ([], seen)

/-- A shortest path over working links, of at most so many hops. -/
def detour (s : State) (g : Nat) : Nat → List (Nat × List Side) → List Nat → Option (List Side)
  | 0, _, _ => none
  | k + 1, at_, seen => match at_.find? fun p => p.1 = g with
    | some p => some p.2.reverse
    | none => detour s g k (spread s at_ seen).1 (spread s at_ seen).2

/-- Heading and route from one router to another within a limit of codes: where no path of `paths` serves, the route
tables hold a shortest one (log entry 11). -/
def routeOf (s : State) (f g limit : Nat) : Option (Side × List (BitVec 3)) :=
  if f = g then some (.north, [4])
  else
    let p := ((paths f g).find? fun p => noTurnBack p && decide (p.length + 1 ≤ limit) && walkOk s f p).or
      (detour s g limit [(f, [])] [f])
    match p with
    | some (a :: r) => some (a, 0 :: turns (a :: r))
    | _ => none

/-! ### Injection -/

/-- Only ABORT, RELEASE and HEARTBEAT of a ring controller (EP 73) are urgent (R245, R270). -/
def urgentMsg (c : CtlMsg) : Bool :=
  (c.ctype = .abort || c.ctype = .release || c.ctype = .heartbeat) && epNo c.src = 73

/-- A packet enters at its source's router; a route beyond the limit is never sent (R248). -/
def inject (s : State) (f g : Nat) (b : Body) : State :=
  let urg : Bool := match b with | .ctl c => urgentMsg c | .data _ => false
  match routeOf s f g (match b with | .ctl _ => 39 | .data _ => 41) with
  | none => s
  | some (h, r) =>
    let p : Packet := { route := r, head := h, urg := urg, det := false, dcnt := 0, age := 0, body := b }
    { s with net := s.net ++ [{ field := f, inp := .loc, p := p, since := s.time.uptime }] }

def sendCtl (s : State) (c : CtlMsg) : State := inject s (epField c.src) (epField c.dst) (.ctl c)

def sendData (s : State) (d : DataMsg) : State := inject s (epField d.src) (epField d.dst) (.data d)

/-! ### Multicasts (R244, R264, R265) -/

/-- The shortest route that serves: the router whose multicast target is nearest comes first. -/
def nearestTarget (f : Nat) (ts : List (Nat × BitVec 16)) : Option (Nat × BitVec 16) :=
  ts.foldl (fun best t => match best with
    | none => some t
    | some b =>
      let d (x : Nat × BitVec 16) : Nat :=
        let g := epField x.2
        (fieldX f - fieldX g) + (fieldX g - fieldX f) + (fieldY f - fieldY g) + (fieldY g - fieldY f)
      if d t < d b then some t else some b) none

/-- Routers of the targets of a multicast that are still to receive it, in the order in which the route passes them. -/
def mcOrder : Nat → Nat → List (Nat × BitVec 16) → List Nat
  | 0, _, _ => []
  | k + 1, f, ts => match nearestTarget f ts with
    | none => []
    | some t => epField t.2 :: mcOrder k (epField t.2) (ts.filter fun u => epField u.2 ≠ epField t.2)

/-- Paths between two routers that a multicast may take next, within a number of hops: EJECT_CONT keeps the heading, so
a path leaves a target before the last one straight ahead, if need be for one hop only (R244). -/
def mcLegs (s : State) (f : Nat) (h : Option Side) (hops g : Nat) : List (List Side) :=
  let ok (p : List Side) : Bool :=
    noTurnBack p && walkOk s f p && decide (p.length ≤ hops) && (match h with | some a => p.head? = some a | none => true)
  let direct := ((paths f g).take 2).eraseDups.filter ok
  let onward := match h.bind fun a => (neighbour f a).map (a, ·) with
    | some (a, e) => (((paths e g).take 2).eraseDups.map (a :: ·)).filter ok
    | none => []
  if !direct.isEmpty then direct
  else if !onward.isEmpty then onward
  else (detour s g 41 [(f, [])] [f]).toList.filter ok

/-- Sides of a path through all of some routers, in an order that serves, the one given first, with the number of hops to
each; none where no order has such a path. -/
def mcPath (s : State) : Nat → Nat → Option Side → Nat → List Nat → Option (List Side × List Nat)
  | 0, _, _, _, _ => none
  | k + 1, f, h, hops, gs =>
    if gs.isEmpty then some ([], [])
    else gs.findSome? fun g => (mcLegs s f h hops g).findSome? fun p =>
      (mcPath s k g (p.getLast?.or h) (hops - p.length) (gs.filter fun x => decide (x ≠ g))).map fun q =>
        (p ++ q.1, p.length :: q.2.map (· + p.length))

/-- Turn codes of such a path: EJECT_CONT stands in front of the turn that leaves a target on the way (R244, R264). -/
def mcCodes : List Side → Nat → List Nat → List (BitVec 3)
  | a :: b :: r, k, stops => (if stops.contains k then [5] else [turnOf a b]) ++ mcCodes (b :: r) (k + 1) stops
  | _, _, _ => [4]

/-- The ways to share some routers between two branches. -/
def mcSplits (gs : List Nat) : List (List Nat × List Nat) :=
  (List.range (2 ^ gs.length)).map fun m =>
    let side (b : Bool) : List Nat := (gs.zipIdx.filter fun p => Nat.testBit m p.2 = b).map (·.1)
    (side true, side false)

/-- A route of at most 41 codes through all of some routers that forks where it starts: one branch leaves to the left or the
right of the heading, the other straight (R244, R248, R264). -/
def mcFork (s : State) (f : Nat) (gs : List Nat) : Option (Side × List (BitVec 3)) :=
  (((mcSplits gs).filter fun p => !p.1.isEmpty && !p.2.isEmpty).flatMap fun p =>
    [Side.north, .east, .south, .west].flatMap fun h => [(h, 1, p), (h, 2, p)]).findSome? fun (h, c, p) =>
      match mcPath s 9 f (some (turnSide h c)) 40 p.1, mcPath s 9 f (some h) 40 p.2 with
      | some a, some b =>
        let r := BitVec.ofNat 3 (c + 5) :: (mcCodes a.1 1 a.2.dropLast ++ mcCodes b.1 1 b.2.dropLast)
        if r.length ≤ 41 then some (h, r) else none
      | _, _ => none

/-- Send a multicast to the targets that its TMASK still names: on one route past all of them, which forks at its start where
no path without a fork serves; where neither does within 41 codes, a packet to the nearest alone, and its resend reaches the
others (R264, R265; log entry 80). -/
def sendMcast (s : State) (d : DataMsg) : State :=
  let ts := ((List.range 8).filter fun i => fld d.tspec (16 + i) 1 = 1).map fun i =>
    (i, BitVec.ofNat 16 (fld d.tspec (24 + 16 * i) 16))
  let f := epField d.src
  let order := mcOrder 8 f ts
  let go (gs : List Nat) : Option (Side × List (BitVec 3)) :=
    match mcPath s 9 f none 40 gs with
    | some (a :: r, stops) => some (a, (if stops.contains 0 then 5 else 0) :: mcCodes (a :: r) 1 stops.dropLast)
    | some ([], _) => some (.north, [4])
    | none => none
  match (go order).or ((mcFork s f order).or (go (order.take 1))) with
  | none => s
  | some (h, r) =>
    let p : Packet := { route := r, head := h, urg := false, det := false, dcnt := 0, age := 0, body := .data d }
    { s with net := s.net ++ [{ field := f, inp := .loc, p := p, since := s.time.uptime }] }

/-- Inject a request: a multicast on its own route. -/
def launch (s : State) (d : DataMsg) : State := if d.dtype = .mcast then sendMcast s d else sendData s d

/-- An endpoint of a ring whose group is dark: its tiles, its pool, its controller and fence; the agents of the ply and of
the housekeeping rail go on (R18, R23). -/
def darkEp (s : State) (a : BitVec 16) : Bool := dark s (fieldRing (epField a)) && decide (epNo a < 74)

/-! ### Requests and replies (R245, R259) -/

/-- Site of a tile endpoint. -/
def epSite (a : BitVec 16) : Option Nat := if epNo a < 72 then some (epField a * 72 + epNo a) else none

/-- Requests that a source holds. -/
def reqsOf (s : State) (src : BitVec 16) : List Req :=
  match epSite src with
  | some i => (tileOf s i).reqs
  | none => SMap.get [] s.agentReqs src.toNat

def setReqs (s : State) (src : BitVec 16) (q : List Req) : State :=
  match epSite src with
  | some i => modTile s i fun t => { t with reqs := q }
  | none => { s with agentReqs := SMap.put [] s.agentReqs src.toNat q }

/-- Send a request and hold a copy of it until it is answered. -/
def sendReq (s : State) (d : DataMsg) : State :=
  let q : Req := { msg := d, sentAt := s.time.uptime, retryNs := s.box.set.retryNs, retryMax := s.box.set.retryMax }
  launch (setReqs s d.src (reqsOf s d.src ++ [q])) d

/-- Requests that the fence of a target ring answers. -/
def fenced (d : DataMsg) : Bool := d.dtype = .wwrite || d.dtype = .wread || d.dtype = .svc

/-- A source may send one request more: 8 copies for a tile and 64 otherwise, and 16 WWRITE, WREAD or SVC requests to one
ring (R259). -/
def mayHold (qs : List Req) (d : DataMsg) : Bool :=
  decide (qs.length < (if epNo d.src < 72 then 8 else 64)) &&
  (!fenced d || decide ((qs.filter fun q => fenced q.msg && fieldRing (epField q.msg.dst) = fieldRing (epField d.dst)).length < 16))

/-- A tile endpoint has room for one DESC more. -/
def reqRoom (s : State) (src : BitVec 16) : Bool := decide ((reqsOf s src).length < (if epNo src < 72 then 8 else 64))

/-- Key of what an agent keeps of the receive channel that a descriptor of its own goes to. -/
def outKey (d : DataMsg) : Nat := 2 ^ 40 + (d.src.toNat * 2 ^ 16 + d.dst.toNat) * 32 + d.rch

/-- A DESC of an agent takes a credit of its receive channel (R193, R262). -/
def agentDesc (d : DataMsg) : Bool := d.dtype = .desc && decide (72 ≤ epNo d.src)

def hasCredit (s : State) (d : DataMsg) : Bool := !agentDesc d || (SMap.get {} s.agentOut (outKey d)).credits ≠ 0

def takeCredit (s : State) (d : DataMsg) : State :=
  if agentDesc d then
    let x := SMap.get {} s.agentOut (outKey d)
    { s with agentOut := SMap.put {} s.agentOut (outKey d) { x with credits := x.credits - 1, sent := x.sent + 1 } }
  else s

/-- A closed channel returns the credit of a descriptor that an agent sent (R194). -/
def creditBack (s : State) (d : DataMsg) : State :=
  if agentDesc d then
    let x := SMap.get {} s.agentOut (outKey d)
    { s with agentOut := SMap.put {} s.agentOut (outKey d) { x with credits := min 16 (x.credits + 1), sent := x.sent - 1 } }
  else s

/-- A request that is held back is one that the next must not pass: a descriptor of the same channel, or one of the same type. -/
def heldBefore (d : DataMsg) (q : Req) : Bool :=
  !q.sent && q.msg.dtype = d.dtype && (d.dtype ≠ .desc || outKey q.msg = outKey d)

/-- Send a request of an agent, or hold it back until its credits and the limits of R259 let it go. -/
def agentReq (s : State) (d : DataMsg) : State :=
  let qs := reqsOf s d.src
  if mayHold (qs.filter (·.sent)) d && hasCredit s d && !qs.any (heldBefore d) then sendReq (takeCredit s d) d
  else setReqs s d.src (qs ++ [{ msg := d, sentAt := s.time.uptime, retryNs := s.box.set.retryNs
                                 retryMax := s.box.set.retryMax, sent := false }])

/-- The first request that an agent holds back and that its credits and the limits let go now is sent. -/
def releaseHeldReq (s : State) (src : BitVec 16) : State :=
  let qs := reqsOf s src
  match qs.find? fun q => !q.sent && mayHold (qs.filter (·.sent)) q.msg && hasCredit s q.msg with
  | none => s
  | some q =>
    launch (takeCredit (setReqs s src (qs.map fun x => if x = q then { q with sent := true, sentAt := s.time.uptime } else x)) q.msg)
      q.msg

/-- ARG of an ACK or a NACK (R245). -/
def replyArg (seq reason ch rgen tgen ngen : Nat) (mc : Option Nat := none) : BitVec 76 :=
  BitVec.ofNat 76 (seq % 2 ^ 16 + reason % 16 * 2 ^ 16 + (if mc.isSome then 2 ^ 20 else 0) + mc.getD 0 % 8 * 2 ^ 21
    + ch % 32 * 2 ^ 24 + rgen * 2 ^ 29 + tgen * 2 ^ 37 + ngen * 2 ^ 45)

/-- Answer a request with an ACK or a NACK of a reason. -/
def answer (s : State) (d : DataMsg) (nack : Bool) (reason : Nat) (mc : Option Nat := none) : State :=
  sendCtl s { ctype := if nack then .nack else .ack, src := d.dst, dst := d.src
              arg := replyArg d.seq.toNat reason d.sch d.rgen.toNat d.tgen.toNat d.ngen.toNat mc }

def nackClosed : Nat := 1
def nackDenied : Nat := 2
def nackRange : Nat := 3
def nackFormat : Nat := 4
def nackLost : Nat := 5
def nackStale : Nat := 6

/-- The generation of the tenancy that a destination acts for: a tile's ring's, and for an agent, which serves many
tenancies, that of the tenancy `n` which its request is of (R268; DEDUCED, log entry 80). A reply that answers no request of an
agent names no tenancy. -/
def tenGenNow (s : State) (dst : BitVec 16) (n : Option Nat) (ngen : Nat) : Bool :=
  match (if epNo dst < 74 then ringTen s (fieldRing (epField dst)) else n) with
  | some t => decide (ngen = (tenOf s t).gen.toNat)
  | none => decide (ngen = 0)

/-- The reply's generations are those of its destination now (R268). -/
def gensNow (s : State) (dst : BitVec 16) (n : Option Nat) (rgen tgen ngen : Nat) : Bool :=
  let r := fieldRing (epField dst)
  rgen = (ringOf s r).gen.toNat && tenGenNow s dst n ngen &&
  (match epSite dst with | some i => tgen = (tileOf s i).gen.toNat | none => true)

def countStale (s : State) (r : Nat) : State := modRing s r fun x => { x with cntStale := sat 16 (x.cntStale + 1) }

/-- Generations and epoch that a tile's packet carries (R246). -/
def tilePkt (s : State) (i : Nat) (dtype : DType) (dst : BitVec 16) (tspec : BitVec 256) : DataMsg :=
  let t := tileOf s i
  let n := ringTen s (siteRing i)
  { dtype := dtype, btag := BitVec.ofNat 2 (t.sentBeat.toNat % 4), src := epAddr (siteField i) (siteNo i), dst := dst
    len := 0, seq := 0, ten := BitVec.ofNat 8 (n.getD 0xFF), rgen := (ringOf s (siteRing i)).gen, tgen := t.gen
    ngen := match n with | some k => (tenOf s k).gen | none => 0
    epoch := t.epoch, tspec := tspec }

/-- Generations that an agent's packet carries for a tenancy: the ring's of its field. -/
def agentPkt (s : State) (src : BitVec 16) (n : Nat) (dtype : DType) (dst : BitVec 16) (tspec : BitVec 256) : DataMsg :=
  { dtype := dtype, btag := 0, src := src, dst := dst, len := 0, seq := 0, ten := BitVec.ofNat 8 n
    rgen := (ringOf s (fieldRing (epField src))).gen, tgen := 0, ngen := (tenOf s n).gen, epoch := 0, tspec := tspec }

/-- Where a request's SEQ stands: next, a duplicate, or later (R261). -/
inductive SeqPos where
  | next | dup | later
  deriving DecidableEq, Repr

/-! ### Addresses of agents (R22, R24, R241) -/

def trunkEp (st : Nat) : BitVec 16 := epAddr (st / 32 * 96 + st % 32 / 4 * 12 + 3 * (st % 4) + 1) 74
def sequencerEp (p : Nat) : BitVec 16 := epAddr (innerCorner p) 76
def ringmasterEp (p : Nat) : BitVec 16 := epAddr (innerCorner p) 75
def controllerEp (r : Nat) : BitVec 16 := epAddr (ringCentre r) 73
def portEp (p : Nat) : BitVec 16 := epAddr (portField p) 77
def hostEp (p : Nat) : BitVec 16 := epAddr 95 (79 + p)
def poolEp (f : Nat) : BitVec 16 := epAddr f 72

/-- Far stack of a trunk's endpoint, and stream port of one. -/
def epStack (a : BitVec 16) : Nat :=
  let f := epField a
  fieldPly f * 32 + fieldRow f * 4 + fieldCol f / 3
def epPort (a : BitVec 16) : Option Nat := (List.range 32).find? fun p => portField p = epField a

end Sys2Proof.Machine
end

