-- ==== Sys2Proof/Machine/Channel.lean ====
section
/-! DEFINITION. Message channels: sending, arrival, receive rings, receiving and credits
(spec/07_scheduled_mesh.md R190 to R197, R199; spec/08_memory_tiers.md R229; spec/09_midway.md R255, R256,
R259, R261, R262). -/

namespace Sys2Proof.Machine
open Sys2Proof

/-! ### Descriptors (R192) -/

def dKind (d : Nat) : Nat := fldN d 0 2
def dPayload (d : Nat) : Bool := fldN d 2 1 = 1
def dLen (d : Nat) : Nat := fldN d 8 24

/-- Reserved bits, KIND and LEN as a sender may write them. -/
def descOk (d : Nat) : Bool :=
  fldN d 3 5 = 0 && fldN d 96 32 = 0 && fldN d 218 38 = 0 && decide (dKind d ≤ 1) &&
  (if dKind d = 0 then fldN d 69 27 = 0 else fldN d 80 16 = 0) &&
  (!dPayload d || (decide (1 ≤ dLen d) && decide (dLen d ≤ 1024)))

/-- Lanes of `len` bytes from byte address `a`, lane j holding bytes 8j to 8j + 7, that touch a bad word. -/
def spanPsn (bad : Nat → Bool) (a len : Nat) : List Nat :=
  (List.range (ceilDiv len 8)).filter fun j => bad ((a + 8 * j) / 8) || bad ((a + min (8 * j + 7) (len - 1)) / 8)

/-- The payload of a descriptor: from the sender's scratchpad, or from a window that its tiles may read (R37, R192,
R193); a byte that the address does not reach is free (log entry 12). -/
def payloadOf (s : State) (i d : Nat) : State × List Byte × List Nat :=
  if !dPayload d then (s, [], [])
  else if dKind d = 0 then
    let o := fldN d 32 22
    let last := min (spmRows - 1) ((o + dLen d - 1) / 512)
    let rows := (List.range (last + 1 - o / 512)).map (o / 512 + ·)
    let psn := spanPsn (fun w => (poisonWords s i (w / 64)).contains (w % 64)) o (dLen d)
    let bs := (List.range (dLen d)).map fun k =>
      if o + k < spmSize then memByte s (spmAddr i (o + k)) else Config.freeByte (o + k)
    (rows.foldl (fun s r => noteRead s i r .unit) s, bs, psn)
  else
    let ta := fldN d 32 48
    match ringTen s (siteRing i) with
    | some n => match (winFind (tenOf s n) ta (dLen d)).filter fun w =>
        tileReads s (tenOf s n) w ta (dLen d) && !rangeDark s (tenOf s n) w ta (dLen d) with
      | some w => (noteRange s (fun k => winAddr (tenOf s n) w (ta + k)) (dLen d),
          winBytes s (tenOf s n) w ta (dLen d), winPoison s (tenOf s n) w ta (dLen d))
      | none => (s, (List.range (dLen d)).map fun k => Config.freeByte (ta + k), [])
    | none => (s, (List.range (dLen d)).map fun k => Config.freeByte (ta + k), [])

/-! ### Sending (R190, R193, R194) -/

/-- Binding of a running sentence that uses a logical port in a direction. -/
def bindingOf (x : Tenancy) (egress : Bool) (lport : Nat) : Option Binding :=
  match x.sentence with
  | some st => st.bindings.find? fun b => b.egress = egress && b.lport = lport
  | none => none

/-- Target endpoint of a send channel, none where it names no agent. -/
def sendTarget (s : State) (n : Nat) (c : SendCh) : Option (BitVec 16) :=
  let vt := c.dstVtile.toNat
  let vr := c.dstVring.toNat
  match c.dstVfield.toNat with
  | 7 =>
    if c.dstCh ≠ 0 then none
    else if vt = 32 then (physRing s n vr).map fun r => sequencerEp (ringPly r)
    else if vt < 32 && vr = 0 then (bindingOf (tenOf s n) true vt).map fun b => portEp b.port
    else none
  | 6 =>
    if 1 < vt || c.dstCh ≠ 0 then none
    else match (tenOf s n).sentence with
      | some st => (st.farHome[vr]?).map fun r => trunkEp (ringStack r vt)
      | none => none
  | vf => (vSite s n vr vf vt).map fun j => epAddr (siteField j) (siteNo j)

inductive SendRes where
  | sent (s : State)
  | closed (s : State)
  | block
  | format

/-- A send to a closed channel: flags, count and one record a channel a beat (R194). -/
def closedSend (s : State) (i ch : Nat) : State :=
  let t := tileOf s i
  let s := setTile s i (setSend { t with
    err := t.err ||| errClosed, closedSends := sat 32 (t.closedSends + 1), closedRec := NSet.add t.closedRec ch } ch
    { sendOf t ch with closed := true })
  if t.closedRec.contains ch then s else evTile s i 1 0x0303 ch

/-- A descriptor with the fields that the sending endpoint fills (R192). -/
def fillDesc (d seq dgen epoch btag : Nat) : BitVec 256 :=
  BitVec.ofNat 256 (fldN d 0 192 + seq % 256 * 2 ^ 192 + dgen * 2 ^ 200 + epoch * 2 ^ 208 + btag * 2 ^ 216)

/-- Send a descriptor on a channel, from a SEND verb or the scalar core. -/
def chanSend (s : State) (i ch d : Nat) : SendRes :=
  let t := tileOf s i
  let c := sendOf t ch
  if !descOk d then .format
  else if c.valid && c.dstVfield = 6 && decide (c.dstVtile.toNat ≤ 1) && c.dstCh = 0 && !(dPayload d && dLen d = 64)
  then .format
  else
    match ringTen s (siteRing i) with
    | none => .closed (closedSend s i ch)
    | some n =>
      match (if c.valid && !c.closed then sendTarget s n c else none) with
      | none => .closed (closedSend s i ch)
      | some dst =>
        if c.credits = 0 || !reqRoom s (epAddr (siteField i) (siteNo i)) then .block
        else
          let (s, bs, psn) := payloadOf s i d
          let dgen := match epSite dst with | some j => (tileOf s j).gen.toNat | none => 0
          let full := fillDesc d c.seq dgen t.epoch.toNat (t.sentBeat.toNat % 4)
          let m := { tilePkt s i .desc dst full with
            len := bs.length, seq := BitVec.ofNat 16 (c.seq % 256), payload := bs, psn := psn, sch := ch
            rch := c.dstCh.toNat, who := if 6 ≤ c.dstVfield.toNat then c.dstVring.toNat else 0 }
          let s := modTile s i fun t => setSend t ch
            { sendOf t ch with credits := c.credits - 1, seq := c.seq + 1, sent := c.sent + 1 }
          .sent (sendReq s m)

/-- The wait of a unit that cannot send: its target is the channel's, or it is the limit of R259 (R338). -/
def waitSend (t : Tile) (ch unit kind : Nat) : WaitRec :=
  let c := sendOf t ch
  let w : WaitRec := { vtile := t.vtile.toNat, vfield := t.vfield.toNat, vring := t.vring.toNat
                       unit := unit, kind := kind, ch := ch }
  if c.credits ≠ 0 then { w with kind := 6 }
  else if c.dstVfield.toNat < 6 then
    { w with tVtile := c.dstVtile.toNat, tVfield := c.dstVfield.toNat, tVring := c.dstVring.toNat }
  else if c.dstVfield = 6 then { w with ext := true, agent := 2, tVtile := c.dstVtile.toNat, tVfield := 6, tVring := c.dstVring.toNat }
  else if c.dstVtile = 32 then { w with ext := true }
  else { w with ext := true, agent := 6 }

/-! ### Receive rings (R196, R197) -/

/-- Units of a receive ring, by RING_SIZE: 64 B each. -/
def ringUnits (c : RecvCh) : Nat := (16 <<< c.size.toNat) * 8

/-- First byte of a receive ring in the scratchpad. -/
def ringBase (c : RecvCh) : Nat := c.seg.toNat * 65536

/-- Place a message of `len` bytes: the unit it goes to with the ring after it, and the first skipped unit;
none where the write handshake stays incomplete. -/
def ringPlace (c : RecvCh) (len : Nat) : Option (Nat × Option Nat × RecvCh) :=
  let size := ringUnits c
  let need := ceilDiv len 64
  let c := if c.used = 0 then { c with wp := 0, rp := 0 } else c
  let (tail, head) :=
    if c.used = size then (0, 0) else if c.rp ≤ c.wp then (size - c.wp, c.rp) else (c.rp - c.wp, 0)
  if need ≤ tail then
    some (c.wp, none, { c with wp := (c.wp + need) % size, used := c.used + need, units := c.units ++ [need] })
  else if need ≤ head then
    let skip := size - c.wp
    some (0, some c.wp, { c with wp := need % size, used := c.used + skip + need, units := c.units ++ [skip + need] })
  else none

/-! ### Arrival (R193 to R195, R199, R261) -/

/-- Closed (R194). -/
def recvClosed (t : Tile) (ch : Nat) : Bool :=
  let c := recvOf t ch
  !c.valid || !(t.st = .running || t.st = .replay) || (c.fin && t.core.ended)

/-- The source of a descriptor is the one its receive entry names (R194). -/
def srcMatches (s : State) (n : Nat) (c : RecvCh) (d : DataMsg) : Bool :=
  let vf := c.srcVfield.toNat
  let vr := c.srcVring.toNat
  let vt := c.srcVtile.toNat
  match epSite d.src with
  | some j =>
    let t := tileOf s j
    t.bound && t.vtile = c.srcVtile && t.vfield = c.srcVfield && t.vring = c.srcVring && d.sch = c.srcCh.toNat &&
    ringTen s (siteRing j) = some n
  | none =>
    c.srcCh = 0 &&
    (match epNo d.src with
     | 74 => vf = 6 && d.who = vr && (match (tenOf s n).sentence with
        | some st => (st.farHome[vr]?).any fun r => ringStack r vt = epStack d.src
        | none => false)
     | 77 => vf = 7 && vr = 0 && d.who = vt && decide (vt < 32) && (match bindingOf (tenOf s n) false vt with
        | some b => epPort d.src = some b.port
        | none => false)
     | 76 => vf = 7 && vt = 32 && d.who = vr && (match physRing s n vr with
        | some r => sequencerEp (ringPly r) = d.src
        | none => false)
     | _ => false)

/-- One discarded entry of an older epoch: count and flag (R199); the tick that ends the beat writes the record
with the beat's count. -/
def epochDiscard (s : State) (i : Nat) : State :=
  modTile s i fun t => { t with
    err := t.err ||| errEpoch, discards := sat 32 (t.discards + 1), epochDisc := t.epochDisc + 1 }

/-- Cells of a packet: header and payload flits, four to a cell. -/
def cellsOf (d : DataMsg) : Nat := ceilDiv (1 + ceilDiv d.payload.length 64) 4

def cellSum (q : List DataMsg) : Nat := q.foldl (fun n d => n + cellsOf d) 0

/-- Tile queue of a site's tile (R254). -/
def tileQueue (t : Tile) : Nat := 64 * t.vfield.toNat + t.vtile.toNat

def queueOf (x : Ring) (q : Nat) : List DataMsg := SMap.get [] x.queues q
def setQueue (s : State) (r q : Nat) (l : List DataMsg) : State :=
  modRing s r fun x => { x with queues := SMap.put [] x.queues q l }

/-- The next SEQ past those already discarded as closed. -/
def skipNacked : Nat → RecvCh → RecvCh
  | 0, c => c
  | n + 1, c => if c.nacked.contains (c.expect % 256) then skipNacked n { c with expect := c.expect + 1 } else c

/-- A descriptor discarded at a closed channel (R194). -/
def discardClosed (s : State) (i : Nat) (d : DataMsg) : State :=
  let s := modTile s i fun t =>
    let c := recvOf t d.rch
    setRecv t d.rch (skipNacked 16 { c with nacked := (d.seq.toNat % 256 :: c.nacked).take 32 })
  answer s d true nackClosed

/-- Queue one descriptor that is next in order, its payload written first; none while the queue of 16 or the
receive ring has no room. A payload that would go into the carry copy which the beat only reads traps the tile (R62), and
its channel is closed. R196 gives a payload no place where the channel's RING bit is 0: the descriptor is queued unchanged
and the payload is dropped (DESIGN CHOICE, log entry 80). -/
def deliver (s : State) (i : Nat) (d : DataMsg) : Option State :=
  let t := tileOf s i
  let c := recvOf t d.rch
  let put (s : State) (c : RecvCh) (w : Nat) : State :=
    answer (modTile s i fun t => setRecv t d.rch
      (skipNacked 16 { c with queue := c.queue ++ [BitVec.ofNat 256 w], expect := c.expect + 1 })) d false 0
  if 16 ≤ c.queue.length then none
  else if c.ring && dPayload d.tspec.toNat then
    match ringPlace c d.payload.length with
    | none => none
    | some (u, skip, c') =>
      let off := ringBase c + 64 * u
      let first := off / rowBytes
      let rows := (off + d.payload.length + rowBytes - 1) / rowBytes - first
      if carryBroken t first rows then some (discardClosed (trapTile s i trCarry (.slot 0xFFFF)) i d)
      else
      let s := match skip with
        | some k => writeBytes s i (ringBase c + 64 * k) (List.replicate 8 0xFF) []
        | none => s
      let s := writeBytes s i off d.payload d.psn
      let w := d.tspec.toNat
      some (put s c' (2 + fldN w 2 30 * 4 + off * 2 ^ 32 + fldN w 96 160 * 2 ^ 96))
  else some (put s c d.tspec.toNat)

/-- A descriptor of an agent that the grace beat of its receiver holds back (R176). -/
def graceHeld (t : Tile) (d : DataMsg) : Bool := t.grace && decide (72 ≤ epNo d.src)

/-- Deliver what waits in the tile queue for a channel, in SEQ order, as far as it goes (R256). -/
def drainQueue (s : State) (i ch : Nat) : Nat → State
  | 0 => s
  | n + 1 =>
    let r := siteRing i
    let t := tileOf s i
    let q := tileQueue t
    match (queueOf (ringOf s r) q).find? (fun d => d.dst = epAddr (siteField i) (siteNo i) && d.rch = ch &&
        d.seq.toNat % 256 = (recvOf t ch).expect % 256 && !graceHeld t d) with
    | none => s
    | some d => match deliver s i d with
      | none => s
      | some s => drainQueue (setQueue s r q (eraseIdx1 (queueOf (ringOf s r) q) (fun e => decide (e = d)))) i ch n

/-- A descriptor arrives at the endpoint of a tile: it enters the tile queue unless a copy of it waits there, and the queue
is delivered as far as it goes (R193, R261). -/
def arrive (s : State) (i : Nat) (d : DataMsg) : State :=
  let t := tileOf s i
  let c := recvOf t d.rch
  let seq := d.seq.toNat % 256
  let w := d.tspec.toNat
  let behind := (c.expect + 512 - seq) % 256
  match ringTen s (siteRing i) with
  | none => answer s d true nackClosed
  | some n =>
    if fldN w 208 8 ≠ t.epoch.toNat then epochDiscard s i
    else if fldN w 200 8 ≠ t.gen.toNat then answer (countStale s (siteRing i)) d true nackStale
    else if 1 ≤ behind && behind ≤ 16 then
      if c.nacked.contains seq then answer s d true nackClosed else answer s d false 0
    else if recvClosed t d.rch || !srcMatches s n c d then discardClosed s i d
    else if 16 ≤ (seq + 256 - c.expect % 256) % 256 then s
    else
      let q := queueOf (ringOf s (siteRing i)) (tileQueue t)
      let here (e : DataMsg) : Bool := e.src = d.src && e.dst = d.dst && e.rch = d.rch && e.seq = d.seq
      let s := if q.any here then s else setQueue s (siteRing i) (tileQueue t) (q ++ [d])
      if behind = 0 then drainQueue s i d.rch 16 else s

/-! ### Receiving (R193, R196, R262) -/

/-- Endpoint of the agent that a receive entry names as its source (R194). -/
def agentSource (s : State) (n : Nat) (c : RecvCh) : Option (BitVec 16) :=
  let vt := c.srcVtile.toNat
  let vr := c.srcVring.toNat
  if c.srcVfield = 6 then
    (tenOf s n).sentence.bind fun st => (st.farHome[vr]?).map fun r => trunkEp (ringStack r vt)
  else if vt = 32 then (physRing s n vr).map fun r => sequencerEp (ringPly r)
  else (bindingOf (tenOf s n) false vt).map fun b => portEp b.port

/-- CREDIT toward the sender of a receive channel (R262). An agent has the identity of channel 0 on all its channels (R194), so
its CREDIT names the receive channel it is for (DEDUCED, log entry 82). -/
def sendCredit (s : State) (i ch : Nat) : State :=
  let t := tileOf s i
  let c := recvOf t ch
  let self := epAddr (siteField i) (siteNo i)
  match ringTen s (siteRing i) with
  | some n =>
    if c.srcVfield.toNat < 6 then
      match vSite s n c.srcVring.toNat c.srcVfield.toNat c.srcVtile.toNat with
      | some j =>
        sendCtl s { ctype := .credit, src := self, dst := epAddr (siteField j) (siteNo j)
                    arg := BitVec.ofNat 76 (c.srcCh.toNat + c.recvd % 256 * 2 ^ 5
                      + (ringOf s (siteRing j)).gen.toNat * 2 ^ 13 + (tileOf s j).gen.toNat * 2 ^ 21
                      + (tenOf s n).gen.toNat * 2 ^ 29) }
      | none => s
    else match agentSource s n c with
      | some a => sendCtl s { ctype := .credit, src := self, dst := a
                              arg := BitVec.ofNat 76 (ch + c.recvd % 256 * 2 ^ 5
                                + (ringOf s (fieldRing (epField a))).gen.toNat * 2 ^ 13 + (tenOf s n).gen.toNat * 2 ^ 29) }
      | none => s
  | none => s

/-- Remove the head of a receive queue: none while it is empty. Frees the ring units of the message returned
before, and returns a credit. -/
def chanRecv (s : State) (i ch : Nat) : Option (State × BitVec 256) :=
  let t := tileOf s i
  let c := recvOf t ch
  match c.queue with
  | [] => none
  | d :: q =>
    let c := if c.taken = 0 then c else
      { c with used := c.used - c.taken, rp := (c.rp + c.taken) % ringUnits c, taken := 0 }
    let ringMsg := c.ring && dKind d.toNat = 2
    let c := if ringMsg then { c with taken := c.units.headD 0, units := c.units.drop 1 } else c
    let prov := fld d 216 2 = (t.sentBeat.toNat + 3) % 4
    let past := if c.srcVfield.toNat < 6 then [] else c.past ++ [d]
    let c := { c with queue := q, recvd := c.recvd + 1, past := past }
    let s := setTile s i { setRecv t ch c with provIn := t.provIn || prov }
    some (drainQueue (sendCredit s i ch) i ch 16, d)

/-- The wait of a unit on an empty receive queue: its target is the channel's sender (R338). -/
def waitRecv (t : Tile) (ch unit kind : Nat) : WaitRec :=
  let c := recvOf t ch
  let w : WaitRec := { vtile := t.vtile.toNat, vfield := t.vfield.toNat, vring := t.vring.toNat
                       unit := unit, kind := kind, ch := ch }
  if c.srcVfield.toNat < 6 then
    { w with tVtile := c.srcVtile.toNat, tVfield := c.srcVfield.toNat, tVring := c.srcVring.toNat }
  else if c.srcVfield = 6 then { w with ext := true, agent := 2, tVtile := c.srcVtile.toNat, tVfield := 6, tVring := c.srcVring.toNat }
  else if c.srcVtile = 32 then { w with ext := true }
  else { w with ext := true, agent := 1 }

end Sys2Proof.Machine
end

