-- ==== Sys2Proof/Machine/Fence.lean ====
section
/-! DEFINITION. The ring shared pool and the ring fence (spec/09_midway.md R254 to R257, R259, R261, R264 to R269;
spec/02_programming_model.md R37, R39). -/

namespace Sys2Proof.Machine
open Sys2Proof

/-! ### The pool (R254, R255, R257) -/

def queueCap (q : Nat) : Nat :=
  if q ≤ 383 then 64 else if q ≤ 385 then 256 else if q ≤ 387 then 2048 else if q = 388 then 256
  else if q = 389 then 640 else if q = 390 then 128 else 0

/-- Cells that packets hold whose ejection has completed and whose command is still to come (R255), and in a tile queue the
words that wait for their inbound buffer (R52): a header flit and one payload flit each. -/
def heldCells (s : State) (x : Ring) (q : Nat) : Nat :=
  cellSum ((x.ejected.filter fun p => p.1 = q).map (·.2)) +
  (if q < 384 then (x.words.filter fun w => tileQueue (tileOf s w.site) = q).length else 0)

/-- Cells of a queue; the far-DMA queues hold the engines' waiting descriptors, 387 the commit queue. -/
def queueCells (s : State) (r q : Nat) : Nat :=
  let x := ringOf s r
  heldCells s x q +
  if q = 384 || q = 385 then cellSum ((stackOf s (ringStack r (q - 384))).queue.map (·.msg))
  else if q = 387 then cellSum (x.commitQ.map (·.msg))
  else cellSum (queueOf x q)

/-- Queues that hold a packet. -/
def queueNos (s : State) (r : Nat) : List Nat :=
  let x := ringOf s r
  (((x.queues.map (fun p : Nat × List DataMsg => p.1) ++ x.ejected.map (fun p : Nat × DataMsg => p.1) ++
    x.words.map (fun w : PoolWord => tileQueue (tileOf s w.site))) ++ [384, 385, 387]).eraseDups).filter fun q => queueCells s r q ≠ 0

def poolUsed (s : State) (r : Nat) : Nat := (queueNos s r).foldl (fun n q => n + queueCells s r q) 0

/-- Cells, or a packet, fit under a queue's cap and in the free cells. -/
def cellsFit (s : State) (r q n : Nat) : Bool :=
  decide (queueCells s r q + n ≤ queueCap q) &&
  (q = 389 || q = 390 ||
   decide (((queueNos s r).filter fun k => k ≠ 389 && k ≠ 390).foldl (fun n k => n + queueCells s r k) 0 + n ≤ 7424))
def poolFits (s : State) (r q : Nat) (d : DataMsg) : Bool := cellsFit s r q (cellsOf d)

/-- POOL_STATUS (R257). -/
def poolReg (s : State) (r : Nat) : Nat :=
  (8192 - poolUsed s r) + (queueNos s r).length * 2 ^ 16 + (ringOf s r).refused * 2 ^ 32

/-- FENCE_COUNT (R269). -/
def fenceReg (x : Ring) : Nat := x.cntClosed + x.cntRefused * 2 ^ 16 + x.cntStale * 2 ^ 32 + x.cntEpoch * 2 ^ 48

/-- Free every packet of a queue, with no reply. -/
def flushQueue (s : State) (r q : Nat) : State :=
  let s := modRing s r fun x => { x with
    ejected := x.ejected.filter fun p => p.1 ≠ q
    words := x.words.filter fun w => tileQueue (tileOf s w.site) ≠ q }
  if q = 384 || q = 385 then modStack s (ringStack r (q - 384)) fun k => { k with queue := [] }
  else if q = 387 then modRing s r fun x => { x with commitQ := [] }
  else setQueue s r q []

/-- Flush every queue except 389 and 390. -/
def flushAll (s : State) (r : Nat) : State :=
  let s := flushQueue (flushQueue (flushQueue s r 384) r 385) r 387
  modRing s r fun x => { x with
    queues := x.queues.filter (fun p => p.1 = 389 || p.1 = 390), ejected := x.ejected.filter (fun p => p.1 = 389 || p.1 = 390)
    words := [] }

/-- Module Address of a ring register. -/
def ringRegAddr (r off : Nat) : Nat := 5 * 2 ^ 60 + r / 16 * 2 ^ 58 + r % 16 * 2 ^ 54 + off

/-- A write to POOL_FLUSH, performed only while no clause runs on the ring (R257); a dark ring's registers serve no access
(R18, R23). -/
def poolFlush (s : State) (r : Nat) (f : State → State) : State :=
  if clauseOnRing s r || dark s r then evAccess s (ringRegAddr r 0x208) else f s

/-- POOL_FLUSH of one queue. -/
def execPoolFlushQueue (ring : RingId) (queue : Fin 1024) (s : State) : Host.Outcome State Fault Refusal :=
  .next (poolFlush s ring fun s => flushQueue s ring queue)

/-- POOL_FLUSH with ALL. -/
def execPoolFlushAll (ring : RingId) (s : State) : Host.Outcome State Fault Refusal :=
  .next (poolFlush s ring fun s => flushAll s ring)

/-! ### Checks of a window request (R266) -/

/-- TA and WGEN of a window request, and that its reserved bits are zero (R246, R266). -/
def reqTa (d : DataMsg) : Nat := fld d.tspec 0 48
def reqGen (d : DataMsg) : Nat := fld d.tspec 48 8
def reqClean (d : DataMsg) : Bool := fld d.tspec 56 200 = 0

/-- The open window at a Tenancy Address. -/
def winAt (x : Tenancy) (ta : Nat) : Option Window :=
  x.windows.find? fun w => decide (w.base ≤ ta) && decide (ta < winEnd w)

/-- Checks 5 to 7 of R266: the window, or the NACK's reason. -/
def winCheck (s : State) (r n : Nat) (write : Bool) (a : Agent) (ta wgen len : Nat) : Except Nat Window :=
  let x := tenOf s n
  match winAt x ta with
  | none => .error nackClosed
  | some w =>
    if w.gen.toNat ≠ wgen then .error nackClosed
    else
      let ok := if write then mayWrite a w.attr else mayRead a w.attr
      let tagOk := write || w.attr ≠ .spill || !(a = .tile || a = .dma) || tagsOk s x w ta len
      if !ok || !tagOk then .error nackDenied
      else
        let last := ta + max 1 len - 1
        let here (t : Nat) : Bool := match winAddr x w t with | some m => maRing m = r | none => false
        if last < winEnd w && here ta && here last then .ok w else .error nackRange

/-- Checks 5 to 7 of a request's packet, the reserved bits of its TA among them. -/
def reqCheck (s : State) (r n : Nat) (d : DataMsg) : Except Nat Window :=
  let write := d.dtype = .wwrite
  match winCheck s r n write (agentOf d.src) (reqTa d) (reqGen d) (if write then d.payload.length else d.len) with
  | .error k => .error k
  | .ok w => if reqClean d then .ok w else .error nackRange

/-- Count a NACK that a fence sends (R269), in the tenancy's statistics too where it is CLOSED (R267). -/
def countNack (s : State) (r : Nat) (n : Option Nat) (reason : Nat) : State :=
  if reason = nackClosed then
    let s := modRing s r fun x => { x with cntClosed := sat 16 (x.cntClosed + 1) }
    match n with
    | some n => modTen s n fun x => { x with fenceClosed := x.fenceClosed + 1 }
    | none => s
  else modRing s r fun x => { x with cntRefused := sat 16 (x.cntRefused + 1) }

/-! ### Sequence and answers (R259, R261) -/

def fenceSrc (s : State) (r : Nat) (k : Nat) : FenceSrc := SMap.get {} (ringOf s r).srcs k
def setFenceSrc (s : State) (r k : Nat) (x : FenceSrc) : State :=
  modRing s r fun y => { y with srcs := SMap.put {} y.srcs k x }

/-- Keep the answer to a request: the last 16 of each source. -/
def keepAnswer (s : State) (r : Nat) (d : DataMsg) (a : Answer) : State :=
  let k := d.src.toNat
  let x := fenceSrc s r k
  let rest := x.answers.filter fun p => p.1 ≠ d.seq.toNat
  setFenceSrc s r k { x with answers := ((d.seq.toNat, a) :: rest).take 16 }

/-- Take the next SEQ of a source. -/
def takeSeq (s : State) (r : Nat) (d : DataMsg) : State :=
  let x := fenceSrc s r d.src.toNat
  setFenceSrc s r d.src.toNat { x with expect := (x.expect + 1) % 65536 }

def sendAnswer (s : State) (d : DataMsg) : Answer → State
  | .done => answer s d false 0
  | .held => answer s d false 1
  | .nack k => answer s d true k
  | .data => s

/-- Answer and remember the answer. -/
def reply (s : State) (r : Nat) (d : DataMsg) (a : Answer) : State := sendAnswer (keepAnswer s r d a) d a

def seqPos (s : State) (r : Nat) (d : DataMsg) : SeqPos :=
  let e := (fenceSrc s r d.src.toNat).expect
  let back := (e + 65536 - d.seq.toNat) % 65536
  if back = 0 then .next else if back ≤ 16 then .dup else .later

/-- The read data of a window request (R259): RDATA with the poison of what was read, and the generations of the request
echoed; its BTAG is zero, for the pool is no tile (R246). -/
def readReply (s : State) (n : Nat) (d : DataMsg) (w : Window) : State :=
  let x := tenOf s n
  let bs := winBytes s x w (reqTa d) d.len
  let m : DataMsg := { d with
    dtype := .rdata, btag := 0, src := d.dst, dst := d.src, len := bs.length, payload := bs
    psn := winPoison s x w (reqTa d) d.len, tspec := BitVec.ofNat 256 (reqTa d) }
  sendData (noteRange s (fun k => winAddr x w (reqTa d + k)) d.len) m

/-! ### Arrival (R266) -/

/-- A write of a tile whose beat's audit is open (R39, R266). -/
def provisional (x : Tenancy) (d : DataMsg) : Bool :=
  epNo d.src < 72 &&
  (match x.run with
   | some u => d.btag.toNat = u.sentBeat % 4 || (match u.pendingBeat with | some b => d.btag.toNat = b % 4 | none => false)
   | none => false)

/-- Sentence beat number of a write's BTAG. -/
def beatOf (x : Tenancy) (d : DataMsg) : Nat :=
  match x.run with
  | some u => if d.btag.toNat = u.sentBeat % 4 then u.sentBeat else u.pendingBeat.getD u.sentBeat
  | none => 0

/-- A WWRITE that enters the commit queue: provisional, to a MASTER or OUTPUT window (R266). -/
def toCommit (s : State) (n : Nat) (d : DataMsg) : Bool :=
  d.dtype = .wwrite && provisional (tenOf s n) d && (match winAt (tenOf s n) (reqTa d) with
    | some w => w.attr = .master || w.attr = .output
    | none => false)

/-- Poison that reaches a commit point fails the beat that sent it: its commit is blocked, and a class B record is written
(R54, R313). -/
def poisonAtCommit (s : State) (d : DataMsg) : State :=
  match epSite d.src with
  | some i => if d.psn.isEmpty then s else failCheck s i mechPoison
  | none => s

/-- Checks 5 to 7 and what they lead to; the SEQ has been taken. -/
def queueReq (s : State) (r n : Nat) (d : DataMsg) : State :=
  match reqCheck s r n d with
  | .error k => reply (countNack s r (some n) k) r d (.nack k)
  | .ok _ =>
    if d.dtype ≠ .wwrite then setQueue s r 388 (queueOf (ringOf s r) 388 ++ [d])
    else if toCommit s n d then
      let s := poisonAtCommit s d
      reply (modRing s r fun x => { x with commitQ := x.commitQ ++ [{ msg := d, beat := beatOf (tenOf s n) d }] }) r d .held
    else setQueue s r 386 (queueOf (ringOf s r) 386 ++ [d])

/-- Entries of queue `q` that wait in the pool for their predecessors (R256). -/
def parked (s : State) (r : Nat) (d : DataMsg) : Bool := seqPos s r d = .later

/-- The SEQ of one request comes before that of another. -/
def earlier (e d : DataMsg) : Bool :=
  let k := (d.seq.toNat + 65536 - e.seq.toNat) % 65536
  decide (0 < k) && decide (k < 32768)

/-- An admitted WWRITE or WREAD of the same source that came before a request has not been applied, one that the commit
queue holds among them (R256). -/
def unapplied (s : State) (r : Nat) (d : DataMsg) : Bool :=
  (queueOf (ringOf s r) 386 ++ queueOf (ringOf s r) 388 ++ (ringOf s r).commitQ.map (·.msg)).any fun e =>
    e.src = d.src && !parked s r e && earlier e d

/-- The commit queue takes a packet under its cap (R254). -/
def commitRoom (s : State) (r n : Nat) (d : DataMsg) : Bool :=
  !toCommit s n d || decide (queueCells s r 387 + cellsOf d ≤ queueCap 387)

/-- A request may be admitted: its SEQ is next, the commit queue has room for it where it goes there, and for an SVC its
predecessors have been applied. A MCAST that waits for its use is no such request. -/
def admits (s : State) (r n : Nat) (d : DataMsg) : Bool :=
  d.dtype ≠ .mcast && seqPos s r d = .next && commitRoom s r n d && !(d.dtype = .svc && unapplied s r d)

/-- Admit what waited for its predecessors, in SEQ order. -/
def unpark (s : State) (r n : Nat) : Nat → State
  | 0 => s
  | k + 1 =>
    let x := ringOf s r
    match (queueOf x 386 ++ queueOf x 388 ++ queueOf x 390).find? (admits s r n) with
    | none => s
    | some d =>
      let q := match d.dtype with | .wwrite => 386 | .wread => 388 | _ => 390
      let s := setQueue s r q (eraseIdx1 (queueOf x q) (fun e => decide (e = d)))
      let s := takeSeq s r d
      unpark (if d.dtype = .svc then reply (setQueue s r 390 (queueOf (ringOf s r) 390 ++ [d])) r d .done
              else queueReq s r n d) r n k

/-- Tail of the checks that WWRITE, WREAD and SVC share: SEQ order and duplicates. -/
def inOrder (s : State) (r n q : Nat) (d : DataMsg) (go : State → State) : State :=
  let keep : State :=
    if (queueOf (ringOf s r) q).any (fun e => e.src = d.src && e.seq = d.seq) then s
    else setQueue s r q (queueOf (ringOf s r) q ++ [d])
  match seqPos s r d with
  | .next => if admits s r n d then unpark (go (takeSeq s r d)) r n 16 else keep
  | .dup =>
    match (fenceSrc s r d.src.toNat).answers.find? (fun p => p.1 = d.seq.toNat) with
    | some (_, .data) => (match reqCheck s r n d with
        | .ok w => readReply s n d w
        | .error k => reply (countNack s r (some n) k) r d (.nack k))
    | some (_, a) => sendAnswer s d a
    | none => s
  | .later => keep

/-- Checks 1 to 3 of R266. -/
def fenceHead (s : State) (r : Nat) (d : DataMsg) (go : State → Nat → State) : State :=
  match ringTen s r with
  | none => answer (countNack s r none nackDenied) d true nackDenied
  | some n =>
    if d.ten.toNat ≠ n then answer (countNack s r none nackDenied) d true nackDenied
    else if d.ngen ≠ (tenOf s n).gen then countStale s r
    else if epNo d.src < 72 && d.epoch ≠ (tenOf s n).epoch then
      modRing s r fun x => { x with cntEpoch := sat 16 (x.cntEpoch + 1) }
    else go s n

/-- A packet whose ejection has completed leaves its place for its queue; one that no ejection has announced needs the room
of that queue, and else is refused (R255). -/
def enterPool (s : State) (r q : Nat) (d : DataMsg) (go : State → State) : State :=
  let x := ringOf s r
  if x.ejected.any fun p => p.2 = d then
    go (setRing s r { x with ejected := eraseIdx1 x.ejected fun p => decide (p.2 = d) })
  else if poolFits s r q d then go s
  else modRing s r fun x => { x with refused := sat 16 (x.refused + 1) }

/-- A window request at the fence of its ring; a dark ring's fence does nothing (R18, R23). -/
def windowRequest (s : State) (r q : Nat) (d : DataMsg) : State :=
  if dark s r then s
  else enterPool s r q d fun s => fenceHead s r d fun s n => inOrder s r n q d fun s => queueReq s r n d

/-- WWRITE (R266). -/
def execWwrite (ring : RingId) (d : DataMsg) (s : State) : Host.Outcome State Fault Refusal :=
  .next (windowRequest s ring 386 d)

/-- WREAD (R266). -/
def execWread (ring : RingId) (d : DataMsg) (s : State) : Host.Outcome State Fault Refusal :=
  .next (windowRequest s ring 388 d)

/-! ### Application (R267) -/

/-- Apply or refuse one admitted request. -/
def applyReq (s : State) (r n : Nat) (d : DataMsg) : State :=
  match reqCheck s r n d with
  | .error _ => reply (countNack s r (some n) nackClosed) r d (.nack nackClosed)
  | .ok w =>
    if d.dtype = .wwrite then
      let s := if w.attr = .spill then keepWrite s n w (reqTa d) d.payload (beatOf (tenOf s n) d) else s
      let s := winWrite s (tenOf s n) w (reqTa d) d.payload d.psn
      let s := if w.attr = .spill then setTags s (tenOf s n) w (reqTa d) d.payload.length else s
      reply s r d .done
    else keepAnswer (readReply s n d w) r d .data

/-- Writes of the commit queue whose beat has been released and whose predecessors have been applied. -/
def dueWrites (s : State) (r : Nat) : List DataMsg :=
  (((ringOf s r).commitQ.filter (·.released)).map (·.msg)).filter fun d => !unapplied s r d

/-- Requests that may be applied: the service port takes the commit queue's writes before every other window access
(R224). -/
def applicable (s : State) (r : Nat) (write : Bool) : List DataMsg :=
  let due := dueWrites s r
  let rest := (queueOf (ringOf s r) (if write then 386 else 388)).filter fun d => !parked s r d && !unapplied s r d
  if write then due ++ rest else if due.isEmpty then rest else []

/-- A request leaves the queue that holds it. -/
def takeReq (s : State) (r : Nat) (write : Bool) (d : DataMsg) : State :=
  if (ringOf s r).commitQ.any (fun e => e.released && e.msg = d) then
    modRing s r fun x => { x with commitQ := eraseIdx1 x.commitQ fun e => e.released && decide (e.msg = d) }
  else
    let q := if write then 386 else 388
    setQueue s r q (eraseIdx1 (queueOf (ringOf s r) q) fun e => decide (e = d))

/-- FENCE_APPLY: the first request of the commit and write queues or of the read queue that may be applied (R256); what
waited for it is admitted then. -/
def execFenceApply (ring : RingId) (write : Bool) (s : State) : Host.Outcome State Fault Refusal :=
  .next (
    let r : Nat := ring
    if dark s r then s else
    match applicable s r write, ringTen s r with
    | d :: _, some n => unpark (applyReq (takeReq s r write d) r n d) r n 16
    | d :: _, none => takeReq s r write d
    | [], _ => s)

/-! ### RDATA, SVC and MCAST (R259, R264, R265, R268) -/

/-- Release the copy of an answered request. -/
def releaseReq (s : State) (src dst : BitVec 16) (seq : Nat) (p : Req → Bool) : State :=
  setReqs s src (eraseIdx1 (reqsOf s src) fun q => q.msg.dst = dst && q.msg.seq.toNat = seq && p q)

/-- RDATA: compared with its destination's generations; one that agrees answers its WREAD (R268). It leaves queue 389, and
what its source held back may go. -/
def execRdata (ring : RingId) (d : DataMsg) (s : State) : Host.Outcome State Fault Refusal :=
  .next (if darkEp s d.dst then s else enterPool s ring 389 d fun s =>
    if gensNow s d.dst (some d.ten.toNat) d.rgen.toNat d.tgen.toNat d.ngen.toNat then
      releaseHeldReq (releaseReq s d.dst d.src d.seq.toNat fun q => q.msg.dtype = .wread) d.dst
    else countStale s ring)

/-- SVC: accepted into queue 390 when its cells fit (R255, R259). -/
def execSvc (ring : RingId) (d : DataMsg) (s : State) : Host.Outcome State Fault Refusal :=
  .next (
    let r : Nat := ring
    if dark s r then s
    else enterPool s r 390 d fun s => inOrder s r ((ringTen s r).getD 64) 390 d fun s =>
      reply (setQueue s r 390 (queueOf (ringOf s r) 390 ++ [d])) r d .done)

/-- Targets of a multicast at one router: index and endpoint address (R246, R264). -/
def mcTargets (f : Nat) (d : DataMsg) : List (Nat × BitVec 16) :=
  ((List.range 8).filter fun i => fld d.tspec (16 + i) 1 = 1).map (fun i => (i, BitVec.ofNat 16 (fld d.tspec (24 + 16 * i) 16)))
    |>.filter fun p => epField p.2 = f

/-- One target of a multicast: a SEQ already delivered is acknowledged again, a copy that does not fit is not. A target keeps
as many delivered SEQs as a source may hold requests (R259). -/
def mcDeliver (s : State) (f : Nat) (d : DataMsg) (i : Nat) (a : BitVec 16) : State :=
  let r := fieldRing f
  let k := 2 ^ 16 + a.toNat * 2 ^ 16 + d.src.toNat
  let x := fenceSrc s r k
  let ack (s : State) : State := answer s { d with dst := a } false 0 (some i)
  if darkEp s a then s
  else if x.answers.any (fun p => p.1 = d.seq.toNat) then ack s
  else if !poolFits s r 390 d then modRing s r fun y => { y with refused := sat 16 (y.refused + 1) }
  else
    let s := setFenceSrc s r k { x with answers := ((d.seq.toNat, .done) :: x.answers).take 64 }
    ack (setQueue s r 390 (queueOf (ringOf s r) 390 ++ [{ d with dst := a }]))

/-- MCAST at one router: the place that its ejection kept becomes free, and each target takes its copy. -/
def execMcast (field : FieldId) (d : DataMsg) (s : State) : Host.Outcome State Fault Refusal :=
  let s := modRing s (fieldRing field) fun x => { x with ejected := eraseIdx1 x.ejected fun p => decide (p.2 = d) }
  .next ((mcTargets field d).foldl (fun s p => mcDeliver s field d p.1 p.2) s)

/-! ### Registers that clear when read (R6, R253, R257, R269) -/

def latchReg (s : State) (v : Nat) : State := { s with regOut := BitVec.ofNat 64 v, regPoison := false }

/-- A read that is not performed returns data tagged as poisoned (R11, R61). -/
def refusedRead (s : State) (ma : Nat) : State := { evAccess s ma with regOut := 0, regPoison := true }

/-- POOL_STATUS is read. -/
def execPoolStatus (ring : RingId) (s : State) : Host.Outcome State Fault Refusal :=
  .next (if dark s ring then refusedRead s (ringRegAddr ring 0x200)
    else modRing (latchReg s (poolReg s ring)) ring fun x => { x with refused := 0 })

/-- FENCE_COUNT is read. -/
def execFenceCount (ring : RingId) (s : State) : Host.Outcome State Fault Refusal :=
  .next (if dark s ring then refusedRead s (ringRegAddr ring 0x210)
    else modRing (latchReg s (fenceReg (ringOf s ring))) ring fun x =>
      { x with cntClosed := 0, cntRefused := 0, cntStale := 0, cntEpoch := 0 })

end Sys2Proof.Machine
end

