-- ==== Sys2Proof/Machine/Midway.lean ====
section
/-! DEFINITION. Routers, replies, retries, credits and urgent control of the Midway (spec/09_midway.md R244 to R253,
R255, R258 to R263, R268, R270). A packet that ejects leaves the network; the command of its type delivers it
(log entry 18). -/

namespace Sys2Proof.Machine
open Sys2Proof

/-! ### Routing (R244, R249 to R252) -/

/-- Split a route after the complete subroute of a fork's first branch; none where the grammar breaks. -/
def subroute : Nat → List (BitVec 3) → Option (List (BitVec 3) × List (BitVec 3))
  | 0, cs => some ([], cs)
  | _, [] => none
  | need + 1, c :: cs =>
    let need' := if c = 4 then need else if c = 6 ∨ c = 7 then need + 2 else need + 1
    (subroute need' cs).map fun p => (c :: p.1, p.2)

def dropDcnt (s : State) (f : Nat) : State := modField s f fun x => { x with dropDcnt := sat 12 (x.dropDcnt + 1), drops := x.drops + 1 }
def dropAge (s : State) (f : Nat) : State := modField s f fun x => { x with dropAge := sat 12 (x.dropAge + 1), drops := x.drops + 1 }
def dropFmt (s : State) (f : Nat) : State := modField s f fun x => { x with dropFmt := sat 8 (x.dropFmt + 1), drops := x.drops + 1 }

/-! ### Lanes and arbitration (R240, R242, R249) -/

/-- Outputs that a packet asks for. -/
def wants (p : Packet) : List RPort :=
  match p.route with
  | [] => []
  | c :: _ => match c.toNat with
    | 4 => [.loc]
    | 5 => [.link p.head]
    | 6 => [.link (turnSide p.head 1), .link p.head]
    | 7 => [.link (turnSide p.head 2), .link p.head]
    | k => [.link (turnSide p.head k)]

def isCtl (p : Packet) : Bool := match p.body with | .ctl _ => true | .data _ => false

/-- A data packet to, or from, a stream port: it uses the four local data lanes that the port has of its own each way
(R242). -/
def toPort (p : Packet) : Bool := match p.body with | .data d => epNo d.dst = 77 | .ctl _ => false
def fromPort (p : Packet) : Bool := match p.body with | .data d => epNo d.src = 77 | .ctl _ => false

/-- Lanes of a link or of the local interface: one for control packets; for data packets one, two at an edge router, and
the four of a stream port (R240, R242). Of a field that is no edge field the spec gives no number for the local interface: one
each way (DESIGN CHOICE, log entry 82). -/
def lanesAt (f : Nat) (o : RPort) (ctl port : Bool) : Nat :=
  if ctl then 1
  else match o with
    | .loc => if port then 4 else if isEdge f then 2 else 1
    | .link sd => if isEdge f || (match neighbour f sd with | some g => isEdge g | none => false) then 2 else 1

/-- Lanes of an output that a packet may take. -/
def lanesOf (f : Nat) (o : RPort) (p : Packet) : Nat := lanesAt f o (isCtl p) (toPort p)

/-- The lanes of an input that a packet comes by: urgent packets have the holding register of their input (R270). -/
def inKind (inp : RPort) (p : Packet) : Nat :=
  if p.urg then 0 else if isCtl p then 1 else if inp = .loc && fromPort p then 2 else 3

/-- Packets that stand in the lane buffers of the inputs: each lane buffers one whole packet, and the next ones wait behind
it (R249). -/
def onDeck (s : State) (x : Flight) : Bool :=
  let same (y : Flight) : Bool := y.field = x.field && y.inp = x.inp && inKind y.inp y.p = inKind x.inp x.p
  decide (((s.net.takeWhile fun y => decide (y ≠ x)).filter same).length < lanesAt x.field x.inp (isCtl x.p) (fromPort x.p))

/-- AGE of a packet that has waited at its input (R245, R249). -/
def ageNow (s : State) (x : Flight) : Nat :=
  min 4095 (x.p.age + (s.time.uptime - x.since) * s.time.cclkMhz / 1000)

def inputNo : RPort → Nat
  | .link sd => Side.no sd
  | .loc => 4

/-- Packet `y` comes before packet `x` at the outputs of a router (R249): DET counts toward the return output alone. -/
def comesFirst (s : State) (f : Nat) (y x : Flight) : Bool :=
  let turn (z : Flight) : Nat := (inputNo z.inp + 9 - (fieldOf s f).urgLast) % 5
  let back (z : Flight) : Bool := z.p.det && (match z.p.route with | c :: _ => c = 3 | [] => false)
  if y.p.urg || x.p.urg then y.p.urg && (!x.p.urg || decide (turn y < turn x))
  else if back y || back x then back y && !back x
  else decide (ageNow s x < ageNow s y) || (ageNow s x = ageNow s y && decide (inputNo y.inp < inputNo x.inp))

/-- The two packets use the same lanes of an output. -/
def sameLanes (o : RPort) (x y : Packet) : Bool := isCtl x = isCtl y && (o ≠ .loc || toPort x = toPort y)

/-- Packets of the same lanes that stand in the buffers of a router and ask for an output. -/
def rivals (s : State) (f : Nat) (x : Flight) (o : RPort) : List Flight :=
  s.net.filter fun y => y.field = f && y ≠ x && onDeck s y && sameLanes o y.p x.p && (wants y.p).contains o

/-- Key of the lanes of an output in `Field.busy`. -/
def laneKey (o : RPort) (p : Packet) : Nat :=
  2 * (match o with | .link sd => Side.no sd | .loc => if toPort p then 5 else 4) + (if isCtl p then 0 else 1)

/-- Lanes of an output that stream no packet: the command names a free output once for each lane, and a lane that was given
streams the flits of its packet. -/
def lanesFree (s : State) (f : Nat) (p : Packet) (free : List RPort) (o : RPort) : Nat :=
  let used := ((fieldOf s f).busy.filter fun b => b.1 = laneKey o p && decide (s.time.uptime < b.2)).length
  min (free.filter (fun x => decide (x = o))).length (lanesOf f o p - used)

/-- The input at the other end of a link has an empty lane buffer (R249). -/
def linkRoom (s : State) (f : Nat) (p : Packet) (o : RPort) : Bool :=
  match o with
  | .loc => true
  | .link sd => match neighbour f sd with
    | none => false
    | some g =>
      let inp := RPort.link (Side.back sd)
      decide ((s.net.filter fun y => y.field = g && y.inp = inp && inKind y.inp y.p = inKind inp p).length
        < lanesAt g inp (isCtl p) false)

/-- The output is free and the packet is assigned to it in this cc. -/
def wins (s : State) (f : Nat) (x : Flight) (free : List RPort) (o : RPort) : Bool :=
  linkRoom s f x.p o &&
  decide (((rivals s f x o).filter fun y => comesFirst s f y x).length < lanesFree s f x.p free o)

/-- An output that no packet is assigned to: a deflected packet may take it (R250). -/
def unused (s : State) (f : Nat) (x : Flight) (free : List RPort) (o : RPort) : Bool :=
  linkRoom s f x.p o && decide ((rivals s f x o).length < lanesFree s f x.p free o)

/-- Flits of a packet (R245, R246). -/
def flits (p : Packet) : Nat := match p.body with | .ctl _ => 1 | .data d => 1 + ceilDiv d.payload.length 64

/-- A lane is given to a packet: it streams the packet's flits, one in each cc. -/
def takeLane (s : State) (f : Nat) (o : RPort) (p : Packet) : State :=
  modField s f fun x => { x with
    busy := (x.busy.filter fun b => decide (s.time.uptime < b.2)) ++ [(laneKey o p, s.time.uptime + nsOfCc s (flits p))] }

/-- cc of one hop (R240, R247). -/
def hopCc (f : Nat) (sd : Side) (p : Packet) : Nat := (if isBridge f sd then 20 else 4) + 2 * p.crcResent

/-- Send a packet on through a port with the rest of its route. -/
def forwardPkt (s : State) (f : Nat) (sd : Side) (p : Packet) (rest : List (BitVec 3)) (det : Bool) : State :=
  match neighbour f sd with
  | some g =>
    let q : Packet := { p with
      route := rest, head := sd, det := det, crcResent := 0, age := min 4095 (p.age + hopCc f sd p) }
    let s := takeLane s f (.link sd) p
    { s with net := s.net ++ [{ field := g, inp := .link (Side.back sd), p := q
                                since := s.time.uptime + hopCc f sd p * 1000 / max 1 s.time.cclkMhz }] }
  | none => s

/-- Deflect a packet that does not get its output (R250, R251); it waits where no output is eligible, but one that has been
deflected 255 times is dropped first (DESIGN CHOICE, log entry 80). A code that
makes copies keeps its meaning only on a packet that comes back with its old heading (log entry 18). -/
def deflect (s s₀ : State) (f : Nat) (p : Packet) (code : BitVec 3) (rest : List (BitVec 3)) (want : Option Side)
    (free : List RPort) : State :=
  if p.urg || p.det then s₀
  else if p.dcnt = 255 then dropDcnt s f
  else
    let pick := ((if 5 ≤ code.toNat then [3] else [1, 2, 0, 3]).map (turnSide p.head)).find? fun sd =>
      linkOk s f sd && !isBridge f sd && want ≠ some sd && free.contains (.link sd)
    match pick with
    | none => s₀
    | some sd =>
      let back : BitVec 3 := match want with
        | some w => if code.toNat ≤ 3 then turnOf (Side.back sd) w else code
        | none => code
      let s := modField s f fun x => { x with deflect := sat 24 (x.deflect + 1) }
      forwardPkt s f sd { p with dcnt := p.dcnt + 1 } (3 :: back :: rest) true

/-- Queue that a data packet enters at its EJECT (R254, R255); none for an agent without one. A WWRITE that waits for its
predecessors stands in the write queue until it is admitted. -/
def queueFor (s : State) (f : Nat) (d : DataMsg) : Option Nat :=
  match d.dtype with
  | .desc =>
    if epNo d.dst < 72 then some (tileQueue (tileOf s (f * 72 + epNo d.dst)))
    else if epNo d.dst = 74 then some (384 + stackTrunk (epStack d.dst)) else none
  | .wwrite => some (match ringTen s (fieldRing f) with
    | some n => if toCommit s n d && seqPos s (fieldRing f) d = .next then 387 else 386
    | none => 386)
  | .wread => some 388
  | .rdata => some 389
  | .mcast => some 390
  | .svc => some 390

/-- The ejection handshake of a data packet completes (R255, R258). A dark ring's pool refuses every one; an agent that takes
its packets without the pool goes on (R23). -/
def ejects (s : State) (f : Nat) (d : DataMsg) : Bool :=
  let r := fieldRing f
  (ringOf s r).ejectOff || (match queueFor s f d with | some q => !dark s r && poolFits s r q d | none => true)

/-- A lost ring consumes a packet and answers NACK LOST, for a multicast each of its targets at this router. -/
def lostAnswer (s : State) (f : Nat) (d : DataMsg) : State :=
  if d.dtype = .mcast then
    (mcTargets f d).foldl (fun s p => answer s { d with dst := p.2 } true nackLost (some p.1)) s
  else answer s d true nackLost

/-- What a completed ejection does: a lost ring consumes every data packet and answers NACK LOST (R258); else the packet
takes its cells in its queue, until the command of its type delivers it (R255). -/
def ejected (s : State) (f : Nat) (b : Body) : State :=
  match b with
  | .ctl _ => s
  | .data d =>
    if (ringOf s (fieldRing f)).ejectOff then lostAnswer s f d
    else match queueFor s f d with
      | some q => modRing s (fieldRing f) fun x => { x with ejected := x.ejected ++ [(q, d)] }
      | none => s

def refuse (s : State) (f : Nat) : State :=
  modRing s (fieldRing f) fun x => { x with refused := sat 16 (x.refused + 1) }

/-- What a router does with a packet that leaves one of its inputs: it is dropped, delivered, sent on by the code in front, or
deflected. `got` says which outputs it has won and `spare` which ones stay unused in this cc; `s₀` is the state in which it
still waits. -/
def moveOn (s s₀ : State) (f : Nat) (inp : RPort) (p : Packet) (got : RPort → Bool) (spare : List RPort) : State :=
  if p.crcDead then dropFmt s f
  else if !p.urg && inp ≠ .loc && 3584 ≤ p.age then dropAge s f
  else match p.route with
  | [] => dropFmt s f
  | code :: rest =>
    match code.toNat with
    | 4 =>
      if !rest.isEmpty then dropFmt s f
      else match p.body with
      | .ctl _ => s
      | .data d =>
        if !got .loc then deflect s s₀ f p code rest none spare
        else if ejects s f d then ejected (takeLane s f .loc p) f p.body
        else deflect (refuse s f) (refuse s₀ f) f p code rest none spare
    | 5 =>
      if rest.isEmpty || !linkOk s f p.head then dropFmt s f
      else if !got (.link p.head) then deflect s s₀ f p code rest (some p.head) spare
      else
        let s := match p.body with
          | .data d => if ejects s f d then ejected s f p.body else refuse s f
          | .ctl _ => s
        forwardPkt s f p.head p rest false
    | 6 | 7 =>
      let sd := turnSide p.head (if code = 6 then 1 else 2)
      (match subroute 1 rest with
       | none => dropFmt s f
       | some (a, b) =>
         if (subroute 1 b).map (·.2) ≠ some [] || !linkOk s f sd || !linkOk s f p.head then dropFmt s f
         else if !(got (.link sd) && got (.link p.head)) then deflect s s₀ f p code rest (some sd) spare
         else forwardPkt (forwardPkt s f sd p a false) f p.head p b false)
    | c =>
      let sd := turnSide p.head c
      if rest.isEmpty || !linkOk s f sd || (c = 3 && inp = .loc) then dropFmt s f
      else if got (.link sd) then forwardPkt s f sd p rest false
      else deflect s s₀ f p code rest (some sd) spare

/-- A router takes one packet at one of its inputs; `free` lists each output once for each of its lanes that streams no
packet in this cc. A packet behind another of its input's lane waits. A flit whose
CRC fails is counted with the router that finds it (R247). The router that deflected a packet clears DET when it comes back
(R250). -/
def route (s₀ : State) (f : Nat) (inp : RPort) (p : Packet) (free : List RPort) : State :=
  let mine (x : Flight) : Bool :=
    x.field = f && x.inp = inp && decide ({ x.p with crcDead := p.crcDead, crcResent := p.crcResent } = p)
  let me : Flight := (s₀.net.find? mine).getD { field := f, inp := inp, p := p, since := s₀.time.uptime }
  let s := { s₀ with net := eraseIdx1 s₀.net mine }
  let s := if p.crcResent = 0 then s else modField s f fun x => { x with crcRetry := sat 8 (x.crcRetry + p.crcResent) }
  let got (o : RPort) : Bool := wins s₀ f me free o
  let spare := free.filter (unused s₀ f me free)
  let p := { p with age := ageNow s₀ me, det := p.det && (match p.route with | c :: _ => c = 3 | [] => false) }
  let s := if p.urg then modField s f fun x => { x with urgLast := inputNo inp } else s
  if onDeck s₀ me then moveOn s s₀ f inp p got spare else s₀

/-- PACKET_ROUTE (R249). -/
def execPacketRoute (field : FieldId) (inp : RPort) (p : Packet) (free : List RPort) (s : State) :
    Host.Outcome State Fault Refusal :=
  .next (route s field inp p free)

/-! ### MW registers (R253) -/

def mwStatus (s : State) (f : Nat) : Nat :=
  let has (b : Bool) (n : Nat) : Nat := b2n b * 2 ^ n
  has (isEdge f) 0 + has ((List.range 32).any fun p => portField p = f) 1
    + has (ringCentre (fieldRing f) = f) 2 + has (innerCorner (fieldPly f) = f) 3 + has (f = 95) 4
    + (List.range 4).foldl (fun n k => n + has ((fieldOf s f).mwFail.contains k) (8 + k)) 0
    + has (ringOf s (fieldRing f)).ejectOff 12

def mwCount (x : Field) : Nat :=
  x.deflect + x.dropDcnt * 2 ^ 24 + x.dropAge * 2 ^ 36 + x.dropFmt * 2 ^ 48 + x.crcRetry * 2 ^ 56

/-- MW_COUNT is read. -/
def execMwCount (field : FieldId) (s : State) : Host.Outcome State Fault Refusal :=
  .next (modField (latchReg s (mwCount (fieldOf s field))) field fun x =>
    { x with deflect := 0, dropDcnt := 0, dropAge := 0, dropFmt := 0, crcRetry := 0 })

/-! ### Descriptors -/

/-- Stream port's egress (R388): descriptors held for the release of their beat; a stream without an egress
binding closes the channel, and a full or DOWN port keeps the credit. -/
def egressRoom (p : SPort) : Bool :=
  p.st = .up && decide (p.egress.foldl (fun n e => n + 32 + e.msg.payload.length) 0 ≤ 16 * 2 ^ 20)

def agentKey (d : DataMsg) : Nat := (d.dst.toNat * 2 ^ 16 + d.src.toNat) * 32 + d.sch

/-- Where a descriptor's SEQ stands at an agent: the next, one of the 16 before it, or later (R261). -/
def agentPos (s : State) (d : DataMsg) : SeqPos :=
  let e := SMap.get 0 s.agentSeq (agentKey d)
  let back := (e + 512 - d.seq.toNat % 256) % 256
  if e % 256 = d.seq.toNat % 256 then .next else if back ≤ 16 then .dup else .later

/-- An agent takes a descriptor's SEQ; what it answered an earlier descriptor of that SEQ is gone. -/
def agentGot (s : State) (d : DataMsg) : State :=
  let old := (SMap.get [] s.agentNack (agentKey d)).filter fun k => decide (k ≠ d.seq.toNat % 256)
  { s with agentSeq := SMap.put 0 s.agentSeq (agentKey d) (SMap.get 0 s.agentSeq (agentKey d) + 1)
           agentNack := SMap.put [] s.agentNack (agentKey d) old }

/-- An agent refuses a descriptor it has taken: NACK CLOSED, and the answer is kept for duplicates (R194, R261). -/
def agentRefuse (s : State) (d : DataMsg) : State :=
  let old := SMap.get [] s.agentNack (agentKey d)
  answer { s with agentNack := SMap.put [] s.agentNack (agentKey d) ((d.seq.toNat % 256 :: old).take 16) } d true nackClosed

/-- An agent takes a descriptor out of its queue and returns the credit (R229). -/
def agentCredit (s : State) (d : DataMsg) : State :=
  let n := SMap.get 0 s.agentTaken (agentKey d) + 1
  sendCtl { s with agentTaken := SMap.put 0 s.agentTaken (agentKey d) n }
    { ctype := .credit, src := d.dst, dst := d.src
      arg := BitVec.ofNat 76 (d.sch + n % 256 * 2 ^ 5 + d.rgen.toNat * 2 ^ 13 + d.tgen.toNat * 2 ^ 21 + d.ngen.toNat * 2 ^ 29) }

/-- Egress binding of a descriptor's stream on a port. -/
def egressBinding (s : State) (n port : Nat) (d : DataMsg) : Option Binding :=
  match (tenOf s n).sentence with
  | some x => x.bindings.find? fun b => b.egress && b.port = port && b.stream = fld d.tspec 128 16
  | none => none

/-- Sentence beat number that sent a descriptor, by its BTAG. -/
def descBeat (s : State) (n : Nat) (d : DataMsg) : Nat :=
  match (tenOf s n).run with
  | some u => if fld d.tspec 216 2 = u.sentBeat % 4 then u.sentBeat else u.pendingBeat.getD u.sentBeat
  | none => 0

/-- The parked descriptor of the same channel that is next now. -/
def parkedNext (s : State) (d : DataMsg) : Option DataMsg :=
  s.agentPark.find? fun e => e.src = d.src && e.dst = d.dst && e.sch = d.sch && agentPos s e = .next

/-- Take a descriptor that is next, and those parked behind it. -/
def agentTake (take : State → DataMsg → State) : Nat → State → DataMsg → State
  | 0, s, _ => s
  | k + 1, s, d =>
    let s := take (agentGot s d) d
    match parkedNext s d with
    | some e => agentTake take k { s with agentPark := s.agentPark.filter fun x => decide (x ≠ e) } e
    | none => s

/-- A descriptor arrives at an agent: in SEQ order, a duplicate gets the original answer again, and one ahead of its predecessors waits
(R193, R261). -/
def agentArrive (s : State) (d : DataMsg) (take : State → DataMsg → State) : State :=
  match agentPos s d with
  | .next => agentTake take 16 s d
  | .dup =>
    if (SMap.get [] s.agentNack (agentKey d)).contains (d.seq.toNat % 256) then answer s d true nackClosed else answer s d false 0
  | .later =>
    let ahead := (d.seq.toNat + 256 - SMap.get 0 s.agentSeq (agentKey d) % 256) % 256
    if 15 < ahead || s.agentPark.contains d then s else { s with agentPark := s.agentPark ++ [d] }

/-- A descriptor of an older epoch is discarded with no reply and counted, at the fence of the field's ring (R199, R259;
log entry 80). -/
def staleEpoch (s : State) (r n : Nat) (d : DataMsg) (go : State → State) : State :=
  if fld d.tspec 208 8 ≠ (tenOf s n).epoch.toNat then modRing s r fun x => { x with cntEpoch := sat 16 (x.cntEpoch + 1) }
  else go s

/-- Poison that reaches an egress buffer fails the beat that sent it (R54, R313). -/
def egressTake (p n : Nat) (s : State) (d : DataMsg) : State :=
  match egressBinding s n p d with
  | none => agentRefuse s d
  | some b =>
    let room := egressRoom (sportOf s p)
    let e : Egress := { ten := n, beat := descBeat s n d, msg := d, credited := room, bind := some b }
    let s := modSport (answer (poisonAtCommit s d) d false 0) p fun x => { x with egress := x.egress ++ [e] }
    if room then agentCredit s d else s

def egressIn (s : State) (d : DataMsg) : State :=
  match epPort d.dst, ringTen s (fieldRing (epField d.src)) with
  | some p, some n => staleEpoch s (fieldRing (portField p)) n d fun s => agentArrive s d (egressTake p n)
  | _, _ => answer s d true nackClosed

/-- DESC: arrival at a tile's endpoint, or at a stream port (R193, R388). -/
def execDesc (field : FieldId) (d : DataMsg) (s : State) : Host.Outcome State Fault Refusal :=
  .next (
    if darkEp s d.dst then s
    else if epNo d.dst < 72 then
      let i := (field : Nat) * 72 + epNo d.dst
      enterPool s (fieldRing field) (tileQueue (tileOf s i)) d fun s => arrive s i d
    else if epNo d.dst = 77 then egressIn s d else s)

/-- DESC_DELIVERY: what waits in the tile queue for one channel (R256). -/
def execDescDelivery (site : SiteId) (ch : ChId) (s : State) : Host.Outcome State Fault Refusal :=
  .next (if dark s (siteRing site) then s else drainQueue s site ch 16)

/-! ### Replies (R259, R262, R268) -/

def aSeq (c : CtlMsg) : Nat := fld c.arg 0 16
def aReason (c : CtlMsg) : Nat := fld c.arg 16 4
def aCh (c : CtlMsg) : Nat := fld c.arg 24 5

/-- The generations of a reply of a tenancy `n` agree with its destination's now; a reply that differs is dropped and
counted. -/
def replyHead (s : State) (r : Nat) (c : CtlMsg) (at_ : Nat) (n : Option Nat) (go : State → State) : State :=
  if darkEp s c.dst then s
  else if gensNow s c.dst n (fld c.arg at_ 8) (fld c.arg (at_ + 8) 8) (fld c.arg (at_ + 16) 8) then go s else countStale s r

/-- The held request that a reply answers. -/
def answers (c : CtlMsg) (q : Req) : Bool :=
  q.msg.seq.toNat = aSeq c &&
  (q.msg.dtype = .mcast || q.msg.dst = c.src) && (q.msg.dtype ≠ .desc || q.msg.sch = aCh c)

/-- Tenancy of the request that a reply answers. -/
def answeredTen (s : State) (c : CtlMsg) : Option Nat := ((reqsOf s c.dst).find? (answers c)).map fun q => q.msg.ten.toNat

/-- A reply of one target of a multicast: its bit leaves the TMASK of the held copy, which goes with the last one (R265). -/
def answerTarget (s : State) (c : CtlMsg) : State :=
  let clr (x : Req) : Req :=
    if answers c x then { x with msg := { x.msg with tspec := x.msg.tspec &&& ~~~(1#256 <<< (16 + fld c.arg 21 3)) } } else x
  releaseHeldReq (setReqs s c.dst (((reqsOf s c.dst).map clr).filter fun x => !(answers c x && fld x.msg.tspec 16 8 = 0))) c.dst

/-- ACK (R259, R265). -/
def execAck (ring : RingId) (c : CtlMsg) (s : State) : Host.Outcome State Fault Refusal :=
  .next (replyHead s ring c 29 (answeredTen s c) fun s =>
    let q := reqsOf s c.dst
    if fld c.arg 20 1 = 1 then answerTarget s c
    else if aReason c = 1 then
      setReqs s c.dst (q.map fun x => if answers c x then { x with held := true } else x)
    else releaseHeldReq (setReqs s c.dst (eraseIdx1 q (answers c))) c.dst)

/-- A NACK of a descriptor: its credit comes back, and CLOSED closes the channel for the beat (R194, R195). -/
def nackDesc (s : State) (i : Nat) (c : CtlMsg) : State :=
  let s := modTile s i fun t =>
    let x := sendOf t (aCh c)
    setSend t (aCh c) { x with credits := min 16 (x.credits + 1), sent := x.sent - 1 }
  if aReason c = nackClosed then closedSend s i (aCh c) else s

/-- NACK (R259): one target's of a multicast ends the sending to that target alone, the others are still to acknowledge (DESIGN
CHOICE, log entry 82). -/
def execNack (ring : RingId) (c : CtlMsg) (s : State) : Host.Outcome State Fault Refusal :=
  .next (replyHead s ring c 29 (answeredTen s c) fun s =>
    let q := reqsOf s c.dst
    let s' := setReqs s c.dst (eraseIdx1 q (answers c))
    if fld c.arg 20 1 = 1 then answerTarget s c
    else match q.find? (answers c), epSite c.dst with
    | some x, some i => if x.msg.dtype = .desc then nackDesc s' i c else s'
    | some x, none => releaseHeldReq (creditBack s' x.msg) c.dst
    | none, _ => releaseHeldReq s' c.dst)

/-- A CREDIT of a tile's receive channel for an agent, which goes on with what it held back (R262). -/
def agentCredited (s : State) (c : CtlMsg) : State :=
  let key := 2 ^ 40 + (c.dst.toNat * 2 ^ 16 + c.src.toNat) * 32 + fld c.arg 0 5
  let x := SMap.get {} s.agentOut key
  let out := (x.sent + 256 - fld c.arg 5 8) % 256
  if out ≤ 16 then
    releaseHeldReq { s with agentOut := SMap.put {} s.agentOut key { x with credits := max x.credits (16 - out) } } c.dst
  else s

/-- CREDIT (R262). -/
def execCredit (ring : RingId) (c : CtlMsg) (s : State) : Host.Outcome State Fault Refusal :=
  .next (replyHead s ring c 13 (ringTen s (fieldRing (epField c.src))) fun s =>
    match epSite c.dst with
    | none => agentCredited s c
    | some i => modTile s i fun t =>
      let ch := fld c.arg 0 5
      let x := sendOf t ch
      let out := (x.sent + 256 - fld c.arg 5 8) % 256
      if out ≤ 16 then setSend t ch { x with credits := max x.credits (16 - out) } else t)

/-- An agent's CREDITs toward a tile that probes it: one for each send channel that has sent to the agent, for RCH is 0 on
all of them (DEDUCED, log entry 80). -/
def probeAgent (s : State) (c : CtlMsg) : State :=
  match epSite c.src with
  | none => s
  | some i => (List.range 32).foldl (fun s ch =>
      let key := (c.dst.toNat * 2 ^ 16 + c.src.toNat) * 32 + ch
      if SMap.get 0 s.agentSeq key = 0 then s
      else
        let r := fieldRing (siteField i)
        let ngen := match ringTen s r with | some n => (tenOf s n).gen.toNat | none => 0
        sendCtl s { ctype := .credit, src := c.dst, dst := c.src
                    arg := BitVec.ofNat 76 (ch + SMap.get 0 s.agentTaken key % 256 * 2 ^ 5 + (ringOf s r).gen.toNat * 2 ^ 13
                      + (tileOf s i).gen.toNat * 2 ^ 21 + ngen * 2 ^ 29) }) s

/-- PROBE: the receiving endpoint, a tile's or an agent's, answers with a CREDIT (R262). -/
def execProbe (site : SiteId) (c : CtlMsg) (s : State) : Host.Outcome State Fault Refusal :=
  .next (
    if darkEp s c.dst then s
    else if 72 ≤ epNo c.dst then probeAgent s c
    else sendCredit s site (fld c.arg 0 5))

/-- SEND_PROBE: a SEND blocked for RETRY_NS asks for its credits (R262). -/
def execSendProbe (site : SiteId) (ch : ChId) (s : State) : Host.Outcome State Fault Refusal :=
  .next (
    let t := tileOf s site
    let c := sendOf t ch
    let blocked := (waitRecs t).any fun w => w.kind = 1 && w.ch = (ch : Nat) && w.unit ≤ 1 && w.since + s.box.set.retryNs ≤ s.time.uptime
    match (if blocked && c.credits = 0 then ringTen s (siteRing site) else none) with
    | none => s
    | some n => match sendTarget s n c with
      | some dst => if dark s (siteRing site) then s else sendCtl s {
                                ctype := .probe, src := epAddr (siteField site) (siteNo site), dst := dst
                                arg := BitVec.ofNat 76 c.dstCh.toNat }
      | none => s)

/-! ### Retries (R260) -/

/-- The target of a request that is never answered is reported: to the ring's controller, or by an agent of the ply to the
tenancy that owns the request (R260). -/
def reportTarget (s : State) (d : DataMsg) : State :=
  if epNo d.src < 74 then
    modRing s (fieldRing (epField d.src)) fun x => { x with reported := NSet.add x.reported d.dst.toNat }
  else modTen s d.ten.toNat fun x => { x with reported := NSet.add x.reported d.dst.toNat }

/-- A descriptor that an agent has held back for RETRY_NS without a credit asks its receiver for one (R262). -/
def agentProbe (s : State) (src seq : BitVec 16) : State :=
  match (reqsOf s src).find? fun x =>
      x.msg.seq = seq && !x.sent && !hasCredit s x.msg && decide (x.sentAt + x.retryNs ≤ s.time.uptime) with
  | some x => sendCtl s { ctype := .probe, src := src, dst := x.msg.dst, arg := BitVec.ofNat 76 x.msg.rch }
  | none => s

/-- REQUEST_RESEND: the same bits again, or after RETRY_MAX resends the record and the report. -/
def execRequestResend (src : BitVec 16) (seq : BitVec 16) (s : State) : Host.Outcome State Fault Refusal :=
  .next (
    let q := reqsOf s src
    match (if darkEp s src then none else q.find? fun x => x.msg.seq = seq && !x.held && x.sent && x.sentAt + x.retryNs ≤ s.time.uptime) with
    | none => if darkEp s src then s else agentProbe s src seq
    | some x =>
      if x.resends < x.retryMax then
        let y := { x with sentAt := s.time.uptime, resends := x.resends + 1 }
        let s := setReqs s src (q.map fun z => if z = x then y else z)
        launch s x.msg
      else
        let s := reportTarget (releaseHeldReq (setReqs s src (eraseIdx1 q (fun z => decide (z = x)))) src) x.msg
        match epSite src with
        | some i => evTile s i 1 0x0302 x.msg.dst.toNat
        | none => evField s (epField src) 1 0x0302 x.msg.dst.toNat)

/-! ### Urgent control (R270) -/

/-- ABORT is delivered to a ring's controller (log entry 19). -/
def execAbort (ring : RingId) (c : CtlMsg) (s : State) : Host.Outcome State Fault Refusal :=
  .next (if dark s ring || c.ctype ≠ .abort then s else modRing s ring fun x => { x with lastAbort := some c })

/-- RELEASE is delivered to a ring's controller (log entry 19). -/
def execRelease (ring : RingId) (c : CtlMsg) (s : State) : Host.Outcome State Fault Refusal :=
  .next (if dark s ring || c.ctype ≠ .release then s else modRing s ring fun x => { x with lastRelease := some c })

/-- ARG of ABORT, RELEASE and HEARTBEAT (R245): tenancy, beat number, generations of the ring that sends, and CODE, which the
spec defines for none of them: a free value. -/
def urgArg (s : State) (r : Nat) : BitVec 76 :=
  let n := ringTen s r
  let beat := match ringRun s r with | some (_, u) => u.sentBeat | none => 0
  BitVec.ofNat 76 (n.getD 0xFF % 2 ^ 8 + beat % 2 ^ 32 * 2 ^ 8
    + (match n with | some k => (tenOf s k).gen.toNat | none => 0) * 2 ^ 40 + (ringOf s r).gen.toNat * 2 ^ 48
    + (Config.urgentCode r).toNat * 2 ^ 56)

/-- ABORT before RELEASE before HEARTBEAT. -/
def urgRank (c : CtlMsg) : Nat := match c.ctype with | .abort => 0 | .release => 1 | _ => 2

/-- A ring controller injects the first of its urgent packets, no sooner than 353 cc after the one before. -/
def pumpUrgent (s : State) (r : Nat) : State :=
  let x := ringOf s r
  let first := x.urgQ.foldl (fun (best : Option CtlMsg) c => match best with
    | some b => if urgRank c < urgRank b then some c else some b
    | none => some c) none
  match first with
  | none => s
  | some c =>
    let soon : Bool := match x.urgAt with | some t => decide (s.time.uptime < t + nsOfCc s 353) | none => false
    if dark s r || x.ctlDead || soon then s
    else sendCtl (setRing s r { x with urgQ := eraseIdx1 x.urgQ (fun d => decide (d = c)), urgAt := some s.time.uptime }) c

/-- A ring's controller sends its HEARTBEAT to its ply's Ringmaster (R297). -/
def sendHeartbeat (s : State) (r : Nat) : State :=
  pumpUrgent (modRing s r fun x => { x with urgQ := x.urgQ ++
    [{ ctype := .heartbeat, src := controllerEp r, dst := ringmasterEp (ringPly r), arg := urgArg s r }] }) r

end Sys2Proof.Machine
end

