-- ==== Sys2Proof/Machine/Dma.lean ====
section
/-! DEFINITION. The far-DMA engines (spec/08_memory_tiers.md R225 to R232, R234). -/

namespace Sys2Proof.Machine
open Sys2Proof

/-! ### The descriptor (R230) -/

def jOp (d : BitVec 512) : Nat := fld d 0 8
def jIf (d : BitVec 512) : Nat := fld d 8 4
def jOf (d : BitVec 512) : Nat := fld d 12 4
def jDeadline (d : BitVec 512) : Nat := fld d 16 8
def jLen (d : BitVec 512) : Nat := fld d 32 32
def jSrc (d : BitVec 512) : Nat := fld d 64 64
def jDst (d : BitVec 512) : Nat := fld d 128 64
def jAux (d : BitVec 512) : Nat := fld d 192 48

/-- An endpoint: NEAR or WINDOW with its Reserved bits zero. -/
def endOk (e : Nat) : Bool :=
  match fldN e 0 2 with
  | 0 => fldN e 32 32 = 0 && decide (fldN e 2 3 ≤ 5)
  | 1 => fldN e 50 14 = 0
  | _ => false

/-- Format rules of a descriptor. -/
def jobOk (d : BitVec 512) : Bool :=
  fld d 24 8 = 0 && fld d 240 16 = 0 && fld d 324 188 = 0 && decide (2 ≤ jDeadline d) && decide (1 ≤ jLen d) &&
  decide (jLen d ≤ 2097152) && endOk (jSrc d) && endOk (jDst d) && inflectOk (jOp d) (jIf d) (jOf d)

/-! ### Ranges -/

/-- Sentence virtual ring whose far home holds a stack. -/
def stackVring (x : Tenancy) (st : Nat) : Nat :=
  match x.sentence with
  | some y => (y.farHome.findIdx? fun r => r = stackRing st).getD 0
  | none => 0

/-- Byte k of an endpoint as a Module Address. -/
def endAddr (x : Tenancy) (st e k : Nat) : Option Nat :=
  if fldN e 0 2 = 0 then
    let o := fldN e 10 22 * 512 + k
    viewAddr x { vring := stackVring x st, vfield := fldN e 2 3, ch := fldN e 5 5, gran := o / granBytes } (o % granBytes)
  else match winAt x (fldN e 2 48) with
    | some w => winAddr x w (fldN e 2 48 + k)
    | none => none

/-- An endpoint is a far window granule. -/
def endFar (x : Tenancy) (st e : Nat) : Bool :=
  fldN e 0 2 = 1 && (match endAddr x st e 0 with | some a => decide (a / 2 ^ 60 = 1) | none => false)

/-- Status that a range of an endpoint leads to, 0 where it is in order (R205, R230, R232). RANGE answers a far range that
leaves its granule and a write that R205 forbids too, though R230 lists both among the rules of the format (DESIGN CHOICE,
log entry 80). -/
def endStatus (s : State) (n st e len : Nat) (write : Bool) : Nat :=
  let x := tenOf s n
  if fldN e 0 2 = 0 then
    let o := fldN e 10 22 * 512
    let g₀ := o / granBytes
    let g₁ := (o + max 1 len - 1) / granBytes
    let use (g : Nat) : GranUse :=
      granUse x { vring := stackVring x st, vfield := fldN e 2 3, ch := fldN e 5 5, gran := g }
    if g₁ ≤ 1022 && (List.range (g₁ + 1 - g₀)).all fun k => use (g₀ + k) = .free || use (g₀ + k) = .spill then 0 else 5
  else match winAt x (fldN e 2 48) with
    | none => 3
    | some w =>
      if !(if write then mayWrite .dma w.attr else mayRead .dma w.attr) then 8
      else if !write && w.attr = .spill && !tagsOk s x w (fldN e 2 48) len then 8
      else if winEnd w < fldN e 2 48 + len then 5
      else match winAddr x w (fldN e 2 48) with
        | some a =>
          if a / 2 ^ 60 = 1 && (fldN a 58 2 * 32 + fldN a 53 5 ≠ st || granBytes < fldN e 2 21 + len) then 5 else 0
        | none => 5

/-- Bytes of an endpoint with their poisoned lanes. -/
def endSource (s : State) (addr : Nat → Option Nat) (len : Nat) : Source :=
  { w := leNat ((List.range len).map fun k => match addr k with | some a => memByte s a | none => 0)
    len := len
    psn := lanesBad s addr len }

/-- Write one piece of a result at an endpoint, 64-byte words at a time. -/
def writePiece (s : State) (addr : Nat → Option Nat) (p : Piece) : State :=
  let lanes := p.lanes
  ((chunks 8 p.len p.bytes).zipIdx).foldl (fun s (b, k) => match addr (p.at_ + 8 * k) with
    | some a => placeWrite s a b (if lanes.contains k then [0] else [])
    | none => s) s

/-! ### Completion descriptors (R232, R391) -/

/-- Send a descriptor from an agent to a receive channel of a virtual tile, under the agent's identity (R194); the limits of
R259 may hold it back. -/
def agentSend (s : State) (src : BitVec 16) (n vr vf vt ch : Nat) (w : Nat) (who : Nat) : State :=
  match vSite s n vr vf vt with
  | none => s
  | some j =>
    let dst := epAddr (siteField j) (siteNo j)
    let key := 2 ^ 40 + (src.toNat * 2 ^ 16 + dst.toNat) * 32 + ch
    let seq := SMap.get 0 s.reqSeq key
    let full := fillDesc w seq (tileOf s j).gen.toNat (tenOf s n).epoch.toNat 0
    let m := { agentPkt s src n .desc dst full with seq := BitVec.ofNat 16 (seq % 256), rch := ch, who := who }
    agentReq { s with reqSeq := SMap.put 0 s.reqSeq key (seq + 1) } m

def completionWord (len tag status : Nat) : Nat := len % 2 ^ 24 * 2 ^ 8 + (tag % 2 ^ 48 + status * 2 ^ 48) * 2 ^ 128

/-! ### Commands (R229, R231, R232) -/

/-- DMA_DESCRIPTOR: arrival at the engine. -/
def execDmaDescriptor (stack : StackId) (d : DataMsg) (s : State) : Host.Outcome State Fault Refusal :=
  .next (
    match ringTen s (fieldRing (epField d.src)) with
    | none => answer s d true nackClosed
    | some n =>
      if d.epoch ≠ (tenOf s n).epoch then
        modRing s (stackRing stack) fun x => { x with cntEpoch := sat 16 (x.cntEpoch + 1) }
      else enterPool s (stackRing stack) (384 + stackTrunk stack) d fun s => agentArrive s d fun s d =>
        let j : DmaJob := { desc := BitVec.ofNat 512 (leNat d.payload), msg := d, beat := descBeat s n d }
        answer (modStack s stack fun x => { x with queue := x.queue ++ [j] }) d false 0)

/-- Index of the eligible descriptor with the earliest deadline, first arrived on ties. -/
def pickJob (q : List DmaJob) : Option DmaJob :=
  q.foldl (fun best j =>
    if !j.eligible then best
    else match best with
      | none => some j
      | some b => if j.beat + jDeadline j.desc < b.beat + jDeadline b.desc then some j else best) none

/-- Byte k of what AUX names. -/
def auxAddr (x : Tenancy) (d : BitVec 512) (k : Nat) : Option Nat :=
  match winAt x (jAux d) with
  | some w => winAddr x w (jAux d + k)
  | none => none

/-- Status that the range of AUX leads to, 0 where it is in order: the fence refuses a window that is not open, one whose
attribute forbids the read, and a range beyond its end, as it does for an endpoint (R232; DEDUCED, log entry 80). -/
def auxStatus (s : State) (n : Nat) (d : BitVec 512) (len : Nat) : Nat :=
  let x := tenOf s n
  match winAt x (jAux d) with
  | none => 3
  | some w =>
    if !mayRead .dma w.attr || (w.attr = .spill && !tagsOk s x w (jAux d) len) then 8
    else if winEnd w < jAux d + len then 5 else 0

/-- A descriptor uses the LX14 path. -/
def usesLex (d : BitVec 512) : Bool := (jIf d = 0xC || jOf d = 0xC) && jobOk d && (jOp d = 1 || jOp d = 2)

/-- A lexicon read from memory. -/
def readLex (s : State) (n at_ : Nat) (addr : Nat → Option Nat) : State × Lexicon :=
  let v := endSource s addr 65536
  (noteRange s addr 65536, ⟨n, at_, v.w, v.psn⟩)

/-- The lexicon that a descriptor needs: the resident one, or loaded from memory into the idle buffer, which a running
descriptor must not use any more (R234); none while it does. -/
def loadLex (s : State) (st n : Nat) (d : BitVec 512) : Option (State × Lexicon) :=
  let x := stackOf s st
  let used (l : Lexicon) : Bool := x.active.any fun j => j.lex = some l
  let resident : Bool := match x.lexicon with | some l => l.ten = n && l.at_ = jAux d | none => false
  if resident then x.lexicon.map fun l => (s, l)
  else if x.lexicon2.any used then none
  else
    let p := readLex s n (jAux d) (auxAddr (tenOf s n) d)
    some (modStack p.1 st fun x => { x with lexicon := some p.2, lexicon2 := x.lexicon }, p.2)

/-- Rows of near and far memory that hold what a beat has written which is not committed. -/
def provRows (s : State) (n : Nat) : List Nat :=
  match (tenOf s n).run with
  | none => []
  | some u => (u.nearOld.filter fun o => match u.lastCommitted with | some c => decide (c < o.w) | none => true).map (·.row)

/-- A range holds what is not committed yet. -/
def provRange (s : State) (n : Nat) (addr : Nat → Option Nat) (len : Nat) : Bool :=
  !(provRows s n).isEmpty && decide (0 < len) && (List.range (ceilDiv len rowBytes + 1)).any fun k =>
    match addr (min (k * rowBytes) (len - 1)) with
    | some a => (provRows s n).contains (a / rowBytes * rowBytes)
    | none => false

/-- DMA_START: it leaves the queue, its credit returns, and the lexicon it names becomes resident (R234); while both lexicon
buffers are in use by others, or the lexicon is not committed (R38), it waits. A lexicon that the fence refuses is not loaded;
the completion says so. -/
def execDmaStart (stack : StackId) (s : State) : Host.Outcome State Fault Refusal :=
  .next (
    match pickJob (stackOf s stack).queue with
    | none => s
    | some j =>
      let out (x : Stack) : List DmaJob := eraseIdx1 x.queue fun k => decide (k = j)
      match (if usesLex j.desc then (ringTen s (fieldRing (epField j.msg.src))).filter fun n => auxStatus s n j.desc 65536 = 0
          else none) with
      | some n =>
        if provRange s n (auxAddr (tenOf s n) j.desc) 65536 then s
        else match loadLex s stack n j.desc with
        | none => s
        | some (s, l) => agentCredit (modStack s stack fun x => { x with
            queue := out x, active := x.active ++ [{ j with lex := some l }] }) j.msg
      | none => agentCredit (modStack s stack fun x => { x with queue := out x, active := x.active ++ [j] }) j.msg)

/-- A write of an endpoint sets the writer tags of the SPILL granules it reaches (R205). -/
def setSpillTags (s : State) (n st e len : Nat) : State :=
  let x := tenOf s n
  if fldN e 0 2 = 0 then
    let o := fldN e 10 22 * 512
    let v (k : Nat) : VGranule :=
      { vring := stackVring x st, vfield := fldN e 2 3, ch := fldN e 5 5, gran := o / granBytes + k }
    (List.range (ceilDiv (o % granBytes + max 1 len) granBytes)).foldl (fun s k =>
      if granUse x (v k) ≠ .spill then s
      else match viewAddr x (v k) 0 with | some a => setSpillTag s a (runTag x) | none => s) s
  else match winAt x (fldN e 2 48) with
    | some w => if w.attr = .spill then setTags s x w (fldN e 2 48) len else s
    | none => s

/-- The first run of the work beat by whose end a descriptor is due has ended (R232). -/
def pastDue (u : Run) (due : Nat) : Bool :=
  decide (due < u.sentBeat) || u.history.any (fun h => decide (due < h.beat)) ||
  (u.history.any (fun h => h.beat = due) && !(u.sentBeat = due && u.phase = .work))

/-- Bytes of what AUX names that a descriptor reads: the 64 KiB of a lexicon, or an anchor of 2 bytes for each partial. -/
def auxLen (d : BitVec 512) (sv : Source) : Nat :=
  match jOp d with
  | 3 => jLen d / 16
  | 4 => 2 * ((unpack ⟨0, 0, []⟩ sv).map fun p => p.codes.length).sum
  | _ => 65536

/-- The pieces of a descriptor's result, with the source and the tables as they stand. -/
def jobPieces (s : State) (n st : Nat) (j : DmaJob) : List Piece :=
  let d := j.desc
  let x := tenOf s n
  let sv := endSource s (endAddr x st (jSrc d)) (jLen d)
  let aux : Source := match j.lex with
    | some l => ⟨l.w, 65536, l.psn⟩
    | none => endSource s (auxAddr x d) (auxLen d sv)
  inflect (jOp d) (jIf d) (jOf d) aux sv

/-- The operation uses what AUX names. -/
def usesAux (d : BitVec 512) : Bool := decide (3 ≤ jOp d) || (jOp d ≠ 0 && (jIf d = 0xC || jOf d = 0xC))

/-- A source of a descriptor, near or a far SPILL window, or its table holds what a beat that is not committed has written: the
engine reads it only after the commit, so that no MASTER window takes provisional data (R38, R231). -/
def uncommitted (s : State) (n st : Nat) (j : DmaJob) : Bool :=
  let x := tenOf s n
  let d := j.desc
  provRange s n (endAddr x st (jSrc d)) (if fldN (jSrc d) 0 2 ≤ 1 then jLen d else 0) ||
  (usesAux d && j.lex.isNone && !(provRows s n).isEmpty &&
    provRange s n (auxAddr x d) (auxLen d (endSource s (endAddr x st (jSrc d)) (jLen d))))

def spanOf (ps : List Piece) : Nat := ps.foldl (fun m p => max m (p.at_ + p.len)) 0

/-- A far endpoint has a piece that goes to a pseudo-channel in retraining: that piece is held back (R225, R227). -/
def pieceWaits (s : State) (n st : Nat) (j : DmaJob) : Bool :=
  let x := tenOf s n
  let hits (e len : Nat) : Bool := endFar x st e && (match endAddr x st e 0 with
    | some a => (List.range (min 32 (ceilDiv (a % 256 + len) 256))).any fun k =>
        (stackOf s st).retraining.contains ((a / 256 + k) % 32)
    | none => false)
  !(stackOf s st).retraining.isEmpty && jobOk j.desc &&
    (hits (jSrc j.desc) (jLen j.desc) || hits (jDst j.desc) (spanOf (jobPieces s n st j)))

/-- What a descriptor does: final status, bytes written, and the state. A result element is poisoned that depends on a poisoned
word of the source, of the lexicon or of the anchor table (R233). A completion that is poisoned and late is POISON, and is not
counted as LATE (DESIGN CHOICE, log entry 80). -/
def runJob (s : State) (n st : Nat) (j : DmaJob) : State × Nat × Nat :=
  let d := j.desc
  let x := tenOf s n
  let src := endAddr x st (jSrc d)
  let dst := endAddr x st (jDst d)
  let toFar := endFar x st (jDst d)
  let fromFar := endFar x st (jSrc d)
  let dir := match jOp d with
    | 0 => true
    | 1 | 4 => fromFar
    | _ => toFar
  if !jobOk d then (s, 4, 0)
  else
    let e₁ := endStatus s n st (jSrc d) (jLen d) false
    if e₁ ≠ 0 then (s, e₁, 0)
    else
      let auxUsed : Bool := usesAux d
      let sv := endSource s src (jLen d)
      let ps := jobPieces s n st j
      let span := spanOf ps
      let e₃ := if auxUsed && j.lex.isNone then auxStatus s n d (auxLen d sv) else 0
      let e₂ := if e₃ ≠ 0 then e₃ else endStatus s n st (jDst d) span true
      if e₂ ≠ 0 then (s, e₂, 0)
      else if toFar = fromFar || !dir then (s, 4, 0)
      else
        let s := noteRange s src (jLen d)
        let s := if auxUsed && j.lex.isNone then noteRange s (auxAddr x d) (auxLen d sv) else s
        let bad := !sv.psn.isEmpty || ps.any fun p => p.codes.any (·.2)
        let s := if bad then evRing s (stackRing st) 1 0x0107 (fld d 256 32) else s
        let spill := fldN (jDst d) 0 2 = 0 ||
          (match winAt x (fldN (jDst d) 2 48) with | some w => w.attr = .spill | none => false)
        if bad && !spill then (s, 2, 0)
        else
          let s := ps.foldl (fun s p => writePiece s dst p) s
          let s := setSpillTags s n st (jDst d) span
          let late : Bool := match x.run with
            | some u => pastDue u (j.beat + jDeadline d)
            | none => false
          (s, if bad then 2 else if late then 1 else 0, ps.foldl (fun m p => m + p.len) 0)

/-- A near endpoint whose ring is dark, or whose crossbar's service port serves writes of the commit queue first
(R23, R224). -/
def portHeld (s : State) (n st : Nat) (j : DmaJob) : Bool :=
  [jSrc j.desc, jDst j.desc].any fun e => match endAddr (tenOf s n) st e 0 with
    | some a => decide (a / 2 ^ 60 = 0) && (dark s (maRing a) || !(dueWrites s (maRing a)).isEmpty)
    | none => false

/-- A running descriptor cannot end yet: its source is not committed, a piece is held back, or its near side does not
serve it. -/
def jobHeld (s : State) (st : Nat) (j : DmaJob) : Bool :=
  match ringTen s (fieldRing (epField j.msg.src)) with
  | some n => uncommitted s n st j || pieceWaits s n st j || portHeld s n st j
  | none => false

/-- DMA_COMPLETION: the first running descriptor that can end writes its last byte and its completion is sent. -/
def execDmaCompletion (stack : StackId) (s : State) : Host.Outcome State Fault Refusal :=
  .next (
    match (stackOf s stack).active.find? fun j => !jobHeld s stack j with
    | none => s
    | some j =>
      let s := modStack s stack fun x => { x with active := eraseIdx1 x.active fun k => decide (k = j) }
      match ringTen s (fieldRing (epField j.msg.src)) with
      | none => s
      | some n =>
        let (s, status, len) := runJob s n stack j
        let s := if status = 1 then modTen s n fun x => { x with dmaLate := x.dmaLate + 1 } else s
        if j.msg.epoch ≠ (tenOf s n).epoch then s
        else agentSend s (trunkEp stack) n (fld j.desc 313 6) (fld j.desc 310 3) (fld j.desc 304 6) (fld j.desc 319 5)
          (completionWord len (fld j.desc 256 48) status) (stackVring (tenOf s n) stack))

end Sys2Proof.Machine
end

