-- ==== Sys2Proof/Machine/Stream.lean ====
section
/-! DEFINITION. Stream ports and the Aitum Stream Protocol: training, frames, credits and retry, HELLO, ingress and
egress (spec/14_stream_ports.md R374 to R388, R393, R396). A received frame is acknowledged and its units are
freed at once (log entry 20). -/

namespace Sys2Proof.Machine
open Sys2Proof

/-! ### Frames (R378 to R380) -/

def fType (f : Frame) : Nat := fld f.hdr 0 4
def fVl (f : Frame) : Nat := fld f.hdr 4 3
def fEom (f : Frame) : Bool := bit f.hdr 7
def fLsn (f : Frame) : Nat := fld f.hdr 16 16
def fStream (f : Frame) : Nat := fld f.hdr 48 16
def fOffset (f : Frame) : Nat := fld f.hdr 64 32
def fMsg (f : Frame) : Nat := fld f.hdr 96 16

/-- Header of a frame. -/
def mkFrame (type vl : Nat) (eom : Bool) (lsn stream offset msg : Nat) (payload : List Byte) : Frame :=
  { hdr := BitVec.ofNat 128 (type + vl * 2 ^ 4 + b2n eom * 2 ^ 7 + 2 ^ 8 + lsn % 2 ^ 16 * 2 ^ 16
      + payload.length * 2 ^ 32 + stream % 2 ^ 16 * 2 ^ 48 + offset % 2 ^ 32 * 2 ^ 64 + msg % 2 ^ 16 * 2 ^ 96)
    payload := payload }

/-- Retried types: DATA, COLL_START, COLL_DATA and ABORT. -/
def retried (type : Nat) : Bool := type = 0 || type = 5 || type = 6 || type = 7

/-- A frame as R379 and R380 allow it. -/
def frameOk (f : Frame) : Bool :=
  fld f.hdr 12 4 = 0 && fld f.hdr 46 2 = 0 && fld f.hdr 112 16 = 0 && fld f.hdr 8 4 = 1 &&
  (match fType f with
   | 0 => decide (2 ≤ fVl f)
   | 1 => true
   | 2 | 3 | 4 | 7 => fVl f = 0
   | 5 | 6 => fVl f = 1
   | _ => false)

/-- Units of a retried frame (R381). -/
def frameUnits (f : Frame) : Nat := ceilDiv (16 + f.payload.length) 64

/-- Receive buffer of each VL in 64-byte units. -/
def vlBuffer (vl : Nat) : Nat := if vl = 0 then 512 else 4096

/-! ### The form of a frame on the fibre (R378) -/

/-- The most significant byte first, as the headers of Ethernet, IPv6 and UDP are. -/
def beBytes (n v : Nat) : List Byte := (leBytes n v).reverse

/-- The ones' complement checksum of 16-bit words; a last odd byte is the upper half of its word. -/
def onesSum (bs : List Byte) : Nat :=
  let sum := ((chunks 2 bs.length bs).map fun w => leNat (padTo 0 2 w).reverse).foldl (fun a b =>
    if a + b < 65536 then a + b else a + b - 65535) 0
  65535 - sum

/-- The bytes of a frame of a port: header, payload and CRC-32, or header and payload behind an Ethernet II, an IPv6 and a UDP
header, with the Ethernet check sequence in place of the CRC-32. UDP_PORT is both ports, and the hop limit is free (log
entry 82). -/
def wireForm (s : State) (x : SPort) (f : Frame) : List Byte :=
  let body := leBytes 16 f.hdr.toNat ++ f.payload
  if x.encap = 0 then body ++ leBytes 4 (crc32Ieee body).toNat
  else
    let len := 8 + body.length
    let ends := padTo 0 32 x.ipv6
    let port := beBytes 2 s.box.set.udpPort
    let sum := onesSum (ends ++ beBytes 4 len ++ beBytes 4 17 ++ port ++ port ++ beBytes 2 len ++ [0, 0] ++ body)
    let macs := padTo 0 12 x.mac
    let eth := macs.drop 6 ++ macs.take 6 ++ beBytes 2 0x86DD ++
      beBytes 4 (6 * 2 ^ 28) ++ beBytes 2 len ++ [17, Config.hopLimit] ++ ends ++
      port ++ port ++ beBytes 2 len ++ beBytes 2 (if sum = 0 then 65535 else sum) ++ body
    eth ++ leBytes 4 (crc32Ieee eth).toNat

/-! ### Sending -/

/-- A frame goes out on the fibre, in its `wireForm`. -/
def emit (s : State) (p : Nat) (f : Frame) : State := modSport s p fun x => { x with tx := x.tx ++ [f] }

def sendAck (s : State) (p : Nat) : State := emit s p (mkFrame 2 0 false ((sportOf s p).lsnRx + 65535) 0 0 0 [])
def sendNak (s : State) (p : Nat) : State := emit s p (mkFrame 3 0 false (sportOf s p).lsnRx 0 0 0 [])

/-- Cumulative units freed, VL 0 first (R380). -/
def sendVlCredit (s : State) (p : Nat) : State :=
  emit s p (mkFrame 1 0 false 0 0 0 0
    ((List.range 8).map fun v => leBytes 4 (SMap.get 0 (sportOf s p).freedVl v)).flatten)

/-- Module identity (R413): SERIAL below PRODUCT_CODE. -/
def moduleId (s : State) : Nat := s.fused.serial.toNat + productCode s.fused.variant * 2 ^ 32

/-- HELLO (R383). -/
def sendHello (s : State) (p : Nat) : State :=
  let w := 1 + 2 * 2 ^ 8 + (sportOf s p).frameMax * 2 ^ 16 + moduleId s * 2 ^ 64 + p * 2 ^ 128
    + packN 16 ((List.range 8).map vlBuffer) * 2 ^ 256
  emit s p (mkFrame 4 0 false 0 0 0 0 (leBytes 48 w))

/-- Room in the retry buffer and among the outstanding LSNs (R381). -/
def retryRoom (x : SPort) (f : Frame) : Bool :=
  decide (x.retryBuf.foldl (fun n g => n + 16 + g.payload.length) (16 + f.payload.length) ≤ 2 * 2 ^ 20) &&
  decide (x.retryBuf.length < 32768)

/-- A VL holds the units that a frame needs. -/
def vlRoom (x : SPort) (f : Frame) : Bool :=
  decide (SMap.get 0 x.txSent (fVl f) + frameUnits f ≤ SMap.get 0 x.txLimit (fVl f))

/-- Number a retried frame, keep it for link retry and send it. -/
def sendOne (x : SPort) (f : Frame) : SPort :=
  let g : Frame := { f with hdr := f.hdr ||| BitVec.ofNat 128 (x.lsnTx % 2 ^ 16 * 2 ^ 16) }
  { x with outQ := eraseIdx1 x.outQ (fun h => decide (h = f)), tx := x.tx ++ [g], retryBuf := x.retryBuf ++ [g]
           lsnTx := (x.lsnTx + 1) % 65536
           txSent := SMap.put 0 x.txSent (fVl f) (SMap.get 0 x.txSent (fVl f) + frameUnits f) }

/-- A frame may go now: its VL has the units and the retry buffer has room. -/
def mayGo (x : SPort) (f : Frame) : Bool := vlRoom x f && retryRoom x f

/-! ### Egress (R388) -/

/-- A WWRITE that has not been applied yet touches a range. -/
def rangePending (s : State) (n ta len : Nat) : Bool :=
  let hit (d : DataMsg) : Bool :=
    d.ten.toNat = n && d.dtype = .wwrite && rangesMeet (ta, ta + len) (reqTa d, reqTa d + d.payload.length)
  (boundRings s n).any fun r =>
    (ringOf s r).commitQ.any (fun c => hit c.msg) || (queueOf (ringOf s r) 386).any hit

/-- The lexicon of a port's LX14 path: the resident one of its two buffers, or read from memory into the idle one (R234). -/
def portLex (s : State) (p n : Nat) (b : Binding) : State × Source :=
  let x := tenOf s n
  match (sportOf s p).lexicons with
  | l :: _ => if l.ten = n && l.at_ = b.aux then (s, ⟨l.w, 65536, l.psn⟩) else fresh x
  | [] => fresh x
where
  fresh (x : Tenancy) : State × Source :=
    let q := readLex s n b.aux fun k => match winAt x b.aux with | some w => winAddr x w (b.aux + k) | none => none
    (modSport q.1 p fun y => { y with lexicons := q.2 :: y.lexicons.take 1 }, ⟨q.2.w, 65536, q.2.psn⟩)

/-- The window that holds the range of a released descriptor: the OUTPUT window of its binding. -/
def egressWin (x : Tenancy) (d : Nat) (b : Binding) : Option Window :=
  (winFind x (fldN d 32 48) (dLen d)).filter fun w =>
    w.attr = .output && b.base ≤ fldN d 32 48 && fldN d 32 48 + dLen d ≤ b.base + b.granules * granBytes

/-- The bytes that a released descriptor sends, after the port's Inflector; none where its range is not, or no longer,
in the OUTPUT window of its binding. What the reads of memory count and report is noted (R211, R226). -/
def egressBytes (s : State) (p : Nat) (e : Egress) (b : Binding) : State × Option (List Byte) :=
  let d := e.msg.tspec.toNat
  let x := tenOf s e.ten
  let ta := fldN d 32 48
  let raw : State × Option Source :=
    if dPayload d then (s, some ⟨leNat e.msg.payload, e.msg.payload.length, e.msg.psn⟩)
    else match egressWin x d b with
      | some w => (noteRange s (fun k => winAddr x w (ta + k)) (dLen d),
          some ⟨leNat (winBytes s x w ta (dLen d)), dLen d, winPoison s x w ta (dLen d)⟩)
      | none => (s, none)
  match raw with
  | (s, none) => (s, none)
  | (s, some v) =>
    if b.op = 2 then
      let (s, lex) := if b.ofmt = 0xC then portLex s p e.ten b else (s, ⟨0, 0, []⟩)
      let ps := inflect 2 b.ifmt b.ofmt lex v
      (s, some (padTo 0 (spanOf ps) (ps.foldl (fun acc p => padTo 0 p.at_ acc ++ p.bytes) [])))
    else (s, some (leBytes v.len v.w))

/-- A released descriptor's bytes are read once: none while a write of its range is still to be applied (R39), and nothing
where its range is refused. -/
def egressReady (s : State) (p : Nat) (e : Egress) (b : Binding) : Option (State × Option (List Byte)) :=
  let d := e.msg.tspec.toNat
  match e.bytes with
  | some bs => some (s, some bs)
  | none => if !dPayload d && rangePending s e.ten (fldN d 32 48) (dLen d) then none else some (egressBytes s p e b)

/-- The withheld credits of a port that is UP and has room again go back, the oldest descriptor's first (R388). -/
def returnCredits (s : State) (p : Nat) : State :=
  if egressRoom (sportOf s p) then
    let due := (sportOf s p).egress.filter fun e => !e.credited
    due.foldl (fun s e => agentCredit s e.msg)
      (modSport s p fun x => { x with egress := x.egress.map fun e => { e with credited := true } })
  else s

/-- A released descriptor leaves the egress buffer; credits that were withheld go back. -/
def endEgress (s : State) (p : Nat) (e : Egress) : State :=
  let s := modSport s p fun x => { x with egress := eraseIdx1 x.egress fun d => decide (d = e) }
  returnCredits (if e.credited then s else agentCredit s e.msg) p

/-- The next frame of the oldest released descriptor on a VL, if it may go; `none` where nothing happens. -/
def sendEgress (s : State) (p v : Nat) : Option State :=
  let x := sportOf s p
  match x.egress.find? fun e => e.released && (match e.bind with | some b => b.vl = v | none => false) with
  | none => none
  | some e => match e.bind with
    | none => none
    | some b => match egressReady s p e b with
      | none => none
      | some (s, none) => some (endEgress s p e)
      | some (s, some bs) =>
        let x := sportOf s p
        let part := (bs.drop e.sent).take x.frameLimit
        let stream := fld e.msg.tspec 128 16
        let last := decide (bs.length ≤ e.sent + part.length)
        let msg := SMap.get 0 x.egressMsg stream
        let f := mkFrame 0 b.vl last 0 stream (fld e.msg.tspec 144 32 + e.sent) msg part
        if !mayGo x f then none
        else
          let y := { sendOne x f with rr := v }
          if last then some (endEgress (setSport s p { y with
            egressMsg := SMap.put 0 y.egressMsg stream ((msg + 1) % 65536) }) p e)
          else some (setSport s p { y with egress := y.egress.map fun d =>
            if d = e then { e with sent := e.sent + part.length, bytes := some bs } else d })

/-- The next frame on one of VL 1 to 7, if it may go: a queued one, or egress. -/
def sendOnVl (s : State) (p v : Nat) : Option State :=
  let x := sportOf s p
  match x.outQ.find? (fun f => fVl f = v) with
  | some f => if mayGo x f then some (setSport s p { sendOne x f with rr := v }) else none
  | none => sendEgress s p v

/-- VL 1 to 7 in the order of the round-robin. -/
def vlOrder (rr : Nat) : List Nat := (List.range 7).map fun k => (rr + k) % 7 + 1

/-- Send what may go, one frame at a time: VL 0 first, then VL 1 to 7 in turn (R381). -/
def pumpVls : Nat → State → Nat → State
  | 0, s, _ => s
  | n + 1, s, p =>
    let x := sportOf s p
    if x.st ≠ .up then s
    else match x.outQ.find? (fun f => fVl f = 0 && mayGo x f) with
      | some f => pumpVls n (setSport s p (sendOne x f)) p
      | none => match (vlOrder x.rr).findSome? (sendOnVl s p) with
        | some s => pumpVls n s p
        | none => s

/-- Send all that may go on a port. -/
def pumpPort (s : State) (p : Nat) : State := pumpVls 65536 s p

/-- Queue a retried frame and send what may go. -/
def sendRetried (s : State) (p : Nat) (f : Frame) : State :=
  pumpPort (modSport s p fun x => { x with outQ := x.outQ ++ [f] }) p

/-- Before a compute reset clears the near tier, released descriptors keep what they have still to send (R393). -/
def keepEgress (s : State) : State :=
  (List.range 32).foldl (fun s p => (sportOf s p).egress.foldl (fun s e => match e.bind with
    | some b =>
      if e.released && e.bytes.isNone then
        let q := egressBytes s p e b
        modSport q.1 p fun x => { x with egress := x.egress.map fun d => if d = e then { e with bytes := q.2 } else d }
      else s
    | none => s) s) s

/-! ### Receiving (R381) -/

/-- Add units to a table of cumulative counts. -/
def addUnits (m : List (Nat × Nat)) (v n : Nat) : List (Nat × Nat) := SMap.put 0 m v ((SMap.get 0 m v + n) % 2 ^ 32)

/-- Units of a delivered frame are freed and advertised; those of VL 1 to 7 are withheld during a compute reset
(R393). -/
def freeUnits (s : State) (p : Nat) (f : Frame) : State :=
  if s.box.state = .computeReset && fVl f ≠ 0 then
    modSport s p fun x => { x with withheld := addUnits x.withheld (fVl f) (frameUnits f) }
  else sendVlCredit (modSport s p fun x => { x with freedVl := addUnits x.freedVl (fVl f) (frameUnits f) }) p

/-- The end of a compute reset advertises what it withheld. -/
def advertise (s : State) (p : Nat) : State :=
  if (sportOf s p).withheld.isEmpty then s
  else sendVlCredit (modSport s p fun x => { x with
    freedVl := x.withheld.foldl (fun m q => addUnits m q.1 q.2) x.freedVl, withheld := [] }) p

/-- A retried frame that stays in the receive buffer: accepted in LSN order, its units not freed. -/
def rxHeld (s : State) (p : Nat) (f : Frame) : State :=
  let x := sportOf s p
  if x.st ≠ .up then s
  else if fLsn f = x.lsnRx then
    sendAck (modSport s p fun x => { x with
      lsnRx := (x.lsnRx + 1) % 65536, gap := false
      collHeld := if fType f = 0 then x.collHeld else x.collHeld ++ [f]
      dataHeld := if fType f = 0 then x.dataHeld ++ [(f, true)] else x.dataHeld }) p
  else if (x.lsnRx + 65536 - fLsn f) % 65536 ≤ 32768 then sendAck s p
  else if x.gap then s
  else sendNak (modSport s p fun x => { x with gap := true }) p

/-- A retried frame: delivered only in LSN order; an LSN ahead of it is a gap and gets one NAK, one behind it is
acknowledged again. -/
def rxRetried (s : State) (p : Nat) (f : Frame) (go : State → State) : State :=
  let x := sportOf s p
  if x.st ≠ .up then s
  else if fLsn f = x.lsnRx then
    freeUnits (sendAck (go (modSport s p fun x => { x with lsnRx := (x.lsnRx + 1) % 65536, gap := false })) p) p f
  else if (x.lsnRx + 65536 - fLsn f) % 65536 ≤ 32768 then sendAck s p
  else if x.gap then s
  else sendNak (modSport s p fun x => { x with gap := true }) p

/-- Frames up to an acknowledged LSN leave the retry buffer; progress resets the replay count. -/
def acked (x : SPort) (lsn : Nat) : SPort :=
  match x.retryBuf.findIdx? (fun f => fLsn f = lsn % 65536) with
  | some k => { x with retryBuf := x.retryBuf.drop (k + 1), lsnAcked := lsn % 65536, noProgress := 0 }
  | none => x

/-- A replay of every unacknowledged frame from the oldest. -/
def replayAll (x : SPort) : SPort :=
  { x with tx := x.tx ++ x.retryBuf, retries := x.retries + 1, noProgress := x.noProgress + 1 }

/-! ### Collectives that a port carries -/

def cNext (c : Coll) : Nat := fld c.desc 40 5
def cPrev (c : Coll) : Nat := fld c.desc 45 5
def cId (c : Coll) : Nat := fld c.desc 64 32

/-- Physical ports toward the successor and from the predecessor, by the map that LOAD took (R386). -/
def collPorts (s : State) (c : Coll) : Option Nat × Option Nat :=
  let phys (l : Nat) : Option Nat :=
    let q := match (tenOf s c.ten).sentence with
      | some y => SMap.get 0xFF y.portMap l
      | none => 0xFF
    if q < 32 then some q else none
  (phys (cNext c), phys (cPrev c))

def collUses (s : State) (c : Coll) (p : Nat) : Bool :=
  (collPorts s c).1 = some p || (collPorts s c).2 = some p

/-- Abort a collective: ABORT on every other port that it uses, its status and record (R391, R392). -/
def abortColl (s : State) (ply : Nat) (c : Coll) (reason : Nat) (except : Option Nat) : State :=
  let ports := ([(collPorts s c).1, (collPorts s c).2].filterMap id).eraseDups.filter fun p => some p ≠ except
  let s := ports.foldl (fun s p =>
    sendRetried s p (mkFrame 7 0 true 0 (cId c) 0 0 (leBytes 5 (cId c + reason * 2 ^ 32)))) s
  let s := modPly s ply fun y => { y with colls := y.colls.map fun d =>
    if d = c then { c with running := false, status := some (if reason = 4 then 7 else 6) } else d }
  evModule { s with box := { s.box with collAborts := sat 32 (s.box.collAborts + 1) } } 1 0x0B05
    (reason + cId c % 2 ^ 24 * 2 ^ 8) (some c.ten)

def abortOnPort (s : State) (p reason : Nat) : State :=
  (List.range 4).foldl (fun s ply =>
    ((plyOf s ply).colls.filter fun c => c.running && c.status.isNone && collUses s c p).foldl
      (fun s c => abortColl s ply c reason (some p)) s) s

/-- A hard failure (R377, R392): cause 0 lock, 1 retry limit, 2 RETRAIN. -/
def hardFail (s : State) (p cause : Nat) : State :=
  if (sportOf s p).st ≠ .up then s
  else
    let s := abortOnPort s p 1
    let s := modSport s p fun x => { x with
      st := .down, width := 0, helloSeen := false, retryBuf := [], outQ := [], collHeld := [], noProgress := 0, gap := false
      dataHeld := x.dataHeld.map fun h => (h.1, false) }
    evModule s 1 0x0B01 (p + cause * 2 ^ 5)

/-! ### Training (R374 to R376) -/

/-- Lanes that the light, the exclusions and training leave. -/
def goodLanes (x : SPort) (r : TrainReport) : BitVec 8 :=
  r.lanes &&& (if r.light0 then 0xFF else 0xF0) &&& (if r.light1 then 0xFF else 0x0F) &&& ~~~x.excluded

/-- First width of R376 at which every lane passes. -/
def bestWidth (l : BitVec 8) : Nat :=
  let has (m : BitVec 8) : Bool := l &&& m = m
  if has 0xFF then 8 else if has 0x0F || has 0xF0 then 4
  else if has 0x03 || has 0x0C || has 0x30 || has 0xC0 then 2 else 0

/-- Train a port; the attempts of an idle port stop while its lanes are shed (R426). -/
def trainPort (s : State) (p : Nat) (r : TrainReport) : State :=
  let x := sportOf s p
  if x.st = .up || x.st = .disabled || !x.enable || (s.pwr.lanesShed && x.st ≠ .training) then s
  else if !r.refClk then setSport s p { x with st := .noRefclk, width := 0 }
  else if !r.light0 && !r.light1 then setSport s p { x with st := .noLight, width := 0 }
  else
    let w := min (bestWidth (goodLanes x r)) r.peerWidth
    let s := if r.light0 && r.light1 then s else evModule s 0 0x0B06 (p + (if r.light0 then 1 else 0) * 2 ^ 5)
    if w = 0 then setSport s p { x with st := .down, width := 0 }
    else
      let s := setSport s p { x with st := .training, width := w, helloSeen := false }
      sendHello (if w < 8 then evModule s 1 0x0B03 (p + w * 2 ^ 5) else s) p

/-- PORT_TRAIN. -/
def execPortTrain (port : SPortId) (rep : TrainReport) (s : State) : Host.Outcome State Fault Refusal :=
  .next (trainPort s port rep)

/-! ### HELLO (R383) -/

def helloIn (s : State) (p : Nat) (f : Frame) : State :=
  let x := sportOf s p
  let w := leNat f.payload
  if x.st ≠ .training || x.width = 0 then s
  else if fldN w 8 8 ≠ 2 then
    evModule (setSport s p { x with st := .version, width := 0 }) 1 0x0B04 (p + fldN w 8 8 * 2 ^ 8)
  else
    let s := setSport s p { x with
      st := .up, helloSeen := true, version := 2 * 256 + min 1 (fldN w 0 8), frameLimit := min x.frameMax (fldN w 16 16)
      peerId := BitVec.ofNat 64 (fldN w 64 64), freedVl := [], withheld := [], txSent := [], lsnTx := 0, lsnAcked := 0, lsnRx := 0
      gap := false, retryBuf := [], noProgress := 0
      txLimit := (List.range 8).foldl (fun m v => SMap.put 0 m v (fldN w (256 + 16 * v) 16)) []
      txBase := (List.range 8).foldl (fun m v => SMap.put 0 m v (fldN w (256 + 16 * v) 16)) [] }
    let s := returnCredits s p
    pumpPort (evModule s 0 0x0B02 (p + x.width * 2 ^ 5)) p

/-- A frame that R380 does not allow is acknowledged, discarded and counted; it is never delivered. -/
def protoErrIn (s : State) (p : Nat) (f : Frame) : State :=
  if (sportOf s p).st ≠ .up then s
  else
    let s := modSport s p fun x => { x with protoErr := sat 32 (x.protoErr + 1), discards := sat 32 (x.discards + 1) }
    if retried (fType f) then rxRetried s p f id else sendAck s p

/-- A frame of a type, in the form that R379 and R380 allow. -/
def onFrame (s : State) (p : Nat) (f : Frame) (type : Nat) (go : State → State) : State :=
  if frameOk f && fType f = type then go s else protoErrIn s p f

/-- HELLO. -/
def execHello (port : SPortId) (f : Frame) (s : State) : Host.Outcome State Fault Refusal :=
  .next (onFrame s port f 4 fun s => helloIn s port f)

/-- HELLO_RESEND: every 10 µs until the peer's HELLO has come. -/
def execHelloResend (port : SPortId) (s : State) : Host.Outcome State Fault Refusal :=
  .next (if (sportOf s port).st = .training && (sportOf s port).width ≠ 0 && !(sportOf s port).helloSeen
    then sendHello s port else s)

/-! ### Ingress (R387) -/

def countDiscard (s : State) (p : Nat) : State := modSport s p fun x => { x with discards := sat 32 (x.discards + 1) }

/-- The running binding of a port and stream, with its tenancy. -/
def ingressBinding (s : State) (p stream : Nat) : Option (Nat × Binding) :=
  s.tens.findSome? fun t =>
    if t.2.run.isNone then none
    else match t.2.sentence with
      | some x => (x.bindings.find? fun b => !b.egress && b.port = p && b.stream = stream).map fun b => (t.1, b)
      | none => none

/-- Follow the message that a frame belongs to: its first offset and its bytes so far. -/
def msgStep (x : SPort) (f : Frame) (len : Nat) : Nat × Nat :=
  match x.msgs.find? (fun m => m.1 = fStream f) with
  | some (_, msg, first, n) => if msg = fMsg f && first + n = fOffset f then (first, n + len) else (fOffset f, len)
  | none => (fOffset f, len)

/-- A run of the tenancy holds back what arrives from outside: a replay or a grace beat (R51, R176). -/
def ingressHeld (x : Tenancy) : Bool :=
  match x.run with
  | some u => u.phase = .replay || u.phase = .grace
  | none => false

/-- A frame's `len` bytes are written: at the end of a message the notification goes out, else the message goes on. -/
def frameWritten (s : State) (p n : Nat) (b : Binding) (f : Frame) (len : Nat) : State :=
  let (first, bytes) := msgStep (sportOf s p) f len
  let rest := (sportOf s p).msgs.filter fun m => m.1 ≠ fStream f
  if fEom f then
    let s := modSport s p fun y => { y with msgs := rest }
    if b.nCh = 0xFF || 2 ^ 24 ≤ bytes then s
    else agentSend s (portEp p) n b.nVring b.nVfield b.nVtile b.nCh
      (1 + bytes * 2 ^ 8 + (b.base + first) * 2 ^ 32 + (fStream f + fMsg f * 2 ^ 16) * 2 ^ 128) b.lport
  else modSport s p fun y => { y with msgs := rest ++ [(fStream f, fMsg f, first, bytes)] }

/-- Write the payload at its offset, frame by frame through the fence, and notify at the end of a message. -/
def ingress (s : State) (p n : Nat) (b : Binding) (f : Frame) : State :=
  let x := tenOf s n
  let (s, lex) := if b.op = 1 && b.ifmt = 0xC then portLex s p n b else (s, ⟨0, 0, []⟩)
  let ps := if b.op = 1 then inflect 1 b.ifmt b.ofmt lex ⟨leNat f.payload, f.payload.length, []⟩
    else [⟨0, 8, f.payload.map fun y => (y.toNat, false)⟩]
  let len := ps.foldl (fun m q => max m (q.at_ + q.len)) 0
  let ta := b.base + fOffset f
  if b.granules * granBytes < fOffset f + len then countDiscard s p
  else
    let ring := match winAt x ta with
      | some w => (match winAddr x w ta with | some a => maRing a | none => 0)
      | none => 0
    match winAt x ta with
    | none => countNack s ring (some n) nackClosed
    | some w =>
      if rangeDark s x w ta len then s
      else if !mayWrite .stream w.attr then countNack s ring (some n) nackDenied
      else if winEnd w < ta + len then countNack s ring (some n) nackRange
      else frameWritten (ps.foldl (fun s q => winWrite s x w (ta + q.at_) q.bytes q.lanes) s) p n b f len

/-- A DATA frame's effect: written for its running binding, or discarded and counted. -/
def deliverFrame (s : State) (p : Nat) (f : Frame) : State :=
  match ingressBinding s p (fStream f) with
  | some (n, b) => ingress s p n b f
  | none => countDiscard s p

/-- The ring that a frame's bytes go to back-pressures them: its pool is dark and not declared lost, or its write queue has no
room for the WWRITE packets of the frame (R255, R258, R387). -/
def ingressFull (s : State) (n : Nat) (b : Binding) (f : Frame) : Bool :=
  let x := tenOf s n
  let ta := b.base + fOffset f
  match (winAt x ta).bind fun w => winAddr x w ta with
  | some a =>
    let r := maRing a
    !(ringOf s r).ejectOff && (dark s r || !cellsFit s r 386 (5 * ceilDiv f.payload.length 1024))
  | none => false

/-- A notification of a port waits for a credit or a limit of R259. -/
def noticeWaits (s : State) (p : Nat) : Bool := (reqsOf s (portEp p)).any fun q => !q.sent

/-- The running binding of a frame holds back what arrives, or the fence or the notification channel back-pressures it. -/
def frameHeld (s : State) (p : Nat) (f : Frame) : Bool :=
  match ingressBinding s p (fStream f) with
  | some (n, b) => ingressHeld (tenOf s n) || ingressFull s n b f || (b.nCh ≠ 0xFF && noticeWaits s p)
  | none => false

/-- A held frame of the same virtual lane comes before another, so a lane delivers in order. -/
def laneHeld (x : SPort) (f : Frame) : Bool := x.dataHeld.any fun h => fVl h.1 = fVl f

/-- One held frame after another: delivered where its binding takes it now and no earlier one of its lane still waits, and its
units freed (R387). -/
def deliverStep (p : Nat) (s : State) (h : Frame × Bool) : State :=
  if laneHeld (sportOf s p) h.1 || frameHeld s p h.1 then modSport s p fun x => { x with dataHeld := x.dataHeld ++ [h] }
  else
    let s := deliverFrame s p h.1
    if h.2 then freeUnits s p h.1 else s

/-- The held frames of a port are delivered in order as far as they go. -/
def deliverHeld (s : State) (p : Nat) : State :=
  (sportOf s p).dataHeld.foldl (deliverStep p) (modSport s p fun x => { x with dataHeld := [] })

/-- A DATA frame: one that its binding, the fence or the notification channel holds back is accepted in order and kept, its units
withheld (R51, R176, R387). -/
def dataFrame (s : State) (p : Nat) (f : Frame) : State :=
  let s := deliverHeld s p
  if laneHeld (sportOf s p) f || frameHeld s p f then rxHeld s p f else rxRetried s p f fun s => deliverFrame s p f

/-- ASP_DATA. -/
def execAspData (port : SPortId) (f : Frame) (s : State) : Host.Outcome State Fault Refusal :=
  .next (onFrame s port f 0 fun s => dataFrame s port f)

/-! ### Link control (R381, R382) -/

/-- The limit of a VL after a CREDIT frame: the peer's buffer and the units it has freed since the link came up. The frame's
count is the low 32 bits of that number, and an older frame changes nothing (R381, R383). -/
def creditLimit (x : SPort) (v count : Nat) : Nat :=
  let base := SMap.get 0 x.txBase v
  let freed := SMap.get 0 x.txLimit v - base
  let more := (count + 2 ^ 32 - freed % 2 ^ 32) % 2 ^ 32
  if more < 2 ^ 31 then base + freed + more else base + freed

/-- A CREDIT frame raises the limits, and what waited for them may go. -/
def creditIn (s : State) (p : Nat) (f : Frame) : State :=
  let raise (x : SPort) (m : List (Nat × Nat)) (v : Nat) : List (Nat × Nat) :=
    SMap.put 0 m v (creditLimit x v (fldN (leNat f.payload) (32 * v) 32))
  if (sportOf s p).st ≠ .up then s
  else pumpPort (modSport s p fun x => { x with txLimit := (List.range 8).foldl (raise x) x.txLimit }) p

/-- ASP_CREDIT: cumulative units that the peer has freed. -/
def execAspCredit (port : SPortId) (f : Frame) (s : State) : Host.Outcome State Fault Refusal :=
  .next (onFrame s port f 1 fun s => creditIn s port f)

/-- ASP_ACK. -/
def execAspAck (port : SPortId) (f : Frame) (s : State) : Host.Outcome State Fault Refusal :=
  .next (onFrame s port f 2 fun s =>
    if (sportOf s port).st ≠ .up then s else pumpPort (modSport s port fun x => acked x (fLsn f)) port)

/-- One replay; the link fails with the one that makes RETRY_LIMIT of them without progress (R377, R381, R382). -/
def replayOrFail (s : State) (p : Nat) : State :=
  let x := sportOf s p
  if x.st ≠ .up || x.retryBuf.isEmpty then s
  else if s.box.set.retryLimit ≤ x.noProgress + 1 then hardFail (setSport s p (replayAll x)) p 1
  else setSport s p (replayAll x)

/-- NAK: everything before its LSN is acknowledged, the rest is replayed. -/
def execNak (port : SPortId) (f : Frame) (s : State) : Host.Outcome State Fault Refusal :=
  .next (onFrame s port f 3 fun s =>
    if (sportOf s port).st ≠ .up then s else replayOrFail (modSport s port fun x => acked x (fLsn f + 65535)) port)

/-- ASP_RETRY_TIMEOUT. -/
def execAspRetryTimeout (port : SPortId) (s : State) : Host.Outcome State Fault Refusal := .next (replayOrFail s port)

/-- LINK_DOWN: lock lost for 8 µs. -/
def execLinkDown (port : SPortId) (s : State) : Host.Outcome State Fault Refusal := .next (hardFail s port 0)

/-- PROTO_ERR_FRAME: acknowledged, discarded and counted (R380). -/
def execProtoErrFrame (port : SPortId) (f : Frame) (s : State) : Host.Outcome State Fault Refusal :=
  .next (protoErrIn s port f)

/-- FRAME_CRC_FAILURE (R381). -/
def execFrameCrcFailure (port : SPortId) (s : State) : Host.Outcome State Fault Refusal :=
  .next (if (sportOf s port).st ≠ .up then s else sendNak (modSport s port fun x => { x with gap := true }) port)

end Sys2Proof.Machine
end

