-- ==== Sys2Proof/Machine/Collective.lean ====
section
/-! DEFINITION. Collectives (spec/14_stream_ports.md R380, R389 to R392). The layouts of COLL_START and COLL_DATA
payloads are log entry 21. -/

namespace Sys2Proof.Machine
open Sys2Proof

/-! ### The descriptor (R389) -/

def cOp (c : Coll) : Nat := fld c.desc 0 8
def cIf (c : Coll) : Nat := fld c.desc 8 4
def cOf (c : Coll) : Nat := fld c.desc 12 4
def cDet (c : Coll) : Bool := bit c.desc 16
def cPout (c : Coll) : Bool := bit c.desc 17
def cN (c : Coll) : Nat := fld c.desc 24 8
def cRank (c : Coll) : Nat := fld c.desc 32 8
def cLen (c : Coll) : Nat := fld c.desc 96 32
def cSrc (c : Coll) : Nat := fld c.desc 128 48
def cDst (c : Coll) : Nat := fld c.desc 176 48
def cAux (c : Coll) : Nat := fld c.desc 224 48

def plainFmt (f : Nat) : Bool := f = 0x8 || f = 0xA || f = 0xD

/-- Format rules of a collective descriptor (R389, R390). -/
def collOk (c : Coll) : Bool :=
  decide (cOp c ≤ 1) && fld c.desc 18 6 = 0 && fld c.desc 50 14 = 0 && fld c.desc 340 172 = 0 &&
  decide (2 ≤ cN c) && decide (cN c ≤ 64) && decide (cRank c < cN c) &&
  (cOp c = 1 || (if cDet c then cIf c = 0xF && (cPout c || cOf c ≠ 0xF)
                 else plainFmt (cIf c) && plainFmt (cOf c) && !cPout c))

/-- Bits of an element of the source and of the result. -/
def srcBits (c : Coll) : Nat := fbits (cIf c)
def dstBits (c : Coll) : Nat := if cOp c = 1 then fbits (cIf c) else if cPout c then 256 else fbits (cOf c)

/-- Bytes of one contribution and of the whole result. -/
def srcLen (c : Coll) : Nat := ceilDiv (cLen c * srcBits c) 8
def dstLen (c : Coll) : Nat := if cOp c = 1 then cN c * srcLen c else ceilDiv (cLen c * dstBits c) 8

/-- First element and number of elements of chunk k of an ALLREDUCE (R390). -/
def chunkAt (c : Coll) (k : Nat) : Nat := min (cLen c) (k * (ceilDiv (cLen c) (32 * cN c) * 32))
def chunkLen (c : Coll) (k : Nat) : Nat := chunkAt c (k + 1) - chunkAt c k

/-- Chunk or contribution that a member sends and receives at step t. -/
def sendsAt (c : Coll) (t : Nat) : Nat :=
  let n := cN c
  if cOp c = 1 || t < n - 1 then (cRank c + n - t % n) % n else (cRank c + 1 + n - (t + 1 - n) % n) % n
def getsAt (c : Coll) (t : Nat) : Nat :=
  let n := cN c
  if cOp c = 1 || t < n - 1 then (cRank c + 2 * n - t % n - 1) % n else (cRank c + n - (t + 1 - n) % n) % n

def collSteps (c : Coll) : Nat := if cOp c = 1 then cN c - 1 else 2 * (cN c - 1)

/-! ### Windows -/

/-- Status of a range: 0, CLOSED, RANGE or DENIED. -/
def rangeStatus (x : Tenancy) (ta len : Nat) (write : Bool) : Nat :=
  match winAt x ta with
  | none => 3
  | some w =>
    if !(if write then mayWrite .sequencer w.attr else mayRead .sequencer w.attr) then 8
    else if winEnd w < ta + len then 5 else 0

def readRange (s : State) (n ta len : Nat) : List Byte :=
  match winAt (tenOf s n) ta with
  | some w => winBytes s (tenOf s n) w ta len
  | none => []

/-- A write of a range: the fence of a dark ring applies nothing (R23). -/
def writeRange (s : State) (n ta : Nat) (bs : List Byte) : State :=
  match winAt (tenOf s n) ta with
  | some w => if rangeDark s (tenOf s n) w ta bs.length then s else winWrite s (tenOf s n) w ta bs
  | none => s

/-- A range that a dark ring does not serve. -/
def collDark (s : State) (n ta len : Nat) : Bool :=
  match winAt (tenOf s n) ta with
  | some w => rangeDark s (tenOf s n) w ta len
  | none => false

def rangePoison (s : State) (n ta len : Nat) : Bool :=
  match winAt (tenOf s n) ta with
  | some w => !(winPoison s (tenOf s n) w (ta / 8 * 8) (len + ta % 8)).isEmpty
  | none => false

/-! ### Contributions, sums and wire forms -/

/-- The member's own elements of a chunk: FP32 or INT32 codes, or partials. -/
def ownChunk (s : State) (c : Coll) (k : Nat) : List Nat :=
  let b := srcBits c
  let raw := leNat (readRange s c.ten (cSrc c + chunkAt c k * b / 8) (chunkLen c k * b / 8))
  let codes := unpackN b (chunkLen c k) raw
  if cIf c = 0x8 then codes.map fun x => encFloat fp32 false (decElem 0x8 x) else codes

/-- Sum of two elements: exact for partials, saturating for INT32, rounded once for FP32 (R95, R96, R390). -/
def collAdd (c : Coll) (x y : Nat) : Nat :=
  if cDet c then partOf (accJoin (accOfPart x) (accOfPart y))
  else if cIf c = 0xD then encInt 32 (numOfInt (sgn 32 x + sgn 32 y))
  else encFloat fp32 false (numAdd (decFloat fp32 x) (decFloat fp32 y))

/-- The owner's rounding of a final sum to the result format. R96 gives a saturation bit to CAST and saturation to the
Inflector, and R390 gives the sequencer none: overflow goes to infinity, or to the NaN of E4M3 (DESIGN CHOICE, log
entry 80). -/
def collRound (c : Coll) (x : Nat) : Nat :=
  if cPout c then x
  else if cDet c then accOut (cOf c) false (accOfPart x)
  else encElem (cOf c) false (decElem (if cIf c = 0xD then 0xD else 0xA) x)

/-- The anchor table from element e on. -/
def anchorsFrom (s : State) (c : Coll) (e n : Nat) : Source :=
  { w := leNat (readRange s c.ten (cAux c + 2 * e) (2 * n)), len := 2 * n, psn := [] }

/-- Packed form of a chunk of partials (R236). -/
def packChunk (s : State) (c : Coll) (k : Nat) (xs : List Nat) : List Byte :=
  ((pack (anchorsFrom s c (chunkAt c k) xs.length) ⟨packN 256 xs, 32 * xs.length, []⟩).map (·.bytes)).flatten

def unpackChunk (table x : Source) : Nat → Nat → Nat → List Nat
  | 0, _, _ => []
  | n + 1, o, e =>
    let b := unpackBlock table x false o e 32
    b.1.map (·.1) ++ unpackChunk table x n (o + b.2) (e + 32)

/-- Elements of a chunk from its wire bytes. -/
def fromWire (s : State) (c : Coll) (k b : Nat) (bs : List Byte) : List Nat :=
  let n := chunkLen c k
  if b = 256 then
    (unpackChunk (anchorsFrom s c (chunkAt c k) n) ⟨leNat bs, bs.length, []⟩ (ceilDiv n 32) 0 0).take n
  else unpackN b n (leNat bs)

def toWire (s : State) (c : Coll) (k b : Nat) (xs : List Nat) : List Byte :=
  if b = 256 then packChunk s c k xs else leBytes (ceilDiv (xs.length * b) 8) (packN b xs)

/-- Bits of an element on the wire in the reduce-scatter steps. -/
def sumBits (c : Coll) : Nat := if cDet c then 256 else 32

/-! ### Frames -/

/-- Payload of COLL_START. -/
def startPayload (s : State) (c : Coll) : List Byte :=
  leBytes 4 (cId c) ++ leBytes 1 (cOp c) ++ leBytes 1 (cN c) ++ leBytes 1 (b2n (cDet c) + 2 * b2n (cPout c)) ++
  leBytes 1 0 ++ leBytes 4 (cLen c) ++
  leBytes 4 (if cDet c then (crc32c (readRange s c.ten (cAux c) (2 * cLen c))).toNat else 0)

/-- Send the wire bytes of a step to the successor, frame by frame; the last frame has EOM. -/
def sendStep (s : State) (c : Coll) (t : Nat) (bs : List Byte) : State :=
  match (collPorts s c).1 with
  | none => s
  | some p =>
    let n := (sportOf s p).frameLimit
    let parts := if bs.isEmpty then [[]] else chunks n bs.length bs
    (parts.zipIdx).foldl (fun s (b, i) =>
      sendRetried s p (mkFrame 6 1 (decide (i + 1 = parts.length)) 0 (cId c) (i * n) t b)) s

/-- Replace a collective by its next value. -/
def putColl (s : State) (ply : Nat) (c d : Coll) : State :=
  modPly s ply fun y => { y with colls := y.colls.map fun x => if x = c then d else x }

/-- Number of chunks or contributions that are final. -/
def collDone (c : Coll) : Bool := c.res.length = cN c

/-- The member's first step: its own chunk, or its own contribution, which is final at once. -/
def firstStep (s : State) (ply : Nat) (c : Coll) : State :=
  let d := { c with peersOk := true }
  let s := putColl s ply c d
  if cOp c = 1 then sendStep s d 0 (SMap.get [] d.res (cRank d))
  else sendStep s d 0 (toWire s d (sendsAt d 0) (sumBits d) (ownChunk s d (sendsAt d 0)))

/-- A whole segment of step t has come (R390). -/
def stepIn (s : State) (ply : Nat) (c : Coll) (bs : List Byte) : State :=
  let t := c.step
  let k := getsAt c t
  let fin (res : List (Nat × List Byte)) : Coll :=
    let d := { c with step := t + 1, seg := [], res := res }
    if collDone d then { d with running := false, status := some (if d.poisoned then 2 else 0) } else d
  let pass (s : State) (d : Coll) (w : List Byte) : State := if t + 1 < collSteps c then sendStep s d (t + 1) w else s
  if cOp c = 1 then
    let d := fin (SMap.insert c.res k bs)
    pass (putColl s ply c d) d bs
  else if t < cN c - 1 then
    let sum := List.zipWith (collAdd c) (fromWire s c k (sumBits c) bs) (ownChunk s c k)
    if t + 1 < cN c - 1 then
      let d := fin c.res
      pass (putColl s ply c d) d (toWire s c k (sumBits c) sum)
    else
      let out := sum.map (collRound c)
      let d := fin (SMap.insert c.res k (leBytes (ceilDiv (out.length * dstBits c) 8) (packN (dstBits c) out)))
      pass (putColl s ply c d) d (toWire s c k (dstBits c) out)
  else
    let out := fromWire s c k (dstBits c) bs
    let d := fin (SMap.insert c.res k (leBytes (ceilDiv (out.length * dstBits c) 8) (packN (dstBits c) out)))
    pass (putColl s ply c d) d bs

/-- The running collective whose predecessor sends on a port and whose COLL_ID agrees with a test; one whose source is dark takes
no frame. -/
def collOn (s : State) (p : Nat) (test : Coll → Bool) : Option (Nat × Coll) :=
  (List.range 4).findSome? fun ply =>
    ((plyOf s ply).colls.find? fun c => c.running && c.status.isNone && (collPorts s c).2 = some p && test c &&
      !collDark s c.ten (cSrc c) (srcLen c)).map
      fun c => (ply, c)

def startId (f : Frame) : Nat := fldN (leNat f.payload) 0 32

/-- Effect of a COLL_START of the predecessor of a running collective (R389). -/
def startIn (s : State) (ply : Nat) (c : Coll) (f : Frame) : State :=
  if c.peersOk then s
  else if f.payload = startPayload s c then firstStep s ply c else abortColl s ply c 2 none

/-- Effect of a COLL_DATA frame: segments arrive in order. -/
def dataIn (s : State) (ply : Nat) (c : Coll) (f : Frame) : State :=
  if fMsg f ≠ c.step || fOffset f ≠ c.seg.length then s
  else
    let bs := c.seg ++ f.payload
    if fEom f then stepIn s ply c bs else putColl s ply c { c with seg := bs }

/-- Hand a collective frame to the running collective it belongs to. -/
def collFrame (s : State) (p : Nat) (f : Frame) : State :=
  if fType f = 5 then
    match collOn s p (fun c => cId c = startId f) with
    | some (ply, c) => startIn s ply c f
    | none => s
  else match collOn s p (fun c => cId c % 65536 = fStream f) with
    | some (ply, c) => dataIn s ply c f
    | none => s

/-- A frame of a collective that waits here: arrived and not begun, or nothing of it known yet. -/
def collWaits (s : State) (f : Frame) : Bool :=
  !((List.range 4).any fun ply => (plyOf s ply).colls.any fun c => c.status.isSome && cId c % 65536 = fStream f)

/-- A frame of the module's compute reset is discarded (R393); one that no collective takes yet waits. -/
def collRx (s : State) (p : Nat) (f : Frame) (known : Bool) : State :=
  if known then rxRetried s p f fun s => collFrame s p f
  else if s.box.state = .ready && collWaits s f then rxHeld s p f
  else rxRetried s p f fun s => countDiscard s p

/-! ### Commands -/

/-- COLLECTIVE: a descriptor arrives at a ply's sequencer (R229, R389). -/
def execCollective (ply : PlyId) (d : DataMsg) (s : State) : Host.Outcome State Fault Refusal :=
  .next (
    match ringTen s (fieldRing (epField d.src)) with
    | none => answer s d true nackClosed
    | some n =>
      if d.epoch ≠ (tenOf s n).epoch then
        modRing s (fieldRing (innerCorner ply)) fun x => { x with cntEpoch := sat 16 (x.cntEpoch + 1) }
      else agentArrive s d fun s d =>
        let c : Coll := { desc := BitVec.ofNat 512 (leNat d.payload), ten := n, msg := d, beat := descBeat s n d }
        answer (modPly s ply fun x => { x with colls := x.colls ++ [c] }) d false 0)

/-- Status with which a collective ends before it begins, or 0. -/
def beginStatus (s : State) (c : Coll) : Nat :=
  let x := tenOf s c.ten
  if !collOk c then 4
  else match collPorts s c with
    | (some p, some q) =>
      if cDet c && ((sportOf s p).version = 0x200 || (sportOf s q).version = 0x200) then 4
      else
        let a := rangeStatus x (cSrc c) (srcLen c) false
        if a ≠ 0 then a
        else
          let b := rangeStatus x (cDst c) (dstLen c) true
          if b ≠ 0 then b
          else if cDet c && cOp c = 0 then rangeStatus x (cAux c) (2 * cLen c) false else 0
    | _ => 4

/-- Deliver the frames that waited for a collective, and free their units. -/
def releaseHeld (s : State) (c : Coll) : State :=
  match (collPorts s c).2 with
  | none => s
  | some p =>
    let mine (f : Frame) : Bool := fStream f = cId c % 65536
    let fs := (sportOf s p).collHeld.filter mine
    let s := modSport s p fun x => { x with collHeld := x.collHeld.filter fun f => !mine f }
    fs.foldl (fun s f => freeUnits (collFrame s p f) p f) s

/-- Start one collective: its COLL_START goes to the successor. -/
def beginColl (s : State) (ply : Nat) (c : Coll) : State :=
  let st := beginStatus s c
  let s := agentCredit s c.msg
  if st ≠ 0 then putColl s ply c { c with status := some st }
  else
    let own := if cOp c = 1 then [(cRank c, readRange s c.ten (cSrc c) (srcLen c))] else []
    let d := { c with running := true, res := own, poisoned := rangePoison s c.ten (cSrc c) (srcLen c) }
    let s := putColl s ply c d
    let down (q : Option Nat) : Bool := match q with | some p => (sportOf s p).st ≠ .up | none => true
    if down (collPorts s d).1 || down (collPorts s d).2 then abortColl s ply d 1 none
    else
      let s := match (collPorts s d).1 with
        | some p => sendRetried s p (mkFrame 5 1 true 0 (cId d) 0 0 (startPayload s d))
        | none => s
      releaseHeld s d

/-- COLLECTIVE_BEGIN: the oldest eligible descriptor, at most 16 at once (R389); it waits while its source is dark (R23). -/
def execCollectiveBegin (ply : PlyId) (s : State) : Host.Outcome State Fault Refusal :=
  .next (
    let cs := (plyOf s ply).colls
    if 16 ≤ (cs.filter fun c => c.running).length then s
    else match cs.find? (fun c => c.eligible && !c.running && c.status.isNone) with
      | none => s
      | some c => if collDark s c.ten (cSrc c) (srcLen c) then s else beginColl s ply c)

/-- Bytes the spec leaves undefined (R392). -/
def freeBytes (s : State) (n : Nat) : State × List Byte :=
  ({ s with freeCtr := s.freeCtr + n }, (List.range n).map fun i => Config.freeByte (s.freeCtr + i))

/-- The result, or the undefined bytes of an aborted collective, in DST. -/
def collResult (s : State) (c : Coll) : State :=
  match c.status with
  | some 0 =>
    writeRange s c.ten (cDst c) (((List.range (cN c)).map fun k => SMap.get [] c.res k).flatten)
  | some st =>
    if st = 6 || st = 7 then
      let (s, bs) := freeBytes s (dstLen c)
      writeRange s c.ten (cDst c) bs
    else s
  | none => s

/-- Status with which a collective completes: the fence checks its destination as it is written (R267, R391). -/
def endStatusOf (s : State) (c : Coll) : Nat :=
  match c.status with
  | some 0 => rangeStatus (tenOf s c.ten) (cDst c) (dstLen c) true
  | some st => st
  | none => 0

def dropColl (s : State) (ply : Nat) (c : Coll) : State :=
  modPly s ply fun y => { y with colls := eraseIdx1 y.colls fun d => decide (d = c) }

/-- COLLECTIVE_COMPLETION (R391). -/
def execCollectiveCompletion (ply : PlyId) (collId : BitVec 32) (s : State) : Host.Outcome State Fault Refusal :=
  .next (
    match (plyOf s ply).colls.find? (fun c => c.status.isSome && cId c = collId.toNat) with
    | none => s
    | some c =>
      let st := endStatusOf s c
      let s := dropColl (collResult s { c with status := some st }) ply c
      if c.msg.epoch ≠ (tenOf s c.ten).epoch then s
      else agentSend s (sequencerEp ply) c.ten (fld c.desc 329 6) (fld c.desc 326 3) (fld c.desc 320 6)
        (fld c.desc 335 5) (completionWord (if st = 0 then dstLen c else 0) (fld c.desc 272 48) st) c.msg.who)

/-- A context rewind aborts the clause's collectives with reason LOCAL; their completions are discarded (R335). -/
def localAborts (s : State) (n : Nat) : State :=
  (List.range 4).foldl (fun s ply =>
    ((plyOf s ply).colls.filter fun c => c.ten = n).foldl (fun s c =>
      if c.running && c.status.isNone then
        let s := abortColl s ply c 3 none
        match (plyOf s ply).colls.find? (fun d => d.desc = c.desc && d.msg = c.msg) with
        | some d => dropColl (collResult s d) ply d
        | none => s
      else dropColl s ply c) s) s

/-- COLL_START. -/
def execCollStart (port : SPortId) (f : Frame) (s : State) : Host.Outcome State Fault Refusal :=
  .next (onFrame s port f 5 fun s => collRx s port f (collOn s port fun c => cId c = startId f).isSome)

/-- COLL_DATA (R390). -/
def execCollData (port : SPortId) (f : Frame) (s : State) : Host.Outcome State Fault Refusal :=
  .next (onFrame s port f 6 fun s => collRx s port f (collOn s port fun c => cId c % 65536 = fStream f).isSome)

/-- ASP_ABORT (R392): the member aborts its own part and forwards ABORT on its other ports; a descriptor that has not begun is
aborted as well. -/
def execAspAbort (port : SPortId) (f : Frame) (s : State) : Host.Outcome State Fault Refusal :=
  .next (onFrame s port f 7 fun s => rxRetried s port f fun s =>
    (List.range 4).foldl (fun s ply =>
      ((plyOf s ply).colls.filter fun c => c.status.isNone && cId c = startId f && collUses s c port).foldl
        (fun s c => abortColl (if c.running then s else agentCredit s c.msg) ply c 4 (some port)) s) s)

end Sys2Proof.Machine
end

