-- ==== Sys2Proof/Machine/Host.lean ====
section
/-! DEFINITION. Host ports: command and completion queues, doorbells, port resets and PTM
(spec/13_hosts_and_tenancy.md R351 to R359, R362). -/

namespace Sys2Proof.Machine
open Sys2Proof

/-! ### Queues -/

def hqueue (x : HPort) (q : Nat) : HQueue := SMap.get {} x.queues q
def setHq (x : HPort) (q : Nat) (v : HQueue) : HPort := { x with queues := SMap.put {} x.queues q v }
def hq (s : State) (p q : Nat) : HQueue := hqueue (hportOf s p) q
def modHq (s : State) (p q : Nat) (f : HQueue → HQueue) : State := modHport s p fun x => setHq x q (f (hqueue x q))

def sqSize (h : HQueue) : Nat := 2 ^ h.sqLog
def cqSize (h : HQueue) : Nat := 2 ^ h.cqLog

/-- The completion queue has a free entry; one entry always stays free (log entry 22). -/
def cqFree (h : HQueue) : Bool := (h.cqTail + 1) % cqSize h ≠ h.cqHead % cqSize h

/-- Commands wait in the command queue. -/
def sqWaiting (h : HQueue) : Bool := h.fetched % sqSize h ≠ h.sqTail % sqSize h

/-- A completion entry (R357). -/
def completionBytes (h : HQueue) (c : Completion) : List Byte :=
  leBytes 16 (c.cid.toNat + c.status % 256 * 2 ^ 16 + c.sq % 8 * 2 ^ 24 + (h.cqPass + 1) % 2 * 2 ^ 31
    + h.fetched % 2 ^ 32 * 2 ^ 32 + c.result.toNat * 2 ^ 64)

/-- Write a completion into its queue. -/
def postOne (s : State) (p q : Nat) (c : Completion) : State :=
  let h := hq s p q
  let s := hostWrite s p (h.cqBase.toNat + 16 * (h.cqTail % cqSize h)) (completionBytes h c)
  let wrap := decide ((h.cqTail + 1) % cqSize h = 0)
  modHq (modHport s p fun x => sendMsix x q) p q fun h => { h with cqTail := (h.cqTail + 1) % cqSize h, cqPass := if wrap then h.cqPass + 1 else h.cqPass }

/-- Complete a command: posted at once, held while the queue is full, discarded after a port reset (R352, R357). -/
def complete (s : State) (w : Waiter) (status result : Nat) : State :=
  let p : Nat := w.port
  let q : Nat := w.q
  let h := hq s p q
  let c : Completion := { cid := w.cid, status := status, sq := q, result := BitVec.ofNat 64 result }
  if w.gen ≠ (hportOf s p).resets || h.cqLog = 0 then s
  else if cqFree h && h.held.isEmpty then postOne s p q c
  else modHq s p q fun h => { h with held := h.held ++ [c] }

def completeOpt (s : State) (w : Option Waiter) (status result : Nat) : State :=
  match w with
  | some w => complete s w status result
  | none => s

def stOk : Nat := 0
def stRefused : Nat := 1
def stRole : Nat := 2
def stInvalid : Nat := 3
def stBusy : Nat := 4
def stClosed : Nat := 5
def stDenied : Nat := 6
def stRewound : Nat := 7
def stAborted : Nat := 8

/-! ### Fetching (R355) -/

def eCid (e : BitVec 512) : BitVec 16 := BitVec.ofNat 16 (fld e 16 16)
def eTen (e : BitVec 512) : Nat := fld e 32 8
/-- An operand field: positions count from bit 64. -/
def eOp (e : BitVec 512) (lo len : Nat) : Nat := fld e (64 + lo) len

/-- The common part of an entry, and the operand bits from `used` up are zero. -/
def entryOk (e : BitVec 512) (used : Nat) : Bool :=
  fld e 8 8 = 0 && fld e 40 24 = 0 && fld e (64 + used) (448 - used) = 0 && decide (eTen e < 64)

/-- Fetch the entry at the front of a queue and run it: nothing is fetched from a queue that is not enabled, is empty
or holds completions. -/
def fetch (s : State) (p : HPortId) (q : QId) (e : BitVec 512) (go : State → Waiter → State) : State :=
  let h := hq s p q
  if !h.enable || h.error || !sqWaiting h || !h.held.isEmpty || !boxRuns s then s
  else go (modHq s p q fun h => { h with fetched := h.fetched + 1 }) ⟨p, q, eCid e, (hportOf s p).resets⟩

/-- INVALID_COMMAND: an undefined OPC. -/
def execInvalidCommand (port : HPortId) (q : QId) (e : BitVec 512) (s : State) : Host.Outcome State Fault Refusal :=
  .next (fetch s port q e fun s w => complete s w stInvalid 0)

def isOwner (s : State) (p : Nat) : Bool := (hportOf s p).role = .owner

/-- The port may command a tenancy (R354). -/
def mayCommand (s : State) (p t : Nat) : Bool :=
  isOwner s p || ((hportOf s p).role = .tenant && (tenOf s t).st ≠ .none_ && (tenOf s t).port = p)

/-! ### Doorbells -/

/-- SQ_TAIL: an index beyond the queue sets ERROR and clears enable; what is not fetched is discarded (R353). -/
def sqDoorbell (s : State) (p q tail : Nat) : State :=
  let h := hq s p q
  if !h.enable then s
  else if sqSize h ≤ tail then
    modHq s p q fun h => { h with error := true, enable := false, sqTail := h.fetched % sqSize h }
  else modHq s p q fun h => { h with sqTail := tail }

def cqDoorbell (s : State) (p q head : Nat) : State :=
  let h := hq s p q
  if !h.enable then s
  else if cqSize h ≤ head then
    modHq s p q fun h => { h with error := true, enable := false, sqTail := h.fetched % sqSize h }
  else modHq s p q fun h => { h with cqHead := head }

/-- SQ_TAIL. -/
def execSqTail (port : HPortId) (q : QId) (tail : Nat) (s : State) : Host.Outcome State Fault Refusal :=
  .next (sqDoorbell s port q tail)

/-- Post what is held while entries are free. -/
def postHeld : Nat → State → Nat → Nat → State
  | 0, s, _, _ => s
  | n + 1, s, p, q =>
    match (hq s p q).held with
    | [] => s
    | c :: rest => if cqFree (hq s p q) then postHeld n (postOne (modHq s p q fun h => { h with held := rest }) p q c) p q else s

/-- CQ_HEAD. -/
def execCqHead (port : HPortId) (q : QId) (head : Nat) (s : State) : Host.Outcome State Fault Refusal :=
  .next (cqDoorbell s port q head)

/-- COMPLETION_POST: one held completion is posted once an entry is free. -/
def execCompletionPost (port : HPortId) (q : QId) (s : State) : Host.Outcome State Fault Refusal :=
  .next (postHeld 1 s port q)

/-- PORT_RESET (R352, R410). -/
def execPortReset (port : HPortId) (flr : Bool) (s : State) : Host.Outcome State Fault Refusal :=
  .next (
    if !boxRuns s then s
    else
      let s := modHport s port fun x => { x with
        evqBase := 0, evqLog := 0, evqEnable := false, evqHead := 0, evqTail := 0, evqLosing := 0, queues := []
        resets := x.resets + 1, link := (Config.hostLink port (x.resets + 1)).toNat, path := { x.path with level := 0x200 } }
      evModule s 1 0x0A01 ((port : Nat) + b2n flr * 2 ^ 3))

/-- A port's next dialog is due: the first one, or one PTM_PERIOD after the one before (R362). -/
def ptmDue (s : State) (x : HPort) : Bool :=
  boxRuns s && (x.ptmLast.isNone || x.ptmLast.any fun t => decide (t + s.box.set.ptmMs * 1000000 ≤ s.time.uptime))

/-- PTM_DIALOG (R362). -/
def execPtmDialog (port : HPortId) (masterNs : BitVec 64) (s : State) : Host.Outcome State Fault Refusal :=
  .next (if ptmDue s (hportOf s port) then modHport s port fun x => { x with
      ptmUptime := s.time.uptime, ptmTime := masterNs, ptmCount := (x.ptmCount + 1) % 2 ^ 32
      ptmLast := some s.time.uptime }
    else s)

/-- EVQ_LOST is read: the count clears (R353). -/
def execEvqLost (port : HPortId) (s : State) : Host.Outcome State Fault Refusal :=
  .next (modHport { s with regOut := BitVec.ofNat 64 (hportOf s port).evqLost, regPoison := false } port fun x =>
    { x with evqLost := 0 })

end Sys2Proof.Machine
end

