-- ==== Sys2Proof/Machine/Sentence.lean ====
section
/-! DEFINITION. The sentence image, its checks and the binding of virtual rings
(spec/02_programming_model.md R29 to R33; spec/10_placement_and_repair.md R280, R283 to R285, R291;
spec/08_memory_tiers.md R218, R220 to R222, R237; spec/14_stream_ports.md R384, R385; spec/11_audit_and_replay.md
R305; spec/13_hosts_and_tenancy.md R365, R366, R369). -/

namespace Sys2Proof.Machine
open Sys2Proof

/-! ### Reading the image -/

/-- A little-endian field of the image. -/
def rd (img : List Byte) (off n : Nat) : Nat := leNat ((img.drop off).take n)

def rsFormat : Nat := 1
def rsMajor : Nat := 2
def rsLevel : Nat := 3
def rsSeam : Nat := 4
def rsBeat : Nat := 5
def rsRings : Nat := 6
def rsWindows : Nat := 7
def rsReserved : Nat := 8
def rsPlace : Nat := 9
def rsPort : Nat := 10

/-- A clause configuration or an option's (R283, R305, R369); none where it is shorter than its fixed parts or a shape entry
names no virtual ring, which the model answers with FORMAT (log entry 75). Its Reserved bits are not checked, for no row of R30
names them. -/
def parseCfg (img : List Byte) (off size rings : Nat) : Option Cfg :=
  let pre := rd img off 8
  let n := fldN pre 0 16
  let raw := (List.range n).map fun k => rd img (off + 8 + 4 * k) 4
  let edges : List Edge := raw.map fun e => ⟨fldN e 0 6, fldN e 6 6, Side.of (fldN e 12 2)⟩
  let a := rd img (off + 8 + 4 * n) 16
  let save := rd img (off + 24 + 4 * n) 8
  if size < 32 + 4 * n || 256 < n ||
      edges.any (fun e => decide (rings ≤ e.va) || decide (rings ≤ e.vb) || e.va = e.vb) then none
  else some { edges := edges, relayOk := fldN pre 16 1 = 1, restoreMib := fldN pre 32 32, alevel := fldN a 0 3
              ak := fldN a 8 4, save := BitVec.ofNat 64 save
              layout := Config.clauseLayout ((img.drop (off + 32 + 4 * n)).take (size - 32 - 4 * n)) }

/-- Relocation options a clause-table entry names (R291). -/
def parseRelocs (img : List Byte) (first n id rings : Nat) : Option (List Reloc) :=
  let base := rd img 0x38 8
  (List.range n).foldl (fun acc k =>
    let o := base + 32 * (first + k)
    let vr := rd img (o + 2) 1
    match acc, parseCfg img (rd img (o + 8) 8) (rd img (o + 16) 4) rings with
    | some l, some c =>
      if rd img o 2 ≠ id || rd img (o + 8) 8 = 0 || (vr ≠ 0xFF && decide (rings ≤ vr)) ||
          img.length < rd img (o + 8) 8 + rd img (o + 16) 4 then none
      else some (l ++ [⟨vr, c⟩])
    | _, _ => none) (some [])

/-- One clause-table entry (R32); none where it is malformed. -/
def parseClause (img : List Byte) (k : Nat) : Option Clause :=
  let o := rd img 0x18 8 + 32 * k
  let rings := rd img (o + 2) 2
  let next := rd img (o + 4) 2
  let loopTo := rd img (o + 6) 2
  let n := rd img 0x0E 2
  let off := rd img (o + 0x10) 8
  let size := rd img (o + 0x18) 4
  let rFirst := rd img (o + 0x1C) 2
  let rN := rd img (o + 0x1E) 1
  let flags := rd img (o + 0x1F) 1
  if rd img o 2 ≠ k || rings = 0 || rd img 0x0C 2 < rings || (next ≠ 0xFFFF && decide (n ≤ next)) ||
      (loopTo ≠ 0xFFFF && decide (n ≤ loopTo)) || rd img (o + 0x0C) 4 = 0 || rd img 0x40 8 < off + size ||
      (rN ≠ 0 && decide (rd img 0x2C 2 < rFirst + rN)) then none
  else match parseCfg img off size rings, parseRelocs img rFirst rN k rings with
    | some c, some rs => some
        { rings := rings, next := next, loopTo := loopTo, loopCount := rd img (o + 8) 4, workBeats := rd img (o + 0x0C) 4
          trapeze := fldN flags 0 1 = 1, guard := fldN flags 1 1 = 1, cfg := c, relocs := rs }
    | _, _ => none

/-- All of a list of optional parts. -/
def sequence {α : Type} : List (Option α) → Option (List α)
  | [] => some []
  | o :: m => match o, sequence m with
    | some x, some xs => some (x :: xs)
    | _, _ => none

/-- Window requests: TA_BASE, granules, tier and attribute number. -/
structure WinReq where
  base : Nat
  granules : Nat
  tier : Nat
  attr : Nat
  deriving DecidableEq, Repr

def parseWins (img : List Byte) : List WinReq :=
  (List.range (rd img 0x2A 2)).map fun k =>
    let o := rd img 0x30 8 + 16 * k
    ⟨rd img o 8, rd img (o + 8) 4, rd img (o + 12) 1, rd img (o + 13) 1⟩

def attrOf : Nat → Attr
  | 0 => .input | 1 => .output | 2 => .spill | 3 => .master | _ => .guarded

/-- Windows with their places: near and far granules count through the requests in table order (R220, R221). -/
def placeWins : Nat → Nat → List WinReq → List Window
  | _, _, [] => []
  | g, f, r :: m =>
    let w : Window := { base := r.base, granules := r.granules, attr := attrOf r.attr
                        place := if r.tier = 0 then .near g else .far f }
    w :: (if r.tier = 0 then placeWins (g + r.granules) f m else placeWins g (f + r.granules) m)

def tierGrans (ws : List WinReq) (tier : Nat) : Nat := (ws.filter (·.tier = tier)).foldl (fun n r => n + r.granules) 0

/-- One stream binding (R384); `port` is filled at LOAD. -/
def parseBinding (img : List Byte) (k : Nat) : Option Binding :=
  let o := rd img 0x20 8 + 32 * k
  let b (i : Nat) : Nat := rd img (o + i) 1
  if 1 < b 2 || 31 < b 3 || b 4 < 2 || 7 < b 4 || 2 < b 5 || b 7 ≠ 0 || (b 2 = 0 && b 5 = 2) || (b 2 = 1 && b 5 = 1) then none
  else some
    { stream := rd img o 2, egress := b 2 = 1, lport := b 3, port := 0xFF, vl := b 4, op := b 5
      ifmt := b 6 % 16, ofmt := b 6 / 16, base := rd img (o + 8) 8, granules := rd img (o + 0x10) 4
      nVtile := b 0x14, nVfield := b 0x15, nVring := b 0x16, nCh := b 0x17, aux := rd img (o + 0x18) 8 }

/-! ### Shapes (R283, R284) -/

def sideStep : Side → Int × Int
  | .north => (0, -1) | .east => (1, 0) | .south => (0, 1) | .west => (-1, 0)

/-- Positions of virtual rings relative to a first one. -/
abbrev Layout := List (Nat × Int × Int)

def posOf (l : Layout) (v : Nat) : Option (Int × Int) := (l.find? fun p => p.1 = v).map (·.2)

/-- Add what one entry tells. -/
def growEdge (l : Layout) (e : Edge) : Layout :=
  let d := sideStep e.side
  match posOf l e.va, posOf l e.vb with
  | some p, none => l ++ [(e.vb, p.1 + d.1, p.2 + d.2)]
  | none, some p => l ++ [(e.va, p.1 - d.1, p.2 - d.2)]
  | _, _ => l

def grow (es : List Edge) : Nat → Layout → Layout
  | 0, l => l
  | n + 1, l => grow es n (es.foldl growEdge l)

/-- The group of a virtual ring: every ring joined to it, with its position. -/
def groupOf (es : List Edge) (v : Nat) : Layout := grow es 64 [(v, 0, 0)]

/-- Entries place every virtual ring at one position. -/
def shapeOk (es : List Edge) : Bool :=
  es.all fun e =>
    let l := groupOf es e.va
    let d := sideStep e.side
    match posOf l e.va, posOf l e.vb with
    | some p, some q => q.1 = p.1 + d.1 && q.2 = p.2 + d.2
    | _, _ => false

def ringX (r : Nat) : Int := r % 4 + 4 * (r / 16 % 2)
def ringY (r : Nat) : Int := r % 16 / 4 + 4 * (r / 32)

def ringAt (x y : Int) : Option Nat := allRings.find? fun r => ringX r = x && ringY r = y

/-- Every seam or bridge along one edge of a ring is at or above a floor. -/
def edgeOk (s : State) (r : Nat) (sd : Side) (floor : Nat) : Bool :=
  (ringFields r).all fun f => match neighbour f sd with
    | some g => fieldRing g = r || seamOk s f sd floor
    | none => false

/-- A shape entry holds for two physical rings. -/
def entryHolds (s : State) (floor : Nat) (phys : Nat → Option Nat) (e : Edge) : Bool :=
  match phys e.va, phys e.vb with
  | some a, some b => ringNeighbour a e.side = some b && edgeOk s a e.side floor
  | _, _ => false

/-- Rings on which a group lands when its first member stands on an anchor. -/
def landing (l : Layout) (anchor : Nat) : Option (List (Nat × Nat)) :=
  sequence (l.map fun p => (ringAt (ringX anchor + p.2.1) (ringY anchor + p.2.2)).map fun r => (p.1, r))

/-- First anchor of R284 for a group. -/
def placeGroup (s : State) (floor : Nat) (es : List Edge) (l : Layout) (free : List Nat) : Option (List (Nat × Nat)) :=
  free.findSome? fun a =>
    match landing l a with
    | none => none
    | some m =>
      let phys (v : Nat) : Option Nat := (m.find? fun p => p.1 = v).map (·.2)
      if m.all (fun p => free.contains p.2) &&
          (es.filter fun e => (phys e.va).isSome && (phys e.vb).isSome).all (entryHolds s floor phys) then some m
      else none

/-- Groups in the order of R284: by lowest member. -/
def placeAll (s : State) (floor : Nat) (es : List Edge) : List Nat → List Nat → List (Nat × Nat) → Option (List (Nat × Nat))
  | [], _, acc => some acc
  | v :: vs, free, acc =>
    if acc.any (fun p => p.1 = v) then placeAll s floor es vs free acc
    else match placeGroup s floor es (groupOf es v) free with
      | none => none
      | some m => placeAll s floor es vs (free.filter fun r => !m.any fun p => p.2 = r) (acc ++ m)

/-- Binding of virtual rings 0 to RINGS − 1, or none for PLACE. -/
def bindRings (s : State) (x : Tenancy) (y : Sentence) : Option (List Nat) :=
  let es := (y.clauses.map fun c => c.cfg.edges).flatten
  let free := x.rings.filter fun r => ringWhole s r y.seamFloor
  match placeAll s y.seamFloor es (List.range y.rings) free [] with
  | none => none
  | some m => sequence ((List.range y.rings).map fun v => (m.find? fun p => p.1 = v).map (·.2))

/-! ### The checks of LOAD (R30) -/

/-- The highest channel granule in use by any clause, plus 1, and the channel granules of the near windows. -/
def sentLow (cs : List Clause) : Nat :=
  cs.foldl (fun m c => (c.relocs.map fun r => r.cfg.layout.low).foldl max (max m c.cfg.layout.low)) 0
def sentHigh (ws : List WinReq) (n : Nat) : Nat := ceilDiv (tierGrans ws 0) (192 * max 1 n)

/-- GUARDED granules that a sentence's guarded clauses need (R237). -/
def guardNeed (cs : List Clause) : Nat :=
  (cs.filter (·.guard)).foldl (fun m c => max m (c.cfg.layout.guarded.length + 48 * c.rings)) 0

/-- CARRY_CFG of every tile fits the beat and the scratchpad (R62, R218). -/
def carryOk (beatLog2 : Nat) (c : Cfg) : Bool :=
  c.layout.tiles.all fun t =>
    let base := fld t.2.carry 0 13
    let rows := fld t.2.carry 16 9
    decide (rows ≤ 256) && decide (128 * rows ≤ 2 ^ beatLog2) && decide (base + 2 * rows ≤ spmRows)

/-- A request is well formed by itself (R33, R222). R33 names WINDOWS for a range that ends above 2^48; the same answer
for a TA_BASE that is not 2 MiB aligned and for GRANULES 0 or above 2^27 is the model's (log entry 75). -/
def winReqOk (r : WinReq) : Bool :=
  r.base % granBytes = 0 && decide (1 ≤ r.granules) && decide (r.granules ≤ 2 ^ 27) &&
  decide (r.base + r.granules * granBytes ≤ 2 ^ 48) && !(r.attr = 4 && r.tier = 0)

def anyMeet : List (Nat × Nat) → Bool
  | [] => false
  | a :: m => m.any (rangesMeet a) || anyMeet m

def hostWins (x : Tenancy) : List Window := x.windows.filter fun w => !w.fromSentence

/-- Window requests against the tenancy (R30, R220, R221, R237, R365, R366). -/
def winsOk (x : Tenancy) (n : Nat) (ws : List WinReq) (cs : List Clause) : Bool :=
  let host := hostWins x
  let high := sentHigh ws n
  let far := ceilDiv (tierGrans ws 1) (2 * max 1 n)
  ws.all winReqOk &&
  !anyMeet (ws.map (fun r => (r.base, r.base + r.granules * granBytes)) ++ host.map fun w => (w.base, winEnd w)) &&
  decide (ws.length + host.length ≤ 4096) &&
  decide (sentLow cs + high ≤ if x.group.isSome then x.nearLen - 4 else 1023) &&
  decide (far ≤ x.farLen) &&
  (!(cs.any (·.guard)) || decide (guardNeed cs ≤ ((ws.filter (·.attr = 4)).map (·.granules)).headD 0))

/-- Binding windows have the required attribute (R385). -/
def bindingOk (ws : List Window) (b : Binding) : Bool :=
  ws.any fun w => w.attr = (if b.egress then .output else .input) && decide (w.base ≤ b.base) &&
    decide (b.base + b.granules * granBytes ≤ winEnd w) && b.base % granBytes = 0 && decide (1 ≤ b.granules)

/-- Ports of the bindings through PORT_MAP, and triples bound by other sentences (R385). -/
def mapPorts (s : State) (t : Nat) (bs : List Binding) : Option (List Binding) :=
  let out := bs.map fun b => { b with port := SMap.get 0xFF (tenOf s t).portMap b.lport }
  let taken (b : Binding) : Bool := s.tens.any fun p => p.1 ≠ t && (match p.2.sentence with
    | some y => y.bindings.any fun c => c.port = b.port && c.stream = b.stream && c.egress = b.egress
    | none => false)
  if out.any (fun b => decide (32 ≤ b.port) || taken b) then none else some out

/-- CRC of the image with IMG_CRC taken as zero. -/
def imageCrc (img : List Byte) : Nat := (crc32c (img.take 0x50 ++ [0, 0, 0, 0] ++ img.drop 0x54)).toNat

/-- Reserved fields of header, clause table and window requests; a TIER or ATTR value that the tables leave out counts as
one (log entry 75). -/
def reservedOk (img : List Byte) : Bool :=
  fldN (rd img 0x10 4) 5 27 = 0 && rd img 0x2E 2 = 0 && (img.drop 0x54).take 172 = List.replicate 172 0 &&
  (List.range (rd img 0x0E 2)).all (fun k => rd img (rd img 0x18 8 + 32 * k + 0x1F) 1 < 4) &&
  (List.range (rd img 0x2A 2)).all fun k =>
    let o := rd img 0x30 8 + 16 * k
    rd img (o + 12) 1 ≤ 1 && rd img (o + 13) 1 ≤ 4 && rd img (o + 14) 2 = 0

/-- LOAD's checks up to PORT: the sentence and its windows, or the first reason that applies. R29 gives CLAUSES,
BIND_COUNT and RINGS their ranges and names no reason for a value outside them; the model answers FORMAT for RINGS 0,
CLAUSES 0 or above 4,096, BIND_COUNT above 256 and IMAGE_SIZE below 256 (log entry 75). -/
def checkImage (s : State) (t level size : Nat) (img : List Byte) : Except Nat (Sentence × List Window) :=
  let x := tenOf s t
  let n := rd img 0x0C 2
  let reqs := parseWins img
  let wins := placeWins 0 0 reqs
  let flag (k : Nat) : Bool := fldN (rd img 0x10 4) k 1 = 1
  if rd img 0 4 ≠ 0x5332584C || rd img 8 2 ≠ 256 || rd img 0x40 8 ≠ size || size < 256 || imageCrc img ≠ rd img 0x50 4 ||
      n = 0 || rd img 0x0E 2 = 0 || 4096 < rd img 0x0E 2 || 256 < rd img 0x28 2 then .error rsFormat
  else match sequence ((List.range (rd img 0x0E 2)).map (parseClause img)),
      sequence ((List.range (rd img 0x28 2)).map (parseBinding img)) with
  | some cs, some bs =>
    let cfgs := (cs.map fun c => c.cfg :: c.relocs.map (·.cfg)).flatten
    if !(cfgs.all fun c => shapeOk c.edges && carryOk s.time.beatLog2 c) || !(bs.all (bindingOk (wins ++ hostWins x))) then
      .error rsFormat
    else if 2 < rd img 4 1 then .error rsMajor
    else if level < rd img 6 1 * 256 + rd img 7 1 || (x.auditLevel = 4 && !flag 4) then .error rsLevel
    else if rd img 0x0A 1 < 75 || 100 < rd img 0x0A 1 then .error rsSeam
    else if rd img 0x0B 1 ≠ s.time.beatLog2 then .error rsBeat
    else if x.rings.length < n then .error rsRings
    else if !winsOk x n reqs cs then .error rsWindows
    else if !reservedOk img then .error rsReserved
    else match mapPorts s t bs with
      | none => .error rsPort
      | some bs => .ok (
          { seamFloor := rd img 0x0A 1, beatLog2 := rd img 0x0B 1, rings := n, trapeze := flag 0, detColl := flag 1
            guard := flag 2, spec := flag 3, mirror := flag 4, clauses := cs, bindings := bs, portMap := x.portMap
            low := sentLow cs, high := sentHigh reqs n, nextNear := tierGrans reqs 0, nextFar := tierGrans reqs 1 },
          wins)
  | _, _ => .error rsFormat

end Sys2Proof.Machine
end

