-- ==== Sys2Proof/Machine/Rewind.lean ====
section
/-! DEFINITION. Clearing of sites and rings, window close, context rewinds, the end and the abort of a running sentence
(spec/06_scratchpad.md R168; spec/12_hangs_errors_escalation.md R328, R330, R334, R335; spec/13_hosts_and_tenancy.md
R364 to R367). -/

namespace Sys2Proof.Machine
open Sys2Proof

/-! ### Clearing (R168, R367) -/

/-- A site's tile after a clear: its generation stays, and a fenced site stays fenced. -/
def freshTile (t : Tile) : Tile := { gen := t.gen, st := if t.st = .fenced then .fenced else .unbound }

def clearSite (s : State) (i : Nat) : State := modTile (clearSpm s i) i freshTile

def ringSites (r : Nat) : List Nat := (ringFields r).flatMap fun f => (List.range 72).map (f * 72 + ·)

/-- The pool of a ring: its queues, the commit queue, what waits for a queue or a buffer, and the far-DMA queues. -/
def clearPool (s : State) (r : Nat) : State :=
  let s := modRing s r fun x => { x with queues := [], commitQ := [], ejected := [], words := [] }
  [0, 1].foldl (fun s k => modStack s (ringStack r k) fun x => { x with queue := [], active := [] }) s

/-- The fence and the pool of a ring: the sequence state too, on both sides. -/
def clearFence (s : State) (r : Nat) : State :=
  let s := modRing (clearPool s r) r fun x => { x with srcs := [] }
  { s with reqSeq := s.reqSeq.filter fun p => decide (2 ^ 40 ≤ p.1) || p.1 % 64 ≠ r }

/-- Every near byte of a ring's fields reads zero without poison. -/
def clearNear (s : State) (r : Nat) : State :=
  (ringFields r).foldl (fun s f =>
    modField (memClear s (nearAddr f 0 0) (nearAddr f 32 0)) f fun x => { x with writer := [], xfers := [], dirty := [], staged := [] }) s

/-- The near granules [g, g + n) of every channel of a field. -/
def clearNearShare (s : State) (f g n : Nat) : State :=
  (List.range 32).foldl (fun s c =>
    modField (memClear s (nearAddr f c (g * granBytes)) (nearAddr f c ((g + n) * granBytes))) f fun x =>
      { x with writer := x.writer.filter fun p => !(p.1 / 1024 = c && decide (g ≤ p.1 % 1024) && decide (p.1 % 1024 < g + n)) }) s

/-- The far granules [g, g + n) of a stack are marked unwritten and read zero. -/
def clearFar (s : State) (k g n : Nat) : State :=
  modStack (memClear s (farAddr k (g * granBytes)) (farAddr k ((g + n) * granBytes))) k fun x =>
    { x with written := x.written.filter fun h => decide (h < g) || decide (g + n ≤ h)
             writer := x.writer.filter fun p => decide (p.1 < g) || decide (g + n ≤ p.1) }

/-- Clear what one tenancy held of a ring (R367). -/
def clearShare (s : State) (n r : Nat) : State :=
  let x := tenOf s n
  let own := x.group.isNone || x.resident
  let s := if own then clearFence ((ringSites r).foldl clearSite s) r else s
  let s := (List.range 32).foldl (fun s p => modSport s p fun y =>
    { y with egress := y.egress.filter fun e => e.ten ≠ n || fieldRing (epField e.msg.src) ≠ r }) s
  let s := if x.group.isNone then clearNear s r
    else (ringFields r).foldl (fun s f => clearNearShare s f x.nearBase x.nearLen) s
  [0, 1].foldl (fun s k => clearFar s (ringStack r k) x.farBase x.farLen) s

/-! ### Windows (R267, R334) -/

def closeWin (x : Tenancy) (w : Window) : Tenancy :=
  { x with windows := x.windows.filter (· ≠ w), winGens := SMap.put 0 x.winGens w.base (w.gen + 1) }

def closeWhere (x : Tenancy) (p : Window → Bool) : Tenancy := (x.windows.filter p).foldl closeWin x

/-! ### Reserve rings (R295) -/

def plyRings (p : Nat) : List Nat := (List.range 16).map (p * 16 + ·)

/-- Highest-numbered whole FREE ring of a ply. -/
def bestFree (s : State) (p : Nat) : Option Nat :=
  (plyRings p).reverse.find? fun r => (ringOf s r).st = .free && ringWhole s r 75

/-- A ply below its number of reserves makes whole FREE rings RESERVE. -/
def topUp (s : State) (p : Nat) : State :=
  (List.range 4).foldl (fun s _ =>
    if ((plyRings p).filter fun r => (ringOf s r).st = .reserve).length < s.box.set.reservePerPly then
      match bestFree s p with
      | some r => modRing s r fun x => { x with st := .reserve }
      | none => s
    else s) s

/-! ### Context rewind (R335) -/

/-- What a ring's pool keeps once the entries of one tenancy are gone; `words` says whether its tiles run for that tenancy. -/
def dropPool (n : Nat) (words : Bool) (x : Ring) : Ring :=
  let other (d : DataMsg) : Bool := d.ten.toNat ≠ n
  { x with
    queues := (x.queues.map fun q => (q.1, q.2.filter other)).filter fun q => !q.2.isEmpty
    commitQ := x.commitQ.filter fun e => other e.msg
    ejected := x.ejected.filter fun q => other q.2
    words := if words then [] else x.words }

/-- Descriptors of a tenancy leave a stack's far-DMA engine. -/
def dropJobs (n : Nat) (x : Stack) : Stack :=
  { x with queue := x.queue.filter (fun j => j.msg.ten.toNat ≠ n), active := x.active.filter fun j => j.msg.ten.toNat ≠ n }

/-- Requests, queued packets and held outputs of a tenancy go, in the far-DMA engines of its far homes too, without a completion
to a tile; those of other tenancies of its rings stay. -/
def dropRequests (s : State) (n : Nat) : State :=
  let rs := boundRings s n
  let homes := match (tenOf s n).sentence with | some y => y.farHome.foldl NSet.add rs | none => rs
  let s := s.tiles.foldl (fun s p => if rs.contains (siteRing p.1)
    then modTile s p.1 fun t => { t with reqs := t.reqs.filter fun q => q.msg.ten.toNat ≠ n } else s) s
  let s := { s with
    agentReqs := (s.agentReqs.map fun p => (p.1, p.2.filter fun q => q.msg.ten.toNat ≠ n)).filter fun p => !p.2.isEmpty
    agentPark := s.agentPark.filter fun d => d.ten.toNat ≠ n }
  let s := rs.foldl (fun s r => modRing s r (dropPool n (ringTen s r = some n))) s
  let s := homes.foldl (fun s r => [0, 1].foldl (fun s k => modStack s (ringStack r k) (dropJobs n)) s) s
  (List.range 32).foldl (fun s p => modSport s p fun x =>
    { x with egress := x.egress.filter fun e => e.ten ≠ n || e.released }) s

/-- The tenancy's running context is thrown away: TEN_GEN + 1. -/
def contextRewind (s : State) (n : Nat) : State :=
  let s := dropRequests (localAborts s n) n
  let s := (tenOf s n).reads.foldl (fun s r => complete s r.w stRewound 0) s
  modTen s n fun x => { x with gen := x.gen + 1, reads := [] }

/-! ### The end of a run -/

/-- A tile whose clause no longer runs: bound and idle, or still halted or fenced. -/
def idleTile (t : Tile) : Tile :=
  match t.st with
  | .halted | .fenced | .unbound => t
  | _ => { t with st := .idle, grace := false, provIn := false, waits := [], dynQ := [], sb := [], rules := []
                  matchBuf := [], matchOvf := false, ovfDue := false, oldRows := [], driven := []
                  eng := { t.eng with ports := [], waiting := [] } }

def idleTiles (s : State) (n : Nat) : State := (clauseSites s n).foldl (fun s i => modTile s i idleTile) s

/-- Rings a tenancy gives up start clearing: exclusive rings are RESETTING. -/
def beginClear (s : State) (n : Nat) (rs : List Nat) : State :=
  let x := tenOf s n
  let s := if x.group.isSome then s
    else rs.foldl (fun s r => modRing s r fun y => { y with st := .resetting, clearing := true }) s
  modTen s n fun x => { x with st := .clearing, releasing := rs }

/-- Free a tenancy's number; its generations go on from their last values (R363). -/
def dropTenancy (s : State) (n : Nat) : State :=
  let x := tenOf s n
  setTen s n { gen := x.gen, winGens := x.winGens, auditLevel := 2, replayK := 3 }

/-- TEN_DESTROY after its stop: every window closes, reads that waited complete CLOSED, and the rings
are cleared. -/
def destroyNow (s : State) (n : Nat) : State :=
  let s := (tenOf s n).reads.foldl (fun s r => complete s r.w stClosed 0) s
  let s := modTen s n fun x => { closeWhere x (fun _ => true) with sentence := none, loading := none, reads := [] }
  let x := tenOf s n
  if x.rings.isEmpty then completeOpt (dropTenancy s n) x.destroyBy stOk 0
  else beginClear s n x.rings

/-- The rehearsal that waits for a tenancy's recovery is over; one whose word has not been read still waits for the read. -/
def endRehearsal (s : State) (u : Run) : State :=
  match u.rehearsedAt with
  | some _ => if s.box.reh.poisonNext.isEmpty
      then modBox s fun b => { b with reh := { b.reh with status := 3, refused := false, stall := none } } else s
  | none => s

/-- A run ends: RUN and STOP complete, the tiles are idle where they are its own (R367), and a destroy that waited goes on. -/
def endRun (s : State) (n : Nat) (status : Nat) : State :=
  let x := tenOf s n
  match x.run with
  | none => s
  | some u =>
    let s := endRehearsal (if x.group.isNone || x.resident then idleTiles s n else s) u
    let s := modTen s n fun x => { x with run := none, st := if x.rings.isEmpty then .created else .ready }
    let s := completeOpt (completeOpt s u.runBy status x.lastCommitted) u.stopBy status x.lastCommitted
    if (tenOf s n).destroyBy.isSome then destroyNow s n else s

/-- The level that a rehearsed fault of a kind takes its clause to (R323). -/
def rehearsedLevel (kind : Nat) : Nat := match kind with | 1 => 2 | 2 => 1 | 5 => 3 | _ => 0

/-- Count an entry of a ladder level or an abort (0x4101:04 to 08), rehearsed ones excluded (R325): an entry above the rehearsed
level is real. -/
def countEntry (s : State) (n : Option Nat) (k : Nat) : State :=
  if rehearsedOn s n && (k = 6 || decide (k ≤ rehearsedLevel s.box.reh.kind)) then s else modBox s fun b => { b with entries := addEntry b.entries k }
where
  addEntry (m : List (Nat × Nat)) (k : Nat) : List (Nat × Nat) := SMap.put 0 m k (SMap.get 0 m k + 1)

/-- Abort of a running clause with a class E record (R330, R335). -/
def abortClause (s : State) (n code detail : Nat) : State :=
  if (tenOf s n).run.isNone then s
  else endRun (contextRewind (countEntry (evModule s 4 code detail (some n)) (some n) 6) n) n stAborted

/-! ### Clearing done -/

/-- A cleared share: the ring is FREE, or DEGRADED where a field of it has been retired (R295), unless another tenancy of the group
holds it. -/
def clearedRing (s : State) (n r : Nat) : State :=
  let s := clearShare s n r
  let s := modTen s n fun x => { x with releasing := x.releasing.filter (· ≠ r), rings := x.rings.filter (· ≠ r) }
  let held := s.tens.any fun p => p.2.st ≠ .none_ && p.2.rings.contains r
  let s := if held then s
    else
      let st : RingSt := if (ringFields r).any fun f => (fieldOf s f).retired then .degraded else .free
      topUp (modRing s r fun x => { x with st := st, clearing := false }) (ringPly r)
  evRing s r 0 0x0A04 r

/-- A SWITCH that waits for a resident which leaves its group completes BUSY (log entry 61). -/
def dropSwitch (s : State) (n : Nat) : State :=
  completeOpt (modTen s n fun x => { x with switchReq := false, switchBy := none }) (tenOf s n).switchBy stBusy 0

/-- CLEAR_DONE (R367). -/
def execClearDone (ring : RingId) (s : State) : Host.Outcome State Fault Refusal :=
  .next (
    match s.tens.find? (fun p => p.2.releasing.contains (ring : Nat)) with
    | none => s
    | some (n, _) =>
      let s := clearedRing s n ring
      let x := tenOf s n
      if !x.releasing.isEmpty then s
      else if x.destroyBy.isSome then completeOpt (dropTenancy (dropSwitch s n) n) x.destroyBy stOk 0
      else
        let s := modTen (dropSwitch s n) n fun y => { y with
          st := if y.rings.isEmpty then .created else .ready, releaseBy := none
          group := if y.rings.isEmpty then none else y.group, resident := !y.rings.isEmpty && y.resident }
        completeOpt s x.releaseBy stOk 0)

/-! ### Counts of failed recoveries (R326) -/

/-- The window of R326 in ns. -/
def escWindow : Nat := 10000000000

def recent (now : Nat) (ts : List Nat) : List Nat := ts.filter fun t => decide (now ≤ t + escWindow)

/-- Row of R330's table for each direct cause. -/
def causeCount : Nat := 0
def causeSecond : Nat := 5
def causeQueue : Nat := 6
def causeRingmaster : Nat := 7
def causeTick : Nat := 8
def causeWrite : Nat := 9
def causeTest : Nat := 10

/-- Level 5: ask for a power cycle (R332). -/
def requestPower (s : State) (cause : Nat) : State :=
  let s := countEntry (evModule s 5 0x0802 cause none 5) none 5
  { modBox s fun b => { b with pwrPending := true } with pins := { s.pins with pwrcycleReq := true } }

/-- Level 4 is entered: the tick stops at the next tick (R330, R452). -/
def startReset (s : State) (cause : Nat) : State :=
  if s.box.state ≠ .ready || s.box.resetStart.isSome then s
  else
    let s := countEntry (evModule s 5 0x0801 cause none 4) none 4
    modBox s fun b => { b with resetStart := some s.time.uptime }

/-- A failed recovery at the partition level; the second within the window enters level 4. -/
def partitionFails (s : State) : State :=
  let ts := recent s.time.uptime s.box.partFails ++ [s.time.uptime]
  let s := modBox s fun b => { b with partFails := ts }
  if 2 ≤ ts.length then startReset s causeCount else s

/-! ### A Ringmaster's actions and their queue (R349) -/

/-- An SVC packet between two Ringmasters (R24, R272): a request or its result. -/
def rmPacket (s : State) (p q : Nat) : State :=
  sendCtl s { ctype := .svc, src := ringmasterEp p, dst := ringmasterEp q, arg := Config.serviceArg p }

/-- The Ringmaster of a ply answers the other plies' requests for its reserves. -/
def serveGuests (s : State) (p : Nat) : State :=
  let gs := (plyOf s p).guests
  if gs.isEmpty then s
  else gs.foldl (fun s r => rmPacket s p (ringPly r)) (modPly s p fun x => { x with guests := [] })

/-- The Ringmaster of a ring that needs a reserve asks another ply's, which answers between its own actions, ahead of its queue
(R272, R349). -/
def askReserve (s : State) (r p : Nat) : State :=
  let s := modPly (rmPacket s (ringPly r) p) p fun x => { x with guests := NSet.add x.guests r }
  if (plyOf s p).busy.isNone then serveGuests s p else s

/-- An action begins: of a ring at a level, or the binding of tenancy n, which stands as (64 + n, 0). -/
def beginAction (s : State) (p : Nat) (a : Option (Nat × Nat)) : State :=
  modPly s p fun x => { x with busy := a, busyAt := s.time.uptime }

/-- Start a ring's action, or queue it; a 17th request starts a compute reset. -/
def askPly (s : State) (r level : Nat) : State :=
  let p := ringPly r
  let x := plyOf s p
  if x.busy.isNone then beginAction s p (some (r, level))
  else if x.repairQ.length < 16 then modPly s p fun x => { x with repairQ := x.repairQ ++ [(r, level)] }
  else startReset (evModule s 5 0x0804 p) causeQueue

/-- The ply's Ringmaster works for a ring at a level. -/
def servesRing (s : State) (r level : Nat) : Bool := (plyOf s (ringPly r)).busy = some (r, level)

/-- A ring's clause still runs, or is being taken over from it. -/
def wantsRepair (s : State) (r : Nat) : Bool :=
  (ringRun s r).isSome || s.tens.any fun p => match p.2.run with
    | some u => u.moved.any fun q => q.2 = r
    | none => false

/-- First queued request whose ring still has a clause to repair. -/
def nextRepair (s : State) : List (Nat × Nat) → Option (Nat × Nat) × List (Nat × Nat)
  | [] => (none, [])
  | q :: rest => if wantsRepair s q.1 then (some q, rest) else nextRepair s rest

/-- The action of a ply's Ringmaster ends: it answers other plies, and its next request starts. -/
def endAction (s : State) (p : Nat) (q : List (Nat × Nat)) : State :=
  let (n, rest) := nextRepair s q
  beginAction (modPly (serveGuests s p) p fun x => { x with repairQ := rest }) p n

/-- A ring's action ends or is given up; the next request starts. -/
def finishPly (s : State) (r : Nat) : State :=
  let p := ringPly r
  let x := plyOf s p
  let q := x.repairQ.filter fun q => q.1 ≠ r
  match x.busy with
  | some (b, _) => if b = r then endAction s p q else modPly s p fun x => { x with repairQ := q }
  | none => modPly s p fun x => { x with repairQ := q }

/-- The lead Ringmaster binds a sentence, where no other action occupies it (R285, R349). -/
def beginBinding (s : State) (n : Nat) : State :=
  match s.box.lead with
  | some p => if (plyOf s p).busy.isNone then beginAction s p (some (64 + n, 0)) else s
  | none => s

/-- An action of the lead that is not this binding is in progress. -/
def bindingWaits (s : State) (n : Nat) : Bool :=
  match s.box.lead with
  | some p => (match (plyOf s p).busy with | some a => decide (a ≠ (64 + n, 0)) | none => false)
  | none => false

/-- The binding is done or given up. -/
def endBinding (s : State) (n : Nat) : State :=
  (List.range 4).foldl (fun s p =>
    if (plyOf s p).busy = some (64 + n, 0) then endAction s p (plyOf s p).repairQ else s) s

/-- The repairs of a tenancy's rings end (R348). -/
def endRepairs (s : State) (n : Nat) : State :=
  let left := match (tenOf s n).run with | some u => u.moved.map (·.2) | none => []
  (boundRings s n ++ left).foldl (fun s r => finishPly (modRing s r fun x => { x with repair := none }) r) s

/-- An abort ends the clause's repairs as well. -/
def abortRun (s : State) (n code detail : Nat) : State := endRepairs (abortClause s n code detail) n

/-- An abort whose class E record has been written already. -/
def abortWritten (s : State) (n : Nat) : State :=
  if (tenOf s n).run.isNone then s
  else endRepairs (endRun (contextRewind (countEntry s (some n) 6) n) n stAborted) n

end Sys2Proof.Machine
end

