-- ==== Sys2Proof/Machine/Tenancy.lean ====
section
/-! DEFINITION. The commands of the host queues: tenancies, rings, windows, sentences and small DMA
(spec/13_hosts_and_tenancy.md R354 to R358, R363 to R368; spec/02_programming_model.md R30;
spec/10_placement_and_repair.md R284, R285). An entry is checked for its form, then for the role, then for the state
(log entry 23). -/

namespace Sys2Proof.Machine
open Sys2Proof

/-- A command of the host queues: INVALID, ROLE, then its own effect. -/
def command (s : State) (p : HPortId) (q : QId) (e : BitVec 512) (ok role : Bool) (go : State → Waiter → State) : State :=
  fetch s p q e fun s w =>
    if !ok then complete s w stInvalid 0 else if !role then complete s w stRole 0 else go s w

def busy (s : State) (w : Waiter) : State := complete s w stBusy 0

/-- Compute is up: rings can be assigned, loaded and run (R446). -/
def computeUp (s : State) : Bool := s.box.state = .ready

def ringsOf (mask : Nat) : List Nat := allRings.filter fun r => fldN mask r 1 = 1

/-! ### Tenancies -/

/-- TEN_CREATE: the lowest free number. -/
def execTenCreate (port : HPortId) (q : QId) (e : BitVec 512) (s : State) : Host.Outcome State Fault Refusal :=
  .next (
    let target := eOp e 0 3
    command s port q e (entryOk e 3 && (hportOf s target).role ≠ .observer) (isOwner s port) fun s w =>
      match (List.range 64).find? (fun n => (tenOf s n).st = .none_) with
      | none => busy s w
      | some n =>
        complete (modTen s n fun x => { x with st := .created, port := target }) w stOk n)

/-- TEN_DESTROY: a running sentence first stops, as STOP does. -/
def execTenDestroy (port : HPortId) (q : QId) (e : BitVec 512) (s : State) : Host.Outcome State Fault Refusal :=
  .next (
    let n := eTen e
    command s port q e (entryOk e 0) (isOwner s port) fun s w =>
      let x := tenOf s n
      if x.st = .none_ || x.st = .clearing || x.destroyBy.isSome || x.binding.isSome then busy s w
      else
        let s := modTen s n fun x => { x with destroyBy := some w }
        if x.st = .switchedOut then endRun s n stOk
        else if x.run.isSome then modRun s n fun u => { u with stopReq := true }
        else destroyNow s n)

/-- Share of a group's ring that fits beside the others: the lowest base (log entry 24). -/
def fitBase (used : List (Nat × Nat)) (len total : Nat) : Option Nat :=
  ((0 :: used.map fun u => u.1 + u.2).filter fun b =>
    decide (b + len ≤ total) && used.all fun u => !rangesMeet (b, b + len) (u.1, u.1 + u.2)).foldl
      (fun m b => match m with | some c => some (min b c) | none => some b) none

/-- RING_ASSIGN in exclusive mode (R364). -/
def assignExclusive (s : State) (w : Waiter) (n : Nat) (rs : List Nat) : State :=
  let x := tenOf s n
  if x.group.isSome || !(rs.all fun r => (ringOf s r).st = .free && ringWhole s r 75) then busy s w
  else
    let s := rs.foldl (fun s r => modRing s r fun y => { y with st := .assigned }) s
    complete (modTen s n fun x => { x with
      rings := rs.foldl NSet.add x.rings, st := if rs.isEmpty && x.rings.isEmpty then .created else .ready
      nearBase := 0, nearLen := 1023, farBase := 0, farLen := 262144, resident := true }) w stOk 0

/-- RING_ASSIGN in shared mode (R364, R365). -/
def assignShared (s : State) (w : Waiter) (n g near far : Nat) (rs : List Nat) : State :=
  let mates := s.tens.filter fun p => p.2.group = some g && p.2.st ≠ .none_
  let fits := (fitBase (mates.map fun p => (p.2.nearBase, p.2.nearLen)) near 1023,
    fitBase (mates.map fun p => (p.2.farBase, p.2.farLen)) far 262144)
  let total := mates.foldl (fun m p => (m.1 + p.2.nearLen, m.2 + p.2.farLen)) (near, far)
  let free := rs.all fun r => (ringOf s r).st = .free && ringWhole s r 75
  if !(tenOf s n).rings.isEmpty || rs.isEmpty || 4 ≤ mates.length || (mates.isEmpty && !free) ||
      mates.any (fun p => p.2.rings ≠ rs || p.2.st = .clearing) || 1023 < total.1 || 262144 < total.2 then busy s w
  else match fits with
    | (some nb, some fb) =>
      let s := rs.foldl (fun s r => modRing s r fun y => { y with st := .assigned }) s
      complete (modTen s n fun x => { x with
        rings := rs, st := .ready, group := some g, nearBase := nb, nearLen := near, farBase := fb, farLen := far
        resident := mates.isEmpty }) w stOk 0
    | _ => busy s w

/-- RING_ASSIGN. -/
def execRingAssign (port : HPortId) (q : QId) (e : BitVec 512) (s : State) : Host.Outcome State Fault Refusal :=
  .next (
    let n := eTen e
    let shared := eOp e 64 1 = 1
    let ok := entryOk e 96 && (!shared || (decide (eOp e 67 10 ≤ 1023) && decide (eOp e 77 19 ≤ 262144)))
    command s port q e ok (isOwner s port) fun s w =>
      let x := tenOf s n
      if !computeUp s || (x.st ≠ .created && x.st ≠ .ready) || x.binding.isSome || x.destroyBy.isSome then busy s w
      else if shared then assignShared s w n (eOp e 65 2) (eOp e 67 10) (eOp e 77 19) (ringsOf (eOp e 0 64))
      else assignExclusive s w n (ringsOf (eOp e 0 64)))

/-- A ring holds a granule of an open host window (R366). -/
def holdsHost (x : Tenancy) (r : Nat) : Bool :=
  x.windows.any fun w => match w.place with
    | .host gs => gs.any fun g => stackRing g.1 = r
    | _ => false

/-- RING_RELEASE. -/
def execRingRelease (port : HPortId) (q : QId) (e : BitVec 512) (s : State) : Host.Outcome State Fault Refusal :=
  .next (
    let n := eTen e
    let rs := ringsOf (eOp e 0 64)
    command s port q e (entryOk e 64) (isOwner s port) fun s w =>
      let x := tenOf s n
      let bound := match x.sentence with | some y => y.bound | none => []
      if x.st ≠ .ready || x.binding.isSome || x.destroyBy.isSome || rs.isEmpty ||
          rs.any (fun r => !x.rings.contains r || bound.contains r || holdsHost x r) ||
          (x.group.isSome && rs ≠ x.rings) then busy s w
      else beginClear (modTen s n fun x => { x with releaseBy := some w }) n rs)

/-- SLICE_SET. -/
def execSliceSet (port : HPortId) (q : QId) (e : BitVec 512) (s : State) : Host.Outcome State Fault Refusal :=
  .next (
    let n := eTen e
    command s port q e (entryOk e 20) (isOwner s port) fun s w =>
      if (tenOf s n).st = .none_ then busy s w
      else complete (modTen s n fun x => { x with quantum := eOp e 0 20 }) w stOk 0)

/-! ### Turns of a group (R368) -/

/-- A sentence is loaded: after a compute reset only its windows stay (R331). -/
def sentenceLoaded (x : Tenancy) : Bool := match x.sentence with | some y => !y.clauses.isEmpty | none => false

/-- The next tenancy of a group that has a sentence loaded, in order of number after `n`. -/
def nextTurn (s : State) (g n : Nat) (needRun : Bool) : Option Nat :=
  ((List.range 63).map fun k => (n + 1 + k) % 64).find? fun m =>
    let x := tenOf s m
    x.group = some g && sentenceLoaded x && x.st ≠ .clearing && (!needRun || x.run.isSome)

def residentOf (s : State) (g : Nat) : Option Nat :=
  (s.tens.find? fun p => p.2.group = some g && p.2.resident).map (·.1)

/-- SWITCH: at the resident's next clause boundary. -/
def execSwitch (port : HPortId) (q : QId) (e : BitVec 512) (s : State) : Host.Outcome State Fault Refusal :=
  .next (
    let g := eOp e 0 2
    command s port q e (entryOk e 2) (isOwner s port) fun s w =>
      match residentOf s g with
      | none => busy s w
      | some n =>
        if (nextTurn s g n false).isNone || (tenOf s n).switchBy.isSome then busy s w
        else modTen s n fun x => { x with switchReq := true, switchBy := some w })

/-- TIME_SLICE_QUANTUM: the resident's turn is over. -/
def execTimeSliceQuantum (group : Fin 4) (s : State) : Host.Outcome State Fault Refusal :=
  .next (
    match residentOf s group with
    | none => s
    | some n =>
      let x := tenOf s n
      match x.run with
      | some _ => if x.quantum ≠ 0 && decide (x.quantum ≤ x.sinceIn) && (nextTurn s group n false).isSome
        then modTen s n fun x => { x with switchReq := true } else s
      | none => s)

/-! ### Host windows (R366) -/

/-- Granules of a new host window, each with its number: the next free positions. -/
def hostGrans (x : Tenancy) : Nat → Nat → Nat → List (Nat × (Nat × Nat))
  | 0, _, _ => []
  | _, 0, _ => []
  | fuel + 1, k + 1, h =>
    let r := max 1 x.rings.length
    match x.rings[h / 2 % r]? with
    | none => []
    | some ring =>
      let p := (ringStack ring (h % 2), x.farBase + x.farLen - 1 - h / (2 * r))
      let used := x.windows.any fun w => match w.place with | .host gs => gs.contains p | _ => false
      if x.farLen ≤ h / (2 * r) then []
      else if used then hostGrans x fuel (k + 1) (h + 1)
      else (h, p) :: hostGrans x fuel k (h + 1)

/-- Number of the first host granule after those of the open windows. -/
def hostCount (x : Tenancy) : Nat :=
  x.windows.foldl (fun n w => match w.place with | .host gs => n + gs.length | _ => n) 0

/-- A far granule, by stack and place, is one that a sentence's windows reach, its virtual rings' far homes being `homes` (R221,
R365). -/
def reachesFar (x : Tenancy) (y : Sentence) (homes : List Nat) (g : Nat × Nat) : Bool :=
  decide (x.farBase ≤ g.2) && homes.zipIdx.any fun r => [0, 1].any fun k =>
    ringStack r.1 k = g.1 && decide (2 * max 1 y.rings * (g.2 - x.farBase) + 2 * r.2 + k < y.nextFar)

/-- Granules of the open host windows. -/
def hostHeld (x : Tenancy) : List (Nat × Nat) :=
  x.windows.flatMap fun w => match w.place with | .host gs => gs | _ => []

/-- WIN_OPEN: a far INPUT window. -/
def execWinOpen (port : HPortId) (q : QId) (e : BitVec 512) (s : State) : Host.Outcome State Fault Refusal :=
  .next (
    let n := eTen e
    let base := eOp e 0 48
    let k := eOp e 48 27
    let ok := entryOk e 75 && base % granBytes = 0 && decide (1 ≤ k) && decide (base + k * granBytes ≤ 2 ^ 48)
    command s port q e ok (mayCommand s port n) fun s w =>
      let x := tenOf s n
      let hs := hostGrans x (k + 2 * hostCount x + 1) k x.hostNext
      let gs := hs.map (·.2)
      if !computeUp s || x.rings.isEmpty || x.st = .clearing || x.destroyBy.isSome || 4096 ≤ x.windows.length ||
          x.windows.any (fun v => rangesMeet (base, base + k * granBytes) (v.base, winEnd v)) || gs.length < k ||
          gs.any (fun g => x.sentence.any fun y => reachesFar x y y.farHome g) then busy s w
      else
        let win : Window := { base := base, granules := k, attr := .input, place := .host gs
                              gen := SMap.get 0 x.winGens base, fromSentence := false }
        complete (modTen s n fun x => { x with windows := x.windows ++ [win], hostNext := (hs.getLast?.map (·.1 + 1)).getD x.hostNext }) w stOk win.gen.toNat)

/-- WIN_CLOSE. -/
def execWinClose (port : HPortId) (q : QId) (e : BitVec 512) (s : State) : Host.Outcome State Fault Refusal :=
  .next (
    let n := eTen e
    command s port q e (entryOk e 48) (mayCommand s port n) fun s w =>
      match (tenOf s n).windows.find? (fun v => v.base = eOp e 0 48) with
      | none => complete s w stInvalid 0
      | some v =>
        complete (modTen s n fun x => closeWin x v) w stOk 0)

/-! ### Sentences -/

/-- The interface level of the port that commands. -/
def levelOf (s : State) (p : Nat) : Nat := (hportOf s p).path.level

/-- LOAD: the checks of R30; binding follows (R285). An image outside an INPUT or MASTER window is INVALID (R366, log
entry 23). -/
def execLoad (port : HPortId) (q : QId) (e : BitVec 512) (s : State) : Host.Outcome State Fault Refusal :=
  .next (
    let n := eTen e
    let ta := eOp e 0 48
    let size := eOp e 64 48
    command s port q e (entryOk e 112 && eOp e 48 16 = 0) (mayCommand s port n) fun s w =>
      let x := tenOf s n
      if !computeUp s || x.st ≠ .ready || x.run.isSome || x.binding.isSome || x.destroyBy.isSome then busy s w
      else match winAt x ta with
        | none => complete s w stInvalid 0
        | some v =>
          if (v.attr ≠ .input && v.attr ≠ .master) || winEnd v < ta + size then complete s w stInvalid 0
          else match checkImage s n (levelOf s port) size (winBytes s x v ta size) with
            | .error r => complete s w stRefused r
            | .ok l => beginBinding (modTen s n fun x => { x with binding := some w, loading := some l }) n)

/-- The writer tags of a tenancy's SPILL granules are cleared (R205). -/
def clearTags (s : State) (n : Nat) : State :=
  let x := tenOf s n
  let inNear (g : Nat) : Bool := decide (x.nearBase ≤ g) && decide (g < x.nearBase + x.nearLen)
  let inFar (g : Nat) : Bool := decide (x.farBase ≤ g) && decide (g < x.farBase + x.farLen)
  x.rings.foldl (fun s r =>
    let s := (ringFields r).foldl (fun s f => modField s f fun y =>
      { y with writer := y.writer.filter fun p => !inNear (p.1 % 1024) }) s
    [0, 1].foldl (fun s k => modStack s (ringStack r k) fun y =>
      { y with writer := y.writer.filter fun p => !inFar p.1 }) s) s

/-- BINDING_COMPLETE: the greedy search of R284; the sentence that was loaded before gives way. It waits while the lead Ringmaster
is at another action (R349). A sentence whose far windows would reach a granule of a host window is refused once its rings are known
(R366). -/
def execBindingComplete (ten : TenId) (s : State) : Host.Outcome State Fault Refusal :=
  .next (
    let x := tenOf s ten
    match x.loading with
    | none => s
    | some (y, ws) =>
      if bindingWaits s ten then s else
      let taken := endBinding (modTen s ten fun x => { x with loading := none, binding := none }) ten
      match bindRings s x y with
      | none => completeOpt taken x.binding stRefused rsPlace
      | some bound =>
        if (hostHeld x).any (reachesFar x y bound) then completeOpt taken x.binding stRefused rsWindows else
        let s := modTen taken ten fun x =>
          let x := closeWhere x (·.fromSentence)
          { x with sentence := some { y with bound := bound, farHome := bound }
                   windows := x.windows ++ ws.map fun v => { v with gen := SMap.get 0 x.winGens v.base } }
        completeOpt (clearTags s ten) x.binding stOk 0)

/-- RUN: the sentence starts at the next tick; its job's energy counts from here (R440). -/
def execRun (port : HPortId) (q : QId) (e : BitVec 512) (s : State) : Host.Outcome State Fault Refusal :=
  .next (
    let n := eTen e
    command s port q e (entryOk e 0) (mayCommand s port n) fun s w =>
      let x := tenOf s n
      match x.sentence with
      | none => busy s w
      | some y =>
        if !sentenceLoaded x || !computeUp s || x.st ≠ .ready || x.run.isSome || x.binding.isSome || x.destroyBy.isSome then busy s w
        else if y.beatLog2 ≠ s.time.beatLog2 then complete s w stRefused rsBeat
        else modTen s n fun x => { x with
          run := some { runBy := some w, level := x.auditLevel, k := x.replayK }
          jobNj := 0, tenNj := x.tenNj + x.accNj, accNj := 0
          st := if x.resident then .running else .switchedOut })

/-- STOP takes effect at the next tick. -/
def execStop (port : HPortId) (q : QId) (e : BitVec 512) (s : State) : Host.Outcome State Fault Refusal :=
  .next (
    let n := eTen e
    command s port q e (entryOk e 0) (mayCommand s port n) fun s w =>
      match (tenOf s n).run with
      | none => busy s w
      | some u =>
        if u.stopReq then busy s w
        else
          let s := modRun s n fun u => { u with stopReq := true, stopBy := some w }
          if (tenOf s n).st = .switchedOut then endRun s n stOk else s)

/-- UNLOAD closes the sentence's windows. -/
def execUnload (port : HPortId) (q : QId) (e : BitVec 512) (s : State) : Host.Outcome State Fault Refusal :=
  .next (
    let n := eTen e
    command s port q e (entryOk e 0) (mayCommand s port n) fun s w =>
      let x := tenOf s n
      if x.sentence.isNone || x.run.isSome || x.binding.isSome || x.destroyBy.isSome then busy s w
      else complete (modTen s n fun x => { closeWhere x (·.fromSentence) with sentence := none }) w stOk 0)

/-! ### Small DMA (R358) -/

def dmaOk (e : BitVec 512) : Bool :=
  entryOk e 145 && eOp e 48 16 = 0 && eOp e 0 6 = 0 && decide (64 ≤ eOp e 128 17) && decide (eOp e 128 17 ≤ 65536) &&
  eOp e 128 6 = 0

/-- Ring whose fence checks an access to a window. -/
def winRing (x : Tenancy) (w : Window) (ta : Nat) : Nat :=
  match winAddr x w ta with
  | some a => maRing a
  | none => (x.rings.headD 0)

/-- An earlier small DMA command of the same queue has not been applied, so a later one waits (R358). -/
def dmaBehind (x : Tenancy) (w : Waiter) : Bool := x.reads.any fun r => r.w.port = w.port && r.w.q = w.q

/-- The fence of a window's ring applies or refuses one small DMA command; false while it has to wait: beats that wrote the range
of a read have still to commit, or the ring is dark (R23). A ring declared lost refuses it: no status of R357 is for NACK LOST, it
completes CLOSED (DESIGN CHOICE, log entry 82). After a port reset the data still goes to the host and only the completion is
discarded (R352). -/
def serveDma (s : State) (n : Nat) (r : HostRead) : State × Bool :=
  let x := tenOf s n
  match winAt x r.ta with
  | none => (complete (countNack s (x.rings.headD 0) (some n) nackClosed) r.w stClosed 0, true)
  | some v =>
    if rangeDark s x v r.ta r.len then
      if (ringOf s (winRing x v r.ta)).ejectOff then (complete s r.w stClosed 0, true) else (s, false)
    else match r.data with
    | some bs =>
      if !mayWrite .host v.attr then (complete (countNack s (winRing x v r.ta) (some n) nackDenied) r.w stDenied 0, true)
      else (complete (winWrite s x v r.ta bs) r.w stOk 0, true)
    | none =>
      if !mayRead .host v.attr then (complete (countNack s (winRing x v r.ta) (some n) nackDenied) r.w stDenied 0, true)
      else if rangePending s n r.ta r.len then (s, false)
      else
        let p : Nat := r.w.port
        let s := noteRange s (fun k => winAddr x v (r.ta + k)) r.len
        let s := hostWrite s p r.host (winBytes s x v r.ta r.len)
        (complete s r.w stOk 0, true)

/-- A small DMA command is applied now, or waits behind those of its queue and for its fence. -/
def startDma (s : State) (n : Nat) (r : HostRead) : State :=
  let wait : State := modTen s n fun x => { x with reads := x.reads ++ [r] }
  if dmaBehind (tenOf s n) r.w then wait
  else match serveDma s n r with
    | (s, true) => s
    | (_, false) => wait

/-- DMA_WR: applied at the fence, whole. A range that lies within no window is INVALID (R358). -/
def execDmaWr (port : HPortId) (q : QId) (e : BitVec 512) (data : List Byte) (s : State) :
    Host.Outcome State Fault Refusal :=
  .next (
    let n := eTen e
    let ta := eOp e 0 48
    let len := eOp e 128 17
    command s port q e (dmaOk e) (mayCommand s port n) fun s w =>
      let x := tenOf s n
      match winAt x ta with
      | none => complete s w stInvalid 0
      | some v =>
        if winEnd v < ta + len then complete s w stInvalid 0
        else startDma s n ⟨w, ta, len, 0, some (padTo 0 len data)⟩)

/-- DMA_RD: committed data only. -/
def execDmaRd (port : HPortId) (q : QId) (e : BitVec 512) (s : State) : Host.Outcome State Fault Refusal :=
  .next (
    let n := eTen e
    let ta := eOp e 0 48
    let len := eOp e 128 17
    command s port q e (dmaOk e) (mayCommand s port n) fun s w =>
      let x := tenOf s n
      match winAt x ta with
      | none => complete s w stInvalid 0
      | some v =>
        if winEnd v < ta + len then complete s w stInvalid 0
        else startDma s n ⟨w, ta, len, eOp e 64 64, none⟩)

/-- What waited is applied as far as it goes, the commands of one queue in order (R358). -/
def serveReads (s : State) (n : Nat) : State :=
  (tenOf s n).reads.foldl (fun s r => startDma s n r) (modTen s n fun x => { x with reads := [] })

end Sys2Proof.Machine
end

