-- ==== Sys2Proof/Machine/Recovery.lean ====
section
/-! DEFINITION. Binding, restores and the levels of the escalation ladder: engine, partition, module compute reset,
power cycle (spec/10_placement_and_repair.md R280 to R299; spec/12_hangs_errors_escalation.md R326 to R332, R348 to
R350; spec/08_memory_tiers.md R216, R237 to R239). -/

namespace Sys2Proof.Machine
open Sys2Proof

/-! ### Binding (R286) -/

/-- The column a row vacates, 0xF for none. -/
def shiftOf (cols : List Nat) : Nat :=
  match cols with
  | [c] => if c = 8 then 0xF else c
  | _ => 0xF

/-- Shift state of a field for a clause. -/
def rowShifts (s : State) (f : Nat) (trapeze : Bool) : List (Nat × Nat) :=
  (List.range 8).foldl (fun m p =>
    let cols := if trapeze then deadCols s f (p / 2 * 2) ++ deadCols s f (p / 2 * 2 + 1) else deadCols s f p
    SMap.put 0xF m p (shiftOf cols)) []

/-- A site's tile leaves it: the site is cleared, and fenced if it is dead (R286, R287). -/
def releaseSite (s : State) (i : Nat) : State :=
  let dead : Bool := siteDead (siteMap s i).st || decide (s.box.reh.fenced = some i)
  modTile (clearSite s i) i fun t => { t with st := if dead then .fenced else .unbound }

/-- Virtual tiles of one virtual field with their sites. -/
def fieldSites (s : State) (f : Nat) : List (Nat × Nat) := (List.range 64).map fun v => (v, siteOf s f v)

/-- Bind one site to a virtual tile: until it runs, its registers are being written (R65, R68). -/
def bindSite (s : State) (i vr vf vt : Nat) : State :=
  modTile s i fun t => { t with
    st := if t.st = .fenced || t.st = .unbound then .loading else t.st
    bound := true, vtile := BitVec.ofNat 6 vt, vfield := BitVec.ofNat 3 vf, vring := BitVec.ofNat 6 vr }

/-- Bind the virtual field `vf` of virtual ring `vr` to a physical field: shift its rows, clear what no tile uses, and
mark the sites whose tile has changed. -/
def bindField (s : State) (vr f : Nat) (trapeze : Bool) : State :=
  let s := modField s f fun x => { x with shift := rowShifts s f trapeze, paired := trapeze }
  let m := fieldSites s f
  let s := (List.range 72).foldl (fun s k =>
    let i := f * 72 + k
    if m.any (fun p => p.2 = i) then s
    else if (tileOf s i).bound || (tileOf s i).st ≠ .unbound || siteDead (siteMap s i).st then releaseSite s i else s) s
  m.foldl (fun s p =>
    let t := tileOf s p.2
    let same : Bool := t.bound && t.vtile.toNat = p.1 && t.vring.toNat = vr && t.vfield.toNat = fieldVf f
    if same then s
    else
      let s := if t.bound then clearSite s p.2 else s
      modTile (bindSite s p.2 vr (fieldVf f) p.1) p.2 fun t => { t with restoring := true }) s

/-! ### What the load beat and a restore write into a tile (R65, R190, R191, R289, R481) -/

def sendInit (w : BitVec 32) : SendCh :=
  { dstVtile := BitVec.ofNat 6 (fld w 0 6), dstVfield := BitVec.ofNat 3 (fld w 6 3), dstVring := BitVec.ofNat 6 (fld w 9 6)
    dstCh := BitVec.ofNat 5 (fld w 15 5), valid := bit w 20, credits := if bit w 20 then 16 else 0 }

def recvInit (w : BitVec 32) : RecvCh :=
  { srcVtile := BitVec.ofNat 6 (fld w 0 6), srcVfield := BitVec.ofNat 3 (fld w 6 3), srcVring := BitVec.ofNat 6 (fld w 9 6)
    srcCh := BitVec.ofNat 5 (fld w 15 5), valid := bit w 20, fin := bit w 21, ring := bit w 22
    seg := BitVec.ofNat 6 (fld w 23 6), size := BitVec.ofNat 2 (fld w 29 2) }

def tileCfg (c : Cfg) (vr vf vt : Nat) : TileCfg := SMap.get {} c.layout.tiles (vKey vr vf vt)

/-- A value of TILE_MODE, or of CARRY_CFG, that every writer is refused (R70). -/
def badMode (w : BitVec 64) : Bool := fld w 0 2 = 3 || (fld w 0 2 = 0 && bit w 2)
def badCarry (w : BitVec 64) : Bool := decide (256 < fld w 16 9)

/-- The SEG_CLASS write of a configuration: rows of segments that become class W lose XV (R155). -/
def cfgClass (x : Spm) (w : BitVec 64) : Spm :=
  { x with segClass := BitVec.ofNat 64 (fld w 0 48)
           xv := x.xv.filter fun r => !(bit w (r / 128) && !bit x.segClass (r / 128)) }

/-- Registers, memories and destinations of a tile's configuration; the channel table too where `chans` is set. A refused
value leaves its register as it is and sets ERR_STATUS.ACCESS (R70). -/
def writeCfg (t : Tile) (g : TileCfg) (epoch : BitVec 8) (chans : Bool) : Tile :=
  let t := if badMode g.mode then t else { t with
    role := BitVec.ofNat 2 (fld g.mode 0 2), mirror := bit g.mode 2, specEn := bit g.mode 3 }
  let t := if badCarry g.carry then t else { t with
    carryBase := BitVec.ofNat 13 (fld g.carry 0 13), carryRows := BitVec.ofNat 9 (fld g.carry 16 9) }
  let t := { t with
    verbs := g.verbs, code := g.code, badParity := [], epoch := epoch, spm := cfgClass t.spm g.segClass
    err := if badMode g.mode || badCarry g.carry then t.err ||| errAccess else t.err
    outb := g.dests.foldl (fun m d => SMap.put {} m d.1 { dest := some d.2 }) [] }
  if chans then
    let snd := g.sendCh.foldl (fun m c => SMap.put {} m c.1 (sendInit c.2)) []
    let rcv := g.recvCh.foldl (fun m c => SMap.put {} m c.1 (recvInit c.2)) []
    { t with sendCh := snd, recvCh := rcv, heldSend := snd, heldRecv := rcv, olderSend := snd, olderRecv := rcv }
  else t

/-- A tile's state of one beat is gone: buffers, queues, units. -/
def emptyTile (t : Tile) : Tile :=
  { t with inb := [], rules := [], matchBuf := [], matchOvf := false, ovfDue := false, tally := [], tallyPrev := []
           sb := [], dynQ := [], waits := [], eng := {}, core := {}, grace := false, provIn := false
           oldRows := [], driven := [] }

/-- Bound virtual tiles of a clause: virtual ring, field, tile and site. -/
def clauseTiles (s : State) (n : Nat) : List (Nat × Nat × Nat × Nat) :=
  match (tenOf s n).sentence, clauseOf (tenOf s n) with
  | some y, some c =>
    ((List.range c.rings).map fun vr => match y.bound[vr]? with
      | some r => (List.range 6).flatMap fun vf => (List.range 64).map fun vt => (vr, vf, vt, siteOf s (ringField r vf) vt)
      | none => []).flatten
  | _, _ => []

/-- Virtual rings of the running clause with their rings. -/
def clauseRings (s : State) (n : Nat) : List (Nat × Nat) :=
  match (tenOf s n).sentence, clauseOf (tenOf s n) with
  | some y, some c => (List.range c.rings).filterMap fun vr => (y.bound[vr]?).map fun r => (vr, r)
  | _, _ => []

def clauseTrapeze (s : State) (n : Nat) : Bool :=
  match clauseOf (tenOf s n) with
  | some c => c.trapeze
  | none => false

/-- Bind every field of the clause. -/
def bindClause (s : State) (n : Nat) : State :=
  let tz := clauseTrapeze s n
  (clauseRings s n).foldl (fun s p => (List.range 6).foldl (fun s vf => bindField s p.1 (ringField p.2 vf) tz) s) s

/-- One MCAST of a Ringmaster to the pools of up to 8 rings: its SEQ counts for its source (R259). -/
def bindingMcast (s : State) (n p : Nat) (rs : List Nat) : State :=
  let src := ringmasterEp p
  let key := 2 ^ 40 + (src.toNat * 2 ^ 16 + src.toNat) * 32
  let seq := SMap.get 0 s.reqSeq key
  let targets := rs.zipIdx.foldl (fun v q => v + (epAddr (ringCentre q.1) 72).toNat * 2 ^ (24 + 16 * q.2) + 2 ^ (16 + q.2)) 0
  agentReq { s with reqSeq := SMap.put 0 s.reqSeq key (seq + 1) }
    { agentPkt s src n .mcast 0 (BitVec.ofNat 256 (Config.bindingOpc.toNat + targets)) with seq := BitVec.ofNat 16 seq }

/-- The Ringmasters of the tenancy's rings update the binding tables in its ring pools by MCAST (R286, R288; the tables' layout
and the packet's payload are nowhere, log entry 80). -/
def sendBindings (s : State) (n : Nat) : State :=
  let rs := (tenOf s n).rings
  ((List.range 4).filter fun p => (plyOf s p).rmOk && rs.any (ringPly · = p)).foldl (fun s p =>
    (chunks 8 rs.length rs).foldl (fun s g => bindingMcast s n p g) s) s

/-! ### Restores (R211, R289, R296) -/

/-- Rows of near or far memory come into a scratchpad as wide writes (R155, R289). -/
def loadRows (s : State) (i row a : Nat) : Nat → State
  | 0 => s
  | k + 1 => loadRows (writeRow (noteSpan s a rowBytes) i row (memRead s a rowBytes) (nearPoison s a)) i (row + 1) (a + rowBytes) k

/-- A range holds a poisoned or uncorrectable word. -/
def rangeBad (s : State) (a len : Nat) : Bool :=
  s.poison.any (fun l => decide (a / 8 ≤ l) && decide (8 * l < a + len)) ||
  s.latent.any (fun p => p.2 = .uncorr && decide (a / 8 ≤ p.1) && decide (8 * p.1 < a + len))

/-- Module Address of a tile's mirror slot for a beat (R216). -/
def mirrorAddr (i vt beat : Nat) : Nat := nearAddr (siteField i) (vt % 32) (mirrorOff vt (beat % 2))

/-- The carry copy of the last committed beat comes back from its mirror slot, or where that is bad from the guard
copy (spec/08_memory_tiers.md, hard cases). -/
def restoreCarry (s : State) (n i beat : Nat) : State :=
  let t := tileOf s i
  let len := t.carryRows.toNat * rowBytes
  let load (a : Nat) : State := loadRows s i (copyRow t (beat % 2)) a t.carryRows.toNat
  let vt := t.vtile.toNat
  let src := mirrorAddr i vt beat
  if len = 0 then s
  else if !rangeBad s src len then load src
  else match guardMirror (tenOf s n) t.vring.toNat t.vfield.toNat (vt % 32) (mirrorOff vt (beat % 2) - 0x7FE00000) with
    | some g => load g
    | none => evTile (failTile s i mechNoRestore) i 4 0x0608 (vt % 32 + 1023 * 32)

/-- A moved or reset tile is restored: configuration, resident rows, carry state (R289). -/
def restoreTile (s : State) (n i : Nat) : State :=
  let x := tenOf s n
  let t := tileOf s i
  match cfgOf x with
  | none => s
  | some c =>
    let g := tileCfg c t.vring.toNat t.vfield.toNat t.vtile.toNat
    let s := modTile s i fun t => writeCfg t g x.epoch false
    let s := g.resident.foldl (fun s p => match viewAddr x p.2.1 p.2.2 with
      | some a => loadRows s i p.1 a 1
      | none => s) s
    let s := match x.run with
      | some u => match u.lastCommitted with
        | some b => restoreCarry s n i b
        | none => s
      | none => s
    modTile s i fun t => { t with restoring := false }

/-- TILE_RESTORE (R289). -/
def execTileRestore (site : SiteId) (s : State) : Host.Outcome State Fault Refusal :=
  .next (
    match ringRun s (siteRing site) with
    | some (n, u) => match u.phase with
      | .rebind _ =>
        if (tileOf s site).restoring && servesRing s ((u.involved.map siteRing).headD (siteRing site)) 2
        then restoreTile s n site else s
      | _ => s
    | none => s)

/-! ### The engine level (R288, R289, R329) -/

/-- Rebind beats of R289. -/
def rebindBeats (s : State) : Nat := ceilDiv 28672 (beatLen s)

/-- The buddy of a virtual tile, in a Trapeze clause the pair of the next column (R312). -/
def buddyTiles (vt : Nat) (trapeze : Bool) : List Nat :=
  let row := vt / 8
  let col := vt % 8
  if trapeze then [row * 8 + (col ^^^ 1), (row ^^^ 1) * 8 + (col ^^^ 1)] else [(row ^^^ 1) * 8 + col]

/-- Tiles involved in the failures of a run: those named, the buddy of a failed compare, both halves of a pair. -/
def involvedTiles (s : State) (n : Nat) (u : Run) : List Nat :=
  let tz := clauseTrapeze s n
  let more (i : Nat) : List Nat :=
    let t := tileOf s i
    let b := if u.cmpSites.contains i then (buddyTiles t.vtile.toNat tz).map (siteOf s (siteField i)) else []
    match (if t.mirror then pairSite i t else none) with
    | some j => j :: b
    | none => b
  (u.involved.flatMap fun i => i :: more i).foldl NSet.add []

/-- What a tile that moves or is reset keeps of its old site: channels with their copies, and the frozen banks
(R51, R195, R288). -/
def carryOver (old t : Tile) : Tile :=
  { t with
    sendCh := old.sendCh, recvCh := old.recvCh, heldSend := old.heldSend, heldRecv := old.heldRecv
    olderSend := old.olderSend, olderRecv := old.olderRecv, inb := old.inb
    workBeat := old.workBeat, pass := old.pass, sentBeat := old.sentBeat, epoch := old.epoch }

/-- Reset and rebind the tiles involved: a virtual tile that moves or is reset goes on with its TILE_GEN + 1. -/
def resetTiles (s : State) (n : Nat) (sites : List Nat) : State :=
  let old := (clauseTiles s n).map fun p => (vKey p.1 p.2.1 p.2.2.1, tileOf s p.2.2.2)
  let s := bindClause s n
  let s := sites.foldl (fun s i =>
    let t := tileOf s i
    if !t.bound || t.restoring || t.st = .fenced then s
    else modTile (clearSpm s i) i fun u => { emptyTile u with st := .loading, restoring := true }) s
  (clauseTiles s n).foldl (fun s p =>
    let i := p.2.2.2
    if !(tileOf s i).restoring then s
    else match old.find? fun o => o.1 = vKey p.1 p.2.1 p.2.2.1 with
      | some o => modTile s i fun t => { carryOver o.2 t with gen := o.2.gen + 1 }
      | none => modTile s i fun t => { t with gen := t.gen + 1 }) s

/-! ### The partition level (R292, R297, R298) -/

/-- A configuration runs at a tenancy's audit level (R305). -/
def auditFits (level k alevel ak : Nat) : Bool :=
  let ok : Bool := if alevel = 3 then decide (1 ≤ ak) && decide (ak ≤ 8) else if alevel = 2 then ak = 6 else ak = 0
  ok && (match level with
    | 0 => decide (alevel ≤ 3)
    | 1 => decide (1 ≤ alevel) && decide (alevel ≤ 3)
    | 2 => alevel = 2 || (alevel = 3 && decide (ak ≤ 6))
    | 3 => alevel = 3 && decide (ak ≤ k)
    | _ => alevel = 4)

/-- Every entry of a configuration's shape holds for a binding, and relay is allowed where the far home of one of the virtual
rings `vs` is elsewhere (R292, R293). -/
def cfgFits (s : State) (y : Sentence) (vs : List Nat) (c : Cfg) (phys : Nat → Option Nat) : Bool :=
  c.edges.all (entryHolds s y.seamFloor phys) &&
  (c.relayOk || vs.all fun v => match phys v, y.farHome[v]? with
    | some r, some h => r = h
    | _, _ => true)

/-- Configurations of a clause for a moved virtual ring, in the order of R292: its own, then its options by number. -/
def cfgChoices (c : Clause) (vr : Nat) : List (Option Nat × Cfg) :=
  (none, c.cfg) :: (c.relocs.zipIdx.filter fun p => p.1.vring = vr || p.1.vring = 0xFF).map fun p => (some p.2, p.1.cfg)

/-- Reserve rings in the order of R292. -/
def reserves (s : State) (r : Nat) : List Nat :=
  let of (p : Nat) : List Nat := (plyRings p).filter fun t => (ringOf s t).st = .reserve
  of (ringPly r) ++ ((List.range 4).filter (· ≠ ringPly r)).flatMap of

/-- Target and configuration for a virtual ring that must leave its ring. -/
def findMove (s : State) (n vr r : Nat) : Option Move :=
  let x := tenOf s n
  match x.sentence, clauseOf x, x.run with
  | some y, some c, some u =>
    (reserves s r).findSome? fun t =>
      if !ringWhole s t y.seamFloor || !((ringFields t).all fun f => fieldUsable s f c.trapeze) then none
      else
        let due (v : Nat) : Option Nat := (u.moving.find? fun m => m.vring = v).map (·.target)
        let phys (v : Nat) : Option Nat := if v = vr then some t else (due v).or y.bound[v]?
        ((cfgChoices c vr).find? fun p =>
          p.2.edges.all (entryHolds s y.seamFloor phys) && (p.2.relayOk || y.farHome[vr]? = some t) &&
          (p.1.isNone || auditFits u.level u.k p.2.alevel p.2.ak)).map fun p => ⟨vr, t, p.1⟩
  | _, _, _ => none

/-- Why a ring is left. -/
inductive Leave where
  | lost | withdrawn | field
  deriving DecidableEq, Repr

def leaveState : Leave → RingSt
  | .lost => .lost | .withdrawn => .resetting | .field => .degraded
def leaveCode : Leave → Nat
  | .lost => 0x0603 | .withdrawn => 0x0604 | .field => 0x0605

/-- Steps 1 and 2 of a partition reset (R453): EJECT_OFF, every queue flushed, sites, controller and fence reset,
RING_GEN + 1. -/
def partitionReset (s : State) (r : Nat) : State :=
  let s := clearFence ((ringSites r).foldl clearSite s) r
  modRing s r fun x => { x with gen := x.gen + 1, ejectOff := true, partStart := some s.time.uptime, repair := none
                                lastAbort := none, lastRelease := none, urgQ := [], reported := [], sideCount := 0
                                refused := 0, cntClosed := 0, cntRefused := 0, cntStale := 0, cntEpoch := 0 }

/-- The saved state of switched-out tenancies lay on the ring (spec/13_hosts_and_tenancy.md, cases); what a rehearsed loss
aborts carries its mark and is not counted (R325, R327). -/
def saveLost (s : State) (r : Nat) (reh : Bool) : State :=
  s.tens.foldl (fun s p =>
    if !(p.2.rings.contains r && p.2.group.isSome && !p.2.resident && p.2.run.isSome) then s
    else if reh then
      endRepairs (endRun (contextRewind (evModule s 4 0x0A03 r (some p.1) 0 true) p.1) p.1 stAborted) p.1
    else abortRun s p.1 0x0A03 r) s

/-- The tenancy whose clause runs on a ring, with the virtual ring. -/
def clauseAt (s : State) (r : Nat) : Option (Nat × Nat) :=
  match ringRun s r with
  | some (n, _) => ((clauseRings s n).find? fun p => p.2 = r).map fun p => (n, p.1)
  | none => none

/-- Every ring of a clause is under repair, at a level that does not fall before the repair ends (R348). -/
def markRepair (s : State) (n level : Nat) : State :=
  (clauseRings s n).foldl (fun s p => modRing s p.2 fun x => { x with repair := some (max level (x.repair.getD 0)) }) s

/-- Plies whose Ringmasters are asked for a reserve of a ring, in their order, up to the one that has the target (R272). -/
def askedPlies (s : State) (r : Nat) (move : Option Move) : List Nat :=
  let ps := (List.range 4).filter fun p => p ≠ ringPly r && (plyOf s p).rmOk
  match move with
  | none => ps
  | some m => if ringPly m.target = ringPly r then [] else ps.takeWhile (· ≠ ringPly m.target) ++ [ringPly m.target]

/-- A tenancy gives a ring up; without a ring it is CREATED (R363). -/
def giveUp (r : Nat) (x : Tenancy) : Tenancy :=
  let rs := x.rings.filter (· ≠ r)
  { x with
    rings := rs, st := if rs.isEmpty && x.st = .ready then .created else x.st
    group := if rs.isEmpty then none else x.group, resident := !rs.isEmpty && x.resident }

/-- A rehearsed loss has struck no clause: none is to recover from it. -/
def noStrike (s : State) : State :=
  s.tens.foldl (fun s p => match p.2.run with
    | some u => if u.rehearsedAt.isSome then modRun s p.1 fun u => { u with rehearsedAt := none } else s
    | none => s) s

/-- The requests for a reserve to the plies `ps`. -/
def askReserves (s : State) (r : Nat) (ps : List Nat) : State := ps.foldl (fun s p => askReserve s r p) s

/-- A move is planned: the ring's Ringmaster has an action for it, and the target is taken. -/
def planMove (s : State) (n r : Nat) (m : Move) : State :=
  let s := askReserves (askPly (finishPly s r) r 3) r (askedPlies s r (some m))
  markRepair (modRing s m.target fun x => { x with st := .assigned, repair := some 3 }) n 3

/-- The running clause of a ring that leaves service moves, or its tenancy aborts (R297, R298). -/
def clauseLeaves (s : State) (r n vr : Nat) (move : Option Move) : State :=
  match clauseOf (tenOf s n), move with
  | some c, some m =>
    if c.guard then
      modRun (planMove s n r m) n fun u =>
        { u with moving := (u.moving.filter fun x => x.vring ≠ m.vring) ++ [m], lostAt := s.time.uptime, fails := [], late := [] }
    else abortRun s n 0x0607 vr
  | some c, none =>
    if c.guard then abortRun (askReserves s r (askedPlies s r none)) n 0x0606 vr else abortRun s n 0x0607 vr
  | none, _ => s

/-- A ring leaves service (R297, R298): state and class D record, and for a clause on it the move that the next tick
begins, or the abort. -/
def leaveRing (s : State) (r : Nat) (why : Leave) : State :=
  let at_ := clauseAt s r
  let move := match at_ with
    | some (n, vr) => match clauseOf (tenOf s n) with
      | some c => if c.guard then findMove s n vr r else none
      | none => none
    | none => none
  let d := match move with
    | some m => m.target + m.option.getD 0xFF * 2 ^ 6
    | none => 0xFF * 2 ^ 6
  let reh : Bool := why = .withdrawn && s.box.reh.lossRing = some r
  let s := if reh then s else countEntry (noteReal s (at_.map (·.1))) none 3
  let s := evRing s r 3 (leaveCode why) d 3
  let s := modRing s r fun x => { x with st := leaveState why, ejectOff := x.ejectOff || why = .lost }
  let s := saveLost s r reh
  let s := match at_ with
    | none => if reh then noStrike s else s
    | some (n, vr) =>
      let again : Bool := match (tenOf s n).run with | some u => u.resuming | none => false
      clauseLeaves (if again && !reh then partitionFails s else s) r n vr move
  let moves (n : Nat) : Bool := match (tenOf s n).run with | some u => !u.moving.isEmpty | none => false
  let s := s.tens.foldl (fun s p => if p.2.rings.contains r && !moves p.1
    then modTen s p.1 (giveUp r) else s) s
  if why = .withdrawn then partitionReset s r else s

/-- A field loss takes its ring out (R297). -/
def fieldLost (s : State) (f : Nat) : State :=
  let r := fieldRing f
  match (ringOf s r).st with
  | .lost | .resetting | .degraded => s
  | _ => leaveRing s r .field

/-- A field is retired (R277): refinement and field loss. -/
def retireField (s : State) (f csrc cause : Nat) : State :=
  if (fieldOf s f).retired then s
  else
    let s := modField s f fun x => { x with retired := true }
    let s := refine s (fieldPly f) (mapEntry 3 4 (fieldPly f) (f % 96) 0 csrc s.time.poweredS 0 0 cause)
    fieldLost s f

/-- Fields of a clause that the engine level cannot serve: dead sites beyond R280, or more than 16 of the tiles involved
(R329, R330). -/
def lostFields (s : State) (n : Nat) (sites : List Nat) : List Nat :=
  let tz := clauseTrapeze s n
  ((clauseRings s n).flatMap fun p => ringFields p.2).filter fun f =>
    !fieldUsable s f tz || decide (16 < (sites.filter fun i => siteField i = f).length)

/-- Enter the engine level for a clause: the rebind beats follow. -/
def enterEngine (s : State) (n : Nat) : State :=
  let x := tenOf s n
  match x.run with
  | none => s
  | some u =>
    let sites := involvedTiles s n u
    let r := (sites.map siteRing).headD ((boundRings s n).headD 0)
    let s := sendBindings (resetTiles s n sites) n
    let phase (s : State) : State := modRun s n fun u => { u with
      phase := .rebind (rebindBeats s), fails := [], late := [], involved := sites, engineTry := true, replays := 0 }
    match lostFields s n sites with
    | f :: _ => fieldLost (phase s) f
    | [] =>
      let s := countEntry s (some n) 2
      let s := askPly (markRepair s n 2) r 2
      let reset := ((clauseTiles s n).filter fun p => (tileOf s p.2.2.2).restoring).length
      phase (evRing s r 2 0x0602 reset 2)

/-- A ring at the engine level fails again (R326): the second failure within the window withdraws it. -/
def engineFails (s : State) (n r : Nat) : State :=
  if rehearsedOn s (some n) then enterEngine s n
  else
    let ts := recent s.time.uptime (ringOf s r).engFails ++ [s.time.uptime]
    let s := modRing s r fun x => { x with engFails := ts }
    if 2 ≤ ts.length then leaveRing s r .withdrawn else enterEngine (finishPly s r) n

/-! ### The takeover (R239, R294, R296, R297) -/

/-- A virtual ring goes to its target: a migration of its far home that had not moved it yet starts again from there (R294), and
the sites of a ring that keeps its supply are cleared, for their tiles leave them (R287). A ring that is lost before its own
takeover is over is left in its turn. -/
def moveRing (s : State) (n : Nat) (m : Move) : State :=
  let old := (physRing s n m.vring).getD m.target
  let s := match (tenOf s n).run.bind fun u => u.moved.find? fun p => p.1 = m.vring with
    | some p => finishPly s p.2
    | none => s
  let s := if (ringOf s old).st = .degraded || (ringOf s old).st = .lost then
      (ringSites old).foldl (fun s i => if (tileOf s i).bound then releaseSite s i else s) s else s
  modRun (modTen s n fun x => { x with
    rings := (x.rings.filter (· ≠ old)).foldl NSet.add [m.target]
    sentence := x.sentence.map fun y => { y with
      bound := y.bound.set m.vring m.target, migrated := y.migrated.filter (· ≠ m.vring) } }) n fun u =>
    { u with moved := (u.moved.filter fun p => p.1 ≠ m.vring) ++ [(m.vring, old)] }

/-- The tick holds the clause and moves the virtual rings: beats after the restore point are discarded. The configuration is
the one that the last move chose, with every ring on its target; rings that an unfinished takeover has moved stay to be
restored. -/
def beginTakeover (s : State) (n : Nat) (ms : List Move) : State :=
  let s := ms.foldl (fun s m => moveRing s n m) s
  let s := dropRequests (localAborts s n) n
  let opt := (ms.getLast?).bind (·.option)
  modRun s n fun u => { u with
    phase := .takeover ((ms.map (·.vring)).headD 0) s.time.uptime, moving := [], option := opt
    reload := opt.isSome || u.option.isSome || u.reload || u.phase = .load || u.phase = .start
    pendingBeat := none, replays := 0, overrun := false, replayNext := false, fails := [], late := [], involved := []
    cmpSites := [], lateSeen := false, lateDue := [], lateSites := [], lateSitesDue := []
    copies := u.copies.filter (·.done) }

/-- Guarded near granules and mirror areas come back from the GUARDED window, under the map of the copy that stands there. -/
def restoreGuard (s : State) (n vr : Nat) (mirror : Bool) : State :=
  let x := tenOf s n
  match guardMapOf x with
  | none => s
  | some map =>
    let s := (map.filter fun v => v.vring = vr).foldl (fun s v =>
      match guardAddr x v 0, viewAddr x v 0 with
      | some g, some a => copyTier s g a granBytes
      | _, _ => s) s
    if !mirror then s
    else (List.range 6).foldl (fun s vf => (List.range 32).foldl (fun s ch =>
      match guardMirror x vr vf ch 0, physRing s n vr with
      | some g, some r => copyTier s g (nearAddr (ringField r vf) ch 0x7FE00000) 0x80000
      | _, _ => s) s) s

/-- Resident granules come from their far sources (R213). -/
def restoreResident (s : State) (n vr : Nat) : State :=
  let x := tenOf s n
  match cfgOf x with
  | none => s
  | some c => c.layout.resident.foldl (fun s p =>
      match p with
      | (v, some ta) =>
        if v.vring ≠ vr then s
        else match (winFind x ta 1).bind fun w => winAddr x w ta, viewAddr x v 0 with
          | some g, some a => copyTier s g a granBytes
          | _, _ => s
      | (_, none) => s) s

/-- A ring's own mirror storage still holds a beat (R219). -/
def mirrorHolds (u : Run) (beat : Nat) : Bool :=
  match u.mirrored with
  | some m => decide (m < beat + 2)
  | none => false

/-- A virtual tile whose ring moves goes on with its TILE_GEN + 1 (R334). -/
def movedGen (s : State) (u : Run) (vr vf vt : Nat) (t : Tile) : BitVec 8 :=
  match u.moved.find? fun p => p.1 = vr with
  | some p => (tileOf s (siteOf s (ringField p.2 vf) vt)).gen + 1
  | none => t.gen

/-- A restore point without a complete copy in the GUARDED window: what a ring needs of it has no source (R211; DEDUCED, log entry
43). -/
def noCopy (s : State) (n : Nat) : State :=
  evRing (failRun s n mechNoRestore) ((boundRings s n).headD 0) 4 0x0608 0

/-- Rewind every virtual ring of the clause to the restore point. -/
def restoreClause (s : State) (n : Nat) : State :=
  match (tenOf s n).run with
  | none => s
  | some u =>
    let rp := u.restorePoint
    let away (v : Nat) : Bool := u.moved.any fun p => p.1 = v
    let own (v : Nat) : Bool := !away v && (match rp with | some b => mirrorHolds u b | none => true)
    let s := if rp.isSome && (guardMapOf (tenOf s n)).isNone && !((clauseRings s n).all fun p => own p.1) then noCopy s n else s
    let s := (clauseRings s n).foldl (fun s p => if rp.isSome then restoreGuard s n p.1 (!own p.1) else s) s
    let s := bindClause (u.moved.foldl (fun s p => restoreResident s n p.1) s) n
    let s := modRun s n fun u => { u with lastCommitted := rp }
    (clauseTiles s n).foldl (fun s p =>
      let i := p.2.2.2
      let t := tileOf s i
      let g := if !away p.1 && t.restoring then t.gen + 1 else movedGen s u p.1 p.2.1 p.2.2.1 t
      let s := modTile s i fun t => { t with gen := g }
      let s := if away p.1 || (tileOf s i).restoring then restoreTile s n i
        else match rp with | some b => restoreCarry s n i b | none => s
      let cfg := match cfgOf (tenOf s n) with | some c => tileCfg c p.1 p.2.1 p.2.2.1 | none => {}
      modTile s i fun t => writeCfg (emptyBeat u t) cfg (tenOf s n).epoch true) s
where
  emptyBeat (u : Run) (t : Tile) : Tile := { emptyTile t with
    st := if t.st = .fenced then .fenced else .loading
    workBeat := BitVec.ofNat 32 u.workBeat, pass := BitVec.ofNat 32 (SMap.get 0 u.passes u.clause)
    sentBeat := BitVec.ofNat 32 u.sentBeat
    outb := t.outb.map fun p => (p.1, { p.2 with rows := [] }) }

/-- The Ringmasters of the rings that are left work for this takeover, not for another ring of their plies, and those asked for a
reserve have answered (R349). -/
def takeoverServed (s : State) (u : Run) : Bool :=
  !((List.range 4).any fun p => (plyOf s p).guests.any fun r => u.moved.any fun q => q.2 = r) &&
  u.moved.all fun p => match (plyOf s (ringPly p.2)).busy with
    | some (b, k) => k = 3 && u.moved.any fun q => q.2 = b
    | none => false

/-- TAKEOVER_RESTORE_DONE (R297): the clause resumes at the next tick. -/
def execTakeoverRestoreDone (ten : TenId) (s : State) : Host.Outcome State Fault Refusal :=
  .next (
    match (tenOf s ten).run with
    | some u => match u.phase with
      | .takeover _ _ =>
        if !takeoverServed s u then s else
        let s := restoreClause s ten
        modRun s ten fun u => { u with phase := .rebind 1, engineTry := false, resuming := true }
      | _ => s
    | none => s)

/-- The far home changes at the first load beat after migration (R294). -/
def execFarHomeMigrationDone (ten : TenId) (vring : RingId) (s : State) : Host.Outcome State Fault Refusal :=
  .next (
    match (tenOf s ten).sentence with
    | some y => match y.bound[(vring : Nat)]?, y.farHome[(vring : Nat)]? with
      | some r, some h =>
        if r = h then s
        else modTen s ten fun x => { x with sentence := x.sentence.map fun y =>
          { y with migrated := NSet.add y.migrated vring } }
      | _, _ => s
    | none => s)

end Sys2Proof.Machine
end

