-- ==== Sys2Proof/Machine/Boot.lean ====
section
/-! DEFINITION. Power-on, bring-up, the defect-map merge, whole-module reset, hold-up flush and the tests of a module
compute reset (spec/17_bringup_reset_time.md R443 to R454, R457; spec/16_power_and_thermal.md R438, R439;
spec/18_module_interface.md R463, R471 to R473; spec/10_placement_and_repair.md R274 to R279). -/

namespace Sys2Proof.Machine
open Sys2Proof

/-! ### Test results (R275 to R277, R444, R448) -/

/-- CAUSE of a map entry with CSRC 2 (R278): the step, and 0 bring-up, 1 compute reset, 2 partition reset. -/
def testCause (step kind : Nat) : Nat := step + kind * 2 ^ 8

/-- A site fails a test: a failure that replay cannot resolve; an EXCLUDED site that fails is RETIRED (R276). -/
def siteTestFails (s : State) (i step kind : Nat) : State :=
  let m := siteMap s i
  let st := if m.st = .excluded then .retired else siteAfter m s.time.poweredS true
  let s := setSiteMap s i { st := st, lastFail := some s.time.poweredS }
  let s := modTile s i fun t => { t with st := .fenced }
  if st = m.st then s
  else refine s (fieldPly (siteField i))
    (mapEntry 0 (mapStateNo st) (fieldPly (siteField i)) (siteField i % 96) (siteNo i) 2 s.time.poweredS 0 0
      (testCause step kind))

/-- A site that fails a known-answer test or a tick check (R171, R276, R315): EXCLUDED, or RETIRED on its second failure, and
fenced. Where no clause has been affected (`unresolved` false), it is SUSPECT instead of EXCLUDED and is not fenced. -/
def siteDown (s : State) (i : Nat) (unresolved : Bool := true) : State :=
  let s := noteReal s (ringTen s (siteRing i))
  let m := siteMap s i
  let st := siteAfter m s.time.poweredS unresolved
  let s := if siteDead st then modTile s i fun t => { t with st := .fenced } else s
  let s := setSiteMap s i { st := st, lastFail := some s.time.poweredS }
  if st = m.st then s
  else
    let s := refine s (fieldPly (siteField i))
      (mapEntry 0 (mapStateNo st) (fieldPly (siteField i)) (siteField i % 96) (siteNo i) 0 s.time.poweredS 0 0 0x0601)
    if !siteDead st then s else evTile s i 2 0x0601 (siteNo i + mapStateNo st * 2 ^ 7)

/-- An EXCLUDED site that passes becomes SUSPECT. -/
def siteTestPasses (s : State) (i step kind : Nat) : State :=
  let m := siteMap s i
  if m.st = .excluded then
    refine (setSiteMap s i { m with st := .suspect }) (fieldPly (siteField i))
      (mapEntry 0 1 (fieldPly (siteField i)) (siteField i % 96) (siteNo i) 2 s.time.poweredS 0 0 (testCause step kind))
  else s

/-- BIST of the sites of some fields. -/
def testSites (s : State) (fields : List Nat) (failed : List SiteId) (step kind : Nat) : State :=
  fields.foldl (fun s f => (List.range 72).foldl (fun s k =>
    let i := f * 72 + k
    if failed.any fun j => (j : Nat) = i then siteTestFails s i step kind else siteTestPasses s i step kind) s) s

/-- A field is retired by a test: nothing runs on it. -/
def testRetires (s : State) (f step kind : Nat) : State :=
  if (fieldOf s f).retired then s
  else refine (modField s f fun x => { x with retired := true }) (fieldPly f)
    (mapEntry 3 4 (fieldPly f) (f % 96) 0 2 s.time.poweredS 0 0 (testCause step kind))

/-- A row with two RETIRED sites never holds a full row of bound tiles: its field is RETIRED (R277). -/
def hopeless (s : State) (f : Nat) : Bool :=
  !(fieldOf s f).retired && (List.range 8).any fun row =>
    decide (2 ≤ ((List.range 9).filter fun c => (siteMap s (f * 72 + row * 9 + c)).st = .retired).length)

/-- Fields that the tests leave without a full row. -/
def retireHopeless (s : State) (step kind : Nat) : State :=
  s.fields.foldl (fun s p => if hopeless s p.1 then testRetires s p.1 step kind else s) s

/-- Training of one crossing, recorded on both fields of the seam (R180, R185). -/
def setCrossing (s : State) (f : Nat) (sd : Side) (c w spares : Nat) : State :=
  let put (s : State) (f : Nat) (sd : Side) : State := modField s f fun x => { x with
    lanesLost := SMap.put 0 x.lanesLost (Side.no sd * 9 + c) (32 - min w 32)
    sparesUsed := SMap.put 0 x.sparesUsed (Side.no sd * 9 + c) spares }
  match neighbour f sd with
  | some g => put (put s f sd) g (Side.back sd)
  | none => s

/-- Map state of a seam (R274). -/
def seamMapNo (s : State) (f : Nat) (sd : Side) : Nat :=
  let spare : Bool := (List.range (crossings sd)).any fun c => SMap.get 0 (fieldOf s f).sparesUsed (Side.no sd * 9 + c) ≠ 0
  match seamState s f sd with
  | 3 => 4 | 2 => 3 | _ => if spare then 3 else 0

/-- The SEAM items of both fields of a seam have changed; each field's own Ringmaster sends its entry (R273, R274). -/
def seamEntry (s : State) (f : Nat) (sd : Side) (csrc cause : Nat) : State :=
  let entry (s : State) (f : Nat) (sd : Side) : State :=
    refine s (fieldPly f) (mapEntry 1 (seamMapNo s f sd) (fieldPly f) (f % 96) (Side.no sd) csrc s.time.poweredS 0
      (seamCap s f sd) cause)
  match neighbour f sd with
  | some g => entry (entry s f sd) g (Side.back sd)
  | none => entry s f sd

def trainCrossings (s : State) (cs : List (FieldId × Side × Nat × Nat × Nat)) (step kind : Nat) : State :=
  cs.foldl (fun s c =>
    let (f, sd, k, w, sp) := c
    let t := setCrossing s f sd k w sp
    if seamMapNo t f sd = seamMapNo s f sd then t else seamEntry t f sd 2 (testCause step kind)) s

/-- Map entry of one router's link port. -/
def midwayEntry (s : State) (f : Nat) (sd : Side) (st csrc cause : Nat) : State :=
  refine s (fieldPly f) (mapEntry 4 st (fieldPly f) (f % 96) (Side.no sd) csrc s.time.poweredS 0 0 cause)

/-- A Midway link fails on both its routers (R243). -/
def failMidway (s : State) (f : Nat) (sd : Side) (csrc cause : Nat) : State :=
  let put (s : State) (f : Nat) (sd : Side) : State := modField s f fun x => { x with mwFail := NSet.add x.mwFail (Side.no sd) }
  match neighbour f sd with
  | some g => midwayEntry (midwayEntry (put (put s f sd) g (Side.back sd)) f sd 4 csrc cause) g (Side.back sd) 4 csrc cause
  | none => s

/-- A near channel is FAILED (R214). -/
def failChannel (s : State) (f c csrc cause : Nat) : State :=
  refine (modNearCh s f c fun x => { x with failed := true }) (fieldPly f)
    (mapEntry 2 4 (fieldPly f) (f % 96) c csrc s.time.poweredS 0 0 cause)

def testChannels (s : State) (cs : List (FieldId × Nat)) (step kind : Nat) : State :=
  cs.foldl (fun s c => testRetires (failChannel s c.1 c.2 2 (testCause step kind)) c.1 step kind) s

/-- A pseudo-channel is fenced (R227); FIELD and SUB carry stack and pseudo-channel (R278). -/
def fencePc (s : State) (k pc csrc cause : Nat) : State :=
  refine (modStack s k fun x => { x with fenced := NSet.add x.fenced pc, retraining := x.retraining.filter (· ≠ pc) })
    (k / 32) (mapEntry 5 4 (k / 32) (k % 32) pc csrc s.time.poweredS 0 0 cause)

/-- Fields that a far trunk serves (R20). -/
def trunkFields (k : Nat) : List Nat := (List.range 3).map fun c => ringField (stackRing k) (3 * stackTrunk k + c)

/-- A stack with no pseudo-channel left. -/
def deadStacks (s : State) (step kind : Nat) : State :=
  (s.farStacks.filter fun p => p.2.fenced.length = 32).foldl (fun s p =>
    (trunkFields p.1).foldl (fun s f => testRetires s f step kind) s) s

/-! ### Ring states (R295, R437, R447, R448) -/

/-- The state that the defect state gives a ring that no tenancy holds. -/
def ringEntryState (s : State) (r : Nat) : RingSt :=
  let x := ringOf s r
  let p := plyOf s (ringPly r)
  if x.supply ≠ 0 || x.item = .retired || !p.rmOk || p.tripped || x.ctlDead then .lost
  else if (ringFields r).any fun f => (fieldOf s f).retired then .degraded
  else .free

/-- Set every ring's state, then the reserves of each ply. Rings that stay LOST are `kept`. -/
def setRingStates (s : State) (kept : Nat → Bool) : State :=
  let s := allRings.foldl (fun s r => modRing s r fun x =>
    { x with st := if kept r then .lost else ringEntryState s r, clearing := false, partStart := none, ejectOff := kept r }) s
  (List.range 4).foldl topUp s

/-! ### The merge (R448) -/

/-- Apply one map entry as an item's latest state. A DEGRADED link has one spare in use, for the map does not say how many (R274; DESIGN
CHOICE, log entry 82). A DEGRADED seam has its recorded capacity at one crossing, or a spare in use
there; the map does not say at which (DEDUCED, log entry 80). -/
def applyEntry (s : State) (e : BitVec 128) : State :=
  let kind := fld e 0 4
  let st := entryState e
  let f := fld e 8 2 * 96 + fld e 10 7
  let sub := fld e 17 7
  let at_ : Option Nat := some (fld e 32 32)
  match kind with
  | 0 => setSiteMap s (f * 72 + sub) (match st with
      | 1 => { st := .suspect, lastFail := at_ }
      | 2 => { st := .excluded, lastFail := at_ }
      | 4 => { st := .retired, lastFail := at_ }
      | _ => {})
  | 1 =>
    let cap := fld e 96 8
    let w := if st = 4 then 0 else if st = 3 && decide (cap < 100) then ceilDiv (32 * cap) 100 else 32
    (List.range (crossings (Side.of sub))).foldl (fun s c =>
      setCrossing s f (Side.of sub) c (if c = 0 || st = 4 then w else 32) (if c = 0 && st = 3 && cap = 100 then 1 else 0)) s
  | 2 => modNearCh s f sub fun x => { x with failed := decide (st = 4), degraded := decide (st = 3) }
  | 3 => modField s f fun x => { x with retired := decide (st = 4) }
  | 4 => modField s f fun x => { x with
      mwFail := if st = 4 then NSet.add x.mwFail sub else x.mwFail.filter (· ≠ sub)
      mwSpares := SMap.put 0 x.mwSpares sub (if st = 3 then 1 else 0) }
  | 5 =>
    let k := fld e 8 2 * 32 + fld e 10 7
    modStack s k fun x => { x with fenced := if st = 4 then NSet.add x.fenced sub else x.fenced.filter (· ≠ sub) }
  | 6 => modRing s (fieldRing f) fun x => { x with
      item := (match st with | 1 => .suspect | 4 => .retired | _ => .good)
      itemFail := if st = 1 || st = 4 then at_ else none }
  | _ => s

/-- A SUSPECT item whose 720 powered hours are over is GOOD again (R276, R277). -/
def expireSuspects (s : State) : State :=
  let past (l : Option Nat) : Bool := match l with | some t => decide (t + suspectS < s.time.poweredS) | none => true
  let s := s.fields.foldl (fun s p => setField s p.1 { p.2 with
    sites := (p.2.sites.map fun q => (q.1, if q.2.st = .suspect && past q.2.lastFail then { q.2 with st := .good } else q.2)).filter
      fun q => decide (q.2 ≠ {}) }) s
  s.rings.foldl (fun s p => setRing s p.1
    (if p.2.item = .suspect && past p.2.itemFail then { p.2 with item := .good } else p.2)) s

/-- The state of every item from the map; a field with a RETIRED channel is RETIRED (R277). -/
def loadMap (s : State) : State :=
  let m := (if s.box.factoryStatus = 0 then s.box.factory else []) ++ s.box.fieldMap
  let s := m.foldl applyEntry s
  expireSuspects (s.fields.foldl (fun s p =>
    if p.2.nearCh.any fun c => c.2.failed then modField s p.1 fun x => { x with retired := true } else s) s)

/-- Results of the tests and trainings of bring-up (kind 0) or a compute reset (kind 1). -/
def applyReport (s : State) (rep : BootReport) (kind : Nat) : State :=
  let seamStep := if kind = 0 then 5 else 4
  let s := retireHopeless (testSites s (List.range 384) rep.sitesFailed 3 kind) 3 kind
  let s := rep.meshSwitchFailed.foldl (fun (s : State) (f : FieldId) => testRetires s f 3 kind) s
  let s := rep.ringmastersFailed.foldl (fun (s : State) (p : PlyId) => modPly s p fun x => { x with rmOk := false }) s
  let s := trainCrossings s rep.crossings seamStep kind
  let s := rep.midwayFailed.foldl (fun s q => failMidway s q.1 q.2 2 (testCause seamStep kind)) s
  let s := testChannels s rep.channelsFailed (if kind = 0 then 6 else 4) kind
  if kind = 0 then
    deadStacks (rep.pcsFailed.foldl (fun s q => fencePc s q.1 q.2 2 (testCause 4 kind)) s) 4 kind
  else s

/-- Every refinement that waits goes to the field part, which is then compacted. -/
def mergeMap (s : State) : State :=
  let s := (List.range 4).foldl (fun s p => (List.range (plyOf s p).refine.length).foldl (fun s _ => acceptRefinement s p) s) s
  modBox s fun b => { b with fieldMap := compactMap b.fieldMap }

def setReady (s : State) (t : Tri) : State := { s with pins := { s.pins with ready := t } }

/-! ### Bring-up (R444 to R449) -/

/-- Values of the stored set, or the defaults (R412). -/
def loadStored (s : State) : State :=
  let limit := limitW s.fused.variant
  let s := { s with time := { s.time with cclkMhz := fixedMhz s.fused.variant, tickMhz := fixedMhz s.fused.variant } }
  let s := modPwr s fun p => { p with capW := limit, boostMhz := fixedMhz s.fused.variant }
  match s.box.stored with
  | none => s
  | some v =>
    let s := modBox s fun b => { b with set := v.set }
    let s := { s with time := { s.time with beatLog2 := v.beatLog2 } }
    let s := modPwr s fun p => { p with capW := v.capW, fixedFreq := v.fixedFreq }
    v.ports.foldl (fun s p => modSport s p.1 fun x => { x with
      enable := p.2.enable, st := if p.2.enable then .training else .disabled, encap := p.2.encap, ipv6 := p.2.ipv6
      mac := p.2.mac, frameMax := p.2.frameMax, frameLimit := p.2.frameMax }) s

/-- Step of the BRINGUP_FAIL record that ended the last power-on, if the log's latest boot record is one. -/
def lastBringupFail (b : Box) : Option Nat :=
  let held := (b.log.map fun p => p.2.rec_) ++ b.toFlash
  match (held.filter fun r => r.code = 0x0001 || r.code = 0x0C01).foldl (fun m r => match m with
      | some (x : EvRec) => if x.seq ≤ r.seq then some r else some x
      | none => some r) none with
  | some r => if r.code = 0x0C01 then some (r.detail % 256) else none
  | none => none

/-- Bring-up fails at a step (R447). -/
def bringUpFails (s : State) (step : Nat) : State :=
  let again : Bool := decide (lastBringupFail s.box = some step)
  let s := evModule s 5 0x0C01 step
  let s := setReady (modBox s fun b => { b with state := .failed }) .low
  let s := allRings.foldl (fun s r => modRing s r fun x => { x with st := .lost }) s
  if again then s else requestPower s causeTest

/-- The unit of a STEP_REPEATED record. -/
def repeatRecords (s : State) (rs : List (Nat × Nat)) : State :=
  rs.foldl (fun s q => evModule s 0 0x0C02 (q.1 % 256 + q.2 % 2 ^ 16 * 2 ^ 8)) s

/-- Step 1 of bring-up: the Box Office boots, with its records, and the host ports have trained (R351); `cause` as LAST_RESET. A
THROTTLE_N that is held is honoured
from step 2 on (R474). -/
def bootBox (s : State) (rep : BootReport) (cause : Nat) : State :=
  let s := modBox s fun b => { b with state := .rails, lastReset := cause, factoryStatus := rep.factoryStatus
                                      stepRepeats := rep.repeats.length }
  let s := modCan (loadStored (setReady s .low)) fun _ => { onBus := decide (s.pins.nodeId ≠ 0) }
  let s := canBoot s
  let s := (List.range 8).foldl (fun s p => modHport s p fun x => { x with link := (Config.hostLink p x.resets).toNat }) s
  let s := { s with pins := { s.pins with thermtrip := (List.range 4).any fun p => (plyOf s p).tripped } }
  let s := if s.time.missDue then
      evModule (modBox s fun b => { b with flushMissed := true }) 0 0x0C04 s.time.poweredStored
    else s
  let s := { s with time := { s.time with missDue := false } }
  let s := if rep.factoryStatus = 0 then s else evModule s 5 0x0806 rep.factoryStatus
  let s := repeatRecords s rep.repeats
  if s.pins.throttle then throttleOn s else s

/-- The Box Office names the lead: the Ringmaster of the lowest ply in service (R272). -/
def nameLead (s : State) : State :=
  modBox s fun b => { b with lead := (List.range 4).find? fun p => (plyOf s p).rmOk }

/-- Steps 2 to 7 of bring-up. -/
def startUnits (s : State) (rep : BootReport) (kept : Nat → Bool) : State :=
  if !rep.tickOk || !rep.refOk then bringUpFails s 2
  else if (List.range 4).all fun p => rep.ringmastersFailed.any fun q => (q : Nat) = p then bringUpFails s 3
  else
    let s := rep.groupsOff.foldl (fun (s : State) (r : RingId) => groupOff s r false) (loadMap s)
    let s := setRingStates (mergeMap (applyReport s rep 0)) kept
    let s := nameLead s
    let s := evModule s 0 0x0001 (s.time.poweredS / 3600)
    setReady (modBox s fun b => { b with state := .ready, bootMs := rep.ms }) .high

/-- Bring-up from its start to READY. Rings LOST before a MOD_RESET_N period stay LOST. -/
def bringUp (s : State) (rep : BootReport) (cause : Nat) (kept : Nat → Bool) : State :=
  if !rep.boxOk then modBox s fun b => { b with state := .unpowered } else startUnits (bootBox s rep cause) rep kept

/-! ### Power-on and resets (R443, R450, R451) -/

/-- What flash keeps of the Box Office (R412, R450). -/
def flashBox (b : Box) : Box :=
  { log := b.log, nextSlot := b.nextSlot, nextSeq := b.nextSeq, stored := b.stored
    fwRunning := b.fwRunning, factory := b.factory, fieldMap := b.fieldMap }

/-- The module with its flash, fuses and pins, and nothing else. -/
def blank (s : State) : State :=
  { pending := s.pending, fused := s.fused, pins := s.pins, box := flashBox s.box, hports := [(0, { role := .owner })]
    freeCtr := s.freeCtr
    time := { poweredStored := s.time.poweredStored, poweredS := s.time.poweredStored, flushed := s.time.flushed, missDue := s.time.missDue } }

/-- Inputs keep their level; every output is released. -/
def releasePins (p : Pins) : Pins :=
  { p with ready := .released, alert := false, thermtrip := false, pwrcycleReq := false }

/-- POWER_ON (R443, R471). -/
def execPowerOn (straps : BitVec 7) (rep : BootReport) (s : State) : Host.Outcome State Fault Refusal :=
  .next (
    if s.pins.psuSeen then s
    else
      let p := releasePins s.pins
      let s := { blank s with pins := { p with psuOk := true, psuSeen := true, straps := straps, nodeId := straps } }
      let s := { s with time := { s.time with flushed := false, missDue := !s.time.flushed } }
      if s.pins.modReset then modBox s fun b => { b with state := .inReset }
      else bringUp s rep 0 fun _ => false)

/-- What a whole-module reset keeps beside flash and uptime: phase latches, supplies, RING items' latches, LOST rings
and trips (R450). -/
def keptRing (r : Ring) : Ring :=
  { st := if r.st = .lost then .lost else .free, supply := r.supply, vcoreLost := r.vcoreLost, vdramLost := r.vdramLost }

/-- WHOLE_MODULE_RESET (R451). -/
def execWholeModuleReset (s : State) : Host.Outcome State Fault Refusal :=
  .next (
    if s.pins.modReset then s
    else if !s.pins.psuSeen then { s with pins := { s.pins with modReset := true } }
    else
      let c := blank s
      let c := { c with
        pins := { releasePins s.pins with modReset := true }
        time := { c.time with uptime := s.time.uptime, ticks := s.time.ticks, poweredS := s.time.poweredS }
        rings := s.rings.foldl (fun m r => SMap.put {} m r.1 (keptRing r.2)) []
        plies := s.plies.foldl (fun m p => SMap.put {} m p.1 { tripped := p.2.tripped }) [] }
      modBox c fun b => { b with state := .inReset })

/-- Bring-up after MOD_RESET_N: LOST rings stay LOST. -/
def bringUpAfterReset (s : State) (rep : BootReport) : State :=
  let lost := allRings.filter fun r => (ringOf s r).st = .lost
  bringUp s rep 1 fun r => lost.contains r

/-- MOD_RESET_DEASSERT (R443, R471). -/
def execModResetDeassert (straps : BitVec 7) (rep : BootReport) (s : State) : Host.Outcome State Fault Refusal :=
  .next (
    if !s.pins.modReset then s
    else
      let s := { s with pins := { s.pins with modReset := false } }
      if !s.pins.psuSeen then s
      else
        let s := { s with pins := { s.pins with straps := straps, nodeId := straps } }
        if s.pins.psuOk then bringUpAfterReset s rep else modBox s fun b => { b with state := .waitPsu })

/-- PSU_OK_ASSERT (R439, R443): an assertion that is no power-on. -/
def execPsuOkAssert (rep : BootReport) (s : State) : Host.Outcome State Fault Refusal :=
  .next (
    if !s.pins.psuSeen || s.pins.psuOk then s
    else
      let s := { s with pins := { s.pins with psuOk := true } }
      if s.box.state = .waitPsu then bringUpAfterReset s rep else s)

/-- UNPOWERED (R463): flash and fuses stay. -/
def execUnpowered (s : State) : Host.Outcome State Fault Refusal :=
  .next { blank s with pins := { releasePins s.pins with psuOk := false, psuSeen := false } }

/-- HOLD_UP_FLUSH (R439, R473). -/
def execHoldUpFlush (busMv : Nat) (s : State) : Host.Outcome State Fault Refusal :=
  .next (
    if !s.pins.psuOk then s
    else
      let s := { s with pins := { s.pins with psuOk := false, pwrcycleReq := false } }
      let s := modBox s fun b => { b with pwrPending := false }
      if s.pins.modReset || !boxRuns s then s
      else
        let s := fastStep (modPwr (shedAll s) fun p => { p with holdUp := true })
        let s := flushToFlash (evModule s 5 0x0909 busMv)
        let s := { s with time := { s.time with poweredStored := s.time.poweredS, flushed := true } }
        setReady (modBox s fun b => { b with state := .held }) .low)

/-! ### The module compute reset (R331, R452) -/

/-- Counters and state of a Midway router that its reset clears (R331). -/
def resetRouter (x : Field) : Field :=
  { x with deflect := 0, dropDcnt := 0, dropAge := 0, dropFmt := 0, crcRetry := 0, urgLast := 4, busy := [], drops := 0, claims := [] }

/-- A ring's controller, fence and pool after a module compute reset. -/
def resetRing (x : Ring) : Ring :=
  { x with
    gen := x.gen + 1, st := if x.st = .lost then .lost else .resetting, repair := none, ejectOff := false
    lastAbort := none, lastRelease := none, partStart := none, urgQ := [], urgAt := none, reported := []
    refused := 0, cntClosed := 0, cntRefused := 0, cntStale := 0, cntEpoch := 0, sideCount := 0 }

/-- Frames held for a binding that runs no more are discarded and counted; the credits of their units are withheld (R393). -/
def dropHeldFrames (s : State) : State :=
  (List.range 32).foldl (fun s p =>
    let x := sportOf s p
    let fs := x.collHeld ++ (x.dataHeld.filter (·.2)).map (·.1)
    if x.collHeld.isEmpty && x.dataHeld.isEmpty then s
    else fs.foldl (fun s f => freeUnits s p f) (modSport s p fun x => { x with
      collHeld := [], dataHeld := [], discards := sat 32 (x.discards + x.collHeld.length + x.dataHeld.length) })) s

/-- Steps 1 and 2: every clause is aborted, every ring reset, near memory and scratchpads cleared; far contents, tenancies and
their windows stay, with what places the windows of the sentence; its clauses and bindings must be loaded again. -/
def computeStop (s : State) : State :=
  let s := keepEgress s
  let live := s.tens.filter fun p => p.2.st ≠ .none_
  let s := live.foldl (fun s p => if p.2.run.isSome then abortRun s p.1 0x0801 0
    else modTen (dropRequests (localAborts s p.1) p.1) p.1 fun x => { x with gen := x.gen + 1 }) s
  let s := live.foldl (fun s p =>
    let x := tenOf s p.1
    let s := completeOpt s x.binding stAborted 0
    modTen s p.1 fun x => { x with
      sentence := x.sentence.map fun y => { y with clauses := [], bindings := [], migrated := [] }
      binding := none, loading := none, saved := [], savedMem := [], savedSeq := none, savedQueues := [], savedBytes := [], resumed := false
      reported := [] }) s
  let s := s.tiles.foldl (fun s p => clearSite s p.1) s
  let s := allRings.foldl (fun s r => modRing (clearNear (clearFence s r) r) r resetRing) s
  let s := s.fields.foldl (fun s p => modField s p.1 resetRouter) s
  let s := (List.range 4).foldl (fun s p => modPly s p fun x => { x with busy := none, repairQ := [], guests := [], raised := [], colls := [] }) s
  let s := modBox s fun b => { b with reh := { b.reh with
    status := if b.reh.status = 2 then 3 else b.reh.status, poisonNext := [], stall := none, fenced := none, lossRing := none } }
  let s := { s with net := [], hbSeen := 0, hbMissed := 0, hbLost := 0
                    agentSeq := [], agentTaken := [], agentNack := [], agentOut := [], agentPark := [] }
  setReady (dropHeldFrames (modBox s fun b => { b with state := .computeReset })) .low

/-- Steps 3 to 5: tests, merge, rings rejoin; assigned rings go back to their tenancies. -/
def computeFinish (s : State) (rep : BootReport) : State :=
  if !rep.tickOk || !rep.refOk || !rep.ringmastersFailed.isEmpty then requestPower s causeTest
  else
    let s := mergeMap (applyReport s rep 1)
    let held (r : Nat) : Bool := s.tens.any fun p => p.2.st ≠ .none_ && p.2.rings.contains r
    let lost := allRings.filter fun r => (ringOf s r).st = .lost
    let s := allRings.foldl (fun s r => modRing s r fun x => { x with
      st := if lost.contains r then .lost
        else match ringEntryState s r with
          | .free => if held r then .assigned else .free
          | st => st
      ejectOff := lost.contains r }) s
    let s := (List.range 4).foldl topUp s
    let s := nameLead ((List.range 32).foldl advertise s)
    let ms := match s.box.resetStart with | some t => (s.time.uptime - t) / 1000000 | none => 0
    let s := evModule s 0 0x0001 (s.time.poweredS / 3600)
    setReady (modBox s fun b => { b with state := .ready, bootMs := ms, lastReset := 2, resetStart := none }) .high

/-- COMPUTE_RESET_TIMEOUT (R326): the second failure within 10 s asks for a power cycle; a first one starts again. -/
def execComputeResetTimeout (s : State) : Host.Outcome State Fault Refusal :=
  .next (
    match s.box.resetStart with
    | some t =>
      if s.box.state ≠ .computeReset || s.box.pwrPending || s.time.uptime < t + 3000000000 then s
      else
        let ts := recent s.time.uptime s.box.resetFails ++ [s.time.uptime]
        let s := modBox s fun b => { b with resetFails := ts, resetStart := some s.time.uptime }
        if 2 ≤ ts.length then requestPower s causeCount else s
    | none => s)

/-- RINGMASTER_FAULT (R350). -/
def execRingmasterFault (ply : PlyId) (s : State) : Host.Outcome State Fault Refusal :=
  .next (
    if !computeUp s || !(plyOf s ply).rmOk then s
    else startReset (evModule s 5 0x0803 ply) causeRingmaster)

/-- ESC_COUNT_EXPIRY (R326). -/
def execEscCountExpiry (s : State) : Host.Outcome State Fault Refusal :=
  .next (
    let now := s.time.uptime
    let s := s.rings.foldl (fun s p => modRing s p.1 fun x => { x with engFails := recent now x.engFails }) s
    modBox s fun b => { b with partFails := recent now b.partFails, resetFails := recent now b.resetFails })

end Sys2Proof.Machine
end

