-- ==== Sys2Proof/Machine/Replay.lean ====
section
/-! DEFINITION. Held copies, the commit of a beat, guard copies and what a failed audit leads to
(spec/02_programming_model.md R38 to R40; spec/03_tile.md R51, R62 to R64; spec/07_scheduled_mesh.md R173, R195;
spec/08_memory_tiers.md R216, R217, R231, R237 to R239; spec/11_audit_and_replay.md R313 to R316). -/

namespace Sys2Proof.Machine
open Sys2Proof

/-- Apply to every tile of a clause. -/
def modClause (s : State) (n : Nat) (f : Tile → Tile) : State :=
  (clauseTiles s n).foldl (fun s p => modTile s p.2.2.2 f) s

def setPhase (s : State) (n : Nat) (p : Phase) : State := modRun s n fun u => { u with phase := p }

/-- The ring of a tenancy's first virtual ring, whose Ringmaster is the clause's home (R336). -/
def homeRing (s : State) (n : Nat) : Nat := (boundRings s n).headD 0

/-! ### Inbound banks (R51) -/

def mapBufs (f : InBuf → InBuf) (t : Tile) : Tile := (List.range 4).foldl (fun t b => setInBuf t b (f (inBuf t b))) t

/-- Reading and writing start again at the first packet of the bank that is read. -/
def rewindBuf (b : InBuf) : InBuf :=
  { b with rd := 0, rdPkt := b.live.skip, tok := 0, wrPkt := nextPkt b.live 0, wrw := 0, rowOpen := false }

/-- The empty bank that words arrive in after a swap: the packet that arrives is its first, and what DROP has discarded of
it and of later ones stays discarded (R55). -/
def freshBank (b : InBuf) : Bank :=
  { dropped := (b.live.dropped.filter fun p => decide (b.wrPkt ≤ p)).map (· - b.wrPkt), skip := b.rdPkt - b.wrPkt }

/-- The banks change roles and the new live bank is emptied; a packet whose words still arrive goes on in it. -/
def swapBuf (b : InBuf) : InBuf :=
  rewindBuf { b with held := b.live, live := freshBank b, crossed := false, frozen := false
                     liveBank := if b.crossed then b.liveBank else !b.liveBank }

/-- The inputs of the other of two beats that are replayed are read; no bank changes its role (R51). -/
def exchangeBuf (b : InBuf) : InBuf :=
  rewindBuf { b with held := b.live, live := b.held, crossed := !b.crossed, frozen := true }

/-- The swap is suppressed: the live bank is read again. -/
def freezeBuf (b : InBuf) : InBuf := rewindBuf { b with frozen := true }

/-! ### Held copies of channels and sequence state (R195, R314) -/

def mapChans {α : Type} [DecidableEq α] (d : α) (f : Nat → α) : List (Nat × α) :=
  (List.range 32).foldl (fun m c => SMap.put d m c (f c)) []

/-- CLOSED of every send channel is cleared at a tick (R190). -/
def openSends (t : Tile) : Tile := { t with sendCh := t.sendCh.map fun p => (p.1, { p.2 with closed := false }) }

/-- The tick's copy. -/
def takeCopies (t : Tile) : Tile :=
  let t := openSends t
  { t with
    olderSend := t.heldSend, olderRecv := t.heldRecv, heldSend := t.sendCh, heldRecv := t.recvCh
    recvCh := mapChans {} fun c => { recvOf t c with past := [] } }

/-- A receive channel for a replay: from its copy, but what an agent sent is kept (log entry 26). -/
def restoreRecv (extra : List (BitVec 256)) (copy live : RecvCh) : RecvCh :=
  let back := extra ++ live.past
  if live.srcVfield.toNat < 6 then { copy with past := [] }
  else { live with queue := back ++ live.queue, recvd := live.recvd - back.length, past := [] }

/-- Back to the copy of the last tick. -/
def restoreHeld (t : Tile) : Tile :=
  { t with sendCh := t.heldSend, recvCh := mapChans {} fun c => restoreRecv [] (SMap.get {} t.heldRecv c) (recvOf t c) }

/-- Back to the copy of the tick before. -/
def restoreOlder (t : Tile) : Tile :=
  { t with
    sendCh := t.olderSend, heldSend := t.olderSend
    recvCh := mapChans {} fun c => restoreRecv (SMap.get {} t.heldRecv c).past (SMap.get {} t.olderRecv c) (recvOf t c)
    heldRecv := mapChans {} fun c => { SMap.get {} t.olderRecv c with past := [] } }

/-- An endpoint address of a tile of some rings. -/
def tileEpIn (rs : List Nat) (a : Nat) : Bool :=
  let e := BitVec.ofNat 16 a
  decide (epNo e < 72) && rs.contains (fieldRing (epField e))

/-- Keys of `reqSeq` for an agent's sends to a tile of the rings, and of `agentSeq` for a tile's sends to an agent. -/
def reqKeyIn (rs : List Nat) (k : Nat) : Bool := decide (2 ^ 40 ≤ k) && tileEpIn rs (k / 32 % 2 ^ 16)
def agentKeyIn (rs : List Nat) (k : Nat) : Bool := tileEpIn rs (k / 32 % 2 ^ 16)

def seqCopy (s : State) (n : Nat) : SeqCopy :=
  let rs := boundRings s n
  { reqSeq := s.reqSeq.filter fun p => reqKeyIn rs p.1
    agentSeq := s.agentSeq.filter fun p => agentKeyIn rs p.1
    agentTaken := s.agentTaken.filter fun p => agentKeyIn rs p.1
    srcs := rs.map fun r => (r, (ringOf s r).srcs.filter fun p => tileEpIn rs p.1) }

/-- Replace the entries of some keys. -/
def mergeKeys {α : Type} (mine : Nat → Bool) (m new : List (Nat × α)) : List (Nat × α) :=
  new.foldl (fun m p => SMap.insert m p.1 p.2) (m.filter fun p => !mine p.1)

/-- Fences and agents go back to a copy; what agents have sent to tiles stays, and so does what an agent has taken out of
its queue (R229; log entry 26). -/
def restoreSeq (s : State) (n : Nat) (c : SeqCopy) : State :=
  let rs := boundRings s n
  let s := { s with agentSeq := mergeKeys (agentKeyIn rs) s.agentSeq c.agentSeq }
  c.srcs.foldl (fun s p => modRing s p.1 fun x => { x with srcs := mergeKeys (tileEpIn rs) x.srcs p.2 }) s

/-- Every channel of the clause starts afresh (R190, R191, R200). -/
def clearSeqs (s : State) (n : Nat) : State :=
  let rs := boundRings s n
  { s with
    reqSeq := s.reqSeq.filter fun p => !reqKeyIn rs p.1
    agentSeq := s.agentSeq.filter fun p => !agentKeyIn rs p.1
    agentTaken := s.agentTaken.filter fun p => !agentKeyIn rs p.1
    agentNack := s.agentNack.filter fun p => !agentKeyIn rs p.1
    agentOut := s.agentOut.filter fun p => !reqKeyIn rs p.1 }

/-! ### Outputs of a beat -/

/-- R314, actions 1 and 2: egress, commit queues, far-DMA and collective descriptors and requests of a beat go, and what the
pools and the agents keep of them. -/
def dropBeat (s : State) (n b : Nat) : State :=
  let mine (d : DataMsg) (c : Nat) : Bool := d.ten.toNat = n && c = b
  let s := s.sports.foldl (fun s p => modSport s p.1 fun x =>
    { x with egress := x.egress.filter fun e => !(e.ten = n && e.beat = b && !e.released) }) s
  let s := s.rings.foldl (fun s p => modRing s p.1 fun x =>
    { x with commitQ := x.commitQ.filter fun e => !mine e.msg e.beat }) s
  let s := s.farStacks.foldl (fun s p => modStack s p.1 fun x =>
    { x with queue := x.queue.filter fun j => !(mine j.msg j.beat && !j.eligible) }) s
  let s := s.plies.foldl (fun s p => modPly s p.1 fun x =>
    { x with colls := x.colls.filter fun c => !(c.ten = n && c.beat = b && !c.eligible) }) s
  let rs := boundRings s n
  let s := rs.foldl (fun s r => modRing s r fun x => { x with
    words := x.words.filter fun w => extProducer w.src || w.word.btag.toNat ≠ b % 4
    ejected := x.ejected.filter fun p => !(p.2.ten.toNat = n && p.2.btag.toNat = b % 4 && tileEpIn rs p.2.src.toNat) }) s
  let s := { s with agentPark := s.agentPark.filter fun d =>
    !(d.ten.toNat = n && fld d.tspec 216 2 = b % 4 && tileEpIn rs d.src.toNat) }
  modClause s n fun t => { t with reqs := t.reqs.filter fun q => q.msg.btag.toNat ≠ b % 4 }

/-- Outputs of the beats up to `b` leave: the commit queues apply their MASTER and OUTPUT writes in order, egress goes (R39), and
collectives are eligible (R389). The beat is the restore point (R239). -/
def releaseBeat (s : State) (n b : Nat) : State :=
  let due (e : CommitEntry) : Bool := e.msg.ten.toNat = n && decide (e.beat ≤ b)
  let s := s.rings.foldl (fun s p => if p.2.commitQ.any due then
    modRing s p.1 fun x => { x with commitQ := x.commitQ.map fun e => if due e then { e with released := true } else e } else s) s
  let s := s.sports.foldl (fun s p => modSport s p.1 fun x =>
    { x with egress := x.egress.map fun e => if e.ten = n && decide (e.beat ≤ b) then { e with released := true } else e }) s
  let s := s.plies.foldl (fun s p => modPly s p.1 fun x =>
    { x with colls := x.colls.map fun c => if c.ten = n && decide (c.beat ≤ b) then { c with eligible := true } else c }) s
  modRun s n fun u => { u with restorePoint := some b }

/-! ### Guard copies (R237, R238) -/

/-- Source and destination of every piece of a guard copy: guarded granules and mirror areas of the clause. -/
def guardPieces (s : State) (n : Nat) : List (Nat × Nat × Nat) :=
  let x := tenOf s n
  match cfgOf x with
  | none => []
  | some c =>
    let map := c.layout.guarded
    let gs := map.filterMap fun v => match viewAddr x v 0, guardAddrIn x map v 0 with
      | some a, some g => some (a, g, granBytes)
      | _, _ => none
    let ms := (clauseRings s n).flatMap fun p => (List.range 6).flatMap fun vf => (List.range 32).filterMap fun ch =>
      (guardMirrorIn x map p.1 vf ch 0).map fun g => (nearAddr (ringField p.2 vf) ch 0x7FE00000, g, 0x80000)
    gs ++ ms

/-- 4 KiB blocks of a guarded granule whose dirty bits are set. -/
def dirtyBlocks (s : State) (p : Nat × Nat × Nat) : List (Nat × Nat) :=
  let first := fldN p.1 46 5 * 2 ^ 19 + p.1 % 2 ^ 31 / 4096
  let x := fieldOf s (fldN p.1 58 2 * 96 + fldN p.1 51 7)
  (x.dirty.filter fun k => decide (first ≤ k) && decide (k < first + 512)).map fun k =>
    (p.1 + (k - first) * 4096, p.2.1 + (k - first) * 4096)

/-- Blocks of the mirror storage of a beat. -/
def mirrorBlocks (s : State) (n b : Nat) : List (Nat × Nat) :=
  let x := tenOf s n
  let map : List VGranule := match cfgOf x with | some c => c.layout.guarded | none => []
  (clauseTiles s n).flatMap fun p =>
    let vt := p.2.2.1
    match guardMirrorIn x map p.1 p.2.1 (vt % 32) (mirrorOff vt (b % 2) - 0x7FE00000) with
    | some g => (List.range (ceilDiv ((tileOf s p.2.2.2).carryRows.toNat * rowBytes) 4096)).map fun k =>
        (mirrorAddr p.2.2.2 vt b + 4096 * k, g + 4096 * k)
    | none => []

/-- Blocks that the copy of a beat has to read: dirty blocks of guarded granules, and the beat's mirror storage. -/
def copyBlocks (s : State) (n b : Nat) : List (Nat × Nat) :=
  (((guardPieces s n).filter fun p => p.2.2 = granBytes).flatMap (dirtyBlocks s)) ++ mirrorBlocks s n b

/-- On some channel the bytes that outstanding copies still have to read exceed the free guard-save room, 512 KiB less
the units of 128 B that are swapped (R238). -/
def guardFull (s : State) (n : Nat) : Bool :=
  match clauseOf (tenOf s n), (tenOf s n).run with
  | some c, some u =>
    let out := u.copies.filter fun g => !g.done
    let use : List (Nat × Nat) := out.flatMap fun g => (g.blocks.map fun b => (b.1 / 2 ^ 46, 4096)) ++ g.swaps.map fun k => (k * 128 / 2 ^ 46, 128)
    c.guard && use.any fun p => decide (0x80000 < ((use.filter fun q => q.1 = p.1).map (·.2)).sum)
  | _, _ => false

/-- Near memory without what beats after `b` wrote into guarded rows (R238). -/
def withoutLater (s : State) (n b : Nat) : State :=
  match (tenOf s n).run with
  | some u => (u.nearOld.filter fun o => decide (b < o.w)).reverse.foldl (fun s o => memWriteP s o.row o.bytes o.psn) s
  | none => s

/-- Source, destination and length of what the copy of a beat reads: its blocks, and under a new guard map every guarded granule
whole, for the window holds nothing of it yet (DEDUCED, log entry 43). -/
def copyRanges (s : State) (n b : Nat) : List (Nat × Nat × Nat) :=
  let whole : Bool := match (tenOf s n).run with | some u => u.guardNew | none => false
  let blocks := copyBlocks s n b
  (if whole then (guardPieces s n).filter fun p => p.2.2 = granBytes else []) ++ blocks.map fun p => (p.1, p.2, 4096)

/-- The copy of a beat, as the memory stands at its commit: the service port delivers a codeword that it cannot correct poisoned
(R210). -/
def snapshot (s : State) (n b : Nat) : GuardCopy :=
  let blocks := copyBlocks s n b
  let ps := copyRanges s n b
  let s := withoutLater s n b
  let cells := ps.foldl (fun m p =>
    (s.mem.filter fun c => decide (p.1 ≤ c.1) && decide (c.1 < p.1 + p.2.2)).foldl
      (fun m c => SMap.put 0 m (p.2.1 + (c.1 - p.1)) c.2) m) []
  let psn := ps.foldl (fun m p =>
    (badCodewords s p.1 p.2.2).foldl (fun m w =>
      (List.range 8).foldl (fun m k => NSet.add m ((p.2.1 + (64 * w + 8 * k - p.1)) / 8)) m) m) []
  { beat := b, ranges := ps.map fun p => (p.2.1, p.2.2), cells := cells, psn := psn, blocks := blocks
    map := match cfgOf (tenOf s n) with | some c => c.layout.guarded | none => [] }

/-- What making a copy does to the near tier: its reads count and report, and the dirty bits of its blocks are cleared. -/
def readCopy (s : State) (n b : Nat) : State :=
  let s := (copyRanges s n b).foldl (fun s p => noteSpan s p.1 p.2.2) s
  let s := (copyBlocks s n b).foldl (fun s p => modField s (fldN p.1 58 2 * 96 + fldN p.1 51 7) fun x => { x with
    dirty := x.dirty.filter (· ≠ fldN p.1 46 5 * 2 ^ 19 + p.1 % 2 ^ 31 / 4096) }) s
  modRun s n fun u => { u with guardNew := false }

/-- The guard copy of a beat begins at its commit. -/
def beginCopy (s : State) (n b : Nat) : State :=
  modRun (readCopy s n b) n fun u => { u with copies := u.copies ++ [snapshot s n b] }

/-- A copy reaches the GUARDED window. -/
def writeCopy (s : State) (g : GuardCopy) : State :=
  let s := g.ranges.foldl (fun s p => markWritten (memClear s p.1 (p.1 + p.2)) p.1) s
  poisonLanes { s with mem := g.cells.foldl (fun m c => SMap.put 0 m c.1 c.2) s.mem } g.psn

/-- A pseudo-channel of a stack that takes the tenancy's guard copies retrains: their pieces for it wait (R227). -/
def copyWaits (s : State) (n : Nat) : Bool :=
  ((tenOf s n).windows.filter (·.attr = .guarded)).any fun w =>
    (List.range w.granules).any fun g => match winAddr (tenOf s n) w (w.base + g * granBytes) with
      | some a => !(stackOf s (fldN a 58 2 * 32 + fldN a 53 5)).retraining.isEmpty
      | none => false

/-- GUARD_COPY_DONE: the oldest copy that is outstanding (R238); its beat is released at the next tick. -/
def execGuardCopyDone (ten : TenId) (s : State) : Host.Outcome State Fault Refusal :=
  .next (
    match (tenOf s ten).run with
    | none => s
    | some u => match u.copies.find? fun g => !g.done with
      | none => s
      | some g =>
        if copyWaits s ten then s else modRun (writeCopy s g) ten fun u => { u with
          guardMap := some g.map
          copies := u.copies.map fun h => if h.beat = g.beat then { h with done := true, cells := [], psn := [], blocks := [] } else h })

/-- Beats whose copy is complete are released, oldest first. -/
def releaseCopies : Nat → State → Nat → State
  | 0, s, _ => s
  | k + 1, s, n => match (tenOf s n).run with
    | none => s
    | some u => match u.copies with
      | g :: rest =>
        if g.done then releaseCopies k (modRun (releaseBeat s n g.beat) n fun u => { u with copies := rest }) n else s
      | [] => s

/-! ### The carry mirror (R62, R64, R216, R217) -/

/-- Rows leave a scratchpad for its mirror slot: read port B reads each, with what a read counts and reports. -/
def mirrorRows (s : State) (i row a : Nat) : Nat → State
  | 0 => s
  | k + 1 =>
    let r := readRow s i row
    mirrorRows (memWriteP (noteWrite (noteRead s i row .mirror) a rowBytes) a r.bytes r.psn) i (row + 1) (a + rowBytes) k

/-- The carry copy of a beat goes to its mirror slots. -/
def mirrorCarry (s : State) (n b : Nat) : State :=
  let s := (clauseTiles s n).foldl (fun s p =>
    let t := tileOf s p.2.2.2
    mirrorRows s p.2.2.2 (copyRow t (b % 2)) (mirrorAddr p.2.2.2 p.2.2.1 b) t.carryRows.toNat) s
  modRun s n fun u => { u with mirrored := some b }

/-- A poisoned or uncorrectable word in the carry copy of a beat at its tick blocks its commit (R160). -/
def checkCarry (s : State) (n b : Nat) : State :=
  (clauseTiles s n).foldl (fun s p =>
    let t := tileOf s p.2.2.2
    let bad := (List.range t.carryRows.toNat).any fun k => !(poisonWords s p.2.2.2 (copyRow t (b % 2) + k)).isEmpty
    if bad then failTile s p.2.2.2 mechPoison else s) s

/-! ### Commit (R173 action 2) -/

/-- A rehearsal whose clause has committed a beat after the recovery is done (R321, R325). A poisoned word that no beat has read
yet goes on waiting for its read, and the beats from the next one on count. -/
def rehearsalDone (s : State) (n b : Nat) : State :=
  match (tenOf s n).run with
  | some u => match u.rehearsedAt with
    | some t =>
      if !s.box.reh.poisonNext.isEmpty then modRun s n fun u => { u with rehearsedBeat := u.sentBeat + 1 }
      else if !u.resuming && (s.box.reh.kind = 5 || b < u.rehearsedBeat) then s
      else
        let s := modRun s n fun u => { u with rehearsedAt := none }
        modBox s fun x => { x with reh := { x.reh with
          status := 3, refused := false, lastNs := s.time.uptime - t, count := x.reh.count + 1, stall := none } }
    | none => s
  | none => s

/-- The audit of beat `b` closes and passes. -/
def commit (s : State) (n b : Nat) : State :=
  let s := modTen s n fun x => { x with lastCommitted := b, beatsCommitted := x.beatsCommitted + 1 }
  let s := rehearsalDone (endRepairs s n) n b
  let s := modRun s n fun u => { u with
    lastCommitted := some b, pendingBeat := none, resuming := false, moved := [], engineTry := false, repairSites := [] }
  let s := s.farStacks.foldl (fun s p => modStack s p.1 fun x =>
    { x with queue := x.queue.map fun j => if j.msg.ten.toNat = n && decide (j.beat ≤ b) then { j with eligible := true } else j }) s
  match clauseOf (tenOf s n) with
  | some c => if c.guard then beginCopy s n b else releaseBeat s n b
  | none => releaseBeat s n b

/-- Commit the beat whose audit closes at this tick, if there is one. -/
def commitPending (s : State) (n : Nat) : State :=
  match (tenOf s n).run with
  | some u => match u.pendingBeat with
    | some b => commit s n b
    | none => s
  | none => s

/-! ### Starting a beat (R63, R69, R126, R135, R165, R173 action 8) -/

/-- A tile at the start of a work or replay beat. A replay is no new beat for the one record in a beat of R157 and R158: the
record bits and what was read before it stay (DESIGN CHOICE, log entry 80). -/
def beatTile (u : Run) (replay : Bool) (t : Tile) : Tile :=
  let st : TileSt := if t.st = .fenced then .fenced else if replay then .replay else .running
  let outb := t.outb.map fun (p : Nat × OutBuf) => (p.1, if replay then { p.2 with rows := [] } else p.2)
  let t : Tile := { openSends t with
    st := st, outb := outb
    workBeat := BitVec.ofNat 32 u.workBeat, pass := BitVec.ofNat 32 (SMap.get 0 u.passes u.clause)
    sentBeat := BitVec.ofNat 32 u.sentBeat, grace := false, provIn := false, stopped := false
    sb := [], rules := [], matchBuf := [], matchOvf := false, ovfDue := false, dynQ := [], waits := [], eng := {}
    oldRows := [], driven := [], core := { ended := t.code.isEmpty } }
  if replay then { t with tally := [], spm := { t.spm with
    priorWords := t.spm.failedWords.foldl NSet.add t.spm.priorWords, failedWords := [], failedOld := [], priorOld := [] } }
  else { t with tallyPrev := t.tally, tally := [], closedRec := []
                spm := { t.spm with failedWords := [], priorWords := [], failedOld := [], priorOld := [], corrRec := false, uncorrRec := false } }

def startTiles (s : State) (n : Nat) (replay : Bool) : State :=
  match (tenOf s n).run with
  | some u => modClause s n (beatTile u replay)
  | none => s

/-- The next beat replays a beat the clause has run before; none where it has run no such beat. -/
def startReplay (s : State) (n b : Nat) : Option State :=
  match (tenOf s n).run with
  | none => none
  | some u => (u.history.find? fun h => h.beat = b).map fun h =>
    let s := if rehearsedOn s (some n) then s else modTen s n fun x => { x with beatsReplayed := x.beatsReplayed + 1 }
    let s := modRun s n fun u => { u with
      phase := .replay, clause := h.clause, workBeat := h.workBeat, passes := h.passes, sentBeat := b
      fails := [], late := [] }
    startTiles s n true

/-! ### Failed audits (R313 to R315) -/

/-- Subindexes of 0x4005 for the failures of a beat. -/
def detectedIn (fails : List Nat) : List Nat :=
  (fails.map fun m => if m ≤ 8 then m else if m = mechProgram then mechTrap else mechOther).foldl NSet.add []

/-- Failures of a beat that a rehearsed fault of a kind explains (R323; DEDUCED, log entry 81). -/
def rehearsedFail (kind m : Nat) : Bool :=
  match kind with
  | 1 => m = mechDead
  | 2 => decide (m ≤ mechPoison)
  | 4 => m = mechOther
  | _ => false

/-- Count a failed audit and write its record. -/
def noteFail (s : State) (n : Nat) (fails : List Nat) : State :=
  let s := if fails.all (rehearsedFail s.box.reh.kind) then s else noteReal s (some n)
  let ms := detectedIn fails
  let s := if rehearsedOn s (some n) then s
    else
      let s := modTen s n fun x => { x with auditsFailed := x.auditsFailed + 1 }
      modBox s fun b => { b with detected := ms.foldl (fun m k => SMap.put 0 m k (SMap.get 0 m k + 1)) b.detected }
  evRing s (homeRing s n) 1 0x0401 (ms.headD mechOther) 1

/-- R314, actions 1 to 5, for the beat that has just run. -/
def rewindBeat (s : State) (n : Nat) (u : Run) : State :=
  let s := modClause (dropBeat s n u.sentBeat) n fun t => mapBufs freezeBuf (restoreHeld t)
  match u.seqs with
  | c :: _ => restoreSeq s n c
  | [] => s

/-- Sites that failed their test in a beat whose audit fails for another reason are EXCLUDED with it (DEDUCED, log entry 82). -/
def excludeDue (s : State) (n : Nat) (u : Run) : State :=
  if u.lateSitesDue.isEmpty then s
  else modRun (u.lateSitesDue.foldl (fun s i => siteDown s i) s) n fun v => { v with lateDue := [], lateSitesDue := [] }

/-- TRAP_INFO of the trap that ended the beat. -/
def lastTrapWord (s : State) (u : Run) : Nat :=
  match u.lastTraps with
  | (_, _, _, i) :: _ => trapWord (tileOf s i).trap
  | [] => 0

/-- The verdict of the running beat is a failure. The context level fails when two replays of the beat have failed within 10 s
(R314, R326). -/
def failBeat (s : State) (n : Nat) : State :=
  match (tenOf s n).run with
  | none => s
  | some u =>
    let s := noteFail s n (u.lateDue.foldl NSet.add u.fails)
    if u.fails.contains mechProgram then abortRun s n 0x060A (lastTrapWord s u % 2 ^ 26)
    else if u.fails.contains mechNoRestore then abortWritten s n
    else
      let s := rewindBeat (excludeDue s n u) n u
      let engine (s : State) : State :=
        if u.engineTry then engineFails s n ((u.involved.map siteRing).headD (homeRing s n)) else enterEngine s n
      if u.fails.contains mechDead || u.fails.contains mechAgain || !u.lateDue.isEmpty then engine s
      else if !u.engineTry && !(u.replays = 2 && decide (s.time.uptime ≤ u.replayAt + escWindow)) then
        let s := modRun s n fun v => { v with
          replays := min 2 (u.replays + 1), replayAt := s.time.uptime, repairSites := u.involved.foldl NSet.add v.repairSites }
        (startReplay (markRepair s n 1) n u.sentBeat).getD s
      else if u.engineTry then engine s
      else
        let s := if rehearsedOn s (some n) then s else modBox s fun b => { b with budget := b.budget + 1 }
        engine s

/-- Bound sites whose test has failed are EXCLUDED at the tick that closes the audit (R290, R315). -/
def excludeLate (s : State) (n : Nat) : State :=
  match (tenOf s n).run with
  | some u => if u.lateSites.isEmpty then s
      else modRun (u.lateSites.foldl (fun s i => siteDown s i) s) n fun u => { u with lateSites := [] }
  | none => s

/-- A failure of the beat before, reported after its tick: both beats are replayed (R40, R315). Where that beat was the replay of a
repair at the engine level, the repair has failed (R326). -/
def lateFail (s : State) (n b : Nat) : State :=
  match (tenOf s n).run with
  | none => s
  | some u =>
    let s := excludeDue (noteFail s n (u.lateDue.foldl NSet.add (u.fails.foldl NSet.add u.late))) n u
    let s := dropBeat (dropBeat s n u.sentBeat) n b
    let s := modClause s n fun t => mapBufs exchangeBuf (restoreOlder t)
    let s := match u.seqs with
      | _ :: c :: _ => restoreSeq s n c
      | [c] => restoreSeq s n c
      | [] => s
    let s := match u.lastCommitted with
      | some k => (clauseTiles s n).foldl (fun s p => restoreCarry s n p.2.2.2 k) s
      | none => s
    let s := modRun s n fun u => { u with
      pendingBeat := none, seqs := u.seqs.drop 1, replayNext := decide (u.sentBeat ≠ b), overrun := false, mirrored := u.lastCommitted }
    if runFails s n mechNoRestore then abortWritten s n
    else if u.engineTry then engineFails s n ((u.involved.map siteRing).headD (homeRing s n))
    else enterEngine s n
where
  runFails (s : State) (n m : Nat) : Bool := match (tenOf s n).run with | some u => u.fails.contains m | none => false

end Sys2Proof.Machine
end

