-- ==== Sys2Proof/Machine/Operands.lean ====
section
/-! DEFINITION. Operand forms of verbs: row sources, panels with scale arrays, element sequences and output
blocks (spec/05_tile_commands.md R110, R111, R113, R117). -/

namespace Sys2Proof.Machine
open Sys2Proof

/-- Rows of a source field, from cc on: 0 the scratchpad, 4 to 7 an inbound buffer; none where rows have not arrived. -/
def srcRows (s : State) (i src row cc : Nat) (u : PortUse) (n : Nat) : Option (State × List RowRd) :=
  if src = 0 then some (readPort s i row cc u n) else takeRows s i (src - 4) n

def srcOk (src : Nat) : Bool := src = 0 || (decide (4 ≤ src) && decide (src ≤ 7))

/-- All bytes of rows as one little-endian number. -/
def rowsNat : List RowRd → Nat
  | [] => 0
  | r :: rs => leNat r.bytes + 2 ^ 4096 * rowsNat rs

/-- Poisoned lanes of rows, numbered from the first row's first lane. -/
def rowsPsn (rs : List RowRd) : List Nat :=
  (rs.zipIdx.map fun (r, n) => r.psn.map (· + 64 * n)).flatten

/-- Bits [pos, pos + n) touch a poisoned lane. -/
def bitsPsn (psn : List Nat) (pos n : Nat) : Bool :=
  psn.any fun l => decide (pos / 64 ≤ l) && decide (l ≤ (pos + n - 1) / 64)

/-- Byte `p` of a sequence of rows lies within its row's valid bytes (R53). -/
def byteValid (rs : List RowRd) (p : Nat) : Bool :=
  match rs[p / 512]? with
  | some r => decide (p % 512 < r.count)
  | none => false

/-- Rows spanned by `n` elements of `b` bits. -/
def rowsOf (n b : Nat) : Nat := ceilDiv (n * b) 4096

/-! ### Panels (R111) -/

/-- Elements of one scale block. -/
def blockLen (code : Nat) : Nat := if code = 0xC then 64 else 32

structure Panel where
  code : Nat
  scaled : Bool
  mmajor : Bool
  k : Nat
  deriving DecidableEq, Repr

def Panel.rows (p : Panel) : Nat :=
  if p.mmajor then 64 * rowsOf p.k (fbits p.code) else rowsOf (64 * p.k) (fbits p.code)

def Panel.scaleRows (p : Panel) : Nat :=
  if p.scaled then ceilDiv (64 * (p.k / blockLen p.code)) 512 else 0

def Panel.allRows (p : Panel) : Nat := p.rows + p.scaleRows

/-- Bit of element (line i, k). -/
def Panel.pos (p : Panel) (i k : Nat) : Nat :=
  if p.mmajor then 4096 * rowsOf p.k (fbits p.code) * i + k * fbits p.code else (64 * k + i) * fbits p.code

/-- Bit of the scale of line i for block β. -/
def Panel.scalePos (p : Panel) (i β : Nat) : Nat := 4096 * p.rows + 8 * (64 * β + i)

/-- Operand element (line i, k) of a panel read as the number `w` (R79 to R81). -/
def Panel.at (p : Panel) (w i k : Nat) : Opnd :=
  opnd p.code p.scaled (fldN w (p.pos i k) (fbits p.code))
    (if p.scaled then fldN w (p.scalePos i (k / blockLen p.code)) 8 else 0)

/-- Line i touches a poisoned lane. -/
def Panel.linePsn (p : Panel) (psn : List Nat) (i : Nat) : Bool :=
  !psn.isEmpty && ((List.range p.k).any fun k =>
    bitsPsn psn (p.pos i k) (fbits p.code) ||
    (p.scaled && bitsPsn psn (p.scalePos i (k / blockLen p.code)) 8))

/-- Line i of a panel. -/
def Panel.line (p : Panel) (w i : Nat) : List Opnd := (List.range p.k).map (p.at w i)

/-! ### Element sequences and output blocks -/

/-- Element `e` of a packed sequence. -/
def seqAt (w b e : Nat) : Nat := fldN w (b * e) b

/-- Pack codes into rows; a code with its poison mark poisons every lane it touches. Bytes after the last
code's are `fill`ed. -/
def packFill (fill : Nat → Byte) (b : Nat) (cs : List (Nat × Bool)) : List (List Byte × List Nat) :=
  let used := ceilDiv (cs.length * b) 8
  let w := packN b (cs.map (·.1))
  let bad := (cs.zipIdx.filter fun c => c.1.2).map (·.2)
  let lanes := (bad.map fun e => (List.range ((b * (e + 1) - 1) / 64 + 1 - b * e / 64)).map (· + b * e / 64)).flatten
  (List.range (rowsOf cs.length b)).map fun r =>
    (((leBytes 512 (w >>> (4096 * r))).zipIdx.map fun (x, n) => if 512 * r + n < used then x else fill (512 * r + n)),
     (List.range 64).filter fun l => lanes.contains (64 * r + l))

def packRows (b : Nat) (cs : List (Nat × Bool)) : List (List Byte × List Nat) := packFill (fun _ => 0) b cs

/-! ### Results of a verb -/

/-- A write a verb makes: a wide row, one word of a row, a row of an outbound buffer, or a near row. -/
inductive Wr where
  | row (r : Nat) (bytes : List Byte) (psn : List Nat)
  | word (r w v : Nat) (psn : Bool)
  | out (b : Nat) (r : OutRow)
  | near (ch row : Nat) (r : RowRd)
  deriving DecidableEq, Repr

/-- The scratchpad row of a write. -/
def Wr.spmRow : Wr → Option Nat
  | .row r _ _ => some r
  | .word r _ _ _ => some r
  | _ => none

/-- The row that a record of a mirror mismatch names. -/
def Wr.rowNo : Wr → Nat
  | .row r _ _ => r
  | .word r _ _ _ => r
  | .out _ _ => 0
  | .near _ r _ => r

/-- Rows from `row` on. -/
def wrRows (row : Nat) (rs : List (List Byte × List Nat)) : List Wr :=
  rs.zipIdx.map fun (r, n) => .row (row + n) r.1 r.2

def Wr.poisoned : Wr → Wr
  | .row r b _ => .row r b (List.range 64)
  | .word r w v _ => .word r w v true
  | .out b r => .out b { r with psn := List.range 64 }
  | .near c n r => .near c n { r with psn := List.range 64 }

/-- Rows enter an outbound buffer (R58), with the beat that produces them (R59). -/
def pushOut (s : State) (i b : Nat) (rs : List OutRow) : State :=
  modTile s i fun t => setOutBuf t b { outBuf t b with
    rows := (outBuf t b).rows ++ rs.map fun r => { r with btag := BitVec.ofNat 2 t.sentBeat.toNat } }

/-- A write presented in cc `w`. -/
def applyWr (s : State) (i w : Nat) : Wr → State
  | .row r b p => writeRowAt s i r w b p
  | .word r k v p => writeWordAt s i r k w false v p
  | .out b r => pushOut s i b [r]
  | .near c n r => writeNear s i c n [r]

/-- Writes of one site. -/
def atSite (i : Nat) (ws : List Wr) : List (Nat × Wr) := ws.map fun w => (i, w)

/-- How a verb ends: with writes still to make at their sites, in a trap, or waiting with part of its rows moved and their
writes to make. -/
inductive VRes where
  | done (s : State) (ws : List (Nat × Wr))
  | trap (code : Nat)
  | wait (s : State) (ws : List (Nat × Wr)) (moved : Nat) (w : WaitRec)

/-- First broken condition, as its trap code. -/
def firstTrap : List (Bool × Nat) → Option Nat
  | [] => none
  | (ok, c) :: r => if ok then firstTrap r else some c

/-- A row range within the scratchpad (R109, R145). -/
def rowsIn (first n : Nat) : Bool := n = 0 || decide (first + n ≤ spmRows)

end Sys2Proof.Machine
end

