-- ==== Sys2Proof/Machine/Verbs.lean ====
section
/-! DEFINITION. Issue of verbs: what a verb's bits decide, the wide ports it claims, the scheduled issue at a stamp,
the mirror compare and the dynamic queue (spec/05_tile_commands.md R104 to R109, R134, R140; spec/03_tile.md R74, R76;
spec/06_scratchpad.md R147, R149 to R151, R165; spec/07_scheduled_mesh.md R189; R317). -/

namespace Sys2Proof.Machine
open Sys2Proof

/-- Issue units (R105). -/
inductive VUnit where
  | engine | sfu | steering | memory | none
  deriving DecidableEq, Repr

/-- What a verb's bits decide: its unit, a trap its fields alone cause, its occupancy O, C − t, the rows it reads
and writes (first row, count), and whether it is never dynamic (R105, R108, R109, R134, R164). `claims` are its
accesses to the wide ports, counted from its issue, and `pairClaims` those in the catcher of a fused pair (R74); `wAt` the cc
of its writes as (first, step, count); `pairReads` the rows it reads in that catcher; `near` the channel and the transfers of
a near MOV. Where the spec gives an access no cc, log entry 30 does. -/
structure VInfo where
  unit : VUnit
  trap : Option Nat
  occ : Nat
  comp : Nat
  reads : List (Nat × Nat) := []
  writes : List (Nat × Nat) := []
  never : Bool := false
  claims : List PortUse := []
  pairClaims : List PortUse := []
  wAt : List (Nat × Nat × Nat) := []
  pairReads : List (Nat × Nat) := []
  near : Option (Nat × Nat) := none
  deriving DecidableEq, Repr

def VUnit.no : VUnit → Nat
  | .engine => 0 | .sfu => 1 | .steering => 2 | .memory => 3 | .none => 4

/-- The cc, from issue on, in which a verb presents its write number `k`. -/
def segCc (last : Nat) : List (Nat × Nat × Nat) → Nat → Nat
  | [], _ => last
  | (first, step, n) :: r, k => if k < n then first + k * step else segCc last r (k - n)

def VInfo.writeCc (x : VInfo) (k : Nat) : Nat := segCc (x.comp - 1) x.wAt k

def stampOf (v : BitVec 128) : Nat := fld v 8 20
def satBit (v : BitVec 128) : Bool := bit v 29

/-- Bits [lo + len − 1 : lo] are zero. -/
def zeroF (v : BitVec 128) (lo len : Nat) : Bool := fld v lo len = 0

/-- The common Reserved bits (R104). -/
def commonOk (v : BitVec 128) : Bool := zeroF v 30 2

def unitTo (e : Engine) : VUnit → Nat
  | .engine => e.engTo | .sfu => e.sfuTo | .steering => e.steerTo | .memory => e.memTo | .none => 0

def setUnitTo (e : Engine) (c : Nat) : VUnit → Engine
  | .engine => { e with engTo := c } | .sfu => { e with sfuTo := c } | .steering => { e with steerTo := c }
  | .memory => { e with memTo := c } | .none => e

def overlap (a b : Nat × Nat) : Bool := a.2 ≠ 0 && b.2 ≠ 0 && decide (a.1 < b.1 + b.2) && decide (b.1 < a.1 + a.2)

/-- A row range overlaps a held scoreboard entry of another verb. -/
def boardHit (t : Tile) (tag : Option Nat) (rs : List (Nat × Nat)) : Bool :=
  t.sb.any fun p => some p.2.tag ≠ tag && rs.any fun r => overlap r (p.2.first, p.2.last + 1 - p.2.first)

/-- Start of the sideshow window (R317). -/
def windowAt (s : State) : Nat := beatLen s - sideWin s

/-- The sites of a ring whose turn it is in this beat's sideshow window (R318). -/
def turnSites (s : State) (r : Nat) : List Nat :=
  (List.range 8).map fun k =>
    let q := 8 * ((ringOf s r).sideCount % 54) + k
    ringField r (q / 72) * 72 + q % 72

/-- The tile is under test in this beat (R317, R318, R417). -/
def underTest (s : State) (i : Nat) : Bool :=
  s.box.heldFrom.isNone && (siteMap s i).st ≠ .retired && (turnSites s (siteRing i)).contains i

/-- The cc within the beat that the module's time stands at. -/
def beatCc (s : State) : Nat := (s.time.uptime - s.time.beatStart) * s.time.cclkMhz / 1000

/-- The scalar core of a tile under test stalls in the sideshow window (R317). -/
def coreHeld (s : State) (i cc : Nat) : Bool := decide (windowAt s ≤ cc) && underTest s i

/-- A tile that issues verbs of its beat program: in a work or replay beat, and once the beat has outlasted its tick only to
finish the verbs that wait (R106, R175). -/
def issues (t : Tile) (again : Bool) : Bool :=
  !t.stopped && (t.st = .running || t.st = .replay) && ((t.eng.past = 0 && (!t.grace || t.eng.stalled)) || again)

/-- The verb in a slot waits. -/
def waitsIn (t : Tile) (slot : Nat) : Bool := t.eng.waiting.any fun w => w.slot = slot

/-- The mirror variant runs on a pair (R76): the tenancy's running level is 4, the image carries MIRROR, and TILE_MODE.MIRROR
is set in both tiles of every pair of the clause. -/
def mirrorOn (s : State) (i : Nat) : Bool :=
  let t := tileOf s i
  t.mirror && t.role ≠ 0 &&
  (match ringRun s (siteRing i) with
   | some (n, u) => u.level = 4 && (match (tenOf s n).sentence with | some y => y.mirror | none => false) &&
       (clauseSites s n).all fun j => (tileOf s j).role = 0 || (tileOf s j).mirror
   | none => false)

/-- The flyer whose verbs a tile of a mirror pair executes; any other tile its own. -/
def leadSite (s : State) (i : Nat) : Nat := if mirrorOn s i then flyerSite i (tileOf s i) else i

/-- The catcher that works with the verbs of a flyer's fused engine (R73). -/
def fused (s : State) (i : Nat) (u : VUnit) : Option Nat :=
  if u = .engine && (tileOf s i).role = 1 && !mirrorOn s i then some (i + 9) else none

/-! ### Wide ports (R147, R149, R150) -/

/-- A claim has an access in cc. -/
def PortUse.at (u : PortUse) (cc : Nat) : Bool :=
  u.n ≠ 0 && decide (u.cc ≤ cc) &&
  (if u.step = 0 then u.cc = cc else (cc - u.cc) % u.step = 0 && decide ((cc - u.cc) / u.step < u.n))

def PortUse.from (cc : Nat) (u : PortUse) : PortUse := { u with cc := cc + u.cc }

/-- Reads of `n` rows on one read port, spread over `span` cc from `first` on; more rows than cc go on both ports (log entry
30). -/
def readUse (first n span : Nat) : PortUse :=
  if n ≤ span then ⟨first, n, span / max 1 n, 1, 0⟩
  else ⟨first, ceilDiv n 2, max 1 (span / ceilDiv n 2), 2, 0⟩

/-- The step of the writes of `n` result rows, spread over `span` cc up to C − 1, and their claim (log entry 30). -/
def outStep (n span : Nat) : Nat := max 1 (span / max 1 n)
def outUse (comp n span : Nat) : PortUse := ⟨comp - 1 - (n - 1) * outStep n span, n, outStep n span, 0, 1⟩

/-- What is left of a claim when its first accesses have been made. -/
def PortUse.skip (m : Nat) (u : PortUse) : PortUse := { u with cc := u.cc + min m u.n * u.step, n := u.n - m }

/-- Last cc of a claim. -/
def PortUse.last (u : PortUse) : Nat := u.cc + (u.n - 1) * u.step

/-- Read and write ports claimed in cc. -/
def portLoad (us : List PortUse) (cc : Nat) : Nat × Nat :=
  us.foldl (fun l u => if u.at cc then (l.1 + u.reads, l.2 + u.writes) else l) (0, 0)

/-- Read port B belongs to the carry mirror in its mirror read cycles (R149, R217). -/
def mirrorRead (t : Tile) (cc : Nat) : Nat :=
  b2n (cc % 128 = (if t.vtile.toNat < 32 then 0 else 16) && decide (cc / 128 < t.carryRows.toNat))

/-- Ports beyond the two reads and one write of a cc (R150). -/
def portsFull (t : Tile) (us : List PortUse) (cc reads writes : Nat) : Bool :=
  let l := portLoad us cc
  decide (2 < l.1 + reads + (if reads = 0 then 0 else mirrorRead t cc)) || decide (1 < l.2 + writes)

/-- An access of a claim finds its ports taken. -/
def portClash (t : Tile) (us : List PortUse) (x : PortUse) : Bool :=
  (List.range x.n).any fun k => portsFull t us (x.cc + k * x.step) x.reads x.writes

/-! ### Writes and the mirror compare -/

/-- Writes break R62. -/
def carryHit (s : State) (ws : List (Nat × Wr)) : Bool := ws.any fun w => match w.2.spmRow with
  | some r => carryBroken (tileOf s w.1) r 1
  | none => false

/-- Make the writes of a verb, those of one site after another; write `k` of a site is presented in cc `at_ k`. -/
def applyWrs (at_ : Nat → Nat) (s : State) (site k : Nat) : List (Nat × Wr) → State
  | [] => s
  | w :: ws =>
    let k := if w.1 = site then k else 0
    applyWrs at_ (applyWr s w.1 (at_ k) w.2) w.1 (k + 1) ws

/-- A mirror compare has failed at flyer `i`: error bits, the record and the failed beat. One that fails again in the replay
is a fusion link that failed again, the dead site of the catcher (R76, R275; DEDUCED, log entry 80). -/
def mirrorFails (s : State) (i row : Nat) : State :=
  let again := (tileOf s i).st = .replay &&
    (match ringRun s (siteRing i) with | some (_, u) => u.lastMirror.contains i | none => false)
  let s := evTile (failTile (setErr (setErr s i errMirror) (i + 9) errMirror) i mechMirror) i 1 0x0404 row
  let s := match ringTen s (siteRing i) with
    | some n => modRun s n fun u => { u with lastMirror := NSet.add u.lastMirror i }
    | none => s
  if again then siteFails s (i + 9) true 0 0x0404 else s

/-- The mirror compare of both halves' output rows (R76): rows that differ are written poisoned. -/
def mirrorWrites (at_ : Nat → Nat) (s : State) (i : Nat) (wi wj : List (Nat × Wr)) : State :=
  let pairs := List.zip wi wj
  let out (a b : Nat × Wr) : Nat × Wr := if a.2 = b.2 then a else (a.1, a.2.poisoned)
  let s := applyWrs at_ s i 0 ((pairs.map fun p => out p.1 p.2) ++ pairs.map fun p => out p.2 p.1)
  match pairs.find? fun p => decide (p.1.2 ≠ p.2.2) with
  | none => s
  | some p => mirrorFails s i p.1.2.rowNo

/-- The cc in which a verb that runs from cc on presents its write `k`: `late` cc later than its fields give, or the cc that R107
leaves it. -/
def writeAt (t : Tile) (x : VInfo) (cc late k : Nat) : Nat :=
  match t.eng.shift.find? fun p => p.1 = cc + x.writeCc k with
  | some p => p.2
  | none => cc + late + x.writeCc k

/-- One verb on its tile from cc on, its writes `late` cc later than its fields give or in the cc that R107 leaves each, or in
the mirror variant on both halves of the pair (R76). -/
def runVerb (x : VInfo) (eff : State → Nat → BitVec 128 → Nat → VRes) (s : State) (i : Nat) (v : BitVec 128)
    (cc late : Nat) : VRes :=
  let at_ := writeAt (tileOf s i) x cc late
  if mirrorOn s i && (tileOf s i).role = 1 then
    match eff s i v cc with
    | .trap c => .trap c
    | .done s₁ wi => match eff s₁ (i + 9) v cc with
      | .done s₂ wj => if carryHit s (wi ++ wj) then .trap trCarry else .done (mirrorWrites at_ s₂ i wi wj) []
      | .wait _ _ _ w => .wait s [] 0 w
      | .trap c => .trap c
    | .wait s₁ wi m w => match eff s₁ (i + 9) v cc with
      | .wait s₂ wj _ _ => .wait (mirrorWrites at_ s₂ i wi wj) [] m w
      | .trap c => .trap c
      | .done _ _ => .wait s [] 0 w
  else match eff s i v cc with
    | .trap c => .trap c
    | .done s₁ ws => if carryHit s ws then .trap trCarry else .done (applyWrs at_ s₁ i 0 ws) []
    | .wait s₁ ws m w => .wait (applyWrs at_ s₁ i 0 ws) [] m w

/-! ### Scheduled issue (R106) -/

/-- A verb with CHK overlaps a held entry of its tile, or of the catcher it works with (R74, R165). -/
def chkHit (s : State) (i : Nat) (x : VInfo) : Bool :=
  boardHit (tileOf s i) none (x.reads ++ x.writes) ||
  (match fused s i x.unit with | some j => boardHit (tileOf s j) none (x.pairReads ++ x.writes) | none => false)

/-- A unit is held: by its last verb, or by the verb that waits on it (R106, R134). -/
def unitHeld (e : Engine) (u : VUnit) (cc : Nat) : Bool :=
  decide (cc < unitTo e u) || e.waiting.any fun w => w.unit = u.no

/-- Claims find their ports taken, in the tile or in the other half of its pair that the verb uses (R74, R76, R150). -/
def portsTaken (s : State) (i : Nat) (x : VInfo) (cc : Nat) : Bool :=
  let clash (k : Nat) (us : List PortUse) : Bool :=
    us.any fun u => portClash (tileOf s k) (tileOf s k).eng.ports (u.from cc)
  clash i x.claims ||
  ((tileOf s i).role = 1 && (if mirrorOn s i then clash (i + 9) x.claims else x.unit = .engine && clash (i + 9) x.pairClaims))

/-- What of a verb's bits and the beat's state keeps a scheduled verb from issuing: the trap code (R106, R109,
R140, R142, R150, R317). -/
def issueTrap (s : State) (i slot : Nat) (x : VInfo) (v : BitVec 128) : Option Nat :=
  let t := tileOf s i
  if t.badParity.contains slot then some trParity
  else match x.trap with
  | some c => some c
  | none =>
    if windowAt s ≤ stampOf v ∨ stampOf v < t.eng.lastStamp then some trStamp
    else if unitHeld t.eng x.unit (stampOf v) ∨ windowAt s < stampOf v + x.occ then some trCollide
    else if portsTaken s i x (stampOf v) then some trCollide
    else if bit v 28 && chkHit s i x then some trBoard
    else none

/-- Scoreboard entries released, verbs finished and writes seen by cc; the verb that starts then has its accesses in the cc of
its fields. -/
def boardPrune (t : Tile) (cc : Nat) : Tile :=
  { t with
    eng := { t.eng with shift := [] }
    sb := t.sb.filter fun p => match p.2.release with | some c => decide (cc < c) | none => true
    dynQ := t.dynQ.filter fun d => match d.done with | some c => decide (cc < c) | none => true
    oldRows := t.oldRows.filter fun o => decide (cc ≤ o.w) }

/-- The same in a tile, and in the other half of its pair. -/
def pruneAt (s : State) (i cc : Nat) : State :=
  let s := modTile s i fun t => boardPrune t cc
  if (tileOf s i).role = 1 then modTile s (i + 9) fun t => boardPrune t cc else s

/-- Times and claims of a verb that issued at `stamp` and has waited until cc (R105, R115, R134, R150). -/
def holdUnit (t : Tile) (x : VInfo) (slot stamp cc : Nat) : Tile :=
  let e := { t.eng with
    lastStamp := max t.eng.lastStamp stamp, issued := t.eng.issued + 1, doneBy := max t.eng.doneBy (cc + x.comp)
    doneSlot := if t.eng.doneBy < cc + x.comp then slot else t.eng.doneSlot
    ports := t.eng.ports ++ x.claims.map (PortUse.from cc) }
  { t with eng := setUnitTo e (cc + max 1 x.occ) x.unit }

/-- What a verb that issued at `stamp` holds in the other half of its pair: in a mirror pair all that it holds in the flyer,
and for a fused engine verb the wide ports that it uses there (R74, R76). -/
def holdPair (s : State) (i : Nat) (x : VInfo) (slot stamp cc : Nat) : State :=
  if (tileOf s i).role ≠ 1 then s
  else if mirrorOn s i then modTile s (i + 9) fun t => holdUnit t x slot stamp cc
  else if x.unit = .engine then modTile s (i + 9) fun t =>
    { t with eng := { t.eng with ports := t.eng.ports ++ x.pairClaims.map (PortUse.from cc) } }
  else s

/-- The verb that waited has ended its wait. -/
def endWait (t : Tile) (slot : Nat) : Tile :=
  { t with eng := { t.eng with waiting := t.eng.waiting.filter fun w => w.slot ≠ slot } }

/-- A verb waits, and holds its unit while it does (R106, R123, R125); a wait that goes on keeps the time at which it began. -/
def beginWait (s : State) (i slot : Nat) (u : VUnit) (stamp moved : Nat) (w : WaitRec) : State :=
  let since (t : Tile) : Nat := match t.eng.waiting.find? (fun x => x.slot = slot) with
    | some x => if x.record.kind = w.kind then x.record.since else s.time.uptime
    | none => s.time.uptime
  modTile s i fun t => { t with eng := { (endWait t slot).eng with
    waiting := (endWait t slot).eng.waiting ++
      [{ slot := slot, unit := u.no, moved := moved, record := { w with unit := 1, since := since t } }]
    lastStamp := max t.eng.lastStamp stamp } }

/-- The cc, from the last tick on, of a verb stamped `stamp` that has waited `wait` cc. -/
def issueCc (s : State) (t : Tile) (stamp wait : Nat) : Nat := stamp + wait - t.eng.past * beatLen s

/-- Rows that the verb of a slot has moved while it waits. -/
def movedIn (t : Tile) (slot : Nat) : Nat := match t.eng.waiting.find? fun w => w.slot = slot with
  | some w => w.moved
  | none => 0

/-- A verb that goes on after it has moved `m` rows: the accesses to those are past. -/
def VInfo.rest (x : VInfo) (m : Nat) : VInfo :=
  { x with claims := x.claims.map (PortUse.skip m), pairClaims := x.pairClaims.map (PortUse.skip m) }

/-- What keeps a verb from going on in cc: at its stamp what `issueTrap` says, and where it waits a port that is taken
(R150). -/
def goTrap (s : State) (i slot : Nat) (x : VInfo) (v : BitVec 128) (cc : Nat) : Option Nat :=
  if waitsIn (tileOf s i) slot then (if portsTaken s i x cc then some trCollide else none) else issueTrap s i slot x v

/-- A verb that waits on a tile under test is held in the sideshow window (R317). -/
def waitHeld (s : State) (i slot cc : Nat) : Bool := waitsIn (tileOf s i) slot && coreHeld s i cc

/-- A scheduled verb at its stamp, or one that waits and has waited `wait` cc. The catcher of a mirror pair runs its
verbs with the flyer's. -/
def schedule (x : VInfo) (eff : State → Nat → BitVec 128 → Nat → VRes) (s : State) (i slot : Nat)
    (v : BitVec 128) (wait : Nat := 0) : State :=
  let cc := issueCc s (tileOf s i) (stampOf v) wait
  if !issues (tileOf s i) (waitsIn (tileOf s i) slot) || halts s (siteRing i) || (mirrorOn s i && (tileOf s i).role = 2) ||
    waitHeld s i slot cc then s
  else
    let x := x.rest (movedIn (tileOf s i) slot)
    let s := pruneAt s i cc
    match goTrap s i slot x v cc with
    | some c => trapTile s i c (.slot slot)
    | none => match runVerb x eff s i v cc 0 with
      | .trap c => trapTile s i c (.slot slot)
      | .wait s' _ m w => beginWait s' i slot x.unit (stampOf v) m w
      | .done s' _ => holdPair (modTile s' i fun t => holdUnit (endWait t slot) x slot (stampOf v) cc) i x slot (stampOf v) cc

/-! ### The dynamic queue (R107, R140, R163, R164) -/

/-- Stamp of the next scheduled verb on a unit at or after cc, by the verbs of the beat program. -/
def nextStamp (s : State) (t : Tile) (unitOf : BitVec 128 → VUnit) (u : VUnit) (cc : Nat) : Nat :=
  match t.verbs.find? (fun v => unitOf v = u && decide (cc ≤ stampOf v)) with
  | some v => stampOf v
  | none => windowAt s

/-- The ports that scheduled verbs claim in a tile: its own, those issued and those still to come, and in a catcher those of
the flyer's engine verbs still to come (R74). -/
def claimed (info : BitVec 128 → VInfo) (s : State) (i : Nat) : List PortUse :=
  let t := tileOf s i
  let due (t : Tile) : List (BitVec 128) :=
    if t.eng.past = 0 then t.verbs.drop (t.eng.issued + t.eng.waiting.length) else []
  let pair := if t.role = 2 && !mirrorOn s i then
      (due (tileOf s (i - 9))).filter fun v => (info v).unit = .engine
    else []
  t.eng.ports ++ ((due t).flatMap fun v => (info v).claims.map (PortUse.from (stampOf v))) ++
    pair.flatMap fun v => (info v).pairClaims.map (PortUse.from (stampOf v))

/-- The accesses of a dynamic verb in the cc that scheduled verbs leave free (R107, R150), `o` cc after its start in its own
claims: how many cc they come later, and the cc that each takes. -/
def freeWalk (idle : Nat → Bool) (full : Nat → Nat → Bool) (start last : Nat) :
    Nat → Nat → Nat → Option (Nat × List (Nat × Nat))
  | 0, _, _ => none
  | f + 1, o, late =>
    if last < o then some (late, [])
    else if idle o then freeWalk idle full start last f (o + 1) late
    else if full o (start + o + late) then freeWalk idle full start last f o (late + 1)
    else (freeWalk idle full start last f (o + 1) late).map fun p => (p.1, (o, start + o + late) :: p.2)

/-- The ports of some claims in the cc that their accesses have taken. -/
def taken (mine : List PortUse) (l : List (Nat × Nat)) : List PortUse :=
  l.map fun p => { cc := p.2, n := 1, step := 1, reads := (portLoad mine p.1).1, writes := (portLoad mine p.1).2 }

/-- The cc in which a dynamic near transfer of virtual tile `v` may start on a channel, from cc on: in its own unclaimed windows
and outside refresh and carry-mirror slots (R188, R189); `f` windows of a beat. -/
def nearSlots (claims : List Nat) (ch v start f : Nat) : List Nat :=
  ((List.range f).filter fun w => decide (start / 64 ≤ w) && (2 * ch + w) % 64 = v && !claims.contains (ch * 2 ^ 14 + w)).flatMap
    fun w => ((List.range 64).map (64 * w + ·)).filter fun o => decide (start ≤ o) && o % 16 ≠ 8 && o % 1024 / 32 ≠ ch

/-- The cc of the transfers of `n` rows, four of each row; the first of a row that is read from scratchpad comes in a cc with a
free read port (R107). None where the beat has no room. -/
def nearCcs (free : Nat → Bool) : List Nat → Nat → Option (List Nat)
  | _, 0 => some []
  | [], _ + 1 => none
  | o :: os, n + 1 =>
    if (n + 1) % 4 = 0 && !free o then nearCcs free os (n + 1) else (nearCcs free os n).map (o :: ·)

/-- The cc of the writes of rows into scratchpad, each from a cc on, one after the other in cc with a free write port. -/
def nearWrites (free : Nat → Bool) : Nat → Nat → List Nat → Option (List Nat)
  | _, _, [] => some []
  | 0, _, _ => none
  | f + 1, from_, c :: cs =>
    let w := max from_ c
    if free w then (nearWrites free f (w + 1) cs).map (w :: ·) else nearWrites free f (w + 1) (c :: cs)

/-- What R107 fixes when a dynamic verb starts: when its occupancy ends and when it completes, how late its last writes are, the
ports it takes in its tile and in the other half of its pair, and the cc that each access takes. -/
structure DynPlan where
  occ : Nat
  done : Nat
  late : Nat := 0
  ports : List PortUse := []
  pairPorts : List PortUse := []
  shift : List (Nat × Nat) := []
  deriving DecidableEq, Repr

/-- Ports in single cc. -/
def onePort (reads writes : Nat) (cs : List Nat) : List PortUse :=
  cs.map fun c => { cc := c, n := 1, step := 1, reads := reads, writes := writes }

/-- The plan of a dynamic near MOV of `n` transfers (R107, R124, R189): it reads a scratchpad row in the cc of the first of its
transfers, or writes one from 65 cc after the last of them on. `full` says whether the ports of a cc are taken. -/
def nearPlan (full : Nat → Nat → Nat → Bool) (slots : List Nat) (x : VInfo) (cc n : Nat) (read : Bool) : Option DynPlan :=
  match nearCcs (fun o => !read || !full o 1 0) slots n with
  | none => none
  | some cs =>
    let row (k : Nat) : List Nat := (List.range (n / 4)).map fun r => cs.getD (4 * r + k) 0
    let last := cs.getLastD cc
    if read then
      some { occ := last + 1, done := last + 66, late := last + 66 - (cc + x.comp), ports := onePort 1 0 (row 0)
             shift := (row 0).zipIdx.map fun p => (cc + 4 * p.2, p.1) }
    else (nearWrites (fun w => !full w 0 1) (n + 2 ^ 15) 0 ((row 3).map (· + 65))).map fun ws =>
      { occ := last + 1, done := ws.getLastD (last + 65) + 1, late := ws.getLastD (last + 65) + 1 - (cc + x.comp)
        ports := onePort 0 1 ws, shift := ws.zipIdx.map fun p => (cc + x.writeCc p.2, p.1) }

/-- The plan of a dynamic verb that starts at cc (R107, R134, R189). -/
def dynTimes (info : BitVec 128 → VInfo) (s : State) (i : Nat) (x : VInfo) (cc : Nat) : Option DynPlan :=
  let t := tileOf s i
  match x.near with
  | some (ch, n) =>
    let both := t.role = 1 && mirrorOn s i
    let us := claimed info s i
    let us2 := if both then claimed info s (i + 9) else []
    let full (c r w : Nat) : Bool := portsFull t us c r w || (both && portsFull (tileOf s (i + 9)) us2 c r w)
    (nearPlan full (nearSlots (fieldOf s (siteField i)).claims ch t.vtile.toNat cc (beatLen s / 64)) x cc n
      (!x.reads.isEmpty)).map fun p => { p with pairPorts := if both then p.ports else [] }
  | none =>
    let last := x.claims.foldl (fun m u => max m u.last) 0
    let other := if t.role = 1 then (if mirrorOn s i then x.claims else if x.unit = .engine then x.pairClaims else []) else []
    let us := claimed info s i
    let us2 := if other.isEmpty then [] else claimed info s (i + 9)
    let full (t : Tile) (us mine : List PortUse) (o c : Nat) : Bool := portsFull t us c (portLoad mine o).1 (portLoad mine o).2
    if x.claims.isEmpty then some { occ := cc + x.occ, done := cc + x.comp }
    else (freeWalk (fun o => portLoad x.claims o = (0, 0)) (fun o c =>
        full t us x.claims o c || (!other.isEmpty && full (tileOf s (i + 9)) us2 other o c))
        cc last (beatLen s + last + 2) 0 0).map fun p =>
      { occ := cc + x.occ + p.1, done := cc + x.comp + p.1, late := p.1, ports := taken x.claims p.2
        pairPorts := taken other p.2, shift := p.2.map fun q => (cc + q.1, q.2) }

/-- The tag under which a verb of the flyer holds entries in its catcher (R74). -/
def pairTag (tag : Nat) : Nat := 1024 + tag

/-- The scoreboard lets a dynamic verb start: no entry of another verb, in the catcher it works with either, overlaps what
it reads (R74, R107, R140). -/
def boardFree (s : State) (i : Nat) (x : VInfo) (tag : Nat) : Bool :=
  !boardHit (tileOf s i) (some tag) x.reads &&
  (match fused s i x.unit with | some j => !boardHit (tileOf s j) (some (pairTag tag)) x.pairReads | none => true)

/-- The entries that a started verb holds, in the catcher of a fused pair too, are released at C. -/
def releaseAt (s : State) (i : Nat) (x : VInfo) (tag c : Nat) : State :=
  let free (k : Nat) (t : Tile) : Tile :=
    { t with sb := t.sb.map fun p => if p.2.tag = k then (p.1, { p.2 with release := some c }) else p }
  let s := modTile s i (free tag)
  match fused s i x.unit with
  | some j => modTile s j (free (pairTag tag))
  | none => s

/-- A dynamic verb has started: its unit, its ports, its completion, and the later end of its drain (R115). -/
def startVerb (t : Tile) (x : VInfo) (tag : Nat) (cc : Nat) (p : DynPlan) (ports : List PortUse) : Tile :=
  let e := setUnitTo t.eng (max p.occ (cc + 1)) x.unit
  { t with
    eng := { e with ports := e.ports ++ ports, drainTo := if x.unit = .engine then e.drainTo + p.late else e.drainTo }
    dynQ := t.dynQ.map fun e => if e.tag = tag && e.done.isNone then { e with done := some p.done } else e }

/-- The other half of the pair at the start of a dynamic verb of the flyer: in a mirror pair the same verb at the head of its
own queue starts, and of a fused engine the wide ports are taken. -/
def startPair (s : State) (i : Nat) (x : VInfo) (cc : Nat) (p : DynPlan) : State :=
  if (tileOf s i).role ≠ 1 then s
  else if mirrorOn s i then
    match (tileOf s (i + 9)).dynQ.find? (fun d => d.done.isNone) with
    | some d => releaseAt (modTile s (i + 9) fun t => startVerb t x d.tag cc p p.pairPorts) (i + 9) x d.tag p.done
    | none => s
  else modTile s (i + 9) fun t => { t with eng := { t.eng with ports := t.eng.ports ++ p.pairPorts } }

/-- The accesses of a dynamic verb come in the cc of a plan, in its tile and in the other half of its pair (R107). -/
def setShift (s : State) (i : Nat) (m : List (Nat × Nat)) : State :=
  let put (t : Tile) : Tile := { t with eng := { t.eng with shift := m } }
  let s := modTile s i put
  if (tileOf s i).role = 1 then modTile s (i + 9) put else s

/-- Start the verb at the head of the dynamic queue at cc, when its conditions hold (R107); one that would break
the drain rule is held back (R115), and the catcher of a mirror pair starts its verbs with the flyer's (R76). -/
def startDynamic (info : BitVec 128 → VInfo) (eff : State → Nat → BitVec 128 → Nat → VRes) (s : State) (i cc : Nat) :
    State :=
  let s := pruneAt s i cc
  let t := tileOf s i
  if t.stopped || halts s (siteRing i) || !(t.st = .running || t.st = .replay) || (mirrorOn s i && t.role = 2) then s
  else match t.dynQ.find? (fun d => d.done.isNone) with
  | none => s
  | some d =>
    let x := info d.verb
    match dynTimes info s i x cc with
    | none => s
    | some p =>
      let stamp := if t.eng.past = 0 then nextStamp s t (fun v => (info v).unit) x.unit cc else windowAt s
      if unitHeld t.eng x.unit cc || !boardFree s i x d.tag || decide (stamp < p.occ) then s
      else match runVerb x eff (setShift s i p.shift) i d.verb cc p.late with
      | .trap c => if c = trDrain then s else trapTile s i c .dyn
      | .wait s' _ _ w => setWait (setShift s' i []) i { w with unit := 2 }
      | .done s' _ =>
        let s' := setShift s' i []
        let s := releaseAt (modTile s' i fun t => startVerb t x d.tag cc p p.ports) i x d.tag p.done
        clearWait (startPair s i x cc p) i 2

end Sys2Proof.Machine
end

