-- ==== Sys2Proof/Machine/Engine.lean ====
section
/-! DEFINITION. The matrix engine: MMA, MMA.T and MMA.X with their anchors, chains, checksum vectors and times
(spec/05_tile_commands.md R112 to R116; spec/03_tile.md R72, R73, R76; spec/11_audit_and_replay.md R307 to R309). -/

namespace Sys2Proof.Machine
open Sys2Proof

/-! ### Fields -/

def eARow (v : BitVec 128) : Nat := fld v 32 13
def eBRow (v : BitVec 128) : Nat := fld v 45 13
def eCRow (v : BitVec 128) : Nat := fld v 58 13
def eTRow (v : BitVec 128) : Nat := fld v 71 13
def eK (v : BitVec 128) : Nat := 32 * fld v 84 11
def eFa (v : BitVec 128) : Nat := fld v 95 4
def eFb (v : BitVec 128) : Nat := fld v 99 4
def eFo (v : BitVec 128) : Nat := fld v 103 4
def eAmode (v : BitVec 128) : Nat := fld v 109 2
def eAcc (v : BitVec 128) : Bool := bit v 111
def eOut (v : BitVec 128) : Nat := fld v 112 2
def eSrcA (v : BitVec 128) : Nat := fld v 114 3
def eSrcB (v : BitVec 128) : Nat := fld v 117 3
def eCk (v : BitVec 128) : Bool := bit v 120

def panelA (tr : Bool) (v : BitVec 128) : Panel := ⟨eFa v, bit v 107, tr, eK v⟩
def panelB (v : BitVec 128) : Panel := ⟨eFb v, bit v 108, false, eK v⟩

/-- INT8 slice planes of MMA.X (R116). -/
def planeX (v : BitVec 128) : Panel := ⟨0x6, false, false, eK v⟩

def isFmt (c : Nat) : Bool := c ≤ 9 || c = 0xC

/-- Scaled bit allowed for a format (R110). -/
def scaledOk (c : Nat) (sc : Bool) : Bool :=
  if c ≤ 4 then true else if c = 5 ∨ c = 0xC then sc else !sc

def floatOut (c : Nat) : Bool := c = 0xA || c = 8 || c = 9 || c = 3 || c = 4

/-- P, Q and D of R115. -/
def prodCc (fa fb k : Nat) : Nat :=
  if isWide fa ∨ isWide fb then 4 * k else if fbits fa ≤ 6 ∧ fbits fb ≤ 6 then k / 2 else k

def withCk (ck : Bool) (p : Nat) : Nat := if ck then p + ceilDiv p 32 else p

def mmaP (v : BitVec 128) : Nat := withCk (eCk v) (if eOut v = 3 then 0 else prodCc (eFa v) (eFb v) (eK v))

def mmaQ (tr : Bool) (v : BitVec 128) : Nat :=
  let q := match eAmode v with
    | 2 => 16
    | 1 =>
      if bit v 107 && bit v 108 then ceilDiv (eK v) (min (blockLen (eFa v)) (blockLen (eFb v)))
      else if bit v 107 then ceilDiv (eK v) (blockLen (eFa v))
      else if bit v 108 then ceilDiv (eK v) (blockLen (eFb v)) else 0
    | _ => 0
  if tr then q + 32 else q

def drainCc (out : Nat) (ck : Bool) : Nat :=
  (match out with | 0 => 64 | 2 => 256 | 3 => 16 | _ => 0) + (if ck && (out = 0 || out = 2) then 8 else 0)

/-- Rows an engine verb writes (R111, R115). -/
def outRows (fo out : Nat) (ck : Bool) : Nat :=
  (match out with | 0 => fbits fo | 2 => 256 | 3 => 16 | _ => 0) + (if ck && out ≠ 1 then 8 else 0)

/-- Scratchpad rows of one operand of an engine verb: rows read before it on its port, its scale rows and its panel rows. -/
structure OpRows where
  table : Nat := 0
  scales : Nat
  rows : Nat
  deriving DecidableEq, Repr

/-- The reads of the panel rows: after the rows before them, from the end of the prologue on over the product cc, and sooner
where there are more rows than that; `lag` puts the second port one cc later (log entry 30). -/
def OpRows.panel (x : OpRows) (p q lag : Nat) : PortUse :=
  let start := max (x.table + x.scales) (min q (q + p - x.rows))
  let lag := if x.rows < q + p - start then lag else 0
  readUse (start + lag) (if p = 0 then 0 else x.rows) (q + p - start - lag)

/-- The reads of an operand on its port: a table and the scale rows from issue on, and the panel rows. -/
def OpRows.claims (x : OpRows) (p q lag : Nat) : List PortUse :=
  [⟨0, x.table + x.scales, 1, 1, 0⟩, x.panel p q lag]

/-- An engine verb with its output block in the drain: `lines` cc for the block's rows, and then one cc for each checksum
row; row `k` is written in the last cc of its lines (R115). `a` and `b` are its operands in scratchpad: A on port A, B on port
B, and A in the catcher of a fused pair too. -/
def engInfo (p q d : Nat) (trap : Option Nat) (reads writes pair : List (Nat × Nat)) (never : Bool)
    (rows lines cks : Nat) (a b : OpRows) : VInfo :=
  let first := 5 + q + p + 5
  let step := lines / max 1 rows
  let outs : List PortUse := [⟨first + step - 1, rows, step, 0, 1⟩, ⟨first + lines, cks, 1, 0, 1⟩]
  { unit := .engine, trap := trap, occ := q + p, comp := first + d, reads := reads, writes := writes
    never := never, pairReads := pair
    wAt := [(first + step - 1, step, rows), (first + lines, 1, cks)]
    claims := a.claims p q 0 ++ b.claims p q 1 ++ outs, pairClaims := a.claims p q 0 ++ outs }

/-- The operands of MMA and MMA.T that lie in scratchpad. -/
def rowsA (tr : Bool) (v : BitVec 128) : OpRows :=
  { table := if eAmode v = 2 then 16 else 0
    scales := if eSrcA v = 0 then (panelA tr v).scaleRows else 0
    rows := if eSrcA v = 0 then (panelA tr v).rows else 0 }
def rowsB (v : BitVec 128) : OpRows :=
  { scales := if eSrcB v = 0 then (panelB v).scaleRows else 0, rows := if eSrcB v = 0 then (panelB v).rows else 0 }

/-- The operands of MMA.X: the row of exponents before A. -/
def rowsX (v : BitVec 128) (table : Nat) : OpRows := { table := table, scales := 0, rows := (planeX v).rows }

/-- What the bits of MMA (tr false) or MMA.T decide. -/
def mmaInfo (tr : Bool) (v : BitVec 128) : VInfo :=
  let pa := panelA tr v
  let pb := panelB v
  let ints := eFa v = 6 || eFa v = 7
  let intsB := eFb v = 6 || eFb v = 7
  let nA := if eSrcA v = 0 then pa.allRows else 0
  let nB := if eSrcB v = 0 then pb.allRows else 0
  let nT := if eAmode v = 2 then 16 else 0
  let nC := outRows (eFo v) (eOut v) (eCk v)
  engInfo (mmaP v) (mmaQ tr v) (drainCc (eOut v) (eCk v))
    (firstTrap [
      (commonOk v && zeroF v 121 7, trFormat),
      (isFmt (eFa v) && isFmt (eFb v) && scaledOk (eFa v) (bit v 107) && scaledOk (eFb v) (bit v 108), trFormat),
      (ints = intsB, trFormat),
      (eK v ≠ 0 && ((eFa v ≠ 0xC && eFb v ≠ 0xC) || eK v % 64 = 0), trFormat),
      (srcOk (eSrcA v) && srcOk (eSrcB v), trFormat),
      (if ints then eFo v = 0xD else floatOut (eFo v), trFormat),
      (rowsIn (eARow v) nA && rowsIn (eBRow v) nB && rowsIn (eTRow v) nT && rowsIn (eCRow v) nC, trRow),
      (eAmode v ≠ 0 || !(bit v 107 || bit v 108 || isWide (eFa v) || isWide (eFb v)), trAccum),
      (if eAmode v = 3 then eAcc v else !eAcc v, trAccum),
      (eOut v ≠ 3 || (eAmode v = 1 && !eAcc v && !eCk v), trAccum)])
    [(eARow v, nA), (eBRow v, nB), (eTRow v, nT)] [(eCRow v, nC)] [(eARow v, nA), (eTRow v, nT)] (eAcc v || eOut v = 1)
    (outRows (eFo v) (eOut v) false) (drainCc (eOut v) false) (nC - outRows (eFo v) (eOut v) false)
    (rowsA tr v) (rowsB v)

/-- What the bits of MMA.X decide (R116). -/
def mmaXInfo (v : BitVec 128) : VInfo :=
  let n := (planeX v).allRows
  let nC := outRows (eFo v) (eOut v) (eCk v)
  engInfo (withCk (eCk v) (eK v)) 0 (drainCc (eOut v) (eCk v))
    (firstTrap [
      (commonOk v && zeroF v 100 3 && zeroF v 107 4 && zeroF v 114 6 && zeroF v 121 7, trFormat),
      (eK v ≠ 0 && (eFo v = 0xA || eFo v = 0xB) && eOut v ≠ 3, trFormat),
      (decide (2 ≤ fld v 95 4) && decide (fld v 95 4 ≤ if bit v 99 then 9 else 5), trFormat),
      (rowsIn (eARow v) n && rowsIn (eBRow v) n && rowsIn (eTRow v) 1 && rowsIn (eCRow v) nC, trRow)])
    [(eARow v, n), (eBRow v, n), (eTRow v, 1)] [(eCRow v, nC)] [(eARow v, n), (eTRow v, 1)] (eAcc v || eOut v = 1)
    (outRows (eFo v) (eOut v) false) (drainCc (eOut v) false) (nC - outRows (eFo v) (eOut v) false)
    (rowsX v 1) (rowsX v 0)

/-! ### Sums -/

/-- The exact products of one output element. -/
def sumPairs (c : Acc) : List (Opnd × Opnd) → Acc
  | [] => c
  | p :: ps => sumPairs (accAdd c (numMul p.1.v p.2.v)) ps

/-- Anchor of output element (i, j) with its mode (R83, R113). -/
def mmaAnchor (v : BitVec 128) (table : Nat) (ps : List (Opnd × Opnd)) (e : Nat) : Int :=
  match eAmode v with
  | 0 => if isInt (eFa v) then 150 else tOf (eFa v) + tOf (eFb v) + 1
  | 1 => if isInt (eFa v) then 150 else anchorOf (tOf (eFa v)) (tOf (eFb v)) ps
  | _ => sgn 16 (seqAt table 16 e)

/-- Residues of the operands of one verb: the predicted vectors of R308. -/
def predict (as bs : List (List Num)) (k : Nat) : List Nat × List Nat :=
  let at_ (x : List (List Num)) (i n : Nat) : Nat := residue (((x[i]?).getD [])[n]?.getD .nan)
  let sumA := (List.range k).map fun n => ((List.range 64).foldl (fun r i => r + at_ as i n) 0) % resM
  let sumB := (List.range k).map fun n => ((List.range 64).foldl (fun r j => r + at_ bs j n) 0) % resM
  ((List.range 64).map fun j => (List.range k).foldl (fun r n => (r + at_ bs j n * (sumA[n]?.getD 0)) % resM) 0,
   (List.range 64).map fun i => (List.range k).foldl (fun r n => (r + at_ as i n * (sumB[n]?.getD 0)) % resM) 0)

def addVec (a b : List Nat) : List Nat := (List.range 64).map fun i => ((a[i]?.getD 0) + (b[i]?.getD 0)) % resM

/-- The four checksum rows and four rows of zeros (R308, R309). -/
def checkRows (p q : List Nat) (accs : List Acc) : List (List Byte × List Nat) :=
  let at_ (i j : Nat) : Acc := accs[64 * i + j]?.getD {}
  let skipCol (j : Nat) : Bool := (List.range 64).any fun i => accSkip (at_ i j)
  let skipRow (i : Nat) : Bool := (List.range 64).any fun j => accSkip (at_ i j)
  let obs (f : Nat → Acc) : Nat := (List.range 64).foldl (fun r n => (r + accResidue (f n)) % resM) 0
  let row (xs : List Nat) (sk : Nat → Bool) : List Byte × List Nat :=
    (leBytes 512 (packN 64 (xs.zipIdx.map fun (x, n) => x + b2n (sk n) * 2 ^ 63)), [])
  [row p skipCol, row q skipRow,
   row ((List.range 64).map fun j => obs fun i => at_ i j) skipCol,
   row ((List.range 64).map fun i => obs fun j => at_ i j) skipRow,
   (leBytes 512 0, []), (leBytes 512 0, []), (leBytes 512 0, []), (leBytes 512 0, [])]

/-- Output block, partials or anchor table of the accumulators (R88 to R91, R94, R113). -/
def outBlock (fo out : Nat) (sat : Bool) (accs : List Acc) : List (List Byte × List Nat) :=
  match out with
  | 0 => packRows (fbits fo) (accs.map fun c => (accOut fo sat c, c.psn))
  | 2 => packRows 256 (accs.map fun c => (partOf c, c.psn))
  | 3 => packRows 16 (accs.map fun c => (ofInt 16 c.anchor, c.psn))
  | _ => []

/-- What an engine verb leaves: kept accumulators, or the rows it writes, and its checksum rows (R113, R115,
R308). -/
def engFinish (s : State) (i : Nat) (v : BitVec 128) (accs : List Acc) (pq : List Nat × List Nat) : State × List Wr :=
  let t := tileOf s i
  let ck := eCk v && (!eAcc v || t.eng.keepCk)
  let pq := if eAcc v then (addVec t.eng.pVec pq.1, addVec t.eng.qVec pq.2) else pq
  if eOut v = 1 then
    (setTile s i { t with eng := { t.eng with accs := accs, keep := true, keepCk := ck, pVec := pq.1, qVec := pq.2 } }, [])
  else
    let base := eCRow v + outRows (eFo v) (eOut v) false
    let vecs := ck && eOut v ≠ 3
    let s := setTile s i { t with
      eng := { t.eng with accs := [], keep := false, keepCk := false, pVec := [], qVec := [] }
      spm := { t.spm with unsummed := if vecs || eOut v = 3 then t.spm.unsummed else NSet.add t.spm.unsummed base } }
    (s, wrRows (eCRow v) (outBlock (eFo v) (eOut v) (satBit v) accs) ++
        (if vecs then wrRows base (checkRows pq.1 pq.2 accs) else []))

/-- The chain and drain conditions at issue (R113, R115). -/
def engReady (t : Tile) (v : BitVec 128) (l d : Nat) : Option Nat :=
  firstTrap [(eAcc v = t.eng.keep, trAccum), (d = 0 || decide (t.eng.drainTo ≤ l), trDrain)]

def setDrain (s : State) (i l d : Nat) : State :=
  if d = 0 then s else modTile s i fun t => { t with eng := { t.eng with drainTo := l + 4 + d } }

/-! ### MMA and MMA.T -/

/-- The accumulators of one half after its products (R82, R83, R113): `wa`, `wb` and `table` are the rows read as one
number each, `pa`, `pb` and `pt` their poisoned lanes, `kept` the accumulators a chain goes on with. -/
def mmaAccs (tr : Bool) (v : BitVec 128) (wa wb table : Nat) (pa pb pt : List Nat) (kept : List Acc) : List Acc :=
  let pA := panelA tr v
  let pB := panelB v
  let as := (List.range 64).map (pA.line wa)
  let bs := (List.range 64).map (pB.line wb)
  let badA := (List.range 64).filter (pA.linePsn pa)
  let badB := (List.range 64).filter (pB.linePsn pb)
  (List.range 4096).map fun e =>
    let ps := List.zip (as[e / 64]?.getD []) (bs[e % 64]?.getD [])
    let c : Acc := if eAcc v then kept[e]?.getD {} else { anchor := mmaAnchor v table ps e }
    let c := if eOut v = 3 then c else sumPairs c ps
    { c with psn := c.psn || badA.contains (e / 64) || badB.contains (e % 64) ||
                    (eAmode v = 2 && bitsPsn pt (16 * e) 16) }

/-- The predicted checksum vectors of one half (R308). -/
def mmaPredict (tr : Bool) (v : BitVec 128) (wa wb : Nat) : List Nat × List Nat :=
  let as := (List.range 64).map ((panelA tr v).line wa)
  let bs := (List.range 64).map ((panelB v).line wb)
  if eCk v then predict (as.map (·.map (·.v))) (bs.map (·.map (·.v))) (eK v) else ([], [])

/-- The rows of an operand in panel order: its panel rows, then its scale rows, each read in the cc of its claim. -/
def opRows (s : State) (i src row cc : Nat) (pn : Panel) (x : OpRows) (p q lag : Nat) : Option (State × List RowRd) :=
  if src = 0 then
    let u := x.panel p q lag
    let a := readPort s i row cc u pn.rows
    let b := readRows a.1 i (row + pn.rows) (cc + x.table) 1 pn.scaleRows
    some (b.1, a.2 ++ b.2)
  else takeRows s i (src - 4) pn.allRows

/-- One half's products: A and the T_ROW table from its own site, B as read for the pair (R73, R112). -/
def mmaHalf (s : State) (i cc : Nat) (tr : Bool) (v : BitVec 128) (wb : Nat) (pb : List Nat) :
    Option (State × List Wr) :=
  match opRows s i (eSrcA v) (eARow v) cc (panelA tr v) (rowsA tr v) (mmaP v) (mmaQ tr v) 0 with
  | none => none
  | some (s, ra) =>
    let (s, rt) := readRows s i (eTRow v) cc 1 (rowsA tr v).table
    let accs := mmaAccs tr v (rowsNat ra) wb (rowsNat rt) (rowsPsn ra) pb (rowsPsn rt) (tileOf s i).eng.accs
    some (engFinish s i v accs (mmaPredict tr v (rowsNat ra) wb))

/-- The catcher of a fused pair may not issue engine verbs (R73). -/
def catcherBars (s : State) (i : Nat) : Bool := (tileOf s i).role = 2 && !mirrorOn s i

/-- The fusion link carries B to the catcher of flyer `i`: the lanes that it poisons there. A link that fails again in the replay
is a failure of the catcher's site (R76, R275). -/
def fusionLink (s : State) (i : Nat) : State × List Nat :=
  match (tileOf s i).fusionUpset with
  | [] => (s, [])
  | [] :: r => (modTile s i fun t => { t with fusionUpset := r }, [])
  | bad :: r =>
    let again := (tileOf s i).st = .replay &&
      (match ringRun s (siteRing i) with | some (_, u) => u.lastMirror.contains i | none => false)
    let s := modTile s i fun t => { t with fusionUpset := r }
    let s := match ringTen s (siteRing i) with
      | some n => modRun s n fun u => { u with lastMirror := NSet.add u.lastMirror i }
      | none => s
    (if again then siteFails s (i + 9) true 0 0x0404 else s, bad)

/-- MMA and MMA.T: on a fused pair both halves work, with the flyer's B (R73, R116). B's panel is read before A's: where
SRCA and SRCB name one inbound buffer, its first rows are B's (DESIGN CHOICE, log entry 75). -/
def mmaEff (tr : Bool) (s : State) (i : Nat) (v : BitVec 128) (cc : Nat) : VRes :=
  let t := tileOf s i
  let l := cc + 5 + mmaQ tr v + mmaP v
  let d := drainCc (eOut v) (eCk v)
  if catcherBars s i then .trap trCatcher
  else match engReady t v l d with
  | some c => .trap c
  | none => match opRows s i (eSrcB v) (eBRow v) cc (panelB v) (rowsB v) (mmaP v) (mmaQ tr v) 1 with
    | none => .wait s [] 0 (waitRows t (eSrcB v - 4) 1 3)
    | some (s₁, rb) =>
      let s₁ := setDrain s₁ i l d
      match mmaHalf s₁ i cc tr v (rowsNat rb) (rowsPsn rb) with
      | none => .wait s [] 0 (waitRows t (eSrcA v - 4) 1 3)
      | some (s₂, wi) =>
        match fused s i .engine with
        | some j =>
          let link := fusionLink s₂ i
          (match mmaHalf link.1 j cc tr v (rowsNat rb) (rowsPsn rb ++ link.2) with
           | none => .wait s [] 0 (waitRows (tileOf s j) (eSrcA v - 4) 1 3)
           | some (s₃, wj) => .done s₃ (atSite i wi ++ atSite j wj))
        | none => .done s₂ (atSite i wi)

/-! ### MMA.X -/

/-- A value times a power of two. -/
def scaleNum (e : Int) : Num → Num
  | .fin n m x => .fin n m (x + e)
  | y => y

/-- The accumulators of one half of MMA.X (R99, R101): `sg` is the row of exponents. The anchor σa + σb is kept as the
exact sum, also where it does not fit 16 signed bits (DESIGN CHOICE, log entry 75). -/
def mmaXAccs (v : BitVec 128) (wa wb sg : Nat) (pa pb ps : List Nat) (kept : List Acc) : List Acc :=
  let p := planeX v
  let w : Int := fld v 95 4
  let sigA (i : Nat) : Int := sgn 16 (seqAt sg 16 i)
  let sigB (j : Nat) : Int := sgn 16 (seqAt sg 16 (64 + j))
  let as := (List.range 64).map fun i => (p.line wa i).map (·.v)
  let bs := (List.range 64).map fun j => (p.line wb j).map (·.v)
  let badA := (List.range 64).filter fun i => p.linePsn pa i || bitsPsn ps (16 * i) 16
  let badB := (List.range 64).filter fun j => p.linePsn pb j || bitsPsn ps (1024 + 16 * j) 16
  (List.range 4096).map fun e =>
    let a := sigA (e / 64)
    let b := sigB (e % 64)
    let c : Acc := if eAcc v then kept[e]?.getD {} else { anchor := a + b }
    let c := if a = 0x7FFF ∨ b = 0x7FFF then { c with nan := true } else c
    let c := (List.zip (as[e / 64]?.getD []) (bs[e % 64]?.getD [])).foldl
      (fun c q => accAdd c (scaleNum (c.anchor - 7 * w) (numMul q.1 q.2))) c
    { c with psn := c.psn || badA.contains (e / 64) || badB.contains (e % 64) }

/-- The predicted checksum vectors of one half of MMA.X (R308). -/
def mmaXPredict (v : BitVec 128) (wa wb sg : Nat) : List Nat × List Nat :=
  let p := planeX v
  let lift (sig : Nat → Int) (d : Int) (xs : List (List Num)) : List (List Num) :=
    xs.zipIdx.map fun (l, i) => if sig i = 0x7FFF then l.map fun _ => Num.nan else l.map (scaleNum (sig i + d))
  if eCk v then
    predict (lift (fun i => sgn 16 (seqAt sg 16 i)) (-7 * fld v 95 4) ((List.range 64).map fun i => (p.line wa i).map (·.v)))
      (lift (fun j => sgn 16 (seqAt sg 16 (64 + j))) 0 ((List.range 64).map fun j => (p.line wb j).map (·.v))) (eK v)
  else ([], [])

/-- One half of MMA.X (R99, R101, R116). Each half of a fused pair reads the exponents at S_ROW in its own scratchpad
(DESIGN CHOICE, log entry 75); `bad` are lanes of B that the fusion link has poisoned. -/
def mmaXHalf (s : State) (i ib cc : Nat) (v : BitVec 128) (bad : List Nat := []) : State × List Wr :=
  let p := withCk (eCk v) (eK v)
  let ua := (rowsX v 1).panel p 0 0
  let ub := (rowsX v 0).panel p 0 1
  let (s, ra) := readRows s i (eARow v) (cc + ua.cc) ua.step (planeX v).rows
  let (s, rb) := readRows s ib (eBRow v) (cc + ub.cc) ub.step (planeX v).rows
  let (s, rs) := readRows s i (eTRow v) cc 1 1
  engFinish s i v
    (mmaXAccs v (rowsNat ra) (rowsNat rb) (rowsNat rs) (rowsPsn ra) (rowsPsn rb ++ bad) (rowsPsn rs) (tileOf s i).eng.accs)
    (mmaXPredict v (rowsNat ra) (rowsNat rb) (rowsNat rs))

def mmaXEff (s : State) (i : Nat) (v : BitVec 128) (cc : Nat) : VRes :=
  let t := tileOf s i
  let l := cc + 5 + withCk (eCk v) (eK v)
  let d := drainCc (eOut v) (eCk v)
  if catcherBars s i then .trap trCatcher
  else match engReady t v l d with
  | some c => .trap c
  | none =>
    let p := mmaXHalf (setDrain s i l d) i i cc v
    match fused s i .engine with
    | some j =>
      let link := fusionLink p.1 i
      let q := mmaXHalf link.1 j i cc v link.2
      .done q.1 (atSite i p.2 ++ atSite j q.2)
    | none => .done p.1 (atSite i p.2)

/-- MMA (R112). -/
def execMma (site : SiteId) (slot : Fin 8192) (v : BitVec 128) (s : State) : Host.Outcome State Fault Refusal :=
  .next (schedule (mmaInfo false v) (mmaEff false) s site slot v)

/-- MMA.T (R112). -/
def execMmaT (site : SiteId) (slot : Fin 8192) (v : BitVec 128) (s : State) : Host.Outcome State Fault Refusal :=
  .next (schedule (mmaInfo true v) (mmaEff true) s site slot v)

/-- MMA.X (R116). -/
def execMmaX (site : SiteId) (slot : Fin 8192) (v : BitVec 128) (s : State) : Host.Outcome State Fault Refusal :=
  .next (schedule (mmaXInfo v) mmaXEff s site slot v)

end Sys2Proof.Machine
end

