-- ==== Sys2Proof/Machine/Move.lean ====
section
/-! DEFINITION. The verbs of the steering unit: MOV, DROP, SEND, RECV, STEER and its CLEAR form
(spec/05_tile_commands.md R123 to R126, R134; spec/03_tile.md R55, R58, R481, R482; R187). -/

namespace Sys2Proof.Machine
open Sys2Proof

/-! ### MOV -/

def vSk (v : BitVec 128) : Nat := fld v 32 3
def vDk (v : BitVec 128) : Nat := fld v 35 3
def vSbuf (v : BitVec 128) : Nat := fld v 38 2
def vDbuf (v : BitVec 128) : Nat := fld v 40 2
def vRows (v : BitVec 128) : Nat := fld v 68 13
def vCh (v : BitVec 128) : Nat := fld v 81 5
def vOff (v : BitVec 128) : Nat := fld v 86 22
def vDrop (v : BitVec 128) : Bool := bit v 108

/-- The allowed pairs of R123. -/
def movPair (sk dk : Nat) : Bool :=
  (sk, dk) = (0, 0) || (sk, dk) = (1, 0) || (sk, dk) = (1, 1) || (sk, dk) = (0, 1) || (sk, dk) = (0, 2) || (sk, dk) = (2, 0)

def movNear (v : BitVec 128) : Bool := !vDrop v && (vSk v = 2 || vDk v = 2)

/-- What the bits of a MOV decide. -/
def movInfo (v : BitVec 128) : VInfo :=
  let n := vRows v
  if vDrop v then
    { unit := .steering, occ := 1, comp := 1, never := true
      trap := firstTrap [(commonOk v && zeroF v 109 19 && vSk v = 1, trFormat)] }
  else
    { unit := .steering
      occ := if movNear v then 4 * n else n
      comp := if movNear v then 4 * n + 65 else 6 + n
      never := vSk v = 1 || vDk v = 1
      claims := (if vSk v = 0 then [⟨0, n, if vDk v = 2 then 4 else 1, 1, 0⟩] else []) ++
        (if vDk v = 0 then [if vSk v = 2 then ⟨68, n, 4, 0, 1⟩ else ⟨6, n, 1, 0, 1⟩] else [])
      wAt := if vSk v = 2 then [(68, 4, n)] else [(6, 1, n)]
      near := if movNear v then some (vCh v, 4 * n) else none
      reads := if vSk v = 0 then [(fld v 42 13, n)] else []
      writes := if vDk v = 0 then [(fld v 55 13, n)] else []
      trap := firstTrap [
        (commonOk v && zeroF v 109 19 && movPair (vSk v) (vDk v) && decide (1 ≤ n) && decide (n ≤ 6144), trFormat),
        (vSk v ≠ 0 || rowsIn (fld v 42 13) n, trRow), (vDk v ≠ 0 || rowsIn (fld v 55 13) n, trRow),
        (!movNear v || decide (vOff v + n ≤ 2 ^ 22), trRow)] }

/-- Rows MOV takes from its source, from row `k` of its range on; none while inbound rows are missing. Row `j` is read in cc
`j` and written in cc 6 + `j` (R134): where the destination lies `d` ≥ 7 rows after the source, a read from row `d` on finds a
row that the MOV has written (R151). -/
def movRows (s : State) (i : Nat) (v : BitVec 128) (cc k n : Nat) : Option (State × List RowRd) :=
  match vSk v with
  | 0 =>
    let d := fld v 55 13 - fld v 42 13
    if vDk v = 0 && decide (7 ≤ d) then
      let p := readRows s i (fld v 42 13) cc 1 (min n d)
      some (p.1, (List.range n).map fun j => p.2.getD (j % d) { bytes := [] })
    else some (readRows s i (fld v 42 13 + k) cc (if vDk v = 2 then 4 else 1) n)
  | 1 => takeRows s i (vSbuf v) n
  | _ => some (readNear s i (vCh v) (vOff v + k) n)

/-- The packets that one verb's rows form in an outbound buffer (R482), `last` where its last row is among them. -/
def outRowsOf (last : Bool) (rs : List RowRd) : List OutRow :=
  rs.zipIdx.map fun (r, n) =>
    { bytes := r.bytes, count := r.count, psn := r.psn, eop := r.eop || (last && n + 1 = rs.length) }

/-- A packet that the steering unit forwards has part of its rows in outbound buffer `b`: no other rows enter it until the
rest has. -/
def outTaken (t : Tile) (b : Nat) : Bool :=
  t.matchBuf.any fun e => e.left ≠ 0 && (match e.specDest with
    | some d => d = b
    | none => fldN (e.token.getD 0) 16 4 = b)

/-- Free rows of an outbound buffer (R58). -/
def outRoom (t : Tile) (b : Nat) : Nat := 64 - (outBuf t b).rows.length
def outFree (t : Tile) (b : Nat) : Nat := if outTaken t b then 0 else outRoom t b

/-- The wait for room in an outbound buffer (R338). -/
def waitOut (t : Tile) (b unit : Nat) : WaitRec := waitRows t b unit 5

/-- Rows that the waiting verb of the steering unit has moved already; the catcher of a mirror pair moves with its flyer. -/
def movedRows (s : State) (i : Nat) : Nat :=
  match (tileOf s (leadSite s i)).eng.waiting.find? fun w => w.unit = VUnit.steering.no with
  | some w => w.moved
  | none => 0

/-- The least of a count over a tile, or over both halves of a mirror pair, which move their rows in the same cc (R76). -/
def pairMin (s : State) (i : Nat) (f : Tile → Nat) : Nat :=
  let l := leadSite s i
  if mirrorOn s i then min (f (tileOf s l)) (f (tileOf s (l + 9))) else f (tileOf s i)

/-- A MOV into an outbound buffer moves as many rows as it has, into as much room as there is, and stalls until the rest
follows (R58, R123). -/
def movOut (s : State) (i : Nat) (v : BitVec 128) (cc : Nat) : VRes :=
  let t := tileOf s i
  let k := movedRows s i
  let left := vRows v - k
  let room := min left (pairMin s i fun t => outFree t (vDbuf v))
  let n := if vSk v = 1 then min room (pairMin s i fun t => (inUnread (inBuf t (vSbuf v))).length) else room
  match movRows s i v (cc + k) k n with
  | none => .wait s [] k (waitRows t (vSbuf v) 1 3)
  | some (s, rs) =>
    let ws := atSite i ((outRowsOf (n = left) rs).map (Wr.out (vDbuf v)))
    if n = left then .done s ws
    else if n = room then .wait s ws (k + n) (waitOut t (vDbuf v) 1)
    else .wait s ws (k + n) (waitRows t (vSbuf v) 1 3)

def movEff (s : State) (i : Nat) (v : BitVec 128) (cc : Nat) : VRes :=
  let t := tileOf s i
  if vDrop v then .done (modTile s i fun t => setInBuf t (vSbuf v) (dropPacket (inBuf t (vSbuf v)))) []
  else if vDk v = 1 && (outBuf t (vDbuf v)).dest.isNone then .trap trFormat
  else if movNear v && !(List.range (vRows v)).all (fun k => nearAllowed s i (vCh v) (vOff v + k) (vDk v = 2)) then
    .trap trRow
  else if vDk v = 1 then movOut s i v cc
  else match movRows s i v cc 0 (vRows v) with
  | none => .wait s [] 0 (waitRows t (vSbuf v) 1 3)
  | some (s, rs) =>
    if vDk v = 0 then .done s (atSite i (wrRows (fld v 55 13) (rs.map fun r => (r.bytes, r.psn))))
    else .done s (atSite i (rs.zipIdx.map fun p => Wr.near (vCh v) (vOff v + p.2) p.1))

/-- Two scheduled near MOVs meet on a channel in one cc other than as merged reads (R187). -/
def xferMeets (a b : NearXfer) : Bool :=
  a.ch = b.ch && decide (a.cc < b.cc + 4 * b.rows) && decide (b.cc < a.cc + 4 * a.rows) &&
  (a.write || b.write || decide (4 * a.off + b.cc ≠ 4 * b.off + a.cc))

/-- The 128 B pieces of transfer `o` that start in a cc of transfer `m` on the same channel. -/
def sharedPieces (m o : NearXfer) : List Nat :=
  (List.range (4 * o.rows)).filter fun k => decide (m.cc ≤ o.cc + k) && decide (o.cc + k < m.cc + 4 * m.rows)

/-- Address of piece `k` of a transfer at the place it writes: near memory, or the scratchpad of a read. -/
def pieceAddr (s : State) (o : NearXfer) (k : Nat) : Option Nat :=
  if o.write then (nearRowAddr s o.site o.ch (o.off + k / 4)).map (· + 128 * (k % 4))
  else some (spmAddr o.site (o.dst * rowBytes + 128 * k))

/-- The pieces of an earlier transfer that meet the new one are not performed (R187): their places hold what they held. -/
def undoXfer (s : State) (m o : NearXfer) : State :=
  (sharedPieces m o).foldl (fun s k => match pieceAddr s o k with
    | some a => memWriteP s a (padTo 0 128 ((o.old.drop (128 * k)).take 128))
        (((List.range 16).filter fun l => o.oldPsn.contains (16 * k + l)))
    | none => s) s

/-- What the places hold that a near MOV writes: bytes, and poisoned lanes numbered from the first. -/
def xferOld (s : State) (o : NearXfer) : NearXfer :=
  let rows := (List.range o.rows).map fun k =>
    if o.write then nearRowAddr s o.site o.ch (o.off + k) else some (spmAddr o.site ((o.dst + k) * rowBytes))
  { o with
    old := rows.flatMap fun a => match a with | some a => memRead s a rowBytes | none => List.replicate rowBytes 0
    oldPsn := (rows.zipIdx.flatMap fun p => match p.1 with
      | some a => (poisonIn s a rowBytes).map (· + 64 * p.2)
      | none => []) }

/-- A scheduled near MOV: in a refresh or mirror slot it traps, and one that meets another transfer traps with every other
requester, and no transfer of those cc is performed (R124, R187, R188). -/
def scheduleNear (s : State) (i slot : Nat) (v : BitVec 128) (wait : Nat) : State :=
  let x := movInfo v
  let f := siteField i
  let me : NearXfer := { site := i, slot := slot, ch := vCh v, cc := stampOf v, rows := vRows v, off := vOff v
                         write := vDk v = 2, dst := fld v 55 13 }
  if nearSlotHit s (vCh v) (stampOf v) (vRows v) then
    schedule { x with trap := some trNear } movEff s i slot v wait
  else if !issues (tileOf s i) false || halts s (siteRing i) || (mirrorOn s i && (tileOf s i).role = 2) then s
  else
    let hits := (fieldOf s f).xfers.filter fun o => (o.site ≠ i || o.slot ≠ slot) && xferMeets me o
    if hits.isEmpty then
      schedule x movEff (modField s f fun y => { y with xfers := y.xfers ++ [xferOld s me] }) i slot v wait
    else
      let s := hits.foldl (fun s o => trapTile (undoXfer s me o) o.site trCollide (.slot o.slot)) s
      trapTile s i trCollide (.slot slot)

def scheduleMov (s : State) (i slot : Nat) (v : BitVec 128) (wait : Nat) : State :=
  if movNear v && (movInfo v).trap.isNone then scheduleNear s i slot v wait
  else schedule (movInfo v) movEff s i slot v wait

/-- MOV (R123, R124); `wait` is the cc that it has waited for rows or room (R134). -/
def execMov (site : SiteId) (slot : Fin 8192) (x : VerbWait) (s : State) : Host.Outcome State Fault Refusal :=
  .next (scheduleMov s site slot x.v x.wait)

/-- DROP: a MOV verb with DROP set (R55, R123). -/
def execDrop (site : SiteId) (slot : Fin 8192) (v : BitVec 128) (s : State) : Host.Outcome State Fault Refusal :=
  .next (schedule (movInfo v) movEff s site slot v)

/-! ### SEND and RECV (R125) -/

def chanInfo (recv : Bool) (v : BitVec 128) : VInfo :=
  { unit := .steering, occ := 1, comp := 7, never := true
    reads := if recv then [] else [(fld v 37 13, 1)]
    writes := if recv then [(fld v 37 13, 1)] else []
    claims := if recv then [⟨6, 1, 1, 0, 1⟩] else [⟨0, 1, 1, 1, 0⟩]
    wAt := [(6, 0, 4)]
    trap := firstTrap [(commonOk v && zeroF v 54 74, trFormat), (rowsIn (fld v 37 13) 1, trRow)] }

def sendEff (s : State) (i : Nat) (v : BitVec 128) (cc : Nat) : VRes :=
  let p := readRows s i (fld v 37 13) cc 1 1
  match chanSend p.1 i (fld v 32 5) (seqAt (rowsNat p.2) 256 (fld v 50 4)) with
  | .sent s => .done s []
  | .closed s => .done s []
  | .block => .wait s [] 0 (waitSend (tileOf s i) (fld v 32 5) 1 1)
  | .format => .trap trFormat

def recvEff (s : State) (i : Nat) (v : BitVec 128) (_ : Nat) : VRes :=
  match chanRecv s i (fld v 32 5) with
  | none => .wait s [] 0 (waitRecv (tileOf s i) (fld v 32 5) 1 2)
  | some (s, d) =>
    .done s (atSite i ((List.range 4).map fun k =>
      .word (fld v 37 13) (4 * fld v 50 4 + k) (fld d (64 * k) 64) false))

/-- SEND verb (R125, R193); `wait` is the cc that it has waited (R134). -/
def execSend (site : SiteId) (slot : Fin 8192) (x : VerbWait) (s : State) : Host.Outcome State Fault Refusal :=
  .next (schedule (chanInfo false x.v) sendEff s site slot x.v x.wait)

/-- RECV verb (R125); `wait` is the cc that it has waited (R134). -/
def execRecv (site : SiteId) (slot : Fin 8192) (x : VerbWait) (s : State) : Host.Outcome State Fault Refusal :=
  .next (schedule (chanInfo true x.v) recvEff s site slot x.v x.wait)

/-! ### STEER (R126) -/

/-- What the bits of STEER decide. With CLEAR the verb names a rule only: DIN, TIN and the region are not checked (DESIGN
CHOICE, log entry 75). -/
def steerInfo (v : BitVec 128) : VInfo :=
  { unit := .steering, occ := 1, comp := 1, never := true
    trap := firstTrap [
      (commonOk v && zeroF v 68 60 && (bit v 67 || fld v 36 2 ≠ fld v 38 2), trFormat),
      (bit v 67 || rowsIn (fld v 41 13) (fld v 54 13), trRow)] }

def steerEff (s : State) (i : Nat) (v : BitVec 128) (_ : Nat) : VRes :=
  let r := fld v 32 4
  let rule : SteerRule :=
    { din := fld v 36 2, tin := fld v 38 2, spec := bit v 40, rbase := fld v 41 13, rrows := fld v 54 13 }
  let put (m : List (Nat × SteerRule)) : List (Nat × SteerRule) :=
    if bit v 67 then SMap.erase m r else SMap.insert (SMap.erase m r) r rule
  .done (modTile s i fun t => { t with rules := put t.rules }) []

/-- STEER: install a rule (R126). -/
def execSteer (site : SiteId) (slot : Fin 8192) (v : BitVec 128) (s : State) : Host.Outcome State Fault Refusal :=
  .next (schedule (steerInfo v) steerEff s site slot v)

/-- STEER with CLEAR: remove a rule (R126). -/
def execSteerClear (site : SiteId) (slot : Fin 8192) (v : BitVec 128) (s : State) : Host.Outcome State Fault Refusal :=
  .next (schedule (steerInfo v) steerEff s site slot v)

end Sys2Proof.Machine
end

