-- ==== Sys2Proof/Machine/Elem.lean ====
section
/-! DEFINITION. The special functions (spec/05_tile_commands.md R118, R119, R121) on exact values. Each function
gives an exact value, or for the transcendental ones a dyadic value within 2^-400 of the exact result relative to
it, which is then rounded once to FP32 (log entry 6: UNVERIFIED that no FP32 input needs more). -/

namespace Sys2Proof.Machine
open Sys2Proof

/-- Scale of the fixed-point work, and of the reduction by π. -/
def fxP : Nat := 640
def fxQ : Nat := 1000

def fxOne : Int := 2 ^ fxP

/-- A finite FP32 value in fixed point (exact: its exponent is at least -149). -/
def fxOf (neg : Bool) (m : Nat) (e : Int) : Int :=
  let v : Int := shl m (e + fxP)
  if neg then -v else v

def fxNum (v : Int) : Num := .fin (v < 0) v.natAbs (-(fxP : Int))

def fxMul (a b : Int) : Int := a * b / 2 ^ fxP
def fxDiv (a b : Int) : Int := a * 2 ^ fxP / b

/-- Σ r^k / k! from the term after `t`, the first divisor `n`. -/
def expSum (r : Int) : Nat → Nat → Int → Int → Int
  | 0, _, _, acc => acc
  | f + 1, n, t, acc =>
    let t' := fxMul t r / n
    expSum r f (n + 1) t' (acc + t')

/-- Σ z^(2k+1)/(2k+1), signs alternating where `alt` is set, at scale 2^p. -/
def oddSum (p : Nat) (alt : Bool) (z2 : Int) : Nat → Nat → Int → Int → Int
  | 0, _, _, acc => acc
  | f + 1, k, t, acc =>
    let c := t / (2 * k + 1 : Nat)
    oddSum p alt z2 f (k + 1) (t * z2 / 2 ^ p) (if alt && k % 2 = 1 then acc - c else acc + c)

/-- atanh z in fixed point. -/
def fxAtanh (z : Int) : Int := oddSum fxP false (fxMul z z) 230 0 z 0

def fxLn2 : Int := 2 * fxAtanh (2 ^ fxP / 3)

/-- atan(1/n) at scale 2^fxQ. -/
def atanInv (n : Nat) : Int := oddSum fxQ true (2 ^ fxQ / (n * n : Nat)) 230 0 (2 ^ fxQ / (n : Nat)) 0

/-- π/2 at scale 2^fxQ, by Machin's formula. -/
def halfPi : Int := 8 * atanInv 5 - 2 * atanInv 239

/-- ln of a positive m × 2^e. -/
def fxLn (m : Nat) (e : Int) : Int :=
  let l := m.log2
  let z : Int := fxDiv ((m : Int) - 2 ^ l) ((m : Int) + 2 ^ l)
  (e + l) * fxLn2 + 2 * fxAtanh z

/-- e^v as a value, |v| at most a few hundred. -/
def expNum (v : Int) : Num :=
  let k := v / fxLn2
  let r := v - k * fxLn2
  let s := expSum r 200 1 fxOne fxOne
  .fin false s.natAbs (k - fxP)

/-- e^v in fixed point. -/
def fxExp (v : Int) : Int :=
  match expNum v with
  | .fin _ m e => shl m (e + fxP)
  | _ => 0

/-- sin (odd) or cos of 0 ≤ r < π/2. -/
def sinSum (r2 : Int) : Nat → Nat → Int → Int → Int
  | 0, _, _, acc => acc
  | f + 1, n, t, acc =>
    let t' := -(fxMul t r2) / ((n + 1) * (n + 2) : Nat)
    sinSum r2 f (n + 2) t' (acc + t')

def fxSin (r : Int) : Int := sinSum (fxMul r r) 110 1 r r
def fxCos (r : Int) : Int := sinSum (fxMul r r) 110 0 fxOne fxOne

/-- sin or cos of any finite value; `q` is 0 for sin and 1 for cos. -/
def sinCos (neg : Bool) (m : Nat) (e : Int) (q : Nat) : Num :=
  let x : Int := shl m (e + fxQ)
  let x := if neg then -x else x
  let k := (x / halfPi + q) % 4
  let r := (x % halfPi) / 2 ^ (fxQ - fxP)
  fxNum (if k = 0 then fxSin r else if k = 1 then fxCos r else if k = 2 then -(fxSin r) else -(fxCos r))

/-- Σ (−1)^n x^(2n+1) / (n! (2n+1)) from the term after `t` = x^(2n−1)/(n−1)!. -/
def erfSum (x2 : Int) : Nat → Nat → Int → Int → Int
  | 0, _, _, acc => acc
  | f + 1, n, t, acc =>
    let t' := -(fxMul t x2) / n
    erfSum x2 f (n + 1) t' (acc + t' / (2 * n + 1 : Nat))

/-- Integer square root of n × 2^(2k) with a sticky low bit. -/
def sqrtSticky (n : Nat) : Nat :=
  let r := Nat.sqrt n
  2 * r + b2n (r * r != n)

/-- √π in fixed point, from π/2. -/
def fxSqrtPi : Int :=
  let pi : Int := halfPi / 2 ^ (fxQ - fxP - 1)
  (Nat.sqrt (pi.natAbs * 2 ^ fxP) : Nat)

/-- erf in fixed point. -/
def fxErf (x : Int) : Int := fxDiv (2 * erfSum (fxMul x x) 900 1 x x) fxSqrtPi

/-- Φ in fixed point. -/
def fxPhi (x : Int) : Int :=
  let r2 : Int := (Nat.sqrt (2 * 2 ^ (2 * fxP)) : Nat)
  (fxOne + fxErf (fxDiv x r2)) / 2

/-- A value too small for FP32, with its sign. -/
def tiny (neg : Bool) : Num := .fin neg 1 (-2000)

def one (neg : Bool) : Num := .fin neg 1 0

/-- RECIP, SQRT, RSQRT (0x10 to 0x12) as values within one part in 2^200, with a sticky bit where inexact. -/
def algFn (fn : Nat) (a : Num) : Num :=
  match fn, a with
  | 0x10, .inf n => .fin n 0 0
  | 0x10, .fin n m e => if m = 0 then .inf n else
      let q := 2 ^ 300 / m
      .fin n (2 * q + b2n (q * m != 2 ^ 300)) (-301 - e)
  | 0x11, .inf n => if n then .nan else .inf false
  | 0x11, .fin n m e => if m = 0 then a else if n then .nan else
      let e' := if e % 2 = 0 then e else e - 1
      let m' := if e % 2 = 0 then m else 2 * m
      .fin false (sqrtSticky (m' * 2 ^ 400)) (e' / 2 - 201)
  | 0x12, .inf n => if n then .nan else .fin false 0 0
  | 0x12, .fin n m e => if m = 0 then .inf n else if n then .nan else
      let e' := if e % 2 = 0 then e else e - 1
      let m' := if e % 2 = 0 then m else 2 * m
      let q := 2 ^ 600 / m'
      let r := Nat.sqrt q
      .fin false (2 * r + b2n (r * r * m' != 2 ^ 600)) (-301 - e' / 2)
  | _, _ => .nan

/-- The transcendental functions 0x13 to 0x1D at finite arguments. -/
def transFn (fn : Nat) (neg : Bool) (m : Nat) (e : Int) : Num :=
  let x := fxOf neg m e
  let mag (k : Nat) : Bool := decide (k * fxOne ≤ (x.natAbs : Int))
  match fn with
  | 0x13 => if mag 200 then (if neg then tiny false else .inf false) else expNum x
  | 0x14 =>
    if mag 200 then (if neg then tiny false else .inf false)
    else
      let k := x / fxOne
      let r := x - k * fxOne
      let s := expSum (fxMul r fxLn2) 200 1 fxOne fxOne
      .fin false s.natAbs (k - fxP)
  | 0x15 => if m = 0 then .inf true else if neg then .nan else fxNum (fxLn m e)
  | 0x16 => if m = 0 then .inf true else if neg then .nan else
      if m = 2 ^ m.log2 then numOfInt (e + m.log2) else fxNum (fxDiv (fxLn m e) fxLn2)
  | 0x17 => if m = 0 then .fin neg m e else if mag 16 then one neg else
      let y := fxExp (2 * x)
      fxNum (fxDiv (y - fxOne) (y + fxOne))
  | 0x18 => if mag 200 then (if neg then tiny false else one false) else
      fxNum (fxDiv fxOne (fxOne + fxExp (-x)))
  | 0x19 => if m = 0 then .fin neg m e else if mag 16 then (if neg then tiny true else .fin neg m e) else
      numMul (.fin neg m e) (fxNum (fxPhi x))
  | 0x1A => if m = 0 then .fin neg m e else if mag 200 then (if neg then tiny true else .fin neg m e) else
      numMul (.fin neg m e) (fxNum (fxDiv fxOne (fxOne + fxExp (-x))))
  | 0x1B => if m = 0 then .fin neg m e else if mag 5 then one neg else fxNum (fxErf x)
  | 0x1C => if m = 0 then .fin neg m e else sinCos neg m e 0
  | 0x1D => sinCos neg m e 1
  | _ => .nan

/-- The same functions at infinities (R118). -/
def transInf (fn : Nat) (neg : Bool) : Num :=
  match fn with
  | 0x13 | 0x14 => if neg then .fin false 0 0 else .inf false
  | 0x15 | 0x16 => if neg then .nan else .inf false
  | 0x17 | 0x1B => one neg
  | 0x18 => if neg then .fin false 0 0 else one false
  | 0x19 | 0x1A => if neg then .fin true 0 0 else .inf false
  | _ => .nan

/-- One-operand functions. -/
def fn1 (fn : Nat) (a : Num) : Num :=
  match a with
  | .nan => .nan
  | .inf n =>
    match fn with
    | 0x05 => .inf false
    | 0x06 => .inf (!n)
    | 0x07 => if n then .fin false 0 0 else .inf false
    | 0x10 | 0x11 | 0x12 => algFn fn a
    | _ => transInf fn n
  | .fin n m e =>
    match fn with
    | 0x05 => .fin false m e
    | 0x06 => .fin (!n) m e
    | 0x07 => if n then .fin false 0 0 else a
    | 0x10 | 0x11 | 0x12 => algFn fn a
    | _ => transFn fn n m e

/-- Two-operand functions 0x00 to 0x04. -/
def fn2 (fn : Nat) (a b : Num) : Num :=
  match fn with
  | 0x00 => numAdd a b
  | 0x01 => numAdd a (numNegate b)
  | 0x02 => numMul a b
  | 0x03 => if numIsNan a || numIsNan b then .nan else if numLe a b then b else a
  | 0x04 => if numIsNan a || numIsNan b then .nan else if numLe a b then a else b
  | _ => .nan

/-- Round to FP32 and take the value (R118). -/
def rn32 (x : Num) : Num := decFloat fp32 (encFloat fp32 false x)

/-- One round of RAND (R119). -/
def randStep (key : Nat) (x i : Nat) : Nat :=
  let k := if i % 2 = 0 then fldN key 0 32 else fldN key 32 32
  let x := (x + k + i * 0x9e3779b9) % 2 ^ 32
  let x := x * 0x85ebca6b % 2 ^ 32
  x ^^^ (x >>> 13)

/-- RAND of a counter under a key (R119). -/
def randOf (key c : Nat) : Num := .fin false ((List.range 6).foldl (randStep key) c >>> 8) (-24)

/-- Rates and latencies of R118; none for a code that the table does not define. -/
def sfuRate (fn : Nat) : Option (Nat × Nat) :=
  if fn ≤ 0x07 then some (64, 4)
  else if 0x10 ≤ fn ∧ fn ≤ 0x16 then some (64, 16)
  else if 0x17 ≤ fn ∧ fn ≤ 0x1D then some (32, 24)
  else if fn = 0x20 then some (64, 8)
  else none

/-- An exact sum kept as one dyadic number. -/
def exactSum : List Num → Num
  | [] => .fin false 0 0
  | x :: xs => numAdd x (exactSum xs)

/-- Quotient of finite values as FP32, rounded once (R121). -/
def quot32 (a b : Num) : Nat :=
  match a, b with
  | .fin n m e, .fin _ m' e' => if m' = 0 then nanCode fp32 else roundQ fp32 false n m m' (e - e')
  | _, _ => nanCode fp32

/-- Softmax of one segment of FP32 values, as FP32 codes (R121). -/
def softmax (xs : List Num) : List Nat :=
  if xs.any (fun x => numIsNan x || x = .inf false) then xs.map fun _ => nanCode fp32
  else
    let m := xs.foldl (fun a x => if numLe a x then x else a) (.inf true)
    let es := xs.map fun x => match x with
      | .inf _ => Num.fin false 0 0
      | _ => rn32 (fn1 0x13 (rn32 (numAdd x (numNegate m))))
    if m = .inf true then xs.map fun _ => 0
    else es.map fun e => quot32 e (exactSum es)

end Sys2Proof.Machine
end

