-- ==== Sys2Proof/Machine/Sfu.lean ====
section
/-! DEFINITION. The special-function unit's verbs: SFU, RAND, RED, SMAX and CAST (spec/05_tile_commands.md R117 to
R122, R134; spec/04_arithmetic.md R95 to R98). -/

namespace Sys2Proof.Machine
open Sys2Proof

def sfuFi (c : Nat) : Bool := floatElem c || c = 0xD
where floatElem (c : Nat) : Bool := c = 0xA || c = 8 || c = 9 || c = 3 || c = 4

def sfuFo (c : Nat) : Bool := sfuFi c || c = 6

/-! ### SFU and RAND (R117 to R119) -/

def sN (v : BitVec 128) : Nat := fld v 71 20
def sFn (v : BitVec 128) : Nat := fld v 91 6
def sFi (v : BitVec 128) : Nat := fld v 97 4
def sFo (v : BitVec 128) : Nat := fld v 101 4
def sSrc (v : BitVec 128) : Nat := fld v 113 3
def sScalar (v : BitVec 128) : Bool := bit v 105

/-- Rows of the second operand: a scalar or key row, a second sequence, or none. -/
def sRows2 (v : BitVec 128) : Nat :=
  if sFn v = 0x20 then 1 else if sFn v ≤ 4 then (if sScalar v then 1 else rowsOf (sN v) (fbits (sFi v))) else 0

/-- The second operand's reads lie one cc after the first one's where there is room (log entry 30). -/
def sLag (v : BitVec 128) (o : Nat) : Nat := if sRows2 v < o then 1 else 0

def sfuInfo (v : BitVec 128) : VInfo :=
  let n1 := if sSrc v = 0 then rowsOf (sN v) (fbits (sFi v)) else 0
  let nd := rowsOf (sN v) (fbits (sFo v))
  let (r, lf) := (sfuRate (sFn v)).getD (64, 0)
  let o := ceilDiv (sN v) r
  { unit := .sfu
    claims := [readUse 0 n1 o, readUse (sLag v o) (sRows2 v) (o - sLag v o), outUse (6 + o + lf) nd o]
    wAt := [((outUse (6 + o + lf) nd o).cc, outStep nd o, nd)]
    trap := firstTrap [
      (commonOk v && zeroF v 116 12, trFormat),
      ((sfuRate (sFn v)).isSome && sfuFi (sFi v) && sfuFo (sFo v) && srcOk (sSrc v) && sN v ≠ 0, trFormat),
      (sFn v ≠ 0x20 || (sFi v = 0xD && fld v 106 7 % 2 = 0), trFormat),
      (rowsIn (fld v 32 13) n1 && rowsIn (fld v 45 13) (sRows2 v) && rowsIn (fld v 58 13) nd, trRow)]
    occ := o, comp := 6 + o + lf
    reads := [(fld v 32 13, n1), (fld v 45 13, sRows2 v)], writes := [(fld v 58 13, nd)] }

/-- An element as FP32 (R117). -/
def asFp32 (code c : Nat) : Num := rn32 (decElem code c)

/-- Result code of element `e` of SFU (R117, R118) or RAND (R119). -/
def sfuElem (v : BitVec 128) (w w2 e : Nat) : Nat :=
  let a := seqAt w (fbits (sFi v)) e
  let y :=
    if sFn v = 0x20 then randOf (fldN w2 (32 * fld v 106 7) 64) (a % 2 ^ 32)
    else if sFn v ≤ 4 then
      fn2 (sFn v) (asFp32 (sFi v) a)
        (if sScalar v then decFloat fp32 (fldN w2 (32 * fld v 106 7) 32) else asFp32 (sFi v) (seqAt w2 (fbits (sFi v)) e))
    else fn1 (sFn v) (asFp32 (sFi v) a)
  encElem (sFo v) (satBit v) (rn32 y)

/-- The dual path runs (R303, R306, R311): the configuration is compiled for level 1, 2 or 3, whatever lower level the tenancy
runs at. -/
def dualPath (s : State) (i : Nat) : Bool :=
  match ringRun s (siteRing i) with
  | some (n, _) => match cfgOf (tenOf s n) with
    | some c => decide (1 ≤ c.alevel) && decide (c.alevel ≤ 3)
    | none => false
  | none => false

/-- What the main path delivers for element `e` of width `b` whose right code is `c`, with the upsets of this verb. -/
def mainPath (up : List (Nat × Nat)) (b e c : Nat) : Nat :=
  match up.find? fun p => p.1 = e with
  | some p => (c ^^^ p.2) % 2 ^ b
  | none => c

/-- The second evaluation of an SFU or SMAX verb (R311): element `e` is computed again on the reduced-rate path where
(e + WORK_BEAT) mod 16 = 0, and the bits are compared; a difference fails the audit. `codes` are the right codes. The
upsets of the main path end with the verb. -/
def dualCheck (s : State) (i b : Nat) (codes : List Nat) : State :=
  let t := tileOf s i
  let differs := codes.zipIdx.any fun p =>
    (p.2 + t.workBeat.toNat) % 16 = 0 && decide (mainPath t.sfuUpset b p.2 p.1 ≠ p.1)
  let bad := dualPath s i && differs
  let s := if t.sfuUpset.isEmpty then s else modTile s i fun t => { t with sfuUpset := [] }
  if bad then failCheck s i mechSfu else s

/-- The results of an SFU or SMAX verb as its main path delivers them, checked by the second path. -/
def sfuDone (s : State) (i b : Nat) (out : List (Nat × Bool)) : State × List (Nat × Bool) :=
  let up := (tileOf s i).sfuUpset
  (dualCheck s i b (out.map (·.1)), out.zipIdx.map fun p => (mainPath up b p.2 p.1.1, p.1.2))

def sfuEff (s : State) (i : Nat) (v : BitVec 128) (cc : Nat) : VRes :=
  let b := fbits (sFi v)
  let o := (sfuInfo v).occ
  match srcRows s i (sSrc v) (fld v 32 13) cc (readUse 0 (rowsOf (sN v) b) o) (rowsOf (sN v) b) with
  | none => .wait s [] 0 (waitRows (tileOf s i) (sSrc v - 4) 1 3)
  | some (s, r1) =>
    let (s, r2) := readPort s i (fld v 45 13) cc (readUse (sLag v o) (sRows2 v) (o - sLag v o)) (sRows2 v)
    let w := rowsNat r1
    let w2 := rowsNat r2
    let p1 := rowsPsn r1
    let p2 := rowsPsn r2
    let pos2 (e : Nat) : Nat × Nat :=
      if sFn v = 0x20 then (32 * fld v 106 7, 64) else if sScalar v then (32 * fld v 106 7, 32) else (b * e, b)
    let out := (List.range (sN v)).map fun e =>
      if byteValid r1 (b * e / 8) then
        (sfuElem v w w2 e, bitsPsn p1 (b * e) b || (sRows2 v ≠ 0 && bitsPsn p2 (pos2 e).1 (pos2 e).2))
      else ((Config.ignoredElem (sFn v) e).toNat % 2 ^ fbits (sFo v), false)
    let p := sfuDone s i (fbits (sFo v)) out
    .done p.1 (atSite i (wrRows (fld v 58 13) (packFill (Config.tailByte 0x08) (fbits (sFo v)) p.2)))

/-! ### RED (R120) -/

def rType (v : BitVec 128) : Nat := fld v 71 4
def rPart (v : BitVec 128) : Bool := bit v 75
def rFo (v : BitVec 128) : Nat := fld v 95 4
def rRows (v : BitVec 128) : Nat := fld v 45 13

/-- Elements of a row of TYPE. -/
def rPer (v : BitVec 128) : Nat := if rPart v then 16 else 4096 / fbits (rType v)

/-- The source elements that each result reduces. -/
def redIdx (v : BitVec 128) : List (List Nat) :=
  let per := rPer v
  let e := rRows v * per
  if bit v 78 then
    (List.range (ceilDiv e (max 1 (fld v 79 16)))).map fun g =>
      (List.range (min (fld v 79 16) (e - g * fld v 79 16))).map (· + g * fld v 79 16)
  else (List.range per).map fun j => (List.range (rRows v)).map fun r => r * per + j

def redCount (v : BitVec 128) : Nat :=
  if bit v 78 then ceilDiv (rRows v * rPer v) (max 1 (fld v 79 16)) else rPer v

/-- RED (R120). An NROWS of 6,145 to 8,191 passes as a field value and traps as a row range beyond row 6,143 (R109; DESIGN CHOICE,
log entry 82). -/
def redInfo (v : BitVec 128) : VInfo :=
  let fl := (ffmt (rType v)).isSome
  let e := rRows v * rPer v
  let o := if rPart v then rRows v else (if fl && fld v 76 2 = 0 then 2 else 1) * ceilDiv e 64
  let nd := rowsOf (redCount v) (if rPart v then 256 else fbits (rFo v))
  { unit := .sfu
    trap := firstTrap [
      (commonOk v && zeroF v 99 29 && fld v 76 2 ≠ 3 && rRows v ≠ 0, trFormat),
      (!bit v 78 || fld v 79 16 ≠ 0, trFormat),
      (!rPart v || (fld v 76 2 = 0 && !bit v 78), trFormat),
      (rPart v || (if sfuFi.floatElem (rType v) && rType v ≠ 3 && rType v ≠ 4 then sfuFi.floatElem (rFo v)
                   else (rType v = 0xD || rType v = 0xE) && (rFo v = 0xD || rFo v = 0xE || rFo v = 6)), trFormat),
      (rowsIn (fld v 32 13) (rRows v) && rowsIn (fld v 58 13) nd, trRow)]
    occ := o, comp := 6 + o + 8
    claims := [readUse 0 (rRows v) o, outUse (6 + o + 8) nd o]
    wAt := [((outUse (6 + o + 8) nd o).cc, outStep nd o, nd)]
    reads := [(fld v 32 13, rRows v)], writes := [(fld v 58 13, nd)] }

/-- An exact sum of codes of a floating TYPE, in an anchored accumulator (R120). -/
def redSum (f : FFmt) (cs : List Nat) : Acc :=
  let own (c : Nat) : Option Int := if numFinite (decFloat f c) then some (ownExp f c) else none
  let a : Int := match maxExp (cs.map own) with | some m => m + 1 | none => 0
  cs.foldl (fun c x => accAdd c (decFloat f x)) { anchor := a }

/-- One result of RED in FO. -/
def redElem (v : BitVec 128) (cs : List Nat) : Nat :=
  match ffmt (rType v) with
  | some f =>
    match fld v 76 2 with
    | 0 => accOut (rFo v) (satBit v) (redSum f cs)
    | k => encElem (rFo v) (satBit v) (fold1 (fn2 (k + 2)) (cs.map (decFloat f)))
  | none =>
    let xs := cs.map fun c => sgn (fbits (rType v)) c
    let r : Int := match fld v 76 2 with
      | 0 => xs.foldl (· + ·) 0
      | 1 => xs.foldl max (xs.headD 0)
      | _ => xs.foldl min (xs.headD 0)
    encElem (rFo v) true (numOfInt r)
where
  fold1 (g : Num → Num → Num) : List Num → Num
    | [] => .fin false 0 0
    | x :: xs => xs.foldl g x

def redEff (s : State) (i : Nat) (v : BitVec 128) (cc : Nat) : VRes :=
  let (s, rs) := readPort s i (fld v 32 13) cc (readUse 0 (rRows v) (redInfo v).occ) (rRows v)
  let w := rowsNat rs
  let p := rowsPsn rs
  let b := if rPart v then 256 else fbits (rType v)
  let out := (redIdx v).map fun idx =>
    let cs := idx.map fun e => seqAt w b e
    let psn := !p.isEmpty && idx.any fun e => bitsPsn p (b * e) b
    if rPart v then
      (match cs with
        | [] => 0
        | c :: r => partOf (r.foldl (fun a x => accJoin a (accOfPart x)) (accOfPart c)), psn)
    else (redElem v cs, psn)
  .done s (atSite i (wrRows (fld v 58 13) (packRows (if rPart v then 256 else fbits (rFo v)) out)))

/-! ### SMAX (R121) -/

def mLen (v : BitVec 128) : Nat := fld v 58 16
def mSegs (v : BitVec 128) : Nat := fld v 74 16
def mFi (v : BitVec 128) : Nat := fld v 90 4
def mFo (v : BitVec 128) : Nat := fld v 94 4

def smaxInfo (v : BitVec 128) : VInfo :=
  let n := mLen v * mSegs v
  let o := 3 * mSegs v * ceilDiv (mLen v) 64
  { unit := .sfu
    trap := firstTrap [
      (commonOk v && zeroF v 98 30, trFormat),
      (mLen v ≠ 0 && sfuFi (mFi v) && sfuFo (mFo v), trFormat),
      (rowsIn (fld v 32 13) (rowsOf n (fbits (mFi v))) && rowsIn (fld v 45 13) (rowsOf n (fbits (mFo v))), trRow)]
    occ := o, comp := 6 + o + 40
    claims := [readUse 0 (rowsOf n (fbits (mFi v))) o, outUse (6 + o + 40) (rowsOf n (fbits (mFo v))) o]
    wAt := [((outUse (6 + o + 40) (rowsOf n (fbits (mFo v))) o).cc, outStep (rowsOf n (fbits (mFo v))) o, rowsOf n (fbits (mFo v)))]
    reads := [(fld v 32 13, rowsOf n (fbits (mFi v)))], writes := [(fld v 45 13, rowsOf n (fbits (mFo v)))] }

def smaxEff (s : State) (i : Nat) (v : BitVec 128) (cc : Nat) : VRes :=
  let b := fbits (mFi v)
  let n := rowsOf (mLen v * mSegs v) b
  let (s, rs) := readPort s i (fld v 32 13) cc (readUse 0 n (smaxInfo v).occ) n
  let w := rowsNat rs
  let p := rowsPsn rs
  let out := ((List.range (mSegs v)).map fun g =>
    let xs := (List.range (mLen v)).map fun e => asFp32 (mFi v) (seqAt w b (g * mLen v + e))
    let psn := !p.isEmpty && bitsPsn p (b * g * mLen v) (b * mLen v)
    (softmax xs).map fun c => (encElem (mFo v) (satBit v) (decFloat fp32 c), psn)).flatten
  let p := sfuDone s i (fbits (mFo v)) out
  .done p.1 (atSite i (wrRows (fld v 45 13) (packFill (Config.tailByte 0x0A) (fbits (mFo v)) p.2)))

/-! ### CAST (R122) -/

def castN (v : BitVec 128) : Nat := fld v 58 20
def cFi (v : BitVec 128) : Nat := fld v 78 4
def cFo (v : BitVec 128) : Nat := fld v 82 4
def cScale (v : BitVec 128) : Bool := bit v 86
def cMode (v : BitVec 128) : Nat := fld v 87 2
def cMajor (v : BitVec 128) : Bool := bit v 103

/-- Slices of a format (R98). -/
def slices (fi : Nat) : Nat := if fi = 0xB then 8 else 4

def castSrc (v : BitVec 128) : Nat :=
  match cMode v with
  | 0 => if cScale v then Panel.rows ⟨cFi v, false, cMajor v, castN v / 64⟩ else rowsOf (castN v) (fbits (cFi v))
  | 1 => 64 * rowsOf (castN v) (fbits (cFi v))
  | _ => ceilDiv (castN v) 16

/-- Rows of the elements written, and of the scales after them. -/
def castDst (v : BitVec 128) : Nat :=
  match cMode v with
  | 0 => if cScale v then Panel.rows ⟨cFo v, false, cMajor v, castN v / 64⟩ else rowsOf (castN v) (fbits (cFo v))
  | 1 => slices (cFi v) * ceilDiv (castN v) 8
  | _ => rowsOf (castN v) (fbits (cFo v))

def castScaleRows (v : BitVec 128) : Nat := if cScale v then ceilDiv (castN v / 64 * 2) 512 else 0

/-- CAST (R122). With CMODE SLICE the elements have no output format and FO is not looked at (DESIGN CHOICE, log entry 82). -/
def castInfo (v : BitVec 128) : VInfo :=
  let o := match cMode v with | 0 => ceilDiv (castN v) 64 | 1 => 2 * castN v | _ => ceilDiv (castN v) 16
  let nd := castDst v + castScaleRows v
  let sg := if cMode v = 1 then 1 else 0
  { unit := .sfu
    trap := firstTrap [
      (commonOk v && zeroF v 104 24 && cMode v ≠ 3 && (cScale v || !cMajor v), trFormat),
      (!cScale v || (cMode v = 0 && decide (cFo v ≤ 5) && castN v % 2048 = 0), trFormat),
      (match cMode v with
        | 0 => cFi v ≠ 5 && cFi v ≠ 0xC && cFi v ≠ 0xF && (cFo v ≠ 5 || cScale v) && cFo v ≠ 0xC && cFo v ≠ 0xF
        | 1 => cFi v = 0xA || cFi v = 0xB
        | _ => cFi v = 0xF && (floatElem6 (cFo v) || cFo v = 0xD), trFormat),
      (rowsIn (fld v 32 13) (castSrc v) && rowsIn (fld v 45 13) nd && (cMode v ≠ 1 || rowsIn (fld v 89 13) 1), trRow)]
    occ := o, comp := 6 + o + 4
    claims := [readUse 0 (castSrc v) o, outUse (6 + o + 4) (nd + sg) o]
    wAt := [((outUse (6 + o + 4) (nd + sg) o).cc, outStep (nd + sg) o, nd), (6 + o + 4 - 1, 0, 16 * sg)]
    reads := [(fld v 32 13, castSrc v)]
    writes := (fld v 45 13, nd) ::
      (if cMode v = 1 && !(decide (fld v 45 13 ≤ fld v 89 13) && decide (fld v 89 13 < fld v 45 13 + nd))
       then [(fld v 89 13, 1)] else []) }
where
  floatElem6 (c : Nat) : Bool := c = 0xB || c = 0xA || c = 8 || c = 9 || c = 3 || c = 4

/-- CONVERT without scales. -/
def castPlain (v : BitVec 128) (w : Nat) (p : List Nat) : List Wr :=
  let b := fbits (cFi v)
  wrRows (fld v 45 13) (packFill (Config.tailByte 0x11) (fbits (cFo v)) ((List.range (castN v)).map fun e =>
    (encElem (cFo v) (satBit v) (decElem (cFi v) (seqAt w b e)), bitsPsn p (b * e) b)))

/-- One block of CONVERT with scales: its 32 values and whether a lane of them is poisoned (R97). -/
def castBlock (v : BitVec 128) (w : Nat) (p : List Nat) (line β : Nat) : List Num × Bool :=
  let pan : Panel := ⟨cFi v, false, cMajor v, castN v / 64⟩
  let b := fbits (cFi v)
  ((List.range 32).map fun k => decElem (cFi v) (fldN w (pan.pos line (32 * β + k)) b),
   !p.isEmpty && (List.range 32).any fun k => bitsPsn p (pan.pos line (32 * β + k)) b)

/-- CONVERT with scales (R97, R111, R122). -/
def castScaled (v : BitVec 128) (w : Nat) (p : List Nat) : List Wr :=
  let k := castN v / 64
  let blocks := (List.range 64).map fun i => (List.range (k / 32)).map fun β =>
    let (xs, psn) := castBlock v w p i β
    let sc := mxScale (cFo v) xs
    (sc, xs.map (mxElem (cFo v) sc), psn)
  let at_ (i β : Nat) : Nat × List Nat × Bool := ((blocks[i]?.getD [])[β]?).getD (0, [], false)
  let elem (i n : Nat) : Nat × Bool := ((at_ i (n / 32)).2.1[n % 32]?.getD 0, (at_ i (n / 32)).2.2)
  let fill := Config.tailByte 0x11
  let els := if cMajor v then
      ((List.range 64).map fun i => packFill fill (fbits (cFo v)) ((List.range k).map (elem i))).flatten
    else packFill fill (fbits (cFo v)) ((List.range (64 * k)).map fun e => elem (e % 64) (e / 64))
  let scs := packFill fill 8 ((List.range (2 * k)).map fun e => ((at_ (e % 64) (e / 64)).1, (at_ (e % 64) (e / 64)).2.2))
  wrRows (fld v 45 13) (els ++ scs)

/-- σ of a row, and the slices of an element under it (R98). -/
def sigmaOf (xs : List Num) : Int :=
  if xs.any (fun x => !numFinite x) then 0x7FFF
  else match maxExp (xs.map fun x => match x with
      | .fin _ m e => if m = 0 then none else some (floorLog m 1 e)
      | _ => none) with
    | some t => t + 1
    | none => 0

def sliceOf (sig : Int) (m : Nat) (x : Num) : Nat :=
  match x with
  | .fin neg a e =>
    if sig = 0x7FFF then 0
    else
      let d := shl a (e - sig + 7 * m) % 128
      ofInt 8 (if neg then -(d : Int) else d)
  | _ => 0

/-- SLICE (R98, R122). -/
def castSliced (v : BitVec 128) (w : Nat) (p : List Nat) : List Wr :=
  let k := castN v
  let b := fbits (cFi v)
  let pan : Panel := ⟨cFi v, false, true, k⟩
  let lines := (List.range 64).map fun i => (List.range k).map fun n => decElem (cFi v) (fldN w (pan.pos i n) b)
  let sig := lines.map sigmaOf
  let bad := (List.range 64).filter (pan.linePsn p)
  let plane (m : Nat) := packFill (Config.tailByte 0x11) 8 ((List.range (64 * k)).map fun e =>
    (sliceOf (sig[e % 64]?.getD 0) m ((lines[e % 64]?.getD [])[e / 64]?.getD (.fin false 0 0)), bad.contains (e % 64)))
  let words := (List.range 16).map fun n =>
    Wr.word (fld v 89 13) (16 * b2n (bit v 102) + n)
      (packN 16 ((List.range 4).map fun j => ofInt 16 (sig[4 * n + j]?.getD 0)))
      ((List.range 4).any fun j => bad.contains (4 * n + j))
  wrRows (fld v 45 13) ((List.range (slices (cFi v))).map fun m => plane (m + 1)).flatten ++ words

/-- FINALIZE (R88 to R91, R122). -/
def castFinal (v : BitVec 128) (w : Nat) (p : List Nat) : List Wr :=
  wrRows (fld v 45 13) (packFill (Config.tailByte 0x11) (fbits (cFo v)) ((List.range (castN v)).map fun e =>
    (accOut (cFo v) (satBit v) (accOfPart (seqAt w 256 e)), bitsPsn p (256 * e) 256)))

def castEff (s : State) (i : Nat) (v : BitVec 128) (cc : Nat) : VRes :=
  let (s, rs) := readPort s i (fld v 32 13) cc (readUse 0 (castSrc v) (castInfo v).occ) (castSrc v)
  let w := rowsNat rs
  let p := rowsPsn rs
  .done s (atSite i (match cMode v with
    | 0 => if cScale v then castScaled v w p else castPlain v w p
    | 1 => castSliced v w p
    | _ => castFinal v w p))

/-- SFU (R117, R118). -/
def execSfu (site : SiteId) (slot : Fin 8192) (v : BitVec 128) (s : State) : Host.Outcome State Fault Refusal :=
  .next (schedule (sfuInfo v) sfuEff s site slot v)

/-- SFU with FUNC RAND (R119). -/
def execRand (site : SiteId) (slot : Fin 8192) (v : BitVec 128) (s : State) : Host.Outcome State Fault Refusal :=
  .next (schedule (sfuInfo v) sfuEff s site slot v)

/-- RED (R120). -/
def execRed (site : SiteId) (slot : Fin 8192) (v : BitVec 128) (s : State) : Host.Outcome State Fault Refusal :=
  .next (schedule (redInfo v) redEff s site slot v)

/-- SMAX (R121). -/
def execSmax (site : SiteId) (slot : Fin 8192) (v : BitVec 128) (s : State) : Host.Outcome State Fault Refusal :=
  .next (schedule (smaxInfo v) smaxEff s site slot v)

/-- CAST CONVERT (R122). -/
def execCastConvert (site : SiteId) (slot : Fin 8192) (v : BitVec 128) (s : State) :
    Host.Outcome State Fault Refusal :=
  .next (schedule (castInfo v) castEff s site slot v)

/-- CAST SLICE (R122). -/
def execCastSlice (site : SiteId) (slot : Fin 8192) (v : BitVec 128) (s : State) :
    Host.Outcome State Fault Refusal :=
  .next (schedule (castInfo v) castEff s site slot v)

/-- CAST FINALIZE (R122). -/
def execCastFinalize (site : SiteId) (slot : Fin 8192) (v : BitVec 128) (s : State) :
    Host.Outcome State Fault Refusal :=
  .next (schedule (castInfo v) castEff s site slot v)

end Sys2Proof.Machine
end

