-- ==== Sys2Proof/Machine/MemVerbs.lean ====
section
/-! DEFINITION. The memory-side verbs CCOUNT and CHECK, NOP, reserved verb codes, and the start of dynamic verbs
(spec/05_tile_commands.md R104 to R108, R131 to R134, R144; spec/11_audit_and_replay.md R308 to R310). -/

namespace Sys2Proof.Machine
open Sys2Proof

/-! ### CCOUNT (R131) -/

def cc131N (v : BitVec 128) : Nat := fld v 45 20
def cc131Type (v : BitVec 128) : Nat := fld v 65 4
def cc131Src (v : BitVec 128) : Nat := fld v 123 3

def ccountInfo (v : BitVec 128) : VInfo :=
  let ty := cc131Type v
  let n := rowsOf (cc131N v) (fbits ty)
  { unit := .memory, occ := n, comp := 6 + n + 2
    claims := [⟨0, if cc131Src v = 0 then n else 0, 1, 1, 0⟩, ⟨6 + n + 1, 1, 1, 0, 1⟩]
    reads := if cc131Src v = 0 then [(fld v 32 13, n)] else []
    writes := [(fld v 104 13, 1)]
    trap := firstTrap [
      (commonOk v && zeroF v 126 2 && (ty = 3 || ty = 4 || ty = 6 || ty = 0xD || ty = 8) && decide (fld v 69 3 ≤ 5) &&
        srcOk (cc131Src v), trFormat),
      ((cc131Src v ≠ 0 || rowsIn (fld v 32 13) n) && rowsIn (fld v 104 13) 1, trRow)] }

/-- x COP VAL: a NaN satisfies NE only. -/
def ccHolds (cop : Nat) (x y : Num) : Bool :=
  if numIsNan x || numIsNan y then cop = 1
  else match cop with
  | 0 => numEq x y
  | 1 => !numEq x y
  | 2 => numLe x y && !numEq x y
  | 3 => numLe x y || numEq x y
  | 4 => numLe y x && !numEq x y
  | _ => numLe y x || numEq x y

def ccountEff (s : State) (i : Nat) (v : BitVec 128) (cc : Nat) : VRes :=
  let b := fbits (cc131Type v)
  match srcRows s i (cc131Src v) (fld v 32 13) cc ⟨0, rowsOf (cc131N v) b, 1, 1, 0⟩ (rowsOf (cc131N v) b) with
  | none => .wait s [] 0 (waitRows (tileOf s i) (cc131Src v - 4) 1 3)
  | some (s, rs) =>
    let w := rowsNat rs
    let psn := rowsPsn rs
    let y := decElem (cc131Type v) (fldN (fld v 72 32) 0 b)
    let es := (List.range (cc131N v)).filter fun e => byteValid rs (b * e / 8)
    let n := (es.filter fun e => ccHolds (fld v 69 3) (decElem (cc131Type v) (seqAt w b e)) y).length
    .done s (atSite i [.word (fld v 104 13) (fld v 117 6) (n % 2 ^ 32) (es.any fun e => bitsPsn psn (b * e) b)])

/-- CCOUNT (R131). -/
def execCcount (site : SiteId) (slot : Fin 8192) (v : BitVec 128) (s : State) : Host.Outcome State Fault Refusal :=
  .next (schedule (ccountInfo v) ccountEff s site slot v)

/-! ### CHECK (R132, R310) -/

def chkMode (v : BitVec 128) : Nat := fld v 32 2
def chkX (v : BitVec 128) : Nat := fld v 34 13
def chkY (v : BitVec 128) : Nat := fld v 47 13
def chkN (v : BitVec 128) : Nat := fld v 60 13

def checkInfo (v : BitVec 128) : VInfo :=
  let n := chkN v
  let o := if chkMode v = 0 then 2 else n
  { unit := .memory, occ := o, comp := 6 + o + 2
    claims := [⟨0, o, 1, if chkMode v = 2 then 1 else 2, 0⟩]
    reads := match chkMode v with
      | 0 => [(chkX v + n, 8)]
      | 1 => [(chkX v, n), (chkY v, n)]
      | _ => [(chkX v, n)]
    trap := firstTrap [
      (commonOk v && zeroF v 73 55 && chkMode v ≠ 3, trFormat),
      (match chkMode v with
        | 0 => rowsIn (chkX v) (n + 8)
        | 1 => rowsIn (chkX v) n && rowsIn (chkY v) n
        | _ => rowsIn (chkX v) n, trRow)] }

/-- Entries of one pair of checksum rows agree, an entry with SKIP on either side ignored. -/
def sumsAgree (p o : Nat) : Bool :=
  (List.range 64).all fun j =>
    let a := seqAt p 64 j
    let b := seqAt o 64 j
    fldN a 63 1 = 1 || fldN b 63 1 = 1 || a = b

def checkEff (s : State) (i : Nat) (v : BitVec 128) (cc : Nat) : VRes :=
  match chkMode v with
  | 0 =>
    let (s, ps) := readRows s i (chkX v + chkN v) cc 1 2
    let (s, os) := readRows s i (chkX v + chkN v + 2) cc 1 2
    let rs := ps ++ os
    let w := rowsNat rs
    let row (k : Nat) : Nat := fldN w (4096 * k) 4096
    let s := if (rowsPsn rs).isEmpty then s else failCheck s i mechPoison
    if !(tileOf s i).spm.unsummed.contains (chkX v + chkN v) && sumsAgree (row 0) (row 2) && sumsAgree (row 1) (row 3)
    then .done s []
    else .done (failCheck s i mechCsum) []
  | 1 =>
    let (s, xs) := readRows s i (chkX v) cc 1 (chkN v)
    let (s, ys) := readRows s i (chkY v) cc 1 (chkN v)
    let s := if (rowsPsn xs).isEmpty && (rowsPsn ys).isEmpty then s else failCheck s i mechPoison
    .done (if xs.map (·.bytes) = ys.map (·.bytes) then s else failCheck s i mechCmp) []
  | _ =>
    let (s, xs) := readRows s i (chkX v) cc 1 (chkN v)
    .done (if (rowsPsn xs).isEmpty then s else failCheck s i mechPoison) []

/-- CHECK in mode CSUM (R132, R310). -/
def execCheckCsum (site : SiteId) (slot : Fin 8192) (v : BitVec 128) (s : State) : Host.Outcome State Fault Refusal :=
  .next (schedule (checkInfo v) checkEff s site slot v)

/-- CHECK in mode CMP (R132). -/
def execCheckCmp (site : SiteId) (slot : Fin 8192) (v : BitVec 128) (s : State) : Host.Outcome State Fault Refusal :=
  .next (schedule (checkInfo v) checkEff s site slot v)

/-- CHECK in mode POISON (R132). -/
def execCheckPoison (site : SiteId) (slot : Fin 8192) (v : BitVec 128) (s : State) :
    Host.Outcome State Fault Refusal :=
  .next (schedule (checkInfo v) checkEff s site slot v)

/-! ### NOP and reserved codes -/

def nopInfo (v : BitVec 128) : VInfo :=
  { unit := .none, occ := 0, comp := 0, trap := firstTrap [(commonOk v && zeroF v 32 96, trFormat)] }

def nopEff (s : State) (_ : Nat) (_ : BitVec 128) (_ : Nat) : VRes := .done s []

/-- NOP (R133). -/
def execNop (site : SiteId) (slot : Fin 8192) (v : BitVec 128) (s : State) : Host.Outcome State Fault Refusal :=
  .next (schedule (nopInfo v) nopEff s site slot v)

def reservedInfo : VInfo := { unit := .none, occ := 0, comp := 0, trap := some trReserved }

/-- A verb with a reserved or unassigned code (R9, R144). -/
def execReservedVerb (site : SiteId) (slot : Fin 8192) (v : BitVec 128) (s : State) :
    Host.Outcome State Fault Refusal :=
  .next (schedule reservedInfo nopEff s site slot v)

/-! ### All verbs by their code (R9, R104, R105) -/

/-- What is fixed about a verb by its code. The chapter names no verb as new after level 2.0, so each stands at every level a
host may declare and R144 gates none (DESIGN CHOICE, log entry 82). -/
def verbInfo (v : BitVec 128) : VInfo :=
  match fld v 0 8 with
  | 0x01 => mmaInfo false v
  | 0x02 => mmaInfo true v
  | 0x03 => mmaXInfo v
  | 0x08 => sfuInfo v
  | 0x09 => redInfo v
  | 0x0A => smaxInfo v
  | 0x11 => castInfo v
  | 0x10 => movInfo v
  | 0x18 => chanInfo false v
  | 0x19 => chanInfo true v
  | 0x20 => steerInfo v
  | 0x28 => ccountInfo v
  | 0x30 => checkInfo v
  | 0x3F => nopInfo v
  | _ => reservedInfo

def verbEff (s : State) (i : Nat) (v : BitVec 128) (cc : Nat) : VRes :=
  match fld v 0 8 with
  | 0x01 => mmaEff false s i v cc
  | 0x02 => mmaEff true s i v cc
  | 0x03 => mmaXEff s i v cc
  | 0x08 => sfuEff s i v cc
  | 0x09 => redEff s i v cc
  | 0x0A => smaxEff s i v cc
  | 0x11 => castEff s i v cc
  | 0x10 => movEff s i v cc
  | 0x18 => sendEff s i v cc
  | 0x19 => recvEff s i v cc
  | 0x20 => steerEff s i v cc
  | 0x28 => ccountEff s i v cc
  | 0x30 => checkEff s i v cc
  | _ => nopEff s i v cc

/-- The verb at the head of the dynamic queue starts (R107). -/
def execDynamicVerbStart (site : SiteId) (cc : Nat) (s : State) : Host.Outcome State Fault Refusal :=
  .next (startDynamic verbInfo verbEff s site cc)

end Sys2Proof.Machine
end

