-- ==== Sys2Proof/Machine/Scalar.lean ====
section
/-! DEFINITION. The scalar core and the narrow slots (spec/05_tile_commands.md R135 to R140;
spec/06_scratchpad.md R147, R148, R155, R160 to R165). -/

namespace Sys2Proof.Machine
open Sys2Proof

/-! ### Fields and registers -/

def opRd (w : BitVec 32) : Nat := fld w 17 5
def opRa (w : BitVec 32) : Nat := fld w 12 5
def opRb (w : BitVec 32) : Nat := fld w 7 5
def opFn (w : BitVec 32) : Nat := fld w 0 7
def imm12 (w : BitVec 32) : Nat := fld w 0 12
def sImm12 (w : BitVec 32) : BitVec 64 := (BitVec.ofNat 12 (imm12 w)).signExtend 64
def zImm12 (w : BitVec 32) : BitVec 64 := BitVec.ofNat 64 (imm12 w)
def sImm17 (w : BitVec 32) : BitVec 64 := (BitVec.ofNat 17 (fld w 0 17)).signExtend 64
def sOff22 (w : BitVec 32) : BitVec 64 := (BitVec.ofNat 22 (fld w 0 22)).signExtend 64

/-- g0 reads zero (R65). -/
def gReg (t : Tile) (r : Nat) : BitVec 64 := if r = 0 then 0 else SMap.get 0 t.core.g r

def setG (t : Tile) (r : Nat) (v : BitVec 64) : Tile :=
  if r = 0 then t else { t with core := { t.core with g := SMap.put 0 t.core.g r v } }

/-- p0 reads true (R135). -/
def pReg (t : Tile) (p : Nat) : Bool := p = 0 || bit t.core.pred p

def setP (t : Tile) (p : Nat) (b : Bool) : Tile :=
  if p = 0 then t else
  let m : BitVec 8 := BitVec.ofNat 8 (2 ^ p)
  { t with core := { t.core with pred := if b then t.core.pred ||| m else t.core.pred &&& ~~~m } }

/-- The guard of an instruction (R136). -/
def guardOk (t : Tile) (w : BitVec 32) : Bool := pReg t (fld w 28 3) ≠ bit w 31

def nextPc (t : Tile) : Tile := { t with core := { t.core with pc := t.core.pc + 1 } }
def goPc (t : Tile) (v : BitVec 64) : Tile := { t with core := { t.core with pc := v.toNat } }
def pcWord (t : Tile) : BitVec 64 := BitVec.ofNat 64 t.core.pc

/-- The core executes: its tile is in a work, replay or grace beat and END has not been reached (R135). -/
def coreRuns (t : Tile) : Bool := !t.stopped && (t.st = .running || t.st = .replay) && !t.core.ended

/-- One instruction: pc and decoding checks, then the guard, then its effect (R136, R138); on a tile under test none executes
in the sideshow window (R317). -/
def scalarOp (s : State) (i : Nat) (w : BitVec 32) (ok : Bool) (run : State → State) : State :=
  let t := tileOf s i
  if !coreRuns t || halts s (siteRing i) || coreHeld s i (beatCc s) then s
  else if t.badParity.contains (2 ^ 16 + t.core.pc) then trapTile s i trParity .scalar
  else if 16384 ≤ t.core.pc || !ok then trapTile s i trIllegal .scalar
  else if !guardOk t w then setTile s i (nextPc t)
  else run s

/-- An instruction that computes rd. -/
def scalarRd (s : State) (i : Nat) (w : BitVec 32) (ok : Bool) (f : Tile → BitVec 64) : State :=
  scalarOp s i w ok fun s => modTile s i fun t => nextPc (setG t (opRd w) (f t))

/-! ### Arithmetic, logic and predicates -/

/-- FN of ALU (R137). -/
def aluFn (fn : Nat) (a b : BitVec 64) : BitVec 64 :=
  let sh := fld b 0 6
  match fn with
  | 0 => a + b
  | 1 => a - b
  | 2 => a &&& b
  | 3 => a ||| b
  | 4 => a ^^^ b
  | 5 => a <<< sh
  | 6 => a >>> sh
  | 7 => a.sshiftRight sh
  | 8 => a * b
  | 9 => BitVec.ofNat 64 (a.toNat * b.toNat / 2 ^ 64)
  | 10 => if a.slt b then a else b
  | 11 => if a.slt b then b else a
  | 12 => if a.ult b then a else b
  | _ => if a.ult b then b else a

/-- COND of CMP (R137). -/
def cmpCond (c : Nat) (a b : BitVec 64) : Bool :=
  match c with
  | 0 => a = b
  | 1 => a ≠ b
  | 2 => a.slt b
  | 3 => a.sle b
  | 4 => a.ult b
  | _ => a.ule b

/-- POP of PLOG (R137). -/
def popOp (p : Nat) (a b : Bool) : Bool :=
  match p with
  | 0 => a && b
  | 1 => a || b
  | 2 => a != b
  | _ => a && !b

/-- ALU. -/
def execAlu (site : SiteId) (w : BitVec 32) (s : State) : Host.Outcome State Fault Refusal :=
  .next (scalarRd s site w (decide (opFn w ≤ 13)) fun t => aluFn (opFn w) (gReg t (opRa w)) (gReg t (opRb w)))

/-- ADDI. -/
def execAddi (site : SiteId) (w : BitVec 32) (s : State) : Host.Outcome State Fault Refusal :=
  .next (scalarRd s site w true fun t => gReg t (opRa w) + sImm12 w)

/-- ANDI. -/
def execAndi (site : SiteId) (w : BitVec 32) (s : State) : Host.Outcome State Fault Refusal :=
  .next (scalarRd s site w true fun t => gReg t (opRa w) &&& zImm12 w)

/-- ORI. -/
def execOri (site : SiteId) (w : BitVec 32) (s : State) : Host.Outcome State Fault Refusal :=
  .next (scalarRd s site w true fun t => gReg t (opRa w) ||| zImm12 w)

/-- XORI. -/
def execXori (site : SiteId) (w : BitVec 32) (s : State) : Host.Outcome State Fault Refusal :=
  .next (scalarRd s site w true fun t => gReg t (opRa w) ^^^ zImm12 w)

/-- SHLI. -/
def execShli (site : SiteId) (w : BitVec 32) (s : State) : Host.Outcome State Fault Refusal :=
  .next (scalarRd s site w true fun t => gReg t (opRa w) <<< fld w 0 6)

/-- SHRI. -/
def execShri (site : SiteId) (w : BitVec 32) (s : State) : Host.Outcome State Fault Refusal :=
  .next (scalarRd s site w true fun t => gReg t (opRa w) >>> fld w 0 6)

/-- SRAI. -/
def execSrai (site : SiteId) (w : BitVec 32) (s : State) : Host.Outcome State Fault Refusal :=
  .next (scalarRd s site w true fun t => (gReg t (opRa w)).sshiftRight (fld w 0 6))

/-- LUI. -/
def execLui (site : SiteId) (w : BitVec 32) (s : State) : Host.Outcome State Fault Refusal :=
  .next (scalarRd s site w true fun _ => sImm17 w <<< 12)

/-- CMP: format C, whose bits [18:17] are Reserved. -/
def execCmp (site : SiteId) (w : BitVec 32) (s : State) : Host.Outcome State Fault Refusal :=
  .next (scalarOp s site w (fld w 17 2 = 0 && decide (opFn w ≤ 5)) fun s => modTile s site fun t =>
    nextPc (setP t (fld w 19 3) (cmpCond (opFn w) (gReg t (opRa w)) (gReg t (opRb w)))))

/-- PLOG: format P, whose bits [10:0] are Reserved. -/
def execPlog (site : SiteId) (w : BitVec 32) (s : State) : Host.Outcome State Fault Refusal :=
  .next (scalarOp s site w (fld w 0 11 = 0) fun s => modTile s site fun t =>
    nextPc (setP t (fld w 19 3) (popOp (fld w 11 2) (pReg t (fld w 16 3)) (pReg t (fld w 13 3)))))

/-! ### Narrow memory (R138, R140, R155, R160) -/

/-- Number of 64-bit words of a scratchpad. -/
def narrowWords : Nat := 393216

/-- LD waits while its row lies in a held entry; ST while a queued or running dynamic verb reads or writes it, one of the
flyer's fused engine in its catcher too (R74). -/
def ldWaits (t : Tile) (row : Nat) : Bool := boardHit t none [(row, 1)]
def stWaits (s : State) (i row : Nat) : Bool :=
  let hits (rs : List (Nat × Nat)) : Bool := rs.any fun r => overlap r (row, 1)
  (tileOf s i).dynQ.any (fun d => hits (d.reads ++ d.writes)) ||
  ((tileOf s i).role = 2 && (tileOf s (i - 9)).dynQ.any fun d =>
    (fused s (i - 9) (verbInfo d.verb).unit).isSome && hits ((verbInfo d.verb).pairReads ++ d.writes))

/-- A slot that an LD or ST may take (R148): cc is a narrow slot, none that the scrubber always owns, and not taken. -/
def coreSlot (t : Tile) (cc : Nat) : Bool := cc % 4 = 0 && cc % 64 ≠ 60 && decide (t.core.slotAt ≠ some cc)

def takeSlot (s : State) (i cc : Nat) : State :=
  modTile s i fun t => { t with core := { t.core with slotAt := some cc } }

/-- LD of narrow word `n` in its slot: a poisoned word returns zero and fails the audit. -/
def loadWord (s : State) (i n cc : Nat) : State × BitVec 64 :=
  let row := n / 64
  let w := n % 64
  let q := readRowIn s i row cc
  let bad := q.2.psn.contains w
  let new := bad && (match oldRow (tileOf s i) row cc with
    | some o => o.counted.contains w
    | none => (countedPoison s i row).contains w)
  let cnt := sat 32 ((tileOf s i).poisonCnt + b2n new)
  let v := if bad then 0 else BitVec.ofNat 64 (leNat ((q.2.bytes.drop (8 * w)).take 8))
  let s := modTile q.1 i fun t => { t with poisonCnt := cnt }
  (if bad then failCheck s i mechPoison else s, v)

/-- LD in the narrow slot at cc; where that is no slot of the core's, it stalls (R148). -/
def execLd (site : SiteId) (x : NarrowOp) (s : State) : Host.Outcome State Fault Refusal :=
  .next (scalarOp s site x.w true fun s =>
    let s := pruneAt s site x.cc
    let t := tileOf s site
    let n := (gReg t (opRa x.w) + sImm12 x.w).toNat
    if narrowWords ≤ n then trapTile s site trNarrow .scalar
    else if ldWaits t (n / 64) || !coreSlot t x.cc || coreHeld s site x.cc then s
    else
      let p := loadWord s site n x.cc
      modTile (takeSlot p.1 site x.cc) site fun t => nextPc (setG t (opRd x.w) p.2))

/-- ST in the narrow slot at cc; a store into the carry copy that the beat only reads traps (R62). -/
def execSt (site : SiteId) (x : NarrowOp) (s : State) : Host.Outcome State Fault Refusal :=
  .next (scalarOp s site x.w true fun s =>
    let s := pruneAt s site x.cc
    let t := tileOf s site
    let n := (gReg t (opRa x.w) + sImm12 x.w).toNat
    if narrowWords ≤ n then trapTile s site trNarrow .scalar
    else if stWaits s site (n / 64) || !coreSlot t x.cc || coreHeld s site x.cc then s
    else if carryBroken t (n / 64) 1 then trapTile s site trCarry .scalar
    else modTile (takeSlot (writeWordAt s site (n / 64) (n % 64) x.cc true (gReg t (opRd x.w)).toNat false) site x.cc) site nextPc)

/-! ### Jumps -/

/-- BR: format B. -/
def execBr (site : SiteId) (w : BitVec 32) (s : State) : Host.Outcome State Fault Refusal :=
  .next (scalarOp s site w true fun s => modTile s site fun t => goPc t (pcWord t + sOff22 w))

/-- JAL. -/
def execJal (site : SiteId) (w : BitVec 32) (s : State) : Host.Outcome State Fault Refusal :=
  .next (scalarOp s site w true fun s => modTile s site fun t =>
    goPc (setG t (opRd w) (pcWord t + 1)) (pcWord t + sImm17 w))

/-- JR. -/
def execJr (site : SiteId) (w : BitVec 32) (s : State) : Host.Outcome State Fault Refusal :=
  .next (scalarOp s site w true fun s => modTile s site fun t => goPc t (gReg t (opRa w)))

/-! ### Channels (R139) -/

/-- Format CH: bits [11:0] are Reserved. -/
def chOk (w : BitVec 32) : Bool := fld w 0 12 = 0

/-- SEND of g[r] to g[r + 3], blocking. -/
def execScalarSend (site : SiteId) (w : BitVec 32) (s : State) : Host.Outcome State Fault Refusal :=
  .next (scalarOp s site w (chOk w) fun s =>
    let t := tileOf s site
    let r := opRd w
    if 28 < r then trapTile s site trReg .scalar
    else match chanSend s site (opRa w) (packN 64 ((List.range 4).map fun k => (gReg t (r + k)).toNat)) with
      | .sent s => clearWait (modTile s site nextPc) site 0
      | .closed s => clearWait (modTile s site nextPc) site 0
      | .block => setWait s site (waitSend t (opRa w) 0 1)
      | .format => trapTile s site trFormat .scalar)

/-- RECV into g[r] to g[r + 3], blocking. -/
def execScalarRecv (site : SiteId) (w : BitVec 32) (s : State) : Host.Outcome State Fault Refusal :=
  .next (scalarOp s site w (chOk w) fun s =>
    let r := opRd w
    if 28 < r then trapTile s site trReg .scalar
    else match chanRecv s site (opRa w) with
      | none => setWait s site (waitRecv (tileOf s site) (opRa w) 0 2)
      | some (s, d) =>
        let put (t : Tile) (k : Nat) : Tile := setG t (r + k) (BitVec.ofNat 64 (fld d (64 * k) 64))
        clearWait (modTile s site fun t => nextPc ((List.range 4).foldl put t)) site 0)

/-- QLEN. -/
def execQlen (site : SiteId) (w : BitVec 32) (s : State) : Host.Outcome State Fault Refusal :=
  .next (scalarRd s site w (chOk w) fun t => BitVec.ofNat 64 (recvOf t (opRa w)).queue.length)

/-! ### Dynamic verbs (R108, R140, R141, R163, R164) -/

/-- Lowest numbers in 0 to 15 without a property. -/
def freeNos (used : Nat → Bool) : List Nat := (List.range 16).filter fun k => !used k

/-- Hold an entry for each written range. -/
def holdEntries (t : Tile) (tag : Nat) (ws : List (Nat × Nat)) : Tile :=
  let es := (List.zip (freeNos fun k => t.sb.any fun p => p.1 = k) ws).map fun (k, r) =>
    (k, ({ first := r.1, last := r.1 + r.2 - 1, tag := tag } : SbEntry))
  { t with sb := es.foldl (fun m e => SMap.insert m e.1 e.2) t.sb }

def entryRoom (t : Tile) (n : Nat) : Bool := decide (n ≤ (freeNos fun k => t.sb.any fun p => p.1 = k).length)

/-- Tag of a new verb: of the 16 allocation tags the lowest that holds no entry; a verb that takes no entry has no
allocation tag, and the model numbers it from 16 on. -/
def newTag (t : Tile) (writes : Bool) : Nat :=
  let used (k : Nat) : Bool := t.sb.any (fun p => p.2.tag = k) || t.dynQ.any fun d => d.tag = k
  (((List.range 64).find? fun k => !used k && (if writes then decide (k < 16) else decide (16 ≤ k)))).getD 15

/-- Push a verb: its checks, then room in the queue and free scoreboard entries, of the catcher too for a verb of a fused
engine (R74). -/
def issueVerb (s : State) (i : Nat) (v : BitVec 128) : State :=
  let t := tileOf s i
  let x := verbInfo v
  match (match x.trap with | some c => some c | none => if x.never then some trDyn else none) with
  | some c => trapTile s i c .issue
  | none =>
    let ws := x.writes.filter fun r => r.2 ≠ 0
    let pair := fused s i x.unit
    let pairRoom := match pair with | some j => entryRoom (tileOf s j) ws.length | none => true
    if 16 ≤ (t.dynQ.filter fun d => d.done.isNone).length || !entryRoom t ws.length || !pairRoom then
      setWait s i { vtile := t.vtile.toNat, vfield := t.vfield.toNat, vring := t.vring.toNat, unit := 0, kind := 1 }
    else
      let tag := newTag t (!ws.isEmpty)
      let s := match pair with | some j => modTile s j fun t => holdEntries t (pairTag tag) ws | none => s
      clearWait (modTile s i fun t => nextPc { holdEntries t tag ws with
        dynQ := t.dynQ ++ [{ verb := v, tag := tag, writes := ws, reads := x.reads }] }) i 0

/-- ISSUE. -/
def execIssue (site : SiteId) (w : BitVec 32) (s : State) : Host.Outcome State Fault Refusal :=
  .next (scalarOp s site w true fun s =>
    let t := tileOf s site
    let ra := opRa w
    if ra % 2 = 1 then trapTile s site trReg .scalar
    else issueVerb s site (BitVec.ofNat 128 ((gReg t ra).toNat + (gReg t (ra + 1)).toNat * 2 ^ 64)))

/-- SBWAIT: the core stays at the instruction while more entries are held. -/
def execSbwait (site : SiteId) (w : BitVec 32) (s : State) : Host.Outcome State Fault Refusal :=
  .next (scalarOp s site w true fun s =>
    if (tileOf s site).sb.length ≤ fld w 0 5 then modTile s site nextPc else s)

/-! ### Registers, time, TRAP and END -/

/-- The RC registers of a tile (R6, R65): a read clears them. -/
def readClears (t : Tile) (off : Nat) : Tile :=
  match off with
  | 0x50 => { t with corr := 0 }
  | 0x68 => { t with discards := 0, closedSends := 0 }
  | 0x70 => { t with poisonCnt := 0 }
  | _ => t

/-- RDREG. -/
def execRdreg (site : SiteId) (w : BitVec 32) (s : State) : Host.Outcome State Fault Refusal :=
  .next (scalarOp s site w true fun s =>
    if imm12 w % 8 ≠ 0 then trapTile s site trIllegal .scalar else
    let v := BitVec.ofNat 64 (tileReg s site (imm12 w))
    modTile s site fun t => nextPc (setG (readClears t (imm12 w)) (opRd w) v))

/-- RDTIME. -/
def execRdtime (site : SiteId) (w : BitVec 32) (s : State) : Host.Outcome State Fault Refusal :=
  .next (scalarRd s site w true fun _ => BitVec.ofNat 64 s.time.beatStart)

/-- TRAP. -/
def execTrap (site : SiteId) (w : BitVec 32) (s : State) : Host.Outcome State Fault Refusal :=
  .next (scalarOp s site w true fun s => trapTile s site trSoft .scalar (fld w 0 16))

/-- END: the core idles until the tick, and its FIN channels close (R135, R194). -/
def execEndCore (site : SiteId) (w : BitVec 32) (s : State) : Host.Outcome State Fault Refusal :=
  .next (scalarOp s site w true fun s => modTile s site fun t => { t with core := { t.core with ended := true } })

/-- An instruction with an undefined OP (R136, R137). -/
def execIllegalInstruction (site : SiteId) (w : BitVec 32) (s : State) : Host.Outcome State Fault Refusal :=
  .next (scalarOp s site w false fun s => s)

/-! ### Narrow slots and the scrubber (R148, R161, R162) -/

/-- The writeback of a row that needed correction: correctable and rebuilt words are stored right. -/
def scrubBack (s : State) (i row : Nat) : State :=
  let keep (p : Nat × Latent) : Bool :=
    !(rowLane i row ≤ p.1 && p.1 < rowLane i row + 64) && !(p.1 = xorKey i row && p.2 = .corr)
  let dead := deadWords s i row
  let s := { s with latent := s.latent.filter fun p => keep p || dead.contains (p.1 - rowLane i row) }
  modTile s i fun t => { t with spm := { t.spm with writeback := none } }

/-- A word corrected in three consecutive passes of the scrubber, rebuilt words too, is one failure of the site (R162). -/
def scrubPersist (s : State) (i row : Nat) : State :=
  let ws := (fixedWords s i row).map (row * 64 + ·)
  let old := (tileOf s i).spm.persist
  let m := old.filter fun p => p.1 / 64 ≠ row
  let m := ws.foldl (fun m k => SMap.put 0 m k (SMap.get 0 old k + 1)) m
  let hot := (m.filter fun p => 3 ≤ p.2).map (·.1)
  let s := modTile s i fun t => { t with spm := { t.spm with persist := m.filter fun p => p.2 < 3 } }
  hot.foldl (fun s _ => siteFails s i false 0 0x0101) s

/-- One read of the scrubber. A word that it cannot rebuild is written back poisoned in the slot of the read itself (DESIGN
CHOICE, log entry 80). -/
def scrubRead (s : State) (i : Nat) : State :=
  let t := tileOf s i
  let row := t.spm.hints.headD t.spm.scrubRow
  let nc := corrWords s i row
  let dead := deadWords s i row
  let s := modTile s i fun t => { t with spm := { t.spm with
    hints := t.spm.hints.drop 1
    scrubRow := if t.spm.hints.isEmpty then (t.spm.scrubRow + 1) % spmRows else t.spm.scrubRow
    writeback := if nc = 0 then none else some row } }
  let s := noteRead (if t.spm.hints.isEmpty then scrubPersist s i row else s) i row .scrub
  if dead.isEmpty then s else
    let isDead (l : Nat) : Bool := dead.any fun w => l = rowLane i row + w
    let s := { s with latent := s.latent.filter fun p => !isDead p.1 }
    poisonLanes s (dead.map (rowLane i row + ·))

/-- Module Address words that wait for a narrow slot take those that are not the scrubber's (R148, R169): one of them goes. -/
def maSlot (s : State) (i cc : Nat) : Option State :=
  if cc % 64 = 60 || (tileOf s i).spm.maDue = 0 then none
  else some (modTile s i fun t => { t with spm := { t.spm with maDue := t.spm.maDue - 1 } })

/-- A narrow slot that no LD or ST takes (R148): scoreboard entries reach their release; a Module Address access that waits
takes the slot, in a FENCED tile too, and otherwise the scrubber (log entry 14). -/
def narrowSlot (s : State) (i cc : Nat) : State :=
  let s := pruneAt s i cc
  let t := tileOf s i
  if cc % 4 ≠ 0 || t.core.slotAt = some cc || dark s (siteRing i) then s
  else match maSlot s i cc with
  | some s => takeSlot s i cc
  | none =>
  if t.st = .fenced then s else
  let s := takeSlot s i cc
  match t.spm.writeback with
  | some row => scrubBack s i row
  | none => scrubRead s i

/-- NARROW_ACCESS. -/
def execNarrowAccess (site : SiteId) (cc : Nat) (s : State) : Host.Outcome State Fault Refusal :=
  .next (narrowSlot s site cc)

end Sys2Proof.Machine
end

