-- ==== Sys2Proof/Machine/Clause.lean ====
section
/-! DEFINITION. The order of clauses, load beats, and switches between the tenancies of a group
(spec/02_programming_model.md R34, R35, R40, R44; spec/07_scheduled_mesh.md R198 to R202;
spec/10_placement_and_repair.md R286, R292 to R294; spec/11_audit_and_replay.md R305, R306;
spec/13_hosts_and_tenancy.md R365, R368 to R370). -/

namespace Sys2Proof.Machine
open Sys2Proof

/-! ### The order of clauses (R34) -/

/-- The entry repeats through LOOP_TO. -/
def loops (u : Run) (c : Clause) : Bool :=
  c.loopTo ≠ 0xFFFF && (c.loopCount = 0 || decide (SMap.get 0 u.passes u.clause < c.loopCount))

/-- Entry after the current one, and the pass counters then. -/
def nextEntry (u : Run) (c : Clause) : Nat × List (Nat × Nat) :=
  if loops u c then (c.loopTo, SMap.put 0 u.passes u.clause (SMap.get 0 u.passes u.clause + 1))
  else (c.next, SMap.put 0 u.passes u.clause 0)

/-- A rehearsal that found its ring without a clause strikes the first one that runs there (log entry 81). -/
def joinRehearsal (s : State) (n : Nat) : State :=
  let h := s.box.reh
  if h.status = 2 && (boundRings s n).contains (rehRing h) then
    modRun s n fun u => if u.rehearsedAt.isSome then u else { u with rehearsedAt := h.firedAt, rehearsedBeat := u.sentBeat }
  else s

/-- A work beat begins (R63). -/
def startWork (s : State) (n : Nat) : State :=
  let s := modRun s n fun u =>
    let b := if u.begun then u.sentBeat + 1 else 0
    let pos : BeatPos := { beat := b, clause := u.clause, workBeat := u.workBeat, passes := u.passes }
    let keep (h : BeatPos) : Bool := decide (h.beat < b) &&
      (match u.restorePoint with | some r => decide (r ≤ h.beat) || decide (b ≤ h.beat + 3) | none => true)
    { u with
      sentBeat := b, begun := true, phase := .work, replays := 0, fails := [], involved := [], cmpSites := []
      lastTraps := [], lastMirror := [], badWords := [], history := pos :: u.history.filter keep }
  startTiles (joinRehearsal s n) n false

/-- A work beat begins, unless the guard-save room holds the clause (R238). -/
def workOrHold (s : State) (n : Nat) : State := if guardFull s n then setPhase s n .guardHold else startWork s n

/-- Tiles of a beat in which no new work issues (R35). -/
def drainTile (t : Tile) : Tile :=
  match t.st with
  | .halted | .fenced => t
  | _ => { openSends t with
    st := .draining, grace := false, provIn := false, stopped := false, waits := [], dynQ := [], sb := [], rules := []
    ovfDue := false, oldRows := [], driven := [], eng := {} }

def startDrain (s : State) (n : Nat) : State := modClause (setPhase s n .drain) n drainTile

/-! ### Load beats -/

/-- The binding no longer serves the clause: a ring has left, or a field is not usable (R280, R292). -/
def badRing (s : State) (n : Nat) (c : Clause) : Option (Nat × Nat) :=
  (clauseRings s n).find? fun p => (ringOf s p.2).st ≠ .assigned || !(ringFields p.2).all fun f => fieldUsable s f c.trapeze

/-- The configuration to load: the option that a move has applied, the clause's own, or an option that fits, one for every ring or for a ring of an entry that fails or in relay (R292, R293), at the
tenancy's audit level (R305); or the abort. -/
def chooseCfg (s : State) (y : Sentence) (c : Clause) (u : Run) : Except (Nat × Nat) (Option Nat) :=
  let phys (v : Nat) : Option Nat := y.bound[v]?
  let runs (g : Cfg) : Bool := auditFits u.level u.k g.alevel g.ak
  let take (k : Option Nat) (g : Cfg) : Except (Nat × Nat) (Option Nat) :=
    if runs g then .ok k else .error (0x0609, g.alevel + g.ak * 8)
  match (if u.reload then u.option else none).bind fun k => (c.relocs[k]?).map fun p => (k, p.cfg) with
  | some (k, g) => take (some k) g
  | none =>
  let vs := List.range c.rings
  let away (v : Nat) : Bool := phys v ≠ y.farHome[v]?
  let failing := ((c.cfg.edges.filter fun e => !entryHolds s y.seamFloor phys e).flatMap fun e => [e.va, e.vb]) ++ vs.filter away
  if cfgFits s y vs c.cfg phys then take none c.cfg
  else match c.relocs.zipIdx.find? fun p => (p.1.vring = 0xFF || failing.contains p.1.vring) && cfgFits s y vs p.1.cfg phys && runs p.1.cfg with
    | some p => .ok (some p.2)
    | none => .error (0x0606, match c.cfg.edges.find? (fun e => !entryHolds s y.seamFloor phys e) with | some e => e.va | none => 0)

/-- Far homes whose migration is complete move to the virtual ring's own stacks (R294). -/
def moveHomes (s : State) (n : Nat) : State :=
  let x := tenOf s n
  match x.sentence with
  | none => s
  | some y =>
    let lo := x.farBase
    let hi := x.farBase + x.farLen
    let s := y.migrated.foldl (fun s v => match y.bound[v]?, y.farHome[v]? with
      | some r, some h => [0, 1].foldl (fun s k =>
          let a := ringStack h k
          let b := ringStack r k
          let s := copyTier s (farAddr a (lo * granBytes)) (farAddr b (lo * granBytes)) (x.farLen * granBytes)
          let mine (g : Nat) : Bool := decide (lo ≤ g) && decide (g < hi)
          let src := stackOf s a
          modStack s b fun z => { z with
            written := (src.written.filter mine).foldl NSet.add (z.written.filter fun g => !mine g)
            writer := mergeKeys mine z.writer (src.writer.filter fun p => mine p.1) }) s
      | _, _ => s) s
    modTen s n fun x => { x with sentence := x.sentence.map fun y => { y with
      farHome := y.migrated.foldl (fun m v => m.set v ((y.bound[v]?).getD 0)) y.farHome, migrated := [] } }

/-- The old epoch's entries go (R200). -/
def clearEpoch (s : State) (n : Nat) : State :=
  let homes := match (tenOf s n).sentence with | some y => y.farHome | none => []
  let rs := homes.foldl NSet.add (tenOf s n).rings
  let mine (d : DataMsg) : Bool := d.ten.toNat = n
  let s := { s with agentPark := s.agentPark.filter fun d => !mine d }
  rs.foldl (fun s r =>
    let s := if (tenOf s n).rings.contains r then
        modRing s r fun x => { x with
          queues := x.queues.filter (fun q => decide (384 ≤ q.1)), ejected := x.ejected.filter fun q => decide (384 ≤ q.1) } else s
    [0, 1].foldl (fun s k => modStack s (ringStack r k) fun x => { x with
      queue := x.queue.filter fun j => !mine j.msg
      active := x.active.map fun j => if mine j.msg then { j with quiet := true } else j }) s) s

/-- Key of a byte of saved scratchpad: virtual tile, then offset. -/
def savedKey (key off : Nat) : Nat := key * 2 ^ 22 + off

/-- Saved scratchpad bytes of a virtual tile come back (R369). -/
def restoreSpm (s : State) (x : Tenancy) (key i : Nat) : State :=
  let mine (a : Nat) : Bool := decide (a / 2 ^ 22 = key)
  let dst (a : Nat) : Nat := spmAddr i (a % 2 ^ 22)
  { s with mem := (x.savedMem.filter fun c => mine c.1).foldl (fun m c => SMap.put 0 m (dst c.1) c.2) s.mem }

/-- A tile in a load beat. A time slice brings its registers, queues and copies back (R63, R369), but neither XV nor poison
(R168). `regs` is the saved tile where another entry follows: what no load beat writes comes back (R370). -/
def loadTile (g : TileCfg) (epoch : BitVec 8) (sentBeat : Nat) (back regs : Option Tile) (t : Tile) : Tile :=
  let t := match regs with
    | some old => { t with
        err := old.err, corr := old.corr, discards := old.discards, closedSends := old.closedSends, poisonCnt := old.poisonCnt
        trap := old.trap }
    | none => t
  let u := match back with
    | some old => writeCfg { old with
        gen := t.gen, bound := true, vtile := t.vtile, vfield := t.vfield, vring := t.vring, spm := t.spm } g epoch false
    | none => writeCfg { emptyTile t with sentBeat := BitVec.ofNat 32 sentBeat } g epoch true
  let st : TileSt := if t.st = .fenced then .fenced else .loading
  { u with st := st, restoring := false, stopped := false, grace := false }

/-- Bits of the claim map that one scheduled near MOV sets: its channel in every window of 64 cc that it uses (R189). -/
def claimBits (v : BitVec 128) : List Nat :=
  match (verbInfo v).near with
  | some (ch, n) =>
    if n = 0 then []
    else (List.range ((stampOf v + n - 1) / 64 + 1 - stampOf v / 64)).map fun k => ch * 2 ^ 14 + stampOf v / 64 + k
  | none => []

/-- The load beat writes the claim map of every crossbar of the clause. -/
def writeClaims (s : State) (n : Nat) : State :=
  let s := (clauseRings s n).foldl (fun s p => (ringFields p.2).foldl (fun s f => modField s f fun x => { x with claims := [] }) s) s
  (clauseTiles s n).foldl (fun s p => modField s (siteField p.2.2.2) fun x =>
    { x with claims := ((tileOf s p.2.2.2).verbs.flatMap claimBits).foldl NSet.add x.claims }) s

/-- Every site of the tenancy's rings shows its epoch (R198). -/
def showEpoch (s : State) (n : Nat) : State :=
  (tenOf s n).rings.foldl (fun s r => (ringSites r).foldl (fun s i => modTile s i fun t =>
    { t with epoch := (tenOf s n).epoch }) s) s

/-- Bind and configure the tiles of the clause; `back` restores the saved tiles of a tenancy that is switched in at the
entry it left. -/
def bindLoad (s : State) (n : Nat) (back : Bool) : State :=
  let x := tenOf s n
  match cfgOf x, clauseOf x with
  | some c, some cl =>
    let s := ((boundRings s n).drop cl.rings).foldl (fun s r => (ringSites r).foldl (fun s i =>
      if (tileOf s i).bound then releaseSite s i else s) s) s
    let s := bindClause s n
    let sent := match x.run with | some u => u.sentBeat | none => 0
    let s := (clauseTiles s n).foldl (fun s p =>
      let key := vKey p.1 p.2.1 p.2.2.1
      let i := p.2.2.2
      let was := (x.saved.find? fun q => q.1 = key).map (·.2)
      let old := if back then was else none
      let s := if x.resumed then restoreSpm s x key i else s
      modTile s i (loadTile (tileCfg c p.1 p.2.1 p.2.2.1) x.epoch sent old was)) s
    writeClaims (sendBindings (showEpoch s n) n) n
  | _, _ => s

/-- Sequence state and pool queues of a tenancy that is switched in at the entry it left come back. -/
def restoreQueues (s : State) (n : Nat) : State :=
  let x := tenOf s n
  let s := match x.savedSeq with
    | some c =>
      let rs := boundRings s n
      restoreSeq { s with
        reqSeq := mergeKeys (reqKeyIn rs) s.reqSeq c.reqSeq
        agentTaken := mergeKeys (agentKeyIn rs) s.agentTaken c.agentTaken } n c
    | none => s
  x.savedQueues.foldl (fun s p => modRing s p.1 fun y => { y with queues := mergeKeys (fun q => decide (q < 384)) y.queues p.2 }) s

/-- A load beat begins at this tick. -/
def beginLoad (s : State) (n : Nat) : State :=
  match (tenOf s n).sentence, clauseOf (tenOf s n), (tenOf s n).run with
  | some y, some c, some u =>
    let u := { u with level := (tenOf s n).auditLevel, k := (tenOf s n).replayK }
    let s := modRun s n fun v => { v with level := u.level, k := u.k }
    match badRing s n c with
    | some (vr, r) =>
      if (ringOf s r).st = .assigned then leaveRing (setPhase s n .load) r .field
      else match (if c.guard then findMove s n vr r else none) with
        | some m => modRun (planMove s n r m) n fun v =>
            { v with phase := .load, moving := [m], lostAt := s.time.uptime }
        | none => abortRun s n (if c.guard then 0x0606 else 0x0607) vr
    | none =>
    match chooseCfg s y c u with
    | .error (code, detail) => abortRun s n code detail
    | .ok opt =>
      let s := moveHomes s n
      let keep : Bool := (tenOf s n).resumed && u.sameEntry
      let s := if keep then s else
        clearSeqs (clearEpoch (modTen s n fun x => { x with epoch := x.epoch + 1 }) n) n
      let s := modBox s fun b => { b with reh := { b.reh with
        fenced := match b.reh.fenced with
          | some i => if (boundRings s n).contains (siteRing i) then none else some i
          | none => none } }
      let s := modRun s n fun v => { v with
        phase := .load, option := opt, stageAt := some s.time.uptime, fails := [], late := [], involved := []
        cmpSites := [], guardNew := true, area := 1 - v.area, lateDue := [], lateSitesDue := []
        grans := some (tenOf s n).windows, guardMap := if c.guard then v.guardMap else none
        sameEntry := false, bcast := false }
      let s := bindLoad s n keep
      let s := if keep then restoreQueues s n else s
      let s := if (tenOf s n).resumed && u.begun then mirrorCarry s n u.sentBeat else s
      modTen s n fun x => { x with resumed := false, saved := [], savedMem := [], savedSeq := none, savedQueues := [], savedBytes := [] }
  | _, _, _ => s

/-- Resident scratchpad rows come from their near sources (R289). -/
def loadResident (s : State) (n : Nat) : State :=
  let x := tenOf s n
  match cfgOf x with
  | none => s
  | some c => (clauseTiles s n).foldl (fun s p =>
      (tileCfg c p.1 p.2.1 p.2.2.1).resident.foldl (fun s q => match viewAddr x q.2.1 q.2.2 with
        | some a => loadRows s p.2.2.2 q.1 a 1
        | none => s) s) s

/-- The first copies of a clause's channels. -/
def firstCopies (s : State) (n : Nat) : State :=
  let s := modClause s n fun t => takeCopies (takeCopies t)
  modRun s n fun u => { u with seqs := [seqCopy s n], pendingBeat := none }

/-- The position has moved past the last beat that ran: its successor waits for guard-save room. -/
def ahead (u : Run) : Bool :=
  match u.history.find? fun h => h.beat = u.sentBeat with
  | some h => h.clause ≠ u.clause || h.workBeat ≠ u.workBeat || h.passes ≠ u.passes
  | none => false

/-- The beat that follows the last committed one: a replay where it has run before; else where the sentence stands. -/
def resumeRun (s : State) (n : Nat) (loaded : Bool) : State :=
  match (tenOf s n).run with
  | none => s
  | some u =>
    let b := match u.lastCommitted with | some k => k + 1 | none => 0
    match startReplay (modRun s n fun u => { u with involved := [], cmpSites := [] }) n b with
    | some s => s
    | none => if loaded || !u.begun || ahead u then workOrHold s n else startDrain s n

/-- The broadcast of the running clause's configuration does not fit one load beat (R35). -/
def longBroadcast (s : State) (n : Nat) : Bool :=
  match cfgOf (tenOf s n) with
  | some c => decide (beatLen s - beatLen s / 64 - 64 < min 4096 c.layout.broadcast)
  | none => false

/-- A clause's configuration stands in configuration area `a` of the fields of its sentence (R204). -/
def stageArea (s : State) (n a : Nat) : State :=
  (boundRings s n).foldl (fun s r => (ringFields r).foldl (fun s f => modField s f fun x => { x with staged := NSet.add x.staged a }) s) s

/-- The tick that ends a load beat (R35, R202). The broadcast is taken to be over at the first tick after its staging, however late
in the beat that was complete: the spec gives no end within the beat (DESIGN CHOICE, log entry 82). A site that died in it has the clause bound anew, with TILE_GEN + 1 for each tile
that moves (R334). -/
def loadTick (s : State) (n : Nat) : State :=
  match (tenOf s n).run with
  | none => s
  | some u =>
    let again (s : State) : State := modTen s n fun x => { x with loadRepeats := x.loadRepeats + 1 }
    if u.stopReq then endRun s n stOk
    else if !u.staged then again s
    else if longBroadcast s n && !u.bcast then again (modRun s n fun u => { u with bcast := true })
    else if u.fails.contains mechDead || !u.late.isEmpty then
      let s := again s
      match lostFields s n [] with
      | f :: _ => fieldLost s f
      | [] => bindLoad (resetTiles (modRun s n fun u => { u with fails := [], late := [], involved := [], cmpSites := [] }) n []) n false
    else
      let s := stageArea (firstCopies (loadResident s n) n) n u.area
      let s := modRun s n fun v => { v with stageAt := none, reload := false, staged := false }
      if u.reload then resumeRun s n true else workOrHold s n

/-! ### The drain beat and the clause switch -/

/-- A clause-table entry other than the last is left for its successor. -/
def enterClause (s : State) (n next : Nat) (passes : List (Nat × Nat)) : State :=
  beginLoad (modRun s n fun u => { u with clause := next, passes := passes, workBeat := 0, option := none, reload := false }) n

/-- Something of the tenancy is still on its way out. -/
def outputsWait (s : State) (n : Nat) : Bool :=
  let mine (d : DataMsg) : Bool := d.ten.toNat = n
  s.sports.any (fun p => p.2.egress.any fun e => e.ten = n && !e.released) ||
  s.rings.any (fun p => p.2.commitQ.any (fun e => mine e.msg) || (queueOf p.2 386).any mine) ||
  s.farStacks.any (fun p => p.2.queue.any (fun j => mine j.msg) || p.2.active.any fun j => mine j.msg) ||
  (match (tenOf s n).run with | some u => !u.copies.isEmpty | none => false)

/-- Segments a tile keeps. -/
def liveRows (save : BitVec 64) (t : Tile) (row : Nat) : Bool := bit save (row / 128) || inCopy t 0 row || inCopy t 1 row

/-- Bytes that a tile saves: 8 KiB, the live segments and its carry rows. -/
def tileBytes (c : Cfg) (t : Tile) : Nat :=
  8192 + ((List.range 48).filter fun k => bit c.save k).length * 65536 + 2 * t.carryRows.toNat * rowBytes

/-- Bytes that a tenancy's tiles save, by physical field. -/
def fieldBytes (s : State) (n : Nat) : List (Nat × Nat) :=
  match cfgOf (tenOf s n) with
  | none => []
  | some c => (clauseTiles s n).foldl (fun m p =>
      let f := siteField p.2.2.2
      SMap.put 0 m f (SMap.get 0 m f + tileBytes c (tileOf s p.2.2.2))) []

/-- S of R369: over the fields, what tenancy `n` saves and what tenancy `m` has saved there. -/
def switchBeatsOf (s : State) (n m : Nat) : Nat :=
  let out := fieldBytes s n
  let back := (tenOf s m).savedBytes
  let most := (out.map (·.1) ++ back.map (·.1)).foldl (fun b f => max b (SMap.get 0 out f + SMap.get 0 back f)) 0
  ceilDiv (most + 2048 * 4096) (4096 * beatLen s)

/-- The tick that ends a drain beat. -/
def drainTick (s : State) (n : Nat) : State :=
  match (tenOf s n).run with
  | none => s
  | some u => match u.late ++ u.fails, u.pendingBeat with
    | _ :: _, some b => lateFail s n b
    | _, _ =>
      let s := commitPending s n
      match (tenOf s n).run, clauseOf (tenOf s n) with
      | some v, some c =>
        let (next, passes) := nextEntry v c
        if v.stopReq || next = 0xFFFF then
          if v.copies.isEmpty then endRun s n stOk else s
        else
          let x := tenOf s n
          match x.group.bind fun g => if x.switchReq then nextTurn s g n false else none with
          | some m => if outputsWait s n then setPhase s n .wait else setPhase s n (.swap (switchBeatsOf s n m))
          | none => enterClause s n next passes
      | _, _ => s

/-- A tick while the guard-save room holds the clause (R238). -/
def guardTick (s : State) (n : Nat) : State :=
  match (tenOf s n).run with
  | none => s
  | some u => match u.late, u.pendingBeat with
    | _ :: _, some b => lateFail s n b
    | _, _ =>
      let s := commitPending s n
      match (tenOf s n).run with
      | none => s
      | some v =>
        if !(v.fails.isEmpty && v.late.isEmpty) then enterEngine s n
        else if v.stopReq then startDrain s n
        else workOrHold s n

/-! ### Switches of a group (R368 to R370) -/

/-- T's state goes to its save area, and every site is cleared. -/
def saveTiles (s : State) (n : Nat) : State :=
  let x := tenOf s n
  let save : BitVec 64 := match cfgOf x with | some c => c.save | none => 0
  let ts := clauseTiles s n
  let base (i : Nat) : Nat := spmAddr i 0
  let keep (t : Tile) (i a : Nat) : Bool :=
    decide (base i ≤ a) && decide (a < base i + spmSize) && liveRows save t ((a - base i) / rowBytes)
  let cells := ts.foldl (fun m p =>
    let t := tileOf s p.2.2.2
    (s.mem.filter fun c => keep t p.2.2.2 c.1).foldl
      (fun m c => SMap.put 0 m (savedKey (vKey p.1 p.2.1 p.2.2.1) (c.1 - base p.2.2.2)) c.2) m) []
  let tiles := ts.map fun p => (vKey p.1 p.2.1 p.2.2.1, tileOf s p.2.2.2)
  let queues := x.rings.map fun r => (r, (ringOf s r).queues.filter fun q => decide (q.1 < 384))
  let s := modTen s n fun y => { y with
    saved := tiles, savedMem := cells, savedSeq := some (seqCopy s n), savedQueues := queues, savedBytes := fieldBytes s n }
  let s := clearSeqs s n
  x.rings.foldl (fun s r =>
    modRing ((ringSites r).foldl clearSite s) r fun y => { y with
      queues := y.queues.filter fun q => decide (384 ≤ q.1), srcs := y.srcs.filter fun p => !tileEpIn x.rings p.1 }) s

/-- Tenancy `m` is the resident of its group, and its load beat begins. -/
def switchIn (s : State) (m : Nat) : State :=
  let s := modTen s m fun y => { y with resident := true, switchReq := false, sinceIn := 0, st := if y.run.isSome then .running else y.st }
  if (tenOf s m).run.isSome then beginLoad s m else s

/-- From tenancy `n` to tenancy `m` of its group; SWITCH completes with the incoming tenancy once `m` is in (R356, R370).
A STOP of `n` that came in a switch beat is taken when `n` is resident again (DESIGN CHOICE, log entry 75). -/
def doSwitch (s : State) (n m : Nat) : State :=
  let x := tenOf s n
  let live := x.run.isSome
  let s := match x.run, clauseOf x with
    | some u, some c =>
      let (next, passes) := nextEntry u c
      modRun (saveTiles s n) n fun v => { v with
        clause := next, passes := passes, workBeat := 0, option := none, reload := false, sameEntry := decide (next = u.clause), phase := .load }
    | _, _ => x.rings.foldl (fun s r => (ringSites r).foldl clearSite s) s
  let st : TenSt := if live then .switchedOut else .ready
  let s := modTen s n fun y => { y with
    resident := false, switchReq := false, switchBy := none, resumed := live, st := if y.st = .clearing then .clearing else st }
  completeOpt (switchIn s m) x.switchBy stOk m

/-- A wait beat or a switch beat counts for the tenancy that is switched out (R371). -/
def countSwitch (s : State) (n : Nat) : State := modTen s n fun y => { y with switchBeats := y.switchBeats + 1 }

/-- A wait beat ends (R369). A STOP that came meanwhile is taken when the tenancy is resident again (DESIGN CHOICE, log
entry 75). -/
def waitTick (s : State) (n : Nat) : State :=
  let x := tenOf s n
  let s := countSwitch s n
  match x.group.bind fun g => nextTurn s g n false with
  | none => setPhase s n .drain
  | some m => if outputsWait s n then s else setPhase s n (.swap (switchBeatsOf s n m))

/-- A switch beat ends. -/
def swapTick (s : State) (n left : Nat) : State :=
  let s := countSwitch s n
  match (tenOf s n).group.bind fun g => nextTurn s g n false with
  | none => setPhase s n .drain
  | some m => if left ≤ 1 then doSwitch s n m else setPhase s n (.swap (left - 1))

/-- Who is resident next in a group that its resident has left: the first member with a sentence running, else the first
member (log entry 61). -/
def firstTurn (s : State) (g : Nat) : Option Nat :=
  let member (run : Bool) (m : Nat) : Bool :=
    let x := tenOf s m
    x.group = some g && x.st ≠ .clearing && (!run || x.run.isSome)
  ((List.range 64).find? (member true)).or ((List.range 64).find? (member false))

/-- A group whose resident runs no sentence switches at once. -/
def switchIdle (s : State) (g : Nat) : State :=
  match residentOf s g with
  | none => match firstTurn s g with
    | some m => switchIn s m
    | none => s
  | some n =>
    let x := tenOf s n
    if x.run.isSome || x.binding.isSome || x.destroyBy.isSome || x.st = .clearing then s
    else match (if x.switchReq then nextTurn s g n false else nextTurn s g n true) with
      | some m => doSwitch s n m
      | none => s

end Sys2Proof.Machine
end

