-- ==== Sys2Proof/Machine/Health.lean ====
section
/-! DEFINITION. Lanes, rows, patrol, tick checks and known-answer tests, heartbeats, lost and rejoining rings, and the
firing of fault rehearsals (spec/07_scheduled_mesh.md R171, R180, R184, R185; spec/08_memory_tiers.md R209 to R215, R227,
R228; spec/09_midway.md R243; spec/10_placement_and_repair.md R276, R277, R297; spec/11_audit_and_replay.md R315, R318,
R321 to R325; spec/17_bringup_reset_time.md R453). -/

namespace Sys2Proof.Machine
open Sys2Proof

/-! ### Lanes (R184, R212, R243) -/

/-- Run over every clause that is bound across a seam (R184): inside a ring, or by a shape entry between two rings. -/
def acrossSeam (s : State) (f g : Nat) : List Nat :=
  let a := fieldRing f
  let b := fieldRing g
  (s.tens.filter fun p => p.2.run.isSome && p.2.resident && (
    let rs := clauseRings s p.1
    if a = b then rs.any fun q => q.2 = a
    else match cfgOf p.2 with
      | some c => c.edges.any fun e =>
          let va := (rs.find? fun q => q.1 = e.va).map (·.2)
          let vb := (rs.find? fun q => q.1 = e.vb).map (·.2)
          (va = some a && vb = some b) || (va = some b && vb = some a)
      | none => false)).map (·.1)

/-- A seam that no longer serves a clause bound across it is a field loss. -/
def checkSeam (s : State) (f : Nat) (sd : Side) : State :=
  match neighbour f sd with
  | none => s
  | some g => (acrossSeam s f g).foldl (fun s n => match (tenOf s n).sentence with
      | some y => if seamOk s f sd y.seamFloor then s else fieldLost s f
      | none => s) s

/-- Move a data lane of a crossing onto a spare, on both sides; none where no spare is left. -/
def spareLane (s : State) (f : Nat) (sd : Side) (c : Nat) (midway : Bool) : Option State :=
  let k := Side.no sd * 9 + c
  let used := if midway then SMap.get 0 (fieldOf s f).mwSpares (Side.no sd) else SMap.get 0 (fieldOf s f).sparesUsed k
  let put (s : State) (f : Nat) (sd : Side) : State := modField s f fun x =>
    if midway then { x with mwSpares := SMap.put 0 x.mwSpares (Side.no sd) (used + 1) }
    else { x with sparesUsed := SMap.put 0 x.sparesUsed (Side.no sd * 9 + c) (used + 1) }
  match neighbour f sd with
  | some g => if used < 2 then some (put (put s f sd) g (Side.back sd)) else none
  | none => none

/-- A pair of fields of one clause that no route joins counts as a failed seam (R243): the field at the failed link is lost, or
where the clause does not use it the first of the pair. -/
def checkRoute (s : State) (f : Nat) : State :=
  s.tens.foldl (fun s p =>
    let fs := (clauseRings s p.1).flatMap fun q => ringFields q.2
    if !(p.2.run.isSome && p.2.resident) then s
    else match fs.find? fun a => fs.any fun b => (routeOf s a b 39).isNone with
      | some a => fieldLost s (if fs.contains f then f else a)
      | none => s) s

/-- A data lane of a crossing or of a Midway link is retired: a spare takes its traffic, or the crossing has a lane less. -/
def laneRetire (s : State) (f : Nat) (side : Side) (c lane : Nat) (midway : Bool) : State :=
  match spareLane s f side c midway with
  | some s =>
    let s := evField s f 0 0x0201 (Side.no side + lane * 2 ^ 4)
    if midway then
      let s := midwayEntry s f side 3 0 0x0201
      match neighbour f side with | some g => midwayEntry s g (Side.back side) 3 0 0x0201 | none => s
    else seamEntry s f side 0 0x0201
  | none =>
    if midway then checkRoute (failMidway s f side 0 0x0201) f
    else
      let k := Side.no side * 9 + c
      let w := 32 - SMap.get 0 (fieldOf s f).lanesLost k
      let sp := SMap.get 0 (fieldOf s f).sparesUsed k
      checkSeam (seamEntry (setCrossing s f side c (w - 1) sp) f side 0 0x0201) f side

/-- LANE_RETIRE: a lane with more than 4 failures within 1 s is retired, and its traffic moves at the next tick (R184, R243). -/
def execLaneRetire (field : FieldId) (side : Side) (crossing : Fin 9) (lane : Fin 32) (midway : Bool) (s : State) :
    Host.Outcome State Fault Refusal :=
  .next (
    if !powered s || (neighbour field side).isNone || (!midway && decide (crossings side ≤ (crossing : Nat))) then s
    else if midway then modField s field fun x => { x with mwLaneDue := NSet.add x.mwLaneDue (Side.no side * 64 + (lane : Nat)) }
    else modField s field fun x => { x with
      laneDue := NSet.add x.laneDue ((Side.no side * 9 + (crossing : Nat)) * 64 + (lane : Nat)) })

/-- The traffic of retired lanes moves at the tick (R184, R243). -/
def lanesTick (s : State) : State :=
  s.fields.foldl (fun s p =>
    let due := p.2.laneDue
    let mw := p.2.mwLaneDue
    if due.isEmpty && mw.isEmpty then s
    else
      let s := modField s p.1 fun x => { x with
        laneDue := [], mwLaneDue := [], laneFails := x.laneFails.filter fun q => !due.contains q.1 }
      let s := mw.foldl (fun s k => laneRetire s p.1 (Side.of (k / 64)) 0 (k % 64) true) s
      due.foldl (fun s k => laneRetire s p.1 (Side.of (k / 576)) (k / 64 % 9) (k % 64) false) s) s

/-- A FAILED channel retires its field (R214). -/
def channelFails (s : State) (f c cause : Nat) : State :=
  if (nearCh (fieldOf s f) c).failed then s else retireField (failChannel s f c 0 cause) f 0 cause

def channelDegraded (s : State) (f c cause : Nat) : State :=
  refine s (fieldPly f) (mapEntry 2 3 (fieldPly f) (f % 96) c 0 s.time.poweredS 0 0 cause)

/-- A retired TSV lane, key group × 32 + lane, moves to a spare of its group, or the channel is FAILED (R212). -/
def moveTsvLane (s : State) (f c k : Nat) : State :=
  let used := SMap.get 0 (nearCh (fieldOf s f) c).lanes (k / 32)
  if used < 2 then
    let s := modNearCh s f c fun x => { x with lanes := SMap.put 0 x.lanes (k / 32) (used + 1) }
    channelDegraded (evField s f 0 0x0201 (k / 32 % 16 + k % 32 * 2 ^ 4)) f c 0x0201
  else channelFails s f c 0x0201

/-- TSV lanes retired since the last tick move at this one. -/
def tsvTick (s : State) : State :=
  s.fields.foldl (fun s p => p.2.nearCh.foldl (fun s c =>
    if c.2.laneDue.isEmpty then s
    else c.2.laneDue.foldl (fun s k => moveTsvLane s p.1 c.1 k) (modNearCh s p.1 c.1 fun x => { x with laneDue := [] })) s) s

/-- TSV_LANE_RETIRE: the lane is retired, and its traffic moves at the next tick. -/
def execTsvLaneRetire (field : FieldId) (ch : Fin 32) (group : Fin 36) (lane : Fin 32) (s : State) :
    Host.Outcome State Fault Refusal :=
  .next (
    if !powered s || dark s (fieldRing field) then s
    else modNearCh s field ch fun x => { x with laneDue := NSet.add x.laneDue ((group : Nat) * 32 + (lane : Nat)) })

/-- Lane addresses of the words of one DRAM row (R203). -/
def inDramRow (f ch key l : Nat) : Bool :=
  decide (nearAddr f ch 0 ≤ 8 * l) && decide (8 * l < nearAddr f (ch + 1) 0) && dramKey (8 * l - nearAddr f ch 0) = key

/-- A DRAM row is copied into a spare row of its bank-half, or the channel is FAILED (R213): the copy leaves corrected words
right. The entry's cause is the record of what raised the fault: NEAR_UNCORR, or NEAR_CORR where only corrected errors did (R278). -/
def remapRow (s : State) (f c key : Nat) : State :=
  let used := SMap.get 0 (nearCh (fieldOf s f) c).rows (key / 16384)
  let cause := if (nearCh (fieldOf s f) c).rowHard.contains key then 0x0105 else 0x0104
  let s := modNearCh s f c fun x => { x with
    rowDue := x.rowDue.filter (· ≠ key), rowHard := x.rowHard.filter (· ≠ key), rowCorr := SMap.put [] x.rowCorr key [], rowPass := SMap.put 0 x.rowPass key 0 }
  if used < 64 then
    let s := modNearCh s f c fun x => { x with
      rows := SMap.put 0 x.rows (key / 16384) (used + 1), remapped := NSet.add x.remapped key }
    let s := { s with latent := s.latent.filter fun p => !(p.2 = .corr && inDramRow f c key p.1) }
    channelDegraded s f c cause
  else channelFails s f c cause

/-- ROW_REMAP: a row with a fault is copied in its half's next refresh slot. -/
def execRowRemap (field : FieldId) (ch : Fin 32) (half : Fin 2) (bank : Fin 32) (row : Fin 16384) (s : State) :
    Host.Outcome State Fault Refusal :=
  .next (
    let x := nearCh (fieldOf s field) ch
    let key := ((half : Nat) * 32 + (bank : Nat)) * 16384 + (row : Nat)
    if !powered s || dark s (fieldRing field) || x.slots % 2 ≠ (half : Nat) || !x.rowDue.contains key then s
    else remapRow s field ch key)

/-! ### Patrol (R209, R228) -/

/-- Poison the eight lanes of a codeword; its latent errors are gone. -/
def poisonCodeword (s : State) (a : Nat) : State :=
  let l := a / 64 * 8
  let s := { s with latent := s.latent.filter fun p => decide (p.1 < l) || decide (l + 8 ≤ p.1) }
  poisonLanes s ((List.range 8).map (l + ·))

def healCodeword (s : State) (a : Nat) : State :=
  let l := a / 64 * 8
  { s with latent := s.latent.filter fun p => decide (p.1 < l) || decide (l + 8 ≤ p.1) }

/-- The DRAM rows that patrol reads in the refresh slot `n` of a channel: 8 rows of the half that refreshes, in order of ROW,
then BANK (R206, R209). -/
def patrolRows (n : Nat) : List Nat :=
  (List.range 8).map fun k =>
    let i := n / 2 % 65536 * 8 + k
    (n % 2 * 32 + i % 32) * 16384 + i / 32

/-- What patrol finds in one codeword. -/
def patrolErr (s : State) (f c : Nat) : PatrolErr → State
  | .corrected off => healCodeword (nearCorrected s f c (off % 2 ^ 31)) (nearAddr f c (off % 2 ^ 31))
  | .uncorrectable off => nearUncorrected (poisonCodeword s (nearAddr f c (off % 2 ^ 31))) f c (off % 2 ^ 31)

/-- Rows that patrol has corrected in three consecutive passes have a fault (R213). -/
def patrolPass (rows fixed : List Nat) (x : NearCh) : NearCh :=
  rows.foldl (fun x k =>
    let n := if fixed.contains k then SMap.get 0 x.rowPass k + 1 else 0
    { x with rowPass := SMap.put 0 x.rowPass k n, rowDue := if 3 ≤ n then NSet.add x.rowDue k else x.rowDue }) x

def patrolOff : PatrolErr → Nat
  | .corrected o => o
  | .uncorrectable o => o

/-- NEAR_PATROL, with what the slot's rows show: addresses are channel offsets. Rows with a fault in this half are remapped
first. -/
def execNearPatrol (field : FieldId) (ch : Fin 32) (errs : List PatrolErr) (s : State) : Host.Outcome State Fault Refusal :=
  .next (
    let x := nearCh (fieldOf s field) ch
    if !powered s || dark s (fieldRing field) || x.failed then s
    else
      let rows := patrolRows x.slots
      let found := errs.filter fun e => rows.contains (dramKey (patrolOff e))
      let fixed := found.filterMap fun e => match e with | .corrected o => some (dramKey o) | .uncorrectable _ => none
      let s := (x.rowDue.filter fun k => k / 524288 = x.slots % 2).foldl (fun s k => remapRow s field ch k) s
      let s := found.foldl (fun s e => patrolErr s field ch e) s
      modNearCh s field ch fun x => { patrolPass rows fixed x with slots := (x.slots + 1) % 131072 })

/-- Module field at the field end of a trunk. -/
def trunkField (k : Nat) : Nat := epField (trunkEp k)

/-- FAR_PATROL: unwritten granules are skipped (R367). -/
def execFarPatrol (stack : StackId) (errs : List PatrolErr) (s : State) : Host.Outcome State Fault Refusal :=
  .next (
    if !powered s then s
    else errs.foldl (fun s e =>
      let off := match e with | .corrected o => o | .uncorrectable o => o
      if !(stackOf s stack).written.contains (fldN off 21 18) then s
      else match e with
        | .corrected o => healCodeword (modStack s stack fun x => { x with corr := sat 32 (x.corr + 1) }) (farAddr stack (o % 2 ^ 39))
        | .uncorrectable o =>
          let s := poisonCodeword (modStack s stack fun x => { x with uncorr := sat 32 (x.uncorr + 1) }) (farAddr stack (o % 2 ^ 39))
          evField s (trunkField stack) 1 0x0106 ((stack : Nat) % 32 + fldN o 8 5 * 32)) s)

/-- PC_RETRAIN (R227). -/
def execPcRetrain (stack : StackId) (pc : Fin 32) (s : State) : Host.Outcome State Fault Refusal :=
  .next (if powered s && !(stackOf s stack).fenced.contains (pc : Nat)
    then modStack s stack fun x => { x with retraining := NSet.add x.retraining pc } else s)

/-- PC_RETRAIN_DONE. -/
def execPcRetrainDone (stack : StackId) (pc : Fin 32) (ok : Bool) (s : State) : Host.Outcome State Fault Refusal :=
  .next (
    if !(stackOf s stack).retraining.contains (pc : Nat) then s
    else if ok then modStack s stack fun x => { x with retraining := x.retraining.filter (· ≠ (pc : Nat)) }
    else fencePc (evField s (trunkField stack) 3 0x0202 ((stack : Nat) % 32 + (pc : Nat) * 32)) stack pc 0 0x0202)

/-! ### Sites: ticks and known-answer tests (R171, R315, R318) -/

/-- A failure of a site that is reported after its tick. No replay resolves it (R315): an unbound site is EXCLUDED at once, and
so is one that saw no tick; a bound site that failed its test at the tick that closes the audit of the beat in which the test ran
(R290). An unbound site that fails its test affects no clause: it is SUSPECT, or RETIRED on a second failure (R276, cases). -/
def siteFailsLate (s : State) (i mech : Nat) : State :=
  match (if (tileOf s i).bound then ringRun s (siteRing i) else none) with
  | none => siteDown s i (decide (mech ≠ mechKat))
  | some (n, u) =>
    if mech = mechKat && (match u.phase with | .work | .replay | .grace | .hold _ => true | _ => false) then
      modRun (noteReal s (some n)) n fun u => { u with
        lateDue := NSet.add u.lateDue mech, lateSitesDue := NSet.add u.lateSitesDue i, involved := NSet.add u.involved i }
    else
    let s := if mech = mechKat then s else siteDown s i
    modRun (failLate s (siteRing i) mech) n fun u => { u with
      involved := NSet.add u.involved i, lateSites := if mech = mechKat then NSet.add u.lateSites i else u.lateSites }

/-- Every site of a ring has missed the last tick; sites that are dead already see none. -/
def allMissed (s : State) (r : Nat) : Bool :=
  let x := ringOf s r
  !x.missed.isEmpty && x.missedTick = s.time.ticks &&
  (ringSites r).all fun i => x.missed.contains i || (tileOf s i).st = .fenced || siteDead (siteMap s i).st

/-- TICK_MISSING (R171): a ring whose every site misses the tick is lost, and if every ring is, compute resets. -/
def execTickMissing (site : SiteId) (s : State) : Host.Outcome State Fault Refusal :=
  .next (
    if !computeUp s || dark s (siteRing site) || (tileOf s site).st = .fenced || siteDead (siteMap s site).st then s
    else
      let s := siteFailsLate s site mechOther
      let s := modTile s site fun t => { t with st := .fenced }
      let r := siteRing site
      let s := modRing s r fun x => { x with
        missedTick := s.time.ticks
        missed := if x.missedTick = s.time.ticks then NSet.add x.missed site else [(site : Nat)] }
      if !allMissed s r then s
      else if allRings.all (allMissed s) then startReset (evModule s 5 0x0807 s.time.ticks) causeTick
      else match (ringOf s r).st with
        | .lost | .resetting => s
        | _ => leaveRing s r .lost)

/-- SIDESHOW_TEST. -/
def execSideshowTest (ring : RingId) (failed : List SiteId) (switchFailed : List SiteId) (s : State) :
    Host.Outcome State Fault Refusal :=
  .next (
    let x := ringOf s ring
    if !computeUp s || s.box.heldFrom.isSome || x.supply ≠ 0 || x.st = .lost || x.st = .resetting then s
    else
      let sites := (turnSites s ring).filter fun i => (siteMap s i).st ≠ .retired
      let bad := sites.filter fun i => (failed ++ switchFailed).any fun j => (j : Nat) = i
      let s := modBox s fun b => { b with katRuns := b.katRuns + sites.length, katFails := b.katFails + bad.length }
      let s := bad.foldl (fun s i => siteFailsLate s i mechKat) s
      (sites.filter fun i => switchFailed.any fun j => (j : Nat) = i).foldl (fun s i => retireField s (siteField i) 0 0x0601) s)

/-- SUSPECT_EXPIRY (R276, R277). -/
def execSuspectExpiry (item : MapItem) (s : State) : Host.Outcome State Fault Refusal :=
  .next (
    let past (l : Option Nat) : Bool := match l with | some t => decide (t + suspectS < s.time.poweredS) | none => false
    match item with
    | .site i =>
      let m := siteMap s i
      if m.st = .suspect && past m.lastFail then
        refine (setSiteMap s i { m with st := .good }) (fieldPly (siteField i))
          (mapEntry 0 0 (fieldPly (siteField i)) (siteField i % 96) (siteNo i) 2 s.time.poweredS 0 0 0)
      else s
    | .ring r =>
      let x := ringOf s r
      if x.item = .suspect && past x.itemFail then
        refine (modRing s r fun x => { x with item := .good }) (ringPly r)
          (mapEntry 6 0 (ringPly r) (ringCentre r % 96) 0 2 s.time.poweredS 0 0 0)
      else s
    | _ => s)

/-! ### Heartbeats, lost rings and rejoining (R297, R453) -/

/-- A RING_LOSS rehearsal withholds this ring's HEARTBEAT. -/
def withholds (s : State) (r : Nat) : Bool := s.box.reh.lossRing = some r

/-- HEARTBEAT. -/
def execHeartbeat (ring : RingId) (c : CtlMsg) (s : State) : Host.Outcome State Fault Refusal :=
  .next (
    let x := ringOf s ring
    if c.ctype ≠ .heartbeat || x.supply ≠ 0 || x.ctlDead || withholds s ring then s
    else { s with hbSeen := s.hbSeen ||| (1#64 <<< (ring : Nat)) })

/-- RING_LOST: two ticks without the HEARTBEAT. A rehearsed loss is a withdrawal (R323). -/
def execRingLost (ring : RingId) (s : State) : Host.Outcome State Fault Refusal :=
  .next (
    let r : Nat := ring
    if !computeUp s || !bit s.hbLost r then s
    else match (ringOf s r).st with
      | .lost | .resetting => s
      | _ =>
        let s := { s with hbLost := s.hbLost &&& ~~~(1#64 <<< r) }
        leaveRing s r (if withholds s r then .withdrawn else .lost))

/-- RING_REJOIN (R453): test results, near channels written to zero, EJECT_OFF cleared. -/
def execRingRejoin (ring : RingId) (rep : PartReport) (s : State) : Host.Outcome State Fault Refusal :=
  .next (
    let r : Nat := ring
    let x := ringOf s r
    if x.st ≠ .resetting || x.partStart.isNone || x.ctlDead || dark s r then s
    else if !rep.ctlOk then evRing (modRing s r fun x => { x with ctlDead := true }) r 3 0x0604 (0xFF * 2 ^ 6)
    else
      let s := testSites s (ringFields r) rep.sitesFailed 3 2
      let s := (ringFields r).foldl (fun s f => if hopeless s f then testRetires s f 3 2 else s) s
      let s := rep.meshSwitchFailed.foldl (fun (s : State) (f : FieldId) => testRetires s f 3 2) s
      let s := testChannels (trainCrossings s rep.crossings 4 2) rep.channelsFailed 4 2
      let s := clearNear s r
      let dead := (ringFields r).any fun f => (fieldOf s f).retired
      let s := modRing s r fun x => { x with st := if dead then .degraded else .reserve, ejectOff := false, partStart := none }
      let m := 1#64 <<< r
      let s := { s with hbMissed := s.hbMissed &&& ~~~m, hbLost := s.hbLost &&& ~~~m }
      let s := evRing s r 0 0x0C03 r
      if withholds s r then modBox s fun b => { b with reh := { b.reh with lossRing := none } } else s)

/-! ### Register reads that clear (R6, R61, R185, R215) -/

/-- Module Address of a tile register. -/
def tileRegAddr (i off : Nat) : Nat := 3 * 2 ^ 60 + i / 6912 * 2 ^ 58 + i % 6912 / 72 * 2 ^ 51 + 2 ^ 50 + i % 72 * 2 ^ 43 + off

/-- Tile state that a Module Address may read (R61). -/
def tileReadable (t : Tile) : Bool :=
  match t.st with
  | .unbound | .idle | .halted | .fenced => true
  | _ => false

/-- A register of a tile, which a dark ring does not serve (R23). -/
def readTileReg (s : State) (i off : Nat) : State :=
  if !dark s (siteRing i) && (off < 0x48 || tileReadable (tileOf s i)) then
    modTile (latchReg s (tileReg s i off)) i fun t => readClears t off
  else refusedRead s (tileRegAddr i off)

/-- ERR_STATUS: a W1C write. -/
def execErrStatus (site : SiteId) (v : BitVec 64) (s : State) : Host.Outcome State Fault Refusal :=
  .next (if dark s (siteRing site) then evAccess s (tileRegAddr site 0x48)
    else modTile s site fun t => { t with err := t.err &&& ~~~(v.truncate 9) })
/-- CORR_COUNT. -/
def execCorrCount (site : SiteId) (s : State) : Host.Outcome State Fault Refusal := .next (readTileReg s site 0x50)
/-- DISCARD_COUNT. -/
def execDiscardCount (site : SiteId) (s : State) : Host.Outcome State Fault Refusal := .next (readTileReg s site 0x68)
/-- POISON_COUNT. -/
def execPoisonCount (site : SiteId) (s : State) : Host.Outcome State Fault Refusal := .next (readTileReg s site 0x70)

/-- A seam status register; the read clears CRC_ERR. -/
def readSeam (s : State) (f : Nat) (sd : Side) : State :=
  modField (latchReg s (seamReg s f sd)) f fun x => { x with crcErr := SMap.put 0 x.crcErr (Side.no sd) 0 }

/-- NEAR_CH_STATUS; the read clears CORR and UNCORR. -/
def readNearCh (s : State) (f c : Nat) : State :=
  modNearCh (latchReg s (nearChReg (nearCh (fieldOf s f) c))) f c fun x => { x with corr := 0, uncorr := 0 }

/-- Module Address of a field register. -/
def fieldRegAddr (f off : Nat) : Nat := 4 * 2 ^ 60 + f / 96 * 2 ^ 58 + f % 96 * 2 ^ 51 + off

/-- CRC_ERR. -/
def execCrcErr (field : FieldId) (side : Side) (s : State) : Host.Outcome State Fault Refusal :=
  .next (if dark s (fieldRing field) then refusedRead s (fieldRegAddr field (0x100 + 8 * Side.no side)) else readSeam s field side)
/-- NEAR_CH_STATUS. -/
def execNearChStatus (field : FieldId) (ch : Fin 32) (s : State) : Host.Outcome State Fault Refusal :=
  .next (if dark s (fieldRing field) then refusedRead s (fieldRegAddr field (0x200 + 8 * (ch : Nat))) else readNearCh s field ch)

/-! ### Fault rehearsal (R321 to R325) -/

def rehField (h : Rehearsal) : Nat := ringField (rehRing h) (fld h.target 6 3)

/-- TARGET is laid out as R322 says. -/
def targetOk (kind : Nat) (t : BitVec 64) : Bool :=
  let f (lo len : Nat) : Nat := fld t lo len
  (match kind with
    | 1 => decide (f 9 7 ≤ 71) && f 16 48 = 0
    | 2 => if f 16 1 = 0 then decide (f 9 7 ≤ 71) && decide (f 17 13 < spmRows) && f 36 28 = 0
           else f 9 7 = 0 && f 47 17 = 0
    | 3 =>
      let ns : Bool := f 9 2 = 0 || f 9 2 = 2
      f 21 43 = 0 && (if f 20 1 = 1 then f 11 4 = 0 else decide (f 11 4 ≤ if ns then 8 else 7))
    | 4 => f 9 55 = 0
    | 5 => f 9 55 = 0
    | _ => false) && decide (f 6 3 ≤ 5)

/-- Lanes that a POISON_WORD rehearsal names. -/
def rehLanes (h : Rehearsal) : List Nat :=
  let f (lo len : Nat) : Nat := fld h.target lo len
  if f 16 1 = 0 then [spmAddr (rehField h * 72 + f 9 7) (f 17 13 * rowBytes + 8 * f 30 6) / 8]
  else
    let off := f 22 14 * 2 ^ 17 + f 42 4 * 2 ^ 13 + f 36 5 * 2 ^ 8 + f 41 1 * 2 ^ 7 + f 46 1 * 2 ^ 6
    [nearAddr (rehField h) (f 17 5) off / 8]

/-- A rehearsal on a ring without a clause is done once its fault has acted and no clause has to recover from it (DESIGN CHOICE,
log entry 81). -/
def rehearsalTick (s : State) : State :=
  let h := s.box.reh
  let waits : Bool := !h.poisonNext.isEmpty || h.stall.isSome || h.lossRing.isSome ||
    s.tens.any fun p => match p.2.run with | some u => u.rehearsedAt.isSome | none => false
  if h.status ≠ 2 || waits then s
  else modBox s fun b => { b with reh := { b.reh with status := 3, refused := false, lastNs := 0, count := b.reh.count + 1 } }

/-- A rehearsed fault is injected. -/
def injectFault (s : State) : State :=
  let h := s.box.reh
  let r := rehRing h
  match h.kind with
  | 1 =>
    let i := rehField h * 72 + fld h.target 9 7
    let t := tileOf s i
    let s := modBox s fun b => { b with reh := { b.reh with fenced := some i } }
    let s := modTile s i fun t => { t with st := .fenced }
    if t.bound then failTile (evTile s i 2 0x0601 (siteNo i + 2 * 2 ^ 7)) i mechDead else s
  | 2 => modBox s fun b => { b with reh := { b.reh with poisonNext := rehLanes h } }
  | 3 =>
    let sd := Side.of (fld h.target 9 2)
    let c := fld h.target 11 4
    let mw : Bool := fld h.target 20 1 = 1
    (match spareLane s (rehField h) sd c mw with
     | some s =>
       let back := some (s.time.uptime + 1000000000, rehField h, Side.no sd * 9 + c, mw)
       let s := modBox s fun b => { b with reh := { b.reh with lane := back } }
       evField s (rehField h) 0 0x0201 (Side.no sd + fld h.target 15 5 * 2 ^ 4)
     | none => s)
  | 4 =>
    let s := modBox s fun b => { b with reh := { b.reh with stall := some r } }
    (ringSites r).foldl (fun s i => modTile s i fun t => { t with stopped := true, eng := { t.eng with stalled := true } }) s
  | _ => modBox s fun b => { b with reh := { b.reh with lossAt := some s.time.uptime, lossRing := some r } }

/-- REHEARSAL_FIRE (R323). -/
def execRehearsalFire (s : State) : Host.Outcome State Fault Refusal :=
  .next (
    if s.box.reh.status ≠ 1 || !computeUp s then s
    else
      let now := s.time.uptime
      let s := modBox s fun b => { b with reh := { b.reh with status := 2, refused := false, firedAt := some now, real := false } }
      match clauseAt s (rehRing s.box.reh) with
      | some (n, _) => injectFault (modRun s n fun u => { u with rehearsedAt := some now, rehearsedBeat := u.sentBeat })
      | none => injectFault s)

/-- LANE_DROP_RETURN. -/
def execLaneDropReturn (s : State) : Host.Outcome State Fault Refusal :=
  .next (
    match s.box.reh.lane with
    | none => s
    | some (at_, f, k, mw) =>
      if s.time.uptime < at_ then s
      else
        let give (s : State) (f : Nat) (sd : Side) : State := modField s f fun x =>
          if mw then { x with mwSpares := SMap.put 0 x.mwSpares (Side.no sd) (SMap.get 0 x.mwSpares (Side.no sd) - 1) }
          else
            let j := Side.no sd * 9 + k % 9
            { x with sparesUsed := SMap.put 0 x.sparesUsed j (SMap.get 0 x.sparesUsed j - 1) }
        let sd := Side.of (k / 9)
        let s := give s f sd
        let s := match neighbour f sd with | some g => give s g (Side.back sd) | none => s
        modBox s fun b => { b with reh := { b.reh with lane := none } })

end Sys2Proof.Machine
end

