-- ==== Sys2Proof/Machine/Mesh.lean ====
section
/-! DEFINITION. Words on their way from outbound to inbound buffers, and the steering match buffer (spec/03_tile.md R50 to
R59, R76, R482; spec/05_tile_commands.md R126 to R130; spec/07_scheduled_mesh.md R174, R176 to R184, R199). -/

namespace Sys2Proof.Machine
open Sys2Proof

/-! ### Outbound words (R58, R59, R482) -/

/-- Parity of a lane: the exclusive or of its bits (log entry 15). -/
def laneParity (v : Nat) : Bool := (List.range 64).foldl (fun p k => p != (fldN v k 1 = 1)) false

/-- One bit for each of the eight lanes of a word. -/
def laneBits (p : Nat → Bool) : BitVec 8 := BitVec.ofNat 8 ((List.range 8).foldl (fun n l => n + b2n (p l) * 2 ^ l) 0)

/-- The word at the head of an outbound buffer as it leaves its tile, with its sideband (R59): EOP on the last word of a
packet, VB on the last word of a short row (R482). -/
def sentWord (s : State) (j : Nat) (o : OutBuf) : Option MeshWord :=
  let t := tileOf s j
  match o.rows with
  | [] => none
  | r :: _ =>
    let bytes := padTo 0 64 (r.bytes.take (min 64 r.count))
    let far := match o.dest with | some (.midway _ _ _ _) => true | _ => false
    some { bytes := bytes
           par := laneBits fun l => laneParity (seqAt (leNat bytes) 64 l)
           psn := laneBits fun l => r.psn.contains l
           vb := BitVec.ofNat 6 (min 64 r.count)
           eop := r.eop && decide (r.count ≤ 64)
           btag := r.btag
           epoch := t.epoch
           rgen := if far then (ringOf s (siteRing j)).gen else 0, tgen := if far then t.gen else 0
           ngen := if far then (match ringTen s (siteRing j) with | some n => (tenOf s n).gen | none => 0) else 0 }

/-- Remove that word. -/
def popWord (o : OutBuf) : OutBuf :=
  match o.rows with
  | [] => o
  | r :: rs =>
    if r.count ≤ 64 then { o with rows := rs }
    else { o with rows := { r with bytes := r.bytes.drop 64, count := r.count - 64
                                   psn := (r.psn.filter (8 ≤ ·)).map (· - 8) } :: rs }

/-! ### Paths of the mesh (R177 to R181) -/

/-- One hop of a path: the site whose port drives the word, the side, the cc, and the field and crossing of a seam or
bridge that it passes. -/
structure Hop where
  site : Nat
  side : Side
  cc : Nat
  cross : Option (Nat × Nat) := none
  deriving DecidableEq, Repr

/-- Where a hop leads: the site of the next virtual tile, inside the field or across its seam or bridge, and whether it
crosses one. -/
def nextTile (s : State) (i : Nat) (sd : Side) : Option (Nat × Bool) :=
  let f := siteField i
  let v := (tileOf s i).vtile.toNat
  let (inside, u, w) : Bool × Nat × Nat := match sd with
    | .north => (decide (8 ≤ v), v - 8, v + 56)
    | .south => (decide (v < 56), v + 8, v - 56)
    | .west => (v % 8 ≠ 0, v - 1, v + 7)
    | .east => (v % 8 ≠ 7, v + 1, v - 7)
  if inside then some (siteOf s f u, false)
  else (neighbour f sd).map fun g => (siteOf s g w, true)

/-- Hop latency (R177). -/
def hopLatency (i : Nat) (sd : Side) (cross : Bool) : Nat :=
  let slack := if sd = .north ∨ sd = .south then 1 else 0
  slack + (if !cross then 1 else if isBridge (siteField i) sd then 25 else 3)

/-- The crossing of a site's port: one for each physical row, or column (R180). -/
def crossingOf (i : Nat) (sd : Side) : Nat := if sd = .north ∨ sd = .south then siteNo i % 9 else siteNo i / 9

/-- The hops of a path that a word enters at a site in cc, and the site and the cc of its arrival. -/
def hopsOf (s : State) (i cc : Nat) : List Side → Option (List Hop × Nat × Nat)
  | [] => some ([], i, cc)
  | sd :: r =>
    match nextTile s i sd with
    | none => none
    | some (j, cross) =>
      (hopsOf s j (cc + hopLatency i sd cross) r).map fun p =>
        ({ site := i, side := sd, cc := cc, cross := if cross then some (siteField i, crossingOf i sd) else none } :: p.1,
         p.2)

/-- A word may enter a crossing in cc: at the start of a slot that the crossing's lanes leave it (R180, R181). -/
def slotOpen (s : State) (f : Nat) (sd : Side) (c cc : Nat) : Bool :=
  let w := 32 - SMap.get 0 (fieldOf s f).lanesLost (Side.no sd * 9 + c)
  let len := if isBridge f sd then 8 else 2
  cc % len = 0 && decide (24 ≤ w) && (w = 32 || cc % (4 * len) ≠ 3 * len)

def portKey (h : Hop) : Nat := Side.no h.side * 2 ^ 20 + h.cc

/-- A hop finds its port claimed, or no slot of its crossing (R178; log entry 76). -/
def hopTaken (s : State) (h : Hop) : Bool :=
  (tileOf s h.site).driven.contains (portKey h) ||
  (match h.cross with | some (f, c) => !slotOpen s f h.side c h.cc | none => false)

/-- Claim the ports of a path. -/
def drivePath (s : State) (hs : List Hop) : State :=
  hs.foldl (fun s h => modTile s h.site fun t => { t with driven := portKey h :: t.driven }) s

/-! ### CRC of a crossing (R183, R184) -/

/-- Failures of a lane within the last second, with one more now. -/
def addFail (s : State) (old : List Nat) : List Nat :=
  (old.filter fun t => decide (s.time.uptime ≤ t + 1000000000)) ++ [s.time.uptime]

/-- A failure attributed to a lane: with more than 4 in 1 s the lane is retired at the next tick (R184). -/
def laneFailed (s : State) (f key : Nat) : State :=
  let l := addFail s (SMap.get [] (fieldOf s f).laneFails key)
  modField s f fun x => { x with
    laneFails := SMap.put [] x.laneFails key l
    laneDue := if 4 < l.length then NSet.add x.laneDue key else x.laneDue }

/-- A word fails its check on a crossing: counted and attributed on the side that receives it. -/
def crcFails (s : State) (h : Hop) (lane : Nat) : State :=
  match h.cross, neighbour (siteField h.site) h.side with
  | some (_, c), some g =>
    let sd := Side.back h.side
    let k := Side.no sd
    let s := modField s g fun x => { x with crcErr := SMap.put 0 x.crcErr k (sat 16 (SMap.get 0 x.crcErr k + 1)) }
    laneFailed s g ((Side.no sd * 9 + c) * 64 + lane)
  | _, _ => s

/-! ### Inbound words (R53 to R57) -/

/-- Valid bytes of a word (R59). -/
def wordVb (w : MeshWord) : Nat := if w.vb = 0 then 64 else w.vb.toNat

/-- Put a word into a row, as the row's word `n`; padding lanes are never poisoned (R54). -/
def putWord (r : InRow) (n : Nat) (w : MeshWord) (prov : Bool) : InRow :=
  let lanes (p : Nat → Bool) : List Nat :=
    ((List.range 8).filter fun l => decide (8 * l < wordVb w) && p l).map (8 * n + ·)
  let keep (xs : List Nat) : List Nat := xs.filter fun l => decide (l < 8 * n) || decide (8 * n + 8 ≤ l)
  let more := if r.count > 64 * n + 64 && n < 7 then r.bytes.drop (64 * n + 64) else []
  { r with bytes := padTo 0 512 (padTo 0 (64 * n) r.bytes ++ padTo 0 64 (w.bytes.take (wordVb w)) ++ more)
           count := max (64 * n + wordVb w) (if more.isEmpty then 0 else r.count)
           psn := keep r.psn ++ lanes fun l => bit w.psn l
           badPar := keep r.badPar ++ lanes fun l => laneParity (seqAt (leNat w.bytes) 64 l) ≠ bit w.par l
           endsPkt := w.eop || (r.endsPkt && !more.isEmpty), prov := r.prov || prov }

/-- The rows of a packet, by their places in the bank. -/
def pktRows (b : Bank) (p : Nat) : List Nat :=
  (List.range b.rows.length).filter fun k => match b.rows[k]? with | some r => r.pkt = p | none => false

/-- One word of the packet that arrives has been taken. -/
def wordTaken (b : InBuf) (src : Producer) (w : MeshWord) : InBuf :=
  if w.eop then { b with wrPkt := nextPkt b.live (b.wrPkt + 1), wrw := 0, last := some src }
  else { b with wrw := b.wrw + 1, last := some src }

/-- Store one word in the live bank (R53); none where the write handshake stays incomplete (R52). A word whose place the
bank holds already rewrites it: a replayed producer sends it again (R56). A word of a packet whose rest was discarded is
not written (R55), and counts as dropped the first time. -/
def storeWord (b : InBuf) (replay ext prov : Bool) (src : Producer) (w : MeshWord) : Option InBuf :=
  let n := b.wrw % 8
  let bank := if ext then { b.live with ext := NSet.add b.live.ext b.wrPkt } else b.live
  let put (k : Nat) (rows : List InRow) (isOpen : Bool) : InBuf :=
    let rows := rows.zipIdx.map fun (r, m) => if m = k then putWord r n w prov else r
    { b with live := { bank with rows := rows }, rowOpen := isOpen
             lastVb := match rows[k]? with | some r => r.count | none => b.lastVb }
  let lost : InBuf := { b with live := bank, drops := if replay then b.drops else sat 16 (b.drops + 1) }
  let isOpen := !w.eop && decide (n < 7)
  let here := (pktRows b.live b.wrPkt)[b.wrw / 8]?
  let held : Nat := match here.bind (fun k => b.live.rows[k]?) with | some r => r.count | none => 0
  let next : Option InBuf := match here with
   | some k =>
     if 64 * n < held then some (put k b.live.rows b.rowOpen)
     else if b.live.dropped.contains b.wrPkt then some lost
     else some (put k b.live.rows (isOpen && k + 1 = b.live.rows.length))
   | none =>
     if b.live.dropped.contains b.wrPkt then some lost
     else if 64 ≤ b.live.rows.length then none
     else some (put b.live.rows.length (b.live.rows ++ [{ bytes := [], count := 0, pkt := b.wrPkt }]) isOpen)
  next.map fun x => wordTaken x src w

/-! ### Withdrawn packets (R127, R129) -/

def tkSeq (t : Nat) : Nat := fldN t 0 16
def tkDest (t : Nat) : Nat := fldN t 16 4
def tkRule (t : Nat) : Nat := fldN t 20 4

/-- A buffer carries tokens: an installed rule names it as TIN (R126). -/
def tokenBuf (t : Tile) (b : Nat) : Bool := t.rules.any fun p => p.2.tin = b

/-- A withdrawal header reaches the receiver of a packet forwarded on prediction, which stands in one of the buffers `bs`:
unread, the packet is dropped; read, the beat fails its audit (R129). None where there is no such packet. -/
def withdrawFrom (s : State) (i : Nat) (bs : List Nat) (tok : Nat) : Option State :=
  let t := tileOf s i
  let isIt (r : InRow) : Bool :=
    let h := leNat (r.bytes.take 8)
    tkRule h = tkRule tok && tkSeq h = tkSeq tok && fldN h 26 1 = 1 && fldN h 25 1 = 0
  let first (b k : Nat) : Option (Nat × Nat × Nat) := match (inBuf t b).live.rows[k]? with
    | some r => if isIt r && !r.discard && (pktRows (inBuf t b).live r.pkt).head? = some k then some (b, k, r.pkt) else none
    | none => none
  (bs.findSome? fun b => (List.range (inBuf t b).live.rows.length).findSome? (first b)).map fun p =>
    let x := inBuf t p.1
    let mine (r : InRow) : Bool := r.pkt = p.2.2
    if p.2.1 < x.rd then evTile (failTile s i mechOther) i 1 0x0403 (tkRule tok)
    else modTile s i fun t => setInBuf t p.1
      { x with live := { x.live with rows := x.live.rows.map fun r => if mine r then { r with discard := true } else r }
               drops := sat 16 (x.drops + liveWords (x.live.rows.filter mine)) }

/-- A packet of one word that has come to a data buffer is a withdrawal header: the image carries SPEC, the word is laid out as
such a header (R127), and it names a packet of the buffer. The packet is withdrawn, and the header itself is no row of the
receiver's stream (R129; DEDUCED, log entry 82). -/
def withdrawHeader (s : State) (i b p : Nat) : State :=
  let t := tileOf s i
  let x := inBuf t b
  let spec : Bool := match (ringTen s (siteRing i)).bind fun n => (tenOf s n).sentence with
    | some y => y.spec
    | none => false
  match pktRows x.live p with
  | [k] => match x.live.rows[k]? with
    | some r =>
      let tok := leNat (r.bytes.take 8)
      if spec && !tokenBuf t b && r.endsPkt && r.count = 64 && fldN tok 24 3 = 7 && fldN tok 27 8 = t.epoch.toNat then
        match withdrawFrom s i [b] tok with
        | none => s
        | some s => modTile s i fun t => setInBuf t b { inBuf t b with live := { (inBuf t b).live with
            rows := (inBuf t b).live.rows.zipIdx.map fun q => if q.2 = k then { q.1 with discard := true } else q.1 } }
      else s
    | none => s
  | _ => s

/-- The clause of a ring is held for an EXTERNAL wait: held beats take what comes from outside (R340). -/
def extHold (s : State) (r : Nat) : Bool :=
  match ringRun s r with
  | some (_, u) => (match u.phase with | .hold _ => true | _ => false)
  | none => false

/-- A word is offered to an inbound buffer: what it does there, or none where its handshake stays incomplete. -/
def offerWord (s : State) (i b : Nat) (src : Producer) (w : MeshWord) : Option State :=
  let t := tileOf s i
  let ext := extProducer src
  if !t.bound || t.stopped || halts s (siteRing i) then none
  else if w.epoch ≠ t.epoch then some (epochDiscard s i)
  else if ext && (t.st = .replay || t.grace) && !extHold s (siteRing i) then none
  else
    let prov := w.btag.toNat = (t.sentBeat.toNat + 3) % 4
    (storeWord (inBuf t b) (t.st = .replay) ext prov src w).map fun x =>
      withdrawHeader (modTile s i fun t => setInBuf t b { x with lastAt := t.sentBeat.toNat }) i b (inBuf t b).wrPkt

/-- A word for a mirror pair is written into both halves' buffers (R76). -/
def takeWord (s : State) (i b : Nat) (src : Producer) (w : MeshWord) : Option State :=
  match (if mirrorOn s i then pairSite i (tileOf s i) else none) with
  | some j => (offerWord s i b src w).bind fun s => offerWord s j b src w
  | none => offerWord s i b src w

/-! ### Arrivals (R53, R58, R178, R183) -/

/-- The destination of an outbound buffer leads by a path to an inbound buffer of a tile (R481). -/
def destIs (d : Option Dest) (path : List Side) (t : Tile) (b : Nat) : Bool :=
  match d with
  | some (.mesh sd) => path.head? = some sd
  | some (.midway vt vf vr ib) =>
    path.isEmpty && vt = t.vtile.toNat && vf = t.vfield.toNat && vr = t.vring.toNat && ib = b
  | none => false

/-- What transit does to a word: bits turn over, and a failed check of a crossing poisons all eight lanes (R183). -/
def transit (w : MeshWord) (flips : BitVec 512) (bad : Bool) : MeshWord :=
  { w with bytes := leBytes 64 (leNat w.bytes ^^^ flips.toNat), psn := if bad then 0xFF else w.psn }

/-- The ring's pool has room for one more word of a tile: R246 has no packet and R254 no queue for stream words, so a word takes
one cell of the tile's own queue, under its cap and of the free cells that the queues share (R52; DESIGN CHOICE, log entry
82). -/
def wordRoom (s : State) (i : Nat) : Bool := cellsFit s (siteRing i) (tileQueue (tileOf s i)) 1

/-- A word of a Midway sender reaches a tile: its inbound buffer takes it, or it stays in the ring's pool behind the words that
wait there already; none where the pool has no room for it either (R52). -/
def poolWord (s : State) (i b : Nat) (src : Producer) (w : MeshWord) : Option State :=
  let r := siteRing i
  let waits := (ringOf s r).words.any fun x => x.site = i && x.buf = b
  match (if waits then none else takeWord s i b src w) with
  | some s => some s
  | none =>
    if !(tileOf s i).bound || dark s r || !wordRoom s i then none
    else some (modRing s r fun x => { x with words := x.words ++ [{ site := i, buf := b, src := src, word := w }] })

/-- The words of a ring's pool that their inbound buffers now take, in order; words for a tile that has left go. -/
def offerPool (s : State) (r : Nat) : State :=
  ((ringOf s r).words.foldl (fun (p : State × List (Nat × Nat)) x =>
    let keep (s : State) : State := modRing s r fun y => { y with words := y.words ++ [x] }
    if !(tileOf p.1 x.site).bound then p
    else if p.2.contains (x.site, x.buf) then (keep p.1, p.2)
    else match takeWord p.1 x.site x.buf x.src x.word with
      | some s => (s, p.2)
      | none => (keep p.1, (x.site, x.buf) :: p.2)) (modRing s r fun y => { y with words := [] }, [])).1

/-- A word that the pool refuses is deflected at the tile's router and comes back: the word stays with its sender until it does
(R52, R250, R255; log entry 82). -/
def wordDeflected (s : State) (i : Nat) : State :=
  if dark s (siteRing i) then s else
  let s := modRing s (siteRing i) fun x => { x with refused := sat 16 (x.refused + 1) }
  modField s (siteField i) fun x => { x with deflect := sat 24 (x.deflect + 1) }

/-- The word at the head of outbound buffer `o` of tile `j` goes its way to buffer `b` of tile `i`. -/
def sendOut (s : State) (i b j o : Nat) (src : Producer) (cc : Nat) (path : List Side) (flips : BitVec 512)
    (crc : Option (Nat × Nat)) : State :=
  match sentWord s j (outBuf (tileOf s j) o), hopsOf s j cc path with
  | some w, some (hs, last, arrives) =>
    if halts s (siteRing j) || hs.any (fun h => dark s (siteRing h.site)) || (tileOf s j).stopped || !destIs (outBuf (tileOf s j) o).dest path (tileOf s i) b || (!path.isEmpty && last ≠ i) then s
    else if hs.any (hopTaken s) then trapTile s j trCollide (.slot 0xFFFF)
    else
      let bad := crc.bind fun p => (hs[p.1]?.filter fun h => h.cross.isSome).map fun h => (h, p.2)
      match (if path.isEmpty then poolWord else takeWord) s i b src (transit w flips bad.isSome) with
      | none => if path.isEmpty then wordDeflected s i else s
      | some s =>
        let s := match bad with | some (h, lane) => crcFails s h lane | none => s
        let s := drivePath (modTile s j fun t => setOutBuf t o (popWord (outBuf t o))) hs
        if path.isEmpty then s
        else modTile s i fun t => { t with eng := { t.eng with arriveBy := max t.eng.arriveBy arrives } }
  | _, _ => s

/-- A word reaches an inbound buffer. -/
def meshWord (s : State) (i b : Nat) (src : Producer) (w : WordIn) : State :=
  match src, w with
  | .tile vr vf vt, .sent out cc path flips crc =>
    match (ringTen s (siteRing i)).bind fun n => vSite s n vr vf vt with
    | some j => sendOut s i b j out src cc path flips (crc.map fun p => (p.1, p.2.val))
    | none => s
  | _, .whole w => if extProducer src then (poolWord s i b src w).getD (wordDeflected s i) else s
  | _, _ => s

/-- MESH_WORD (R53). -/
def execMeshWord (site : SiteId) (buf : BufId) (src : Producer) (w : WordIn) (s : State) :
    Host.Outcome State Fault Refusal :=
  .next (meshWord s site buf src w)

/-! ### Tokens (R127) -/

/-- A token: packet, destination, rule, VALID, WD, SPEC and epoch. -/
def mkToken (seq dest rule : Nat) (wd spec : Bool) (epoch : Nat) : Nat :=
  seq % 2 ^ 16 + dest * 2 ^ 16 + rule * 2 ^ 20 + 2 ^ 24 + b2n wd * 2 ^ 25 + b2n spec * 2 ^ 26 + epoch * 2 ^ 27

/-- The 64-byte header word of a steered packet. -/
def headerRow (tok : Nat) (eop : Bool) (spec : Option (Nat × Nat)) : OutRow :=
  { bytes := leBytes 64 tok, count := 64, eop := eop, spec := spec }

def rowsOut (spec : Option (Nat × Nat)) (rs : List InRow) : List OutRow :=
  rs.zipIdx.map fun (r, n) =>
    { bytes := r.bytes, count := r.count, psn := r.psn, eop := n + 1 = rs.length, spec := spec }

/-! ### Forwarding (R128) -/

/-- How a packet is forwarded: whole, but for its last `left` rows, not yet, or in a trap. -/
inductive Fwd where
  | done (s : State) (left : Nat)
  | full
  | trap (code : Nat)

/-- Forward a packet to a destination behind its header; of a packet of 64 rows the last row waits until the first has left
the outbound buffer (R58). -/
def forward (s : State) (i dest tok : Nat) (rs : List InRow) (spec : Option (Nat × Nat)) : Fwd :=
  let t := tileOf s i
  if dest ≤ 3 then
    if (outBuf t dest).dest.isNone then .trap trFormat
    else if outFree t dest < min 64 (rs.length + 1) then .full
    else .done (pushOut s i dest ((headerRow tok false spec :: rowsOut spec rs).take 64)) (rs.length - 63)
  else if dest = 4 then
    match t.rules.find? (fun p => p.1 = tkRule tok) with
    | none => .full
    | some (k, r) =>
      if r.rrows < r.used + rs.length then .trap trRegion
      else if carryBroken t (r.rbase + r.used) rs.length then .trap trCarry
      else
        let s := modTile s i fun t => { t with rules := t.rules.map fun p =>
          if p.1 = k then (k, { r with used := r.used + rs.length }) else p }
        .done (writeRows s i (r.rbase + r.used) (rs.map fun x => (x.bytes, x.psn))) 0
  else .done s 0

/-- Forward and free the entry, keep it while the outbound buffer is full, or trap: the steering unit has no slot, and a trap of
its own carries 0xFFFF in SLOT (DESIGN CHOICE, log entry 82). -/
def forwardEntry (s : State) (i : Nat) (e : MatchEntry) (tok : Nat) (rs : List InRow) : State :=
  let keep (s : State) (left : Nat) : State := modTile s i fun t => { t with matchBuf := t.matchBuf ++
    [{ e with token := some tok, rows := some rs, specDest := none, left := left, undo := none }] }
  match forward s i (tkDest tok) tok rs none with
  | .done s left => if left = 0 then s else keep s left
  | .full => keep s 0
  | .trap c => trapTile s i c (.slot 0xFFFF)

/-- A new entry, or the overflow of R130: the arrival is not accepted, and at the tick the beat counts as an overrun. -/
def addEntry (s : State) (i : Nat) (e : MatchEntry) : State × Bool :=
  let t := tileOf s i
  if t.matchBuf.length < 64 then (setTile s i { t with matchBuf := t.matchBuf ++ [e] }, true)
  else (setTile s i { t with matchOvf := true, ovfDue := true, err := t.err ||| errMatch }, false)

def dropEntry (s : State) (i : Nat) (e : MatchEntry) : State :=
  modTile s i fun t => { t with matchBuf := eraseIdx1 t.matchBuf (fun x => decide (x = e)) }

/-! ### Prediction (R129) -/

/-- The destination that tokens of a rule named most often in the previous work beat, lowest on ties; none where no token
named the rule. -/
def predicted (t : Tile) (rule : Nat) : Option Nat :=
  let n (d : Nat) : Nat := SMap.get 0 t.tallyPrev (rule * 6 + d)
  let best := (List.range 6).foldl (fun b d => if n b < n d then d else b) 0
  if n best = 0 then none else some best

/-- Speculation is on for a rule. -/
def specOn (s : State) (i : Nat) (r : SteerRule) : Bool :=
  let t := tileOf s i
  r.spec && t.specEn && t.st ≠ .replay &&
  (match ringTen s (siteRing i) with
   | some n => match (tenOf s n).sentence with | some x => x.spec | none => false
   | none => false)

/-- The wrong prediction of a packet of which `total` rows had entered the outbound buffer: rows still in it are deleted, and
a withdrawal header follows rows that have left, once there is room for it; whether all this is done. Rows appended to the
region stay there (log entry 16). -/
def withdraw (s : State) (i b rule seq total : Nat) : State × Bool :=
  if 3 < b then (s, true) else
    let t := tileOf s i
    let o := outBuf t b
    let mine (r : OutRow) : Bool := r.spec = some (rule, seq)
    let rest := o.rows.filter fun r => !mine r
    let hdr : OutRow := { headerRow (mkToken seq b rule true true t.epoch.toNat) true none with
      btag := BitVec.ofNat 2 t.sentBeat.toNat }
    let put (rows : List OutRow) : State := setTile s i (setOutBuf t b { o with rows := rows })

    if total ≤ (o.rows.filter mine).length then (put rest, true)
    else if rest.length < 64 then (put (rest ++ [hdr]), true)
    else (s, false)

/-- A packet with its token whose prediction was another destination is withdrawn there and forwarded again. -/
def redirect (s : State) (i d : Nat) (e : MatchEntry) (tok : Nat) (rs : List InRow) : State :=
  let p := withdraw s i d e.rule e.seq (rs.length + 1 - e.left)
  if p.2 then forwardEntry p.1 i { e with left := 0 } tok rs
  else modTile p.1 i fun t => { t with matchBuf := t.matchBuf ++ [{ e with token := some tok, rows := some rs, undo := some d }] }

/-- The last rows of a packet find room, and the entry is freed if its token has come. -/
def pushRest (s : State) (i d : Nat) (e : MatchEntry) : State :=
  let rs := e.rows.getD []
  if outRoom (tileOf s i) d < e.left then s
  else
    let spec := if e.specDest.isSome then some (e.rule, e.seq) else none
    let s := pushOut s i d (rowsOut spec (rs.drop (rs.length - e.left)))
    let upd (t : Tile) : List MatchEntry :=
      if e.token.isSome then eraseIdx1 t.matchBuf (fun x => decide (x = e))
      else t.matchBuf.map fun x => if x = e then { x with left := 0 } else x
    modTile s i fun t => { t with matchBuf := upd t }

/-! ### Arrivals (R128 to R130) -/

/-- A token finds its packet, or waits; false where it is not accepted (R130). -/
def tokenIn (s : State) (i tok : Nat) : State × Bool :=
  let t := tileOf s i
  let key := tkRule tok * 6 + tkDest tok
  let tally (s : State) : State := modTile s i fun t =>
    { t with tally := SMap.put 0 t.tally key (SMap.get 0 t.tally key + 1) }
  match t.matchBuf.find? (fun e => e.rule = tkRule tok && e.seq = tkSeq tok && e.rows.isSome && e.token.isNone) with
  | some e =>
    let s := tally (dropEntry s i e)
    let rs := e.rows.getD []
    (match e.specDest with
     | some d =>
       if d ≠ tkDest tok then redirect s i d e tok rs
       else if e.left = 0 then s
       else modTile s i fun t => { t with matchBuf := t.matchBuf ++ [{ e with token := some tok }] }
     | none => forwardEntry s i e tok rs, true)
  | none =>
    let p := addEntry s i { rule := tkRule tok, seq := tkSeq tok, token := some tok }
    (if p.2 then tally p.1 else p.1, p.2)

/-- Rows of the next packet of a buffer, all of them arrived. -/
def packetRows (b : InBuf) : Option Nat :=
  ((inUnread b).findIdx? fun r => r.endsPkt).map (· + 1)

/-- The rows as the match buffer keeps them. -/
def rowBack (r : RowRd) : InRow := { bytes := r.bytes, count := r.count, psn := r.psn, endsPkt := r.eop }

/-- The next governed packet of a rule finds its token, is forwarded on prediction, or waits. -/
def packetIn (s : State) (i rule : Nat) : State :=
  let t := tileOf s i
  match t.rules.find? (fun p => p.1 = rule) with
  | none => s
  | some (_, r) =>
    match packetRows (inBuf t r.din) with
    | none => s
    | some n =>
      let tok := t.matchBuf.find? (fun e => e.rule = rule && e.seq = r.seq % 2 ^ 16 && e.token.isSome && e.rows.isNone)
      if tok.isNone && 64 ≤ t.matchBuf.length then (addEntry s i { rule := rule, seq := r.seq }).1
      else match takeRows s i r.din n with
      | none => s
      | some (s, rds) =>
        let rs := rds.map rowBack
        let s := modTile s i fun t => { t with rules := t.rules.map fun p =>
          if p.1 = rule then (rule, { p.2 with seq := p.2.seq + 1 }) else p }
        match tok with
        | some e => forwardEntry (dropEntry s i e) i e (e.token.getD 0) rs
        | none =>
          let e : MatchEntry := { rule := rule, seq := r.seq % 2 ^ 16, rows := some rs }
          match (if specOn s i r then predicted t rule else none) with
          | none => (addEntry s i e).1
          | some d =>
            match forward s i d (mkToken e.seq d rule false true t.epoch.toNat) rs (some (rule, e.seq)) with
            | .done s left => (addEntry s i { e with specDest := some d, left := left }).1
            | .full => (addEntry s i e).1
            | .trap c => trapTile s i c (.slot 0xFFFF)

/-- A token word's slot (R127): empty, of an older epoch, a withdrawal, or a token; a Reserved DEST is taken as an empty
slot (log entry 17). False where the token is not accepted. -/
def tokenArrives (s : State) (i tok : Nat) : State × Bool :=
  let t := tileOf s i
  if fldN tok 24 1 = 0 then (s, true)
  else if fldN tok 27 8 ≠ t.epoch.toNat then (epochDiscard s i, true)
  else if fldN tok 25 1 = 1 then ((withdrawFrom s i (List.range 4) tok).getD s, true)
  else if 5 < tkDest tok then (s, true)
  else tokenIn s i tok

/-- The next token of a buffer: its row, its 64 bits, and whether the word it stands in has more. -/
def nextToken (b : InBuf) : Option (Nat × InRow × Nat × Bool) :=
  match inNextOf b b.live.rows.length with
  | none => none
  | some k => match b.live.rows[k]? with
    | none => none
    | some r =>
      if r.count ≤ 8 * b.tok then none
      else some (k, r, leNat ((r.bytes.drop (8 * b.tok)).take 8), decide (8 * (b.tok + 1) < r.count) && (b.tok + 1) % 8 ≠ 0)

/-- The buffer after a token has been taken: the row is read once its last word is. -/
def passToken (b : InBuf) (k : Nat) (r : InRow) : InBuf :=
  if r.count ≤ 8 * (b.tok + 1) && !(b.rowOpen && k + 1 = b.live.rows.length) then passRow b k r
  else { b with tok := b.tok + 1 }

/-- The steering unit takes the tokens of the next word of a buffer, up to one that is not accepted (R127, R130). The word's
parity is checked and its poison counted as it is read (R54); a token in a poisoned lane fails the audit of its beat
(log entry 17). -/
def tokenWord (s : State) (i b : Nat) : Nat → State
  | 0 => s
  | f + 1 =>
    match nextToken (inBuf (tileOf s i) b) with
    | none => s
    | some (k, r, tok, more) =>
      let lane := (inBuf (tileOf s i) b).tok
      let q := tokenArrives s i tok
      if !q.2 then q.1
      else
        let one : InRow := { r with psn := r.psn.filter (· = lane), badPar := r.badPar.filter (· = lane) }
        let p := noteRow q.1 i b k one (passToken (inBuf (tileOf q.1 i) b) k r)
        let s := if p.2.isEmpty then p.1 else failCheck p.1 i mechPoison
        if more then tokenWord s i b f else s

/-- Entries whose packet waits only for room in an outbound buffer: for its last rows, for its withdrawal header, or for the
whole of it. -/
def flushReady (s : State) (i : Nat) : State :=
  ((tileOf s i).matchBuf.filter fun e => e.rows.isSome && (e.token.isSome || e.left ≠ 0)).foldl (fun s e =>
    let tok := e.token.getD 0
    match e.undo with
    | some d => redirect (dropEntry s i e) i d e tok (e.rows.getD [])
    | none =>
      if e.left ≠ 0 then pushRest s i (e.specDest.getD (tkDest tok)) e
      else forwardEntry (dropEntry s i e) i e tok (e.rows.getD [])) s

/-- The steering unit of a tile takes an arrival, after what waits for room only. -/
def steerTile (s : State) (i : Nat) (a : SteerArrival) : State :=
  let s := flushReady s i
  match a with
  | .word b => if tokenBuf (tileOf s i) b then tokenWord s i b 8 else s
  | .packet r => packetIn s i r

/-- Rows that the steering unit has appended to the regions of a tile's rules since `t`. -/
def grown (t u : Tile) : List Nat :=
  u.rules.flatMap fun p => match t.rules.find? fun q => q.1 = p.1 with
    | some q => (List.range (p.2.used - q.2.used)).map (p.2.rbase + q.2.used + ·)
    | none => []

/-- The halves of a mirror pair have forwarded: rows that differ, in their outbound buffers or in their regions, are poisoned
in both and the compare has failed (R76). `s₀` is the state before. -/
def steerCompare (s₀ s : State) (i : Nat) : State :=
  let j := i + 9
  let bad (r : OutRow) : OutRow := { r with psn := List.range 64 }
  let outs (k b : Nat) : List OutRow := (outBuf (tileOf s k) b).rows
  let differ (b : Nat) : List Nat := (List.range (max (outs i b).length (outs j b).length)).filter fun n =>
    (outs i b)[n]? ≠ (outs j b)[n]? &&
    ((outs i b)[n]?.map (·.psn) ≠ some (List.range 64) || (outs j b)[n]?.map (·.psn) ≠ some (List.range 64))
  let rows := ((grown (tileOf s₀ i) (tileOf s i) ++ grown (tileOf s₀ j) (tileOf s j)).foldl NSet.add []).filter fun r =>
    decide (readRow s i r ≠ readRow s j r)
  if rows.isEmpty && (List.range 4).all fun b => (differ b).isEmpty then s
  else
    let mark (s : State) (k : Nat) : State :=
      let s := modTile s k fun t => (List.range 4).foldl (fun t b => setOutBuf t b { outBuf t b with
        rows := (outBuf t b).rows.zipIdx.map fun p => if (differ b).contains p.2 then bad p.1 else p.1 }) t
      rows.foldl (fun s r => writeRow s k r (readRow s k r).bytes (List.range 64)) s
    mirrorFails (mark (mark s i) j) i (rows.headD 0)

/-- An arrival at the steering unit of a running tile; one under test holds it in the sideshow window (R317). The catcher of a
mirror pair works with its flyer (R76). -/
def steerMatch (s : State) (i : Nat) (a : SteerArrival) : State :=
  let t := tileOf s i
  if !(t.st = .running || t.st = .replay) || t.stopped || halts s (siteRing i) || coreHeld s i (beatCc s) ||
    (mirrorOn s i && t.role = 2) then s
  else if mirrorOn s i then steerCompare s (steerTile (steerTile s i a) (i + 9) a) i
  else steerTile s i a

/-- STEER_MATCH (R128). -/
def execSteerMatch (site : SiteId) (a : SteerArrival) (s : State) : Host.Outcome State Fault Refusal :=
  .next (steerMatch s site a)

end Sys2Proof.Machine
end

