-- ==== Sys2Proof/Machine/Beat.lean ====
section
/-! DEFINITION. The tick that ends a beat, and hang analysis (spec/02_programming_model.md R34 to R40;
spec/07_scheduled_mesh.md R171 to R176, R202; spec/11_audit_and_replay.md R313 to R316;
spec/12_hangs_errors_escalation.md R326 to R331, R336 to R341, R348; spec/17_bringup_reset_time.md R452, R457). -/

namespace Sys2Proof.Machine
open Sys2Proof

/-! ### Has the beat finished (R174) -/

/-- The catcher of a mirror pair runs its verbs with the flyer's. -/
def mirrored (s : State) (i : Nat) : Bool := mirrorOn s i && (tileOf s i).role = 2

def verbsDone (s : State) (i : Nat) : Bool :=
  mirrored s i || decide ((tileOf s i).verbs.length ≤ (tileOf s i).eng.issued)

/-- A dynamic verb is queued, or runs past the tick. -/
def dynLeft (t : Tile) (len : Nat) : Bool := t.dynQ.any fun d => match d.done with
  | some c => decide (len < c)
  | none => true

/-- Words for the mesh wait in an outbound buffer: their schedule has not been kept (R52, R58). -/
def meshLeft (t : Tile) : Bool := t.outb.any fun p => match p.2.dest with
  | some (.mesh _) => !p.2.rows.isEmpty
  | _ => false

def tileDone (s : State) (i : Nat) : Bool :=
  let t := tileOf s i
  let len := beatLen s
  t.st = .fenced || t.st = .halted ||
  (verbsDone s i && decide (t.eng.doneBy ≤ len) && !dynLeft t len && t.core.ended && t.matchBuf.isEmpty && t.waits.isEmpty &&
    t.eng.waiting.isEmpty && decide (t.eng.arriveBy < len) && !meshLeft t && !t.ovfDue && !t.stopped)

def beatDone (s : State) (n : Nat) : Bool := (clauseTiles s n).all fun p => tileDone s p.2.2.2

/-! ### Overrun (R175) -/

/-- Slot of a tile's latest unfinished verb: the last of those that have not issued, one that waits, or one that completes after
the tick. -/
def tileLate (s : State) (i : Nat) : Nat :=
  let t := tileOf s i
  if !verbsDone s i then t.verbs.length - 1
  else max (t.eng.waiting.foldl (fun m w => max m w.slot) 0) (if beatLen s < t.eng.doneBy then t.eng.doneSlot else 0)

/-- Slot of the latest unfinished verb of the beat program. -/
def lateSlot (s : State) (n : Nat) : Nat := (clauseTiles s n).foldl (fun m p => max m (tileLate s p.2.2.2)) 0

/-- What is left of a claim of wide ports after the tick, counted from it. -/
def laterPorts (len : Nat) (u : PortUse) : Option PortUse :=
  let k := if u.step = 0 then 0 else ceilDiv (len - u.cc) u.step
  if u.n ≤ k || u.cc + k * u.step < len then none
  else some { u with cc := u.cc + k * u.step - len, n := u.n - k }

/-- Times of the beat count from the new tick. -/
def shiftTile (len : Nat) (t : Tile) : Tile :=
  let e := t.eng
  let sub (o : Option Nat) : Option Nat := o.map (· - len)
  let t := openSends t
  { t with
    eng := { e with engTo := e.engTo - len, drainTo := e.drainTo - len, sfuTo := e.sfuTo - len, steerTo := e.steerTo - len
                    memTo := e.memTo - len, doneBy := e.doneBy - len, arriveBy := e.arriveBy - len, past := e.past + 1
                    ports := e.ports.filterMap (laterPorts len) }
    core := { t.core with slotAt := none }
    oldRows := (t.oldRows.filter fun o => decide (len ≤ o.w)).map fun o => { o with w := o.w - len }
    driven := (t.driven.filter fun k => decide (len ≤ k % 2 ^ 20)).map (· - len)
    ovfDue := false
    dynQ := t.dynQ.map fun d => { d with done := sub d.done }
    sb := t.sb.map fun p => (p.1, { p.2 with release := sub p.2.release }) }

/-- A grace beat begins: no swap takes place, so HELD_FROZEN stays as it is (R71, R175; DESIGN CHOICE, log entry 75). A tile
that a rehearsal has held for the whole beat issues its verbs in the grace beat (R323; DEDUCED, log entry 81). -/
def graceTile (len : Nat) (t : Tile) : Tile :=
  let u := shiftTile len t
  { u with grace := true, stopped := false, eng := { u.eng with past := if t.eng.stalled then 0 else u.eng.past } }

/-- First overrun: a grace beat. -/
def firstOverrun (s : State) (n : Nat) : State :=
  let slot := lateSlot s n
  let len := beatLen s
  let s := modRun (modClause s n (graceTile len)) n fun u => { u with phase := .grace, overrun := true }
  evRing s (homeRing s n) 1 0x0402 slot

/-- Second overrun: every unit holds its state; the verdict falls 12,288 cc after this tick (R336). -/
def enterHang (s : State) (n : Nat) : State :=
  setPhase (modClause s n fun t => { t with stopped := true, grace := false }) n (.hang (s.time.cc + beatLen s))

def overrunTick (s : State) (n : Nat) (u : Run) : State :=
  match u.phase with
  | .hold _ => modClause s n (shiftTile (beatLen s))
  | .grace => enterHang s n
  | _ => if u.overrun then enterHang s n else firstOverrun s n

/-! ### A beat that finishes (R173) -/

/-- A kept sum at the tick traps its tile (R114). -/
def checkKept (s : State) (n : Nat) : State :=
  (clauseTiles s n).foldl (fun s p =>
    let t := tileOf s p.2.2.2
    if t.eng.keep && !mirrored s p.2.2.2 && (t.st = .running || t.st = .replay) then
      trapTile s p.2.2.2 trAccum (.slot (t.eng.issued - 1)) else s) s

/-- The next beat after one that has finished: R34 inside a clause, or the drain beat. -/
def nextBeat (s : State) (n : Nat) : State :=
  match (tenOf s n).run, clauseOf (tenOf s n) with
  | some u, some c =>
    let b := u.sentBeat
    let s := modRun s n fun u => { u with replayNext := false }
    if u.replayNext then mirrorCarry ((startReplay s n (b + 1)).getD s) n b
    else if u.stopReq then startDrain s n
    else if u.workBeat + 1 < c.workBeats then
      mirrorCarry (workOrHold (modRun s n fun u => { u with workBeat := u.workBeat + 1 }) n) n b
    else if (nextEntry u c).1 = u.clause && !(tenOf s n).switchReq then
      mirrorCarry (workOrHold (modRun s n fun u => { u with passes := (nextEntry u c).2, workBeat := 0 }) n) n b
    else startDrain s n
  | _, _ => s

/-- Actions 3 to 6 and 8 of R173. -/
def passBeat (s : State) (n : Nat) : State :=
  match (tenOf s n).run with
  | none => s
  | some u =>
    let s := modClause s n fun t => mapBufs (if u.replayNext then exchangeBuf else swapBuf) (takeCopies t)
    let again : Bool := match u.topBeat with | some b => decide (u.sentBeat ≤ b) | none => false
    let s := if again then s else modTen s n fun x => { x with sinceIn := x.sinceIn + 1 }
    let s := modRun s n fun v => { v with
      seqs := (seqCopy s n :: v.seqs).take 2, pendingBeat := some v.sentBeat, replays := 0, lastCycle := []
      topBeat := if again then v.topBeat else some v.sentBeat
      late := v.lateDue, lateSites := v.lateSitesDue, lateDue := [], lateSitesDue := []
      overrun := (match u.phase with | .grace | .hold _ => true | _ => false), fails := [], involved := v.lateSitesDue }
    nextBeat s n

/-- The first ring of the clause under repair in which an error of class B or above has been raised since the last tick; `own` are the
codes of failures of the repair's own replay (R348). -/
def secondRing (s : State) (n : Nat) (own : Nat → Bool) : Option Nat :=
  ((clauseRings s n).find? fun p => (plyOf s (ringPly p.2)).raised.any fun q => q.1 = p.2 && !own q.2).map (·.2)

def secondError (s : State) (n : Nat) (own : Nat → Bool) : Bool := (secondRing s n own).isSome

/-- The level of the repair in progress on the rings of a clause; 0 where there is none (R348). -/
def repairLevel (s : State) (n : Nat) : Nat := (clauseRings s n).foldl (fun m p => max m ((ringOf s p.2).repair.getD 0)) 0

/-- Records of a beat's own failures: what fails in a replay is counted by R326. -/
def auditCode (code : Nat) : Bool :=
  [0x0102, 0x0103, 0x0105, 0x0401, 0x0402, 0x0403, 0x0404, 0x0501, 0x0601].contains code

/-- A second error in a ring, which is real, takes the clause one level above its repair: from the context level to the engine level
for the tiles that both errors name, then to the partition level, then to a module compute reset (R330, R348). -/
def oneUp (s : State) (n r level : Nat) (u : Run) : State :=
  let s := noteReal s (some n)
  match level with
  | 1 =>
    let s := rewindBeat (excludeDue s n u) n u
    enterEngine (modRun s n fun v => { v with involved := v.repairSites.foldl NSet.add v.involved, replays := 0 }) n
  | 2 => leaveRing s r .withdrawn
  | _ => startReset (modRun s n fun v => { v with fails := [], late := [] }) causeSecond

/-- The tick of a work, replay, grace or held beat. An error that comes while the replay of a repair still runs is its own failure
where it fails the beat; every other one in a ring under repair is a second error. -/
def workTick (s : State) (n : Nat) : State :=
  match (tenOf s n).run with
  | none => s
  | some u =>
    let done := beatDone s n
    let s := checkKept s n
    let s := if done then checkCarry s n u.sentBeat else s
    let level := repairLevel s n
    let second := if level = 0 then none else secondRing s n fun c => (u.pendingBeat.isNone || u.phase = .replay) && auditCode c
    match u.late, u.pendingBeat with
    | _ :: _, some b => lateFail s n b
    | late, _ =>
      let s := if late.isEmpty then s
        else modRun s n fun v => { v with late := [], fails := NSet.add v.fails mechDead }
      let s := commitPending s n
      match (tenOf s n).run with
      | none => s
      | some v =>
        let ends : Bool := v.fails.contains mechProgram || v.fails.contains mechNoRestore
        if let some r := (if ends then none else second) then oneUp (if v.fails.isEmpty then s else noteFail s n v.fails) n r level v
        else if !v.fails.isEmpty then failBeat s n
        else if !done then overrunTick s n v
        else passBeat s n

/-! ### Rebind beats and takeovers (R288, R297, R326, R348) -/

/-- The conditions of R299 hold. -/
def takeoverBound (s : State) (n : Nat) : Bool :=
  match cfgOf (tenOf s n) with
  | some c => decide (c.restoreMib ≤ 2048) && decide (1000 ≤ s.time.cclkMhz)
  | none => false

/-- A takeover within the conditions of R299 has not resumed its clause within 25 ms of leaving the queue: it has failed (R326,
R349). -/
def takeoverLate (s : State) (n : Nat) (u : Run) : Bool :=
  !u.lateSeen && decide (u.lostAt + 25000000 < s.time.uptime) && takeoverBound s n && !rehearsedOn s (some n)

def countLate (s : State) (n : Nat) : State := partitionFails (modRun s n fun u => { u with lateSeen := true })

/-- Ring whose Ringmaster serves the repair. -/
def repairRing (s : State) (n : Nat) (u : Run) : Nat := (u.involved.map siteRing).headD (homeRing s n)

/-- The last rebind beat has ended. -/
def rebindEnd (s : State) (n : Nat) (u : Run) : State :=
  let r := repairRing s n u
  if u.engineTry && (clauseTiles s n).any (fun p => (tileOf s p.2.2.2).restoring) then engineFails s n r
  else
    let s := if u.engineTry then finishPly s r
      else modRun (u.moved.foldl (fun s p => finishPly s p.2) s) n fun v => { v with moved := [] }
    let s := if u.resuming && takeoverLate s n u then countLate s n else s
    if u.reload then beginLoad s n else resumeRun (if u.resuming then firstCopies s n else s) n false

/-- The tick of a rebind beat: a clause waits while its ply's Ringmaster serves another ring, and a new error is a second error:
one level up (R348). No restore source is an abort (R330). -/
def rebindTick (s : State) (n left : Nat) : State :=
  match (tenOf s n).run with
  | none => s
  | some u =>
    let r := repairRing s n u
    if u.fails.contains mechNoRestore then abortWritten s n
    else if (!(u.fails.isEmpty && u.late.isEmpty) && !rehearsedOn s (some n)) || secondError s n (fun _ => false) then
      oneUp s n ((secondRing s n fun _ => false).getD r) (if u.resuming then 3 else 2) u
    else if u.engineTry && !servesRing s r 2 then s
    else if 1 < left then setPhase s n (.rebind (left - 1))
    else rebindEnd s n u

/-- The tick of a takeover that goes on: its time runs from the moment it leaves the queues of its Ringmasters. -/
def takeoverTick (s : State) (n : Nat) (u : Run) : State :=
  if u.fails.contains mechNoRestore then abortWritten s n
  else if (!(u.fails.isEmpty && u.late.isEmpty) && !rehearsedOn s (some n)) || secondError s n (fun _ => false) then
    oneUp s n (homeRing s n) 3 u
  else if !takeoverServed s u then modRun s n fun v => { v with lostAt := s.time.uptime }
  else if takeoverLate s n u then countLate s n
  else s

/-- Bound in ns of a Ringmaster's action: a binding (R285), an action of the engine level (R289), a takeover within the conditions of
R299; none for any other takeover. -/
def actionBound (s : State) (a : Nat × Nat) : Option Nat :=
  match a.2 with
  | 0 => some (nsOfCc s 4096)
  | 2 => some (nsOfCc s (rebindBeats s * beatLen s))
  | _ => if s.tens.any fun p => takeoverBound s p.1 && (match p.2.run with
        | some u => u.moved.any fun q => q.2 = a.1
        | none => false) then some 25000000 else none

/-- A Ringmaster's action has run longer than twice its bound (R350), a partition reset of its ply's rings too (R297, R453). -/
def overdue (s : State) (p : Nat) : Bool :=
  let x := plyOf s p
  (match x.busy with
    | some a => (match actionBound s a with | some b => decide (x.busyAt + 2 * b < s.time.uptime) | none => false)
    | none => false) ||
  (plyRings p).any fun r => !(ringOf s r).ctlDead && (match (ringOf s r).partStart with
    | some t => decide (t + 700000000 < s.time.uptime)
    | none => false)

/-- A Ringmaster whose action has run too long is faulty: a class F record and a module compute reset (R350). -/
def overdueTick (s : State) : State :=
  match (List.range 4).find? fun p => (plyOf s p).rmOk && overdue s p with
  | some p => if s.box.resetStart.isSome then s else startReset (evModule s 5 0x0803 p) causeRingmaster
  | none => s

/-- The tick of one clause. -/
def clauseTick (s : State) (n : Nat) : State :=
  let s := excludeLate s n
  let s := if guardFull s n then s else releaseCopies (match (tenOf s n).run with | some u => u.copies.length | none => 0) s n
  match (tenOf s n).run with
  | none => s
  | some u => match u.moving with
    | m :: ms => beginTakeover s n (m :: ms)
    | [] => match u.phase with
      | .start => if u.stopReq then endRun s n stOk else beginLoad s n
      | .load => loadTick s n
      | .work | .replay | .grace | .hold _ => workTick s n
      | .drain => drainTick s n
      | .guardHold => guardTick s n
      | .wait => waitTick s n
      | .swap k => swapTick s n k
      | .rebind k => rebindTick s n k
      | .takeover _ _ => takeoverTick s n u
      | .hang _ | .held => s

/-! ### The module's tick -/

/-- Missed HEARTBEATs (R297): two ticks in a row make a ring lost. -/
def heartTick (s : State) : State :=
  let missed : BitVec 64 := allRings.foldl (fun m r =>
    let x := ringOf s r
    if x.st = .lost || x.st = .resetting || bit s.hbSeen r then m else m ||| (1#64 <<< r)) 0
  { s with hbLost := missed &&& s.hbMissed, hbMissed := missed, hbSeen := 0 }

def ringTick (s : State) : State :=
  allRings.foldl (fun s r => modRing s r fun x => { x with sideCount := x.sideCount + 1, deepBeats := x.deepBeats - 1 }) s

/-- Records of the beat's discards and drops (R199, R251). -/
def beatRecords (s : State) : State :=
  let s := s.tiles.foldl (fun s p =>
    if p.2.epochDisc = 0 then s
    else modTile (evTile s p.1 1 0x0304 (min p.2.epochDisc 65535)) p.1 fun t => { t with epochDisc := 0 }) s
  s.fields.foldl (fun s p =>
    let s := if p.2.drops = 0 then s else evField s p.1 1 0x0301 (min p.2.drops 255)
    modField s p.1 fun f => { f with drops := 0, nearCorrRec := false, xfers := [] }) s

/-- Clock and cap changes that wait for the tick (R423, R425, R428, R457). -/
def clockTick (s : State) : State :=
  let p := s.pwr
  let mode : Bool := match p.fixedFreqNext with | some b => b | none => p.fixedFreq
  let s := modPwr s fun q => { q with
    capW := p.capWNext.getD p.capW, capWNext := none, fixedFreq := mode, fixedFreqNext := none
    boostMhz := if mode && !p.fixedFreq then fixedClk s else p.boostMhz
    clockSteps := if mode && !p.fixedFreq then 0 else p.clockSteps
    shedOrder := if mode && !p.fixedFreq then p.shedOrder.filter (· ≠ 2) else p.shedOrder
    breach := p.breach && mode }
  let t := s.time
  { s with time := { t with
      spread := t.spreadNext.getD t.spread, spreadNext := none, cclkMhz := clockDemand s, tickMhz := clockDemand s } }

/-- Energies of the beat that ends (R421, R440). -/
def energyTick (s : State) : State :=
  let s := modPwr s fun p => { p with
    prevStart := s.time.beatStart, prevNj := p.beatNj, prevRingNj := p.ringBeatNj, beatNj := 0, ringBeatNj := [] }
  s.tens.foldl (fun s q => modTen s q.1 fun x => { x with
    tenNj := x.tenNj + x.accNj, jobNj := if x.run.isSome then x.jobNj + x.accNj else x.jobNj, accNj := 0 }) s

/-- The counters of the time base. RDTIME reads the latest tick, the overrun tick too while a beat goes on in grace or is held
(R137, R7; DESIGN CHOICE, log entry 82). -/
def timeTick (s : State) : State :=
  let t := s.time
  { s with time := { t with
      ticks := t.ticks + 1, cc := t.cc + beatLen s, beatStart := t.uptime
      beatLog2 := t.beatLog2Next.getD t.beatLog2, beatLog2Next := none } }

/-- The end of a rehearsed stall (R323); tiles that hang analysis holds stay held (R336). -/
def stallTick (s : State) : State :=
  match s.box.reh.stall with
  | some r =>
    let hangs : Bool := match ringRun s r with
      | some (_, u) => (match u.phase with | .hang _ => true | _ => false)
      | none => false
    let s := if hangs then s else (ringSites r).foldl (fun s i => if (tileOf s i).stopped then modTile s i fun t => { t with stopped := false } else s) s
    modBox s fun b => { b with reh := { b.reh with stall := none } }
  | none => s

/-- A sideshow hold starts at the tick (R417). -/
def holdTick (s : State) : State :=
  if s.box.sideHold && s.box.heldFrom.isNone then modBox s fun b => { b with heldFrom := some s.time.uptime } else s

/-- Tenancies whose clause runs now: resident, with a sentence running. -/
def runningTens (s : State) : List Nat :=
  (s.tens.filter fun p => p.2.run.isSome && p.2.resident && p.2.st ≠ .switchedOut).map (·.1)

/-- Every ring controller that works sends its HEARTBEAT to its ply's Ringmaster (R270, R297). -/
def heartbeats (s : State) : State :=
  allRings.foldl (fun s r =>
    let x := ringOf s r
    if dark s r || x.ctlDead || x.st = .lost || withholds s r then s else sendHeartbeat s r) s

/-- The ply-health exchange of the Ringmasters in service by SVC control packets (R24, R272, R350): each with the lead, and the
lead with the next-higher one, wrapping from ply 3 to ply 0. -/
def healthExchange (s : State) : State :=
  let up := (List.range 4).filter fun p => (plyOf s p).rmOk
  up.foldl (fun s p =>
    let other := if s.box.lead = some p then ([1, 2, 3].map fun k => (p + k) % 4).find? up.contains else s.box.lead
    match other with
    | some q => sendCtl s { ctype := .svc, src := ringmasterEp p, dst := ringmasterEp q, arg := Config.serviceArg p }
    | none => s) s

/-- By a tick the ring pools have acted on what stood in their service queues, in which no rule says how long a packet stays
(R254; DESIGN CHOICE, log entry 80). -/
def serveQueues (s : State) : State :=
  allRings.foldl (fun s r => if dark s r || (queueOf (ringOf s r) 390).isEmpty then s else setQueue s r 390 []) s

/-- A beat of a clause that is no replay, grace or held beat, nor a repair, begins at the tick; every other tile begins one
(R157, R158). -/
def newBeat (s : State) (i : Nat) : Bool :=
  match ringRun s (siteRing i) with
  | some (_, u) => (match u.phase with
      | .replay | .grace | .hold _ | .hang _ | .rebind _ | .takeover _ _ => false
      | _ => true)
  | none => true

/-- The once-a-beat limits of scratchpad records and failures begin anew (R157, R158). -/
def beatLimits (s : State) : State :=
  s.tiles.foldl (fun s p =>
    if !newBeat s p.1 then s
    else modTile s p.1 fun t => { t with spm := { t.spm with failedWords := [], priorWords := [], failedOld := [], priorOld := [], corrRec := false, uncorrRec := false } }) s

/-- Fields that their RETIRED sites leave without a full row are RETIRED (R277). -/
def fieldsTick (s : State) : State :=
  s.fields.foldl (fun s p => if hopeless s p.1 then retireField s p.1 0 0x0601 else s) s

/-- Errors noted for R348 have had their effect. -/
def clearRaised (s : State) : State :=
  s.plies.foldl (fun s p => if p.2.raised.isEmpty then s else modPly s p.1 fun x => { x with raised := [] }) s

def readyTick (s : State) : State :=
  let s := heartTick (energyTick s)
  let s := overdueTick ((runningTens s).foldl clauseTick s)
  let s := (List.range 4).foldl switchIdle s
  let s := fieldsTick (rehearsalTick (stallTick (holdTick (tsvTick (lanesTick s)))))
  let s := timeTick (clockTick (clearRaised (beatRecords (ringTick (beatLimits s)))))
  let s := healthExchange (heartbeats (serveQueues (allRings.foldl (fun s r => if (ringOf s r).words.isEmpty then s else offerPool s r) s)))
  let s := s.tens.foldl (fun s p => if p.2.reads.isEmpty then s else serveReads s p.1) s
  s.sports.foldl (fun s p => pumpPort (deliverHeld s p.1) p.1) s

/-- The hold-up flush stops every clause (R439); the tick goes on. -/
def heldTick (s : State) : State :=
  timeTick ((runningTens (energyTick s)).foldl (fun s n => idleTiles (setPhase s n .held) n) (energyTick s))

/-- The tick that ends a beat (R173). -/
def tick (s : State) (rep : TickReport) : State :=
  match s.box.state with
  | .ready => if s.box.resetStart.isSome then timeTick (computeStop (energyTick s)) else readyTick s
  | .computeReset => if s.box.pwrPending then timeTick (energyTick s) else timeTick (computeFinish (energyTick s) rep.boot)
  | .held => heldTick s
  | .failed => timeTick (energyTick s)
  | _ => s

/-- BEAT_TICK. -/
def execBeatTick (rep : TickReport) (s : State) : Host.Outcome State Fault Refusal := .next (tick s rep)

/-! ### Configuration staging (R202) -/

/-- STAGING_COMPLETE: the next clause's configuration stands in the area that the running one does not use; in a load beat the
areas have changed roles (R204). -/
def execStagingComplete (ten : TenId) (s : State) : Host.Outcome State Fault Refusal :=
  .next (
    match (tenOf s ten).run with
    | none => s
    | some u => modRun (stageArea s ten (if u.phase = .load then u.area else 1 - u.area)) ten fun u => { u with staged := true })

/-- STALL_TIMEOUT_MS has passed since an instant. -/
def stalled (s : State) (at_ : Nat) : Bool := decide (at_ + nsOfMs s.box.set.stallMs ≤ s.time.uptime)

/-- STAGE_STALL: the staging or the broadcast has not completed in time (R202). -/
def execStageStall (ten : TenId) (s : State) : Host.Outcome State Fault Refusal :=
  .next (
    match (tenOf s ten).run with
    | some u =>
      let late : Bool := match u.stageAt with | some t => stalled s t | none => false
      let whole : Bool := u.staged && (u.bcast || !longBroadcast s ten)
      if u.phase = .load && !whole && late then abortRun s ten 0x0704 u.clause else s
    | none => s)

/-! ### Hang analysis (R336 to R341) -/

/-- A wait for inbound rows names the producer of the last word of this beat or the one before; an agent or a tile outside the
clause, and any producer on a lost ring, is external (R338). -/
def rowsTarget (s : State) (i : Nat) (w : WaitRec) : WaitRec :=
  let x := inBuf (tileOf s i) w.ch
  let lost (r : Nat) : Bool := (ringOf s r).st = .lost
  let ext (agent : Nat) (r : Option Nat) : WaitRec := { w with ext := true, agent := if r.any lost then 5 else agent }
  if x.lastAt + 1 < (tileOf s i).sentBeat.toNat then w
  else match x.last with
  | some (.tile r f v) =>
    if ((ringTen s (siteRing i)).bind fun n => physRing s n r).any lost then { w with ext := true, agent := 5 }
    else { w with tVtile := v, tVfield := f, tVring := r }
  | some (.stream ep) => ext 1 (some (fieldRing (epField ep)))
  | some (.dma ep) => { ext 2 (some (fieldRing (epField ep))) with tVfield := 6 }
  | some .host => ext 3 none
  | some (.other ep) => ext 4 (some (fieldRing (epField ep)))
  | none => w

/-- Some live bank of a tile is full (R52). -/
def bankFull (t : Tile) : Bool := t.inb.any fun p => decide (64 ≤ p.2.live.rows.length)

/-- A wait for room in an outbound buffer names the neighbour, across an edge of its field too, or the Midway target that does
not take its words; egress back-pressure is external (R338). -/
def outTarget (s : State) (i : Nat) (w : WaitRec) : WaitRec :=
  let at_ (j : Nat) : WaitRec :=
    let u := tileOf s j
    if u.bound then { w with tVtile := u.vtile.toNat, tVfield := u.vfield.toNat, tVring := u.vring.toNat } else w
  match (outBuf (tileOf s i) w.ch).dest with
  | some (.midway vt vf vr _) =>
    if vf < 6 then { w with tVtile := vt, tVfield := vf, tVring := vr } else { w with ext := true, agent := 6 }
  | some (.mesh sd) => match nextTile s i sd with
    | some (j, _) => at_ j
    | none => w
  | none => w

/-- The receiver of an outbound buffer's words does not take them: its live bank is full, or the buffer goes to egress. -/
def outBlocked (s : State) (i b : Nat) : Bool :=
  match (outBuf (tileOf s i) b).dest with
  | some (.midway vt vf vr _) => 6 ≤ vf || (match (ringTen s (siteRing i)).bind fun n => vSite s n vr vf vt with
    | some j => bankFull (tileOf s j)
    | none => true)
  | some (.mesh sd) => match nextTile s i sd with
    | some (j, _) => bankFull (tileOf s j)
    | none => true
  | none => true

/-- A wait at the limit of R259 is the endpoint's: the oldest request's target is external unless it is a tile or a pool of the
clause's rings (R338). -/
def reqTarget (s : State) (i : Nat) (w : WaitRec) : WaitRec :=
  let w := { w with unit := 5, tVfield := 7 }
  match (tileOf s i).reqs.head? with
  | none => w
  | some q =>
    let r := fieldRing (epField q.msg.dst)
    let inside := decide (epNo q.msg.dst < 74) && (match ringTen s (siteRing i) with
      | some n => (clauseRings s n).any fun p => p.2 = r
      | none => false)
    if inside then w else { w with ext := true, agent := if (ringOf s r).st = .lost then 5 else 4 }

/-- The target that a wait record names (R338). -/
def waitTarget (s : State) (i : Nat) (w : WaitRec) : WaitRec :=
  match w.kind with
  | 3 => rowsTarget s (siteOf s (siteField i) w.vtile) w
  | 5 => outTarget s i w
  | 6 => reqTarget s i w
  | _ => w

/-- The wait of a match-buffer entry: the producer of the side that has not come (R338). -/
def matchWait (s : State) (i : Nat) (e : MatchEntry) : WaitRec :=
  let r : SteerRule := SMap.get { din := 0, tin := 0, spec := false, rbase := 0, rrows := 0 } (tileOf s i).rules e.rule
  { rowsTarget s i (waitRows (tileOf s i) (if e.token.isSome then r.din else r.tin) 3 4) with kind := 4 }

/-- An outbound buffer that still holds rows: it cannot drain, or drains on. -/
def outWait (s : State) (i b : Nat) : WaitRec :=
  if outBlocked s i b then outTarget s i (waitRows (tileOf s i) b 4 5) else waitRows (tileOf s i) b 4 0

/-- Wait records of one tile (R336, R337): one for each unit that is neither idle nor finished; a verb that has issued and not
completed still runs. -/
def tileWaits (s : State) (i : Nat) : List WaitRec :=
  let t := tileOf s i
  let base (unit : Nat) : WaitRec :=
    { vtile := t.vtile.toNat, vfield := t.vfield.toNat, vring := t.vring.toNat, unit := unit, kind := 0, tVfield := 7 }
  let has (unit : Nat) : Bool := (waitRecs t).any fun w => w.unit = unit
  if t.st = .fenced || t.st = .halted then []
  else
    (waitRecs t).map (waitTarget s i) ++ t.matchBuf.map (matchWait s i) ++
    ((List.range 4).filter fun b => !(outBuf t b).rows.isEmpty).map (outWait s i) ++
    (if !t.core.ended && !has 0 then [base 0] else []) ++
    (if !(verbsDone s i && decide (t.eng.doneBy ≤ beatLen s)) && !has 1 then [base 1] else []) ++
    (if dynLeft t (beatLen s) && !has 2 then [base 2] else [])

def clauseWaits (s : State) (n : Nat) : List WaitRec := (clauseTiles s n).flatMap fun p => tileWaits s p.2.2.2

def waiter (w : WaitRec) : Nat := vKey w.vring w.vfield w.vtile
def waitsFor (w : WaitRec) : Option Nat := if w.ext || 6 ≤ w.tVfield then none else some (vKey w.tVring w.tVfield w.tVtile)

/-- Edges between tiles that are not busy (R339). -/
def waitEdges (ws : List WaitRec) : List (Nat × Nat × Nat) :=
  let busy (k : Nat) : Bool := ws.any fun w => waiter w = k && w.kind = 0
  ws.filterMap fun w => match waitsFor w with
    | some t => if busy (waiter w) || busy t then none else some (waiter w, t, w.ch)
    | none => none

/-- Edges that lie on a path without end: an edge whose target waits for nobody goes, until none is left to go. -/
def endless (es : List (Nat × Nat × Nat)) : Nat → List (Nat × Nat × Nat)
  | 0 => es
  | f + 1 => (endless es f).filter fun e => (endless es f).any fun g => g.1 = e.2.1

/-- Follow the first edge of each tile. -/
def follow (es : List (Nat × Nat × Nat)) (k : Nat) : Nat → List (Nat × Nat × Nat)
  | 0 => []
  | f + 1 => match es.find? fun e => e.1 = k with
    | some e => e :: follow es e.2.1 f
    | none => []

/-- Edges up to and with the one that leads back to a tile. -/
def untilBack (k : Nat) : List (Nat × Nat × Nat) → List (Nat × Nat × Nat)
  | [] => []
  | e :: m => if e.2.1 = k then [e] else e :: untilBack k m

/-- A cycle of tiles of which none is busy. -/
def waitCycle (ws : List WaitRec) : List (Nat × Nat × Nat) :=
  let es := waitEdges ws
  let es := endless es es.length
  match es with
  | [] => []
  | e :: _ =>
    let path := follow es e.1 es.length
    match path.reverse with
    | [] => []
    | l :: _ => untilBack l.2.1 (follow es l.2.1 (es.length + 1))

/-- Sinks of R339: busy tiles, targets without a record, and waits without a target. -/
def waitSinks (ws : List WaitRec) : List Nat :=
  let own := (ws.filter fun w => w.kind = 0 || (waitsFor w).isNone).map waiter
  let ends := (ws.filterMap waitsFor).filter fun t => !ws.any fun w => waiter w = t
  (own ++ ends).foldl NSet.add []

/-- Keep the hang in 0x4102: at most 1,024 records, those of the cycle or of the sinks first. -/
def keepHang (s : State) (n cls : Nat) (ws : List WaitRec) (first : Nat → Bool) : State :=
  let a := ws.filter fun w => first (waiter w)
  let b := ws.filter fun w => !first (waiter w)
  modBox s fun x => { x with hang := { cls := cls, ten := n, seq := 0, seqDue := true, recs := (a ++ b).take 1024 } }

/-- DETAIL of a DEADLOCK record. -/
def cycleDetail (cy : List (Nat × Nat × Nat)) : Nat :=
  let low := cy.foldl (fun m e => min m e.1) ((cy.map (·.1)).headD 0)
  min 255 cy.length + (low % 64 + low / 64 % 6 * 2 ^ 6 + low / 384 * 2 ^ 9) * 2 ^ 8

/-- First AGENT of the external waits of a hang. -/
def firstAgent (ws : List WaitRec) : Nat := match ws.find? (·.ext) with | some w => w.agent | none => 0

/-- The hang counts as a failed audit of the beat. -/
def hangFails (s : State) (n : Nat) (sinks cycle : List Nat) : State :=
  let sites := ((clauseTiles s n).filter fun p => sinks.contains (vKey p.1 p.2.1 p.2.2.1)).map fun p => p.2.2.2
  let s := modClause s n fun t => { t with stopped := false }
  failBeat (modRun s n fun u => { u with
    fails := NSet.add u.fails mechOther, involved := sites.foldl NSet.add u.involved, lastCycle := cycle }) n

/-- The classes of R339 and what follows (R340). -/
def hangVerdict (s : State) (n : Nat) (u : Run) : State :=
  let ws := clauseWaits s n
  let cy := waitCycle ws
  if !cy.isEmpty then
    let key := (cy.map fun e => e.1 * 32 + e.2.2).foldl NSet.add []
    let s := keepHang s n 1 ws fun k => cy.any fun e => e.1 = k
    if key = u.lastCycle then abortRun s n 0x0702 (cycleDetail cy) else hangFails s n [] key
  else if ws.any (·.ext) then
    let s := keepHang s n 2 ws fun _ => false
    let s := modClause s n fun t => { t with stopped := false }
    let s := modRun s n fun v => { v with phase := .hold s.time.uptime, extAgent := firstAgent ws }
    evRing s (homeRing s n) 1 0x0701 (firstAgent ws)
  else
    let sinks := waitSinks ws
    hangFails (keepHang s n 3 ws sinks.contains) n sinks []

/-- HANG_VERDICT. -/
def execHangVerdict (ten : TenId) (s : State) : Host.Outcome State Fault Refusal :=
  .next (
    match (tenOf s ten).run with
    | some u => match u.phase with
      | .hang at_ => if at_ + 12288 ≤ s.time.cc && u.moving.isEmpty then hangVerdict s ten u else s
      | _ => s
    | none => s)

/-- EXT_STALL. -/
def execExtStall (ten : TenId) (s : State) : Host.Outcome State Fault Refusal :=
  .next (
    match (tenOf s ten).run with
    | some u => match u.phase with
      | .hold t => if stalled s t then
          abortRun s ten 0x0703 u.extAgent else s
      | _ => s
    | none => s)

end Sys2Proof.Machine
end

