-- ==== Sys2Proof/Machine/Ma.lean ====
section
/-! DEFINITION. Accesses by Module Address: the checks of R11, and what each space reads and writes
(spec/00_scope.md R10 to R12; spec/03_tile.md R61, R65, R70; spec/06_scratchpad.md R155, R169;
spec/08_memory_tiers.md R215, R223, R238; spec/09_midway.md R253, R257, R269; spec/10_placement_and_repair.md R281,
R282). -/

namespace Sys2Proof.Machine
open Sys2Proof

/-- What a Module Address names (R10). -/
inductive MaTarget where
  | near (f ch off : Nat) | far (st off : Nat) | spm (i off : Nat) | tile (i off : Nat)
  | field (f off : Nat) | ring (r off : Nat) | module (off : Nat)
  deriving DecidableEq, Repr

/-- Site of a Module Address in the SPM or TILE_REG space: a physical site or a virtual tile. -/
def maSite (s : State) (ma : Nat) : Option Nat :=
  let fl := fldN ma 51 7
  let f := fldN ma 58 2 * 96 + fl
  let k := fldN ma 43 7
  if 95 < fl then none
  else if fldN ma 50 1 = 1 then (if k ≤ 71 then some (f * 72 + k) else none)
  else if k ≤ 63 then some (siteOf s f k) else none

/-- The target of an access of `n` bytes; none where R11 does not perform it. -/
def maTarget (s : State) (ma n : Nat) : Option MaTarget :=
  let f := fldN ma 58 2 * 96 + fldN ma 51 7
  let fieldOk : Bool := decide (fldN ma 51 7 ≤ 95)
  let off := fldN ma 0 16
  match fldN ma 60 4 with
  | 0 =>
    if fldN ma 31 15 = 0 && fieldOk && decide (fldN ma 0 31 + n ≤ 2 ^ 31) then some (.near f (fldN ma 46 5) (fldN ma 0 31))
    else none
  | 1 =>
    if fldN ma 39 14 = 0 && decide (fldN ma 0 39 + n ≤ 2 ^ 39) then
      some (.far (fldN ma 58 2 * 32 + fldN ma 53 5) (fldN ma 0 39))
    else none
  | 2 =>
    if fldN ma 22 21 = 0 && decide (fldN ma 0 22 + n ≤ spmSize) then (maSite s ma).map fun i => .spm i (fldN ma 0 22)
    else none
  | 3 => if fldN ma 16 27 = 0 && decide (off + n ≤ 0x1000) then (maSite s ma).map fun i => .tile i off else none
  | 4 => if fldN ma 16 35 = 0 && fieldOk && decide (off + n ≤ 2 ^ 16) then some (.field f off) else none
  | 5 =>
    if fldN ma 16 38 = 0 && decide (off + n ≤ 2 ^ 16) then some (.ring (fldN ma 58 2 * 16 + fldN ma 54 4) off) else none
  | 6 => if fldN ma 24 36 = 0 && decide (fldN ma 0 24 + n ≤ 0x1000) then some (.module (fldN ma 0 24)) else none
  | _ => none

/-! ### Registers -/

/-- MODULE_REG (R12). -/
def moduleReg (s : State) (off : Nat) : Nat :=
  match off with
  | 0x000 => 0x20 + Variant.no s.fused.variant * 2 ^ 8 + s.fused.serial.toNat * 2 ^ 32
  | 0x008 => s.time.uptime % 2 ^ 64
  | 0x010 => s.time.ticks % 2 ^ 64
  | 0x018 => s.time.cclkMhz + s.time.beatLog2Next.getD s.time.beatLog2 * 2 ^ 16
      + b2n (s.time.spreadNext.getD s.time.spread) * 2 ^ 21
  | _ => if 0x100 ≤ off ∧ off < 0x300 ∧ off % 8 = 0 then ringStateReg s ((off - 0x100) / 8) else 0

/-- A field register; a read clears its RC fields. -/
def fieldRegRead (s : State) (f off : Nat) : State × Nat :=
  let x := fieldOf s f
  let seam (sd : Side) : State × Nat := (readSeam s f sd, seamReg s f sd)
  match off with
  | 0x100 => seam .north
  | 0x108 => seam .east
  | 0x110 => seam .south
  | 0x118 => seam .west
  | 0x300 => (s, mwStatus s f)
  | 0x308 => (modField s f fun x => { x with deflect := 0, dropDcnt := 0, dropAge := 0, dropFmt := 0, crcRetry := 0 }, mwCount x)
  | 0x400 => (s, shiftReg x)
  | 0x410 => (s, siteReg x 0)
  | 0x418 => (s, siteReg x 1)
  | 0x420 => (s, siteReg x 2)
  | _ =>
    if 0x200 ≤ off ∧ off < 0x300 ∧ off % 8 = 0 then
      (readNearCh s f ((off - 0x200) / 8), nearChReg (nearCh x ((off - 0x200) / 8)))
    else (s, 0)

/-- A ring register (R257, R269). -/
def ringRegRead (s : State) (r off : Nat) : State × Nat :=
  match off with
  | 0x200 => (modRing s r fun x => { x with refused := 0 }, poolReg s r)
  | 0x210 => (modRing s r fun x => { x with cntClosed := 0, cntRefused := 0, cntStale := 0, cntEpoch := 0 },
      fenceReg (ringOf s r))
  | _ => (s, 0)

/-- Successive 8-byte registers from an offset. -/
def regsRead (rd : State → Nat → State × Nat) (s : State) (off : Nat) : Nat → State × List Byte
  | 0 => (s, [])
  | n + 1 =>
    let p := rd s off
    let q := regsRead rd p.1 (off + 8) n
    (q.1, leBytes 8 p.2 ++ q.2)

def tileRegRead (s : State) (i off : Nat) : State × Nat := (modTile s i fun t => readClears t off, tileReg s i off)

/-- Successive narrow words of a scratchpad: bytes, and whether one is poisoned (R169). -/
def spmWords (s : State) (i n : Nat) : Nat → State × List Byte × Bool
  | 0 => (s, [], false)
  | k + 1 =>
    let bad := (poisonWords s i (n / 64)).contains (n % 64)
    let cnt := sat 32 ((tileOf s i).poisonCnt + b2n ((countedPoison s i (n / 64)).contains (n % 64)))
    let bs := memRead s (spmAddr i (8 * n)) 8
    let q := spmWords (modTile (noteRead s i (n / 64) .path) i fun t => { t with poisonCnt := cnt }) i (n + 1) k
    (q.1, bs ++ q.2.1, bad || q.2.2)

/-- The narrow slots that a Module Address access of `n` bytes takes are still to come (R148, R169; log entry 14). -/
def askSlots (s : State) (i n : Nat) : State :=
  modTile s i fun t => { t with spm := { t.spm with maDue := t.spm.maDue + n / 8 } }

/-- A near or far range holds a codeword that a reader gets poisoned. -/
def tierPoisoned (s : State) (a n : Nat) : Bool :=
  (List.range (ceilDiv (a % 64 + n) 64)).any fun k => wordBad s (a / 64 * 64 + 64 * k)

/-- The guard-save area of a near channel (R204). -/
def guardSave : Nat := 0x7FF80000

/-- Registers of a ring's silicon, which a dark ring does not serve (R18, R23); those of its fields' routers, at 0x0300 and 0x0308,
are on the ply's rail. -/
def fieldDark (s : State) (f off n : Nat) : Bool :=
  dark s (fieldRing f) && !(decide (0x300 ≤ off) && decide (off + n ≤ 0x310))

/-- The range touches a configuration area of the field that holds a staged configuration, or the save area, the top 4 granules
of its share, of a tenancy that is switched out (R365, R369). The layout of their bytes is nowhere, so they read as free values
(R204; log entry 79). -/
def inConfig (s : State) (f off n : Nat) : Bool :=
  ((fieldOf s f).staged.any fun a => decide (off < 0x7FE80000 + 2 ^ 19 * (a + 1)) && decide (0x7FE80000 + 2 ^ 19 * a < off + n)) ||
  s.tens.any fun p => !p.2.saved.isEmpty && p.2.rings.contains (fieldRing f) &&
    decide (off < (p.2.nearBase + p.2.nearLen) * granBytes) && decide ((p.2.nearBase + p.2.nearLen - 4) * granBytes < off + n)

/-! ### Reads and writes -/

/-- A read of `n` bytes: the bytes, or none where they are tagged as poisoned. -/
def maLoad (s : State) (ma n : Nat) : State × Option (List Byte) :=
  let refuse : State × Option (List Byte) := (evAccess s ma, none)
  let regs (p : State × List Byte) : State × Option (List Byte) := (p.1, some p.2)
  match maTarget s ma n with
  | none => refuse
  | some (.near f ch off) =>
    if clauseOnRing s (fieldRing f) || dark s (fieldRing f) then refuse
    else
      let len := min n (guardSave - off)
      let t := noteRange s (fun k => some (nearAddr f ch off + k)) len
      if tierPoisoned s (nearAddr f ch off) len then (t, none)
      else
        let p := if inConfig s f off len then freeBytes t len else (t, memRead s (nearAddr f ch off) len)
        (p.1, some (padTo 0 n p.2))
  | some (.far st off) =>
    if clauseOnRing s (stackRing st) then refuse
    else
      let t := noteRange s (fun k => some (farAddr st off + k)) n
      (t, if tierPoisoned s (farAddr st off) n then none else some (memRead s (farAddr st off) n))
  | some (.spm i off) =>
    if !tileReadable (tileOf s i) || dark s (siteRing i) || 1024 < n then refuse
    else
      let p := spmWords (askSlots s i n) i (off / 8) (n / 8)
      (p.1, if p.2.2 then none else some p.2.1)
  | some (.tile i off) =>
    if dark s (siteRing i) then refuse
    else if off + n ≤ 0x48 || tileReadable (tileOf s i) then regs (regsRead (fun s o => tileRegRead s i o) s off (n / 8))
    else refuse
  | some (.field f off) =>
    if fieldDark s f off n then refuse else regs (regsRead (fun s o => fieldRegRead s f o) s off (n / 8))
  | some (.ring r off) => if dark s r then refuse else regs (regsRead (fun s o => ringRegRead s r o) s off (n / 8))
  | some (.module off) => regs (regsRead (fun s o => (s, moduleReg s o)) s off (n / 8))

/-- The tile's RWI registers are idle for writers other than the broadcast and the restore (R65, R169). -/
def tileWritable (t : Tile) : Bool :=
  match t.st with
  | .unbound | .idle | .fenced => true
  | _ => false

/-- A send-channel entry is written; CREDITS becomes 16 with VALID 1 (R190). -/
def sendWrite (c : SendCh) (w : Nat) : SendCh :=
  let n := sendInit (BitVec.ofNat 32 w)
  { n with closed := c.closed, credits := if n.valid then 16 else c.credits, seq := c.seq, sent := c.sent }

/-- A receive-channel entry is written. -/
def recvWrite (c : RecvCh) (w : Nat) : RecvCh :=
  let n := recvInit (BitVec.ofNat 32 w)
  { c with srcVtile := n.srcVtile, srcVfield := n.srcVfield, srcVring := n.srcVring, srcCh := n.srcCh
           valid := n.valid, fin := n.fin, ring := n.ring, seg := n.seg, size := n.size }

/-- An RWI register of a tile; none where the value or the register's state refuses the write. -/
def tileRwi (t : Tile) (off v : Nat) : Option Tile :=
  if !tileWritable t then none
  else match off with
  | 0x30 =>
    if badMode (BitVec.ofNat 64 v) then none
    else some { t with role := BitVec.ofNat 2 v, mirror := fldN v 2 1 = 1, specEn := fldN v 3 1 = 1 }
  | 0x38 =>
    if badCarry (BitVec.ofNat 64 v) || spmRows < fldN v 0 13 + 2 * fldN v 16 9 then none
    else some { t with carryBase := BitVec.ofNat 13 v, carryRows := BitVec.ofNat 9 (fldN v 16 9) }
  | 0x40 => some { t with spm := cfgClass t.spm (BitVec.ofNat 64 v) }
  | _ =>
    let k := (off % 0x80) / 4
    if off < 0x180 then
      some (setSend (setSend t k (sendWrite (sendOf t k) (v % 2 ^ 32))) (k + 1) (sendWrite (sendOf t (k + 1)) (v / 2 ^ 32)))
    else
      some (setRecv (setRecv t k (recvWrite (recvOf t k) (v % 2 ^ 32))) (k + 1) (recvWrite (recvOf t (k + 1)) (v / 2 ^ 32)))

/-- One register of a tile is written: RWI as R65 says, ERR_STATUS by ones, others not at all. -/
def tileRegWrite (s : State) (i off v : Nat) : State :=
  if off = 0x48 then modTile s i fun t => { t with err := t.err &&& ~~~(BitVec.ofNat 9 v) }
  else if off % 8 = 0 && (off = 0x30 || off = 0x38 || off = 0x40 || (decide (0x100 ≤ off) && decide (off < 0x200))) then
    match tileRwi (tileOf s i) off v with
    | some t => setTile s i t
    | none => setErr s i errAccess
  else s

/-- POOL_FLUSH is written by an Owner (R257). -/
def poolFlushWrite (s : State) (r v : Nat) : State :=
  if fldN v 10 1 = 1 then flushAll s r else flushQueue s r (fldN v 0 10)

/-- Apply a write to successive 8-byte pieces. -/
def pieces (wr : State → Nat → List Byte → State) (s : State) (off : Nat) (bs : List Byte) : State :=
  ((chunks 8 bs.length bs).zipIdx).foldl (fun s p => wr s (off + 8 * p.2) p.1) s

/-- A write of bytes: the new state, and whether it was performed. -/
def maStore (s : State) (ma : Nat) (bs : List Byte) : State × Bool :=
  let refuse : State × Bool := (evAccess s ma, false)
  match maTarget s ma bs.length with
  | none => refuse
  | some (.near f ch off) =>
    if clauseOnRing s (fieldRing f) || dark s (fieldRing f) then refuse
    else (pieces (fun s o b => placeWrite s (nearAddr f ch o) b []) s off (bs.take (guardSave - off)), true)
  | some (.far st off) =>
    if clauseOnRing s (stackRing st) then refuse
    else (pieces (fun s o b => placeWrite s (farAddr st o) b []) s off bs, true)
  | some (.spm i off) =>
    if !tileWritable (tileOf s i) || dark s (siteRing i) || 1024 < bs.length then refuse
    else
      (pieces (fun s o b => writeWord s i (o / rowBytes) (o % rowBytes / 8) (leNat b) false) (askSlots s i bs.length) off bs,
        true)
  | some (.tile i off) => if dark s (siteRing i) then refuse else (pieces (fun s o b => tileRegWrite s i o (leNat b)) s off bs, true)
  | some (.field f off) => if fieldDark s f off bs.length then refuse else (s, true)
  | some (.ring r off) =>
    let hit : Bool := decide (off ≤ 0x208) && decide (0x208 < off + bs.length)
    if dark s r || (hit && clauseOnRing s r) then refuse
    else (pieces (fun s o b => if o = 0x208 then poolFlushWrite s r (leNat b) else s) s off bs, true)
  | some (.module _) => (s, true)

end Sys2Proof.Machine
end

