-- ==== Sys2Proof/Machine/Dict.lean ====
section
/-! DEFINITION. The object dictionary: its entries with types, access codes and roles, the checks of R401, and the value
of every entry (spec/15_object_dictionary.md R397 to R419 and the dictionary tables of the other chapters: R172, R260,
R279, R295, R306, R320, R321, R333, R341, R347, R371, R395, R441, R459, R472, R475). -/

namespace Sys2Proof.Machine
open Sys2Proof

/-! ### Abort codes (R401) -/

def abNone : Nat := 0
def abObject : Nat := 0x06020000
def abSub : Nat := 0x06090011
def abDenied : Nat := 0x06010000
def abType : Nat := 0x06070010
def abRange : Nat := 0x06090030
def abBusy : Nat := 0x08000022
def abNoData : Nat := 0x08000024
def abCommand : Nat := 0x08000020
def abPoison : Nat := 0x06060000
def abOther : Nat := 0x08000000

/-! ### Entries (R397 to R400) -/

/-- Data types of R398. -/
inductive DType where
  | bool | u (bytes : Nat) | i16 | f32 | oct (bytes : Nat) | str | dom
  deriving DecidableEq, Repr

/-- Access codes of R6. -/
inductive Access where
  | const | ro | rw | wo | rwi
  deriving DecidableEq, Repr

/-- Who may read or write an entry; `ofTen` is the Owner and the tenancy's Tenant, `ofHang` the Owner and the
hang's Tenant. -/
inductive Who where
  | all | ownerOp | owner | operator | ofTen | ofHang | nobody
  deriving DecidableEq, Repr

/-- Entries `lo` to `hi` of an object. -/
structure Entry where
  index : Nat
  lo : Nat
  hi : Nat
  ty : DType
  acc : Access
  wr : Who := .nobody
  rd : Who := .all
  deriving DecidableEq, Repr

def eConst (i sub : Nat) (ty : DType) : Entry := ⟨i, sub, sub, ty, .const, .nobody, .all⟩
def eRo (i lo hi : Nat) (ty : DType) (rd : Who := .all) : Entry := ⟨i, lo, hi, ty, .ro, .nobody, rd⟩
def eRw (i lo hi : Nat) (ty : DType) (wr : Who) (rd : Who := .all) : Entry := ⟨i, lo, hi, ty, .rw, wr, rd⟩
def eRwi (i lo hi : Nat) (ty : DType) (wr : Who) : Entry := ⟨i, lo, hi, ty, .rwi, wr, .all⟩
def eWo (i lo hi : Nat) (ty : DType) (wr : Who) : Entry := ⟨i, lo, hi, ty, .wo, wr, wr⟩

/-- R413. -/
def commRows : List Entry := [
  eConst 0x1000 0 (.u 4), eRo 0x1001 0 0 (.u 1), eConst 0x1008 0 .str, eConst 0x1009 0 .str, eRo 0x100A 0 0 .str,
  eWo 0x1010 1 1 (.u 4) .ownerOp, eWo 0x1011 1 1 (.u 4) .ownerOp, eRw 0x1015 0 0 (.u 2) .ownerOp,
  eRw 0x1017 0 0 (.u 2) .ownerOp, eConst 0x1018 1 (.u 4), eConst 0x1018 2 (.u 4), eConst 0x1018 3 (.u 4),
  eConst 0x1018 4 (.u 4), eWo 0x1F50 1 1 .dom .ownerOp, eWo 0x1F51 1 1 (.u 1) .ownerOp, eRo 0x1F57 1 1 (.u 4)]

/-- R172, R260, R295, R414, R459, R472, R475. The 64 objects 0x2100 + id have the entries of 0x2100. -/
def moduleRows : List Entry := [
  eConst 0x2000 0 (.u 1), eRw 0x2001 1 1 (.u 2) .all, eConst 0x2001 2 (.u 2), eRo 0x2010 0 0 (.u 8),
  eRo 0x2011 1 2 (.u 4), eConst 0x2020 1 (.u 1), eConst 0x2020 2 (.u 4), eConst 0x2020 3 (.u 2), eConst 0x2020 4 (.u 2),
  eRo 0x2021 0 0 (.u 2), eRwi 0x2030 0 0 (.u 1) .owner, eRw 0x2040 1 1 (.u 4) .owner, eRw 0x2040 2 2 (.u 1) .owner,
  eRwi 0x2050 0 0 (.u 1) .owner, eRw 0x2060 1 1 (.u 1) .ownerOp, eRo 0x2060 2 2 (.u 4), eRw 0x2061 1 1 (.u 1) .ownerOp,
  eWo 0x2061 2 2 (.u 1) .ownerOp, eRo 0x2061 3 3 .bool, eRwi 0x2062 0 0 .bool .ownerOp, eRo 0x2063 0 0 (.u 1),
  eRo 0x2070 1 1 (.u 1), eRo 0x2070 2 2 (.u 4), eRo 0x2070 3 3 (.u 1), eRo 0x2070 4 4 (.u 2), eRo 0x2070 5 5 .bool,
  eRw 0x2100 1 1 (.u 1) .owner, eRo 0x2100 2 3 (.u 1), eRo 0x2100 4 4 (.u 2)]

/-- R415, R441. -/
def powerRows : List Entry := [
  eRw 0x3000 0 0 (.u 4) .ownerOp, eRw 0x3001 0 0 (.u 4) .ownerOp, eRw 0x3002 0 0 .bool .ownerOp, eRo 0x3003 0 0 (.u 1),
  eRo 0x3004 0 0 (.u 4), eRo 0x3005 0 0 (.u 4), eRo 0x3010 0 0 (.u 4), eRo 0x3011 0 0 (.u 4), eRo 0x3012 0 0 (.u 4),
  eRo 0x3020 1 0x40 (.u 4), eRo 0x3021 1 0x40 (.u 1), eRo 0x3022 1 0x40 (.u 1), eRo 0x3030 1 4 .i16,
  eRo 0x3031 1 0x40 .i16, eConst 0x3032 1 (.u 1), eConst 0x3032 2 (.u 1), eRo 0x3033 1 4 .bool]

/-- R306, R320. -/
def auditRows : List Entry := [
  eRw 0x4000 1 0x40 (.u 1) .owner, eRw 0x4001 1 0x40 (.u 1) .owner, eRo 0x4002 1 0x40 (.u 8), eRo 0x4003 1 0x40 (.u 4),
  eRo 0x4004 1 0x40 (.u 4), eRo 0x4005 1 8 (.u 4), eRo 0x4006 0 0 (.u 4), eRo 0x4007 1 4 (.u 4), eRo 0x4008 1 0x40 .i16,
  eRw 0x4009 1 1 (.u 2) .ownerOp, eRw 0x400A 1 2 .i16 .ownerOp, eRw 0x400A 3 4 .f32 .ownerOp, eRo 0x400B 1 0x40 .i16,
  eRo 0x4010 1 0x40 (.u 4)]

/-- R279, R321, R333, R341, R347, R416. -/
def healthRows : List Entry := [
  eRo 0x4100 1 1 (.u 2), eRo 0x4100 2 2 (.u 4), eRw 0x4100 3 3 (.u 4) .owner, eRw 0x4100 4 4 (.u 4) .all,
  eRo 0x4100 5 5 (.oct 32), eRo 0x4100 6 6 (.u 2), eWo 0x4100 7 7 (.u 4) .owner, eRo 0x4100 8 0x0A (.u 4),
  eConst 0x4101 1 (.u 2), eRw 0x4101 2 2 (.u 4) .owner, eConst 0x4101 3 (.u 1), eRo 0x4101 4 8 (.u 4),
  eWo 0x4101 9 9 (.u 1) .owner, eRo 0x4101 0x0A 0x0A .bool,
  eRo 0x4102 1 2 (.u 1), eRo 0x4102 3 3 (.u 4), eRo 0x4102 4 4 (.u 2), eRw 0x4102 5 5 (.u 2) .ofHang,
  eRo 0x4102 6 6 (.oct 8) .ofHang,
  eRo 0x4200 1 1 (.u 1), eRo 0x4200 2 2 (.u 4), eRw 0x4200 3 3 (.u 4) .ownerOp, eRo 0x4200 4 4 (.oct 16),
  eRo 0x4200 5 6 (.u 2), eWo 0x4200 7 7 (.u 4) .owner, eConst 0x4200 8 (.u 2),
  eRw 0x4300 1 1 .bool .owner, eRw 0x4300 2 2 (.u 1) .owner, eRw 0x4300 3 3 (.u 8) .owner, eWo 0x4300 4 4 (.u 1) .owner,
  eRw 0x4300 5 5 (.u 4) .owner, eRo 0x4300 6 7 (.u 1), eRo 0x4300 8 8 (.u 8), eRo 0x4300 9 9 (.u 4),
  eRo 0x4400 1 0x80 (.u 4), eRo 0x4401 1 0x80 (.u 4), eRo 0x4402 1 0x80 (.u 4)]

/-- R371, R441. -/
def tenRows : List Entry := [
  eRo 0x5000 1 0x40 (.u 1), eRo 0x5001 1 0x40 (.u 1), eRo 0x5002 1 0x40 (.u 8), eRo 0x5003 1 0x40 (.u 1),
  eRo 0x5004 1 0x40 (.u 4), eRo 0x5005 1 0x40 (.u 4), eRo 0x5006 1 0x40 (.u 8), eRo 0x5007 1 0x40 (.u 8) .ofTen,
  eRo 0x5010 1 0x40 (.u 4) .ofTen, eRo 0x5011 1 0x40 (.u 4) .ofTen, eRo 0x5012 1 0x40 (.u 4) .ofTen,
  eRo 0x5013 1 0x40 (.u 4) .ofTen, eRo 0x5100 1 0x40 (.u 8) .ofTen, eRo 0x5101 1 0x40 (.u 8) .ofTen,
  eRo 0x5102 0 0 (.u 8), eRo 0x5103 0 0 (.u 8)]

/-- R371, R395, R417. -/
def portRows : List Entry := [
  eRw 0x6000 1 8 (.u 1) .operator, eRo 0x6001 1 8 (.u 2), eRw 0x6002 0 0 (.u 2) .owner,
  eRo 0x6100 1 0x20 (.u 1), eRo 0x6101 1 0x20 (.u 1), eRw 0x6102 1 0x20 .bool .ownerOp, eRwi 0x6103 1 0x20 (.u 1) .owner,
  eRo 0x6104 1 0x20 (.u 2), eRo 0x6105 1 0x20 (.u 8), eRo 0x6106 1 0x20 (.u 4), eRo 0x6107 1 0x20 (.u 4),
  eRo 0x6108 1 0x20 (.u 1), eWo 0x6109 1 0x20 (.u 1) .ownerOp, eRw 0x610A 0 0 (.u 1) .owner, eRw 0x610B 0 0 (.u 1) .owner,
  eRw 0x610C 0 0 (.u 2) .owner, eRwi 0x610D 1 0x20 (.oct 32) .owner, eRwi 0x610E 1 0x20 (.oct 12) .owner,
  eRwi 0x610F 1 0x20 (.u 2) .owner, eRw 0x6110 1 0x40 (.oct 32) .owner .ofTen, eRo 0x6111 1 0x20 (.u 4),
  eRo 0x6112 1 0x20 (.u 4), eRo 0x6113 0 0 (.u 4),
  eRw 0xA000 1 1 .bool .owner, eRo 0xA000 2 2 (.u 8), eRo 0xA001 1 1 (.u 4), eRo 0xA001 2 2 (.u 8)]

def dictRows : List Entry := commRows ++ moduleRows ++ powerRows ++ auditRows ++ healthRows ++ tenRows ++ portRows

/-- Row of the tables that an index has. -/
def rowIndex (i : Nat) : Nat := if 0x2100 ≤ i ∧ i ≤ 0x213F then 0x2100 else i

def objectRows (i : Nat) : List Entry := dictRows.filter fun e => e.index = rowIndex i

/-- Highest subindex of an array or record object. -/
def topSub (rs : List Entry) : Nat := rs.foldl (fun m e => max m e.hi) 0

/-- Interface level that introduces an index (R411). -/
def introLevel (i : Nat) : Nat := if i = 0x4102 ∨ i = 0x4300 ∨ i = 0xA000 ∨ i = 0xA001 then 0x201 else 0x200

/-! ### Paths (R400, R402) -/

def pathOf (s : State) : Path → PathSt
  | .host p => (hportOf s p).path
  | .can => s.can.path

def modPath (s : State) (p : Path) (f : PathSt → PathSt) : State :=
  match p with
  | .host p => modHport s p fun x => { x with path := f x.path }
  | .can => modCan s fun c => { c with path := f c.path }

/-- The path is a Tenant's and the tenancy is its own. -/
def ownTenant (s : State) (p n : Nat) : Bool :=
  (hportOf s p).role = .tenant && (tenOf s n).st ≠ .none_ && (tenOf s n).port = p

/-- The path's role permits an access to subindex `sub`. -/
def permits (s : State) (path : Path) (w : Who) (sub : Nat) : Bool :=
  match path with
  | .can => w = .all || w = .ownerOp || w = .operator
  | .host p =>
    match w with
    | .all => true
    | .ownerOp | .owner => isOwner s p
    | .operator | .nobody => false
    | .ofTen => isOwner s p || ownTenant s p (sub - 1)
    | .ofHang => isOwner s p || ownTenant s p s.box.hang.ten

/-- Checks 1 and 2 of R401: the entry that an access names. -/
def findEntry (s : State) (path : Path) (i sub : Nat) : Except Nat Entry :=
  let rs := objectRows i
  if rs.isEmpty || decide ((pathOf s path).level < introLevel i) then .error abObject
  else match rs.find? fun e => decide (e.lo ≤ sub) && decide (sub ≤ e.hi) with
    | some e => .ok e
    | none => if sub = 0 then .ok (eConst i 0 (.u 1)) else .error abSub

/-! ### Values -/

def tyLen : DType → Nat
  | .bool => 1 | .u n => n | .i16 => 2 | .f32 => 4 | .oct n => n | .str | .dom => 0

def strBytes (t : String) : List Byte := t.toList.map fun c => BitVec.ofNat 8 c.toNat

/-- Running firmware's version: major, a point, release (R413; log entry 5). -/
def swVersion (s : State) : String :=
  if s.box.fwRunning.isEmpty then "2.4"
  else toString (Config.fwVersion s.box.fwRunning).1 ++ "." ++ toString (Config.fwVersion s.box.fwRunning).2

def strValue (s : State) (i : Nat) : List Byte :=
  match i with
  | 0x1008 => strBytes "Larxiben L2"
  | 0x1009 => strBytes "B1"
  | _ => (strBytes (swVersion s)).take 16

def commValue (s : State) (i sub : Nat) : Nat :=
  let v := s.fused.variant
  match i, sub with
  | 0x1001, _ => errorReg s
  | 0x1015, _ => s.box.set.emcyInhibit
  | 0x1017, _ => s.box.set.heartbeatMs
  | 0x1018, 1 => 0x0A5E
  | 0x1018, 2 => productCode v
  | 0x1018, 3 => 0x000200B1
  | 0x1018, 4 => s.fused.serial.toNat
  | 0x1F57, _ => s.box.fwStatus
  | _, _ => 0

/-- BOOT_STATE (R459). -/
def bootNo : Boot → Nat
  | .unpowered | .inReset => 0
  | .waitPsu | .rails => 1
  | .testing => 2 | .merging => 3 | .ready => 4 | .computeReset => 5 | .failed => 6 | .held => 7

/-- Retired fields and dead sites of a ring (R295). -/
def retiredMask (s : State) (r : Nat) : Nat :=
  ((ringFields r).zipIdx).foldl (fun n p => n + b2n (fieldOf s p.1).retired * 2 ^ p.2) 0

def deadSites (s : State) (r : Nat) : Nat :=
  (ringFields r).foldl (fun n f => n + ((fieldOf s f).sites.filter fun p => siteDead p.2.st).length) 0

def ringObject (s : State) (r sub : Nat) : Nat :=
  match sub with
  | 1 => ringStNo (ringOf s r).st
  | 2 => (ringHolder s r).getD 0xFF
  | 3 => retiredMask s r
  | _ => deadSites s r

def moduleValue (s : State) (path : Path) (i sub : Nat) : Nat :=
  let v := s.fused.variant
  let t := s.time
  let b := s.box
  match i, sub with
  | 0x2000, _ => 0x20
  | 0x2001, 1 => (pathOf s path).level
  | 0x2001, _ => 0x201
  | 0x2010, _ => t.uptime
  | 0x2011, 1 => t.poweredS / 3600
  | 0x2011, _ => t.poweredS
  | 0x2020, 1 => Variant.no v
  | 0x2020, 2 => limitW v
  | 0x2020, 3 => fixedMhz v
  | 0x2020, _ => boostMhz v
  | 0x2021, _ => t.tickMhz
  | 0x2030, _ => t.beatLog2Next.getD t.beatLog2
  | 0x2040, 1 => b.set.retryNs
  | 0x2040, _ => b.set.retryMax
  | 0x2050, _ => b.set.reservePerPly
  | 0x2060, 1 => b.set.emcyClasses
  | 0x2060, _ => s.can.emcyLost
  | 0x2061, 1 => b.alertClasses
  | 0x2061, _ => b2n s.pins.alert
  | 0x2062, _ => b2n (t.spreadNext.getD t.spread)
  | 0x2063, _ => s.pins.nodeId.toNat
  | 0x2070, 1 => bootNo b.state
  | 0x2070, 2 => b.bootMs
  | 0x2070, 3 => b.lastReset
  | 0x2070, 4 => b.stepRepeats
  | 0x2070, _ => b2n b.flushMissed
  | i, sub => ringObject s (i - 0x2100) sub

def powerValue (s : State) (i sub : Nat) : Nat :=
  let p := s.pwr
  let r := ringOf s (sub - 1)
  match i with
  | 0x3000 => p.capWNext.getD p.capW
  | 0x3001 => s.box.set.shedOrder
  | 0x3002 => b2n (p.fixedFreqNext.getD p.fixedFreq)
  | 0x3003 => clockCause p
  | 0x3004 => p.farSteps + b2n p.lanesShed * 2 ^ 3 + p.clockSteps * 2 ^ 8
  | 0x3005 => p.breaches
  | 0x3010 => p.powerW
  | 0x3011 => p.inputMv
  | 0x3012 => p.inputMa
  | 0x3020 => SMap.get 0 p.ringPowerW (sub - 1)
  | 0x3021 => (24 - r.vcoreLost.length) + (4 - r.vdramLost.length) * 2 ^ 5
  | 0x3022 => r.supply
  | 0x3030 => ofInt 16 (plyOf s (sub - 1)).tjMax
  | 0x3031 => ofInt 16 r.tjMax
  | 0x3032 => if sub = 1 then 105 else 115
  | _ => b2n (plyOf s (sub - 1)).tripped

/-- BOUND (R304, R306): of the level that the running clause has, else of the tenancy's. -/
def boundOf (x : Tenancy) : Nat :=
  let lk : Nat × Nat := match x.run with
    | some u => if u.begun then (u.level, u.k) else (x.auditLevel, x.replayK)
    | none => (x.auditLevel, x.replayK)
  match lk.1 with
  | 0 => 0xFFFFFFFF
  | 1 => 100000
  | 2 => 10000
  | 3 => [200, 500, 1000, 2000, 5000, 10000, 20000, 50000].getD (lk.2 - 1) 0
  | _ => 10

def auditValue (s : State) (i sub : Nat) : Nat :=
  let x := tenOf s (sub - 1)
  let live (v : Nat) : Nat := if x.st = .none_ then 0 else v
  let b := s.box
  match i, sub with
  | 0x4000, _ => live x.auditLevel
  | 0x4001, _ => live x.replayK
  | 0x4002, _ => live x.beatsCommitted
  | 0x4003, _ => live x.auditsFailed
  | 0x4004, _ => live x.beatsReplayed
  | 0x4005, k => SMap.get 0 b.detected k
  | 0x4006, _ => b.budget
  | 0x4007, 1 => b.katRuns
  | 0x4007, 2 => b.katFails
  | 0x4007, 3 => b.canaryRuns
  | 0x4007, _ => b.marginLow
  | 0x4008, _ => ofInt 16 (ringOf s (sub - 1)).timingPs
  | 0x4009, _ => b.set.marginWarn
  | 0x400A, 1 => ofInt 16 b.set.optWarn
  | 0x400A, 2 => ofInt 16 b.set.optAlarm
  | 0x400A, 3 => b.set.berWarn.toNat
  | 0x400A, _ => b.set.berAlarm.toNat
  | 0x400B, _ => ofInt 16 (ringOf s (sub - 1)).voltMv
  | _, _ => live (boundOf x)

/-- SEQ of the oldest record in the log (R347). -/
def oldestSeq (b : Box) : Nat :=
  let age (q : Nat) : Nat := (b.nextSeq + 2 ^ 32 - q) % 2 ^ 32
  b.log.foldl (fun m p => if age m < age p.2.rec_.seq then p.2.rec_.seq else m) b.nextSeq

def countSites (s : State) (st : SiteSt) : Nat :=
  s.fields.foldl (fun n f => n + (f.2.sites.filter fun p => p.2.st = st).length) 0

/-- Pseudo-channels fenced, as a mask (R416). -/
def fencedMask (k : Stack) : Nat := k.fenced.foldl (fun n c => n + 2 ^ c) 0

def healthValue (s : State) (path : Path) (i sub : Nat) : Nat :=
  let b := s.box
  let k := stackOf s (sub - 1)
  match i, sub with
  | 0x4100, 1 => b.log.length
  | 0x4100, 2 => b.nextSeq
  | 0x4100, 3 => b.overflow
  | 0x4100, 4 => (pathOf s path).readSeq
  | 0x4100, 6 => pinnedCount b
  | 0x4100, 8 => b.stagedLost
  | 0x4100, 9 => oldestSeq b
  | 0x4100, 10 => b.pinRefused
  | 0x4101, 1 => 10
  | 0x4101, 2 => b.set.stallMs
  | 0x4101, 3 => 16
  | 0x4101, 10 => b2n b.pwrPending
  | 0x4101, j => SMap.get 0 b.entries (j - 2)
  | 0x4102, 1 => b.hang.cls
  | 0x4102, 2 => b.hang.ten
  | 0x4102, 3 => b.hang.seq
  | 0x4102, 4 => b.hang.recs.length
  | 0x4102, _ => (pathOf s path).hangIdx
  | 0x4200, 1 => b.factoryStatus
  | 0x4200, 2 => b.fieldMap.length
  | 0x4200, 3 => (pathOf s path).mapIdx
  | 0x4200, 5 => countSites s .retired
  | 0x4200, 6 => countSites s .suspect
  | 0x4200, _ => 720
  | 0x4300, 1 => b2n b.reh.enable
  | 0x4300, 2 => b.reh.kind
  | 0x4300, 3 => b.reh.target.toNat
  | 0x4300, 5 => b.set.minInterval
  | 0x4300, 6 => if b.reh.refused then 4 else b.reh.status
  | 0x4300, 7 => b.reh.reason
  | 0x4300, 8 => b.reh.lastNs
  | 0x4300, _ => b.reh.count
  | 0x4400, _ => k.corr
  | 0x4401, _ => k.uncorr
  | _, _ => fencedMask k

def tenStNo : TenSt → Nat
  | .none_ => 0 | .created => 1 | .ready => 2 | .running => 3 | .switchedOut => 4 | .clearing => 5

/-- Energies are kept in nJ and read in mJ. -/
def milliJoule (nj : Nat) : Nat := nj / 1000000

def tenValue (s : State) (i sub : Nat) : Nat :=
  let x := tenOf s (sub - 1)
  match i with
  | 0x5000 => tenStNo x.st
  | 0x5001 => x.port
  | 0x5002 => x.rings.foldl (fun n r => n + 2 ^ r) 0
  | 0x5003 => x.group.getD 0xFF
  | 0x5004 => x.quantum
  | 0x5005 => x.nearBase + x.nearLen * 2 ^ 16
  | 0x5006 => x.farBase + x.farLen * 2 ^ 32
  | 0x5007 => x.lastCommitted
  | 0x5010 => x.fenceClosed
  | 0x5011 => x.dmaLate
  | 0x5012 => x.loadRepeats
  | 0x5013 => x.switchBeats
  | 0x5100 => milliJoule x.jobNj
  | 0x5101 => milliJoule x.tenNj
  | 0x5102 => milliJoule s.pwr.unattributedNj
  | _ => milliJoule s.pwr.moduleNj

def roleNo : Role → Nat
  | .observer => 0 | .tenant => 1 | .owner => 2

def sportNo : SPortSt → Nat
  | .disabled => 0 | .training => 1 | .up => 2 | .down => 3 | .noLight => 4 | .noRefclk => 5 | .version => 6

/-- HELD_NS with the hold that still runs (R417). -/
def heldTime (s : State) : Nat :=
  s.box.heldNs + match s.box.heldFrom with | some t => s.time.uptime - t | none => 0

def portValue (s : State) (i sub : Nat) : Nat :=
  let p := sportOf s (sub - 1)
  let b := s.box
  match i, sub with
  | 0x6000, _ => roleNo (hportOf s (sub - 1)).role
  | 0x6001, _ => (hportOf s (sub - 1)).link
  | 0x6002, _ => b.set.ptmMs
  | 0x6100, _ => sportNo p.st
  | 0x6101, _ => p.width
  | 0x6102, _ => b2n p.enable
  | 0x6103, _ => p.encap
  | 0x6104, _ => p.version
  | 0x6105, _ => p.peerId.toNat
  | 0x6106, _ => p.retries
  | 0x6107, _ => p.fecUncorr
  | 0x6108, _ => p.laneAlarm.toNat
  | 0x610A, _ => b.set.retryTimeoutUs
  | 0x610B, _ => b.set.retryLimit
  | 0x610C, _ => b.set.udpPort
  | 0x610F, _ => p.frameMax
  | 0x6111, _ => p.discards
  | 0x6112, _ => p.protoErr
  | 0x6113, _ => b.collAborts
  | 0xA000, 1 => b2n b.sideHold
  | 0xA000, _ => heldTime s
  | 0xA001, 1 => b.restarts
  | _, _ => b.lastRestart

/-- Value of a numeric entry; counters that outgrow their type read its largest value where the spec lets them
saturate, and the type's low bytes otherwise. -/
def numValue (s : State) (path : Path) (i sub : Nat) : Nat :=
  if i < 0x2000 then commValue s i sub
  else if i < 0x3000 then moduleValue s path i sub
  else if i < 0x4000 then powerValue s i sub
  else if i < 0x4100 then auditValue s i sub
  else if i < 0x5000 then healthValue s path i sub
  else if i < 0x6000 then tenValue s i sub
  else portValue s i sub

/-- A wait record (R337). -/
def waitWord (w : WaitRec) : Nat :=
  w.vtile % 64 + w.vfield % 8 * 2 ^ 6 + w.vring % 64 * 2 ^ 9 + w.unit % 8 * 2 ^ 15 + w.kind % 16 * 2 ^ 18 + b2n w.ext * 2 ^ 22
    + w.tVtile % 64 * 2 ^ 23 + w.tVfield % 8 * 2 ^ 29 + w.tVring % 64 * 2 ^ 32 + w.ch % 32 * 2 ^ 38 + w.agent % 8 * 2 ^ 43

/-- RECORD of READ_SEQ; a Tenant reads its own tenancies' records and those of TENANCY 0xFF (R347). -/
def recordValue (s : State) (path : Path) : Except Nat (List Byte) :=
  match s.box.log.find? fun p => p.2.rec_.seq = (pathOf s path).readSeq with
  | none => .error abNoData
  | some p =>
    let mine : Bool := match path with
      | .can => true
      | .host q => (hportOf s q).role ≠ .tenant || p.2.rec_.ten = 0xFF || ownTenant s q p.2.rec_.ten
    if mine then .ok (recBytes p.2.rec_) else .error abDenied

/-- Entries of the whole map: factory, then field. -/
def wholeMap (s : State) : List (BitVec 128) := s.box.factory ++ s.box.fieldMap

def octValue (s : State) (path : Path) (i sub : Nat) : Except Nat (List Byte) :=
  match i with
  | 0x4100 => recordValue s path
  | 0x4102 => match s.box.hang.recs[(pathOf s path).hangIdx]? with
    | some w => .ok (leBytes 8 (waitWord w))
    | none => .error abRange
  | 0x4200 => match (wholeMap s)[(pathOf s path).mapIdx]? with
    | some e => .ok (leBytes 16 e.toNat)
    | none => .error abRange
  | 0x610D => .ok (padTo 0 32 (sportOf s (sub - 1)).ipv6)
  | 0x610E => .ok (padTo 0 12 (sportOf s (sub - 1)).mac)
  | _ =>
    let x := tenOf s (sub - 1)
    .ok (if x.st = .none_ then padTo 0 32 []
      else (List.range 32).map fun l => BitVec.ofNat 8 (SMap.get 0xFF x.portMap l))

/-- A read of an entry: its bytes or the abort code (R399, R401). -/
def dictRead (s : State) (path : Path) (i sub : Nat) : Except Nat (List Byte) :=
  match findEntry s path i sub with
  | .error c => .error c
  | .ok e =>
    if !permits s path e.rd sub then .error abDenied
    else if e.acc = .wo then .ok (padTo 0 (if e.ty = .dom then 256 else tyLen e.ty) [])
    else if sub = 0 && !(objectRows i).any (fun e => e.lo = 0) then .ok (leBytes 1 (topSub (objectRows i)))
    else match e.ty with
      | .oct _ => octValue s path i sub
      | .str => .ok (strValue s i)
      | ty => .ok (leBytes (tyLen ty) (numValue s path i sub))

/-! ### Writes -/

def setSettings (s : State) (f : Settings → Settings) : State := modBox s fun b => { b with set := f b.set }

def ranged (ok : Bool) (s : State) : Except Nat State := if ok then .ok s else .error abRange
def within (lo hi v : Nat) : Bool := decide (lo ≤ v) && decide (v ≤ hi)
/-- Range, then state (checks 5 and 6). -/
def rangedIdle (ok idle : Bool) (s : State) : Except Nat State :=
  if !ok then .error abRange else if idle then .ok s else .error abBusy

/-- What STORE_ALL stores (R412). -/
def storedSet (s : State) : Stored :=
  { set := s.box.set, beatLog2 := s.time.beatLog2Next.getD s.time.beatLog2, capW := s.pwr.capWNext.getD s.pwr.capW
    fixedFreq := s.pwr.fixedFreqNext.getD s.pwr.fixedFreq
    ports := (List.range 32).map fun p =>
      let x := sportOf s p
      (p, { enable := x.enable, encap := x.encap, ipv6 := x.ipv6, mac := x.mac, frameMax := x.frameMax }) }

/-- FW_IMAGE (R418): a piece at a byte offset. The piece that reaches the header's length is the last. -/
def fwWrite (s : State) (path : Path) (off : Nat) (bs : List Byte) : Except Nat State :=
  let b := s.box
  let run : Bool := decide (b.fwStatus = 1)
  if run && (b.fwOwner ≠ some path || off ≠ b.fwBytes.length) || (!run && off ≠ 0) then .error abBusy
  else
    let img := if run then b.fwBytes ++ bs else bs
    if 2 ^ 24 < img.length then .error abType
    else
      let s := if path = .can then modCan s fun c => { c with segmented := decide (img.length < Config.fwLength img), segAt := s.time.uptime } else s
      if img.length < Config.fwLength img then
        .ok (modBox s fun b => { b with fwStatus := 1, fwOwner := some path, fwBytes := img })
      else
        let v := Config.fwVersion img
        let st := if !Config.fwSignatureOk img then 3 else if v.1 ≠ 2 || decide (v.2 < 4) then 4 else 2
        .ok (modBox s fun b => { b with fwStatus := st, fwOwner := none, fwBytes := if st = 2 then img else [] })

/-- FW_CONTROL (R418). -/
def fwControl (s : State) (v : Nat) : Except Nat State :=
  let b := s.box
  if v = 1 then
    if b.state = .computeReset || b.resetStart.isSome || b.pwrPending then .error abBusy
    else if b.fwStatus ≠ 2 then .error abCommand
    else .ok (boxRestart (modBox s fun b => { b with
      fwPrev := b.fwRunning, fwRunning := b.fwBytes, fwBytes := [], fwStatus := 0, fwTrial := some 0 }) 2)
  else if v = 3 then
    .ok (if b.fwStatus = 2 then modBox s fun b => { b with fwBytes := [], fwStatus := 0 } else s)
  else .error abCommand

def commWrite (s : State) (path : Path) (i v off : Nat) (bs : List Byte) : Except Nat State :=
  match i with
  | 0x1010 => if v = 0x65766173 then .ok (modBox s fun b => { b with stored := some (storedSet s) }) else .error abCommand
  | 0x1011 => if v = 0x64616F6C then .ok (modBox s fun b => { b with stored := none }) else .error abCommand
  | 0x1015 => ranged (within 1 10000 v) (setSettings s fun x => { x with emcyInhibit := v })
  | 0x1017 => ranged (v = 0 || within 100 60000 v) (setSettings s fun x => { x with heartbeatMs := v })
  | 0x1F50 => fwWrite s path off bs
  | 0x1F51 => fwControl s v
  | _ => .ok s

/-- RESERVE_PER_PLY takes effect at once (R295). -/
def setReserve (s : State) (v : Nat) : State :=
  (List.range 4).foldl (fun s p =>
    let held := (plyRings p).filter fun r => (ringOf s r).st = .reserve
    if held.length ≤ v then topUp s p
    else (held.take (held.length - v)).foldl (fun s r => modRing s r fun x => { x with st := .free }) s)
    (setSettings s fun x => { x with reservePerPly := v })

/-- STATE of a ring is written (R295). -/
def ringWrite (s : State) (r v : Nat) : Except Nat State :=
  let st := (ringOf s r).st
  if decide (v ≤ 1) && (st = .free || st = .reserve) && ringWhole s r 75 then
    .ok (modRing s r fun x => { x with st := if v = 0 then .free else .reserve })
  else .error abOther

def moduleWrite (s : State) (path : Path) (i sub v : Nat) : Except Nat State :=
  match i, sub with
  | 0x2001, _ => ranged (decide (0x200 ≤ v)) (modPath s path fun x => { x with level := min v 0x201 })
  | 0x2030, _ => rangedIdle (within 12 20 v) (!clauseRuns s) { s with time := { s.time with beatLog2Next := some v } }
  | 0x2040, 1 => ranged (within 500 100000 v) (setSettings s fun x => { x with retryNs := v })
  | 0x2040, _ => ranged (within 1 32 v) (setSettings s fun x => { x with retryMax := v })
  | 0x2050, _ =>
    rangedIdle (decide (v ≤ 4)) (!clauseRuns s && !allRings.any fun r => (ringOf s r).st = .resetting) (setReserve s v)
  | 0x2060, _ => .ok (setSettings s fun x => { x with emcyClasses := v % 64 })
  | 0x2061, 1 => ranged (decide (v < 64)) (modBox s fun b => { b with alertClasses := v })
  | 0x2061, _ => if v = 1 then .ok { s with pins := { s.pins with alert := false } } else .error abOther
  | 0x2062, _ => rangedIdle true (!clauseRuns s) { s with time := { s.time with spreadNext := some (decide (v = 1)) } }
  | i, _ => ringWrite s (i - 0x2100) v

/-- A value of SHED_ORDER names each class once (R415). -/
def shedOrderOk (v : Nat) : Bool :=
  let bs := (List.range 3).map fun k => fldN v (8 * k) 8
  [1, 2, 3].all fun c => bs.contains c

def powerWrite (s : State) (i v : Nat) : Except Nat State :=
  match i with
  | 0x3000 => ranged (within 10000 (limitW s.fused.variant) v) (modPwr s fun p => { p with capWNext := some v })
  | 0x3001 => ranged (shedOrderOk v) (setSettings s fun x => { x with shedOrder := v % 2 ^ 24 })
  | _ => .ok (modPwr s fun p => { p with fixedFreqNext := some (decide (v = 1)) })

def auditWrite (s : State) (i sub v : Nat) : Except Nat State :=
  let x := s.box.set
  match i, sub with
  | 0x4000, _ => ranged (decide (v ≤ 4)) (modTen s (sub - 1) fun x => { x with auditLevel := v })
  | 0x4001, _ => ranged (within 1 8 v) (modTen s (sub - 1) fun x => { x with replayK := v })
  | 0x4009, _ => ranged (within 1 200 v) (setSettings s fun x => { x with marginWarn := v })
  | 0x400A, 1 => .ok (setSettings s fun x => { x with optWarn := sgn 16 v })
  | 0x400A, 2 => if x.optWarn < sgn 16 v then .error abOther else .ok (setSettings s fun x => { x with optAlarm := sgn 16 v })
  | 0x400A, 3 => .ok (setSettings s fun x => { x with berWarn := BitVec.ofNat 32 v })
  | _, _ =>
    if realGt x.berWarn (BitVec.ofNat 32 v) then .error abOther
    else .ok (setSettings s fun x => { x with berAlarm := BitVec.ofNat 32 v })

/-- REVERT (R279): a REVERTED entry for the item of a RETIRED field entry. -/
def revertWrite (s : State) (v : Nat) : Except Nat State :=
  match (if v < s.box.factory.length then none else s.box.fieldMap[v - s.box.factory.length]?) with
  | some e =>
    if entryState e ≠ 4 then .error abOther
    else .ok (mapAppend s (mapEntry (fld e 0 4) 5 (fld e 8 2) (fld e 10 7) (fld e 17 7) 3 s.time.poweredS 0 0 0))
  | none => .error abOther

/-- A real recovery runs on a tenancy's clause. -/
def realRecovery (u : Run) : Bool :=
  u.rehearsedAt.isNone && (!u.moving.isEmpty || u.reload || u.resuming || u.engineTry || match u.phase with
    | .replay | .grace | .hold _ | .rebind _ | .takeover _ _ | .hang _ => true
    | _ => false)

/-- REFUSE_REASON of an arming; 0 where it is accepted (R324). -/
def armReason (s : State) : Nat :=
  let h := s.box.reh
  let r := rehRing h
  let soon (t : Option Nat) (d : Nat) : Bool := match t with | some t => decide (s.time.uptime < t + d * 1000000000) | none => false
  let at_ := clauseAt s r
  let unguarded : Bool := match at_ with
    | some (n, vr) => (match clauseOf (tenOf s n) with | some c => !c.guard | none => true) || (findMove s n vr r).isNone
    | none => false
  let busy : Bool := match at_ with
    | some (n, _) => (match (tenOf s n).run with | some u => realRecovery u | none => false)
    | none => false
  if !h.enable then 1
  else if h.status = 1 || h.status = 2 then 2
  else if soon h.firedAt s.box.set.minInterval || (h.kind = 5 && soon h.lossAt 3600) then 3
  else if !targetOk h.kind h.target || (ringOf s r).st ≠ .assigned then 4
  else if h.kind = 5 && unguarded then 5
  else if busy then 6
  else 0

/-- ARM (R321, R324). -/
def armWrite (s : State) (v : Nat) : Except Nat State :=
  if v ≠ 1 then .error abCommand
  else
    let n := armReason s
    .ok (modBox s fun b => { b with reh :=
      if n = 0 then { b.reh with status := 1, refused := false, reason := 0 } else { b.reh with refused := true, reason := n } })

/-- UNPIN_TO (R346). -/
def unpinWrite (s : State) (v : Nat) : State :=
  modBox s fun b => { b with log := b.log.map fun p => (p.1, if p.2.rec_.seq ≤ v then { p.2 with pinned := false } else p.2) }

def healthWrite (s : State) (path : Path) (i sub v : Nat) : Except Nat State :=
  let reh (f : Rehearsal → Rehearsal) : State := modBox s fun b => { b with reh := f b.reh }
  match i, sub with
  | 0x4100, 3 => ranged (v = 0) (modBox s fun b => { b with overflow := 0 })
  | 0x4100, 4 => .ok (modPath s path fun x => { x with readSeq := v })
  | 0x4100, _ => .ok (unpinWrite s v)
  | 0x4101, 2 => ranged (within 1 60000 v) (setSettings s fun x => { x with stallMs := v })
  | 0x4101, _ => if v = 1 then .ok (startReset s causeWrite) else .error abOther
  | 0x4102, _ => .ok (modPath s path fun x => { x with hangIdx := v })
  | 0x4200, 3 => .ok (modPath s path fun x => { x with mapIdx := v })
  | 0x4200, _ => revertWrite s v
  | 0x4300, 1 => .ok (reh fun h => { h with enable := decide (v = 1) })
  | 0x4300, 2 => if within 1 5 v then .ok (reh fun h => { h with kind := v }) else .error abOther
  | 0x4300, 3 => .ok (reh fun h => { h with target := BitVec.ofNat 64 v })
  | 0x4300, 4 => armWrite s v
  | _, _ => ranged (within 10 86400 v) (setSettings s fun x => { x with minInterval := v })

/-- ROLE (R354): a second Owner is refused. -/
def roleWrite (s : State) (p v : Nat) : Except Nat State :=
  if 2 < v then .error abRange
  else if v = 2 && (List.range 8).any (fun q => q ≠ p && isOwner s q) then .error abOther
  else .ok (modHport s p fun x => { x with role := if v = 0 then .observer else if v = 1 then .tenant else .owner })

/-- RWI entries of a stream port are idle while it is DISABLED or DOWN (R395); one that reads VERSION stays DOWN (R383). -/
def portIdle (x : SPort) : Bool := x.st = .disabled || x.st = .down || x.st = .version

/-- PORT_ENABLE (R376, R395): a port that is disabled loses its link. -/
def enableWrite (s : State) (p v : Nat) : State :=
  let x := sportOf s p
  if v = 1 then (if x.enable then s else setSport s p { x with enable := true, st := .training, width := 0 })
  else
    let s := if x.st = .up then abortOnPort s p 1 else s
    modSport s p fun x => { x with
      enable := false, st := .disabled, width := 0, helloSeen := false, retryBuf := [], outQ := [], collHeld := []
      dataHeld := x.dataHeld.map fun h => (h.1, false)
      noProgress := 0, gap := false }

/-- RETRAIN (R377): a hard failure; the lanes of the mask are excluded. -/
def retrainWrite (s : State) (p v : Nat) : State :=
  modSport (hardFail s p 2) p fun x => { x with excluded := BitVec.ofNat 8 v }

/-- PORT_MAP is written while the tenancy is not RUNNING (R386). -/
def portMapWrite (s : State) (n : Nat) (bs : List Byte) : Except Nat State :=
  rangedIdle (bs.all fun b => b.toNat < 32 || b.toNat = 0xFF) ((tenOf s n).st ≠ .running)
    (modTen s n fun x => { x with portMap := (bs.zipIdx).foldl (fun m p => SMap.put 0xFF m p.2 p.1.toNat) [] })

/-- The sideshow hold ends (R417). -/
def endHold (s : State) : State := modBox s fun b => { b with heldNs := heldTime s, heldFrom := none, sideHold := false }

/-- SIDESHOW_HOLD (R417). -/
def holdWrite (s : State) (v : Nat) : State :=
  if v = 0 then endHold s
  else if s.box.sideHold then s
  else modBox s fun b => { b with sideHold := true, sideHoldAt := s.time.uptime }

def portWrite (s : State) (i sub v : Nat) (bs : List Byte) : Except Nat State :=
  let p := sub - 1
  let idle := portIdle (sportOf s p)
  match i with
  | 0x6000 => roleWrite s p v
  | 0x6002 => ranged (within 1 1000 v) (setSettings s fun x => { x with ptmMs := v })
  | 0x6102 => .ok (enableWrite s p v)
  | 0x6103 => rangedIdle (decide (v ≤ 1)) idle (modSport s p fun x => { x with encap := v })
  | 0x6109 => .ok (retrainWrite s p v)
  | 0x610A => ranged (within 1 16 v) (setSettings s fun x => { x with retryTimeoutUs := v })
  | 0x610B => ranged (within 1 8 v) (setSettings s fun x => { x with retryLimit := v })
  | 0x610C => .ok (setSettings s fun x => { x with udpPort := v })
  | 0x610D => rangedIdle true idle (modSport s p fun x => { x with ipv6 := bs })
  | 0x610E => rangedIdle true idle (modSport s p fun x => { x with mac := bs })
  | 0x610F => rangedIdle (within 1024 9216 v) idle (modSport s p fun x => { x with frameMax := v })
  | 0x6110 => portMapWrite s p bs
  | _ => .ok (holdWrite s v)

/-- Length and type match (check 4). -/
def typeOk (ty : DType) (bs : List Byte) : Bool :=
  match ty with
  | .bool => bs.length = 1 && decide (leNat bs ≤ 1)
  | .str => true
  | .dom => decide (bs.length ≤ 2 ^ 24)
  | ty => bs.length = tyLen ty

/-- Checks 5 to 8 and the effect of a write. -/
def applyWrite (s : State) (path : Path) (i sub off : Nat) (bs : List Byte) : Except Nat State :=
  let v := leNat bs
  if i < 0x2000 then commWrite s path i v off bs
  else if i < 0x3000 then moduleWrite s path i sub v
  else if i < 0x4000 then powerWrite s i v
  else if i < 0x4100 then auditWrite s i sub v
  else if i < 0x5000 then healthWrite s path i sub v
  else portWrite s i sub v bs

/-- A write of an entry: the new state or the abort code (R399, R401). -/
def dictWrite (s : State) (path : Path) (i sub off : Nat) (bs : List Byte) : Except Nat State :=
  match findEntry s path i sub with
  | .error c => .error c
  | .ok e =>
    if e.acc = .ro || e.acc = .const then .ok s
    else if !permits s path e.wr sub then .error abDenied
    else if !typeOk e.ty bs then .error abType
    else applyWrite s path i sub off bs

end Sys2Proof.Machine
end

