-- ==== Sys2Proof/Machine/Registers.lean ====
section
/-! DEFINITION. The paths to the dictionary and to the Module Address space: mailboxes, USDO, the rows of single entries,
and writes to registers with no row of their own (spec/13_hosts_and_tenancy.md R353, R361; spec/15_object_dictionary.md
R401, R402, R406, R409; spec/00_scope.md R6). -/

namespace Sys2Proof.Machine
open Sys2Proof

/-! ### Requests and answers (R361, R406) -/

/-- MB_CMD of a request. -/
def mbWord (i sub : Nat) (write ma : Bool) (len off : Nat) : BitVec 64 :=
  BitVec.ofNat 64 (i % 2 ^ 16 + sub % 2 ^ 8 * 2 ^ 16 + b2n write * 2 ^ 24 + b2n ma * 2 ^ 25 + len % 2 ^ 9 * 2 ^ 32
    + off % 2 ^ 16 * 2 ^ 41)

/-- Put bytes into MB_DATA from byte 0. -/
def mbPut (m : List (Nat × Byte)) (bs : List Byte) : List (Nat × Byte) :=
  ((bs.take 256).zipIdx).foldl (fun m p => SMap.put 0 m p.2 p.1) m

def mbBytes (x : HPort) (from_ n : Nat) : List Byte := (List.range n).map fun k => SMap.get 0 x.mbData (from_ + k)

/-- The Box Office restarts: its last restart began less than 0.3 s ago (R409; it takes the whole 0.3 s, DESIGN CHOICE, log
entry 82). -/
def boxPaused (s : State) : Bool := s.box.restarts ≠ 0 && decide (s.time.uptime < s.box.lastRestart + 300000000)

/-- The Box Office can answer the path: a mailbox that is not BUSY, outside a restart, or the CAN node in a state that serves. -/
def pathServes (s : State) (path : Path) : Bool :=
  match path with
  | .host p => boxRuns s && !boxPaused s && !(hportOf s p).mbBusy
  | .can => canServes s

/-- The host writes MB_DATA and MB_CMD (log entry 27). -/
def ask (s : State) (path : Path) (cmd : BitVec 64) (bs : List Byte) : State :=
  match path with
  | .host p => modHport s p fun x => { x with mbCmd := cmd, mbDone := false, mbAbort := 0, mbData := mbPut x.mbData bs }
  | .can => s

/-- The answer: MB_STATUS and MB_DATA, or the CAN transfer's response. -/
def respond (s : State) (path : Path) (code : Nat) (bs : List Byte) : State :=
  match path with
  | .host p => modHport s p fun x => sendMsix { x with
      mbBusy := false, mbDone := true, mbAbort := code, mbData := mbPut x.mbData bs } 9
  | .can => canSend s (.sdo code bs)

/-- A request that comes while the Box Office restarts stays BUSY in MB_CMD and MB_DATA, and is served once the restart has
completed (R409); over CAN it is lost, and so is one while nothing can answer. -/
def holdAsk (s : State) (path : Path) (cmd : BitVec 64) (bs : List Byte) : State :=
  match path with
  | .host p =>
    if boxRuns s && boxPaused s && !(hportOf s p).mbBusy then modHport (ask s path cmd bs) p fun x => { x with mbBusy := true } else s
  | .can => s

/-- A dictionary write: an aborted one changes nothing but the answer. -/
def finishWrite (s : State) (path : Path) (r : Except Nat State) : State :=
  match r with
  | .ok t => respond t path abNone []
  | .error c => respond s path c []

/-- A dictionary read of index `i`; `off` counts pieces of 256 bytes, and a mailbox takes as many bytes as its request's length
says. The write-only domain FW_IMAGE reads as zeros in each of its pieces (R6, R361). R361 gives the offset only to objects longer
than 256 bytes: with another one a shorter entry, a short write-only one too, answers no byte, MB_DATA stays as it was, and no abort
is given; a length beyond the object's answers the bytes there are (DESIGN CHOICE, log entry 82). -/
def finishRead (s : State) (path : Path) (i off len : Nat) (r : Except Nat (List Byte)) : State :=
  match r with
  | .ok bs =>
    let piece := bs.drop (256 * if i = 0x1F50 then 0 else off)
    respond s path abNone (match path with | .host _ => piece.take (min 256 len) | .can => piece)
  | .error c => respond s path c []

/-- A whole write access of a path. -/
def writeAccess (s : State) (path : Path) (i sub off : Nat) (bs : List Byte) : State :=
  let cmd := mbWord i sub true false bs.length (off / 256)
  if !pathServes s path then holdAsk s path cmd bs
  else
    let s := ask s path cmd bs
    finishWrite s path (dictWrite s path i sub off bs)

def readLen (r : Except Nat (List Byte)) : Nat := match r with | .ok bs => max 1 bs.length | .error _ => 1

/-- A whole read access of a path. -/
def readAccess (s : State) (path : Path) (i sub off : Nat) : State :=
  let len := min 256 (readLen (dictRead s path i sub))
  let cmd := mbWord i sub false false len off
  if !pathServes s path then holdAsk s path cmd []
  else
    let s := ask s path cmd []
    finishRead s path i off len (dictRead s path i sub)

/-- USDO_READ. -/
def execUsdoRead (index : BitVec 16) (sub : BitVec 8) (s : State) : Host.Outcome State Fault Refusal :=
  .next (readAccess s .can index.toNat sub.toNat 0)
/-- USDO_WRITE. -/
def execUsdoWrite (index : BitVec 16) (sub : BitVec 8) (data : List Byte) (s : State) : Host.Outcome State Fault Refusal :=
  .next (writeAccess s .can index.toNat sub.toNat 0 data)
/-- MAILBOX_READ. -/
def execMailboxRead (port : HPortId) (index : BitVec 16) (sub : BitVec 8) (offset : BitVec 16) (s : State) :
    Host.Outcome State Fault Refusal :=
  .next (readAccess s (.host port) index.toNat sub.toNat offset.toNat)
/-- MAILBOX_WRITE. -/
def execMailboxWrite (port : HPortId) (index : BitVec 16) (sub : BitVec 8) (data : List Byte) (s : State) :
    Host.Outcome State Fault Refusal :=
  .next (writeAccess s (.host port) index.toNat sub.toNat 0 data)

/-! ### Module Address accesses of the mailbox (R354, R361, R409) -/

/-- A mailbox read of `n` bytes at a Module Address. -/
def mbMaRead (s : State) (p ma n : Nat) : State × Nat × List Byte :=
  if !isOwner s p then (s, abDenied, [])
  else if ma % 8 ≠ 0 || n % 8 ≠ 0 || !within 8 256 n then (s, abRange, [])
  else match maLoad s ma n with
    | (s, some bs) => (s, abNone, bs)
    | (s, none) => (s, abPoison, padTo 0 n [])

/-- A mailbox write. -/
def mbMaWrite (s : State) (p ma : Nat) (bs : List Byte) : State × Nat :=
  if !isOwner s p then (s, abDenied)
  else if ma % 8 ≠ 0 || bs.length % 8 ≠ 0 || !within 8 248 bs.length then (s, abRange)
  else match maStore s ma bs with
    | (s, true) => (s, abNone)
    | (s, false) => (s, abOther)

/-- MA_READ. -/
def execMaRead (port : HPortId) (ma : BitVec 64) (len : Nat) (s : State) : Host.Outcome State Fault Refusal :=
  .next (
    if !pathServes s (.host port) then holdAsk s (.host port) (mbWord 0 0 false true len 0) (leBytes 8 ma.toNat)
    else
      let s := ask s (.host port) (mbWord 0 0 false true len 0) (leBytes 8 ma.toNat)
      let r := mbMaRead s port ma.toNat len
      respond r.1 (.host port) r.2.1 r.2.2)

/-- MA_WRITE. -/
def execMaWrite (port : HPortId) (ma : BitVec 64) (data : List Byte) (s : State) : Host.Outcome State Fault Refusal :=
  .next (
    if !pathServes s (.host port) then holdAsk s (.host port) (mbWord 0 0 true true data.length 0) (leBytes 8 ma.toNat ++ data)
    else
      let s := ask s (.host port) (mbWord 0 0 true true data.length 0) (leBytes 8 ma.toNat ++ data)
      let r := mbMaWrite s port ma.toNat data
      respond r.1 (.host port) r.2 [])

/-! ### Entries with a row of their own -/

/-- STORE_ALL. -/
def execStoreAll (path : Path) (data : List Byte) (s : State) : Host.Outcome State Fault Refusal :=
  .next (writeAccess s path 0x1010 1 0 data)
/-- RESTORE_ALL. -/
def execRestoreAll (path : Path) (data : List Byte) (s : State) : Host.Outcome State Fault Refusal :=
  .next (writeAccess s path 0x1011 1 0 data)
/-- FW_IMAGE: `offset` counts bytes. -/
def execFwImage (path : Path) (offset : Nat) (data : List Byte) (s : State) : Host.Outcome State Fault Refusal :=
  .next (writeAccess s path 0x1F50 1 offset data)
/-- FW_ACTIVATE. -/
def execFwActivate (path : Path) (s : State) : Host.Outcome State Fault Refusal := .next (writeAccess s path 0x1F51 1 0 [1])
/-- FW_DISCARD. -/
def execFwDiscard (path : Path) (s : State) : Host.Outcome State Fault Refusal := .next (writeAccess s path 0x1F51 1 0 [3])
/-- LEVEL. -/
def execLevel (path : Path) (data : List Byte) (s : State) : Host.Outcome State Fault Refusal :=
  .next (writeAccess s path 0x2001 1 0 data)
/-- ROLE. -/
def execRole (path : Path) (port : HPortId) (data : List Byte) (s : State) : Host.Outcome State Fault Refusal :=
  .next (writeAccess s path 0x6000 ((port : Nat) + 1) 0 data)
/-- REVERT. -/
def execRevert (path : Path) (data : List Byte) (s : State) : Host.Outcome State Fault Refusal :=
  .next (writeAccess s path 0x4200 7 0 data)
/-- ARM. -/
def execArm (path : Path) (data : List Byte) (s : State) : Host.Outcome State Fault Refusal :=
  .next (writeAccess s path 0x4300 4 0 data)
/-- MODULE_RESET. -/
def execModuleReset (path : Path) (data : List Byte) (s : State) : Host.Outcome State Fault Refusal :=
  .next (writeAccess s path 0x4101 9 0 data)
/-- UNPIN_TO. -/
def execUnpinTo (path : Path) (data : List Byte) (s : State) : Host.Outcome State Fault Refusal :=
  .next (writeAccess s path 0x4100 7 0 data)
/-- ALERT_CLEAR. -/
def execAlertClear (path : Path) (data : List Byte) (s : State) : Host.Outcome State Fault Refusal :=
  .next (writeAccess s path 0x2061 2 0 data)
/-- RETRAIN. -/
def execRetrain (path : Path) (port : SPortId) (data : List Byte) (s : State) : Host.Outcome State Fault Refusal :=
  .next (writeAccess s path 0x6109 ((port : Nat) + 1) 0 data)
/-- PORT_ENABLE. -/
def execPortEnable (path : Path) (port : SPortId) (data : List Byte) (s : State) : Host.Outcome State Fault Refusal :=
  .next (writeAccess s path 0x6102 ((port : Nat) + 1) 0 data)
/-- RESERVE_PER_PLY. -/
def execReservePerPly (path : Path) (data : List Byte) (s : State) : Host.Outcome State Fault Refusal :=
  .next (writeAccess s path 0x2050 0 0 data)
/-- RING_STATE_WRITE. -/
def execRingStateWrite (path : Path) (ring : RingId) (data : List Byte) (s : State) : Host.Outcome State Fault Refusal :=
  .next (writeAccess s path (0x2100 + (ring : Nat)) 1 0 data)
/-- SIDESHOW_HOLD. -/
def execSideshowHold (path : Path) (data : List Byte) (s : State) : Host.Outcome State Fault Refusal :=
  .next (writeAccess s path 0xA000 1 0 data)

/-- SIDESHOW_HOLD_EXPIRY: 3,600 s of uptime (R417). -/
def execSideshowHoldExpiry (s : State) : Host.Outcome State Fault Refusal :=
  .next (if s.box.sideHold && decide (s.box.sideHoldAt + 3600000000000 ≤ s.time.uptime) then endHold s else s)

/-! ### BAR0 (R353) -/

/-- The register value that a write of up to 8 bytes leaves. -/
def merge (old : Nat) (bs : List Byte) : Nat := leNat (bs.take 8 ++ (leBytes 8 old).drop bs.length)

/-- The request in MB_CMD is served (R361). -/
def mbServe (s : State) (p : HPortId) : State :=
  let x := hportOf s p
  let w := x.mbCmd
  let f (lo len : Nat) : Nat := fld w lo len
  let path : Path := .host p
  let n := f 32 9
  if n = 0 || 256 < n then respond s path abOther []
  else if bit w 25 then
    let ma := leNat (mbBytes x 0 8)
    if bit w 24 then
      let r := mbMaWrite s p ma (mbBytes x 8 n)
      respond r.1 path r.2 []
    else
      let r := mbMaRead s p ma n
      respond r.1 path r.2.1 r.2.2
  else if bit w 24 then finishWrite s path (dictWrite s path (f 0 16) (f 16 8) (256 * f 41 16) (mbBytes x 0 n))
  else finishRead s path (f 0 16) (f 41 16) n (dictRead s path (f 0 16) (f 16 8))

/-- MB_CMD is written: the request is served, or stays BUSY while the Box Office restarts (R361, R409). -/
def mbCommand (s : State) (p : HPortId) (w : BitVec 64) : State :=
  let f (lo len : Nat) : Nat := fld w lo len
  if !boxRuns s || (hportOf s p).mbBusy then s
  else
    let s := modHport s p fun x => { x with
      mbCmd := mbWord (f 0 16) (f 16 8) (bit w 24) (bit w 25) (f 32 9) (f 41 16), mbDone := false, mbAbort := 0
      mbBusy := boxPaused s }
    if boxPaused s then s else mbServe s p

/-- The requests that waited for a restart of the Box Office are served once it has completed (R409). -/
def serveBusy (s : State) : State :=
  if boxPaused s then s
  else (List.finRange 8).foldl (fun (s : State) (p : HPortId) => if (hportOf s p).mbBusy then mbServe s p else s) s

/-- Uptime passes, one count of its counter, and a restart of the Box Office may complete. -/
def passTime (s : State) : State := serveBusy { s with time := { s.time with uptime := s.time.uptime + 10 } }

/-- A BAR0 register's value (R353); what is not listed reads zero. EVQ_LOST clears when it is read by its own command. -/
def bar0Read (s : State) (p : HPortId) (off : Nat) : Nat :=
  let x := hportOf s p
  let h (q : Nat) : HQueue := hqueue x q
  let role : Nat := match x.role with | .observer => 0 | .tenant => 1 | .owner => 2
  match off with
  | 0x0000 => (p : Nat) + role * 2 ^ 3 + 0x20 * 2 ^ 8
  | 0x0100 => x.evqBase.toNat
  | 0x0108 => x.evqLog + b2n x.evqEnable * 2 ^ 4
  | 0x0110 => x.evqHead
  | 0x0118 => x.evqLost
  | 0x2000 => x.mbCmd.toNat
  | 0x2008 => b2n x.mbBusy + b2n x.mbDone * 2 + x.mbAbort * 2 ^ 32
  | 0x3000 => x.ptmUptime
  | 0x3008 => x.ptmTime.toNat
  | 0x3010 => x.ptmCount
  | _ =>
    if 0x200 ≤ off ∧ off < 0x300 ∧ off % 8 = 0 then
      let y := h ((off - 0x200) / 32)
      match off % 32 / 8 with
      | 0 => y.sqBase.toNat
      | 1 => y.cqBase.toNat
      | 2 => y.sqLog + y.cqLog * 2 ^ 4 + b2n y.enable * 2 ^ 8 + b2n y.error * 2 ^ 9
      | _ => 0
    else if 0x2100 ≤ off ∧ off < 0x2200 ∧ off % 8 = 0 then leNat (mbBytes x (off - 0x2100) 8)
    else 0

/-- A queue's registers are idle while its enable bit is clear; enabling a queue starts it empty (log entry 22). A write to a
busy one, and one that enables a queue with a size outside its range, is refused: R353 gives BAR0 no status bit for an access
error, so nothing else changes (R6; log entry 80). -/
def queueWrite (h : HQueue) (k : Nat) (bs : List Byte) : HQueue :=
  if h.enable then h
  else match k with
  | 0 => { h with sqBase := BitVec.ofNat 64 (merge h.sqBase.toNat bs / 4096 * 4096) }
  | 1 => { h with cqBase := BitVec.ofNat 64 (merge h.cqBase.toNat bs / 4096 * 4096) }
  | _ =>
    let v := merge (h.sqLog + h.cqLog * 2 ^ 4) bs
    let h₀ := h
    let h := { h with sqLog := fldN v 0 4, cqLog := fldN v 4 4 }
    if fldN v 8 1 = 1 && !(within 4 12 h.sqLog && within 4 12 h.cqLog) then h₀
    else if fldN v 8 1 = 1 then
      { h with enable := true, error := false, sqTail := 0, fetched := 0, cqHead := 0, cqTail := 0, cqPass := 0, held := [] }
    else h

/-- EVQ_BASE, EVQ_CFG and EVQ_HEAD; enabling the event queue starts it empty. -/
def evqWrite (x : HPort) (off : Nat) (bs : List Byte) : HPort :=
  match off with
  | 0x100 => { x with evqBase := BitVec.ofNat 64 (merge x.evqBase.toNat bs / 4096 * 4096) }
  | 0x108 =>
    let v := merge (x.evqLog + b2n x.evqEnable * 2 ^ 4) bs
    let on : Bool := fldN v 4 1 = 1
    if on && !within 4 12 (fldN v 0 4) then x
    else
    let x := if on && !x.evqEnable then { x with evqTail := 0, evqLosing := 0 } else x
    { x with evqLog := fldN v 0 4, evqEnable := on }
  | _ => { x with evqHead := merge x.evqHead bs }

/-- A write to BAR0: what is not listed, and what is read-only, ignores it. -/
def bar0Write (s : State) (p : HPortId) (off : Nat) (bs : List Byte) : State :=
  if off = 0x100 || off = 0x108 || off = 0x110 then modHport s p fun x => evqWrite x off bs
  else if decide (0x200 ≤ off) && decide (off < 0x300) && off % 32 / 8 < 3 && off % 8 = 0 then
    modHq s p ((off - 0x200) / 32) fun h => queueWrite h (off % 32 / 8) bs
  else if decide (0x1000 ≤ off) && decide (off < 0x1040) && off % 8 = 0 then sqDoorbell s p ((off - 0x1000) / 8) (merge 0 bs)
  else if decide (0x1040 ≤ off) && decide (off < 0x1080) && off % 8 = 0 then cqDoorbell s p ((off - 0x1040) / 8) (merge 0 bs)
  else if off = 0x2000 then mbCommand s p (BitVec.ofNat 64 (merge (hportOf s p).mbCmd.toNat bs))
  else if decide (0x2100 ≤ off) && decide (off < 0x2200) then
    modHport s p fun x => { x with
      mbData := ((bs.take (0x2200 - off)).zipIdx).foldl (fun m b => SMap.put 0 m (off - 0x2100 + b.2) b.1) x.mbData }
  else s

/-- REGISTER_WRITE: a register of the Module Address space, of BAR0, or a dictionary entry. -/
def execRegisterWrite (t : RegTarget) (data : List Byte) (s : State) : Host.Outcome State Fault Refusal :=
  .next (
    match t with
    | .ma a => if a.toNat % 8 ≠ 0 || data.length % 8 ≠ 0 then s else (maStore s a.toNat data).1
    | .bar0 p off => bar0Write s p off.toNat data
    | .entry path i sub => writeAccess s path i.toNat sub.toNat 0 data)

end Sys2Proof.Machine
end

