-- ==== Sys2Proof/Machine/Dispatch.lean ====
section
/-! DEFINITION. One arm for each command: its meaning. -/

namespace Sys2Proof.Machine
open Sys2Proof

def exec (i : Instr) (s : State) : Host.Outcome State Fault Refusal :=
  match i with
  | .powerOn straps rep => Sys2Proof.Machine.execPowerOn straps rep s
  | .holdUpFlush busMv => Sys2Proof.Machine.execHoldUpFlush busMv s
  | .wholeModuleReset => Sys2Proof.Machine.execWholeModuleReset s
  | .modResetDeassert straps rep => Sys2Proof.Machine.execModResetDeassert straps rep s
  | .unpowered => Sys2Proof.Machine.execUnpowered s
  | .throttleAssert => Sys2Proof.Machine.execThrottleAssert s
  | .throttleDeassert => Sys2Proof.Machine.execThrottleDeassert s
  | .chatterQuiet => Sys2Proof.Machine.execChatterQuiet s
  | .throttleRelease => Sys2Proof.Machine.execThrottleRelease s
  | .throttleLong => Sys2Proof.Machine.execThrottleLong s
  | .powerSample rep => Sys2Proof.Machine.execPowerSample rep s
  | .guardClear => Sys2Proof.Machine.execGuardClear s
  | .capLoopAction => Sys2Proof.Machine.execCapLoopAction s
  | .repeatBreach => Sys2Proof.Machine.execRepeatBreach s
  | .breachEnd => Sys2Proof.Machine.execBreachEnd s
  | .sensorRead rs => Sys2Proof.Machine.execSensorRead rs s
  | .thermalCauseEnd => Sys2Proof.Machine.execThermalCauseEnd s
  | .thermtrip ply tenthC => Sys2Proof.Machine.execThermtrip ply tenthC s
  | .phaseLost ring vdram phase => Sys2Proof.Machine.execPhaseLost ring vdram phase s
  | .regLatchoff ring => Sys2Proof.Machine.execRegLatchoff ring s
  | .efuseOpen ring => Sys2Proof.Machine.execEfuseOpen ring s
  | .canaryRun ring rep => Sys2Proof.Machine.execCanaryRun ring rep s
  | .opticalSample ls => Sys2Proof.Machine.execOpticalSample ls s
  | .poweredSecond => Sys2Proof.Machine.execPoweredSecond s
  | .poweredCountStore => Sys2Proof.Machine.execPoweredCountStore s
  | .beatTick rep => Sys2Proof.Machine.execBeatTick rep s
  | .stagingComplete ten => Sys2Proof.Machine.execStagingComplete ten s
  | .stageStall ten => Sys2Proof.Machine.execStageStall ten s
  | .tickMissing site => Sys2Proof.Machine.execTickMissing site s
  | .sideshowTest ring failed switchFailed => Sys2Proof.Machine.execSideshowTest ring failed switchFailed s
  | .heartbeat ring c => Sys2Proof.Machine.execHeartbeat ring c s
  | .ringLost ring => Sys2Proof.Machine.execRingLost ring s
  | .takeoverRestoreDone ten => Sys2Proof.Machine.execTakeoverRestoreDone ten s
  | .tileRestore site => Sys2Proof.Machine.execTileRestore site s
  | .farHomeMigrationDone ten vring => Sys2Proof.Machine.execFarHomeMigrationDone ten vring s
  | .ringRejoin ring rep => Sys2Proof.Machine.execRingRejoin ring rep s
  | .hangVerdict ten => Sys2Proof.Machine.execHangVerdict ten s
  | .extStall ten => Sys2Proof.Machine.execExtStall ten s
  | .computeResetTimeout => Sys2Proof.Machine.execComputeResetTimeout s
  | .ringmasterFault ply => Sys2Proof.Machine.execRingmasterFault ply s
  | .escCountExpiry => Sys2Proof.Machine.execEscCountExpiry s
  | .suspectExpiry item => Sys2Proof.Machine.execSuspectExpiry item s
  | .guardCopyDone ten => Sys2Proof.Machine.execGuardCopyDone ten s
  | .laneRetire field side crossing lane midway => Sys2Proof.Machine.execLaneRetire field side crossing lane midway s
  | .tsvLaneRetire field ch group lane => Sys2Proof.Machine.execTsvLaneRetire field ch group lane s
  | .rowRemap field ch half bank row => Sys2Proof.Machine.execRowRemap field ch half bank row s
  | .nearPatrol field ch errs => Sys2Proof.Machine.execNearPatrol field ch errs s
  | .farPatrol stack errs => Sys2Proof.Machine.execFarPatrol stack errs s
  | .pcRetrain stack pc => Sys2Proof.Machine.execPcRetrain stack pc s
  | .pcRetrainDone stack pc ok => Sys2Proof.Machine.execPcRetrainDone stack pc ok s
  | .boxOfficeRestart => Sys2Proof.Machine.execBoxOfficeRestart s
  | .eventRecord src => Sys2Proof.Machine.execEventRecord src s
  | .logFlashWrite => Sys2Proof.Machine.execLogFlashWrite s
  | .emcySend => Sys2Proof.Machine.execEmcySend s
  | .canHeartbeat => Sys2Proof.Machine.execCanHeartbeat s
  | .busOff => Sys2Proof.Machine.execBusOff s
  | .busOffRecovery => Sys2Proof.Machine.execBusOffRecovery s
  | .sdoTimeout => Sys2Proof.Machine.execSdoTimeout s
  | .nmtStart => Sys2Proof.Machine.execNmtStart s
  | .enterPreOperational => Sys2Proof.Machine.execEnterPreOperational s
  | .nmtStop => Sys2Proof.Machine.execNmtStop s
  | .resetCommunication => Sys2Proof.Machine.execResetCommunication s
  | .resetNode => Sys2Proof.Machine.execResetNode s
  | .usdoRead index sub => Sys2Proof.Machine.execUsdoRead index sub s
  | .usdoWrite index sub data => Sys2Proof.Machine.execUsdoWrite index sub data s
  | .sqTail port q tail => Sys2Proof.Machine.execSqTail port q tail s
  | .cqHead port q head => Sys2Proof.Machine.execCqHead port q head s
  | .completionPost port q => Sys2Proof.Machine.execCompletionPost port q s
  | .portReset port flr => Sys2Proof.Machine.execPortReset port flr s
  | .ptmDialog port masterNs => Sys2Proof.Machine.execPtmDialog port masterNs s
  | .tenCreate port q e => Sys2Proof.Machine.execTenCreate port q e s
  | .tenDestroy port q e => Sys2Proof.Machine.execTenDestroy port q e s
  | .ringAssign port q e => Sys2Proof.Machine.execRingAssign port q e s
  | .ringRelease port q e => Sys2Proof.Machine.execRingRelease port q e s
  | .sliceSet port q e => Sys2Proof.Machine.execSliceSet port q e s
  | .switch port q e => Sys2Proof.Machine.execSwitch port q e s
  | .winOpen port q e => Sys2Proof.Machine.execWinOpen port q e s
  | .winClose port q e => Sys2Proof.Machine.execWinClose port q e s
  | .load port q e => Sys2Proof.Machine.execLoad port q e s
  | .run port q e => Sys2Proof.Machine.execRun port q e s
  | .stop port q e => Sys2Proof.Machine.execStop port q e s
  | .unload port q e => Sys2Proof.Machine.execUnload port q e s
  | .dmaWr port q e data => Sys2Proof.Machine.execDmaWr port q e data s
  | .dmaRd port q e => Sys2Proof.Machine.execDmaRd port q e s
  | .bindingComplete ten => Sys2Proof.Machine.execBindingComplete ten s
  | .timeSliceQuantum group => Sys2Proof.Machine.execTimeSliceQuantum group s
  | .clearDone ring => Sys2Proof.Machine.execClearDone ring s
  | .mailboxRead port index sub offset => Sys2Proof.Machine.execMailboxRead port index sub offset s
  | .mailboxWrite port index sub data => Sys2Proof.Machine.execMailboxWrite port index sub data s
  | .maRead port ma len => Sys2Proof.Machine.execMaRead port ma len s
  | .maWrite port ma data => Sys2Proof.Machine.execMaWrite port ma data s
  | .storeAll path data => Sys2Proof.Machine.execStoreAll path data s
  | .restoreAll path data => Sys2Proof.Machine.execRestoreAll path data s
  | .fwImage path offset data => Sys2Proof.Machine.execFwImage path offset data s
  | .fwActivate path => Sys2Proof.Machine.execFwActivate path s
  | .fwDiscard path => Sys2Proof.Machine.execFwDiscard path s
  | .level path data => Sys2Proof.Machine.execLevel path data s
  | .role path port data => Sys2Proof.Machine.execRole path port data s
  | .revert path data => Sys2Proof.Machine.execRevert path data s
  | .arm path data => Sys2Proof.Machine.execArm path data s
  | .rehearsalFire => Sys2Proof.Machine.execRehearsalFire s
  | .laneDropReturn => Sys2Proof.Machine.execLaneDropReturn s
  | .moduleReset path data => Sys2Proof.Machine.execModuleReset path data s
  | .unpinTo path data => Sys2Proof.Machine.execUnpinTo path data s
  | .alertClear path data => Sys2Proof.Machine.execAlertClear path data s
  | .retrain path port data => Sys2Proof.Machine.execRetrain path port data s
  | .portEnable path port data => Sys2Proof.Machine.execPortEnable path port data s
  | .reservePerPly path data => Sys2Proof.Machine.execReservePerPly path data s
  | .ringStateWrite path ring data => Sys2Proof.Machine.execRingStateWrite path ring data s
  | .sideshowHold path data => Sys2Proof.Machine.execSideshowHold path data s
  | .sideshowHoldExpiry => Sys2Proof.Machine.execSideshowHoldExpiry s
  | .errStatus site v => Sys2Proof.Machine.execErrStatus site v s
  | .corrCount site => Sys2Proof.Machine.execCorrCount site s
  | .discardCount site => Sys2Proof.Machine.execDiscardCount site s
  | .poisonCount site => Sys2Proof.Machine.execPoisonCount site s
  | .crcErr field side => Sys2Proof.Machine.execCrcErr field side s
  | .nearChStatus field ch => Sys2Proof.Machine.execNearChStatus field ch s
  | .mwCount field => Sys2Proof.Machine.execMwCount field s
  | .poolStatus ring => Sys2Proof.Machine.execPoolStatus ring s
  | .fenceCount ring => Sys2Proof.Machine.execFenceCount ring s
  | .evqLost port => Sys2Proof.Machine.execEvqLost port s
  | .poolFlushQueue ring queue => Sys2Proof.Machine.execPoolFlushQueue ring queue s
  | .poolFlushAll ring => Sys2Proof.Machine.execPoolFlushAll ring s
  | .registerWrite t data => Sys2Proof.Machine.execRegisterWrite t data s
  | .mma site slot v => Sys2Proof.Machine.execMma site slot v s
  | .mmaT site slot v => Sys2Proof.Machine.execMmaT site slot v s
  | .mmaX site slot v => Sys2Proof.Machine.execMmaX site slot v s
  | .sfu site slot v => Sys2Proof.Machine.execSfu site slot v s
  | .rand site slot v => Sys2Proof.Machine.execRand site slot v s
  | .red site slot v => Sys2Proof.Machine.execRed site slot v s
  | .smax site slot v => Sys2Proof.Machine.execSmax site slot v s
  | .castConvert site slot v => Sys2Proof.Machine.execCastConvert site slot v s
  | .castSlice site slot v => Sys2Proof.Machine.execCastSlice site slot v s
  | .castFinalize site slot v => Sys2Proof.Machine.execCastFinalize site slot v s
  | .mov site slot v => Sys2Proof.Machine.execMov site slot v s
  | .drop site slot v => Sys2Proof.Machine.execDrop site slot v s
  | .send site slot v => Sys2Proof.Machine.execSend site slot v s
  | .recv site slot v => Sys2Proof.Machine.execRecv site slot v s
  | .steer site slot v => Sys2Proof.Machine.execSteer site slot v s
  | .steerClear site slot v => Sys2Proof.Machine.execSteerClear site slot v s
  | .ccount site slot v => Sys2Proof.Machine.execCcount site slot v s
  | .checkCsum site slot v => Sys2Proof.Machine.execCheckCsum site slot v s
  | .checkCmp site slot v => Sys2Proof.Machine.execCheckCmp site slot v s
  | .checkPoison site slot v => Sys2Proof.Machine.execCheckPoison site slot v s
  | .nop site slot v => Sys2Proof.Machine.execNop site slot v s
  | .dynamicVerbStart site cc => Sys2Proof.Machine.execDynamicVerbStart site cc s
  | .alu site w => Sys2Proof.Machine.execAlu site w s
  | .addi site w => Sys2Proof.Machine.execAddi site w s
  | .andi site w => Sys2Proof.Machine.execAndi site w s
  | .ori site w => Sys2Proof.Machine.execOri site w s
  | .xori site w => Sys2Proof.Machine.execXori site w s
  | .shli site w => Sys2Proof.Machine.execShli site w s
  | .shri site w => Sys2Proof.Machine.execShri site w s
  | .srai site w => Sys2Proof.Machine.execSrai site w s
  | .lui site w => Sys2Proof.Machine.execLui site w s
  | .cmp site w => Sys2Proof.Machine.execCmp site w s
  | .plog site w => Sys2Proof.Machine.execPlog site w s
  | .ld site w => Sys2Proof.Machine.execLd site w s
  | .st site w => Sys2Proof.Machine.execSt site w s
  | .narrowAccess site cc => Sys2Proof.Machine.execNarrowAccess site cc s
  | .br site w => Sys2Proof.Machine.execBr site w s
  | .jal site w => Sys2Proof.Machine.execJal site w s
  | .jr site w => Sys2Proof.Machine.execJr site w s
  | .scalarSend site w => Sys2Proof.Machine.execScalarSend site w s
  | .scalarRecv site w => Sys2Proof.Machine.execScalarRecv site w s
  | .qlen site w => Sys2Proof.Machine.execQlen site w s
  | .issue site w => Sys2Proof.Machine.execIssue site w s
  | .sbwait site w => Sys2Proof.Machine.execSbwait site w s
  | .rdreg site w => Sys2Proof.Machine.execRdreg site w s
  | .rdtime site w => Sys2Proof.Machine.execRdtime site w s
  | .trap site w => Sys2Proof.Machine.execTrap site w s
  | .endCore site w => Sys2Proof.Machine.execEndCore site w s
  | .meshWord site buf src w => Sys2Proof.Machine.execMeshWord site buf src w s
  | .steerMatch site a => Sys2Proof.Machine.execSteerMatch site a s
  | .packetRoute field inp p free => Sys2Proof.Machine.execPacketRoute field inp p free s
  | .desc field d => Sys2Proof.Machine.execDesc field d s
  | .descDelivery site ch => Sys2Proof.Machine.execDescDelivery site ch s
  | .wwrite ring d => Sys2Proof.Machine.execWwrite ring d s
  | .wread ring d => Sys2Proof.Machine.execWread ring d s
  | .fenceApply ring write => Sys2Proof.Machine.execFenceApply ring write s
  | .rdata ring d => Sys2Proof.Machine.execRdata ring d s
  | .mcast field d => Sys2Proof.Machine.execMcast field d s
  | .svc ring d => Sys2Proof.Machine.execSvc ring d s
  | .ack ring c => Sys2Proof.Machine.execAck ring c s
  | .nack ring c => Sys2Proof.Machine.execNack ring c s
  | .credit ring c => Sys2Proof.Machine.execCredit ring c s
  | .probe site c => Sys2Proof.Machine.execProbe site c s
  | .sendProbe site ch => Sys2Proof.Machine.execSendProbe site ch s
  | .abort ring c => Sys2Proof.Machine.execAbort ring c s
  | .release ring c => Sys2Proof.Machine.execRelease ring c s
  | .requestResend src seq => Sys2Proof.Machine.execRequestResend src seq s
  | .dmaDescriptor stack d => Sys2Proof.Machine.execDmaDescriptor stack d s
  | .dmaStart stack => Sys2Proof.Machine.execDmaStart stack s
  | .dmaCompletion stack => Sys2Proof.Machine.execDmaCompletion stack s
  | .collective ply d => Sys2Proof.Machine.execCollective ply d s
  | .collectiveBegin ply => Sys2Proof.Machine.execCollectiveBegin ply s
  | .collectiveCompletion ply collId => Sys2Proof.Machine.execCollectiveCompletion ply collId s
  | .portTrain port rep => Sys2Proof.Machine.execPortTrain port rep s
  | .hello port f => Sys2Proof.Machine.execHello port f s
  | .helloResend port => Sys2Proof.Machine.execHelloResend port s
  | .aspData port f => Sys2Proof.Machine.execAspData port f s
  | .aspCredit port f => Sys2Proof.Machine.execAspCredit port f s
  | .aspAck port f => Sys2Proof.Machine.execAspAck port f s
  | .nak port f => Sys2Proof.Machine.execNak port f s
  | .collStart port f => Sys2Proof.Machine.execCollStart port f s
  | .collData port f => Sys2Proof.Machine.execCollData port f s
  | .aspAbort port f => Sys2Proof.Machine.execAspAbort port f s
  | .aspRetryTimeout port => Sys2Proof.Machine.execAspRetryTimeout port s
  | .linkDown port => Sys2Proof.Machine.execLinkDown port s
  | .psuOkAssert rep => Sys2Proof.Machine.execPsuOkAssert rep s
  | .reservedVerb site slot v => Sys2Proof.Machine.execReservedVerb site slot v s
  | .illegalInstruction site w => Sys2Proof.Machine.execIllegalInstruction site w s
  | .invalidCommand port q e => Sys2Proof.Machine.execInvalidCommand port q e s
  | .protoErrFrame port f => Sys2Proof.Machine.execProtoErrFrame port f s
  | .frameCrcFailure port => Sys2Proof.Machine.execFrameCrcFailure port s

end Sys2Proof.Machine
end

