-- ==== Sys2Proof/Machine/Step.lean ====
section
/-! DEFINITION. The step: the command at the front of the queue runs. -/

namespace Sys2Proof.Machine
open Sys2Proof

/-- With nothing to do, one count of the uptime counter passes while the module is powered (R456; log entry 2), and what waits for
a restart of the Box Office to complete may go on (R409). -/
def idle (s : State) : State :=
  if s.pins.psuSeen then passTime s else s

def step (s : State) : Host.Outcome State Fault Refusal :=
  match s.pending with
  | [] => .next (idle s)
  | c :: rest => exec c { s with pending := rest }

/-- The command that a word spells, at the front of the queue. -/
def State.withFetchWord (s : State) (nbits w : Nat) : State :=
  match decodeTableWord nbits w with
  | some c => { s with pending := c :: s.pending }
  | none => s

end Sys2Proof.Machine
end

