-- ==== Sys2Proof/Safety.lean ====
section
/-! DEFINITION. What claims call safe: a step that answers a next state, and the canonical form of memory. -/

namespace Sys2Proof

/-- The outcome is a next state that has a property. -/
def NextWith (o : Host.Outcome Machine.State Machine.Fault Machine.Refusal) (p : Machine.State → Prop) : Prop :=
  ∃ t, o = .next t ∧ p t

/-- The module's memory and what it has written into host memory are in canonical form (R10). -/
def MemWf (s : Machine.State) : Prop := Machine.Memory.wf s.mem = true ∧ Machine.Memory.wf s.hostOut = true

end Sys2Proof
end

