-- ==== Sys2Proof/Certificates/Slice0/Obligations.lean ====
section
/-! DEFINITION. The statements for the provers, and the predicates they share. Every statement is about `exec` or `step`
for every state; rules are those of spec/. -/

namespace Sys2Proof

open Sys2Proof.Machine

/-- A bring-up that finds every shared part working (R444, R447). -/
def BootClean (rep : BootReport) : Prop :=
  rep.boxOk = true ∧ rep.tickOk = true ∧ rep.refOk = true ∧ rep.ringmastersFailed = []

/-- No tenancy holds a ring, and none runs. -/
def RingUnheld (s : State) (r : Nat) : Prop := ∀ p ∈ s.tens, p.2.rings.contains r = false ∧ p.2.run = none

/-- A command queue from which the module fetches (R353, R355). -/
def Fetches (s : State) (p : HPortId) (q : QId) : Prop :=
  (hq s p q).enable = true ∧ (hq s p q).error = false ∧ sqWaiting (hq s p q) = true ∧ (hq s p q).held = [] ∧
  boxRuns s = true

/-- The Box Office answers the path, and its granted level includes the first version (R400, R411). -/
def Answers (s : State) (path : Path) : Prop := pathServes s path = true ∧ 0x200 ≤ (pathOf s path).level

/-- The cc, from the last tick on, in which a verb with these bits issues that has waited `wait` cc (R106, R134). -/
def actCc (s : State) (i : Nat) (v : BitVec 128) (wait : Nat := 0) : Nat := issueCc s (tileOf s i) (stampOf v) wait

/-- The state in which it issues: entries released, verbs finished and writes seen by that cc are gone from its tile, and from
the other half of a pair (R107, R140, R151). -/
def atStamp (s : State) (i : Nat) (v : BitVec 128) (wait : Nat := 0) : State := pruneAt s i (actCc s i v wait)

/-- What is left of a verb in a slot: one that has waited there goes on behind the rows that it has moved. -/
def restOf (s : State) (i slot : Nat) (x : VInfo) : VInfo := x.rest (movedIn (tileOf s i) slot)

/-- The verb of a slot may issue: its tile runs, its ring has power and its clause is not held for a repair, it is no mirror
pair, and nothing in its bits or in the beat keeps it back, or where it waits there already its ports are free and no sideshow window
holds it. -/
def Issuable (s : State) (i slot : Nat) (x : VInfo) (v : BitVec 128) (wait : Nat := 0) : Prop :=
  issues (tileOf s i) (waitsIn (tileOf s i) slot) = true ∧ halts s (siteRing i) = false ∧ mirrorOn s i = false ∧
  waitHeld s i slot (actCc s i v wait) = false ∧
  goTrap (atStamp s i v wait) i slot (restOf s i slot x) v (actCc s i v wait) = none

/-- The verb has issued, after a wait: it is counted and waits no more, the stamps of its tile go on from its own, its unit
is held for its occupancy and at least one cc, and its ports are claimed (R105, R106, R134, R150). -/
def Issued (s t : State) (i slot : Nat) (x : VInfo) (v : BitVec 128) (wait : Nat := 0) : Prop :=
  (tileOf t i).eng.issued = (tileOf s i).eng.issued + 1 ∧ waitsIn (tileOf t i) slot = false ∧
  (tileOf t i).eng.lastStamp = max (tileOf s i).eng.lastStamp (stampOf v) ∧
  (x.unit ≠ .none → unitTo (tileOf t i).eng x.unit = actCc s i v wait + max 1 x.occ) ∧
  (tileOf t i).eng.doneBy = max (tileOf s i).eng.doneBy (actCc s i v wait + x.comp) ∧
  (tileOf t i).eng.ports = (tileOf s i).eng.ports ++ (restOf s i slot x).claims.map (PortUse.from (actCc s i v wait))

/-- Every earlier write to these rows is seen before cc (R151). -/
def Settled (s : State) (i cc row n : Nat) : Prop :=
  ∀ o ∈ (tileOf s i).oldRows, cc ≤ o.w → o.row < row ∨ row + n ≤ o.row

/-- Rows of a scratchpad hold these bytes, and no other byte of memory has changed. -/
def RowsHold (s t : State) (i row : Nat) (rs : List (List Byte × List Nat)) : Prop :=
  (∀ k r, rs[k]? = some r → memRead t (spmAddr i ((row + k) * rowBytes)) rowBytes = padTo 0 rowBytes r.1) ∧
  ∀ a, (a < spmAddr i (row * rowBytes) ∨ spmAddr i ((row + rs.length) * rowBytes) ≤ a) → memByte t a = memByte s a

/-- Rows are not the carry copy that the beat only reads (R62). -/
def CarryFree (s : State) (i row n : Nat) : Prop := ∀ k < n, carryBroken (tileOf s i) (row + k) 1 = false

/-- Rows without an error, a rehearsed one or poison, and without an earlier write that is not seen by cc. -/
def CleanRows (s : State) (i cc : Nat) (rs : List (Nat × Nat)) : Prop :=
  ∀ r ∈ rs, Settled s i cc r.1 r.2 ∧ ∀ k < r.2, poisonWords s i (r.1 + k) = [] ∧ corrWords s i (r.1 + k) = 0

/-- Outside memory, only the tile's engine, scratchpad bookkeeping and counters may have changed, and the Box Office's
bookkeeping; entries released, verbs finished and writes seen by its cc are gone. -/
def VerbFrame (s t : State) (i : Nat) (v : BitVec 128) (wait : Nat := 0) : Prop :=
  t = { s with tiles := t.tiles, mem := t.mem, poison := t.poison, latent := t.latent, box := t.box } ∧
  (∀ j, j ≠ i → tileOf t j = tileOf (atStamp s i v wait) j) ∧
  tileOf t i = { boardPrune (tileOf s i) (actCc s i v wait) with
    eng := (tileOf t i).eng, spm := (tileOf t i).spm, oldRows := (tileOf t i).oldRows, corr := (tileOf t i).corr
    poisonCnt := (tileOf t i).poisonCnt }

/-- What a verb at its stamp does, or one that has waited `wait` cc (R74, R76, R106, R109, R140, R150, R317): nothing on a tile that
issues none or whose sideshow window holds the wait, a trap where its bits or the beat forbid it, else its effect with its writes, its trap or its wait. In a mirror pair the
flyer's verb runs on both halves, whose writes are compared; they end, wait or trap together. -/
def VerbRuns (o : Host.Outcome State Fault Refusal) (x : VInfo) (eff : State → Nat → BitVec 128 → Nat → VRes)
    (s : State) (i slot : Nat) (v : BitVec 128) (wait : Nat := 0) : Prop :=
  let p := atStamp s i v wait
  let y := restOf s i slot x
  let cc := actCc s i v wait
  let at_ := writeAt (tileOf p i) y cc 0
  let ends (u : State) : State :=
    holdPair (modTile u i fun t => holdUnit (endWait t slot) y slot (stampOf v) cc) i y slot (stampOf v) cc
  let traps (c : Nat) : Prop := o = .next (trapTile p i c (.slot slot))
  let waits (u : State) (m : Nat) (w : WaitRec) : Prop := o = .next (beginWait u i slot x.unit (stampOf v) m w)
  let mute := issues (tileOf s i) (waitsIn (tileOf s i) slot) = false ∨ halts s (siteRing i) = true ∨
    (mirrorOn s i = true ∧ (tileOf s i).role = 2) ∨ waitHeld s i slot cc = true
  (mute → o = .next s) ∧
  (¬ mute → ∀ c, goTrap p i slot y v cc = some c → traps c) ∧
  (¬ mute → goTrap p i slot y v cc = none →
    (∀ c, eff p i v cc = .trap c → traps c) ∧
    (mirrorOn p i = true → (tileOf p i).role = 1 →
      (∀ s₁ wi s₂ wj, eff p i v cc = .done s₁ wi → eff s₁ (i + 9) v cc = .done s₂ wj →
        (carryHit p (wi ++ wj) = true → traps trCarry) ∧
        (carryHit p (wi ++ wj) = false → o = .next (ends (mirrorWrites at_ s₂ i wi wj)))) ∧
      (∀ s₁ wi m w s₂ wj m₂ w₂, eff p i v cc = .wait s₁ wi m w → eff s₁ (i + 9) v cc = .wait s₂ wj m₂ w₂ →
        waits (mirrorWrites at_ s₂ i wi wj) m w) ∧
      (∀ s₁ wi s₂ wj m w, eff p i v cc = .done s₁ wi → eff s₁ (i + 9) v cc = .wait s₂ wj m w → waits p 0 w) ∧
      (∀ s₁ wi m w s₂ wj, eff p i v cc = .wait s₁ wi m w → eff s₁ (i + 9) v cc = .done s₂ wj → waits p 0 w) ∧
      (∀ s₁ wi c, eff p i v cc = .done s₁ wi → eff s₁ (i + 9) v cc = .trap c → traps c) ∧
      (∀ s₁ wi m w c, eff p i v cc = .wait s₁ wi m w → eff s₁ (i + 9) v cc = .trap c → traps c)) ∧
    (mirrorOn p i = false ∨ (tileOf p i).role ≠ 1 →
      (∀ u ws m w, eff p i v cc = .wait u ws m w → waits (applyWrs at_ u i 0 ws) m w) ∧
      (∀ u ws, eff p i v cc = .done u ws →
        (carryHit p ws = true → traps trCarry) ∧
        (carryHit p ws = false → o = .next (ends (applyWrs at_ u i 0 ws))))))

/-- The scalar core executes the instruction: it runs, its ring has power and no repair, it is not held in a sideshow window,
its pc lies in the instruction memory and the guard holds. -/
def Executes (s : State) (i : Nat) (w : BitVec 32) : Prop :=
  coreRuns (tileOf s i) = true ∧ halts s (siteRing i) = false ∧ coreHeld s i (beatCc s) = false ∧
  (tileOf s i).badParity.contains (2 ^ 16 + (tileOf s i).core.pc) = false ∧ (tileOf s i).core.pc < 16384 ∧
  guardOk (tileOf s i) w = true

/-- Nothing but one tile's scalar core has changed. -/
def CoreFrame (s t : State) (i : Nat) : Prop :=
  t = { s with tiles := t.tiles } ∧ (∀ j, j ≠ i → tileOf t j = tileOf s j) ∧
  tileOf t i = { tileOf s i with core := (tileOf t i).core }

/-- The core has written one register, g0 discarding it, and gone on to the next instruction; nothing else has changed. -/
def WritesG (s t : State) (i r : Nat) (x : BitVec 64) : Prop :=
  CoreFrame s t i ∧ (tileOf t i).core.pc = (tileOf s i).core.pc + 1 ∧
  (tileOf t i).core.pred = (tileOf s i).core.pred ∧ (tileOf t i).core.ended = (tileOf s i).core.ended ∧
  ∀ k, gReg (tileOf t i) k = if k = r ∧ r ≠ 0 then x else gReg (tileOf s i) k

/-- The packet that waits at an input of a router, whatever its CRC did on the way in. -/
def IsAt (f : FieldId) (inp : RPort) (p : Packet) (x : Flight) : Bool :=
  x.field = (f : Nat) && x.inp = inp && decide ({ x.p with crcDead := p.crcDead, crcResent := p.crcResent } = p)

/-- The next request of its source, and no request that waits in the pool has its turn after it (R256). -/
def TakesTurn (s : State) (r : Nat) (d : DataMsg) : Prop :=
  seqPos s r d = .next ∧
  ∀ q, q = 386 ∨ q = 388 ∨ q = 390 → ∀ e ∈ queueOf (ringOf s r) q, seqPos (takeSeq s r d) r e ≠ .next

/-- The packet's place in the pool that its ejection kept is free again. -/
def Entered (s : State) (r : Nat) (d : DataMsg) : State :=
  setRing s r { ringOf s r with ejected := eraseIdx1 (ringOf s r).ejected fun p => decide (p.2 = d) }

/-- The ring has power, and the packet has its place in the pool from its ejection, or there is room for it (R23, R255). -/
def MayEnter (s : State) (r q : Nat) (d : DataMsg) : Prop :=
  dark s r = false ∧ ((ringOf s r).ejected.any (fun p => p.2 = d) = true ∨ poolFits s r q d = true)

/-- A window request's head is in order: the ring's tenancy, its generation and, from a tile, its epoch; and it may be
admitted (R256, R266). -/
def FenceOpen (s : State) (r n : Nat) (d : DataMsg) : Prop :=
  ringTen s r = some n ∧ d.ten.toNat = n ∧ d.ngen = (tenOf s n).gen ∧ (epNo d.src < 72 → d.epoch = (tenOf s n).epoch) ∧
  TakesTurn s r d ∧ admits (Entered s r d) r n d = true

/-- The generations of a reply of tenancy `n` agree with its destination's (R268); `lo` is their place in ARG. -/
def Agrees (s : State) (c : CtlMsg) (n : Option Nat) (lo : Nat) : Prop :=
  gensNow s c.dst n (fld c.arg lo 8) (fld c.arg (lo + 8) 8) (fld c.arg (lo + 16) 8) = true

/-- The completion descriptor of a far-DMA descriptor goes to the channel that it names, with its tag and status (R232). -/
def Reported (s t : State) (st : StackId) (n : Nat) (j : DmaJob) (ok : Nat → Prop) : Prop :=
  ∀ i, j.msg.epoch = (tenOf s n).epoch →
    vSite s n (fld j.desc 313 6) (fld j.desc 310 3) (fld j.desc 304 6) = some i →
    ∃ q ∈ reqsOf t (trunkEp st), q.msg.dtype = .desc ∧ q.msg.dst = epAddr (siteField i) (siteNo i) ∧
      q.msg.rch = fld j.desc 319 5 ∧ fld q.msg.tspec 128 48 = fld j.desc 256 48 ∧ ok (fld q.msg.tspec 176 16)

/-- The engine's queue takes a descriptor: its ejection has kept a place for it, or the pool has room (R255). -/
def engineRoom (s : State) (st : StackId) (d : DataMsg) : Bool :=
  (ringOf s (stackRing st)).ejected.any (fun p => p.2 = d) || poolFits s (stackRing st) (384 + stackTrunk st) d

end Sys2Proof

open Sys2Proof
open Sys2Proof.Machine

/-- Every step takes the command at the front of the queue and runs it on the state with the queue's rest; on an empty queue
10 ns of uptime pass while the module is powered, which is the model's choice (log entry 2), and unless a mailbox request waits for
the end of a restart of the Box Office (R409) nothing else changes. -/
def Obligations.StepRunsTheFrontCommandOrIdles : Prop :=
  (∀ (s : State) (c : Instr) (rest : List Instr), s.pending = c :: rest → step s = exec c { s with pending := rest }) ∧
  (∀ s : State, s.pending = [] → s.pins.psuSeen = true →
    (boxPaused { s with time := { s.time with uptime := s.time.uptime + 10 } } = true ∨
      ∀ p : HPortId, (hportOf s p).mbBusy = false) →
    step s = .next { s with time := { s.time with uptime := s.time.uptime + 10 } }) ∧
  ∀ s : State, s.pending = [] → s.pins.psuSeen = false → step s = .next s

/-- No command puts another command into the queue or takes one out, and none changes the factory identity (R25, R413): both
are as they were in every next state. -/
def Obligations.CommandsKeepTheQueueAndTheIdentity : Prop :=
  ∀ (c : Instr) (s t : State), exec c s = .next t → t.pending = s.pending ∧ t.fused = s.fused

/-- Every step keeps memory in canonical form: from any state whose module memory and host memory list strictly rising
addresses and no zero byte, every next state is such a state. -/
def Obligations.StepsKeepMemoryCanonical : Prop :=
  ∀ s t : State, MemWf s → step s = .next t → MemWf t

/-- Memory is canonical right after reset, and the queue is empty. -/
def Obligations.ResetMemoryIsCanonical : Prop := MemWf State.reset ∧ State.reset.pending = []

/-- Dictionary entries at power-on (R25, R172, R260, R295, R306, R320, R321, R333, R371, R395, R413 to R415): each has the
Default of its table. -/
def Obligations.ResetEntriesHaveTheirDefaults : Prop :=
  ∀ e ∈ [(0x1015, 0, 10, 2), (0x1017, 0, 1000, 2), (0x2000, 0, 0x20, 1), (0x2040, 1, 2000, 4), (0x2040, 2, 8, 1),
      (0x2050, 0, 1, 1), (0x2060, 1, 0x3F, 1), (0x2061, 3, 0, 1), (0x3001, 0, 0x00030201, 4),
      (0x4006, 0, 0, 4), (0x4009, 1, 15, 2), (0x4101, 2, 1000, 4), (0x4101, 10, 0, 1), (0x5000, 1, 0, 1),
      (0x6002, 0, 10, 2), (0x610A, 0, 4, 1), (0x610B, 0, 8, 1), (0x610C, 0, 24920, 2), (0x6113, 0, 0, 4)],
    dictRead State.reset (.host 0) e.1 e.2.1 = .ok (leBytes e.2.2.2 e.2.2.1)

/-- Dictionary indexes 0x8000 to 0x9FFF are reserved (R8): an access to one, over either path, in either direction and
by any command, is aborted as an object that does not exist, and changes nothing but the answer. -/
def Obligations.ReservedIndexesDoNotExist : Prop :=
  ∀ (s : State) (i : BitVec 16) (sub : BitVec 8), 0x8000 ≤ i.toNat → i.toNat ≤ 0x9FFF →
    (canServes s = true → ∀ data : List Byte,
      exec (.usdoRead i sub) s = .next { s with can := { s.can with tx := s.can.tx ++ [.sdo 0x06020000 []] } } ∧
      exec (.usdoWrite i sub data) s = .next { s with can := { s.can with tx := s.can.tx ++ [.sdo 0x06020000 []] } }) ∧
    (∀ data : List Byte, exec (.registerWrite (.entry .can i sub) data) s = exec (.usdoWrite i sub data) s ∧
      ∀ p : HPortId, exec (.registerWrite (.entry (.host p) i sub) data) s = exec (.mailboxWrite p i sub data) s) ∧
    ∀ (p : HPortId) (off : BitVec 16) (data : List Byte), pathServes s (.host p) = true →
      NextWith (exec (.mailboxRead p i sub off) s) (fun t => t = { s with hports := t.hports } ∧
        (hportOf t p).mbAbort = 0x06020000 ∧ (hportOf t p).path = (hportOf s p).path) ∧
      NextWith (exec (.mailboxWrite p i sub data) s) (fun t => t = { s with hports := t.hports } ∧
        (hportOf t p).mbAbort = 0x06020000 ∧ (hportOf t p).path = (hportOf s p).path)

/-- THROTTLE_N (R431, R471): the assertion takes the fast step and both shed limits; a calm deassertion leaves the
demand and starts the restoring, a quick one is chatter; the demand ends after 100 ms of quiet, and one that lasts
longer than 60 s is recorded once. -/
def Obligations.ThrottleInputAssertsRestoresAndReleases : Prop :=
  ∀ s : State,
    (s.pins.throttle = false → s.pins.psuSeen = true → s.pwr.chatter = false →
      NextWith (exec .throttleAssert s) fun t =>
        t.pins.throttle = true ∧ t.pwr.throttleDemand = true ∧ t.pwr.farSteps = 6 ∧ t.pwr.lanesShed = true ∧
        t.pwr.throttleAt = s.time.uptime ∧ t.time.cclkMhz ≤ s.time.cclkMhz ∧ t.time.cclkMhz ≤ lowClk s ∧
        t = { s with pins := t.pins, pwr := t.pwr, time := { s.time with cclkMhz := t.time.cclkMhz } }) ∧
    (s.pins.throttle = true →
      NextWith (exec .throttleDeassert s) fun t =>
        t.pins.throttle = false ∧ t.pwr.lastDeassert = some s.time.uptime ∧
        t.pwr.throttleDemand = s.pwr.throttleDemand ∧ t.time = s.time ∧
        (s.pwr.chatter = false → ∀ u, s.pwr.lastDeassert = some u →
          t.pwr.chatter = decide (s.time.uptime < u + 100000)) ∧
        t = { s with pins := t.pins, pwr := t.pwr }) ∧
    (s.pwr.chatter = true → s.pwr.lastEdge + 1000000 ≤ s.time.uptime →
      NextWith (exec .chatterQuiet s) fun t =>
        t.pwr.chatter = false ∧ t.box.staging.length = s.box.staging.length + 1 ∧
        (t.box.staging.getLast?).map (·.code) = some 0x0904 ∧ t = { s with pwr := t.pwr, box := t.box }) ∧
    (s.pwr.throttleDemand = true → s.pins.throttle = false → s.pwr.chatter = false →
      s.pwr.lastEdge + 100000000 ≤ s.time.uptime → (∃ q, s.pwr.quietSince = some q ∧ q + 100000000 ≤ s.time.uptime) →
      exec .throttleRelease s = .next { s with pwr := { s.pwr with throttleDemand := false, causeEnd := some s.time.uptime } }) ∧
    ((s.pins.throttle = true ∨ s.pwr.chatter = true) → s.pwr.throttleDemand = true → s.pwr.throttleLongDone = false →
      s.pwr.throttleAt + 60000000000 < s.time.uptime →
      NextWith (exec .throttleLong s) fun t =>
        t.pwr.throttleLongDone = true ∧ (t.box.staging.getLast?).map (·.code) = some 0x0903 ∧
        t = { s with pwr := t.pwr, box := t.box })

/-- The power measurement (R421, R425 to R428, R432): a sample is taken at a multiple of 50 µs of uptime and shows on the input readings, one above 2,900 A sheds the
far rate and lowers the clock at once; the guard's demand ends after 100 ms below 2,700 A; the cap loop acts once in
200 µs and sheds the first class of SHED_ORDER that has a step left; the fortieth sample in a row above 1.03 × the cap
starts a breach of a fixed clock, and 100 ms at or below the cap without a thermal cause or THROTTLE_N end it. A busbar voltage beyond the absolute maximum, or
above the transient one for a third sample in a row, has no behaviour (R476): the model stops there and nowhere else. -/
def Obligations.PowerMeasurementAndCapLoopAct : Prop :=
  ∀ s : State,
    (∀ rep : SampleReport,
      (80000 < rep.busMv ∨ (66000 < rep.busMv ∧ 2 ≤ s.pwr.overVolt) →
        exec (.powerSample rep) s = .fault (.beyondAbsoluteMaximum rep.busMv)) ∧
      (rep.busMv ≤ 66000 ∨ (rep.busMv ≤ 80000 ∧ s.pwr.overVolt < 2) → ∃ t, exec (.powerSample rep) s = .next t)) ∧
    (∀ rep : SampleReport, s.pins.psuSeen = true → s.time.uptime % 50000 = 0 → rep.busMv ≤ 66000 →
      NextWith (exec (.powerSample rep) s) fun t =>
        t.pwr.inputMv = rep.busMv ∧ t.pwr.inputMa = rep.busMa ∧ t.pwr.overVolt = 0 ∧ t.pins = s.pins ∧
        (2900000 < rep.busMa → t.pwr.guardMhz.isSome = true ∧
          (t.box.staging.getLast?).map (·.code) = some 0x090A)) ∧
    (s.pwr.guardMhz.isSome = true → (∃ q, s.pwr.guardQuietSince = some q ∧ q + 100000000 ≤ s.time.uptime) →
      exec .guardClear s = .next { s with pwr := { s.pwr with guardMhz := none } }) ∧
    (s.pins.psuSeen = true → s.pwr.holdUp = false → (∀ u, s.pwr.lastAction = some u → u + 200000 ≤ s.time.uptime) →
      NextWith (exec .capLoopAction s) fun t =>
        t.pwr.lastAction = some s.time.uptime ∧ t.pwr.throttleRestore = false ∧
        (s.pwr.throttleRestore = false → s.pwr.samples ≠ [] → s.pwr.capW * 1000 < p200 s.pwr →
          ∀ c, (shedClasses s).find? (stepLeft s) = some c → t.pwr.shedOrder = c :: s.pwr.shedOrder) ∧
        t = { s with pwr := t.pwr, box := t.box }) ∧
    (s.pwr.fixedFreq = true → s.pwr.breach = false → 40 ≤ s.pwr.overCount → s.pwr.holdUp = false →
      NextWith (exec .repeatBreach s) fun t =>
        t.pwr.breach = true ∧ t.pwr.breaches = s.pwr.breaches + 1 ∧
        (t.box.staging.getLast?).map (·.code) = some 0x0902 ∧ t = { s with pwr := t.pwr, box := t.box }) ∧
    (s.pwr.breach = true → (∃ q, s.pwr.quietSince = some q ∧ q + 100000000 ≤ s.time.uptime) →
      s.pwr.thermal = false → s.pwr.throttleDemand = false → (∀ u, s.pwr.causeEnd = some u → u + 100000000 ≤ s.time.uptime) →
      NextWith (exec .breachEnd s) fun t => t.pwr.breach = false ∧ t.pwr.clockSteps = 0 ∧ t = { s with pwr := t.pwr })

/-- Heat and the ring supplies (R433 to R437): a reading at the threshold sets the thermal state, readings below the
release start its quiet time, whose end releases it; THERMTRIP takes a ply and its ring groups off; a lost phase is kept, and
a group that loses too many, latches off or whose e-fuse opens stays off. Each of these commands completes in every state. -/
def Obligations.HeatAndSupplyFaultsAct : Prop :=
  ∀ s : State,
    (∀ rs : List SensorReading, (∃ r ∈ rs, (if r.dram then 950 else 1050) ≤ r.tenthC) →
      NextWith (exec (.sensorRead rs) s) fun t => t.pwr.thermal = true) ∧
    (∀ rs : List SensorReading, (∀ r ∈ rs, r.tenthC < if r.dram then 900 else 1000) →
      NextWith (exec (.sensorRead rs) s) fun t =>
        t.pwr.thermalCoolSince.isSome = true ∧ t.pwr.thermal = s.pwr.thermal) ∧
    (s.pwr.thermal = true → (∃ q, s.pwr.thermalCoolSince = some q ∧ q + 100000000 ≤ s.time.uptime) →
      exec .thermalCauseEnd s =
        .next { s with pwr := { s.pwr with thermal := false, thermalMhz := none, causeEnd := some s.time.uptime } }) ∧
    (∀ (ply : PlyId) (c : Nat), (plyOf s ply).tripped = false → 1150 ≤ c →
      NextWith (exec (.thermtrip ply c) s) fun t =>
        (plyOf t ply).tripped = true ∧ t.pins.thermtrip = true ∧
        (∀ k : Fin 16, (ringOf t ((ply : Nat) * 16 + k)).supply ≠ 0) ∧
        (t.box.staging.getLast?).map (·.code) = some 0x0906 ∧
        t = { s with plies := t.plies, rings := t.rings, pins := t.pins, box := t.box }) ∧
    (∀ (ring : RingId) (phase : Fin 24), (ringOf s ring).supply = 0 →
      (ringOf s ring).vcoreLost.contains (phase : Nat) = false →
      NextWith (exec (.phaseLost ring false phase) s) fun t =>
        (ringOf t ring).vcoreLost = NSet.add (ringOf s ring).vcoreLost phase ∧
        (20 > 23 - (ringOf s ring).vcoreLost.length → (ringOf t ring).supply = 2)) ∧
    (∀ (ring : RingId) (phase : Fin 24), (ringOf s ring).supply = 0 → (phase : Nat) < 4 →
      (ringOf s ring).vdramLost.contains (phase : Nat) = false →
      NextWith (exec (.phaseLost ring true phase) s) fun t =>
        (ringOf t ring).vdramLost = NSet.add (ringOf s ring).vdramLost phase) ∧
    (∀ ring : RingId, (ringOf s ring).supply = 0 →
      NextWith (exec (.regLatchoff ring) s) (fun t => (ringOf t ring).supply = 2 ∧
        (ringOf t ring).itemFail = some s.time.poweredS) ∧
      NextWith (exec (.efuseOpen ring) s) (fun t => (ringOf t ring).supply = 3 ∧
        (ringOf t ring).itemFail = some s.time.poweredS)) ∧
    (∀ ring : RingId, (ringOf s ring).supply ≠ 0 → exec (.regLatchoff ring) s = .next s ∧
      exec (.efuseOpen ring) s = .next s ∧
      ∀ (vdram : Bool) (phase : Fin 24), exec (.phaseLost ring vdram phase) s = .next s) ∧
    (∀ rs : List SensorReading, ∃ t, exec (.sensorRead rs) s = .next t) ∧
    (∃ t, exec .thermalCauseEnd s = .next t) ∧
    (∀ (ply : PlyId) (c : Nat), ∃ t, exec (.thermtrip ply c) s = .next t) ∧
    (∀ (ring : RingId) (vdram : Bool) (phase : Fin 24), ∃ t, exec (.phaseLost ring vdram phase) s = .next t) ∧
    (∀ ring : RingId, (∃ t, exec (.regLatchoff ring) s = .next t) ∧ ∃ t, exec (.efuseOpen ring) s = .next t)

/-- Canaries, optical lanes and powered time (R319, R320, R457): a canary run keeps both margins and counts, a lane's
alarm bit follows its last reading, powered seconds count while the module is powered and are stored while the Box
Office runs. -/
def Obligations.MarginsLanesAndPoweredTimeCount : Prop :=
  ∀ s : State,
    (∀ (ring : RingId) (rep : CanaryReport), s.box.heldFrom = none → (ringOf s ring).supply = 0 →
      NextWith (exec (.canaryRun ring rep) s) fun t =>
        (ringOf t ring).timingPs = rep.timingPs ∧ (ringOf t ring).voltMv = rep.voltMv ∧
        t.box.canaryRuns = s.box.canaryRuns + 1 ∧
        (rep.failed.isSome = true → (ringOf t ring).deepBeats = 54)) ∧
    (∀ (ls : List LaneReading) (l : LaneReading),
      NextWith (exec (.opticalSample (ls ++ [l])) s) fun t =>
        (sportOf t l.port).laneAlarm.getLsbD l.lane =
          (decide (l.centiDbm < s.box.set.optAlarm) || realGt l.ber s.box.set.berAlarm)) ∧
    (s.pins.psuSeen = true →
      exec .poweredSecond s = .next { s with time := { s.time with poweredS := s.time.poweredS + 1 } }) ∧
    (s.pins.psuSeen = true → boxRuns s = true →
      exec .poweredCountStore s = .next { s with time := { s.time with poweredStored := s.time.poweredS } })

/-- Power-on, resets and the loss of power (R439, R443, R444, R450, R451, R463, R471, R473): what each does to the pins
and to the Box Office's state, what is lost and what flash keeps. -/
def Obligations.PowerOnAndResetsAct : Prop :=
  ∀ s : State,
    (∀ (straps : BitVec 7) (rep : BootReport), s.pins.psuSeen = false → s.pins.modReset = false → BootClean rep →
      NextWith (exec (.powerOn straps rep) s) fun t => t.box.state = .ready ∧ t.pins.ready = .high) ∧
    (∀ (straps : BitVec 7) (rep : BootReport), s.pins.psuSeen = false → s.pins.modReset = true →
      NextWith (exec (.powerOn straps rep) s) fun t => t.box.state = .inReset ∧ t.pins.psuOk = true ∧
        t.pins.psuSeen = true ∧ t.pins.straps = straps ∧ t.pins.nodeId = straps ∧ t.tiles = [] ∧ t.tens = [] ∧
        t.mem = [] ∧ t.time.uptime = 0 ∧ t.box.log = s.box.log ∧ t.box.fieldMap = s.box.fieldMap) ∧
    (s.pins.psuSeen = true → s.pins.modReset = false →
      NextWith (exec .wholeModuleReset s) fun t => t.pins.modReset = true ∧ t.box.state = .inReset ∧
        t.pins.ready = .released ∧ t.tiles = [] ∧ t.tens = [] ∧ t.mem = [] ∧ t.time.uptime = s.time.uptime ∧
        t.time.poweredS = s.time.poweredS ∧ t.box.log = s.box.log ∧ t.box.fieldMap = s.box.fieldMap) ∧
    (∀ (straps : BitVec 7) (rep : BootReport), s.pins.psuSeen = true → s.pins.modReset = true →
      s.pins.psuOk = false →
      NextWith (exec (.modResetDeassert straps rep) s) fun t => t.pins.modReset = false ∧ t.pins.straps = straps ∧
        t.pins.nodeId = straps ∧ t.box.state = .waitPsu ∧ t = { s with pins := t.pins, box := t.box }) ∧
    (∀ (straps : BitVec 7) (rep : BootReport), s.pins.psuSeen = true → s.pins.modReset = true →
      s.pins.psuOk = true → BootClean rep →
      NextWith (exec (.modResetDeassert straps rep) s) fun t => t.box.state = .ready ∧ t.pins.ready = .high) ∧
    (∀ rep : BootReport, s.pins.psuSeen = true → s.pins.psuOk = false →
      NextWith (exec (.psuOkAssert rep) s) fun t =>
        (s.box.state ≠ .waitPsu → t = { s with pins := { s.pins with psuOk := true } }) ∧
        (s.box.state = .waitPsu → BootClean rep → t.box.state = .ready ∧ t.pins.ready = .high)) ∧
    NextWith (exec .unpowered s) (fun t => t.pins.psuOk = false ∧ t.pins.psuSeen = false ∧ t.pins.ready = .released ∧
      t.tiles = [] ∧ t.tens = [] ∧ t.mem = [] ∧ t.box.log = s.box.log ∧ t.fused = s.fused) ∧
    (∀ mv : Nat, s.pins.psuOk = true → s.pins.modReset = false → boxRuns s = true →
      NextWith (exec (.holdUpFlush mv) s) fun t => t.pins.psuOk = false ∧ t.pins.ready = .low ∧ t.box.state = .held ∧
        t.time.flushed = true ∧ t.time.poweredStored = s.time.poweredS ∧ t.box.pwrPending = false)

/-- The escalation ladder's clocks (R326, R330, R350, R452): a compute reset not over after 3 s counts as a failure and
starts again, the second within 10 s asks for a power cycle; a dead Ringmaster starts a compute reset; counts older
than 10 s are dropped. -/
def Obligations.EscalationLadderCounts : Prop :=
  ∀ s : State,
    (∀ u, s.box.resetStart = some u → s.box.state = .computeReset → s.box.pwrPending = false →
      u + 3000000000 ≤ s.time.uptime →
      NextWith (exec .computeResetTimeout s) fun t =>
        t.box.resetStart = some s.time.uptime ∧ t.box.resetFails.getLast? = some s.time.uptime ∧
        t.pins.pwrcycleReq = (s.pins.pwrcycleReq ||
          s.box.resetFails.any fun f => decide (s.time.uptime ≤ f + 10000000000))) ∧
    (∀ ply : PlyId, s.box.state = .ready → (plyOf s ply).rmOk = true → s.box.resetStart = none →
      NextWith (exec (.ringmasterFault ply) s) fun t => t.box.resetStart = some s.time.uptime) ∧
    NextWith (exec .escCountExpiry s) (fun t =>
      t.box.partFails = s.box.partFails.filter (fun f => decide (s.time.uptime ≤ f + 10000000000)) ∧
      t.box.resetFails = s.box.resetFails.filter (fun f => decide (s.time.uptime ≤ f + 10000000000)) ∧
      t.time = s.time ∧ t.tiles = s.tiles ∧ t.mem = s.mem)

/-- What patrol and lane repair leave (R184, R209, R212, R213, R214, R227, R228, R243): a retired lane waits for the tick, whose
move takes a spare on both sides; rows remapped, corrected
words healed, uncorrectable ones poisoned, pseudo-channels retrained or fenced. -/
def Obligations.PatrolAndLaneRepairAct : Prop :=
  ∀ s : State, s.pins.psuSeen = true →
    (∀ (f : FieldId) (sd : Side) (c : Fin 9) (l : Fin 32) (g : Nat), neighbour f sd = some g →
      ((c : Nat) < crossings sd → NextWith (exec (.laneRetire f sd c l false) s) fun t =>
        (Side.no sd * 9 + c) * 64 + l ∈ (fieldOf t f).laneDue ∧ (fieldOf t f).sparesUsed = (fieldOf s f).sparesUsed ∧
        t = { s with fields := t.fields }) ∧
      (NextWith (exec (.laneRetire f sd c l true) s) fun t =>
        Side.no sd * 64 + l ∈ (fieldOf t f).mwLaneDue ∧ (fieldOf t f).mwSpares = (fieldOf s f).mwSpares ∧
        t = { s with fields := t.fields }) ∧
      (SMap.get 0 (fieldOf s f).sparesUsed (Side.no sd * 9 + c) < 2 →
        SMap.get 0 (fieldOf (laneRetire s f sd c l false) g).sparesUsed (Side.no (Side.back sd) * 9 + c) =
          SMap.get 0 (fieldOf s f).sparesUsed (Side.no sd * 9 + c) + 1) ∧
      (SMap.get 0 (fieldOf s f).mwSpares (Side.no sd) < 2 →
        SMap.get 0 (fieldOf (laneRetire s f sd c l true) g).mwSpares (Side.no (Side.back sd)) =
          SMap.get 0 (fieldOf s f).mwSpares (Side.no sd) + 1)) ∧
    (∀ (f : FieldId) (c : Fin 32) (g : Fin 36) (l : Fin 32),
      (dark s (fieldRing f) = true → exec (.tsvLaneRetire f c g l) s = .next s) ∧
      (dark s (fieldRing f) = false → NextWith (exec (.tsvLaneRetire f c g l) s) fun t =>
        (g : Nat) * 32 + l ∈ (nearCh (fieldOf t f) c).laneDue ∧
        (nearCh (fieldOf t f) c).lanes = (nearCh (fieldOf s f) c).lanes ∧ t = { s with fields := t.fields }) ∧
      (SMap.get 0 (nearCh (fieldOf s f) c).lanes g < 2 →
        SMap.get 0 (nearCh (fieldOf (moveTsvLane s f c ((g : Nat) * 32 + l)) f) c).lanes g =
          SMap.get 0 (nearCh (fieldOf s f) c).lanes g + 1) ∧
      (2 ≤ SMap.get 0 (nearCh (fieldOf s f) c).lanes g →
        (nearCh (fieldOf (moveTsvLane s f c ((g : Nat) * 32 + l)) f) c).failed = true)) ∧
    (∀ (f : FieldId) (c : Fin 32) (h : Fin 2) (b : Fin 32) (r : Fin 16384), dark s (fieldRing f) = false →
      let x := nearCh (fieldOf s f) c
      let key := ((h : Nat) * 32 + b) * 16384 + r
      (x.slots % 2 = h → key ∈ x.rowDue → SMap.get 0 x.rows ((h : Nat) * 32 + b) < 64 →
        NextWith (exec (.rowRemap f c h b r) s) fun t =>
          SMap.get 0 (nearCh (fieldOf t f) c).rows ((h : Nat) * 32 + b) = SMap.get 0 x.rows ((h : Nat) * 32 + b) + 1 ∧
          key ∉ (nearCh (fieldOf t f) c).rowDue ∧ t.mem = s.mem ∧ t.tiles = s.tiles) ∧
      (x.slots % 2 ≠ h ∨ key ∉ x.rowDue → exec (.rowRemap f c h b r) s = .next s)) ∧
    (∀ (f : FieldId) (c : Fin 32) (off : Nat), dark s (fieldRing f) = false → (nearCh (fieldOf s f) c).failed = false →
      (∀ k ∈ (nearCh (fieldOf s f) c).rowDue, k / 524288 ≠ (nearCh (fieldOf s f) c).slots % 2) →
      dramKey off ∈ patrolRows (nearCh (fieldOf s f) c).slots →
      NextWith (exec (.nearPatrol f c [.corrected off]) s) (fun t =>
        (nearCh (fieldOf t f) c).corr = sat 16 ((nearCh (fieldOf s f) c).corr + 1) ∧ t.mem = s.mem ∧
        (nearCh (fieldOf t f) c).slots = ((nearCh (fieldOf s f) c).slots + 1) % 131072 ∧
        t.poison = s.poison ∧ latentAt t (nearAddr f c (off % 2 ^ 31) / 64 * 8) = none) ∧
      NextWith (exec (.nearPatrol f c [.uncorrectable off]) s) (fun t =>
        (nearCh (fieldOf t f) c).uncorr = sat 8 ((nearCh (fieldOf s f) c).uncorr + 1) ∧ t.mem = s.mem ∧
        codewordPoisoned t (nearAddr f c (off % 2 ^ 31)) = true)) ∧
    (∀ (st : StackId) (o : Nat), (stackOf s st).written.contains (fldN o 21 18) = true →
      NextWith (exec (.farPatrol st [.uncorrectable o]) s) (fun t =>
        (stackOf t st).uncorr = sat 32 ((stackOf s st).uncorr + 1) ∧ t.mem = s.mem ∧
        codewordPoisoned t (farAddr st (o % 2 ^ 39)) = true)) ∧
    (∀ (st : StackId) (o : Nat), (stackOf s st).written.contains (fldN o 21 18) = false →
      exec (.farPatrol st [.uncorrectable o]) s = .next s) ∧
    (∀ (st : StackId) (pc : Fin 32), (stackOf s st).fenced.contains (pc : Nat) = false →
      NextWith (exec (.pcRetrain st pc) s) fun t => (pc : Nat) ∈ (stackOf t st).retraining ∧
        t = { s with farStacks := t.farStacks }) ∧
    (∀ (st : StackId) (pc : Fin 32), (stackOf s st).retraining.contains (pc : Nat) = true →
      NextWith (exec (.pcRetrainDone st pc true) s) (fun t => (pc : Nat) ∉ (stackOf t st).retraining ∧
        (stackOf t st).fenced = (stackOf s st).fenced ∧ t = { s with farStacks := t.farStacks }) ∧
      NextWith (exec (.pcRetrainDone st pc false) s) (fun t => (pc : Nat) ∉ (stackOf t st).retraining ∧
        (pc : Nat) ∈ (stackOf t st).fenced ∧ t.mem = s.mem))

/-- Reads of counters over the Module Address (R6, R61, R158, R169, R194, R185, R215): the value is latched and the
count is cleared; ERR_STATUS clears the bits that are written 1. A tile that may not be read, or whose ring is dark, answers
poison (R23). -/
def Obligations.CounterReadsReturnAndClear : Prop :=
  ∀ s : State,
    (∀ (i : SiteId) (v : BitVec 64), dark s (siteRing i) = false →
      exec (.errStatus i v) s =
        .next (setTile s i { tileOf s i with err := (tileOf s i).err &&& ~~~(v.truncate 9) })) ∧
    (∀ i : SiteId, dark s (siteRing i) = false → tileReadable (tileOf s i) = true →
      NextWith (exec (.corrCount i) s) (fun t => t.regOut = BitVec.ofNat 64 (tileReg s i 0x50) ∧ t.regPoison = false ∧
        (tileOf t i).corr = 0 ∧ t = { s with tiles := t.tiles, regOut := t.regOut, regPoison := t.regPoison }) ∧
      NextWith (exec (.discardCount i) s) (fun t => t.regOut = BitVec.ofNat 64 (tileReg s i 0x68) ∧
        t.regPoison = false ∧ (tileOf t i).discards = 0 ∧
        t = { s with tiles := t.tiles, regOut := t.regOut, regPoison := t.regPoison }) ∧
      NextWith (exec (.poisonCount i) s) (fun t => t.regOut = BitVec.ofNat 64 (tileReg s i 0x70) ∧
        t.regPoison = false ∧ (tileOf t i).poisonCnt = 0 ∧
        t = { s with tiles := t.tiles, regOut := t.regOut, regPoison := t.regPoison })) ∧
    (∀ i : SiteId, tileReadable (tileOf s i) = false ∨ dark s (siteRing i) = true →
      NextWith (exec (.corrCount i) s) fun t => t.regPoison = true ∧ t.tiles = s.tiles) ∧
    (∀ (f : FieldId) (sd : Side), dark s (fieldRing f) = false →
      NextWith (exec (.crcErr f sd) s) fun t => t.regOut = BitVec.ofNat 64 (seamReg s f sd) ∧ t.regPoison = false ∧
        SMap.get 0 (fieldOf t f).crcErr (Side.no sd) = 0 ∧
        t = { s with fields := t.fields, regOut := t.regOut, regPoison := t.regPoison }) ∧
    (∀ (f : FieldId) (c : Fin 32), dark s (fieldRing f) = false →
      NextWith (exec (.nearChStatus f c) s) fun t => t.regOut = BitVec.ofNat 64 (nearChReg (nearCh (fieldOf s f) c)) ∧
        t.regPoison = false ∧ (nearCh (fieldOf t f) c).corr = 0 ∧ (nearCh (fieldOf t f) c).uncorr = 0 ∧
        t = { s with fields := t.fields, regOut := t.regOut, regPoison := t.regPoison })

/-- Heartbeats, lost rings and rejoining (R297, R437, R453): a HEARTBEAT is noted; a ring without it at two ticks is
LOST; a ring whose controller comes back leaves its reset as RESERVE or DEGRADED, one whose controller is dead stays out. -/
def Obligations.RingsAreLostAndRejoin : Prop :=
  ∀ (s : State) (r : RingId),
    (∀ c : CtlMsg, c.ctype = .heartbeat → (ringOf s r).supply = 0 → (ringOf s r).ctlDead = false →
      withholds s r = false →
      exec (.heartbeat r c) s = .next { s with hbSeen := s.hbSeen ||| (1#64 <<< (r : Nat)) }) ∧
    (s.box.state = .ready → bit s.hbLost r = true → (ringOf s r).st ≠ .lost → (ringOf s r).st ≠ .resetting →
      withholds s r = false → RingUnheld s r →
      NextWith (exec (.ringLost r) s) fun t => (ringOf t r).st = .lost ∧ (ringOf t r).ejectOff = true ∧
        bit t.hbLost r = false ∧ t.mem = s.mem ∧ t.tiles = s.tiles) ∧
    (∀ rep : PartReport, (ringOf s r).st = .resetting → (ringOf s r).partStart.isSome = true →
      (ringOf s r).ctlDead = false → dark s r = false →
      NextWith (exec (.ringRejoin r rep) s) fun t =>
        (rep.ctlOk = false → (ringOf t r).ctlDead = true ∧ (ringOf t r).st = .resetting) ∧
        (rep.ctlOk = true → ((ringOf t r).st = .reserve ∨ (ringOf t r).st = .degraded) ∧
          (ringOf t r).ejectOff = false ∧ (ringOf t r).partStart = none ∧ bit t.hbMissed r = false ∧
          bit t.hbLost r = false))

/-- Sites and rings under test (R171, R276, R277, R318): a site without its tick is fenced and its failure kept, a
sideshow counts its known-answer runs and failures, a SUSPECT item is GOOD again after 720 powered hours. -/
def Obligations.SiteTestsAndSuspectsAct : Prop :=
  ∀ s : State,
    (∀ i : SiteId, s.box.state = .ready → dark s (siteRing i) = false → (tileOf s i).st ≠ .fenced → siteDead (siteMap s i).st = false →
      (∃ j ∈ ringSites (siteRing i), j ≠ (i : Nat) ∧ (tileOf s j).st ≠ .fenced ∧ siteDead (siteMap s j).st = false ∧
        ((ringOf s (siteRing i)).missedTick = s.time.ticks → (ringOf s (siteRing i)).missed.contains j = false)) →
      NextWith (exec (.tickMissing i) s) fun t => (tileOf t i).st = .fenced ∧
        (siteMap t i).lastFail = some s.time.poweredS ∧ t.mem = s.mem) ∧
    (∀ (r : RingId) (failed : List SiteId), s.box.state = .ready → s.box.heldFrom = none → (ringOf s r).supply = 0 →
      (ringOf s r).st ≠ .lost → (ringOf s r).st ≠ .resetting →
      NextWith (exec (.sideshowTest r failed []) s) fun t =>
        let sites := (turnSites s r).filter fun i => (siteMap s i).st ≠ .retired
        t.box.katRuns = s.box.katRuns + sites.length ∧
        t.box.katFails = s.box.katFails + (sites.filter fun i => failed.any fun j => (j : Nat) = i).length ∧
        t.mem = s.mem) ∧
    (∀ (i : SiteId) (l : Nat), (siteMap s i).st = .suspect → (siteMap s i).lastFail = some l →
      l + 720 * 3600 < s.time.poweredS →
      NextWith (exec (.suspectExpiry (.site i)) s) fun t => (siteMap t i).st = .good ∧ t.tiles = s.tiles ∧
        t.mem = s.mem) ∧
    (∀ (r : RingId) (l : Nat), (ringOf s r).item = .suspect → (ringOf s r).itemFail = some l →
      l + 720 * 3600 < s.time.poweredS →
      NextWith (exec (.suspectExpiry (.ring r)) s) fun t => (ringOf t r).item = .good ∧ t.tiles = s.tiles ∧
        t.mem = s.mem)

/-- Fault rehearsals (R321 to R325): an armed rehearsal fires once; where no clause recovers from it and its fault has acted, it
is over at a tick and counted (the model's choice, log entry 81); a dropped lane comes back after its second. -/
def Obligations.RehearsalFiresOnce : Prop :=
  ∀ s : State,
    (s.box.reh.status = 1 → s.box.state = .ready →
      NextWith (exec .rehearsalFire s) fun t => t.box.reh.status = 2 ∧ t.box.reh.count = s.box.reh.count ∧
        t.box.reh.firedAt = some s.time.uptime ∧ t.mem = s.mem ∧
        (∀ q, clauseAt s (rehRing s.box.reh) = some q →
          (tenOf t q.1).run.bind (·.rehearsedAt) = some s.time.uptime)) ∧
    (s.box.reh.status ≠ 1 ∨ s.box.state ≠ .ready → exec .rehearsalFire s = .next s) ∧
    (s.box.reh.status = 2 → s.box.reh.poisonNext = [] → s.box.reh.stall = none → s.box.reh.lossRing = none →
      (∀ p ∈ s.tens, p.2.run.bind (·.rehearsedAt) = none) →
      (rehearsalTick s).box.reh.status = 3 ∧ (rehearsalTick s).box.reh.count = s.box.reh.count + 1 ∧
      rehearsalTick s = { s with box := { s.box with reh := (rehearsalTick s).box.reh } }) ∧
    (∀ (u f k : Nat) (mw : Bool), s.box.reh.lane = some (u, f, k, mw) → u ≤ s.time.uptime →
      NextWith (exec .laneDropReturn s) fun t => t.box.reh.lane = none ∧ t.mem = s.mem ∧ t.tiles = s.tiles)

/-- Restores of the recovery levels (R289, R294, R297): a tile of a rebind beat is restored, a takeover goes on with one
rebind beat, a migrated far home is noted. -/
def Obligations.RecoveryRestoresComplete : Prop :=
  ∀ s : State,
    (∀ (i : SiteId) (n : Nat) (u : Run) (k : Nat), ringRun s (siteRing i) = some (n, u) → u.phase = .rebind k →
      (tileOf s i).restoring = true → servesRing s ((u.involved.map siteRing).headD (siteRing i)) 2 = true →
      (cfgOf (tenOf s n)).isSome = true →
      NextWith (exec (.tileRestore i) s) fun t => (tileOf t i).restoring = false) ∧
    (∀ (n : TenId) (u : Run) (vr b : Nat), (tenOf s n).run = some u → u.phase = .takeover vr b →
      (takeoverServed s u = true → NextWith (exec (.takeoverRestoreDone n) s) fun t =>
        ∃ v, (tenOf t n).run = some v ∧ v.phase = .rebind 1 ∧ v.resuming = true ∧ v.engineTry = false) ∧
      (takeoverServed s u = false → exec (.takeoverRestoreDone n) s = .next s)) ∧
    (∀ (n : TenId) (v : RingId) (y : Sentence) (r h : Nat), (tenOf s n).sentence = some y → y.bound[(v : Nat)]? = some r →
      y.farHome[(v : Nat)]? = some h → r ≠ h →
      NextWith (exec (.farHomeMigrationDone n v) s) fun t =>
        (tenOf t n).sentence = some { y with migrated := NSet.add y.migrated v } ∧ t = { s with tens := t.tens })

/-- Event records on their way (R345, R346, R347, R407, R472): the oldest staged record takes the next SEQ, goes to
flash in order, and raises ALERT_N where its class is in the mask. -/
def Obligations.EventRecordsAreAcceptedInOrder : Prop :=
  ∀ s : State, boxRuns s = true →
    (∀ (p : Fin 5) (r : EvRec) (rest : List EvRec), (p : Nat) < 4 → (plyOf s p).staging = r :: rest →
      NextWith (exec (.eventRecord p) s) fun t =>
        (plyOf t p).staging = rest ∧ t.box.nextSeq = (s.box.nextSeq + 1) % 2 ^ 32 ∧
        t.box.toFlash = s.box.toFlash ++ [{ r with seq := s.box.nextSeq }] ∧
        (fldN s.box.alertClasses r.cls 1 = 1 → t.pins.alert = true) ∧
        (fldN s.box.alertClasses r.cls 1 = 0 → t.pins.alert = s.pins.alert) ∧
        t.mem = s.mem ∧ t.tiles = s.tiles) ∧
    (∀ (r : EvRec) (rest : List EvRec), s.box.staging = r :: rest →
      NextWith (exec (.eventRecord 4) s) fun t =>
        t.box.nextSeq = (s.box.nextSeq + 1) % 2 ^ 32 ∧
        t.box.toFlash = s.box.toFlash ++ [{ r with seq := s.box.nextSeq }] ∧ t.mem = s.mem ∧ t.tiles = s.tiles) ∧
    (∀ (r : EvRec) (rest : List EvRec), s.box.toFlash = r :: rest →
      NextWith (exec .logFlashWrite s) fun t =>
        t.box.toFlash = rest ∧ (freeSlot s.box 4096 s.box.nextSlot, (⟨r, decide (4 ≤ r.cls) &&
          decide (pinnedCount s.box < 1024)⟩ : LogRec)) ∈ t.box.log ∧
        t.box.nextSlot = (freeSlot s.box 4096 s.box.nextSlot + 1) % 4096 ∧ t = { s with box := t.box }) ∧
    NextWith (exec .boxOfficeRestart s) (fun t =>
      t.box.restarts = s.box.restarts + 1 ∧ t.box.lastRestart = s.time.uptime ∧
      (t.box.staging.getLast?).map (·.code) = some 0x0C05 ∧ t = { s with can := t.can, box := t.box })

/-- The CAN node (R404 to R408, R413): NMT commands move a node that hears the bus, heartbeats in their period and emergency
messages leave in order, bus off silences it, a segmented transfer that stops is given up after its time. -/
def Obligations.CanNodeFollowsItsCommands : Prop :=
  ∀ s : State,
    (s.can.onBus = true → s.can.busOff = false → s.can.nmt ≠ .boot →
      exec .nmtStart s = .next { s with can := { s.can with nmt := .operational } } ∧
      exec .enterPreOperational s = .next { s with can := { s.can with nmt := .preOp } } ∧
      exec .nmtStop s = .next { s with can := { s.can with nmt := .stopped } } ∧
      (s.box.set.heartbeatMs ≠ 0 → s.can.hbAt + s.box.set.heartbeatMs * 1000000 ≤ s.time.uptime →
        exec .canHeartbeat s = .next { s with can := { s.can with tx := s.can.tx ++ [.heartbeat s.can.nmt], hbAt := s.time.uptime } }) ∧
      NextWith (exec .resetCommunication s) (fun t => t.can.nmt = .preOp ∧ t.can.tx = s.can.tx ++ [.bootUp] ∧
        t.can.path.level = 0x200 ∧ t = { s with can := t.can, box := t.box }) ∧
      NextWith (exec .resetNode s) (fun t => t.can.nmt = .preOp ∧ t.can.tx = s.can.tx ++ [.bootUp] ∧
        t.box.restarts = s.box.restarts + 1 ∧ t = { s with can := t.can, box := t.box })) ∧
    (∀ (r : EvRec) (rest : List EvRec), s.can.emcyQ = r :: rest → canServes s = true → s.can.emcyLast = none →
      NextWith (exec .emcySend s) fun t =>
        t.can.emcyQ = rest ∧ t.can.tx = s.can.tx ++ [.emcy (0xFF00 + r.cls) (errorReg s) r] ∧
        t.can.emcyLast = some s.time.uptime ∧ t = { s with can := t.can }) ∧
    (s.can.onBus = true → exec .busOff s = .next { s with can := { s.can with busOff := true } }) ∧
    exec .busOffRecovery s = .next { s with can := { s.can with busOff := false } } ∧
    (s.can.segmented = true → s.can.segAt + 1000000000 < s.time.uptime →
      NextWith (exec .sdoTimeout s) fun t => t.can.segmented = false ∧
        t.can.tx = s.can.tx ++ (if canServes s then [.sdo 0x05040000 []] else []) ∧
        t = { s with can := t.can, box := t.box })

/-- Doorbells, completions, port resets and PTM (R352, R353, R355, R357, R359, R362): an index beyond the queue sets
ERROR and disables it; an undefined OPC is completed with status 3 in the next entry of the completion queue; a held
completion is posted once an entry is free; a port reset discards queues and the event queue, and a read of EVQ_LOST clears it. -/
def Obligations.HostQueuesFollowTheirDoorbells : Prop :=
  ∀ (s : State) (p : HPortId) (q : QId),
    ((hq s p q).enable = true → ∀ i : Nat,
      NextWith (exec (.sqTail p q i) s) (fun t => t = { s with hports := t.hports } ∧
        (i < sqSize (hq s p q) → (hq t p q).sqTail = i ∧ (hq t p q).enable = true ∧ (hq t p q).error = (hq s p q).error) ∧
        (sqSize (hq s p q) ≤ i → (hq t p q).error = true ∧ (hq t p q).enable = false)) ∧
      NextWith (exec (.cqHead p q i) s) (fun t => t = { s with hports := t.hports } ∧
        (i < cqSize (hq s p q) → (hq t p q).cqHead = i ∧ (hq t p q).enable = true ∧ (hq t p q).error = (hq s p q).error) ∧
        (cqSize (hq s p q) ≤ i → (hq t p q).error = true ∧ (hq t p q).enable = false))) ∧
    (∀ (c : Completion) (rest : List Completion), (hq s p q).held = c :: rest → cqFree (hq s p q) = true →
      NextWith (exec (.completionPost p q) s) fun t => (hq t p q).held = rest ∧
        (hq t p q).cqTail = ((hq s p q).cqTail + 1) % cqSize (hq s p q) ∧
        t = { s with hports := t.hports, hostOut := t.hostOut }) ∧
    (∀ e : BitVec 512, Fetches s p q → (hq s p q).cqLog ≠ 0 → cqFree (hq s p q) = true →
      NextWith (exec (.invalidCommand p q e) s) fun t =>
        (hq t p q).fetched = (hq s p q).fetched + 1 ∧
        (hq t p q).cqTail = ((hq s p q).cqTail + 1) % cqSize (hq s p q) ∧
        SMap.get 0 t.hostOut ((p : Nat) * 2 ^ 64 + ((hq s p q).cqBase.toNat + 16 * ((hq s p q).cqTail % cqSize (hq s p q))) + 2)
          = 3 ∧
        t = { s with hports := t.hports, hostOut := t.hostOut }) ∧
    (∀ flr : Bool, boxRuns s = true →
      NextWith (exec (.portReset p flr) s) fun t => (hportOf t p).queues = [] ∧ (hportOf t p).evqEnable = false ∧
        (hportOf t p).resets = (hportOf s p).resets + 1 ∧ (hportOf t p).role = (hportOf s p).role ∧
        (t.box.staging.getLast?).map (·.code) = some 0x0A01 ∧ t = { s with hports := t.hports, box := t.box }) ∧
    (∀ ns : BitVec 64, boxRuns s = true →
      (∀ u, (hportOf s p).ptmLast = some u → u + s.box.set.ptmMs * 1000000 ≤ s.time.uptime) →
      NextWith (exec (.ptmDialog p ns) s) fun t => (hportOf t p).ptmUptime = s.time.uptime ∧
        (hportOf t p).ptmTime = ns ∧ t = { s with hports := t.hports }) ∧
    NextWith (exec (.evqLost p) s) (fun t => t.regOut = BitVec.ofNat 64 (hportOf s p).evqLost ∧ t.regPoison = false ∧
      (hportOf t p).evqLost = 0 ∧ t = { s with hports := t.hports, regOut := t.regOut, regPoison := t.regPoison })

/-- Tenancies and their rings (R354, R356, R363 to R365, R367, R368): what each accepted command changes. -/
def Obligations.TenancyCommandsTakeEffect : Prop :=
  ∀ (s : State) (p : HPortId) (q : QId) (e : BitVec 512), Fetches s p q → isOwner s p = true →
    (∀ n, entryOk e 3 = true → (hportOf s (eOp e 0 3)).role ≠ .observer →
      (List.range 64).find? (fun n => (tenOf s n).st = .none_) = some n →
      NextWith (exec (.tenCreate p q e) s) fun t => (tenOf t n).st = .created ∧ (tenOf t n).port = eOp e 0 3 ∧
        t = { s with tens := t.tens, hports := t.hports, hostOut := t.hostOut }) ∧
    (entryOk e 0 = true → (tenOf s (eTen e)).st ≠ .none_ → (tenOf s (eTen e)).st ≠ .clearing →
      (tenOf s (eTen e)).st ≠ .switchedOut → (tenOf s (eTen e)).destroyBy = none → (tenOf s (eTen e)).binding = none →
      NextWith (exec (.tenDestroy p q e) s) fun t =>
        ((tenOf s (eTen e)).run.isSome = true → (tenOf t (eTen e)).destroyBy.isSome = true ∧
          ((tenOf t (eTen e)).run.map (·.stopReq)) = some true) ∧
        ((tenOf s (eTen e)).run = none → (tenOf s (eTen e)).windows = [] → (tenOf s (eTen e)).rings = [] →
          (tenOf t (eTen e)).st = .none_ ∧ (tenOf t (eTen e)).gen = (tenOf s (eTen e)).gen)) ∧
    (entryOk e 96 = true → eOp e 64 1 = 0 → computeUp s = true → (tenOf s (eTen e)).st = .created →
      (tenOf s (eTen e)).binding = none → (tenOf s (eTen e)).destroyBy = none → (tenOf s (eTen e)).group = none →
      ringsOf (eOp e 0 64) ≠ [] →
      (∀ r ∈ ringsOf (eOp e 0 64), (ringOf s r).st = .free ∧ ringWhole s r 75 = true) →
      NextWith (exec (.ringAssign p q e) s) fun t => (tenOf t (eTen e)).st = .ready ∧
        (tenOf t (eTen e)).rings = (ringsOf (eOp e 0 64)).foldl NSet.add (tenOf s (eTen e)).rings ∧
        (∀ r ∈ ringsOf (eOp e 0 64), (ringOf t r).st = .assigned) ∧ t.mem = s.mem) ∧
    (entryOk e 64 = true → (tenOf s (eTen e)).st = .ready → (tenOf s (eTen e)).binding = none →
      (tenOf s (eTen e)).destroyBy = none → (tenOf s (eTen e)).sentence = none → (tenOf s (eTen e)).group = none →
      ringsOf (eOp e 0 64) ≠ [] →
      (∀ r ∈ ringsOf (eOp e 0 64), (tenOf s (eTen e)).rings.contains r = true ∧ holdsHost (tenOf s (eTen e)) r = false) →
      NextWith (exec (.ringRelease p q e) s) fun t => (tenOf t (eTen e)).st = .clearing ∧
        (tenOf t (eTen e)).releasing = ringsOf (eOp e 0 64) ∧
        (∀ r ∈ ringsOf (eOp e 0 64), (ringOf t r).st = .resetting) ∧ t.mem = s.mem) ∧
    (entryOk e 20 = true → (tenOf s (eTen e)).st ≠ .none_ →
      NextWith (exec (.sliceSet p q e) s) fun t => (tenOf t (eTen e)).quantum = eOp e 0 20 ∧
        t = { s with tens := t.tens, hports := t.hports, hostOut := t.hostOut }) ∧
    (∀ n, entryOk e 2 = true → residentOf s (eOp e 0 2) = some n → (nextTurn s (eOp e 0 2) n false).isSome = true →
      (tenOf s n).switchBy = none →
      NextWith (exec (.switch p q e) s) fun t => (tenOf t n).switchReq = true ∧ (tenOf t n).switchBy.isSome = true ∧
        t = { s with tens := t.tens, hports := t.hports })

/-- Shared rings and cleared rings (R367, R368): a resident whose quantum is used up is asked to switch; a cleared ring
leaves its tenancy, which is CREATED or READY again once the last one is cleared, or gone. -/
def Obligations.SlicesAndClearedRingsAct : Prop :=
  ∀ s : State,
    (∀ (g : Fin 4) (n : Nat) (u : Run), residentOf s g = some n → (tenOf s n).run = some u → (tenOf s n).quantum ≠ 0 →
      (tenOf s n).quantum ≤ (tenOf s n).sinceIn → (nextTurn s g n false).isSome = true →
      exec (.timeSliceQuantum g) s = .next (setTen s n { tenOf s n with switchReq := true })) ∧
    (∀ (r : RingId) (n : Nat) (x : Tenancy), s.tens.find? (fun p => p.2.releasing.contains (r : Nat)) = some (n, x) →
      NextWith (exec (.clearDone r) s) fun t => (r : Nat) ∉ (tenOf t n).releasing ∧ (r : Nat) ∉ (tenOf t n).rings)

/-- Windows, sentences and their runs (R30, R284, R285, R356, R357, R366): what each accepted command changes; a LOAD whose
image fails a check changes nothing but its queue's completion; a placement
that the search finds is the loaded sentence's, one that it does not find, or whose far windows would reach a host window, leaves
what was loaded, and either way the binding is over; it waits while the lead Ringmaster is at another action (R349). -/
def Obligations.SentenceCommandsTakeEffect : Prop :=
  (∀ (s : State) (n : TenId) (y : Sentence) (ws : List Window), (tenOf s n).loading = some (y, ws) →
     bindingWaits s n = false →
     NextWith (exec (.bindingComplete n) s) fun t =>
       (tenOf t n).loading = none ∧ (tenOf t n).binding = none ∧ t.mem = s.mem ∧
       (∀ b, bindRings s (tenOf s n) y = some b → (hostHeld (tenOf s n)).any (reachesFar (tenOf s n) y b) = false →
         (tenOf t n).sentence = some { y with bound := b, farHome := b }) ∧
       (∀ b, bindRings s (tenOf s n) y = some b → (hostHeld (tenOf s n)).any (reachesFar (tenOf s n) y b) = true →
         (tenOf t n).sentence = (tenOf s n).sentence) ∧
       (bindRings s (tenOf s n) y = none → (tenOf t n).sentence = (tenOf s n).sentence)) ∧
  (∀ (s : State) (n : TenId), bindingWaits s n = true → exec (.bindingComplete n) s = .next s) ∧
  ∀ (s : State) (p : HPortId) (q : QId) (e : BitVec 512), Fetches s p q → mayCommand s p (eTen e) = true →
    (entryOk e 75 = true → eOp e 0 48 % granBytes = 0 → 1 ≤ eOp e 48 27 →
      eOp e 0 48 + eOp e 48 27 * granBytes ≤ 2 ^ 48 → computeUp s = true → (tenOf s (eTen e)).rings ≠ [] →
      (tenOf s (eTen e)).st ≠ .clearing → (tenOf s (eTen e)).destroyBy = none → (tenOf s (eTen e)).windows = [] →
      eOp e 48 27 ≤ (hostGrans (tenOf s (eTen e)) (eOp e 48 27 + 1) (eOp e 48 27) (tenOf s (eTen e)).hostNext).length →
      (∀ y, (tenOf s (eTen e)).sentence = some y →
        ∀ g ∈ hostGrans (tenOf s (eTen e)) (eOp e 48 27 + 1) (eOp e 48 27) (tenOf s (eTen e)).hostNext,
          reachesFar (tenOf s (eTen e)) y y.farHome g.2 = false) →
      NextWith (exec (.winOpen p q e) s) fun t =>
        (tenOf t (eTen e)).windows.map (fun w => (w.base, w.granules, w.attr)) =
          [(eOp e 0 48, eOp e 48 27, .input)] ∧
        t = { s with tens := t.tens, hports := t.hports, hostOut := t.hostOut }) ∧
    (∀ v, entryOk e 48 = true → (tenOf s (eTen e)).windows.find? (fun v => v.base = eOp e 0 48) = some v →
      NextWith (exec (.winClose p q e) s) fun t =>
        (tenOf t (eTen e)).windows = (tenOf s (eTen e)).windows.filter (· ≠ v) ∧
        SMap.get 0 (tenOf t (eTen e)).winGens v.base = v.gen + 1 ∧
        t = { s with tens := t.tens, hports := t.hports, hostOut := t.hostOut }) ∧
    (∀ v, entryOk e 112 = true → eOp e 48 16 = 0 → computeUp s = true → (tenOf s (eTen e)).st = .ready →
      (tenOf s (eTen e)).run = none → (tenOf s (eTen e)).binding = none → (tenOf s (eTen e)).destroyBy = none →
      winAt (tenOf s (eTen e)) (eOp e 0 48) = some v → (v.attr = .input ∨ v.attr = .master) →
      eOp e 0 48 + eOp e 64 48 ≤ winEnd v →
      NextWith (exec (.load p q e) s) fun t =>
        let r := checkImage s (eTen e) (levelOf s p) (eOp e 64 48)
          (winBytes s (tenOf s (eTen e)) v (eOp e 0 48) (eOp e 64 48))
        (∀ l, r = .ok l → (tenOf t (eTen e)).loading = some l ∧ (tenOf t (eTen e)).binding.isSome = true ∧
          t = { s with tens := t.tens, plies := t.plies, hports := t.hports }) ∧
        (∀ c, r = .error c → t = { s with hports := t.hports, hostOut := t.hostOut })) ∧
    (∀ y, entryOk e 0 = true → computeUp s = true → (tenOf s (eTen e)).st = .ready →
      (tenOf s (eTen e)).sentence = some y → y.clauses ≠ [] → (tenOf s (eTen e)).run = none → (tenOf s (eTen e)).binding = none →
      (tenOf s (eTen e)).destroyBy = none → y.beatLog2 = s.time.beatLog2 →
      NextWith (exec (.run p q e) s) fun t => (tenOf t (eTen e)).run.isSome = true ∧
        (tenOf t (eTen e)).st = (if (tenOf s (eTen e)).resident then .running else .switchedOut) ∧
        t = { s with tens := t.tens, hports := t.hports }) ∧
    (∀ u, entryOk e 0 = true → (tenOf s (eTen e)).run = some u → u.stopReq = false →
      (tenOf s (eTen e)).st ≠ .switchedOut →
      NextWith (exec (.stop p q e) s) fun t => (tenOf t (eTen e)).run.map (·.stopReq) = some true ∧
        t = { s with tens := t.tens, hports := t.hports }) ∧
    (entryOk e 0 = true → (tenOf s (eTen e)).sentence.isSome = true → (tenOf s (eTen e)).run = none →
      (tenOf s (eTen e)).binding = none → (tenOf s (eTen e)).destroyBy = none →
      NextWith (exec (.unload p q e) s) fun t => (tenOf t (eTen e)).sentence = none ∧
        (∀ w ∈ (tenOf t (eTen e)).windows, w.fromSentence = false) ∧
        t = { s with tens := t.tens, hports := t.hports, hostOut := t.hostOut })

/-- Small DMA (R358), with none of its queue's earlier commands waiting: a write lands in the window at its Tenancy Address and nowhere else, a read copies the window's
bytes to host memory. -/
def Obligations.SmallDmaMovesTheWindowsBytes : Prop :=
  ∀ (s : State) (p : HPortId) (q : QId) (e : BitVec 512) (v : Window), Fetches s p q →
    mayCommand s p (eTen e) = true → dmaOk e = true → winAt (tenOf s (eTen e)) (eOp e 0 48) = some v →
    eOp e 0 48 + eOp e 128 17 ≤ winEnd v →
    rangeDark s (tenOf s (eTen e)) v (eOp e 0 48) (eOp e 128 17) = false →
    (∀ r ∈ (tenOf s (eTen e)).reads, r.w.port = p → r.w.q ≠ q) →
    (∀ data : List Byte, mayWrite .host v.attr = true →
      NextWith (exec (.dmaWr p q e data) s) fun t =>
        t.mem = (winWrite s (tenOf s (eTen e)) v (eOp e 0 48) (padTo 0 (eOp e 128 17) data)).mem ∧
        (∀ a, eOp e 128 17 = 64 → winAddr (tenOf s (eTen e)) v (eOp e 0 48) = some a →
          memRead t a 64 = padTo 0 64 data ∧
          ∀ b, (b < a ∨ a + 64 ≤ b) → memByte t b = memByte s b) ∧
        t.tiles = s.tiles ∧
        t.tens = (winWrite s (tenOf s (eTen e)) v (eOp e 0 48) (padTo 0 (eOp e 128 17) data)).tens) ∧
    (mayRead .host v.attr = true → rangePending s (eTen e) (eOp e 0 48) (eOp e 128 17) = false →
      NextWith (exec (.dmaRd p q e) s) fun t => t.mem = s.mem ∧ t.tiles = s.tiles ∧ t.tens = s.tens ∧
        ∀ i < eOp e 128 17,
          let a := (p : Nat) * 2 ^ 64 + eOp e 64 64 + i
          let c := (p : Nat) * 2 ^ 64 + ((hq s p q).cqBase.toNat + 16 * ((hq s p q).cqTail % cqSize (hq s p q)))
          a < c ∨ c + 16 ≤ a →
            SMap.get 0 t.hostOut a = (winBytes s (tenOf s (eTen e)) v (eOp e 0 48) (eOp e 128 17)).getD i 0)

/-- Dictionary accesses (R401, R402, R406): a read answers the entry's bytes over the path that asked, an accepted write
answers 0, and an aborted one answers its code and changes nothing else. VENDOR_ID reads 0x0A5E over CAN, HEARTBEAT_MS
takes its range and refuses the rest, a cursor is its own path's (R413, R414, R347). -/
def Obligations.DictionaryAccessesAnswerTheirPath : Prop :=
  (∀ s : State,
    (Answers s .can → exec (.usdoRead 0x1018 1) s =
      .next { s with can := { s.can with tx := s.can.tx ++ [.sdo 0 [0x5E, 0x0A, 0, 0]] } }) ∧
    (Answers s .can → ∀ ms < 2 ^ 16, NextWith (exec (.usdoWrite 0x1017 0 (leBytes 2 ms)) s) fun t =>
      t.can.tx = s.can.tx ++ [.sdo (if ms = 0 ∨ (100 ≤ ms ∧ ms ≤ 60000) then 0 else 0x06090030) []] ∧
      t.box.set = (if ms = 0 ∨ (100 ≤ ms ∧ ms ≤ 60000) then { s.box.set with heartbeatMs := ms } else s.box.set)) ∧
    (∀ (p : HPortId) (v : Nat), Answers s (.host p) → v < 2 ^ 32 →
      NextWith (exec (.mailboxWrite p 0x4100 4 (leBytes 4 v)) s) fun t =>
        (hportOf t p).path.readSeq = v ∧ (∀ q : HPortId, q ≠ p → hportOf t q = hportOf s q) ∧ t.can = s.can ∧
        t.box = s.box) ∧
    (∀ p : HPortId, Answers s (.host p) → isOwner s p = false →
      NextWith (exec (.mailboxWrite p 0x2030 0 [14]) s) fun t =>
        (hportOf t p).mbAbort = 0x06010000 ∧ t = { s with hports := t.hports })) ∧
  ∀ (s : State) (i : BitVec 16) (sub : BitVec 8),
    (canServes s = true → ∀ bs, dictRead s .can i.toNat sub.toNat = .ok bs → bs.length ≤ 256 →
      exec (.usdoRead i sub) s = .next { s with can := { s.can with tx := s.can.tx ++ [.sdo 0 bs] } }) ∧
    (canServes s = true → ∀ c, dictRead s .can i.toNat sub.toNat = .error c →
      exec (.usdoRead i sub) s = .next { s with can := { s.can with tx := s.can.tx ++ [.sdo c []] } }) ∧
    (canServes s = true → ∀ (data : List Byte) (c : Nat), dictWrite s .can i.toNat sub.toNat 0 data = .error c →
      exec (.usdoWrite i sub data) s = .next { s with can := { s.can with tx := s.can.tx ++ [.sdo c []] } }) ∧
    (canServes s = true → ∀ (data : List Byte) (t : State), dictWrite s .can i.toNat sub.toNat 0 data = .ok t →
      exec (.usdoWrite i sub data) s = .next { t with can := { t.can with tx := t.can.tx ++ [.sdo 0 []] } }) ∧
    (∀ (p : HPortId) (off : BitVec 16), pathServes s (.host p) = true →
      NextWith (exec (.mailboxRead p i sub off) s) fun t =>
        t = { s with hports := t.hports } ∧ (hportOf t p).path = (hportOf s p).path ∧ (hportOf t p).mbDone = true ∧
        (hportOf t p).mbBusy = false ∧
        ∀ bs, dictRead s (.host p) i.toNat sub.toNat = .ok bs → (hportOf t p).mbAbort = 0 ∧
          let o := if i = 0x1F50 then 0 else off.toNat
          ∀ k < min 256 (bs.length - 256 * o), SMap.get 0 (hportOf t p).mbData k = bs.getD (256 * o + k) 0) ∧
    (∀ (p : HPortId) (data : List Byte), pathServes s (.host p) = true →
      NextWith (exec (.mailboxWrite p i sub data) s) fun t =>
        (hportOf t p).mbDone = true ∧
        ∀ c, dictWrite s (.host p) i.toNat sub.toNat 0 data = .error c → (hportOf t p).mbAbort = c ∧
          t = { s with hports := t.hports } ∧ (hportOf t p).path = (hportOf s p).path)

/-- The stored set, the level, roles and the module's settings that have a row of their own (R354, R411, R412, R295, R417,
R414); a sideshow hold ends on its own after 3,600 s of uptime (R417). -/
def Obligations.SettingRowsTakeEffect : Prop :=
  (∀ s : State, s.box.sideHold = true →
    (s.box.sideHoldAt + 3600000000000 ≤ s.time.uptime →
      NextWith (exec .sideshowHoldExpiry s) fun t => t.box.sideHold = false ∧ t.box.heldFrom = none ∧
        t.box.heldNs = heldTime s ∧ t = { s with box := t.box }) ∧
    (s.time.uptime < s.box.sideHoldAt + 3600000000000 → exec .sideshowHoldExpiry s = .next s)) ∧
  ∀ (s : State) (path : Path), Answers s path →
    (permits s path .ownerOp 1 = true →
      NextWith (exec (.storeAll path (leBytes 4 0x65766173)) s) (fun t => t.box.stored = some (storedSet s) ∧
        t.box.set = s.box.set ∧ t.time = s.time) ∧
      NextWith (exec (.restoreAll path (leBytes 4 0x64616F6C)) s) (fun t => t.box.stored = none ∧
        t.box.set = s.box.set ∧ t.time = s.time) ∧
      NextWith (exec (.alertClear path [1]) s) (fun t => t.pins = { s.pins with alert := false } ∧ t.box = s.box)) ∧
    (∀ v, 0x200 ≤ v → v < 2 ^ 16 →
      NextWith (exec (.level path (leBytes 2 v)) s) fun t => (pathOf t path).level = min v 0x201 ∧ t.box = s.box) ∧
    (permits s path .owner 1 = true →
      (∀ v ≤ 4, clauseRuns s = false → (∀ r < 64, (ringOf s r).st ≠ .resetting) →
        NextWith (exec (.reservePerPly path [BitVec.ofNat 8 v]) s) fun t => t.box.set.reservePerPly = v ∧
          t.mem = s.mem ∧ t.tiles = s.tiles) ∧
      (∀ (r : RingId) (v : Fin 2), ((ringOf s r).st = .free ∨ (ringOf s r).st = .reserve) → ringWhole s r 75 = true →
        NextWith (exec (.ringStateWrite path r [BitVec.ofNat 8 v]) s) fun t =>
          (ringOf t r).st = (if v = 0 then .free else .reserve) ∧ (∀ q : RingId, q ≠ r → ringOf t q = ringOf s q)) ∧
      (0x201 ≤ (pathOf s path).level →
        (s.box.sideHold = false →
          NextWith (exec (.sideshowHold path [1]) s) fun t => t.box.sideHold = true ∧
            t.box.sideHoldAt = s.time.uptime) ∧
        NextWith (exec (.sideshowHold path [0]) s) fun t => t.box.sideHold = false ∧ t.box.heldFrom = none)) ∧
    (∀ (p : HPortId) (v : Nat), path = .can → v ≤ 1 →
      NextWith (exec (.role path p [BitVec.ofNat 8 v]) s) fun t =>
        (hportOf t p).role = (if v = 0 then .observer else .tenant) ∧
        (∀ q : HPortId, q ≠ p → hportOf t q = hportOf s q)) ∧
    (∀ p : HPortId, path = .can → (∀ q : HPortId, q ≠ p → isOwner s q = false) →
      NextWith (exec (.role path p [2]) s) fun t => (hportOf t p).role = .owner) ∧
    (∀ p q : HPortId, path = .can → q ≠ p → isOwner s q = true →
      exec (.role path p [2]) s = .next { s with can := { s.can with tx := s.can.tx ++ [.sdo 0x08000000 []] } })

/-- Firmware (R418): an image comes in pieces in order, a whole good one is staged, activation makes it the running one
and restarts the Box Office, and a discard drops it; the running image changes in no other way. -/
def Obligations.FirmwareIsStagedAndActivated : Prop :=
  ∀ (s : State) (path : Path), Answers s path → permits s path .ownerOp 1 = true →
    (∀ data : List Byte, s.box.fwStatus ≠ 1 → data.length ≤ 2 ^ 24 →
      NextWith (exec (.fwImage path 0 data) s) fun t => t.box.fwRunning = s.box.fwRunning ∧
        (data.length < Config.fwLength data → t.box.fwStatus = 1 ∧ t.box.fwBytes = data ∧ t.box.fwOwner = some path)) ∧
    (∀ data : List Byte, s.box.fwStatus = 1 → s.box.fwOwner = some path → (s.box.fwBytes ++ data).length ≤ 2 ^ 24 →
      NextWith (exec (.fwImage path s.box.fwBytes.length data) s) fun t => t.box.fwRunning = s.box.fwRunning ∧
        (Config.fwLength (s.box.fwBytes ++ data) ≤ (s.box.fwBytes ++ data).length →
          (Config.fwSignatureOk (s.box.fwBytes ++ data) = false → t.box.fwStatus = 3 ∧ t.box.fwBytes = []) ∧
          (Config.fwSignatureOk (s.box.fwBytes ++ data) = true →
            ((Config.fwVersion (s.box.fwBytes ++ data)).1 ≠ 2 ∨ (Config.fwVersion (s.box.fwBytes ++ data)).2 < 4) →
            t.box.fwStatus = 4 ∧ t.box.fwBytes = []) ∧
          (Config.fwSignatureOk (s.box.fwBytes ++ data) = true →
            (Config.fwVersion (s.box.fwBytes ++ data)).1 = 2 → 4 ≤ (Config.fwVersion (s.box.fwBytes ++ data)).2 →
            t.box.fwStatus = 2 ∧ t.box.fwBytes = s.box.fwBytes ++ data))) ∧
    (s.box.state ≠ .computeReset → s.box.resetStart = none → s.box.pwrPending = false → s.box.fwStatus = 2 →
      NextWith (exec (.fwActivate path) s) fun t => t.box.fwRunning = s.box.fwBytes ∧
        t.box.fwPrev = s.box.fwRunning ∧ t.box.restarts = s.box.restarts + 1 ∧ t.tens = s.tens ∧ t.mem = s.mem ∧
        t.tiles = s.tiles) ∧
    (s.box.state ≠ .computeReset → s.box.resetStart = none → s.box.pwrPending = false → s.box.fwStatus ≠ 2 →
      NextWith (exec (.fwActivate path) s) fun t => t.box = s.box) ∧
    (s.box.fwStatus = 2 →
      NextWith (exec (.fwDiscard path) s) fun t => t.box.fwBytes = [] ∧ t.box.fwStatus = 0 ∧
        t.box.fwRunning = s.box.fwRunning)

/-- The log, the defect map, rehearsals and the escalation ladder, written by an Owner (R279, R324, R331, R346). -/
def Obligations.OwnerHealthRowsTakeEffect : Prop :=
  ∀ (s : State) (path : Path), Answers s path → permits s path .owner 1 = true →
    (∀ v < 2 ^ 32, NextWith (exec (.unpinTo path (leBytes 4 v)) s) fun t =>
      t.box.log.map (fun p => (p.1, p.2.rec_)) = s.box.log.map (fun p => (p.1, p.2.rec_)) ∧
      (∀ p ∈ t.box.log, p.2.rec_.seq ≤ v → p.2.pinned = false) ∧ t.box.set = s.box.set) ∧
    (∀ (k : Nat) (e : BitVec 128), s.box.fieldMap[k]? = some e → entryState e = 4 → s.box.fieldMap.length < 32768 →
      s.box.factory.length + k < 2 ^ 32 →
      NextWith (exec (.revert path (leBytes 4 (s.box.factory.length + k))) s) fun t =>
        ∃ x : BitVec 128, t.box.fieldMap = s.box.fieldMap ++ [x] ∧ entryState x = 5 ∧
          fld x 0 4 = fld e 0 4 ∧ fld x 8 2 = fld e 8 2 ∧ fld x 10 7 = fld e 10 7 ∧ fld x 17 7 = fld e 17 7) ∧
    (0x201 ≤ (pathOf s path).level → armReason s = 0 →
      NextWith (exec (.arm path [1]) s) fun t => t.box.reh.status = 1 ∧ t.box.reh.reason = 0 ∧
        t.box.reh.count = s.box.reh.count) ∧
    (0x201 ≤ (pathOf s path).level → armReason s ≠ 0 →
      NextWith (exec (.arm path [1]) s) fun t => t.box.reh.status = s.box.reh.status ∧
        t.box.reh.refused = true ∧ t.box.reh.reason = armReason s) ∧
    (s.box.state = .ready → s.box.resetStart = none →
      NextWith (exec (.moduleReset path [1]) s) fun t => t.box.resetStart = some s.time.uptime ∧
        (t.box.staging.getLast?).map (fun r => (r.cls, r.code)) = some (5, 0x0801) ∧ t.mem = s.mem ∧
        t.tiles = s.tiles)

/-- Stream ports under their dictionary entries (R376, R377, R395): an enabled port trains, a disabled one loses its
link, RETRAIN is a hard failure that excludes the mask's lanes. -/
def Obligations.PortRowsTakeEffect : Prop :=
  ∀ (s : State) (path : Path) (p : SPortId), Answers s path → permits s path .ownerOp ((p : Nat) + 1) = true →
    ((sportOf s p).enable = false →
      NextWith (exec (.portEnable path p [1]) s) fun t => (sportOf t p).enable = true ∧
        (sportOf t p).st = .training ∧ ∀ q : SPortId, q ≠ p → sportOf t q = sportOf s q) ∧
    (NextWith (exec (.portEnable path p [0]) s) fun t => (sportOf t p).enable = false ∧
        (sportOf t p).st = .disabled ∧ (sportOf t p).retryBuf = [] ∧ (sportOf t p).outQ = []) ∧
    (∀ mask < 256, (sportOf s p).st = .up →
      NextWith (exec (.retrain path p [BitVec.ofNat 8 mask]) s) fun t => (sportOf t p).st = .down ∧
        (sportOf t p).excluded = BitVec.ofNat 8 mask ∧ (sportOf t p).retryBuf = [] ∧
        (t.box.staging.getLast?).map (·.code) = some 0x0B01)

/-- Accesses by Module Address (R11, R12, R361, R409): an aligned access by an Owner reads what stands there and writes
there; one whose ring runs a clause or has no power, and one that names nothing, is recorded and changes no memory. -/
def Obligations.ModuleAddressAccesses : Prop :=
  ∀ (s : State) (p : HPortId), pathServes s (.host p) = true → isOwner s p = true →
    (∀ (ma : BitVec 64) (n f ch off : Nat), ma.toNat % 8 = 0 → n % 8 = 0 → 8 ≤ n → n ≤ 256 →
      maTarget s ma.toNat n = some (.near f ch off) → off + n ≤ guardSave → clauseOnRing s (fieldRing f) = false →
      dark s (fieldRing f) = false → (∀ k < n, latentAt s ((nearAddr f ch off + k) / 64 * 8) = none) →
      tierPoisoned s (nearAddr f ch off) n = false → inConfig s f off n = false →
      NextWith (exec (.maRead p ma n) s) fun t => t = { s with hports := t.hports } ∧ (hportOf t p).mbAbort = 0 ∧
        ∀ k < n, SMap.get 0 (hportOf t p).mbData k = memByte s (nearAddr f ch off + k)) ∧
    (∀ (ma : BitVec 64) (data : List Byte) (f ch off : Nat), ma.toNat % 8 = 0 → data.length % 8 = 0 →
      8 ≤ data.length → data.length ≤ 248 → maTarget s ma.toNat data.length = some (.near f ch off) →
      off + data.length ≤ guardSave → clauseOnRing s (fieldRing f) = false → dark s (fieldRing f) = false →
      NextWith (exec (.maWrite p ma data) s) fun t => (hportOf t p).mbAbort = 0 ∧ t.tiles = s.tiles ∧
        memRead t (nearAddr f ch off) data.length = data ∧
        ∀ a, (a < nearAddr f ch off ∨ nearAddr f ch off + data.length ≤ a) → memByte t a = memByte s a) ∧
    (∀ (ma : BitVec 64) (n f ch off : Nat), ma.toNat % 8 = 0 → n % 8 = 0 → 8 ≤ n → n ≤ 256 →
      maTarget s ma.toNat n = some (.near f ch off) → clauseOnRing s (fieldRing f) = true ∨ dark s (fieldRing f) = true →
      NextWith (exec (.maRead p ma n) s) fun t => t.mem = s.mem ∧ t.tiles = s.tiles ∧
        (hportOf t p).mbAbort ≠ 0 ∧ (t.box.staging.getLast?).map (·.code) = some 0x0305) ∧
    (∀ (ma : BitVec 64) (data : List Byte), maTarget s ma.toNat data.length = none → ma.toNat % 8 = 0 →
      data.length % 8 = 0 →
      NextWith (exec (.registerWrite (.ma ma) data) s) fun t => t.mem = s.mem ∧ t.tiles = s.tiles ∧
        (t.box.staging.getLast?).map (·.code) = some 0x0305) ∧
    (∀ b : BitVec 64, NextWith (exec (.registerWrite (.bar0 p 0x110) (leBytes 8 b.toNat)) s) fun t =>
      (hportOf t p).evqHead = b.toNat ∧ t = { s with hports := t.hports }) ∧
    (Answers s (.host p) → ∀ v, 500 ≤ v → v ≤ 100000 →
      NextWith (exec (.registerWrite (.entry (.host p) 0x2040 1) (leBytes 4 v)) s) fun t =>
        t.box.set = { s.box.set with retryNs := v } ∧ (hportOf t p).mbAbort = 0)

/-- The ring's shared pool and fence registers and a router's counters (R253, R257, R269): a read of POOL_STATUS,
FENCE_COUNT or MW_COUNT is answered and clears what it counted; POOL_FLUSH frees packets only while no clause runs on the ring;
a dark ring serves none of these (R23). -/
def Obligations.PoolFenceAndRouterRegisters : Prop :=
  ∀ (s : State) (r : RingId),
    (∀ f : FieldId, NextWith (exec (.mwCount f) s) fun t => t.regOut = BitVec.ofNat 64 (mwCount (fieldOf s f)) ∧
      (fieldOf t f).deflect = 0 ∧ (fieldOf t f).dropDcnt = 0 ∧ (fieldOf t f).dropAge = 0 ∧
      (fieldOf t f).dropFmt = 0 ∧ (fieldOf t f).crcRetry = 0 ∧
      t = { s with fields := t.fields, regOut := t.regOut, regPoison := t.regPoison }) ∧
    (dark s r = false → NextWith (exec (.poolStatus r) s) (fun t => t.regOut = BitVec.ofNat 64 (poolReg s r) ∧ t.regPoison = false ∧
      (ringOf t r).refused = 0 ∧ (ringOf t r).queues = (ringOf s r).queues ∧
      t = { s with rings := t.rings, regOut := t.regOut, regPoison := false })) ∧
    (dark s r = false → NextWith (exec (.fenceCount r) s) (fun t => t.regOut = BitVec.ofNat 64 ((ringOf s r).cntClosed +
        (ringOf s r).cntRefused * 2 ^ 16 + (ringOf s r).cntStale * 2 ^ 32 + (ringOf s r).cntEpoch * 2 ^ 48) ∧
      (ringOf t r).cntClosed = 0 ∧ (ringOf t r).cntRefused = 0 ∧ (ringOf t r).cntStale = 0 ∧
      (ringOf t r).cntEpoch = 0 ∧ t = { s with rings := t.rings, regOut := t.regOut, regPoison := t.regPoison })) ∧
    (dark s r = true → ∀ c ∈ [Instr.poolStatus r, Instr.fenceCount r],
      NextWith (exec c s) fun t => t.regPoison = true ∧ (t.box.staging.getLast?).map (·.code) = some 0x0305 ∧
        t = { s with box := t.box, regOut := 0, regPoison := true }) ∧
    (∀ q : Fin 1024, clauseOnRing s r = false → dark s r = false → (q : Nat) ≠ 384 → (q : Nat) ≠ 385 → (q : Nat) ≠ 387 →
      NextWith (exec (.poolFlushQueue r q) s) fun t => queueOf (ringOf t r) q = [] ∧
        (∀ k : Nat, k ≠ q → queueOf (ringOf t r) k = queueOf (ringOf s r) k) ∧
        (∀ p ∈ (ringOf t r).ejected, p.1 ≠ (q : Nat)) ∧ t = { s with rings := t.rings }) ∧
    (∀ q : Fin 1024, clauseOnRing s r = false → dark s r = false → ((q : Nat) = 384 ∨ (q : Nat) = 385) →
      NextWith (exec (.poolFlushQueue r q) s) fun t => (stackOf t (ringStack r ((q : Nat) - 384))).queue = [] ∧
        (∀ p ∈ (ringOf t r).ejected, p.1 ≠ (q : Nat)) ∧ (ringOf t r).queues = (ringOf s r).queues ∧
        t = { s with farStacks := t.farStacks, rings := t.rings }) ∧
    (clauseOnRing s r = false → dark s r = false →
      NextWith (exec (.poolFlushQueue r 387) s) (fun t => (ringOf t r).commitQ = [] ∧ t = { s with rings := t.rings }) ∧
      NextWith (exec (.poolFlushAll r) s) (fun t => (ringOf t r).commitQ = [] ∧
        (∀ k : Nat, k ≠ 389 → k ≠ 390 → queueOf (ringOf t r) k = []) ∧
        t = { s with rings := t.rings, farStacks := t.farStacks })) ∧
    (∀ q : Fin 1024, (clauseOnRing s r = true ∨ dark s r = true) →
      NextWith (exec (.poolFlushQueue r q) s) (fun t => t = { s with box := t.box } ∧
        (t.box.staging.getLast?).map (·.code) = some 0x0305) ∧
      NextWith (exec (.poolFlushAll r) s) (fun t => t = { s with box := t.box } ∧
        (t.box.staging.getLast?).map (·.code) = some 0x0305))

/-- The tick (R173, R423, R425, R457, R469): BEAT_TICK completes in every state; where no sentence runs ticks and core cycles count, the beat starts at the
uptime, what waited for the tick takes effect, and nothing else of the time base changes; a module compute reset that
waits for power, a held module and one whose bring-up failed go on counting ticks and energy (R421), and nothing else. -/
def Obligations.TickCountsAndAppliesWhatWaited : Prop :=
  ∀ (s : State) (rep : TickReport),
    (s.box.state = .ready → s.box.resetStart = none → s.tens = [] →
      NextWith (exec (.beatTick rep) s) fun t =>
        t.time = { s.time with
          ticks := s.time.ticks + 1, cc := s.time.cc + 2 ^ s.time.beatLog2, beatStart := s.time.uptime
          beatLog2 := s.time.beatLog2Next.getD s.time.beatLog2, beatLog2Next := none
          spread := s.time.spreadNext.getD s.time.spread, spreadNext := none
          cclkMhz := t.time.cclkMhz, tickMhz := t.time.cclkMhz } ∧
        t.pwr.capW = s.pwr.capWNext.getD s.pwr.capW ∧ t.pwr.capWNext = none ∧
        t.pwr.fixedFreq = s.pwr.fixedFreqNext.getD s.pwr.fixedFreq ∧ t.hbSeen = 0 ∧ t.mem = s.mem) ∧
    (s.box.state = .computeReset → s.box.pwrPending = true →
      NextWith (exec (.beatTick rep) s) fun t => t.time.ticks = s.time.ticks + 1 ∧
        t.time.cc = s.time.cc + 2 ^ s.time.beatLog2 ∧ t = { s with time := t.time, pwr := t.pwr, tens := t.tens }) ∧
    ((s.box.state = .held ∧ runningTens s = []) ∨ s.box.state = .failed →
      NextWith (exec (.beatTick rep) s) fun t => t.time.ticks = s.time.ticks + 1 ∧
        t.time.cc = s.time.cc + 2 ^ s.time.beatLog2 ∧ t = { s with time := t.time, pwr := t.pwr, tens := t.tens }) ∧
    (∃ t, exec (.beatTick rep) s = .next t)

/-- What the tick does with a beat (R38, R39, R173, R175, R238, R313, R336): an audit that closes commits its beat, a failed
one replays it, a beat that has not finished runs on as a grace beat, a second overrun becomes a hang, and a clause whose
guard-save room is short starts no work beat. -/
def Obligations.BeatsCommitReplayOrOverrun : Prop :=
  ∀ (s : State) (n : Nat) (u : Run), (tenOf s n).run = some u →
    (∀ b, u.pendingBeat = some b →
      (tenOf (commitPending s n) n).lastCommitted = b ∧
      (tenOf (commitPending s n) n).beatsCommitted = (tenOf s n).beatsCommitted + 1 ∧
      (tenOf (commitPending s n) n).run.bind (·.lastCommitted) = some b ∧
      (tenOf (commitPending s n) n).run.bind (·.pendingBeat) = none) ∧
    (u.pendingBeat = none → commitPending s n = s) ∧
    (u.phase = .work → u.overrun = false →
      (tenOf (overrunTick s n u) n).run.map (fun v => (v.phase, v.overrun)) = some (.grace, true)) ∧
    (u.phase = .grace → (tenOf (overrunTick s n u) n).run.map (·.phase) = some (.hang (s.time.cc + beatLen s))) ∧
    (∀ h, mechProgram ∉ u.fails → mechNoRestore ∉ u.fails → mechDead ∉ u.fails → mechAgain ∉ u.fails →
      (u.replays < 2 ∨ u.replayAt + escWindow < s.time.uptime) → u.engineTry = false → u.lateDue = [] → u.history.find? (fun h => h.beat = u.sentBeat) = some h →
      (tenOf (failBeat s n) n).run.map (fun v => (v.phase, v.sentBeat, v.replays, v.workBeat)) =
        some (.replay, u.sentBeat, min 2 (u.replays + 1), h.workBeat)) ∧
    (guardFull s n = true → (tenOf (workOrHold s n) n).run = some { u with phase := .guardHold })

/-- Guard copies, staging and waiting clauses (R202, R227, R238, R326, R336, R340): a copy that is done reaches its window, unless
a pseudo-channel there retrains, a
staged clause is noted, a stall past its limit aborts the run, a verdict without a cycle holds or fails the beat. -/
def Obligations.ClauseEventsTakeEffect : Prop :=
  ∀ (s : State) (n : TenId) (u : Run), (tenOf s n).run = some u →
    (copyWaits s n = true → exec (.guardCopyDone n) s = .next s) ∧
    (∀ g, u.copies.find? (fun g => !g.done) = some g → copyWaits s n = false →
      NextWith (exec (.guardCopyDone n) s) fun t =>
        (tenOf t n).run.map (·.copies) = some (u.copies.map fun h =>
          if h.beat = g.beat then { h with done := true, cells := [], psn := [], blocks := [] } else h) ∧
        t.tiles = s.tiles ∧
        ∀ a, (∀ p ∈ g.ranges, a < p.1 ∨ p.1 + p.2 ≤ a) → (∀ c ∈ g.cells, c.1 ≠ a) → memByte t a = memByte s a) ∧
    NextWith (exec (.stagingComplete n) s) (fun t => (tenOf t n).run = some { u with staged := true } ∧
      (∀ r ∈ boundRings s n, ∀ f ∈ ringFields r,
        (if u.phase = .load then u.area else 1 - u.area) ∈ (fieldOf t f).staged) ∧
      t = { s with tens := t.tens, fields := t.fields }) ∧
    (∀ at_, u.phase = .load → (u.staged = false ∨ (u.bcast = false ∧ longBroadcast s n = true)) → u.stageAt = some at_ →
      at_ + s.box.set.stallMs * 1000000 ≤ s.time.uptime → (tenOf s n).destroyBy = none → (tenOf s n).rings ≠ [] →
      NextWith (exec (.stageStall n) s) fun t => (tenOf t n).run = none ∧ (tenOf t n).st = .ready ∧
        (tenOf t n).gen = (tenOf s n).gen + 1) ∧
    (∀ at_, u.phase = .hold at_ → at_ + s.box.set.stallMs * 1000000 ≤ s.time.uptime → (tenOf s n).destroyBy = none →
      (tenOf s n).rings ≠ [] →
      NextWith (exec (.extStall n) s) fun t => (tenOf t n).run = none ∧ (tenOf t n).st = .ready ∧
        (tenOf t n).gen = (tenOf s n).gen + 1) ∧
    (∀ at_, u.phase = .hang at_ → at_ + 12288 ≤ s.time.cc → u.moving = [] → waitCycle (clauseWaits s n) = [] →
      (clauseWaits s n).any (·.ext) = true →
      NextWith (exec (.hangVerdict n) s) fun t => (tenOf t n).run = some { u with phase := .hold s.time.uptime, extAgent := firstAgent (clauseWaits s n) } ∧
        t.box.hang.cls = 2 ∧ t.box.hang.ten = n ∧ t.box.hang.recs = (clauseWaits s n).take 1024)

/-- Verbs of the beat program issue at their stamps (R105, R106, R109, R140); a MOV to or from near memory has the extra
conditions of R124 and is stated by itself. -/
def Obligations.ScheduledVerbsIssueAtTheirStamps : Prop :=
  ∀ (s : State) (i : SiteId) (slot : Fin 8192) (v : BitVec 128),
    VerbRuns (exec (.mma i slot v) s) (mmaInfo false v) (mmaEff false) s i slot v ∧
    VerbRuns (exec (.mmaT i slot v) s) (mmaInfo true v) (mmaEff true) s i slot v ∧
    VerbRuns (exec (.mmaX i slot v) s) (mmaXInfo v) mmaXEff s i slot v ∧
    VerbRuns (exec (.sfu i slot v) s) (sfuInfo v) sfuEff s i slot v ∧
    VerbRuns (exec (.rand i slot v) s) (sfuInfo v) sfuEff s i slot v ∧
    VerbRuns (exec (.red i slot v) s) (redInfo v) redEff s i slot v ∧
    VerbRuns (exec (.smax i slot v) s) (smaxInfo v) smaxEff s i slot v ∧
    VerbRuns (exec (.castConvert i slot v) s) (castInfo v) castEff s i slot v ∧
    VerbRuns (exec (.castSlice i slot v) s) (castInfo v) castEff s i slot v ∧
    VerbRuns (exec (.castFinalize i slot v) s) (castInfo v) castEff s i slot v ∧
    (movNear v = false → ∀ wait, VerbRuns (exec (.mov i slot ⟨v, wait⟩) s) (movInfo v) movEff s i slot v wait) ∧
    VerbRuns (exec (.drop i slot v) s) (movInfo v) movEff s i slot v ∧
    (∀ wait, VerbRuns (exec (.send i slot ⟨v, wait⟩) s) (chanInfo false v) sendEff s i slot v wait) ∧
    (∀ wait, VerbRuns (exec (.recv i slot ⟨v, wait⟩) s) (chanInfo true v) recvEff s i slot v wait) ∧
    VerbRuns (exec (.steer i slot v) s) (steerInfo v) steerEff s i slot v ∧
    VerbRuns (exec (.steerClear i slot v) s) (steerInfo v) steerEff s i slot v ∧
    VerbRuns (exec (.ccount i slot v) s) (ccountInfo v) ccountEff s i slot v ∧
    VerbRuns (exec (.checkCsum i slot v) s) (checkInfo v) checkEff s i slot v ∧
    VerbRuns (exec (.checkCmp i slot v) s) (checkInfo v) checkEff s i slot v ∧
    VerbRuns (exec (.checkPoison i slot v) s) (checkInfo v) checkEff s i slot v ∧
    VerbRuns (exec (.nop i slot v) s) (nopInfo v) nopEff s i slot v

/-- NOP (R133): one with a Reserved bit set traps with FORMAT; any other holds no unit, completes at its stamp and changes
nothing but that it has issued. -/
def Obligations.NopHoldsNoUnitAndCompletesAtOnce : Prop :=
  ∀ (s : State) (i : SiteId) (slot : Fin 8192) (v : BitVec 128),
    (Issuable s i slot (nopInfo v) v →
      NextWith (exec (.nop i slot v) s) fun t => Issued s t i slot (nopInfo v) v ∧ t.mem = s.mem ∧
        t = { s with tiles := t.tiles } ∧ (∀ j, j ≠ (i : Nat) → tileOf t j = tileOf (atStamp s i v) j) ∧
        tileOf t i = { boardPrune (tileOf s i) (actCc s i v) with eng := (tileOf t i).eng } ∧
        (∀ u, unitTo (tileOf t i).eng u = unitTo (tileOf s i).eng u) ∧
        (tileOf t i).eng.doneBy = max (tileOf s i).eng.doneBy (actCc s i v)) ∧
    (fld v 32 96 ≠ 0 → issues (tileOf s i) false = true → halts s (siteRing i) = false →
      (mirrorOn s i && (tileOf s i).role = 2) = false → waitsIn (tileOf s i) slot = false →
      (tileOf s i).badParity.contains (slot : Nat) = false →
      exec (.nop i slot v) s = .next (trapTile (atStamp s i v) i 0x03 (.slot slot)))

/-- Reserved verb codes (R9): a verb with a code from 0x40 to 0xFF traps the tile that receives it with 0x02, from a slot of
the beat program and from the scalar core. -/
def Obligations.ReservedVerbsTrapTheirTile : Prop :=
  (∀ (s : State) (i : SiteId) (slot : Fin 8192) (v : BitVec 128),
     issues (tileOf s i) false = true → halts s (siteRing i) = false →
     (mirrorOn s i && (tileOf s i).role = 2) = false → waitsIn (tileOf s i) slot = false →
     (tileOf s i).badParity.contains (slot : Nat) = false →
     NextWith (exec (.reservedVerb i slot v) s) fun t => (tileOf t i).st = .halted ∧
       (tileOf t i).trap.code = 0x02 ∧ (tileOf t i).trap.slot = BitVec.ofNat 16 slot ∧
       (tileOf t i).err = ((tileOf s i).err ||| 0x80) ∧ t.mem = s.mem) ∧
  (∀ v : BitVec 128, 0x40 ≤ fld v 0 8 → verbInfo v = reservedInfo) ∧
  ∀ (s : State) (i : SiteId) (w : BitVec 32) (v : BitVec 128), Executes s i w → opRa w % 2 = 0 →
    v = BitVec.ofNat 128 ((gReg (tileOf s i) (opRa w)).toNat + (gReg (tileOf s i) (opRa w + 1)).toNat * 2 ^ 64) →
    0x40 ≤ fld v 0 8 → exec (.issue i w) s = .next (trapTile s i 0x02 .issue)

/-- The matrix engine (R83, R112, R113, R116): MMA, MMA.T and MMA.X of a tile that is no half of a pair. With OUT KEEP the
accumulators stay in the engine, else the output block stands in the rows from C_ROW on; a catcher may not issue one. -/
def Obligations.EngineVerbsComputeTheirBlocks : Prop :=
  ∀ (s : State) (i : SiteId) (slot : Fin 8192) (v : BitVec 128),
    (∀ tr : Bool, Issuable s i slot (mmaInfo tr v) v → (tileOf s i).role = 0 →
      let cc := actCc s i v
      Settled s i cc (eCRow v) (outRows (eFo v) (eOut v) (eCk v)) →
      engReady (tileOf s i) v (cc + 5 + mmaQ tr v + mmaP v) (drainCc (eOut v) (eCk v)) = none →
      ∀ s₁ rb, opRows (atStamp s i v) i (eSrcB v) (eBRow v) cc (panelB v) (rowsB v) (mmaP v) (mmaQ tr v) 1 = some (s₁, rb) →
      ∀ s₂ ra, opRows (setDrain s₁ i (cc + 5 + mmaQ tr v + mmaP v) (drainCc (eOut v) (eCk v))) i (eSrcA v) (eARow v) cc
        (panelA tr v) (rowsA tr v) (mmaP v) (mmaQ tr v) 0 = some (s₂, ra) →
      CarryFree s i (eCRow v) (outRows (eFo v) (eOut v) (eCk v)) →
      let rt := (readRows s₂ i (eTRow v) cc 1 (rowsA tr v).table).2
      let accs := mmaAccs tr v (rowsNat ra) (rowsNat rb) (rowsNat rt) (rowsPsn ra) (rowsPsn rb) (rowsPsn rt)
        (tileOf s i).eng.accs
      NextWith (exec (if tr then .mmaT i slot v else .mma i slot v) s) fun t => Issued s t i slot (mmaInfo tr v) v ∧
        (eOut v = 1 → (tileOf t i).eng.keep = true ∧ (tileOf t i).eng.accs = accs ∧ t.mem = s.mem) ∧
        (eOut v ≠ 1 → (tileOf t i).eng.keep = false ∧
          (eCk v = false → RowsHold s t i (eCRow v) (outBlock (eFo v) (eOut v) (satBit v) accs)))) ∧
    (Issuable s i slot (mmaXInfo v) v → (tileOf s i).role = 0 →
      let cc := actCc s i v
      let p := withCk (eCk v) (eK v)
      Settled s i cc (eCRow v) (outRows (eFo v) (eOut v) (eCk v)) →
      engReady (tileOf s i) v (cc + 5 + p) (drainCc (eOut v) (eCk v)) = none →
      CarryFree s i (eCRow v) (outRows (eFo v) (eOut v) (eCk v)) →
      let s₁ := setDrain (atStamp s i v) i (cc + 5 + p) (drainCc (eOut v) (eCk v))
      let ua := (rowsX v 1).panel p 0 0
      let ub := (rowsX v 0).panel p 0 1
      let ra := readRows s₁ i (eARow v) (cc + ua.cc) ua.step (planeX v).rows
      let rb := readRows ra.1 i (eBRow v) (cc + ub.cc) ub.step (planeX v).rows
      let rs := readRows rb.1 i (eTRow v) cc 1 1
      let accs := mmaXAccs v (rowsNat ra.2) (rowsNat rb.2) (rowsNat rs.2) (rowsPsn ra.2) (rowsPsn rb.2) (rowsPsn rs.2)
        (tileOf s i).eng.accs
      NextWith (exec (.mmaX i slot v) s) fun t => Issued s t i slot (mmaXInfo v) v ∧
        (eOut v = 1 → (tileOf t i).eng.keep = true ∧ (tileOf t i).eng.accs = accs ∧ t.mem = s.mem) ∧
        (eOut v ≠ 1 → (tileOf t i).eng.keep = false ∧
          (eCk v = false → RowsHold s t i (eCRow v) (outBlock (eFo v) (eOut v) (satBit v) accs)))) ∧
    ((tileOf s i).role = 2 →
      (∀ tr : Bool, Issuable s i slot (mmaInfo tr v) v →
        exec (if tr then .mmaT i slot v else .mma i slot v) s = .next (trapTile (atStamp s i v) i 0x06 (.slot slot))) ∧
      (Issuable s i slot (mmaXInfo v) v →
        exec (.mmaX i slot v) s = .next (trapTile (atStamp s i v) i 0x06 (.slot slot))))

/-- The special-function unit (R117 to R122): each verb leaves its packed results in its destination rows and no other
byte of memory changed. -/
def Obligations.SpecialFunctionVerbsWriteTheirRows : Prop :=
  ∀ (s : State) (i : SiteId) (slot : Fin 8192) (v : BitVec 128),
    (∀ rand : Bool, Issuable s i slot (sfuInfo v) v →
      Settled s i (actCc s i v) (fld v 58 13) (rowsOf (sN v) (fbits (sFo v))) →
      ∀ s₁ r1, srcRows (atStamp s i v) i (sSrc v) (fld v 32 13) (actCc s i v)
        (readUse 0 (rowsOf (sN v) (fbits (sFi v))) (sfuInfo v).occ) (rowsOf (sN v) (fbits (sFi v))) = some (s₁, r1) →
      CarryFree s i (fld v 58 13) (rowsOf (sN v) (fbits (sFo v))) →
      (∀ e < sN v, byteValid r1 (fbits (sFi v) * e / 8) = true) →
      let w := rowsNat r1
      let lag := sLag v (sfuInfo v).occ
      let w2 := rowsNat (readPort s₁ i (fld v 45 13) (actCc s i v)
        (readUse lag (sRows2 v) ((sfuInfo v).occ - lag)) (sRows2 v)).2
      NextWith (exec (if rand then .rand i slot v else .sfu i slot v) s) fun t => Issued s t i slot (sfuInfo v) v ∧
        RowsHold s t i (fld v 58 13) (packFill (Config.tailByte 0x08) (fbits (sFo v))
          ((List.range (sN v)).map fun e => (mainPath (tileOf s i).sfuUpset (fbits (sFo v)) e (sfuElem v w w2 e), false))) ∧
        (sSrc v = 0 → (tileOf s i).sfuUpset = [] → CleanRows s i (actCc s i v) (sfuInfo v).reads → VerbFrame s t i v)) ∧
    (Issuable s i slot (redInfo v) v → rPart v = false →
      Settled s i (actCc s i v) (fld v 58 13) (rowsOf (redCount v) (fbits (rFo v))) →
      CarryFree s i (fld v 58 13) (rowsOf (redCount v) (fbits (rFo v))) →
      let w := rowsNat (readPort (atStamp s i v) i (fld v 32 13) (actCc s i v) (readUse 0 (rRows v) (redInfo v).occ) (rRows v)).2
      NextWith (exec (.red i slot v) s) fun t => Issued s t i slot (redInfo v) v ∧
        RowsHold s t i (fld v 58 13) (packRows (fbits (rFo v))
          ((redIdx v).map fun idx => (redElem v (idx.map fun e => seqAt w (fbits (rType v)) e), false))) ∧
        (CleanRows s i (actCc s i v) (redInfo v).reads → VerbFrame s t i v)) ∧
    (Issuable s i slot (redInfo v) v → rPart v = true →
      Settled s i (actCc s i v) (fld v 58 13) (rowsOf (redCount v) 256) →
      CarryFree s i (fld v 58 13) (rowsOf (redCount v) 256) →
      CleanRows s i (actCc s i v) (redInfo v).reads →
      let w := rowsNat (readPort (atStamp s i v) i (fld v 32 13) (actCc s i v) (readUse 0 (rRows v) (redInfo v).occ) (rRows v)).2
      NextWith (exec (.red i slot v) s) fun t => Issued s t i slot (redInfo v) v ∧ VerbFrame s t i v ∧
        RowsHold s t i (fld v 58 13) (packRows 256 ((redIdx v).map fun idx =>
          (match idx.map fun e => accOfPart (seqAt w 256 e) with
            | [] => 0
            | c :: cs => partOf (cs.foldl accJoin c), false)))) ∧
    (Issuable s i slot (smaxInfo v) v →
      Settled s i (actCc s i v) (fld v 45 13) (rowsOf (mLen v * mSegs v) (fbits (mFo v))) →
      CarryFree s i (fld v 45 13) (rowsOf (mLen v * mSegs v) (fbits (mFo v))) →
      let w := rowsNat (readPort (atStamp s i v) i (fld v 32 13) (actCc s i v)
        (readUse 0 (rowsOf (mLen v * mSegs v) (fbits (mFi v))) (smaxInfo v).occ)
        (rowsOf (mLen v * mSegs v) (fbits (mFi v)))).2
      NextWith (exec (.smax i slot v) s) fun t => Issued s t i slot (smaxInfo v) v ∧
        RowsHold s t i (fld v 45 13) (packFill (Config.tailByte 0x0A) (fbits (mFo v))
          (((List.range (mSegs v)).map fun g => (softmax ((List.range (mLen v)).map fun e =>
            asFp32 (mFi v) (seqAt w (fbits (mFi v)) (g * mLen v + e)))).map fun c =>
              encElem (mFo v) (satBit v) (decFloat fp32 c)).flatten.zipIdx.map fun p =>
                (mainPath (tileOf s i).sfuUpset (fbits (mFo v)) p.2 p.1, false))) ∧
        ((tileOf s i).sfuUpset = [] → CleanRows s i (actCc s i v) (smaxInfo v).reads → VerbFrame s t i v)) ∧
    (Issuable s i slot (castInfo v) v → cMode v = 0 → cScale v = false →
      Settled s i (actCc s i v) (fld v 45 13) (rowsOf (castN v) (fbits (cFo v))) →
      CarryFree s i (fld v 45 13) (rowsOf (castN v) (fbits (cFo v))) →
      let w := rowsNat (readPort (atStamp s i v) i (fld v 32 13) (actCc s i v) (readUse 0 (castSrc v) (castInfo v).occ) (castSrc v)).2
      NextWith (exec (.castConvert i slot v) s) fun t => Issued s t i slot (castInfo v) v ∧
        RowsHold s t i (fld v 45 13) (packFill (Config.tailByte 0x11) (fbits (cFo v)) ((List.range (castN v)).map fun e =>
          (encElem (cFo v) (satBit v) (decElem (cFi v) (seqAt w (fbits (cFi v)) e)), false))) ∧
        (CleanRows s i (actCc s i v) (castInfo v).reads → VerbFrame s t i v)) ∧
    (Issuable s i slot (castInfo v) v → cMode v = 2 →
      Settled s i (actCc s i v) (fld v 45 13) (rowsOf (castN v) (fbits (cFo v))) →
      CarryFree s i (fld v 45 13) (rowsOf (castN v) (fbits (cFo v))) →
      let w := rowsNat (readPort (atStamp s i v) i (fld v 32 13) (actCc s i v) (readUse 0 (castSrc v) (castInfo v).occ) (castSrc v)).2
      NextWith (exec (.castFinalize i slot v) s) fun t => Issued s t i slot (castInfo v) v ∧
        RowsHold s t i (fld v 45 13) (packFill (Config.tailByte 0x11) (fbits (cFo v)) ((List.range (castN v)).map fun e =>
          (accOut (cFo v) (satBit v) (accOfPart (seqAt w 256 e)), false))) ∧
        (CleanRows s i (actCc s i v) (castInfo v).reads → VerbFrame s t i v)) ∧
    (Issuable s i slot (castInfo v) v → cMode v = 1 →
      CarryFree s i (fld v 45 13) (castDst v) → CarryFree s i (fld v 89 13) 1 →
      let r := readPort (atStamp s i v) i (fld v 32 13) (actCc s i v) (readUse 0 (castSrc v) (castInfo v).occ) (castSrc v)
      NextWith (exec (.castSlice i slot v) s) fun t => Issued s t i slot (castInfo v) v ∧
        t.mem = (applyWrs (writeAt (tileOf s i) (castInfo v) (actCc s i v) 0) r.1 i 0
          (atSite i (castSliced v (rowsNat r.2) (rowsPsn r.2)))).mem ∧
        (CleanRows s i (actCc s i v) ((fld v 89 13, 1) :: (castInfo v).reads) →
          latentAt s (xorKey i (fld v 89 13)) ≠ some .uncorr → VerbFrame s t i v))

/-- The steering unit's MOV, DROP and STEER (R55, R58, R123, R126, R134, R151): MOV copies its rows, where its destination lies
seven or more rows after its source also rows that it has written itself, and nothing else in memory changes; into an outbound
buffer it moves what there is room for and waits; DROP discards the rest of the packet that is being read; STEER installs its rule under
its number, its CLEAR form removes it, and no other rule changes. -/
def Obligations.MovDropAndSteerTakeEffect : Prop :=
  (∀ (s : State) (i : SiteId) (slot : Fin 8192) (v : BitVec 128), Issuable s i slot (steerInfo v) v →
     (bit v 67 = false →
       NextWith (exec (.steer i slot v) s) fun t => Issued s t i slot (steerInfo v) v ∧
         (∀ x, SMap.get x (tileOf t i).rules (fld v 32 4) =
           { din := fld v 36 2, tin := fld v 38 2, spec := bit v 40, rbase := fld v 41 13, rrows := fld v 54 13 }) ∧
         (∀ x r, r ≠ fld v 32 4 → SMap.get x (tileOf t i).rules r = SMap.get x (tileOf s i).rules r) ∧
         t = { s with tiles := t.tiles } ∧ ∀ j, j ≠ (i : Nat) → tileOf t j = tileOf (atStamp s i v) j) ∧
     (bit v 67 = true →
       NextWith (exec (.steerClear i slot v) s) fun t => Issued s t i slot (steerInfo v) v ∧
         (∀ x, SMap.get x (tileOf t i).rules (fld v 32 4) = x) ∧
         (∀ x r, r ≠ fld v 32 4 → SMap.get x (tileOf t i).rules r = SMap.get x (tileOf s i).rules r) ∧
         t = { s with tiles := t.tiles } ∧ ∀ j, j ≠ (i : Nat) → tileOf t j = tileOf (atStamp s i v) j)) ∧
  ∀ (s : State) (i : SiteId) (slot : Fin 8192) (v : BitVec 128) (wait : Nat),
    (Issuable s i slot (movInfo v) v wait → vDrop v = false → vSk v = 0 → vDk v = 0 →
      let cc := actCc s i v wait
      CarryFree s i (fld v 55 13) (vRows v) → Settled s i cc (fld v 42 13) (vRows v) →
      Settled s i cc (fld v 55 13) (vRows v) →
      NextWith (exec (.mov i slot ⟨v, wait⟩) s) fun t => Issued s t i slot (movInfo v) v wait ∧
        (∀ k < vRows v, memRead t (spmAddr i ((fld v 55 13 + k) * rowBytes)) rowBytes =
          memRead s (spmAddr i ((fld v 42 13 +
            if fld v 42 13 + 7 ≤ fld v 55 13 then k % (fld v 55 13 - fld v 42 13) else k) * rowBytes)) rowBytes) ∧
        (∀ a, (a < spmAddr i (fld v 55 13 * rowBytes) ∨ spmAddr i ((fld v 55 13 + vRows v) * rowBytes) ≤ a) →
          memByte t a = memByte s a) ∧
        (CleanRows s i cc [(fld v 42 13, vRows v)] → VerbFrame s t i v wait)) ∧
    (∀ s₁ rs, Issuable s i slot (movInfo v) v wait → vDrop v = false → vSk v = 1 → vDk v = 0 →
      CarryFree s i (fld v 55 13) (vRows v) → Settled s i (actCc s i v wait) (fld v 55 13) (vRows v) →
      takeRows (atStamp s i v wait) i (vSbuf v) (vRows v) = some (s₁, rs) →
      NextWith (exec (.mov i slot ⟨v, wait⟩) s) fun t => Issued s t i slot (movInfo v) v wait ∧
        RowsHold s t i (fld v 55 13) (rs.map fun r => (r.bytes, r.psn)) ∧
        inBuf (tileOf t i) (vSbuf v) = inBuf (tileOf s₁ i) (vSbuf v)) ∧
    (∀ b, b = outBuf (tileOf s i) (vDbuf v) → Issuable s i slot (movInfo v) v wait → vDrop v = false → vSk v = 0 →
      vDk v = 1 → b.dest.isSome = true → waitsIn (tileOf s i) slot = false →
      Settled s i (actCc s i v wait) (fld v 42 13) (vRows v) →
      (outTaken (tileOf s i) (vDbuf v) = true →
        NextWith (exec (.mov i slot ⟨v, wait⟩) s) fun t => t.mem = s.mem ∧ waitsIn (tileOf t i) slot = true ∧
          movedRows t i = 0 ∧ outBuf (tileOf t i) (vDbuf v) = b) ∧
      (outTaken (tileOf s i) (vDbuf v) = false → b.rows.length + vRows v ≤ 64 →
        NextWith (exec (.mov i slot ⟨v, wait⟩) s) fun t => Issued s t i slot (movInfo v) v wait ∧ t.mem = s.mem ∧
          (outBuf (tileOf t i) (vDbuf v)).rows.map (·.bytes) = b.rows.map (·.bytes) ++
            (List.range (vRows v)).map fun k => memRead s (spmAddr i ((fld v 42 13 + k) * rowBytes)) rowBytes) ∧
      (outTaken (tileOf s i) (vDbuf v) = false → b.rows.length ≤ 64 → 64 < b.rows.length + vRows v →
        NextWith (exec (.mov i slot ⟨v, wait⟩) s) fun t => t.mem = s.mem ∧ waitsIn (tileOf t i) slot = true ∧
          movedRows t i = 64 - b.rows.length ∧ (tileOf t i).eng.issued = (tileOf s i).eng.issued ∧
          (outBuf (tileOf t i) (vDbuf v)).rows.length = 64)) ∧
    (Issuable s i slot (movInfo v) v → vDrop v = true →
      NextWith (exec (.drop i slot v) s) fun t => Issued s t i slot (movInfo v) v ∧
        inBuf (tileOf t i) (vSbuf v) = dropPacket (inBuf (tileOf s i) (vSbuf v)) ∧
        (∀ b, b ≠ vSbuf v → inBuf (tileOf t i) b = inBuf (tileOf s i) b) ∧ t.mem = s.mem ∧
        t = { s with tiles := t.tiles } ∧ ∀ j, j ≠ (i : Nat) → tileOf t j = tileOf (atStamp s i v) j)

/-- MOV to and from a near channel (R123, R124, R187, R188): one outside the refresh and mirror slots that meets no other
transfer of the beat copies its rows and is noted on its field; in such a slot it traps with 0x0D; where it meets another
transfer both requesters trap with 0x07, and the earlier transfer's pieces of those cc are not performed. -/
def Obligations.NearMovesTransferTheirRows : Prop :=
  ∀ (s : State) (i : SiteId) (slot : Fin 8192) (v : BitVec 128) (wait : Nat) (me : NearXfer),
    Issuable s i slot (movInfo v) v wait → waitsIn (tileOf s i) slot = false → vDrop v = false → (vSk v = 2 ∨ vDk v = 2) →
    me = { site := i, slot := slot, ch := vCh v, cc := stampOf v, rows := vRows v, off := vOff v
           write := vDk v = 2, dst := fld v 55 13 } →
    let hits := (fieldOf s (siteField i)).xfers.filter fun o =>
      (o.site ≠ (i : Nat) || o.slot ≠ (slot : Nat)) && xferMeets me o
    let p := atStamp (modField s (siteField i) fun y => { y with xfers := y.xfers ++ [xferOld s me] }) i v wait
    let cc := actCc s i v wait
    let at_ := writeAt (tileOf p i) (movInfo v) cc 0
    (nearSlotHit s (vCh v) (stampOf v) (vRows v) = false → hits = [] →
      (∀ k < vRows v, nearAllowed s i (vCh v) (vOff v + k) (vDk v = 2) = true) →
      (vSk v = 0 → vDk v = 2 →
        NextWith (exec (.mov i slot ⟨v, wait⟩) s) fun t => Issued s t i slot (movInfo v) v wait ∧
          (let q := readRows p i (fld v 42 13) cc 4 (vRows v)
           t.mem = (applyWrs at_ q.1 i 0 (atSite i (q.2.zipIdx.map fun r => Wr.near (vCh v) (vOff v + r.2) r.1))).mem) ∧
          (fieldOf t (siteField i)).xfers.getLast? = some (xferOld s me)) ∧
      (vSk v = 2 → vDk v = 0 → CarryFree s i (fld v 55 13) (vRows v) →
        NextWith (exec (.mov i slot ⟨v, wait⟩) s) fun t => Issued s t i slot (movInfo v) v wait ∧
          (let q := readNear p i (vCh v) (vOff v) (vRows v)
           t.mem = (applyWrs at_ q.1 i 0 (atSite i (wrRows (fld v 55 13) (q.2.map fun r => (r.bytes, r.psn))))).mem) ∧
          (fieldOf t (siteField i)).xfers.getLast? = some (xferOld s me))) ∧
    (nearSlotHit s (vCh v) (stampOf v) (vRows v) = true →
      exec (.mov i slot ⟨v, wait⟩) s = .next (trapTile (atStamp s i v wait) i 0x0D (.slot slot))) ∧
    (nearSlotHit s (vCh v) (stampOf v) (vRows v) = false → hits ≠ [] →
      NextWith (exec (.mov i slot ⟨v, wait⟩) s) fun t =>
        t.mem = (hits.foldl (fun u o => trapTile (undoXfer u me o) o.site 0x07 (.slot o.slot)) s).mem ∧
        (tileOf t i).st = .halted ∧ ∀ o ∈ hits, (tileOf t o.site).st = .halted)

/-- SEND and RECV verbs (R125, R190, R193, R196): a send over an open channel with a credit takes the credit, counts and
queues the descriptor's packet as a request; a receive takes the head of its queue and writes its four words. -/
def Obligations.ChannelVerbsMoveOneDescriptor : Prop :=
  ∀ (s : State) (i : SiteId) (slot : Fin 8192) (v : BitVec 128) (wait : Nat),
    (∀ d u q, Issuable s i slot (chanInfo false v) v wait →
      q = readRows (atStamp s i v wait) i (fld v 37 13) (actCc s i v wait) 1 1 →
      d = seqAt (rowsNat q.2) 256 (fld v 50 4) → chanSend q.1 i (fld v 32 5) d = .sent u →
      NextWith (exec (.send i slot ⟨v, wait⟩) s) fun t => Issued s t i slot (chanInfo false v) v wait ∧ t.mem = s.mem ∧
        (sendOf (tileOf t i) (fld v 32 5)).credits + 1 = (sendOf (tileOf s i) (fld v 32 5)).credits ∧
        (sendOf (tileOf t i) (fld v 32 5)).seq = (sendOf (tileOf s i) (fld v 32 5)).seq + 1 ∧
        (sendOf (tileOf t i) (fld v 32 5)).sent = (sendOf (tileOf s i) (fld v 32 5)).sent + 1) ∧
    (∀ d q, Issuable s i slot (chanInfo true v) v wait → CarryFree s i (fld v 37 13) 1 →
      Settled s i (actCc s i v wait) (fld v 37 13) 1 →
      (recvOf (tileOf s i) (fld v 32 5)).queue = d :: q →
      NextWith (exec (.recv i slot ⟨v, wait⟩) s) fun t => Issued s t i slot (chanInfo true v) v wait ∧
        (recvOf (tileOf t i) (fld v 32 5)).queue.take q.length = q ∧
        memRead t (spmAddr i (fld v 37 13 * rowBytes + 32 * fld v 50 4)) 32 = leBytes 32 d.toNat ∧
        ((∀ x, queueOf (ringOf s (siteRing i)) x = []) → (recvOf (tileOf t i) (fld v 32 5)).queue = q ∧
          (recvOf (tileOf t i) (fld v 32 5)).recvd = (recvOf (tileOf s i) (fld v 32 5)).recvd + 1 ∧
        ∀ a, (a < spmAddr i (fld v 37 13 * rowBytes + 32 * fld v 50 4) ∨
          spmAddr i (fld v 37 13 * rowBytes + 32 * fld v 50 4 + 32) ≤ a) → memByte t a = memByte s a))

/-- The memory-side verbs (R131, R132, R310, R313): CCOUNT leaves its count in its word and no other byte of memory changed;
a CHECK of clean rows that agree leaves the beat as it is, one that disagrees fails it with the mechanism of its mode, and
no mode writes memory. -/
def Obligations.CountsAndChecksReport : Prop :=
  (∀ (s : State) (i : SiteId) (slot : Fin 8192) (v : BitVec 128) (s₁ : State) (rs : List RowRd),
     Issuable s i slot (ccountInfo v) v → CarryFree s i (fld v 104 13) 1 →
     Settled s i (actCc s i v) (fld v 104 13) 1 →
     srcRows (atStamp s i v) i (cc131Src v) (fld v 32 13) (actCc s i v) ⟨0, rowsOf (cc131N v) (fbits (cc131Type v)), 1, 1, 0⟩
       (rowsOf (cc131N v) (fbits (cc131Type v))) =
       some (s₁, rs) →
     (∀ e < cc131N v, byteValid rs (fbits (cc131Type v) * e / 8) = true) →
     NextWith (exec (.ccount i slot v) s) fun t => Issued s t i slot (ccountInfo v) v ∧
       memRead64 t (spmAddr i (fld v 104 13 * rowBytes + 8 * fld v 117 6)) =
         ((List.range (cc131N v)).filter fun e => ccHolds (fld v 69 3)
           (decElem (cc131Type v) (seqAt (rowsNat rs) (fbits (cc131Type v)) e))
           (decElem (cc131Type v) (fldN (fld v 72 32) 0 (fbits (cc131Type v))))).length ∧
       ∀ a, (a < spmAddr i (fld v 104 13 * rowBytes + 8 * fld v 117 6) ∨
         spmAddr i (fld v 104 13 * rowBytes + 8 * fld v 117 6 + 8) ≤ a) → memByte t a = memByte s a) ∧
  ∀ (s : State) (i : SiteId) (slot : Fin 8192) (v : BitVec 128), Issuable s i slot (checkInfo v) v →
    (chkMode v = 0 → CleanRows s i (actCc s i v) [(chkX v + chkN v, 4)] →
      let ps := readRows (atStamp s i v) i (chkX v + chkN v) (actCc s i v) 1 2
      let w := rowsNat (ps.2 ++ (readRows ps.1 i (chkX v + chkN v + 2) (actCc s i v) 1 2).2)
      let ok := !(tileOf s i).spm.unsummed.contains (chkX v + chkN v) && sumsAgree (fldN w 0 4096) (fldN w 8192 4096) &&
        sumsAgree (fldN w 4096 4096) (fldN w 12288 4096)
      NextWith (exec (.checkCsum i slot v) s) fun t => Issued s t i slot (checkInfo v) v ∧ t.mem = s.mem ∧
        (ok = true → VerbFrame s t i v ∧ t.box.staging = s.box.staging) ∧
        (∀ n u, ok = false → ringTen s (siteRing i) = some n → (tenOf s n).run = some u →
          (tenOf t n).run = some { u with fails := NSet.add u.fails mechCsum, involved := NSet.add u.involved i })) ∧
    (chkMode v = 1 → CleanRows s i (actCc s i v) [(chkX v, chkN v), (chkY v, chkN v)] →
      let ok := (List.range (chkN v)).all fun k =>
        memRead s (spmAddr i ((chkX v + k) * rowBytes)) rowBytes = memRead s (spmAddr i ((chkY v + k) * rowBytes)) rowBytes
      NextWith (exec (.checkCmp i slot v) s) fun t => Issued s t i slot (checkInfo v) v ∧ t.mem = s.mem ∧
        (ok = true → VerbFrame s t i v ∧ t.box.staging = s.box.staging) ∧
        (∀ n u, ok = false → ringTen s (siteRing i) = some n → (tenOf s n).run = some u →
          (tenOf t n).run = some { u with
            fails := NSet.add u.fails mechCmp, involved := NSet.add u.involved i, cmpSites := NSet.add u.cmpSites i })) ∧
    (chkMode v = 2 → Settled s i (actCc s i v) (chkX v) (chkN v) → (∀ k < chkN v, corrWords s i (chkX v + k) = 0 ∧ deadWords s i (chkX v + k) = []) →
      NextWith (exec (.checkPoison i slot v) s) fun t => Issued s t i slot (checkInfo v) v ∧ t.mem = s.mem ∧
        (CleanRows s i (actCc s i v) [(chkX v, chkN v)] → VerbFrame s t i v ∧ t.box.staging = s.box.staging) ∧
        (∀ n u k, k < chkN v → (tileOf s i).spm.priorWords = [] → poisonWords s i (chkX v + k) ≠ [] → ringTen s (siteRing i) = some n →
          (tenOf s n).run = some u →
          (tenOf t n).run = some { u with fails := NSet.add u.fails mechPoison, involved := NSet.add u.involved i }))

/-- Dynamic verbs (R107, R115, R140, R163, R189): the head of the queue starts when its unit is free, no other entry of the
scoreboard holds its rows, the next scheduled verb of the unit leaves it room, and the beat has the port cycles and channel
windows it needs; its accesses come in the cc that those leave it, and a head that may not start, for the drain rule either, stays. -/
def Obligations.DynamicVerbsStartAtTheHead : Prop :=
  ∀ (s : State) (i : SiteId) (cc : Nat) (d : DynVerb),
    let u := pruneAt s i cc
    let x := verbInfo d.verb
    let e := (tileOf u i).eng
    let next := if e.past = 0 then nextStamp u (tileOf u i) (fun v => (verbInfo v).unit) x.unit cc else windowAt u
    (tileOf u i).stopped = false → halts u (siteRing i) = false → ((tileOf u i).st = .running ∨ (tileOf u i).st = .replay) →
    mirrorOn u i = false → (tileOf u i).dynQ.find? (fun d => d.done.isNone) = some d →
    (dynTimes verbInfo u i x cc = none → exec (.dynamicVerbStart i cc) s = .next u) ∧
    (∀ P v, dynTimes verbInfo u i x cc = some P → v = setShift u i P.shift →
      let at_ := writeAt (tileOf v i) x cc P.late
      ((unitHeld e x.unit cc = true ∨ boardFree u i x d.tag = false ∨ next < P.occ) →
        exec (.dynamicVerbStart i cc) s = .next u) ∧
      (unitHeld e x.unit cc = false → boardFree u i x d.tag = true → P.occ ≤ next →
        (∀ c, verbEff v i d.verb cc = .trap c →
          exec (.dynamicVerbStart i cc) s = .next (if c = 0x09 then u else trapTile u i c .dyn)) ∧
        (∀ f ws m y, verbEff v i d.verb cc = .wait f ws m y → exec (.dynamicVerbStart i cc) s =
          .next (setWait (setShift (applyWrs at_ f i 0 ws) i []) i { y with unit := 2 })) ∧
        ∀ f ws, verbEff v i d.verb cc = .done f ws →
          (carryHit v ws = true → exec (.dynamicVerbStart i cc) s = .next (trapTile u i 0x05 .dyn)) ∧
          (carryHit v ws = false → ∀ w, w = applyWrs at_ f i 0 ws →
            NextWith (exec (.dynamicVerbStart i cc) s) fun t => t.mem = w.mem ∧
              (x.unit ≠ .none → unitTo (tileOf t i).eng x.unit = max P.occ (cc + 1)) ∧
              (tileOf t i).eng.ports = (tileOf w i).eng.ports ++ P.ports ∧
              (tileOf t i).eng.drainTo = (tileOf w i).eng.drainTo + (if x.unit = .engine then P.late else 0) ∧
              (tileOf t i).dynQ = (tileOf w i).dynQ.map fun e =>
                if e.tag = d.tag && e.done.isNone then { e with done := some P.done } else e)))

/-- Arithmetic and logic of the scalar core (R65, R135, R137): every FN of ALU and every immediate form. -/
def Obligations.ScalarArithmeticWritesItsRegister : Prop :=
  ∀ (s : State) (i : SiteId) (w : BitVec 32), Executes s i w →
    let t₀ := tileOf s i
    let a := gReg t₀ (opRa w)
    let b := gReg t₀ (opRb w)
    (opFn w ≤ 13 → NextWith (exec (.alu i w) s) fun t => ∃ x, WritesG s t i (opRd w) x ∧
      (opFn w = 0 → x = a + b) ∧ (opFn w = 1 → x = a - b) ∧ (opFn w = 2 → x = a &&& b) ∧ (opFn w = 3 → x = a ||| b) ∧
      (opFn w = 4 → x = a ^^^ b) ∧ (opFn w = 5 → x = a <<< (b.toNat % 64)) ∧ (opFn w = 6 → x = a >>> (b.toNat % 64)) ∧
      (opFn w = 7 → x = a.sshiftRight (b.toNat % 64)) ∧ (opFn w = 8 → x = a * b) ∧
      (opFn w = 9 → x.toNat = a.toNat * b.toNat / 2 ^ 64) ∧
      (opFn w = 10 → x.toInt = min a.toInt b.toInt) ∧ (opFn w = 11 → x.toInt = max a.toInt b.toInt) ∧
      (opFn w = 12 → x.toNat = min a.toNat b.toNat) ∧ (opFn w = 13 → x.toNat = max a.toNat b.toNat)) ∧
    (13 < opFn w → exec (.alu i w) s = .next (trapTile s i 0x01 .scalar)) ∧
    NextWith (exec (.addi i w) s) (WritesG s · i (opRd w) (a + (w.extractLsb' 0 12).signExtend 64)) ∧
    NextWith (exec (.andi i w) s) (WritesG s · i (opRd w) (a &&& (w.extractLsb' 0 12).setWidth 64)) ∧
    NextWith (exec (.ori i w) s) (WritesG s · i (opRd w) (a ||| (w.extractLsb' 0 12).setWidth 64)) ∧
    NextWith (exec (.xori i w) s) (WritesG s · i (opRd w) (a ^^^ (w.extractLsb' 0 12).setWidth 64)) ∧
    NextWith (exec (.shli i w) s) (WritesG s · i (opRd w) (a <<< (w.toNat % 64))) ∧
    NextWith (exec (.shri i w) s) (WritesG s · i (opRd w) (a >>> (w.toNat % 64))) ∧
    NextWith (exec (.srai i w) s) (WritesG s · i (opRd w) (a.sshiftRight (w.toNat % 64))) ∧
    NextWith (exec (.lui i w) s) (WritesG s · i (opRd w) ((w.extractLsb' 0 17).signExtend 64 <<< 12))

/-- CMP, PLOG and the jumps (R135, R137): a predicate is written, p0 staying true, and nothing else but the pc; BR, JAL
and JR set the pc relative to the instruction or to the register, and JAL keeps the return address. -/
def Obligations.PredicatesAndJumps : Prop :=
  ∀ (s : State) (i : SiteId) (w : BitVec 32), Executes s i w →
    let t₀ := tileOf s i
    let a := gReg t₀ (opRa w)
    let b := gReg t₀ (opRb w)
    let pc := BitVec.ofNat 64 t₀.core.pc
    NextWith (exec (.br i w) s) (fun t => CoreFrame s t i ∧
      (tileOf t i).core = { t₀.core with pc := (pc + (w.extractLsb' 0 22).signExtend 64).toNat }) ∧
    NextWith (exec (.jal i w) s) (fun t => CoreFrame s t i ∧
      (tileOf t i).core.pc = (pc + (w.extractLsb' 0 17).signExtend 64).toNat ∧
      (tileOf t i).core.pred = t₀.core.pred ∧
      ∀ k, gReg (tileOf t i) k = if k = opRd w ∧ k ≠ 0 then pc + 1 else gReg t₀ k) ∧
    NextWith (exec (.jr i w) s) (fun t => CoreFrame s t i ∧
      (tileOf t i).core = { t₀.core with pc := (gReg t₀ (opRa w)).toNat }) ∧
    (fld w 17 2 = 0 → opFn w ≤ 5 → NextWith (exec (.cmp i w) s) fun t => CoreFrame s t i ∧
      (tileOf t i).core.pc = t₀.core.pc + 1 ∧ (tileOf t i).core.g = t₀.core.g ∧
      ∀ k < 8, pReg (tileOf t i) k = if k = fld w 19 3 ∧ k ≠ 0 then
        (match opFn w with
          | 0 => decide (a = b) | 1 => decide (a ≠ b) | 2 => decide (a.toInt < b.toInt)
          | 3 => decide (a.toInt ≤ b.toInt) | 4 => decide (a.toNat < b.toNat) | _ => decide (a.toNat ≤ b.toNat))
        else pReg t₀ k) ∧
    (fld w 17 2 ≠ 0 ∨ 5 < opFn w → exec (.cmp i w) s = .next (trapTile s i 0x01 .scalar)) ∧
    (fld w 0 11 = 0 → NextWith (exec (.plog i w) s) fun t => CoreFrame s t i ∧
      (tileOf t i).core.pc = t₀.core.pc + 1 ∧ (tileOf t i).core.g = t₀.core.g ∧
      ∀ k < 8, pReg (tileOf t i) k = if k = fld w 19 3 ∧ k ≠ 0 then
        (match fld w 11 2 with
          | 0 => pReg t₀ (fld w 16 3) && pReg t₀ (fld w 13 3) | 1 => pReg t₀ (fld w 16 3) || pReg t₀ (fld w 13 3)
          | 2 => pReg t₀ (fld w 16 3) ^^ pReg t₀ (fld w 13 3) | _ => pReg t₀ (fld w 16 3) && !pReg t₀ (fld w 13 3))
        else pReg t₀ k) ∧
    (fld w 0 11 ≠ 0 → exec (.plog i w) s = .next (trapTile s i 0x01 .scalar))

/-- LD and ST (R62, R138, R140, R148, R151, R155, R160, R317): in a narrow slot of the core's own a word is read into its
register as it stands at that cc, or stored from one, and no other byte of memory changes; in any other cc the core stalls, and
in its sideshow window; an address past the scratchpad traps with 0x0E, a store into the carry copy with 0x05, and a word that
a dynamic verb still holds at that cc makes the core wait. -/
def Obligations.NarrowLoadsAndStores : Prop :=
  ∀ (s : State) (i : SiteId) (w : BitVec 32) (cc : Nat), Executes s i w →
    let p := pruneAt s i cc
    let t₀ := tileOf p i
    let n := (gReg t₀ (opRa w) + (w.extractLsb' 0 12).signExtend 64).toNat
    let slot := coreSlot t₀ cc = true ∧ coreHeld p i cc = false
    let later := laterWrites t₀ (n / 64) cc true
    (393216 ≤ n → exec (.ld i ⟨w, cc⟩) s = .next (trapTile p i 0x0E .scalar) ∧
      exec (.st i ⟨w, cc⟩) s = .next (trapTile p i 0x0E .scalar)) ∧
    (n < 393216 → ldWaits t₀ (n / 64) = true ∨ ¬ slot → exec (.ld i ⟨w, cc⟩) s = .next p) ∧
    (n < 393216 → ldWaits t₀ (n / 64) = false → slot → Settled s i cc (n / 64) 1 →
      NextWith (exec (.ld i ⟨w, cc⟩) s) fun t => t.mem = s.mem ∧ (tileOf t i).core.pc = t₀.core.pc + 1 ∧
        (tileOf t i).core.slotAt = some cc ∧
        ∀ k, gReg (tileOf t i) k = if k = opRd w ∧ k ≠ 0 then
          (if n % 64 ∈ poisonWords s i (n / 64) then 0 else BitVec.ofNat 64 (memRead64 s (spmAddr i (8 * n))))
          else gReg t₀ k) ∧
    (∀ o, n < 393216 → ldWaits t₀ (n / 64) = false → slot → oldRow t₀ (n / 64) cc = some o →
      NextWith (exec (.ld i ⟨w, cc⟩) s) fun t => t.mem = s.mem ∧ (tileOf t i).core.pc = t₀.core.pc + 1 ∧
        ∀ k, gReg (tileOf t i) k = if k = opRd w ∧ k ≠ 0 then
          (if n % 64 ∈ o.psn then 0 else BitVec.ofNat 64 (leNat ((o.bytes.drop (8 * (n % 64))).take 8)))
          else gReg t₀ k) ∧
    (n < 393216 → stWaits p i (n / 64) = true ∨ ¬ slot → exec (.st i ⟨w, cc⟩) s = .next p) ∧
    (n < 393216 → stWaits p i (n / 64) = false → slot → carryBroken t₀ (n / 64) 1 = true →
      exec (.st i ⟨w, cc⟩) s = .next (trapTile p i 0x05 .scalar)) ∧
    (n < 393216 → stWaits p i (n / 64) = false → slot → carryBroken t₀ (n / 64) 1 = false →
      NextWith (exec (.st i ⟨w, cc⟩) s) fun t =>
        (if lasting later [n % 64] = [] then t.mem = s.mem
         else memRead64 t (spmAddr i (8 * n)) = (gReg t₀ (opRd w)).toNat) ∧
        (∀ a, (a < spmAddr i (8 * n) ∨ spmAddr i (8 * n) + 8 ≤ a) → memByte t a = memByte s a) ∧
        (tileOf t i).core.pc = t₀.core.pc + 1 ∧ (tileOf t i).core.g = t₀.core.g ∧
        t = { s with tiles := t.tiles, mem := t.mem, poison := t.poison, latent := t.latent } ∧
        ∀ j, j ≠ (i : Nat) → tileOf t j = tileOf p j)

/-- The scalar core's channel, dynamic-verb and register instructions (R65, R139, R140, R141, R163): QLEN, RDREG, RDTIME,
SBWAIT, SEND, RECV and ISSUE. -/
def Obligations.ScalarUnitInstructionsTakeEffect : Prop :=
  ∀ (s : State) (i : SiteId) (w : BitVec 32), Executes s i w →
    let t₀ := tileOf s i
    (fld w 0 12 = 0 → NextWith (exec (.qlen i w) s)
      (WritesG s · i (opRd w) (BitVec.ofNat 64 (recvOf t₀ (opRa w)).queue.length))) ∧
    NextWith (exec (.rdtime i w) s) (WritesG s · i (opRd w) (BitVec.ofNat 64 s.time.beatStart)) ∧
    (fld w 0 3 = 0 → NextWith (exec (.rdreg i w) s) fun t =>
      (∀ k, gReg (tileOf t i) k = if k = opRd w ∧ k ≠ 0 then BitVec.ofNat 64 (tileReg s i (fld w 0 12)) else gReg t₀ k) ∧
      (tileOf t i).core.pc = t₀.core.pc + 1 ∧ t = { s with tiles := t.tiles } ∧
      tileOf t i = { readClears t₀ (fld w 0 12) with core := (tileOf t i).core }) ∧
    (fld w 0 3 ≠ 0 → exec (.rdreg i w) s = .next (trapTile s i 0x01 .scalar)) ∧
    (t₀.sb.length ≤ fld w 0 5 → NextWith (exec (.sbwait i w) s) fun t => CoreFrame s t i ∧
      (tileOf t i).core = { t₀.core with pc := t₀.core.pc + 1 }) ∧
    (fld w 0 5 < t₀.sb.length → exec (.sbwait i w) s = .next s) ∧
    (∀ u, fld w 0 12 = 0 → opRd w ≤ 28 →
      chanSend s i (opRa w) (packN 64 ((List.range 4).map fun k => (gReg t₀ (opRd w + k)).toNat)) = .sent u →
      NextWith (exec (.scalarSend i w) s) fun t => (tileOf t i).core.pc = t₀.core.pc + 1 ∧ t.mem = s.mem ∧
        (sendOf (tileOf t i) (opRa w)).credits + 1 = (sendOf t₀ (opRa w)).credits ∧
        (sendOf (tileOf t i) (opRa w)).sent = (sendOf t₀ (opRa w)).sent + 1) ∧
    (fld w 0 12 = 0 → opRd w ≤ 28 →
      chanSend s i (opRa w) (packN 64 ((List.range 4).map fun k => (gReg t₀ (opRd w + k)).toNat)) = .format →
      exec (.scalarSend i w) s = .next (trapTile s i 0x03 .scalar)) ∧
    (fld w 0 12 = 0 → 28 < opRd w → exec (.scalarSend i w) s = .next (trapTile s i 0x0F .scalar) ∧
      exec (.scalarRecv i w) s = .next (trapTile s i 0x0F .scalar)) ∧
    (∀ d q, fld w 0 12 = 0 → opRd w ≤ 28 → (recvOf t₀ (opRa w)).queue = d :: q →
      NextWith (exec (.scalarRecv i w) s) fun t => (tileOf t i).core.pc = t₀.core.pc + 1 ∧
        (recvOf (tileOf t i) (opRa w)).queue.take q.length = q ∧
        ∀ k < 4, opRd w + k ≠ 0 → gReg (tileOf t i) (opRd w + k) = d.extractLsb' (64 * k) 64) ∧
    (fld w 0 12 = 0 → opRd w ≤ 28 → (recvOf t₀ (opRa w)).queue = [] →
      NextWith (exec (.scalarRecv i w) s) fun t => t.mem = s.mem ∧ (tileOf t i).core = t₀.core) ∧
    (∀ v x, opRa w % 2 = 0 →
      v = BitVec.ofNat 128 ((gReg t₀ (opRa w)).toNat + (gReg t₀ (opRa w + 1)).toNat * 2 ^ 64) → x = verbInfo v →
      x.trap = none → x.never = false → entryRoom t₀ (x.writes.filter fun r => r.2 ≠ 0).length = true →
      (∀ j, fused s i x.unit = some j → entryRoom (tileOf s j) (x.writes.filter fun r => r.2 ≠ 0).length = true) →
      (t₀.dynQ.filter fun d => d.done.isNone).length < 16 →
      NextWith (exec (.issue i w) s) fun t => (tileOf t i).core.pc = t₀.core.pc + 1 ∧ t.mem = s.mem ∧
        (tileOf t i).dynQ.map (·.verb) = t₀.dynQ.map (·.verb) ++ [v] ∧
        (tileOf t i).sb.length = t₀.sb.length + (x.writes.filter fun r => r.2 ≠ 0).length) ∧
    (opRa w % 2 = 1 → exec (.issue i w) s = .next (trapTile s i 0x0F .scalar))

/-- The guard and the pc of every scalar instruction, TRAP, END and illegal instructions (R135 to R138, R141): where the
guard fails only the pc goes on, past the last instruction memory word the tile traps with 0x01, a core that does not run, or
that the sideshow window holds (R317), does nothing; a trap halts the tile with its code, and END idles the core until the tick. -/
def Obligations.ScalarControlGuardsTrapsAndEnds : Prop :=
  (∀ (s : State) (i : SiteId) (w : BitVec 32), Executes s i w →
    NextWith (exec (.trap i w) s) (fun t => (tileOf t i).st = .halted ∧ (tileOf t i).trap.code = 0x11 ∧
      (tileOf t i).trap.scalar = true ∧ (tileOf t i).trap.sw = w.extractLsb' 0 16 ∧
      (tileOf t i).trap.pc = (tileOf s i).core.pc ∧ (tileOf t i).err = ((tileOf s i).err ||| 0x80) ∧ t.mem = s.mem) ∧
    NextWith (exec (.endCore i w) s) (fun t => CoreFrame s t i ∧
      (tileOf t i).core = { (tileOf s i).core with ended := true }) ∧
    NextWith (exec (.illegalInstruction i w) s) (fun t => (tileOf t i).st = .halted ∧ (tileOf t i).trap.code = 0x01 ∧
      (tileOf t i).trap.scalar = true ∧ (tileOf t i).err = ((tileOf s i).err ||| 0x80) ∧ t.mem = s.mem)) ∧
  ∀ (s : State) (i : SiteId) (w : BitVec 32) (cc : Nat) (c : Instr),
    c ∈ [.addi i w, .andi i w, .ori i w, .xori i w, .shli i w, .shri i w, .srai i w, .lui i w, .ld i ⟨w, cc⟩, .st i ⟨w, cc⟩,
      .br i w, .jal i w, .jr i w, .issue i w, .sbwait i w, .rdtime i w, .rdreg i w, .trap i w, .endCore i w] ∨
    (c = .alu i w ∧ opFn w ≤ 13) ∨ (c = .cmp i w ∧ fld w 17 2 = 0 ∧ opFn w ≤ 5) ∨ (c = .plog i w ∧ fld w 0 11 = 0) ∨
    (c ∈ [.scalarSend i w, .scalarRecv i w, .qlen i w] ∧ fld w 0 12 = 0) →
    let bad := (tileOf s i).badParity.contains (2 ^ 16 + (tileOf s i).core.pc)
    let runs := coreRuns (tileOf s i) = true ∧ halts s (siteRing i) = false ∧ coreHeld s i (beatCc s) = false
    (¬ runs → exec c s = .next s) ∧
    (runs → bad = true → exec c s = .next (trapTile s i 0x13 .scalar)) ∧
    (runs → bad = false → 16384 ≤ (tileOf s i).core.pc → exec c s = .next (trapTile s i 0x01 .scalar)) ∧
    (runs → bad = false → (tileOf s i).core.pc < 16384 → guardOk (tileOf s i) w = false →
      NextWith (exec c s) fun t => CoreFrame s t i ∧
        (tileOf t i).core = { (tileOf s i).core with pc := (tileOf s i).core.pc + 1 })

/-- The narrow slot (R148, R161, R162, R169): of every fourth cc that no access of the core has taken, a Module Address word
that waits takes those that are not the scrubber's own, in a FENCED tile too, whose scrubber rests; else the scrubber reads its next row, and the slot after a row that
needed correction writes that row back. -/
def Obligations.NarrowSlotScrubsInTurn : Prop :=
  ∀ (s : State) (i : SiteId) (cc : Nat), cc % 4 = 0 → (ringOf s (siteRing i)).supply = 0 →
    (tileOf s i).core.slotAt ≠ some cc →
    let x := (tileOf s i).spm
    (cc % 64 ≠ 60 → x.maDue ≠ 0 →
      NextWith (exec (.narrowAccess i cc) s) fun t => t.mem = s.mem ∧ (tileOf t i).core.slotAt = some cc ∧
        (tileOf t i).spm = { x with maDue := x.maDue - 1 }) ∧
    (cc % 64 = 60 ∨ x.maDue = 0 → (tileOf s i).st = .fenced → exec (.narrowAccess i cc) s = .next (pruneAt s i cc)) ∧
    (cc % 64 = 60 ∨ x.maDue = 0 → (tileOf s i).st ≠ .fenced →
      (∀ r, x.writeback = some r →
        NextWith (exec (.narrowAccess i cc) s) fun t => (tileOf t i).spm.writeback = none ∧ t.mem = s.mem ∧
          (∀ l : Nat, rowLane i r ≤ l → l < rowLane i r + 64 → (l - rowLane i r) ∉ deadWords s i r → latentAt t l = none)) ∧
      (x.writeback = none → x.hints = [] → corrWords s i x.scrubRow = 0 → deadWords s i x.scrubRow = [] →
        NextWith (exec (.narrowAccess i cc) s) fun t => t.mem = s.mem ∧ (tileOf t i).spm.writeback = none ∧
          (tileOf t i).spm.scrubRow = (x.scrubRow + 1) % 6144) ∧
      (∀ h hs, x.writeback = none → x.hints = h :: hs → corrWords s i h = 0 → deadWords s i h = [] →
        NextWith (exec (.narrowAccess i cc) s) fun t => t.mem = s.mem ∧ (tileOf t i).spm.hints = hs ∧
          (tileOf t i).spm.scrubRow = x.scrubRow))

/-- Mesh words and steering (R52, R53, R57, R58, R59, R127, R128, R129, R174, R176, R178, R199): a word of the tile's epoch goes to
its buffer, a withdrawal header that comes behind its packet discards that packet's rows, a word of another epoch is counted and
dropped, one from the Midway that its buffer does not take stays in the ring's pool while that has room and is deflected where it
has none; a word of a tile leaves the head of its outbound buffer, and traps its sender where
a port of its path is taken; a token waits for its packet, and a packet whose token has come is forwarded behind its
header. -/
def Obligations.MeshWordsArriveAndPacketsAreSteered : Prop :=
  ∀ (s : State) (i : SiteId), halts s (siteRing i) = false → (tileOf s i).stopped = false →
    let held (b : BufId) : Bool := (ringOf s (siteRing i)).words.any fun x => x.site = (i : Nat) && x.buf = (b : Nat)
    let takes (b : BufId) (src : Producer) (w : MeshWord) : Prop := extProducer src = true ∧ mirrorOn s i = false ∧
      held b = false ∧ (tileOf s i).bound = true ∧ w.epoch = (tileOf s i).epoch ∧
      (tileOf s i).st ≠ .replay ∧ (tileOf s i).grace = false ∧
      (inBuf (tileOf s i) b).live.dropped.contains (inBuf (tileOf s i) b).wrPkt = false ∧
      (inBuf (tileOf s i) b).wrw = 0 ∧ pktRows (inBuf (tileOf s i) b).live (inBuf (tileOf s i) b).wrPkt = [] ∧
      (inBuf (tileOf s i) b).live.rows.length < 64
    let head (w : MeshWord) : Nat := leNat (w.bytes.take 8)
    (∀ (b : BufId) (src : Producer) (w : MeshWord), takes b src w →
      w.eop = false ∨ wordVb w ≠ 64 ∨ fldN (head w) 24 3 ≠ 7 →
      NextWith (exec (.meshWord i b src (.whole w)) s) fun t => t.mem = s.mem ∧
        (∃ r, (inBuf (tileOf t i) b).live.rows = (inBuf (tileOf s i) b).live.rows ++ [r] ∧
          r.bytes = padTo 0 512 (w.bytes.take (wordVb w)) ∧ r.count = wordVb w ∧ r.endsPkt = w.eop ∧
          r.pkt = (inBuf (tileOf s i) b).wrPkt) ∧
        (inBuf (tileOf t i) b).rowOpen = !w.eop ∧ (inBuf (tileOf t i) b).last = some src ∧
        ∀ k : Nat, k ≠ b → inBuf (tileOf t i) k = inBuf (tileOf s i) k) ∧
    (∀ (b : BufId) (src : Producer) (w : MeshWord) (n : Nat) (y : Sentence) (r : InRow), takes b src w →
      ringTen s (siteRing i) = some n → (tenOf s n).sentence = some y → y.spec = true → tokenBuf (tileOf s i) b = false →
      w.eop = true → wordVb w = 64 → fldN (head w) 24 3 = 7 → fldN (head w) 27 8 = (tileOf s i).epoch.toNat →
      (inBuf (tileOf s i) b).live.rows = [r] → (inBuf (tileOf s i) b).rd = 0 → r.discard = false →
      tkRule (leNat (r.bytes.take 8)) = tkRule (head w) → tkSeq (leNat (r.bytes.take 8)) = tkSeq (head w) →
      fldN (leNat (r.bytes.take 8)) 25 2 = 2 →
      NextWith (exec (.meshWord i b src (.whole w)) s) fun t => t.mem = s.mem ∧
        (inBuf (tileOf t i) b).live.rows.map (·.discard) = [true, true] ∧
        (inBuf (tileOf t i) b).drops = sat 16 ((inBuf (tileOf s i) b).drops + ceilDiv r.count 64)) ∧
    (∀ (b : BufId) (src : Producer) (w : MeshWord), extProducer src = true → mirrorOn s i = false → held b = false →
      (tileOf s i).bound = true → w.epoch ≠ (tileOf s i).epoch →
      NextWith (exec (.meshWord i b src (.whole w)) s) fun t => t.mem = s.mem ∧
        (tileOf t i).discards = sat 32 ((tileOf s i).discards + 1) ∧
        ∀ k, inBuf (tileOf t i) k = inBuf (tileOf s i) k) ∧
    (∀ (b : BufId) (src : Producer) (w : MeshWord), extProducer src = true → (tileOf s i).bound = true →
      (held b = true ∨ takeWord s i b src w = none) → wordRoom s i = true →
      NextWith (exec (.meshWord i b src (.whole w)) s) fun t => t = { s with rings := t.rings } ∧
        (ringOf t (siteRing i)).words = (ringOf s (siteRing i)).words ++ [{ site := i, buf := b, src := src, word := w }]) ∧
    (∀ (b : BufId) (src : Producer) (w : MeshWord), extProducer src = true → (tileOf s i).bound = true →
      (held b = true ∨ takeWord s i b src w = none) → wordRoom s i = false →
      NextWith (exec (.meshWord i b src (.whole w)) s) fun t => t = { s with rings := t.rings, fields := t.fields } ∧
        (ringOf t (siteRing i)).refused = sat 16 ((ringOf s (siteRing i)).refused + 1) ∧
        (fieldOf t (siteField i)).deflect = sat 24 ((fieldOf s (siteField i)).deflect + 1)) ∧
    (∀ (b o : BufId) (n vr vf vt j cc last arrives : Nat) (path : List Side) (flips : BitVec 512) (w : MeshWord)
        (hs : List Hop),
      ringTen s (siteRing i) = some n → vSite s n vr vf vt = some j → j ≠ (i : Nat) → halts s (siteRing j) = false →
      (tileOf s j).stopped = false → sentWord s j (outBuf (tileOf s j) o) = some w →
      hopsOf s j cc path = some (hs, last, arrives) → hs.any (fun h => dark s (siteRing h.site)) = false →
      destIs (outBuf (tileOf s j) o).dest path (tileOf s i) b = true → (path = [] ∨ last = i) →
      (hs.any (hopTaken s) = true →
        exec (.meshWord i b (.tile vr vf vt) (.sent o cc path flips none)) s = .next (trapTile s j 0x07 (.slot 0xFFFF))) ∧
      (∀ x, hs.any (hopTaken s) = false → mirrorOn s i = false → (path = [] → held b = false) → (tileOf s i).bound = true →
        w.epoch = (tileOf s i).epoch →
        storeWord (inBuf (tileOf s i) b) ((tileOf s i).st = .replay) false
          (w.btag.toNat = ((tileOf s i).sentBeat.toNat + 3) % 4) (.tile vr vf vt) (transit w flips false) = some x →
        NextWith (exec (.meshWord i b (.tile vr vf vt) (.sent o cc path flips none)) s) fun t => t.mem = s.mem ∧
          (let u := modTile s i fun t => setInBuf t b { x with lastAt := (tileOf s i).sentBeat.toNat }
           inBuf (tileOf t i) b = inBuf (tileOf (withdrawHeader u i b (inBuf (tileOf s i) b).wrPkt) i) b) ∧ outBuf (tileOf t j) o = popWord (outBuf (tileOf s j) o) ∧
          (path ≠ [] → (tileOf t i).eng.arriveBy = max (tileOf s i).eng.arriveBy arrives) ∧
          ∀ h ∈ hs, (tileOf t h.site).driven.contains (portKey h) = true)) ∧
    (∀ (b : BufId) (k : Nat) (r : InRow) (tok : Nat), mirrorOn s i = false → coreHeld s i (beatCc s) = false → ((tileOf s i).st = .running ∨ (tileOf s i).st = .replay) →
      (tileOf s i).matchBuf = [] → tokenBuf (tileOf s i) b = true →
      nextToken (inBuf (tileOf s i) b) = some (k, r, tok, false) →
      fldN tok 24 1 = 1 → fldN tok 27 8 = (tileOf s i).epoch.toNat → fldN tok 25 1 = 0 → tkDest tok ≤ 5 →
      NextWith (exec (.steerMatch i (.word b)) s) fun t => t.mem = s.mem ∧
        (tileOf t i).matchBuf = [{ rule := tkRule tok, seq := tkSeq tok, token := some tok }] ∧
        inBuf (tileOf t i) b = passToken (inBuf (tileOf s i) b) k r) ∧
    (∀ (r : Fin 16) (q : SteerRule) (e : MatchEntry) (tok n : Nat) (s₁ : State) (rds : List RowRd),
      mirrorOn s i = false → coreHeld s i (beatCc s) = false → ((tileOf s i).st = .running ∨ (tileOf s i).st = .replay) → (tileOf s i).matchBuf = [e] →
      e.rule = (r : Nat) → e.token = some tok → e.rows = none → e.left = 0 →
      (tileOf s i).rules.find? (fun p => p.1 = (r : Nat)) = some ((r : Nat), q) → e.seq = q.seq % 2 ^ 16 →
      packetRows (inBuf (tileOf s i) q.din) = some n → takeRows s i q.din n = some (s₁, rds) → tkDest tok ≤ 3 →
      (outBuf (tileOf s i) (tkDest tok)).dest.isSome = true →
      min 64 (n + 1) ≤ outRoom (tileOf s i) (tkDest tok) →
      NextWith (exec (.steerMatch i (.packet r)) s) fun t => t.mem = s.mem ∧
        (tileOf t i).matchBuf = (if n ≤ 63 then [] else
          [{ e with rows := some (rds.map rowBack), specDest := none, left := n - 63, undo := none }]) ∧
        (outBuf (tileOf t i) (tkDest tok)).rows = (outBuf (tileOf s i) (tkDest tok)).rows ++
          ((headerRow tok false none :: rowsOut none (rds.map rowBack)).take 64).map fun r =>
            { r with btag := BitVec.ofNat 2 (tileOf s i).sentBeat.toNat })

/-- Routers (R244, R245, R249 to R252, R254, R255, R258): a packet behind another of its lane waits, and one in a lane buffer
leaves its input, older by the time it waited there; one that wins its
output goes on to the neighbour with the rest of its route, a packet at its end is ejected and keeps its
place in its queue (a lost ring answers NACK LOST, for each target that a multicast has there), EJECT_CONT leaves a copy and goes
straight on, a fork sends one copy each way, one too old, unreadable or deflected 255 times is dropped and counted, and one whose outputs are all taken waits. -/
def Obligations.RoutersForwardEjectDropOrWait : Prop :=
  ∀ (s : State) (f : FieldId) (inp : RPort) (p : Packet) (free : List RPort) (x : Flight),
    s.net.find? (IsAt f inp p) = some x → p.crcResent = 0 →
    let gone := eraseIdx1 s.net (IsAt f inp p)
    (onDeck s x = false → exec (.packetRoute f inp p free) s = .next s) ∧
    (onDeck s x = true →
    (p.crcDead = true →
      NextWith (exec (.packetRoute f inp p free) s) fun t => t = { s with net := gone, fields := t.fields } ∧
        (fieldOf t f).dropFmt = sat 8 ((fieldOf s f).dropFmt + 1)) ∧
    (p.crcDead = false → p.urg = false → inp ≠ .loc → 3584 ≤ ageNow s x →
      NextWith (exec (.packetRoute f inp p free) s) fun t => t = { s with net := gone, fields := t.fields } ∧
        (fieldOf t f).dropAge = sat 12 ((fieldOf s f).dropAge + 1)) ∧
    (p.crcDead = false → (p.urg = true ∨ inp = .loc ∨ ageNow s x < 3584) →
      (∀ c, p.route = [4] → p.body = .ctl c →
        NextWith (exec (.packetRoute f inp p free) s) fun t => t = { s with net := gone, fields := t.fields }) ∧
      (∀ d, p.route = [4] → p.body = .data d → wins s f x free .loc = true → ejects s f d = true →
        ((ringOf s (fieldRing f)).ejectOff = false →
          NextWith (exec (.packetRoute f inp p free) s) fun t =>
            t = { s with net := gone, fields := t.fields, rings := t.rings } ∧
            (ringOf t (fieldRing f)).ejected = (ringOf s (fieldRing f)).ejected ++
              (match queueFor s f d with | some q => [(q, d)] | none => [])) ∧
        ((ringOf s (fieldRing f)).ejectOff = true →
          NextWith (exec (.packetRoute f inp p free) s) fun t =>
            (let u := { s with net := gone, fields := t.fields }
             t = if d.dtype = .mcast then
                 (mcTargets f d).foldl (fun u k => answer u { d with dst := k.2 } true nackLost (some k.1)) u
               else answer u d true nackLost))) ∧
      (∀ (d : DataMsg) (rest : List (BitVec 3)) (g : Nat), p.route = 5#3 :: rest → rest ≠ [] → p.body = .data d →
        linkOk s f p.head = true → neighbour f p.head = some g → wins s f x free (.link p.head) = true →
        NextWith (exec (.packetRoute f inp p free) s) fun t =>
          t = { s with net := t.net, fields := t.fields, rings := t.rings } ∧
          (ejects s f d = true → (ringOf s (fieldRing f)).ejectOff = false →
            (ringOf t (fieldRing f)).ejected = (ringOf s (fieldRing f)).ejected ++
              (match queueFor s f d with | some q => [(q, d)] | none => [])) ∧
          (ejects s f d = false → (ringOf t (fieldRing f)).refused = sat 16 ((ringOf s (fieldRing f)).refused + 1)) ∧
          ((ringOf s (fieldRing f)).ejectOff = false → t.net.length = gone.length + 1) ∧
          ∃ y ∈ t.net, y.field = g ∧ y.inp = .link (Side.back p.head) ∧ y.p.route = rest ∧ y.p.head = p.head ∧
            y.p.body = p.body) ∧
      (∀ (c : BitVec 3) (rest a b : List (BitVec 3)) (g h : Nat), p.route = c :: rest → (c = 6 ∨ c = 7) →
        subroute 1 rest = some (a, b) → (subroute 1 b).map (·.2) = some [] →
        let sd := turnSide p.head (c.toNat - 5)
        linkOk s f sd = true → linkOk s f p.head = true → neighbour f sd = some g → neighbour f p.head = some h →
        wins s f x free (.link sd) = true → wins s f x free (.link p.head) = true →
        NextWith (exec (.packetRoute f inp p free) s) fun t => t = { s with net := t.net, fields := t.fields } ∧
          ∃ y z, t.net = gone ++ [y, z] ∧
            y.field = g ∧ y.inp = .link (Side.back sd) ∧ y.p.route = a ∧ y.p.head = sd ∧ y.p.body = p.body ∧
            z.field = h ∧ z.inp = .link (Side.back p.head) ∧ z.p.route = b ∧ z.p.head = p.head ∧ z.p.body = p.body) ∧
      (∀ (c : BitVec 3) (rest : List (BitVec 3)) (g : Nat), p.route = c :: rest → rest ≠ [] → c.toNat ≤ 3 →
        (c = 3 → inp ≠ .loc) → linkOk s f (turnSide p.head c.toNat) = true →
        neighbour f (turnSide p.head c.toNat) = some g →
        (wins s f x free (.link (turnSide p.head c.toNat)) = true →
          NextWith (exec (.packetRoute f inp p free) s) fun t => t = { s with
            fields := t.fields
            net := gone ++ [{ field := g, inp := .link (Side.back (turnSide p.head c.toNat))
                              p := { p with route := rest, head := turnSide p.head c.toNat, det := false
                                            age := min 4095 (ageNow s x + hopCc f (turnSide p.head c.toNat) p) }
                              since := s.time.uptime +
                                hopCc f (turnSide p.head c.toNat) p * 1000 / max 1 s.time.cclkMhz }] }) ∧
        (free = [] → p.urg = false → (p.dcnt ≠ 255 ∨ (p.det = true ∧ c = 3)) →
          exec (.packetRoute f inp p free) s = .next s) ∧
        (free = [] → p.urg = false → (p.det = false ∨ c ≠ 3) → p.dcnt = 255 →
          NextWith (exec (.packetRoute f inp p free) s) fun t => t = { s with net := gone, fields := t.fields } ∧
            (fieldOf t f).dropDcnt = sat 12 ((fieldOf s f).dropDcnt + 1)))))

/-- Descriptors at a tile and at a stream port (R176, R190, R192, R193, R199, R229, R254, R256, R261): one that is next in order
enters its channel's queue, and one that waited in the tile queue follows when its turn has come; at a port one of an older
epoch is discarded and counted, one that is next enters the egress buffer or, of a stream without a binding, is refused, a duplicate is answered as before, and one ahead of its
predecessors waits. -/
def Obligations.DescriptorsEnterTheirChannelInOrder : Prop :=
  ∀ s : State,
    (∀ (f : FieldId) (i : SiteId) (d : DataMsg) (n : Nat), siteField i = (f : Nat) → d.dst = epAddr (siteField i) (siteNo i) →
      MayEnter s (siteRing i) (tileQueue (tileOf s i)) d →
      (∀ e ∈ queueOf (ringOf s (siteRing i)) (tileQueue (tileOf s i)), e.dst = d.dst → e.rch = d.rch →
        e.seq.toNat % 256 = d.seq.toNat % 256 → e = d) →
      ringTen s (siteRing i) = some n → fld d.tspec 208 8 = (tileOf s i).epoch.toNat →
      fld d.tspec 200 8 = (tileOf s i).gen.toNat → (recvOf (tileOf s i) d.rch).expect % 256 = d.seq.toNat % 256 →
      recvClosed (tileOf s i) d.rch = false → srcMatches s n (recvOf (tileOf s i) d.rch) d = true →
      (recvOf (tileOf s i) d.rch).queue.length < 16 → (recvOf (tileOf s i) d.rch).ring = false →
      graceHeld (tileOf s i) d = false →
      NextWith (exec (.desc f d) s) fun t =>
        (recvOf (tileOf t i) d.rch).queue.take ((recvOf (tileOf s i) d.rch).queue.length + 1) =
          (recvOf (tileOf s i) d.rch).queue ++ [d.tspec] ∧
        ∀ c, c ≠ d.rch → recvOf (tileOf t i) c = recvOf (tileOf s i) c) ∧
    (∀ (f : FieldId) (d : DataMsg) (p n : Nat) (b : Binding), epNo d.dst = 77 → epPort d.dst = some p →
      ringTen s (fieldRing (epField d.src)) = some n → egressBinding s n p d = some b →
      (fld d.tspec 208 8 ≠ (tenOf s n).epoch.toNat →
        NextWith (exec (.desc f d) s) fun t => t = { s with rings := t.rings } ∧
          (ringOf t (fieldRing (portField p))).cntEpoch = sat 16 ((ringOf s (fieldRing (portField p))).cntEpoch + 1)) ∧
      (fld d.tspec 208 8 = (tenOf s n).epoch.toNat →
        (agentPos s d = .next → parkedNext (agentGot s d) d = none →
          NextWith (exec (.desc f d) s) fun t => t.mem = s.mem ∧ t.tiles = s.tiles ∧
            (sportOf t p).egress = (sportOf s p).egress ++
              [{ ten := n, beat := descBeat s n d, msg := d, credited := egressRoom (sportOf s p), bind := some b }]) ∧
        (agentPos s d = .dup → exec (.desc f d) s = .next
          (if d.seq.toNat % 256 ∈ SMap.get [] s.agentNack (agentKey d) then answer s d true nackClosed else answer s d false 0)) ∧
        (agentPos s d = .later → (d.seq.toNat + 256 - SMap.get 0 s.agentSeq (agentKey d) % 256) % 256 ≤ 15 →
          d ∉ s.agentPark → exec (.desc f d) s = .next { s with agentPark := s.agentPark ++ [d] }))) ∧
    (∀ (f : FieldId) (d : DataMsg) (p n : Nat), epNo d.dst = 77 → epPort d.dst = some p →
      ringTen s (fieldRing (epField d.src)) = some n → egressBinding s n p d = none →
      fld d.tspec 208 8 = (tenOf s n).epoch.toNat → agentPos s d = .next → parkedNext (agentGot s d) d = none →
      NextWith (exec (.desc f d) s) fun t =>
        t = answer { s with agentSeq := t.agentSeq, agentNack := t.agentNack } d true nackClosed ∧
        (SMap.get [] t.agentNack (agentKey d)).head? = some (d.seq.toNat % 256)) ∧
    (∀ (i : SiteId) (ch : ChId) (d : DataMsg), dark s (siteRing i) = false →
      queueOf (ringOf s (siteRing i)) (tileQueue (tileOf s i)) = [d] → d.dst = epAddr (siteField i) (siteNo i) →
      d.rch = (ch : Nat) → d.seq.toNat % 256 = (recvOf (tileOf s i) ch).expect % 256 →
      (recvOf (tileOf s i) ch).queue.length < 16 → (recvOf (tileOf s i) ch).ring = false →
      graceHeld (tileOf s i) d = false →
      NextWith (exec (.descDelivery i ch) s) fun t => t.mem = s.mem ∧
        (recvOf (tileOf t i) ch).queue = (recvOf (tileOf s i) ch).queue ++ [d.tspec] ∧
        queueOf (ringOf t (siteRing i)) (tileQueue (tileOf t i)) = [])

/-- The ring fence (R18, R23, R39, R224, R255, R256, R264 to R267): an admitted request waits in its queue, a tile's write to an
OUTPUT or MASTER window in a beat whose audit is open is held for its commit; a request for another tenancy is refused and
counted; applying writes the window's bytes or answers with them, the writes of the commit queue first; service packets and
multicast copies enter queue 390. -/
def Obligations.FenceAdmitsHoldsAndApplies : Prop :=
  ∀ (s : State) (r : RingId) (d : DataMsg) (n : Nat),
    (∀ w, MayEnter s r 386 d → FenceOpen s r n d → d.dtype = .wwrite → reqCheck s r n d = .ok w →
      ((provisional (tenOf s n) d && (w.attr = .master || w.attr = .output)) = false →
        NextWith (exec (.wwrite r d) s) fun t => queueOf (ringOf t r) 386 = queueOf (ringOf s r) 386 ++ [d] ∧ t = { s with rings := t.rings }) ∧
      ((provisional (tenOf s n) d && (w.attr = .master || w.attr = .output)) = true →
        NextWith (exec (.wwrite r d) s) fun t => queueOf (ringOf t r) 386 = queueOf (ringOf s r) 386 ∧ t.mem = s.mem ∧
          (ringOf t r).commitQ = (ringOf s r).commitQ ++ [{ msg := d, beat := beatOf (tenOf s n) d }])) ∧
    (∀ w, MayEnter s r 388 d → FenceOpen s r n d → d.dtype = .wread → reqCheck s r n d = .ok w →
      NextWith (exec (.wread r d) s) fun t => queueOf (ringOf t r) 388 = queueOf (ringOf s r) 388 ++ [d] ∧ t = { s with rings := t.rings }) ∧
    (ringTen s r = some n → d.ten.toNat ≠ n →
      (MayEnter s r 386 d →
        NextWith (exec (.wwrite r d) s) fun t => (ringOf t r).cntRefused = sat 16 ((ringOf s r).cntRefused + 1) ∧
          t = { s with rings := t.rings, net := t.net }) ∧
      (MayEnter s r 388 d →
        NextWith (exec (.wread r d) s) fun t => (ringOf t r).cntRefused = sat 16 ((ringOf s r).cntRefused + 1) ∧
          t = { s with rings := t.rings, net := t.net })) ∧
    (∀ w l u, ringTen s r = some n → dark s r = false → applicable s r true = d :: l → d.dtype = .wwrite →
      reqCheck s r n d = .ok w → u = applyReq (takeReq s r true d) r n d →
      (∀ e ∈ queueOf (ringOf u r) 386 ++ queueOf (ringOf u r) 388 ++ queueOf (ringOf u r) 390, admits u r n e = false) →
      NextWith (exec (.fenceApply r true) s) fun t => t.tiles = s.tiles ∧
        t.mem = (winWrite s (tenOf s n) w (reqTa d) d.payload d.psn).mem ∧
        (if (ringOf s r).commitQ.any (fun e => e.released && e.msg = d) then
          (ringOf t r).commitQ = eraseIdx1 (ringOf s r).commitQ (fun e => e.released && decide (e.msg = d)) ∧
          queueOf (ringOf t r) 386 = queueOf (ringOf s r) 386
        else (ringOf t r).commitQ = (ringOf s r).commitQ ∧
          queueOf (ringOf t r) 386 = eraseIdx1 (queueOf (ringOf s r) 386) fun e => decide (e = d))) ∧
    (∀ w l u, ringTen s r = some n → dark s r = false → applicable s r false = d :: l → d.dtype = .wread →
      reqCheck s r n d = .ok w → u = applyReq (takeReq s r false d) r n d →
      (∀ e ∈ queueOf (ringOf u r) 386 ++ queueOf (ringOf u r) 388 ++ queueOf (ringOf u r) 390, admits u r n e = false) →
      (ringOf s r).commitQ.any (fun e => e.released && e.msg = d) = false →
      NextWith (exec (.fenceApply r false) s) fun t => t.mem = s.mem ∧ t.tiles = s.tiles ∧
        queueOf (ringOf t r) 388 = eraseIdx1 (queueOf (ringOf s r) 388) (fun e => decide (e = d)) ∧
        ((routeOf s (epField d.dst) (epField d.src) 41).isSome = true →
          ∃ h ∈ t.net, ∃ m, h.p.body = .data m ∧ m.dtype = .rdata ∧ m.dst = d.src ∧ m.seq = d.seq ∧
            m.payload = winBytes s (tenOf s n) w (reqTa d) d.len)) ∧
    (applicable s r false = [] → exec (.fenceApply r false) s = .next s) ∧
    (MayEnter s r 390 d → TakesTurn s r d → admits (Entered s r d) r ((ringTen s r).getD 64) d = true →
      NextWith (exec (.svc r d) s) fun t => queueOf (ringOf t r) 390 = queueOf (ringOf s r) 390 ++ [d] ∧
        t = { s with rings := t.rings, net := t.net }) ∧
    (dark s r = false → (ringOf s r).ejected.any (fun p => p.2 = d) = false → poolFits s r 390 d = false →
      NextWith (exec (.svc r d) s) fun t => (ringOf t r).refused = sat 16 ((ringOf s r).refused + 1) ∧
        t = { s with rings := t.rings }) ∧
    (dark s r = true → exec (.wwrite r d) s = .next s ∧ exec (.wread r d) s = .next s ∧ exec (.svc r d) s = .next s ∧
      ∀ write, exec (.fenceApply r write) s = .next s) ∧
    (∀ (f : FieldId) (k : Nat) (a : BitVec 16), mcTargets f d = [(k, a)] → darkEp s a = false →
      (fenceSrc s (fieldRing f) (2 ^ 16 + a.toNat * 2 ^ 16 + d.src.toNat)).answers.any (fun p => p.1 = d.seq.toNat) = false →
      poolFits (Entered s (fieldRing f) d) (fieldRing f) 390 d = true →
      NextWith (exec (.mcast f d) s) fun t =>
        queueOf (ringOf t (fieldRing f)) 390 = queueOf (ringOf s (fieldRing f)) 390 ++ [{ d with dst := a }] ∧
        t = { s with rings := t.rings, net := t.net })

/-- Replies, retries and urgent control (R194, R245, R259 to R263, R265, R268, R270): a reply of old generations is counted and dropped;
ACK, NACK and RDATA release the copy that they answer, and a request that a limit held back may go then, an ACK HELD keeps it, and
a reply of one target of a multicast releases that target; a CREDIT raises the credits of a tile or of an agent to what is not
outstanding, and an agent asks for one as a tile does; a due request goes out again until RETRY_MAX, then it is reported. -/
def Obligations.RepliesReleaseCopiesAndRequestsRetry : Prop :=
  ∀ (s : State) (r : RingId),
    (∀ c : CtlMsg, darkEp s c.dst = false → ¬ Agrees s c (answeredTen s c) 29 →
      exec (.ack r c) s = .next (countStale s r) ∧ exec (.nack r c) s = .next (countStale s r)) ∧
    (∀ c : CtlMsg, darkEp s c.dst = false → Agrees s c (answeredTen s c) 29 → fld c.arg 20 1 = 0 → fld c.arg 16 4 ≠ 1 →
      exec (.ack r c) s = .next (releaseHeldReq (setReqs s c.dst (eraseIdx1 (reqsOf s c.dst) (answers c))) c.dst)) ∧
    (∀ c : CtlMsg, darkEp s c.dst = false → Agrees s c (answeredTen s c) 29 → fld c.arg 20 1 = 0 → fld c.arg 16 4 ≠ 1 →
      (∀ q ∈ reqsOf s c.dst, q.sent = true) →
      NextWith (exec (.ack r c) s) fun t => reqsOf t c.dst = eraseIdx1 (reqsOf s c.dst) (answers c) ∧
        t = { s with tiles := t.tiles, agentReqs := t.agentReqs }) ∧
    (∀ c : CtlMsg, darkEp s c.dst = false → Agrees s c (answeredTen s c) 29 → fld c.arg 20 1 = 0 → fld c.arg 16 4 = 1 →
      NextWith (exec (.ack r c) s) fun t =>
        reqsOf t c.dst = (reqsOf s c.dst).map fun x => if answers c x then { x with held := true } else x) ∧
    (∀ c : CtlMsg, darkEp s c.dst = false → Agrees s c (answeredTen s c) 29 → fld c.arg 20 1 = 1 → (∀ q ∈ reqsOf s c.dst, q.sent = true) →
      let clr (x : Req) : Req := if answers c x then
        { x with msg := { x.msg with tspec := x.msg.tspec &&& ~~~(1#256 <<< (16 + fld c.arg 21 3)) } } else x
      let left := ((reqsOf s c.dst).map clr).filter fun x => !(answers c x && fld x.msg.tspec 16 8 = 0)
      (NextWith (exec (.ack r c) s) fun t => reqsOf t c.dst = left ∧ t = { s with tiles := t.tiles, agentReqs := t.agentReqs }) ∧
      NextWith (exec (.nack r c) s) fun t => reqsOf t c.dst = left ∧ t = { s with tiles := t.tiles, agentReqs := t.agentReqs }) ∧
    (∀ c : CtlMsg, darkEp s c.dst = false → Agrees s c (answeredTen s c) 29 → fld c.arg 20 1 = 0 →
      (∀ q ∈ reqsOf s c.dst, q.msg.dtype ≠ .desc ∧ q.sent = true) →
      NextWith (exec (.nack r c) s) fun t => reqsOf t c.dst = eraseIdx1 (reqsOf s c.dst) (answers c) ∧
        t = { s with tiles := t.tiles, agentReqs := t.agentReqs }) ∧
    (∀ (c : CtlMsg) (i : Nat) (x : Req), darkEp s c.dst = false → Agrees s c (answeredTen s c) 29 → epSite c.dst = some i → fld c.arg 16 4 = 1 →
      fld c.arg 20 1 = 0 →
      (tileOf s i).reqs.find? (answers c) = some x → x.msg.dtype = .desc →
      NextWith (exec (.nack r c) s) fun t => (tileOf t i).reqs = eraseIdx1 (tileOf s i).reqs (answers c) ∧
        (sendOf (tileOf t i) (fld c.arg 24 5)).closed = true ∧
        (sendOf (tileOf t i) (fld c.arg 24 5)).credits =
          min 16 ((sendOf (tileOf s i) (fld c.arg 24 5)).credits + 1) ∧ t.mem = s.mem) ∧
    (∀ (c : CtlMsg) (x : Req), darkEp s c.dst = false → Agrees s c (answeredTen s c) 29 → epSite c.dst = none → 72 ≤ epNo x.msg.src →
      fld c.arg 20 1 = 0 →
      (∀ q ∈ reqsOf s c.dst, q.sent = true) → (reqsOf s c.dst).find? (answers c) = some x → x.msg.dtype = .desc →
      NextWith (exec (.nack r c) s) fun t => reqsOf t c.dst = eraseIdx1 (reqsOf s c.dst) (answers c) ∧
        SMap.get {} t.agentOut (outKey x.msg) =
          { SMap.get {} s.agentOut (outKey x.msg) with
            credits := min 16 ((SMap.get {} s.agentOut (outKey x.msg)).credits + 1)
            sent := (SMap.get {} s.agentOut (outKey x.msg)).sent - 1 } ∧
        t = { s with agentReqs := t.agentReqs, agentOut := t.agentOut }) ∧
    (∀ (c : CtlMsg), darkEp s c.dst = false → Agrees s c (ringTen s (fieldRing (epField c.src))) 13 → epSite c.dst = none → (∀ q ∈ reqsOf s c.dst, q.sent = true) →
      let key := 2 ^ 40 + (c.dst.toNat * 2 ^ 16 + c.src.toNat) * 32 + fld c.arg 0 5
      let out := ((SMap.get {} s.agentOut key).sent + 256 - fld c.arg 5 8) % 256
      out ≤ 16 → NextWith (exec (.credit r c) s) fun t =>
        (SMap.get {} t.agentOut key).credits = max (SMap.get {} s.agentOut key).credits (16 - out) ∧
        t = { s with agentOut := t.agentOut }) ∧
    (∀ (c : CtlMsg) (i : Nat), darkEp s c.dst = false → Agrees s c (ringTen s (fieldRing (epField c.src))) 13 → epSite c.dst = some i →
      ((sendOf (tileOf s i) (fld c.arg 0 5)).sent + 256 - fld c.arg 5 8) % 256 ≤ 16 →
      NextWith (exec (.credit r c) s) fun t => (sendOf (tileOf t i) (fld c.arg 0 5)).credits =
          max (sendOf (tileOf s i) (fld c.arg 0 5)).credits
            (16 - ((sendOf (tileOf s i) (fld c.arg 0 5)).sent + 256 - fld c.arg 5 8) % 256) ∧
        t = { s with tiles := t.tiles }) ∧
    (∀ d : DataMsg, darkEp s d.dst = false → MayEnter s r 389 d →
      gensNow s d.dst (some d.ten.toNat) d.rgen.toNat d.tgen.toNat d.ngen.toNat = true → (∀ q ∈ reqsOf s d.dst, q.sent = true) →
      NextWith (exec (.rdata r d) s) fun t => reqsOf t d.dst = eraseIdx1 (reqsOf s d.dst) (fun q =>
          q.msg.dst = d.src && q.msg.seq.toNat = d.seq.toNat && q.msg.dtype = .wread) ∧
        t = { s with tiles := t.tiles, agentReqs := t.agentReqs, rings := t.rings }) ∧
    (∀ d : DataMsg, darkEp s d.dst = false → MayEnter s r 389 d →
      gensNow s d.dst (some d.ten.toNat) d.rgen.toNat d.tgen.toNat d.ngen.toNat = false →
      NextWith (exec (.rdata r d) s) fun t => (ringOf t r).cntStale = sat 16 ((ringOf s r).cntStale + 1) ∧
        t = { s with rings := t.rings }) ∧
    (∀ c : CtlMsg, dark s r = false →
      (c.ctype = .abort →
        NextWith (exec (.abort r c) s) fun t => (ringOf t r).lastAbort = some c ∧ t = { s with rings := t.rings }) ∧
      (c.ctype = .release →
        NextWith (exec (.release r c) s) fun t => (ringOf t r).lastRelease = some c ∧ t = { s with rings := t.rings })) ∧
    (∀ (i : SiteId) (c : CtlMsg) (n j : Nat) (x : RecvCh), x = recvOf (tileOf s i) (fld c.arg 0 5) →
      darkEp s c.dst = false → epNo c.dst < 72 →
      ringTen s (siteRing i) = some n → x.srcVfield.toNat < 6 →
      vSite s n x.srcVring.toNat x.srcVfield.toNat x.srcVtile.toNat = some j →
      (routeOf s (epField (epAddr (siteField i) (siteNo i))) (epField (epAddr (siteField j) (siteNo j))) 39).isSome = true →
      NextWith (exec (.probe i c) s) fun t => t = { s with net := t.net } ∧ t.net.length = s.net.length + 1 ∧
        ∃ h m, t.net.getLast? = some h ∧ h.p.body = .ctl m ∧ m.ctype = .credit ∧ fld m.arg 5 8 = x.recvd % 256) ∧
    (∀ (i : SiteId) (c : CtlMsg) (n : Nat) (a : BitVec 16) (x : RecvCh), x = recvOf (tileOf s i) (fld c.arg 0 5) →
      darkEp s c.dst = false → epNo c.dst < 72 → ringTen s (siteRing i) = some n → 6 ≤ x.srcVfield.toNat →
      agentSource s n x = some a →
      (routeOf s (epField (epAddr (siteField i) (siteNo i))) (epField a) 39).isSome = true →
      NextWith (exec (.probe i c) s) fun t => t = { s with net := t.net } ∧ t.net.length = s.net.length + 1 ∧
        ∃ h m, t.net.getLast? = some h ∧ h.p.body = .ctl m ∧ m.ctype = .credit ∧ m.dst = a ∧
          fld m.arg 0 5 = fld c.arg 0 5 ∧ fld m.arg 5 8 = x.recvd % 256) ∧
    (∀ (i : SiteId) (ch : ChId) (w : WaitRec) (n : Nat) (dst : BitVec 16), w ∈ waitRecs (tileOf s i) → w.kind = 1 → dark s (siteRing i) = false →
      w.ch = (ch : Nat) → w.unit ≤ 1 → w.since + s.box.set.retryNs ≤ s.time.uptime →
      (sendOf (tileOf s i) ch).credits = 0 → ringTen s (siteRing i) = some n →
      sendTarget s n (sendOf (tileOf s i) ch) = some dst →
      (routeOf s (epField (epAddr (siteField i) (siteNo i))) (epField dst) 39).isSome = true →
      NextWith (exec (.sendProbe i ch) s) fun t => t = { s with net := t.net } ∧ t.net.length = s.net.length + 1 ∧
        ∃ h m, t.net.getLast? = some h ∧ h.p.body = .ctl m ∧ m.ctype = .probe ∧ m.dst = dst) ∧
    (∀ (src seq : BitVec 16) (x : Req), darkEp s src = false →
      (reqsOf s src).find? (fun x => x.msg.seq = seq && !x.held && x.sent && x.sentAt + x.retryNs ≤ s.time.uptime) = none →
      (reqsOf s src).find? (fun x => x.msg.seq = seq && !x.sent && !hasCredit s x.msg &&
        decide (x.sentAt + x.retryNs ≤ s.time.uptime)) = some x →
      (routeOf s (epField src) (epField x.msg.dst) 39).isSome = true →
      NextWith (exec (.requestResend src seq) s) fun t => t = { s with net := t.net } ∧ t.net.length = s.net.length + 1 ∧
        ∃ h m, t.net.getLast? = some h ∧ h.p.body = .ctl m ∧ m.ctype = .probe ∧ m.dst = x.msg.dst ∧
          fld m.arg 0 5 = x.msg.rch % 32) ∧
    (∀ (src seq : BitVec 16) (x : Req), darkEp s src = false → (∀ q ∈ reqsOf s src, q.sent = true) →
      (reqsOf s src).find? (fun x => x.msg.seq = seq && !x.held && x.sent && x.sentAt + x.retryNs ≤ s.time.uptime) = some x →
      (x.resends < x.retryMax →
        NextWith (exec (.requestResend src seq) s) fun t => reqsOf t src = (reqsOf s src).map fun z =>
          if z = x then { x with sentAt := s.time.uptime, resends := x.resends + 1 } else z) ∧
      (x.retryMax ≤ x.resends →
        NextWith (exec (.requestResend src seq) s) fun t =>
          reqsOf t src = eraseIdx1 (reqsOf s src) (fun z => decide (z = x)) ∧
          ((plyOf s (fieldPly (epField src))).staging.length < 256 →
            ((plyOf t (fieldPly (epField src))).staging.getLast?).map (·.code) = some 0x0302)))

/-- The far-DMA engines (R38, R223 to R232, R255): a descriptor that is next enters the queue where the pool has room
for it, the eligible one of the earliest
deadline starts with its lexicon in one of the two buffers (R234) and waits while both are in use or the lexicon is not committed,
one whose piece, source or
near side waits stays, and the first that can end does: a completed COPY leaves the source's bytes at the destination and
reports to its channel. -/
def Obligations.FarDmaQueuesStartsAndCompletes : Prop :=
  ∀ (s : State) (st : StackId),
    (∀ (d : DataMsg) (n : Nat), ringTen s (fieldRing (epField d.src)) = some n → d.epoch = (tenOf s n).epoch →
      engineRoom s st d = true → agentPos s d = .next → parkedNext (agentGot s d) d = none →
      NextWith (exec (.dmaDescriptor st d) s) fun t =>
        (stackOf t st).queue = (stackOf s st).queue ++
          [{ desc := BitVec.ofNat 512 (leNat d.payload), msg := d, beat := descBeat s n d }] ∧
        SMap.get 0 t.agentSeq (agentKey d) = SMap.get 0 s.agentSeq (agentKey d) + 1 ∧
        t = { s with
          farStacks := t.farStacks, agentSeq := t.agentSeq, agentNack := t.agentNack, net := t.net, rings := t.rings }) ∧
    (∀ (d : DataMsg) (n : Nat), ringTen s (fieldRing (epField d.src)) = some n → d.epoch = (tenOf s n).epoch →
      engineRoom s st d = true → agentPos s d ≠ .next →
      NextWith (exec (.dmaDescriptor st d) s) fun t => t.farStacks = s.farStacks ∧ t.agentSeq = s.agentSeq ∧ t.mem = s.mem ∧
        (agentPos s d = .later → (d.seq.toNat + 256 - SMap.get 0 s.agentSeq (agentKey d) % 256) % 256 ≤ 15 →
          d ∈ t.agentPark)) ∧
    (∀ (d : DataMsg) (n : Nat), ringTen s (fieldRing (epField d.src)) = some n → d.epoch = (tenOf s n).epoch →
      engineRoom s st d = false →
      NextWith (exec (.dmaDescriptor st d) s) fun t => t = { s with rings := t.rings } ∧
        (ringOf t (stackRing st)).refused = sat 16 ((ringOf s (stackRing st)).refused + 1)) ∧
    (∀ (d : DataMsg) (n : Nat), ringTen s (fieldRing (epField d.src)) = some n → d.epoch ≠ (tenOf s n).epoch →
      NextWith (exec (.dmaDescriptor st d) s) fun t =>
        (ringOf t (stackRing st)).cntEpoch = sat 16 ((ringOf s (stackRing st)).cntEpoch + 1) ∧
        t = { s with rings := t.rings }) ∧
    (∀ j, pickJob (stackOf s st).queue = some j →
      (usesLex j.desc = false ∨ ∀ n, ringTen s (fieldRing (epField j.msg.src)) = some n → auxStatus s n j.desc 65536 ≠ 0) →
      NextWith (exec (.dmaStart st) s) fun t =>
        (stackOf t st).queue = eraseIdx1 (stackOf s st).queue (fun k => decide (k = j)) ∧
        (stackOf t st).active = (stackOf s st).active ++ [j] ∧
        t = { s with farStacks := t.farStacks, agentTaken := t.agentTaken, net := t.net }) ∧
    (∀ (j : DmaJob) (n : Nat) (l : Lexicon), pickJob (stackOf s st).queue = some j → usesLex j.desc = true →
      ringTen s (fieldRing (epField j.msg.src)) = some n → auxStatus s n j.desc 65536 = 0 →
      provRange s n (auxAddr (tenOf s n) j.desc) 65536 = false → l.ten = n → l.at_ = jAux j.desc →
      ((stackOf s st).lexicon = some l ∨
        (∀ m, (stackOf s st).lexicon = some m → m.ten = n → m.at_ ≠ jAux j.desc) ∧
          (stackOf s st).lexicon2.any (fun m => (stackOf s st).active.any fun k => k.lex = some m) = false ∧
          l.w = (endSource s (auxAddr (tenOf s n) j.desc) 65536).w ∧
          l.psn = (endSource s (auxAddr (tenOf s n) j.desc) 65536).psn) →
      NextWith (exec (.dmaStart st) s) fun t =>
        (stackOf t st).queue = eraseIdx1 (stackOf s st).queue (fun k => decide (k = j)) ∧
        (stackOf t st).active = (stackOf s st).active ++ [{ j with lex := some l }] ∧
        (stackOf t st).lexicon = some l ∧
        ((stackOf s st).lexicon ≠ some l → (stackOf t st).lexicon2 = (stackOf s st).lexicon) ∧
        t.mem = s.mem ∧ t.tiles = s.tiles) ∧
    (∀ (j : DmaJob) (n : Nat), pickJob (stackOf s st).queue = some j → usesLex j.desc = true →
      ringTen s (fieldRing (epField j.msg.src)) = some n → auxStatus s n j.desc 65536 = 0 →
      provRange s n (auxAddr (tenOf s n) j.desc) 65536 = true ∨
        ((∀ m, (stackOf s st).lexicon = some m → m.ten = n → m.at_ ≠ jAux j.desc) ∧
          (stackOf s st).lexicon2.any (fun m => (stackOf s st).active.any fun k => k.lex = some m) = true) →
      exec (.dmaStart st) s = .next s) ∧
    (∀ j, pickJob (stackOf s st).queue = some j → j ∈ (stackOf s st).queue ∧ j.eligible = true ∧
      ∀ k ∈ (stackOf s st).queue, k.eligible = true → j.beat + jDeadline j.desc ≤ k.beat + jDeadline k.desc) ∧
    (∀ (j : DmaJob) (n : Nat), (stackOf s st).active.find? (fun j => !jobHeld s st j) = some j →
      ringTen s (fieldRing (epField j.msg.src)) = some n → jobOk j.desc = false →
      NextWith (exec (.dmaCompletion st) s) fun t =>
        (stackOf t st).active = eraseIdx1 (stackOf s st).active (fun k => decide (k = j)) ∧ t.mem = s.mem ∧
        Reported s t st n j fun status => status = 4) ∧
    ((∀ j ∈ (stackOf s st).active, jobHeld s st j = true) → exec (.dmaCompletion st) s = .next s) ∧
    (∀ (j : DmaJob) (n : Nat) (x : Tenancy), (stackOf s st).active.find? (fun j => !jobHeld s st j) = some j →
      ringTen s (fieldRing (epField j.msg.src)) = some n → x = tenOf s n →
      jobOk j.desc = true → jOp j.desc = 0 →
      endStatus s n st (jSrc j.desc) (jLen j.desc) false = 0 → endStatus s n st (jDst j.desc) (jLen j.desc) true = 0 →
      endFar x st (jDst j.desc) ≠ endFar x st (jSrc j.desc) →
      (endSource s (endAddr x st (jSrc j.desc)) (jLen j.desc)).psn = [] →
      NextWith (exec (.dmaCompletion st) s) fun t =>
        (stackOf t st).active = eraseIdx1 (stackOf s st).active (fun k => decide (k = j)) ∧
        t.mem = (writePiece s (endAddr x st (jDst j.desc)) ⟨0, 8, (List.range (jLen j.desc)).map fun k =>
          (fldN (endSource s (endAddr x st (jSrc j.desc)) (jLen j.desc)).w (8 * k) 8, false)⟩).mem ∧
        Reported s t st n j fun status => status ≤ 1)

/-- Collectives (R23, R389 to R392): a descriptor that is next is queued, the oldest eligible one begins, or waits while its source is dark, one that
may not begin gets its status at once, a completed one leaves its result in its window, where that is still in order, and is gone;
an ABORT of the peer ends it, begun or not. -/
def Obligations.CollectivesBeginCompleteAndAbort : Prop :=
  ∀ (s : State) (ply : PlyId),
    (∀ (d : DataMsg) (n : Nat), ringTen s (fieldRing (epField d.src)) = some n → d.epoch = (tenOf s n).epoch →
      agentPos s d = .next → parkedNext (agentGot s d) d = none →
      NextWith (exec (.collective ply d) s) fun t =>
        (plyOf t ply).colls = (plyOf s ply).colls ++
          [{ desc := BitVec.ofNat 512 (leNat d.payload), ten := n, msg := d, beat := descBeat s n d }] ∧
        t = { s with plies := t.plies, agentSeq := t.agentSeq, agentNack := t.agentNack, net := t.net }) ∧
    (∀ c, ((plyOf s ply).colls.filter fun c => c.running).length < 16 →
      (plyOf s ply).colls.find? (fun c => c.eligible && !c.running && c.status.isNone) = some c →
      collDark s c.ten (cSrc c) (srcLen c) = false → beginStatus s c ≠ 0 →
      NextWith (exec (.collectiveBegin ply) s) fun t =>
        (plyOf t ply).colls = (plyOf s ply).colls.map (fun x =>
          if x = c then { c with status := some (beginStatus s c) } else x) ∧ t.mem = s.mem) ∧
    (∀ c, ((plyOf s ply).colls.filter fun c => c.running).length < 16 →
      (plyOf s ply).colls.find? (fun c => c.eligible && !c.running && c.status.isNone) = some c →
      collDark s c.ten (cSrc c) (srcLen c) = true → exec (.collectiveBegin ply) s = .next s) ∧
    (∀ c p q, ((plyOf s ply).colls.filter fun c => c.running).length < 16 →
      (plyOf s ply).colls.find? (fun c => c.eligible && !c.running && c.status.isNone) = some c →
      collDark s c.ten (cSrc c) (srcLen c) = false → beginStatus s c = 0 → collPorts s c = (some p, some q) → (sportOf s p).st = .up → (sportOf s q).st = .up →
      (sportOf s q).collHeld = [] →
      NextWith (exec (.collectiveBegin ply) s) fun t => t.mem = s.mem ∧
        ∃ d, d ∈ (plyOf t ply).colls ∧ d.running = true ∧ d.desc = c.desc ∧ d.ten = c.ten) ∧
    (∀ (id : BitVec 32) (c : Coll), (plyOf s ply).colls.find? (fun c => c.status.isSome && cId c = id.toNat) = some c →
      NextWith (exec (.collectiveCompletion ply id) s) fun t =>
        (plyOf t ply).colls = eraseIdx1 (plyOf s ply).colls (fun d => decide (d = c)) ∧
        (c.status = some 0 → rangeStatus (tenOf s c.ten) (cDst c) (dstLen c) true ≠ 0 → t.mem = s.mem) ∧
        (c.status = some 0 → rangeStatus (tenOf s c.ten) (cDst c) (dstLen c) true = 0 → t.mem = (writeRange s c.ten (cDst c)
          (((List.range (cN c)).map fun k => SMap.get [] c.res k).flatten)).mem) ∧
        (c.status ≠ some 0 → c.status ≠ some 6 → c.status ≠ some 7 → t.mem = s.mem)) ∧
    (∀ (p : SPortId) (f : Frame), (sportOf s p).st = .up → frameOk f = true → fType f = 7 → fLsn f = (sportOf s p).lsnRx →
      (∀ k < 4, (plyOf s k).colls = []) →
      NextWith (exec (.aspAbort p f) s) fun t => (sportOf t p).lsnRx = ((sportOf s p).lsnRx + 1) % 65536 ∧
        t = { s with sports := t.sports }) ∧
    (∀ (p : SPortId) (f : Frame) (c : Coll), (sportOf s p).st = .up → frameOk f = true → fType f = 7 →
      fLsn f = (sportOf s p).lsnRx →
      (∀ k < 4, (plyOf s k).colls = if k = (ply : Nat) then [c] else []) → c.status = none →
      cId c = startId f → collUses s c p = true →
      NextWith (exec (.aspAbort p f) s) fun t => t.mem = s.mem ∧
        (plyOf t ply).colls = [{ c with running := false, status := some 7 }] ∧
        (t.box.staging.getLast?).map (·.code) = some 0x0B05) ∧
    (∀ (p : SPortId) (f : Frame), (sportOf s p).st = .up → frameOk f = true → fLsn f = (sportOf s p).lsnRx →
      s.box.state = .ready → (∀ k < 4, (plyOf s k).colls = []) →
      (fType f = 5 → NextWith (exec (.collStart p f) s) fun t => (sportOf t p).collHeld = (sportOf s p).collHeld ++ [f] ∧
        t = { s with sports := t.sports }) ∧
      (fType f = 6 → NextWith (exec (.collData p f) s) fun t => (sportOf t p).collHeld = (sportOf s p).collHeld ++ [f] ∧
        t = { s with sports := t.sports })) ∧
    (∀ (p : SPortId) (f : Frame) (k : Nat) (c : Coll), (sportOf s p).st = .up → fLsn f = (sportOf s p).lsnRx →
      frameOk f = true → fType f = 6 → collOn s p (fun c => cId c % 65536 = fStream f) = some (k, c) → fEom f = false →
      fMsg f = c.step → fOffset f = c.seg.length →
      NextWith (exec (.collData p f) s) fun t => t.mem = s.mem ∧
        (plyOf t k).colls = (plyOf s k).colls.map fun x => if x = c then { c with seg := c.seg ++ f.payload } else x) ∧
    (∀ (p : SPortId) (f : Frame) (k : Nat) (c : Coll), (sportOf s p).st = .up → fLsn f = (sportOf s p).lsnRx →
      frameOk f = true → fType f = 5 → collOn s p (fun c => cId c = startId f) = some (k, c) → c.peersOk = false →
      f.payload = startPayload s c →
      NextWith (exec (.collStart p f) s) fun t => t.mem = s.mem ∧
        (plyOf t k).colls = (plyOf s k).colls.map fun x => if x = c then { c with peersOk := true } else x)

/-- Stream ports come up and go down (R374 to R377, R383, R426): training, which a shed idle port does not take up, leaves a width and sends HELLO, a HELLO of major
version 2 brings the link UP with its limits, another does not; HELLO goes out again until the peer's has come; a lost
lock takes the link down. -/
def Obligations.PortsTrainComeUpAndGoDown : Prop :=
  ∀ (s : State) (p : SPortId),
    (∀ r : TrainReport, s.pwr.lanesShed = true → (sportOf s p).st ≠ .training → exec (.portTrain p r) s = .next s) ∧
    (∀ r : TrainReport, (sportOf s p).st ≠ .up → (sportOf s p).st ≠ .disabled → (sportOf s p).enable = true →
      (s.pwr.lanesShed = false ∨ (sportOf s p).st = .training) →
      (r.refClk = false → NextWith (exec (.portTrain p r) s) fun t => (sportOf t p).st = .noRefclk ∧
        (sportOf t p).width = 0 ∧ t = { s with sports := t.sports }) ∧
      (r.refClk = true → r.light0 = false → r.light1 = false →
        NextWith (exec (.portTrain p r) s) fun t => (sportOf t p).st = .noLight ∧ (sportOf t p).width = 0 ∧
          t = { s with sports := t.sports }) ∧
      (r.refClk = true → (r.light0 = true ∨ r.light1 = true) →
        min (bestWidth (goodLanes (sportOf s p) r)) r.peerWidth = 0 →
        NextWith (exec (.portTrain p r) s) fun t => (sportOf t p).st = .down ∧ (sportOf t p).width = 0) ∧
      (∀ w, r.refClk = true → (r.light0 = true ∨ r.light1 = true) → w ≠ 0 →
        min (bestWidth (goodLanes (sportOf s p) r)) r.peerWidth = w →
        NextWith (exec (.portTrain p r) s) fun t => (sportOf t p).st = .training ∧ (sportOf t p).width = w ∧
          (sportOf t p).tx.length = (sportOf s p).tx.length + 1 ∧ ((sportOf t p).tx.getLast?).map fType = some 4 ∧
          t = { s with sports := t.sports, box := t.box })) ∧
    (∀ f : Frame, (sportOf s p).st = .training → (sportOf s p).width ≠ 0 → frameOk f = true → fType f = 4 →
      fldN (leNat f.payload) 8 8 = 2 →
      (sportOf s p).egress = [] → (sportOf s p).outQ = [] →
      NextWith (exec (.hello p f) s) fun t => (sportOf t p).st = .up ∧
        (sportOf t p).frameLimit = min (sportOf s p).frameMax (fldN (leNat f.payload) 16 16) ∧
        (sportOf t p).peerId = BitVec.ofNat 64 (fldN (leNat f.payload) 64 64) ∧ (sportOf t p).lsnTx = 0 ∧
        (sportOf t p).lsnRx = 0 ∧
        (∀ v < 8, SMap.get 0 (sportOf t p).txLimit v = fldN (leNat f.payload) (256 + 16 * v) 16) ∧ (t.box.staging.getLast?).map (·.code) = some 0x0B02 ∧
        t = { s with sports := t.sports, box := t.box }) ∧
    (∀ f : Frame, (sportOf s p).st = .training → (sportOf s p).width ≠ 0 → frameOk f = true → fType f = 4 →
      fldN (leNat f.payload) 8 8 ≠ 2 →
      NextWith (exec (.hello p f) s) fun t => (sportOf t p).st = .version ∧ (sportOf t p).width = 0 ∧
        (t.box.staging.getLast?).map (·.code) = some 0x0B04) ∧
    ((sportOf s p).st = .training → (sportOf s p).width ≠ 0 → (sportOf s p).helloSeen = false →
      NextWith (exec (.helloResend p) s) fun t => (sportOf t p).tx.length = (sportOf s p).tx.length + 1 ∧
        ((sportOf t p).tx.getLast?).map fType = some 4 ∧ t = { s with sports := t.sports }) ∧
    ((sportOf s p).st = .up →
      NextWith (exec (.linkDown p) s) fun t => (sportOf t p).st = .down ∧ (sportOf t p).width = 0 ∧
        (sportOf t p).retryBuf = [] ∧ (sportOf t p).outQ = [] ∧ t.mem = s.mem ∧
        (t.box.staging.getLast?).map (fun r => (r.code, r.detail)) = some (0x0B01, (p : Nat)))

/-- Frames of the Aitum Stream Protocol (R377, R380 to R383, R387): on a port that is UP every frame command ends in a next state;
credit raises the limits to the peer's buffer and the units it has freed, an acknowledgement frees the retry buffer, a NAK or a
timeout replays it until the limit takes the link down, a damaged frame is asked for again, a frame that no rule allows is a
protocol error, counted and passed over, a DATA frame in order is taken: held for a replay or a grace beat, discarded without a
binding, or delivered into its window. -/
def Obligations.StreamFramesFollowTheProtocol : Prop :=
  ∀ (s : State) (p : SPortId) (f : Frame), (sportOf s p).st = .up →
    let x₀ := sportOf s p
    (frameOk f = true → fType f = 1 →
      exec (.aspCredit p f) s = .next (pumpPort (modSport s p fun x => { x with
        txLimit := (List.range 8).foldl
          (fun m v => SMap.put 0 m v (creditLimit x v (fldN (leNat f.payload) (32 * v) 32))) x.txLimit }) p) ∧
      (x₀.egress = [] → x₀.outQ = [] →
        NextWith (exec (.aspCredit p f) s) fun t => t = { s with sports := t.sports } ∧
          ∀ v < 8,
            let base := SMap.get 0 x₀.txBase v
            let freed := SMap.get 0 x₀.txLimit v - base
            let more := (fldN (leNat f.payload) (32 * v) 32 + 2 ^ 32 - freed % 2 ^ 32) % 2 ^ 32
            SMap.get 0 (sportOf t p).txLimit v = base + freed + if more < 2 ^ 31 then more else 0)) ∧
    (frameOk f = true → fType f = 2 →
      exec (.aspAck p f) s = .next (pumpPort (modSport s p fun x => acked x (fLsn f)) p) ∧
      (∀ k, x₀.egress = [] → x₀.outQ = [] → x₀.retryBuf.findIdx? (fun g => fLsn g = fLsn f) = some k →
        NextWith (exec (.aspAck p f) s) fun t => (sportOf t p).retryBuf = x₀.retryBuf.drop (k + 1) ∧
          (sportOf t p).lsnAcked = fLsn f ∧ (sportOf t p).noProgress = 0 ∧ t = { s with sports := t.sports })) ∧
    (x₀.retryBuf ≠ [] → x₀.noProgress + 1 < s.box.set.retryLimit →
      NextWith (exec (.aspRetryTimeout p) s) fun t => (sportOf t p).tx = x₀.tx ++ x₀.retryBuf ∧
        (sportOf t p).retries = x₀.retries + 1 ∧ (sportOf t p).noProgress = x₀.noProgress + 1 ∧
        (sportOf t p).retryBuf = x₀.retryBuf ∧ t = { s with sports := t.sports }) ∧
    (x₀.retryBuf ≠ [] → s.box.set.retryLimit ≤ x₀.noProgress + 1 →
      NextWith (exec (.aspRetryTimeout p) s) fun t => (sportOf t p).st = .down ∧ t.mem = s.mem ∧
        (t.box.staging.getLast?).map (fun r => (r.code, r.detail)) = some (0x0B01, (p : Nat) + 32)) ∧
    (x₀.retryBuf = [] → exec (.aspRetryTimeout p) s = .next s) ∧
    (∀ y, frameOk f = true → fType f = 3 → y = acked x₀ (fLsn f + 65535) →
      (y.retryBuf ≠ [] → y.noProgress + 1 < s.box.set.retryLimit →
        NextWith (exec (.nak p f) s) fun t => t = { s with sports := t.sports } ∧
          sportOf t p = { y with tx := y.tx ++ y.retryBuf, retries := y.retries + 1, noProgress := y.noProgress + 1 }) ∧
      (y.retryBuf ≠ [] → s.box.set.retryLimit ≤ y.noProgress + 1 →
        NextWith (exec (.nak p f) s) fun t => (sportOf t p).st = .down ∧ t.mem = s.mem ∧
          (t.box.staging.getLast?).map (fun r => (r.code, r.detail)) = some (0x0B01, (p : Nat) + 32)) ∧
      (y.retryBuf = [] → NextWith (exec (.nak p f) s) fun t => t = { s with sports := t.sports } ∧ sportOf t p = y)) ∧
    NextWith (exec (.frameCrcFailure p) s) (fun t => (sportOf t p).gap = true ∧
      (sportOf t p).tx.length = x₀.tx.length + 1 ∧ ((sportOf t p).tx.getLast?).map fType = some 3 ∧
      (sportOf t p).lsnRx = x₀.lsnRx ∧ t = { s with sports := t.sports }) ∧
    NextWith (exec (.protoErrFrame p f) s) (fun t =>
      (sportOf t p).protoErr = sat 32 (x₀.protoErr + 1) ∧
      (sportOf t p).discards = sat 32 (x₀.discards + 1) ∧ t = { s with sports := t.sports }) ∧
    (∀ c k, (c, k) ∈ [(Instr.aspData p f, 0), (.aspCredit p f, 1), (.aspAck p f, 2), (.nak p f, 3), (.hello p f, 4),
        (.collStart p f, 5), (.collData p f, 6), (.aspAbort p f, 7)] →
      (frameOk f = false ∨ fType f ≠ k) → exec c s = exec (.protoErrFrame p f) s) ∧
    (frameOk f = true → fType f = 0 →
      (fLsn f = x₀.lsnRx →
        NextWith (exec (.aspData p f) s) fun t => (sportOf t p).lsnRx = (x₀.lsnRx + 1) % 65536 ∧ (sportOf t p).gap = false) ∧
      (x₀.dataHeld = [] →
        (frameHeld s p f = true → fLsn f = x₀.lsnRx →
          NextWith (exec (.aspData p f) s) fun t => t = { s with sports := t.sports } ∧
            (sportOf t p).dataHeld = [(f, true)] ∧ (sportOf t p).freedVl = x₀.freedVl) ∧
        (fLsn f ≠ x₀.lsnRx → (x₀.lsnRx + 65536 - fLsn f) % 65536 ≤ 32768 →
          NextWith (exec (.aspData p f) s) fun t => t = { s with sports := t.sports } ∧
            (sportOf t p).lsnRx = x₀.lsnRx ∧ ((sportOf t p).tx.getLast?).map fType = some 2) ∧
        (fLsn f ≠ x₀.lsnRx → 32768 < (x₀.lsnRx + 65536 - fLsn f) % 65536 → x₀.gap = false →
          NextWith (exec (.aspData p f) s) fun t => t = { s with sports := t.sports } ∧ (sportOf t p).gap = true ∧
            (sportOf t p).lsnRx = x₀.lsnRx ∧ ((sportOf t p).tx.getLast?).map fType = some 3) ∧
        (∀ n b w, ingressBinding s p (fStream f) = some (n, b) → frameHeld s p f = false →
          fLsn f = x₀.lsnRx → b.op ≠ 1 → fOffset f + f.payload.length ≤ b.granules * granBytes →
          winAt (tenOf s n) (b.base + fOffset f) = some w → w.attr = .input →
          rangeDark s (tenOf s n) w (b.base + fOffset f) f.payload.length = false →
          b.base + fOffset f + f.payload.length ≤ winEnd w →
          NextWith (exec (.aspData p f) s) fun t => (sportOf t p).lsnRx = (x₀.lsnRx + 1) % 65536 ∧
            t.mem = (winWrite s (tenOf s n) w (b.base + fOffset f) f.payload).mem) ∧
        (ingressBinding s p (fStream f) = none → fLsn f = x₀.lsnRx →
          NextWith (exec (.aspData p f) s) fun t => (sportOf t p).lsnRx = (x₀.lsnRx + 1) % 65536 ∧
            (sportOf t p).discards = sat 32 (x₀.discards + 1) ∧ t = { s with sports := t.sports })))
end

