-- ==== Sys2Proof/Laws/Maps.lean ====
section
/-! SUPPORT. The laws of the sparse maps and of memory: reading after writing, and the canonical form. -/

namespace Sys2Proof.Laws
open Sys2Proof Sys2Proof.Machine

variable {α : Type}

/-! ### Reading after writing -/

theorem smap_get_erase_same (d : α) (m : List (Nat × α)) (i : Nat) : SMap.get d (SMap.erase m i) i = d := by
  induction m with
  | nil => rfl
  | cons p m ih =>
    obtain ⟨k, v⟩ := p
    by_cases hk : k = i
    · simpa [SMap.erase, hk] using ih
    · simp only [SMap.erase, List.filter_cons, bne_iff_ne, ne_eq, hk, not_false_eq_true, if_true, SMap.get,
        Ne.symm hk, if_false] at *
      exact ih

theorem smap_get_erase_other (d : α) (m : List (Nat × α)) {i j : Nat} (h : j ≠ i) :
    SMap.get d (SMap.erase m i) j = SMap.get d m j := by
  induction m with
  | nil => rfl
  | cons p m ih =>
    obtain ⟨k, v⟩ := p
    by_cases hk : k = i
    · subst hk
      have e : SMap.erase ((k, v) :: m) k = SMap.erase m k := by simp [SMap.erase]
      rw [e, ih]; simp [SMap.get, h]
    · have e : SMap.erase ((k, v) :: m) i = (k, v) :: SMap.erase m i := by simp [SMap.erase, hk]
      rw [e]; simp only [SMap.get, ih]

theorem smap_get_insert_same (d : α) (m : List (Nat × α)) (i : Nat) (v : α) (h : ∀ p ∈ m, p.1 ≠ i) :
    SMap.get d (SMap.insert m i v) i = v := by
  induction m with
  | nil => simp [SMap.insert, SMap.get]
  | cons p m ih =>
    obtain ⟨k, w⟩ := p
    have hk : k ≠ i := h (k, w) (by simp)
    simp only [SMap.insert]
    split
    · simp [SMap.get]
    · simp only [SMap.get, Ne.symm hk, if_false]
      exact ih fun p hp => h p (by simp [hp])

theorem smap_get_insert_other (d : α) (m : List (Nat × α)) {i j : Nat} (v : α) (h : j ≠ i) :
    SMap.get d (SMap.insert m i v) j = SMap.get d m j := by
  induction m with
  | nil => simp [SMap.insert, SMap.get, h]
  | cons p m ih =>
    obtain ⟨k, w⟩ := p
    simp only [SMap.insert]
    split
    · simp [SMap.get, h]
    · simp only [SMap.get, ih]

theorem smap_key_erase (m : List (Nat × α)) (i : Nat) : ∀ p ∈ SMap.erase m i, p.1 ≠ i := by
  intro p hp
  simpa using (List.mem_filter.mp hp).2

/-- A map reads back what was stored. -/
@[simp] theorem smap_get_put_same [DecidableEq α] (d : α) (m : List (Nat × α)) (i : Nat) (v : α) :
    SMap.get d (SMap.put d m i v) i = v := by
  unfold SMap.put
  split
  · rename_i hv; rw [smap_get_erase_same, hv]
  · exact smap_get_insert_same d _ i v (smap_key_erase m i)

/-- Storing at one key leaves every other key alone. -/
theorem smap_get_put_other [DecidableEq α] (d : α) (m : List (Nat × α)) {i j : Nat} (v : α) (h : j ≠ i) :
    SMap.get d (SMap.put d m i v) j = SMap.get d m j := by
  unfold SMap.put
  split
  · exact smap_get_erase_other d m h
  · rw [smap_get_insert_other d _ v h, smap_get_erase_other d m h]

theorem smap_get_put [DecidableEq α] (d : α) (m : List (Nat × α)) (i j : Nat) (v : α) :
    SMap.get d (SMap.put d m i v) j = if j = i then v else SMap.get d m j := by
  split
  · rename_i h; subst h; exact smap_get_put_same d m j v
  · rename_i h; exact smap_get_put_other d m v h

/-! ### The canonical form -/

theorem smap_wf_iff [DecidableEq α] (d : α) (m : List (Nat × α)) :
    SMap.wf d m = true ↔ m.Pairwise (fun p q => p.1 < q.1) ∧ ∀ p ∈ m, p.2 ≠ d := by
  induction m with
  | nil => simp [SMap.wf]
  | cons p m ih =>
    obtain ⟨k, v⟩ := p
    cases m with
    | nil => simp [SMap.wf]
    | cons q m =>
      obtain ⟨l, w⟩ := q
      rw [show SMap.wf d ((k, v) :: (l, w) :: m) = (decide (v ≠ d) && decide (k < l) && SMap.wf d ((l, w) :: m)) from rfl,
        Bool.and_eq_true, Bool.and_eq_true, ih]
      simp only [decide_eq_true_eq, List.pairwise_cons, List.mem_cons, forall_eq_or_imp]
      constructor
      · rintro ⟨⟨hv, hkl⟩, ⟨hl, hp⟩, hw, hm⟩
        exact ⟨⟨⟨hkl, fun x hx => Nat.lt_trans hkl (hl x hx)⟩, hl, hp⟩, hv, hw, hm⟩
      · rintro ⟨⟨⟨hkl, -⟩, hl, hp⟩, hv, hw, hm⟩
        exact ⟨⟨hv, hkl⟩, ⟨hl, hp⟩, hw, hm⟩

theorem smap_mem_insert (m : List (Nat × α)) (i : Nat) (v : α) (p : Nat × α) :
    p ∈ SMap.insert m i v ↔ p = (i, v) ∨ p ∈ m := by
  induction m with
  | nil => simp [SMap.insert]
  | cons q m ih =>
    obtain ⟨k, w⟩ := q
    simp only [SMap.insert]
    split
    · simp
    · simp only [List.mem_cons, ih]
      exact or_left_comm

theorem smap_wf_filter [DecidableEq α] {d : α} {m : List (Nat × α)} (f : Nat × α → Bool) (h : SMap.wf d m = true) :
    SMap.wf d (m.filter f) = true := by
  rw [smap_wf_iff] at *
  exact ⟨h.1.filter f, fun p hp => h.2 p (List.mem_filter.mp hp).1⟩

theorem smap_wf_insert [DecidableEq α] {d : α} {m : List (Nat × α)} {i : Nat} {v : α} (hv : v ≠ d)
    (hi : ∀ p ∈ m, p.1 ≠ i) (h : SMap.wf d m = true) : SMap.wf d (SMap.insert m i v) = true := by
  rw [smap_wf_iff] at *
  refine ⟨?_, fun p hp => ?_⟩
  · obtain ⟨hp, -⟩ := h
    induction m with
    | nil => simp [SMap.insert]
    | cons q m ih =>
      obtain ⟨k, w⟩ := q
      simp only [SMap.insert]
      have hk : k ≠ i := hi (k, w) (by simp)
      rw [List.pairwise_cons] at hp
      split
      · rename_i hik
        refine List.Pairwise.cons (fun x hx => ?_) (List.pairwise_cons.mpr hp)
        rcases List.mem_cons.mp hx with rfl | hx
        · exact hik
        · exact Nat.lt_trans hik (hp.1 x hx)
      · rename_i hik
        refine List.Pairwise.cons (fun x hx => ?_) (ih (fun p hp' => hi p (by simp [hp'])) hp.2)
        rcases (smap_mem_insert m i v x).mp hx with rfl | hx
        · change k < i; omega
        · exact hp.1 x hx
  · rcases (smap_mem_insert m i v p).mp hp with rfl | hp
    · exact hv
    · exact h.2 p hp

/-- Storing keeps the canonical form. -/
theorem smap_wf_put [DecidableEq α] {d : α} {m : List (Nat × α)} {i : Nat} {v : α} (h : SMap.wf d m = true) :
    SMap.wf d (SMap.put d m i v) = true := by
  unfold SMap.put
  split
  · exact smap_wf_filter _ h
  · rename_i hv
    exact smap_wf_insert hv (smap_key_erase m i) (smap_wf_filter _ h)

/-! ### Memory -/

theorem memory_wf_memPut {m : List Host.Cell} {a : Nat} {bs : List Byte} (h : Memory.wf m = true) :
    Memory.wf (memPut m a bs) = true := by
  induction bs generalizing m a with
  | nil => exact h
  | cons b bs ih => exact ih (smap_wf_put h)

theorem memory_wf_foldl {β : Type} {m : List Host.Cell} {xs : List β} {k : β → Nat} {v : β → Byte}
    (h : Memory.wf m = true) : Memory.wf (xs.foldl (fun m x => SMap.put 0 m (k x) (v x)) m) = true := by
  induction xs generalizing m with
  | nil => exact h
  | cons x xs ih => exact ih (smap_wf_put h)

/-- What memory reads after a write: the bytes written, and outside them what it read before. -/
theorem memPut_get (m : List Host.Cell) (a : Nat) (bs : List Byte) (x : Nat) :
    SMap.get 0 (memPut m a bs) x = if a ≤ x ∧ x < a + bs.length then bs.getD (x - a) 0 else SMap.get 0 m x := by
  induction bs generalizing m a with
  | nil =>
    rw [if_neg (by simp only [List.length_nil]; omega)]
    rfl
  | cons b bs ih =>
    rw [memPut, ih, smap_get_put]
    simp only [List.length_cons]
    by_cases hx : x = a
    · subst hx
      rw [if_neg (by omega), if_pos rfl, if_pos (by omega)]
      simp
    · rw [if_neg hx]
      by_cases h : a + 1 ≤ x ∧ x < a + 1 + bs.length
      · rw [if_pos h, if_pos (by omega), show x - a = (x - (a + 1)) + 1 by omega, List.getD_cons_succ]
      · rw [if_neg h, if_neg (by omega)]

theorem memByte_memWrite (s : State) (a : Nat) (bs : List Byte) (x : Nat) :
    memByte (memWrite s a bs) x = if a ≤ x ∧ x < a + bs.length then bs.getD (x - a) 0 else memByte s x :=
  memPut_get s.mem a bs x

theorem smap_get_filter_keep (d : α) (m : List (Nat × α)) (f : Nat → Bool) (x : Nat) :
    SMap.get d (m.filter fun c => f c.1) x = if f x then SMap.get d m x else d := by
  induction m with
  | nil => simp [SMap.get]
  | cons p m ih =>
    obtain ⟨k, v⟩ := p
    by_cases hk : x = k
    · subst hk
      by_cases hf : f x = true
      · simp [hf, SMap.get]
      · simp only [List.filter_cons, hf, Bool.false_eq_true, if_false] at *
        exact ih
    · by_cases hf : f k = true
      · simp only [List.filter_cons, hf, if_true, SMap.get, hk, if_false, ih]
      · simp only [List.filter_cons, hf, Bool.false_eq_true, if_false, SMap.get, hk, ih]

/-- What memory reads after a range is cleared. -/
theorem memByte_memClear (s : State) (lo hi x : Nat) :
    memByte (memClear s lo hi) x = if x < lo ∨ hi ≤ x then memByte s x else 0 := by
  have e := smap_get_filter_keep (0 : Byte) s.mem (fun a => decide (a < lo) || decide (hi ≤ a)) x
  simp only [Bool.or_eq_true, decide_eq_true_eq] at e
  exact e

end Sys2Proof.Laws
end

