-- ==== Sys2Proof/Laws/Keeps.lean ====
section
/-! SUPPORT. What every operation of the model keeps: the queue of waiting commands, the factory identity and the
canonical form of both memories, said once for each kind of result; the laws of the operations cite these. -/

namespace Sys2Proof.Laws
open Sys2Proof Sys2Proof.Machine

/-- From one state to a later one: queue and factory identity are as they were, both memories stay canonical. -/
structure Keeps (s t : State) : Prop where
  pending : t.pending = s.pending
  fused : t.fused = s.fused
  mem : Memory.wf s.mem = true → Memory.wf t.mem = true
  host : Memory.wf s.hostOut = true → Memory.wf t.hostOut = true

/-- The same of each kind of result that holds a state. -/
structure KeepsOpt (z : State) (o : Option State) : Prop where
  of : ∀ t, o = some t → Keeps z t
structure KeepsOptFst {α : Type} (z : State) (o : Option (State × α)) : Prop where
  of : ∀ t, o = some t → Keeps z t.1
structure KeepsExcept (z : State) (o : Except Nat State) : Prop where
  of : ∀ t, o = .ok t → Keeps z t
structure KeepsNext (z : State) (o : Host.Outcome State Fault Refusal) : Prop where
  of : ∀ t, o = .next t → Keeps z t
structure KeepsRes (z : State) (o : VRes) : Prop where
  of : ∀ t, (∃ ws, o = .done t ws) ∨ (∃ ws k w, o = .wait t ws k w) → Keeps z t
structure KeepsSend (z : State) (o : SendRes) : Prop where
  of : ∀ t, o = .sent t ∨ o = .closed t → Keeps z t
structure KeepsFwd (z : State) (o : Fwd) : Prop where
  of : ∀ t n, o = .done t n → Keeps z t

theorem keeps_refl (s : State) : Keeps s s := ⟨rfl, rfl, id, id⟩

theorem keeps_trans {s t u : State} (h : Keeps s t) (k : Keeps t u) : Keeps s u :=
  ⟨k.pending.trans h.pending, k.fused.trans h.fused, fun w => k.mem (h.mem w), fun w => k.host (h.host w)⟩

variable {α : Type} {z s t : State}

theorem keeps_memWf (h : Keeps s t) (w : MemWf s) : MemWf t := ⟨h.mem w.1, h.host w.2⟩

/-! ### Leaves -/

theorem keepsOpt_some (h : Keeps z s) : KeepsOpt z (some s) := ⟨by rintro _ ⟨⟩; exact h⟩
theorem keepsOpt_none : KeepsOpt z none := ⟨by rintro _ ⟨⟩⟩
theorem keepsOptFst_some {p : State × α} (h : Keeps z p.1) : KeepsOptFst z (some p) := ⟨by rintro _ ⟨⟩; exact h⟩
theorem keepsOptFst_none : KeepsOptFst (α := α) z none := ⟨by rintro _ ⟨⟩⟩
theorem keepsExcept_ok (h : Keeps z s) : KeepsExcept z (.ok s) := ⟨by rintro _ ⟨⟩; exact h⟩
theorem keepsExcept_error {n : Nat} : KeepsExcept z (.error n) := ⟨by rintro _ ⟨⟩⟩
theorem keepsNext_next (h : Keeps z s) : KeepsNext z (.next s) := ⟨by rintro _ ⟨⟩; exact h⟩
theorem keepsNext_fault {r : Fault} : KeepsNext z (.fault r) := ⟨by rintro _ ⟨⟩⟩
theorem keepsRes_done {ws : List (Nat × Wr)} (h : Keeps z s) : KeepsRes z (.done s ws) :=
  ⟨by rintro _ (⟨_, ⟨⟩⟩ | ⟨_, _, _, ⟨⟩⟩); exact h⟩
theorem keepsRes_trap {c : Nat} : KeepsRes z (.trap c) := ⟨by rintro _ (⟨_, ⟨⟩⟩ | ⟨_, _, _, ⟨⟩⟩)⟩
theorem keepsRes_wait {ws : List (Nat × Wr)} {k : Nat} {w : WaitRec} (h : Keeps z s) : KeepsRes z (.wait s ws k w) :=
  ⟨by rintro _ (⟨_, ⟨⟩⟩ | ⟨_, _, _, ⟨⟩⟩); exact h⟩
theorem keepsSend_sent (h : Keeps z s) : KeepsSend z (.sent s) := ⟨by rintro _ (⟨⟨⟩⟩ | ⟨⟨⟩⟩); exact h⟩
theorem keepsSend_closed (h : Keeps z s) : KeepsSend z (.closed s) := ⟨by rintro _ (⟨⟨⟩⟩ | ⟨⟨⟩⟩); exact h⟩
theorem keepsSend_block : KeepsSend z .block := ⟨by rintro _ (⟨⟨⟩⟩ | ⟨⟨⟩⟩)⟩
theorem keepsSend_format : KeepsSend z .format := ⟨by rintro _ (⟨⟨⟩⟩ | ⟨⟨⟩⟩)⟩
theorem keepsFwd_done {n : Nat} (h : Keeps z s) : KeepsFwd z (.done s n) := ⟨by rintro _ _ ⟨⟩; exact h⟩
theorem keepsFwd_full : KeepsFwd z .full := ⟨by rintro _ _ ⟨⟩⟩
theorem keepsFwd_trap {c : Nat} : KeepsFwd z (.trap c) := ⟨by rintro _ _ ⟨⟩⟩

/-! ### A result that was taken apart -/

theorem of_fst {p : State × α} {x : α} (h : Keeps z p.1) (e : p = (t, x)) : Keeps z t := by subst e; exact h
theorem of_opt {o : Option State} (h : KeepsOpt z o) (e : o = some t) : Keeps z t := h.of t e
theorem of_optFst {o : Option (State × α)} {x : α} (h : KeepsOptFst z o) (e : o = some (t, x)) : Keeps z t := h.of _ e
theorem of_optPair {o : Option (State × α)} {p : State × α} (h : KeepsOptFst z o) (e : o = some p) : Keeps z p.1 := h.of _ e
theorem of_except {o : Except Nat State} (h : KeepsExcept z o) (e : o = .ok t) : Keeps z t := h.of t e
theorem of_res {o : VRes} {ws : List (Nat × Wr)} (h : KeepsRes z o) (e : o = .done t ws) : Keeps z t :=
  h.of t (.inl ⟨ws, e⟩)
theorem of_wait {o : VRes} {ws : List (Nat × Wr)} {k : Nat} {w : WaitRec} (h : KeepsRes z o) (e : o = .wait t ws k w) : Keeps z t :=
  h.of t (.inr ⟨ws, k, w, e⟩)

theorem of_sent {o : SendRes} (h : KeepsSend z o) (e : o = .sent t) : Keeps z t := h.of t (.inl e)
theorem of_closed {o : SendRes} (h : KeepsSend z o) (e : o = .closed t) : Keeps z t := h.of t (.inr e)
theorem of_fwd {o : Fwd} {n : Nat} (h : KeepsFwd z o) (e : o = .done t n) : Keeps z t := h.of t n e
theorem res_eq {o p : VRes} (h : KeepsRes z p) (e : p = o) : KeepsRes z o := e ▸ h
theorem opt_eq {o p : Option State} (h : KeepsOpt z p) (e : p = o) : KeepsOpt z o := e ▸ h
theorem except_eq {o p : Except Nat State} (h : KeepsExcept z p) (e : p = o) : KeepsExcept z o := e ▸ h

/-! ### Folds and updates -/

theorem keeps_foldl {f : State → α → State} {xs : List α} (h : Keeps z s)
    (hf : ∀ s x, Keeps z s → Keeps z (f s x)) : Keeps z (xs.foldl f s) := by
  induction xs generalizing s with
  | nil => exact h
  | cons x xs ih => exact ih (hf s x h)

/-- A fold that carries a second value beside the state. -/
theorem keeps_foldl_fst {β : Type} {f : State × β → α → State × β} {xs : List α} {p : State × β} (h : Keeps z p.1)
    (hf : ∀ p x, Keeps z p.1 → Keeps z (f p x).1) : Keeps z (xs.foldl f p).1 := by
  induction xs generalizing p with
  | nil => exact h
  | cons x xs ih => exact ih (hf p x h)

theorem keeps_getD {o : Option State} (h : KeepsOpt z o) (k : Keeps z s) : Keeps z (o.getD s) := by
  cases o with
  | none => exact k
  | some t => exact h.of t rfl

theorem keepsOpt_map {o : Option α} {f : α → State} (h : ∀ x, Keeps z (f x)) : KeepsOpt z (o.map f) := by
  cases o with
  | none => exact keepsOpt_none
  | some x => exact keepsOpt_some (h x)

theorem keepsOpt_bind {o : Option State} {f : State → Option State} (h : KeepsOpt z o)
    (hf : ∀ s, Keeps z s → KeepsOpt z (f s)) : KeepsOpt z (o.bind f) := by
  cases o with
  | none => exact keepsOpt_none
  | some t => exact hf t (h.of t rfl)

theorem keeps_id (h : Keeps z s) : Keeps z (id s) := h

/-- An update of any part but the queue, the factory identity and the memories. -/
theorem keeps_mk {time pins pwr tiles fields rings plies farStacks tens hports sports box can net
    agentReqs reqSeq agentSeq agentTaken agentNack agentOut agentPark hbSeen hbMissed hbLost poison latent regOut regPoison freeCtr}
    (h : Keeps z s) : Keeps z (State.mk s.pending s.fused time pins pwr tiles fields rings plies farStacks tens hports
      sports box can net agentReqs reqSeq agentSeq agentTaken agentNack agentOut agentPark hbSeen hbMissed hbLost s.mem
      poison latent s.hostOut
      regOut regPoison freeCtr) := ⟨h.pending, h.fused, h.mem, h.host⟩

/-- An update of memory that keeps its canonical form. -/
theorem keeps_mem {m : List Host.Cell} (h : Keeps z s) (w : Memory.wf s.mem = true → Memory.wf m = true) :
    Keeps z { s with mem := m } := ⟨h.pending, h.fused, fun k => w (h.mem k), h.host⟩

theorem keeps_hostOut {m : List Host.Cell} (h : Keeps z s)
    (w : Memory.wf s.hostOut = true → Memory.wf m = true) : Keeps z { s with hostOut := m } :=
  ⟨h.pending, h.fused, h.mem, fun k => w (h.host k)⟩

end Sys2Proof.Laws
end

