-- ==== Sys2Proof/Laws/Ops.lean ====
section
/-! SUPPORT. What the operations of Machine/Ops.lean keep: queue, factory identity, canonical memories. -/

namespace Sys2Proof.Laws
open Sys2Proof Sys2Proof.Machine

theorem keeps_setTile {z s : State} {i : Nat} {t : Tile} (hz : Keeps z s) :
    Keeps z (setTile s i t) := by
  dsimp only [setTile]
  repeat' first
    | with_reducible assumption
    | with_reducible apply keeps_mk

theorem keeps_modTile {z s : State} {i : Nat} {f : Tile → Tile} (hz : Keeps z s) :
    Keeps z (modTile s i f) := by
  dsimp only [modTile]
  repeat' first
    | with_reducible assumption
    | with_reducible apply keeps_setTile

theorem keeps_setField {z s : State} {i : Nat} {t : Field} (hz : Keeps z s) :
    Keeps z (setField s i t) := by
  dsimp only [setField]
  repeat' first
    | with_reducible assumption
    | with_reducible apply keeps_mk

theorem keeps_modField {z s : State} {i : Nat} {f : Field → Field} (hz : Keeps z s) :
    Keeps z (modField s i f) := by
  dsimp only [modField]
  repeat' first
    | with_reducible assumption
    | with_reducible apply keeps_setField

theorem keeps_setRing {z s : State} {i : Nat} {t : Ring} (hz : Keeps z s) :
    Keeps z (setRing s i t) := by
  dsimp only [setRing]
  repeat' first
    | with_reducible assumption
    | with_reducible apply keeps_mk

theorem keeps_modRing {z s : State} {i : Nat} {f : Ring → Ring} (hz : Keeps z s) :
    Keeps z (modRing s i f) := by
  dsimp only [modRing]
  repeat' first
    | with_reducible assumption
    | with_reducible apply keeps_setRing

theorem keeps_setPly {z s : State} {i : Nat} {t : Ply} (hz : Keeps z s) :
    Keeps z (setPly s i t) := by
  dsimp only [setPly]
  repeat' first
    | with_reducible assumption
    | with_reducible apply keeps_mk

theorem keeps_modPly {z s : State} {i : Nat} {f : Ply → Ply} (hz : Keeps z s) :
    Keeps z (modPly s i f) := by
  dsimp only [modPly]
  repeat' first
    | with_reducible assumption
    | with_reducible apply keeps_setPly

theorem keeps_setStack {z s : State} {i : Nat} {t : Stack} (hz : Keeps z s) :
    Keeps z (setStack s i t) := by
  dsimp only [setStack]
  repeat' first
    | with_reducible assumption
    | with_reducible apply keeps_mk

theorem keeps_modStack {z s : State} {i : Nat} {f : Stack → Stack} (hz : Keeps z s) :
    Keeps z (modStack s i f) := by
  dsimp only [modStack]
  repeat' first
    | with_reducible assumption
    | with_reducible apply keeps_setStack

theorem keeps_setTen {z s : State} {i : Nat} {t : Tenancy} (hz : Keeps z s) :
    Keeps z (setTen s i t) := by
  dsimp only [setTen]
  repeat' first
    | with_reducible assumption
    | with_reducible apply keeps_mk

theorem keeps_modTen {z s : State} {i : Nat} {f : Tenancy → Tenancy} (hz : Keeps z s) :
    Keeps z (modTen s i f) := by
  dsimp only [modTen]
  repeat' first
    | with_reducible assumption
    | with_reducible apply keeps_setTen

theorem keeps_setHport {z s : State} {i : Nat} {t : HPort} (hz : Keeps z s) :
    Keeps z (setHport s i t) := by
  dsimp only [setHport]
  repeat' first
    | with_reducible assumption
    | with_reducible apply keeps_mk

theorem keeps_modHport {z s : State} {i : Nat} {f : HPort → HPort} (hz : Keeps z s) :
    Keeps z (modHport s i f) := by
  dsimp only [modHport]
  repeat' first
    | with_reducible assumption
    | with_reducible apply keeps_setHport

theorem keeps_setSport {z s : State} {i : Nat} {t : SPort} (hz : Keeps z s) :
    Keeps z (setSport s i t) := by
  dsimp only [setSport]
  repeat' first
    | with_reducible assumption
    | with_reducible apply keeps_mk

theorem keeps_modSport {z s : State} {i : Nat} {f : SPort → SPort} (hz : Keeps z s) :
    Keeps z (modSport s i f) := by
  dsimp only [modSport]
  repeat' first
    | with_reducible assumption
    | with_reducible apply keeps_setSport

theorem keeps_modNearCh {z s : State} {f c : Nat} {g : NearCh → NearCh} (hz : Keeps z s) :
    Keeps z (modNearCh s f c g) := by
  dsimp only [modNearCh]
  repeat' first
    | with_reducible assumption
    | intro _
    | with_reducible apply keeps_modField
    | with_reducible apply keeps_mk

theorem keeps_memWrite {z : State} {s : State} {a : Nat} {bs : List Byte} (hz : Keeps z s) :
    Keeps z (memWrite s a bs) := keeps_mk (keeps_mem hz memory_wf_memPut)

theorem keeps_poisonLanes {z s : State} {ls : List Nat} (hz : Keeps z s) :
    Keeps z (poisonLanes s ls) := by
  dsimp only [poisonLanes]
  repeat' first
    | with_reducible assumption
    | with_reducible apply keeps_foldl
    | with_reducible apply keeps_mk

theorem keeps_memWriteP {z s : State} {a : Nat} {bs : List Byte} {ls : List Nat} (hz : Keeps z s) :
    Keeps z (memWriteP s a bs ls) := by
  dsimp only [memWriteP]
  repeat' first
    | with_reducible assumption
    | with_reducible apply keeps_poisonLanes
    | with_reducible apply keeps_memWrite

theorem keeps_memClear {z : State} {s : State} {lo hi : Nat} (hz : Keeps z s) :
    Keeps z (memClear s lo hi) := keeps_mk (keeps_mem hz (smap_wf_filter _))

theorem keeps_copyMem {z : State} {s : State} {src dst len : Nat} (hz : Keeps z s) :
    Keeps z (copyMem s src dst len) := keeps_poisonLanes (keeps_mem (keeps_memClear hz) memory_wf_foldl)

theorem keeps_hostWrite {z : State} {s : State} {port a : Nat} {bs : List Byte} (hz : Keeps z s) :
    Keeps z (hostWrite s port a bs) := keeps_hostOut hz memory_wf_memPut

theorem keeps_modRun {z s : State} {t : Nat} {f : Run → Run} (hz : Keeps z s) :
    Keeps z (modRun s t f) := by
  dsimp only [modRun]
  repeat' first
    | with_reducible assumption
    | intro _
    | with_reducible apply keeps_modTen
    | with_reducible apply keeps_mk

theorem keeps_stageRec {z s : State} {ply : Nat} {r : EvRec} (hz : Keeps z s) :
    Keeps z (stageRec s ply r) := by
  dsimp only [stageRec]
  repeat' first
    | with_reducible assumption
    | intro _
    | with_reducible apply keeps_modPly
    | with_reducible apply keeps_setPly
    | split
    | with_reducible apply keeps_mk

theorem keeps_evModule {z s : State} {cls code detail : Nat} {ten : Option Nat} {level : Nat} {reh : Bool} (hz : Keeps z s) :
    Keeps z (evModule s cls code detail ten level reh) := by
  dsimp only [evModule]
  repeat' first
    | with_reducible assumption
    | split
    | with_reducible apply keeps_mk

theorem keeps_evField {z s : State} {f cls code : Nat} {detail level : Nat} (hz : Keeps z s) :
    Keeps z (evField s f cls code detail level) := by
  dsimp only [evField]
  repeat' first
    | with_reducible assumption
    | with_reducible apply keeps_stageRec
    | split

theorem keeps_evRing {z s : State} {r cls code : Nat} {detail level : Nat} (hz : Keeps z s) :
    Keeps z (evRing s r cls code detail level) := by
  dsimp only [evRing]
  repeat' first
    | with_reducible assumption
    | with_reducible apply keeps_evField

theorem keeps_evTile {z s : State} {i cls code : Nat} {detail level : Nat} (hz : Keeps z s) :
    Keeps z (evTile s i cls code detail level) := by
  dsimp only [evTile]
  repeat' first
    | with_reducible assumption
    | with_reducible apply keeps_stageRec
    | split

theorem keeps_evAccess {z s : State} {ma : Nat} (hz : Keeps z s) :
    Keeps z (evAccess s ma) := by
  dsimp only [evAccess]
  repeat' first
    | with_reducible assumption
    | with_reducible apply keeps_evModule

theorem keeps_noteReal {z s : State} {t : Option Nat} (hz : Keeps z s) :
    Keeps z (noteReal s t) := by
  dsimp only [noteReal]
  repeat' first
    | with_reducible assumption
    | split
    | with_reducible apply keeps_mk

theorem keeps_failRun {z s : State} {t m : Nat} (hz : Keeps z s) :
    Keeps z (failRun s t m) := by
  dsimp only [failRun]
  repeat' first
    | with_reducible assumption
    | intro _
    | with_reducible apply keeps_modRun
    | with_reducible apply keeps_mk

theorem keeps_failRing {z s : State} {r m : Nat} (hz : Keeps z s) :
    Keeps z (failRing s r m) := by
  dsimp only [failRing]
  repeat' first
    | with_reducible assumption
    | with_reducible apply keeps_failRun
    | split

theorem keeps_failTile {z s : State} {i m : Nat} (hz : Keeps z s) :
    Keeps z (failTile s i m) := by
  dsimp only [failTile]
  repeat' first
    | with_reducible assumption
    | intro _
    | with_reducible apply keeps_modRun
    | with_reducible apply keeps_failRun
    | split
    | with_reducible apply keeps_mk

theorem keeps_failCheck {z s : State} {i m : Nat} (hz : Keeps z s) :
    Keeps z (failCheck s i m) := by
  dsimp only [failCheck]
  repeat' first
    | with_reducible assumption
    | with_reducible apply keeps_evTile
    | with_reducible apply keeps_failTile

theorem keeps_failLate {z s : State} {r m : Nat} (hz : Keeps z s) :
    Keeps z (failLate s r m) := by
  dsimp only [failLate]
  repeat' first
    | with_reducible assumption
    | intro _
    | with_reducible apply keeps_modRun
    | split
    | with_reducible apply keeps_mk

theorem keeps_refine {z s : State} {ply : Nat} {e : BitVec 128} (hz : Keeps z s) :
    Keeps z (refine s ply e) := by
  dsimp only [refine]
  repeat' first
    | with_reducible assumption
    | intro _
    | with_reducible apply keeps_modPly
    | split
    | with_reducible apply keeps_mk

theorem keeps_setSiteMap {z s : State} {i : Nat} {m : SiteMap} (hz : Keeps z s) :
    Keeps z (setSiteMap s i m) := by
  dsimp only [setSiteMap]
  repeat' first
    | with_reducible assumption
    | intro _
    | with_reducible apply keeps_modField
    | with_reducible apply keeps_mk

theorem keeps_siteDies {z s : State} {i : Nat} (hz : Keeps z s) :
    Keeps z (siteDies s i) := by
  dsimp only [siteDies]
  repeat' first
    | with_reducible assumption
    | intro _
    | with_reducible apply keeps_modTile
    | with_reducible apply keeps_failTile
    | with_reducible apply keeps_evTile
    | split
    | with_reducible apply keeps_mk

theorem keeps_siteFails {z s : State} {i : Nat} {unresolved : Bool} {csrc cause : Nat} (hz : Keeps z s) :
    Keeps z (siteFails s i unresolved csrc cause) := by
  dsimp only [siteFails]
  repeat' first
    | with_reducible assumption
    | with_reducible apply keeps_noteReal
    | with_reducible apply keeps_setSiteMap
    | with_reducible apply keeps_refine
    | with_reducible apply keeps_siteDies
    | split

theorem keeps_siteUnresolved {z s : State} {i cause : Nat} (hz : Keeps z s) :
    Keeps z (siteUnresolved s i cause) := by
  dsimp only [siteUnresolved]
  repeat' first
    | with_reducible assumption
    | with_reducible apply keeps_noteReal
    | with_reducible apply keeps_setSiteMap
    | with_reducible apply keeps_refine
    | with_reducible apply keeps_siteDies
    | split

theorem keeps_trapTile {z s : State} {i code : Nat} {src : Src} {sw : Nat} (hz : Keeps z s) :
    Keeps z (trapTile s i code src sw) := by
  dsimp only [trapTile]
  repeat' first
    | with_reducible assumption
    | intro _
    | with_reducible apply keeps_setTile
    | with_reducible apply keeps_modTile
    | with_reducible apply keeps_modRun
    | with_reducible apply keeps_evTile
    | with_reducible apply keeps_siteFails
    | split
    | with_reducible apply keeps_mk

end Sys2Proof.Laws
end

