-- ==== Sys2Proof/Laws/Net.lean ====
section
/-! SUPPORT. What the operations of Machine/Net.lean keep: queue, factory identity, canonical memories. -/

namespace Sys2Proof.Laws
open Sys2Proof Sys2Proof.Machine

theorem keeps_inject {z s : State} {f g : Nat} {b : Body} (hz : Keeps z s) :
    Keeps z (inject s f g b) := by
  dsimp only [inject]
  repeat' first
    | with_reducible assumption
    | split
    | with_reducible apply keeps_mk

theorem keeps_sendCtl {z s : State} {c : CtlMsg} (hz : Keeps z s) :
    Keeps z (sendCtl s c) := by
  dsimp only [sendCtl]
  repeat' first
    | with_reducible assumption
    | with_reducible apply keeps_inject

theorem keeps_sendData {z s : State} {d : DataMsg} (hz : Keeps z s) :
    Keeps z (sendData s d) := by
  dsimp only [sendData]
  repeat' first
    | with_reducible assumption
    | with_reducible apply keeps_inject

theorem keeps_sendMcast {z s : State} {d : DataMsg} (hz : Keeps z s) :
    Keeps z (sendMcast s d) := by
  dsimp only [sendMcast]
  repeat' first
    | with_reducible assumption
    | intro _
    | split
    | with_reducible apply keeps_mk

theorem keeps_launch {z s : State} {d : DataMsg} (hz : Keeps z s) :
    Keeps z (launch s d) := by
  dsimp only [launch]
  repeat' first
    | with_reducible assumption
    | with_reducible apply keeps_sendMcast
    | with_reducible apply keeps_sendData
    | split

theorem keeps_setReqs {z s : State} {src : BitVec 16} {q : List Req} (hz : Keeps z s) :
    Keeps z (setReqs s src q) := by
  dsimp only [setReqs]
  repeat' first
    | with_reducible assumption
    | intro _
    | with_reducible apply keeps_modTile
    | split
    | with_reducible apply keeps_mk

theorem keeps_sendReq {z s : State} {d : DataMsg} (hz : Keeps z s) :
    Keeps z (sendReq s d) := by
  dsimp only [sendReq]
  repeat' first
    | with_reducible assumption
    | with_reducible apply keeps_launch
    | with_reducible apply keeps_setReqs

theorem keeps_takeCredit {z s : State} {d : DataMsg} (hz : Keeps z s) :
    Keeps z (takeCredit s d) := by
  dsimp only [takeCredit]
  repeat' first
    | with_reducible assumption
    | split
    | with_reducible apply keeps_mk

theorem keeps_creditBack {z s : State} {d : DataMsg} (hz : Keeps z s) :
    Keeps z (creditBack s d) := by
  dsimp only [creditBack]
  repeat' first
    | with_reducible assumption
    | split
    | with_reducible apply keeps_mk

theorem keeps_agentReq {z s : State} {d : DataMsg} (hz : Keeps z s) :
    Keeps z (agentReq s d) := by
  dsimp only [agentReq]
  repeat' first
    | with_reducible assumption
    | with_reducible apply keeps_sendReq
    | with_reducible apply keeps_takeCredit
    | with_reducible apply keeps_setReqs
    | split

theorem keeps_releaseHeldReq {z s : State} {src : BitVec 16} (hz : Keeps z s) :
    Keeps z (releaseHeldReq s src) := by
  dsimp only [releaseHeldReq]
  repeat' first
    | with_reducible assumption
    | intro _
    | with_reducible apply keeps_launch
    | with_reducible apply keeps_takeCredit
    | with_reducible apply keeps_setReqs
    | split
    | with_reducible apply keeps_mk

theorem keeps_answer {z s : State} {d : DataMsg} {nack : Bool} {reason : Nat} {mc : Option Nat} (hz : Keeps z s) :
    Keeps z (answer s d nack reason mc) := by
  dsimp only [answer]
  repeat' first
    | with_reducible assumption
    | with_reducible apply keeps_sendCtl
    | split

theorem keeps_countStale {z s : State} {r : Nat} (hz : Keeps z s) :
    Keeps z (countStale s r) := by
  dsimp only [countStale]
  repeat' first
    | with_reducible assumption
    | intro _
    | with_reducible apply keeps_modRing
    | with_reducible apply keeps_mk

end Sys2Proof.Laws
end

