-- ==== Sys2Proof/Laws/Windows.lean ====
section
/-! SUPPORT. What the operations of Machine/Windows.lean keep: queue, factory identity, canonical memories. -/

namespace Sys2Proof.Laws
open Sys2Proof Sys2Proof.Machine

theorem keeps_markWritten {z s : State} {a : Nat} (hz : Keeps z s) :
    Keeps z (markWritten s a) := by
  dsimp only [markWritten]
  repeat' first
    | with_reducible assumption
    | intro _
    | with_reducible apply keeps_modStack
    | split
    | with_reducible apply keeps_mk

theorem keeps_noteWrite {z s : State} {a len : Nat} (hz : Keeps z s) :
    Keeps z (noteWrite s a len) := by
  dsimp only [noteWrite]
  repeat' first
    | with_reducible assumption
    | intro _
    | with_reducible apply keeps_modField
    | with_reducible apply keeps_modRun
    | with_reducible apply keeps_foldl
    | split
    | with_reducible apply keeps_mk

theorem keeps_placeWrite {z s : State} {a : Nat} {bs : List Byte} {psn : List Nat} (hz : Keeps z s) :
    Keeps z (placeWrite s a bs psn) := by
  dsimp only [placeWrite]
  repeat' first
    | with_reducible assumption
    | with_reducible apply keeps_markWritten
    | with_reducible apply keeps_memWriteP
    | with_reducible apply keeps_noteWrite

theorem keeps_winWrite {z s : State} {x : Tenancy} {w : Window} {ta : Nat} {bs : List Byte} {psn : List Nat} (hz : Keeps z s) :
    Keeps z (winWrite s x w ta bs psn) := by
  dsimp only [winWrite]
  repeat' first
    | with_reducible assumption
    | intro _
    | with_reducible apply keeps_placeWrite
    | with_reducible apply keeps_foldl
    | split

theorem keeps_setSpillTag {z s : State} {a tag : Nat} (hz : Keeps z s) :
    Keeps z (setSpillTag s a tag) := by
  dsimp only [setSpillTag]
  repeat' first
    | with_reducible assumption
    | intro _
    | with_reducible apply keeps_modStack
    | with_reducible apply keeps_modField
    | split
    | with_reducible apply keeps_mk

theorem keeps_setTags {z s : State} {x : Tenancy} {w : Window} {ta len : Nat} (hz : Keeps z s) :
    Keeps z (setTags s x w ta len) := by
  dsimp only [setTags]
  repeat' first
    | with_reducible assumption
    | intro _
    | with_reducible apply keeps_setSpillTag
    | with_reducible apply keeps_foldl

end Sys2Proof.Laws
end

