-- ==== Sys2Proof/Laws/Spm.lean ====
section
/-! SUPPORT. What the operations of Machine/Spm.lean keep: queue, factory identity, canonical memories. -/

namespace Sys2Proof.Laws
open Sys2Proof Sys2Proof.Machine

theorem keeps_countDead {z s : State} {i row : Nat} {by_ : ReadBy} {old : Bool} {w : Nat} (hz : Keeps z s) :
    Keeps z (countDead s i row by_ old w) := by
  dsimp only [countDead]
  repeat' first
    | with_reducible assumption
    | intro _
    | with_reducible apply keeps_modTile
    | with_reducible apply keeps_siteUnresolved
    | with_reducible apply keeps_failTile
    | with_reducible apply keeps_siteFails
    | split
    | with_reducible apply keeps_mk

theorem keeps_countRebuilt {z s : State} {i row : Nat} {old : Bool} {w : Nat} (hz : Keeps z s) :
    Keeps z (countRebuilt s i row old w) := by
  dsimp only [countRebuilt]
  repeat' first
    | with_reducible assumption
    | intro _
    | with_reducible apply keeps_modTile
    | with_reducible apply keeps_siteFails
    | split
    | with_reducible apply keeps_mk

theorem keeps_deadRecords {z s : State} {i row : Nat} {by_ : ReadBy} {first : Bool} {dead : List Nat} (hz : Keeps z s) :
    Keeps z (deadRecords s i row by_ first dead) := by
  dsimp only [deadRecords]
  repeat' first
    | with_reducible assumption
    | intro _
    | with_reducible apply keeps_evTile
    | with_reducible apply keeps_foldl
    | split

theorem keeps_noteErrs {z s : State} {i row : Nat} {by_ : ReadBy} {e : RowErrs} {old : Bool} (hz : Keeps z s) :
    Keeps z (noteErrs s i row by_ e old) := by
  dsimp only [noteErrs]
  repeat' first
    | with_reducible assumption
    | intro _
    | with_reducible apply keeps_setTile
    | with_reducible apply keeps_evTile
    | with_reducible apply keeps_deadRecords
    | with_reducible apply keeps_countRebuilt
    | with_reducible apply keeps_countDead
    | with_reducible apply keeps_foldl
    | split
    | with_reducible apply keeps_mk

theorem keeps_noteRead {z s : State} {i row : Nat} {by_ : ReadBy} (hz : Keeps z s) :
    Keeps z (noteRead s i row by_) := by
  dsimp only [noteRead]
  repeat' first
    | with_reducible assumption
    | with_reducible apply keeps_noteErrs

theorem keeps_readRowIn {z s : State} {i row cc : Nat} (hz : Keeps z s) :
    Keeps z (readRowIn s i row cc).1 := by
  dsimp only [readRowIn]
  repeat' first
    | with_reducible assumption
    | with_reducible apply keeps_pair
    | with_reducible apply keeps_noteErrs
    | with_reducible apply keeps_noteRead
    | split

theorem keeps_readRowAt {z s : State} {i row cc : Nat} (hz : Keeps z s) :
    Keeps z (readRowAt s i row cc).1 := by
  dsimp only [readRowAt]
  repeat' first
    | with_reducible assumption
    | with_reducible apply keeps_pair
    | with_reducible apply keeps_readRowIn
    | (with_reducible refine of_fst ?_ (by assumption))

theorem keeps_readRows {z : State} {s : State} {i : Nat} {row : Nat} {cc : Nat} {step : Nat} {x5 : Nat} (hz : Keeps z s)  :
    Keeps z (readRows s i row cc step x5).1 := by
  induction x5 generalizing s i row cc step with
  | zero => dsimp only [readRows]; assumption
  | succ n ih =>
    dsimp only [readRows]
    repeat' first
      | with_reducible assumption
      | with_reducible apply ih
      | with_reducible apply keeps_pair
      | with_reducible apply keeps_readRowAt
      | (with_reducible refine of_fst ?_ (by assumption))
      | split

theorem keeps_readPairs {z : State} {s : State} {i : Nat} {row : Nat} {cc : Nat} {step : Nat} {k : Nat} {x6 : Nat} (hz : Keeps z s)  :
    Keeps z (readPairs s i row cc step k x6).1 := by
  induction x6 generalizing s i row cc step k with
  | zero => dsimp only [readPairs]; assumption
  | succ n ih =>
    dsimp only [readPairs]
    repeat' first
      | with_reducible assumption
      | with_reducible apply ih
      | with_reducible apply keeps_pair
      | with_reducible apply keeps_readRowAt
      | (with_reducible refine of_fst ?_ (by assumption))
      | split

theorem keeps_readPort {z s : State} {i row cc : Nat} {u : PortUse} {n : Nat} (hz : Keeps z s) :
    Keeps z (readPort s i row cc u n).1 := by
  dsimp only [readPort]
  repeat' first
    | with_reducible assumption
    | with_reducible apply keeps_pair
    | with_reducible apply keeps_readPairs
    | with_reducible apply keeps_readRows
    | (with_reducible refine of_fst ?_ (by assumption))
    | split

theorem keeps_carryPoison {z s : State} {i row : Nat} {psn : List Nat} (hz : Keeps z s) :
    Keeps z (carryPoison s i row psn) := by
  dsimp only [carryPoison]
  repeat' first
    | with_reducible assumption
    | with_reducible apply keeps_failCheck
    | split

theorem keeps_writeRow {z s : State} {i row : Nat} {bs : List Byte} {psn : List Nat} (hz : Keeps z s) :
    Keeps z (writeRow s i row bs psn) := by
  dsimp only [writeRow]
  repeat' first
    | with_reducible assumption
    | intro _
    | with_reducible apply keeps_memWriteP
    | with_reducible apply keeps_modTile
    | with_reducible apply keeps_carryPoison
    | split
    | with_reducible apply keeps_mk

theorem keeps_writeRows {z : State} {s : State} {i : Nat} {row : Nat} {x3 : List (List Byte × List Nat)} (hz : Keeps z s)  :
    Keeps z (writeRows s i row x3) := by
  induction x3 generalizing s i row with
  | nil => dsimp only [writeRows]; assumption
  | cons x xs ih =>
    dsimp only [writeRows]
    repeat' first
      | with_reducible assumption
      | with_reducible apply ih
      | with_reducible apply keeps_writeRow
      | split

theorem keeps_writeWord {z s : State} {i row w : Nat} {v : Nat} {psn : Bool} (hz : Keeps z s) :
    Keeps z (writeWord s i row w v psn) := by
  dsimp only [writeWord]
  repeat' first
    | with_reducible assumption
    | intro _
    | with_reducible apply keeps_memWriteP
    | with_reducible apply keeps_modTile
    | with_reducible apply keeps_carryPoison
    | split
    | with_reducible apply keeps_mk

theorem keeps_writeBytes {z s : State} {i off : Nat} {bs : List Byte} {psn : List Nat} (hz : Keeps z s) :
    Keeps z (writeBytes s i off bs psn) := by
  dsimp only [writeBytes]
  repeat' first
    | with_reducible assumption
    | intro _
    | with_reducible apply keeps_writeRow
    | with_reducible apply keeps_writeWord
    | with_reducible apply keeps_foldl
    | split

theorem keeps_keepOld {z s : State} {i row w : Nat} {st : Bool} {words : List Nat} (hz : Keeps z s) :
    Keeps z (keepOld s i row w st words) := by
  dsimp only [keepOld]
  repeat' first
    | with_reducible assumption
    | intro _
    | with_reducible apply keeps_modTile
    | with_reducible apply keeps_mk

theorem keeps_keepBefore {z s : State} {i row w : Nat} {st : Bool} {words : List Nat} {bs : List Byte} {psn : List Nat} {later : List OldRow} (hz : Keeps z s) :
    Keeps z (keepBefore s i row w st words bs psn later) := by
  dsimp only [keepBefore]
  repeat' first
    | with_reducible assumption
    | intro _
    | with_reducible apply keeps_modTile
    | with_reducible apply keeps_foldl
    | split
    | with_reducible apply keeps_mk

theorem keeps_writeRowAt {z s : State} {i row w : Nat} {bs : List Byte} {psn : List Nat} (hz : Keeps z s) :
    Keeps z (writeRowAt s i row w bs psn) := by
  dsimp only [writeRowAt]
  repeat' first
    | with_reducible assumption
    | intro _
    | with_reducible apply keeps_writeRow
    | with_reducible apply keeps_keepOld
    | with_reducible apply keeps_keepBefore
    | split

theorem keeps_writeWordAt {z s : State} {i row k : Nat} {w : Nat} {st : Bool} {v : Nat} {psn : Bool} (hz : Keeps z s) :
    Keeps z (writeWordAt s i row k w st v psn) := by
  dsimp only [writeWordAt]
  repeat' first
    | with_reducible assumption
    | with_reducible apply keeps_writeWord
    | with_reducible apply keeps_keepOld
    | with_reducible apply keeps_keepBefore
    | with_reducible apply keeps_carryPoison
    | split

theorem keeps_clearSpm {z s : State} {i : Nat} (hz : Keeps z s) :
    Keeps z (clearSpm s i) := by
  dsimp only [clearSpm]
  repeat' first
    | with_reducible assumption
    | intro _
    | with_reducible apply keeps_memClear
    | with_reducible apply keeps_modTile
    | split
    | with_reducible apply keeps_mk

theorem keeps_nearCorrected {z s : State} {f ch off : Nat} (hz : Keeps z s) :
    Keeps z (nearCorrected s f ch off) := by
  dsimp only [nearCorrected]
  repeat' first
    | with_reducible assumption
    | intro _
    | with_reducible apply keeps_modNearCh
    | with_reducible apply keeps_evField
    | with_reducible apply keeps_modField
    | split
    | with_reducible apply keeps_mk

theorem keeps_nearUncorrected {z s : State} {f ch off : Nat} (hz : Keeps z s) :
    Keeps z (nearUncorrected s f ch off) := by
  dsimp only [nearUncorrected]
  repeat' first
    | with_reducible assumption
    | intro _
    | with_reducible apply keeps_evField
    | with_reducible apply keeps_modNearCh
    | with_reducible apply keeps_mk

theorem keeps_noteTier {z s : State} {a : Nat} (hz : Keeps z s) :
    Keeps z (noteTier s a) := by
  dsimp only [noteTier]
  repeat' first
    | with_reducible assumption
    | intro _
    | with_reducible apply keeps_modStack
    | with_reducible apply keeps_evRing
    | with_reducible apply keeps_nearCorrected
    | with_reducible apply keeps_nearUncorrected
    | split
    | with_reducible apply keeps_mk

theorem keeps_noteRange {z s : State} {addr : Nat → Option Nat} {len : Nat} (hz : Keeps z s) :
    Keeps z (noteRange s addr len) := by
  dsimp only [noteRange]
  repeat' first
    | with_reducible assumption
    | intro _
    | with_reducible apply keeps_noteTier
    | with_reducible apply keeps_foldl
    | split

theorem keeps_noteSpan {z s : State} {a len : Nat} (hz : Keeps z s) :
    Keeps z (noteSpan s a len) := by
  dsimp only [noteSpan]
  repeat' first
    | with_reducible assumption
    | intro _
    | with_reducible apply keeps_noteTier
    | with_reducible apply keeps_foldl

theorem keeps_copyTier {z s : State} {src dst len : Nat} (hz : Keeps z s) :
    Keeps z (copyTier s src dst len) := by
  dsimp only [copyTier]
  repeat' first
    | with_reducible assumption
    | with_reducible apply keeps_noteSpan
    | with_reducible apply keeps_copyMem
    | with_reducible apply keeps_noteWrite

theorem keeps_noteCodeword {z s : State} {i ch a : Nat} {off : Nat} {v : VGranule} (hz : Keeps z s) :
    Keeps z (noteCodeword s i ch a off v) := by
  dsimp only [noteCodeword]
  repeat' first
    | with_reducible assumption
    | intro _
    | with_reducible apply keeps_nearCorrected
    | with_reducible apply keeps_nearUncorrected
    | with_reducible apply keeps_failTile
    | with_reducible apply keeps_copyTier
    | with_reducible apply keeps_evTile
    | with_reducible apply keeps_modRun
    | split
    | with_reducible apply keeps_mk

theorem keeps_readNear {z : State} {s : State} {i : Nat} {ch : Nat} {row : Nat} {x4 : Nat} (hz : Keeps z s)  :
    Keeps z (readNear s i ch row x4).1 := by
  induction x4 generalizing s i ch row with
  | zero => dsimp only [readNear]; assumption
  | succ n ih =>
    dsimp only [readNear]
    repeat' first
      | with_reducible assumption
      | with_reducible apply ih
      | intro _
      | with_reducible apply keeps_pair
      | with_reducible apply keeps_noteCodeword
      | with_reducible apply keeps_modTile
      | with_reducible apply keeps_foldl
      | split
      | with_reducible apply keeps_mk

theorem keeps_keepRow {z s : State} {n b a : Nat} {new : OldRow → OldRow} (hz : Keeps z s) :
    Keeps z (keepRow s n b a new) := by
  dsimp only [keepRow]
  repeat' first
    | with_reducible assumption
    | intro _
    | with_reducible apply keeps_modRun
    | split
    | with_reducible apply keeps_mk

theorem keeps_keepNear {z s : State} {i a : Nat} {r : RowRd} (hz : Keeps z s) :
    Keeps z (keepNear s i a r) := by
  dsimp only [keepNear]
  repeat' first
    | with_reducible assumption
    | intro _
    | with_reducible apply keeps_keepRow
    | split
    | with_reducible apply keeps_mk

theorem keeps_keepWrite {z s : State} {n : Nat} {w : Window} {ta : Nat} {bs : List Byte} {b : Nat} (hz : Keeps z s) :
    Keeps z (keepWrite s n w ta bs b) := by
  dsimp only [keepWrite]
  repeat' first
    | with_reducible assumption
    | intro _
    | with_reducible apply keeps_keepRow
    | with_reducible apply keeps_foldl
    | split
    | with_reducible apply keeps_mk

theorem keeps_writeNear {z : State} {s : State} {i : Nat} {ch : Nat} {row : Nat} {x4 : List RowRd} (hz : Keeps z s)  :
    Keeps z (writeNear s i ch row x4) := by
  induction x4 generalizing s i ch row with
  | nil => dsimp only [writeNear]; assumption
  | cons x xs ih =>
    dsimp only [writeNear]
    repeat' first
      | with_reducible assumption
      | with_reducible apply ih
      | intro _
      | with_reducible apply keeps_memWriteP
      | with_reducible apply keeps_noteWrite
      | with_reducible apply keeps_keepNear
      | with_reducible apply keeps_modField
      | split
      | with_reducible apply keeps_mk

theorem keeps_noteRow {z s : State} {i b k : Nat} {r : InRow} {x : InBuf} (hz : Keeps z s) :
    Keeps z (noteRow s i b k r x).1 := by
  dsimp only [noteRow]
  repeat' first
    | with_reducible assumption
    | intro _
    | with_reducible apply keeps_pair
    | with_reducible apply keeps_setTile
    | with_reducible apply keeps_evTile
    | split
    | with_reducible apply keeps_mk

theorem keeps_takeRow {z s : State} {i b : Nat} (hz : Keeps z s) :
    KeepsOptFst z (takeRow s i b) := by
  dsimp only [takeRow]
  repeat' first
    | with_reducible assumption
    | with_reducible apply keepsOptFst_some
    | with_reducible exact keepsOptFst_none
    | with_reducible apply keeps_noteRow
    | (with_reducible refine of_fst ?_ (by assumption))
    | split

theorem keeps_takeRows {z : State} {s : State} {i : Nat} {b : Nat} {x3 : Nat} (hz : Keeps z s)  :
    KeepsOptFst z (takeRows s i b x3) := by
  induction x3 generalizing s i b with
  | zero => dsimp only [takeRows]; with_reducible exact keepsOptFst_some hz
  | succ n ih =>
    dsimp only [takeRows]
    repeat' first
      | with_reducible assumption
      | with_reducible apply ih
      | with_reducible apply keepsOptFst_some
      | with_reducible exact keepsOptFst_none
      | with_reducible apply keeps_takeRow
      | (with_reducible refine of_optFst ?_ (by assumption))
      | (with_reducible refine of_optPair ?_ (by assumption))
      | split
      | (with_reducible refine of_optFst ?_ (by assumption))

theorem keeps_setWait {z s : State} {i : Nat} {w : WaitRec} (hz : Keeps z s) :
    Keeps z (setWait s i w) := by
  dsimp only [setWait]
  repeat' first
    | with_reducible assumption
    | intro _
    | with_reducible apply keeps_modTile
    | split
    | with_reducible apply keeps_mk

theorem keeps_clearWait {z s : State} {i unit : Nat} (hz : Keeps z s) :
    Keeps z (clearWait s i unit) := by
  dsimp only [clearWait]
  repeat' first
    | with_reducible assumption
    | intro _
    | with_reducible apply keeps_modTile
    | with_reducible apply keeps_mk

end Sys2Proof.Laws
end

