-- ==== Sys2Proof/Laws/Channel.lean ====
section
/-! SUPPORT. What the operations of Machine/Channel.lean keep: queue, factory identity, canonical memories. -/

namespace Sys2Proof.Laws
open Sys2Proof Sys2Proof.Machine

theorem keeps_payloadOf {z s : State} {i d : Nat} (hz : Keeps z s) :
    Keeps z (payloadOf s i d).1 := by
  dsimp only [payloadOf]
  repeat' first
    | with_reducible assumption
    | intro _
    | with_reducible apply keeps_pair
    | with_reducible apply keeps_noteRead
    | with_reducible apply keeps_noteRange
    | with_reducible apply keeps_foldl
    | split
    | with_reducible apply keeps_mk

theorem keeps_closedSend {z s : State} {i ch : Nat} (hz : Keeps z s) :
    Keeps z (closedSend s i ch) := by
  dsimp only [closedSend]
  repeat' first
    | with_reducible assumption
    | with_reducible apply keeps_setTile
    | with_reducible apply keeps_evTile
    | split
    | with_reducible apply keeps_mk

theorem keeps_chanSend {z s : State} {i ch d : Nat} (hz : Keeps z s) :
    KeepsSend z (chanSend s i ch d) := by
  dsimp only [chanSend]
  repeat' first
    | with_reducible assumption
    | intro _
    | with_reducible apply keepsSend_sent
    | with_reducible apply keepsSend_closed
    | with_reducible exact keepsSend_block
    | with_reducible exact keepsSend_format
    | with_reducible apply keeps_closedSend
    | with_reducible apply keeps_payloadOf
    | with_reducible apply keeps_modTile
    | with_reducible apply keeps_sendReq
    | (with_reducible refine of_fst ?_ (by assumption))
    | split
    | with_reducible apply keeps_mk

theorem keeps_epochDiscard {z s : State} {i : Nat} (hz : Keeps z s) :
    Keeps z (epochDiscard s i) := by
  dsimp only [epochDiscard]
  repeat' first
    | with_reducible assumption
    | intro _
    | with_reducible apply keeps_modTile
    | split
    | with_reducible apply keeps_mk

theorem keeps_setQueue {z s : State} {r q : Nat} {l : List DataMsg} (hz : Keeps z s) :
    Keeps z (setQueue s r q l) := by
  dsimp only [setQueue]
  repeat' first
    | with_reducible assumption
    | intro _
    | with_reducible apply keeps_modRing
    | with_reducible apply keeps_mk

theorem keeps_discardClosed {z s : State} {i : Nat} {d : DataMsg} (hz : Keeps z s) :
    Keeps z (discardClosed s i d) := by
  dsimp only [discardClosed]
  repeat' first
    | with_reducible assumption
    | intro _
    | with_reducible apply keeps_modTile
    | with_reducible apply keeps_answer
    | with_reducible apply keeps_mk

theorem keeps_deliver {z s : State} {i : Nat} {d : DataMsg} (hz : Keeps z s) :
    KeepsOpt z (deliver s i d) := by
  dsimp only [deliver]
  repeat' first
    | with_reducible assumption
    | intro _
    | with_reducible apply keepsOpt_some
    | with_reducible exact keepsOpt_none
    | with_reducible apply keeps_answer
    | with_reducible apply keeps_modTile
    | with_reducible apply keeps_discardClosed
    | with_reducible apply keeps_trapTile
    | with_reducible apply keeps_writeBytes
    | (with_reducible refine opt_eq ?_ (by assumption))
    | split
    | with_reducible apply keeps_mk

theorem keeps_drainQueue {z : State} {s : State} {i : Nat} {ch : Nat} {x3 : Nat} (hz : Keeps z s)  :
    Keeps z (drainQueue s i ch x3) := by
  induction x3 generalizing s i ch with
  | zero => dsimp only [drainQueue]; assumption
  | succ n ih =>
    dsimp only [drainQueue]
    repeat' first
      | with_reducible assumption
      | with_reducible apply ih
      | intro _
      | with_reducible apply keeps_deliver
      | with_reducible apply keeps_setQueue
      | with_reducible apply keepsOpt_some
      | with_reducible exact keepsOpt_none
      | (with_reducible refine of_opt ?_ (by assumption))
      | split
      | with_reducible apply keeps_mk

theorem keeps_arrive {z s : State} {i : Nat} {d : DataMsg} (hz : Keeps z s) :
    Keeps z (arrive s i d) := by
  dsimp only [arrive]
  repeat' first
    | with_reducible assumption
    | with_reducible apply keeps_answer
    | with_reducible apply keeps_epochDiscard
    | with_reducible apply keeps_countStale
    | with_reducible apply keeps_discardClosed
    | with_reducible apply keeps_setQueue
    | with_reducible apply keeps_drainQueue
    | split

theorem keeps_sendCredit {z s : State} {i ch : Nat} (hz : Keeps z s) :
    Keeps z (sendCredit s i ch) := by
  dsimp only [sendCredit]
  repeat' first
    | with_reducible assumption
    | with_reducible apply keeps_sendCtl
    | split

theorem keeps_chanRecv {z s : State} {i ch : Nat} (hz : Keeps z s) :
    KeepsOptFst z (chanRecv s i ch) := by
  dsimp only [chanRecv]
  repeat' first
    | with_reducible assumption
    | with_reducible apply keepsOptFst_some
    | with_reducible exact keepsOptFst_none
    | with_reducible apply keeps_setTile
    | with_reducible apply keeps_drainQueue
    | with_reducible apply keeps_sendCredit
    | split
    | with_reducible apply keeps_mk

end Sys2Proof.Laws
end

