-- ==== Sys2Proof/Laws/Fence.lean ====
section
/-! SUPPORT. What the operations of Machine/Fence.lean keep: queue, factory identity, canonical memories. -/

namespace Sys2Proof.Laws
open Sys2Proof Sys2Proof.Machine

theorem keeps_flushQueue {z s : State} {r q : Nat} (hz : Keeps z s) :
    Keeps z (flushQueue s r q) := by
  dsimp only [flushQueue]
  repeat' first
    | with_reducible assumption
    | intro _
    | with_reducible apply keeps_modRing
    | with_reducible apply keeps_modStack
    | with_reducible apply keeps_setQueue
    | split
    | with_reducible apply keeps_mk

theorem keeps_flushAll {z s : State} {r : Nat} (hz : Keeps z s) :
    Keeps z (flushAll s r) := by
  dsimp only [flushAll]
  repeat' first
    | with_reducible assumption
    | intro _
    | with_reducible apply keeps_flushQueue
    | with_reducible apply keeps_modRing
    | split
    | with_reducible apply keeps_mk

theorem keeps_poolFlush {z s : State} {r : Nat} {f : State → State} (hz : Keeps z s) (hf : ∀ s, Keeps z s → Keeps z (f s)) :
    Keeps z (poolFlush s r f) := by
  dsimp only [poolFlush]
  repeat' first
    | with_reducible assumption
    | intro _
    | with_reducible apply hf
    | with_reducible apply keeps_evAccess
    | split

theorem keeps_execPoolFlushQueue {z : State} {ring : RingId} {queue : Fin 1024} {s : State} (hz : Keeps z s) :
    KeepsNext z (execPoolFlushQueue ring queue s) := by
  dsimp only [execPoolFlushQueue]
  repeat' first
    | with_reducible assumption
    | intro _
    | with_reducible apply keepsNext_next
    | with_reducible exact keepsNext_fault
    | with_reducible apply keeps_poolFlush
    | with_reducible apply keeps_flushQueue

theorem keeps_execPoolFlushAll {z : State} {ring : RingId} {s : State} (hz : Keeps z s) :
    KeepsNext z (execPoolFlushAll ring s) := by
  dsimp only [execPoolFlushAll]
  repeat' first
    | with_reducible assumption
    | intro _
    | with_reducible apply keepsNext_next
    | with_reducible exact keepsNext_fault
    | with_reducible apply keeps_poolFlush
    | with_reducible apply keeps_flushAll

theorem keeps_countNack {z s : State} {r : Nat} {n : Option Nat} {reason : Nat} (hz : Keeps z s) :
    Keeps z (countNack s r n reason) := by
  dsimp only [countNack]
  repeat' first
    | with_reducible assumption
    | intro _
    | with_reducible apply keeps_modRing
    | with_reducible apply keeps_modTen
    | split
    | with_reducible apply keeps_mk

theorem keeps_setFenceSrc {z s : State} {r k : Nat} {x : FenceSrc} (hz : Keeps z s) :
    Keeps z (setFenceSrc s r k x) := by
  dsimp only [setFenceSrc]
  repeat' first
    | with_reducible assumption
    | intro _
    | with_reducible apply keeps_modRing
    | with_reducible apply keeps_mk

theorem keeps_keepAnswer {z s : State} {r : Nat} {d : DataMsg} {a : Answer} (hz : Keeps z s) :
    Keeps z (keepAnswer s r d a) := by
  dsimp only [keepAnswer]
  repeat' first
    | with_reducible assumption
    | intro _
    | with_reducible apply keeps_setFenceSrc
    | with_reducible apply keeps_mk

theorem keeps_takeSeq {z s : State} {r : Nat} {d : DataMsg} (hz : Keeps z s) :
    Keeps z (takeSeq s r d) := by
  dsimp only [takeSeq]
  repeat' first
    | with_reducible assumption
    | with_reducible apply keeps_setFenceSrc
    | with_reducible apply keeps_mk

theorem keeps_sendAnswer {z s : State} {d : DataMsg} {x2 : Answer} (hz : Keeps z s) :
    Keeps z (sendAnswer s d x2) := by
  dsimp only [sendAnswer]
  repeat' first
    | with_reducible assumption
    | with_reducible apply keeps_answer
    | split

theorem keeps_reply {z s : State} {r : Nat} {d : DataMsg} {a : Answer} (hz : Keeps z s) :
    Keeps z (reply s r d a) := by
  dsimp only [reply]
  repeat' first
    | with_reducible assumption
    | with_reducible apply keeps_sendAnswer
    | with_reducible apply keeps_keepAnswer

theorem keeps_readReply {z s : State} {n : Nat} {d : DataMsg} {w : Window} (hz : Keeps z s) :
    Keeps z (readReply s n d w) := by
  dsimp only [readReply]
  repeat' first
    | with_reducible assumption
    | intro _
    | with_reducible apply keeps_sendData
    | with_reducible apply keeps_noteRange
    | with_reducible apply keeps_mk

theorem keeps_poisonAtCommit {z s : State} {d : DataMsg} (hz : Keeps z s) :
    Keeps z (poisonAtCommit s d) := by
  dsimp only [poisonAtCommit]
  repeat' first
    | with_reducible assumption
    | with_reducible apply keeps_failCheck
    | split

theorem keeps_queueReq {z s : State} {r n : Nat} {d : DataMsg} (hz : Keeps z s) :
    Keeps z (queueReq s r n d) := by
  dsimp only [queueReq]
  repeat' first
    | with_reducible assumption
    | intro _
    | with_reducible apply keeps_reply
    | with_reducible apply keeps_countNack
    | with_reducible apply keeps_setQueue
    | with_reducible apply keeps_poisonAtCommit
    | with_reducible apply keeps_modRing
    | split
    | with_reducible apply keeps_mk

theorem keeps_unpark {z : State} {s : State} {r : Nat} {n : Nat} {x3 : Nat} (hz : Keeps z s)  :
    Keeps z (unpark s r n x3) := by
  induction x3 generalizing s r n with
  | zero => dsimp only [unpark]; assumption
  | succ n ih =>
    dsimp only [unpark]
    repeat' first
      | with_reducible assumption
      | with_reducible apply ih
      | intro _
      | with_reducible apply keeps_setQueue
      | with_reducible apply keeps_takeSeq
      | with_reducible apply keeps_reply
      | with_reducible apply keeps_queueReq
      | split

theorem keeps_inOrder {z s : State} {r n q : Nat} {d : DataMsg} {go : State → State} (hz : Keeps z s) (hgo : ∀ s, Keeps z s → Keeps z (go s)) :
    Keeps z (inOrder s r n q d go) := by
  dsimp only [inOrder]
  repeat' first
    | with_reducible assumption
    | intro _
    | with_reducible apply hgo
    | with_reducible apply keeps_setQueue
    | with_reducible apply keeps_unpark
    | with_reducible apply keeps_takeSeq
    | with_reducible apply keeps_readReply
    | with_reducible apply keeps_reply
    | with_reducible apply keeps_countNack
    | with_reducible apply keeps_sendAnswer
    | split

theorem keeps_fenceHead {z s : State} {r : Nat} {d : DataMsg} {go : State → Nat → State} (hz : Keeps z s) (hgo : ∀ s y1, Keeps z s → Keeps z (go s y1)) :
    Keeps z (fenceHead s r d go) := by
  dsimp only [fenceHead]
  repeat' first
    | with_reducible assumption
    | intro _
    | with_reducible apply hgo
    | with_reducible apply keeps_answer
    | with_reducible apply keeps_countNack
    | with_reducible apply keeps_countStale
    | with_reducible apply keeps_modRing
    | split
    | with_reducible apply keeps_mk

theorem keeps_enterPool {z s : State} {r q : Nat} {d : DataMsg} {go : State → State} (hz : Keeps z s) (hgo : ∀ s, Keeps z s → Keeps z (go s)) :
    Keeps z (enterPool s r q d go) := by
  dsimp only [enterPool]
  repeat' first
    | with_reducible assumption
    | intro _
    | with_reducible apply hgo
    | with_reducible apply keeps_setRing
    | with_reducible apply keeps_modRing
    | split
    | with_reducible apply keeps_mk

theorem keeps_windowRequest {z s : State} {r q : Nat} {d : DataMsg} (hz : Keeps z s) :
    Keeps z (windowRequest s r q d) := by
  dsimp only [windowRequest]
  repeat' first
    | with_reducible assumption
    | intro _
    | with_reducible apply keeps_enterPool
    | with_reducible apply keeps_fenceHead
    | with_reducible apply keeps_inOrder
    | with_reducible apply keeps_queueReq
    | split

theorem keeps_execWwrite {z : State} {ring : RingId} {d : DataMsg} {s : State} (hz : Keeps z s) :
    KeepsNext z (execWwrite ring d s) := by
  dsimp only [execWwrite]
  repeat' first
    | with_reducible assumption
    | with_reducible apply keepsNext_next
    | with_reducible exact keepsNext_fault
    | with_reducible apply keeps_windowRequest

theorem keeps_execWread {z : State} {ring : RingId} {d : DataMsg} {s : State} (hz : Keeps z s) :
    KeepsNext z (execWread ring d s) := by
  dsimp only [execWread]
  repeat' first
    | with_reducible assumption
    | with_reducible apply keepsNext_next
    | with_reducible exact keepsNext_fault
    | with_reducible apply keeps_windowRequest

theorem keeps_applyReq {z s : State} {r n : Nat} {d : DataMsg} (hz : Keeps z s) :
    Keeps z (applyReq s r n d) := by
  dsimp only [applyReq]
  repeat' first
    | with_reducible assumption
    | with_reducible apply keeps_reply
    | with_reducible apply keeps_countNack
    | with_reducible apply keeps_keepWrite
    | with_reducible apply keeps_winWrite
    | with_reducible apply keeps_setTags
    | with_reducible apply keeps_keepAnswer
    | with_reducible apply keeps_readReply
    | split

theorem keeps_takeReq {z s : State} {r : Nat} {write : Bool} {d : DataMsg} (hz : Keeps z s) :
    Keeps z (takeReq s r write d) := by
  dsimp only [takeReq]
  repeat' first
    | with_reducible assumption
    | intro _
    | with_reducible apply keeps_modRing
    | with_reducible apply keeps_setQueue
    | split
    | with_reducible apply keeps_mk

theorem keeps_execFenceApply {z : State} {ring : RingId} {write : Bool} {s : State} (hz : Keeps z s) :
    KeepsNext z (execFenceApply ring write s) := by
  dsimp only [execFenceApply]
  repeat' first
    | with_reducible assumption
    | with_reducible apply keepsNext_next
    | with_reducible exact keepsNext_fault
    | with_reducible apply keeps_unpark
    | with_reducible apply keeps_applyReq
    | with_reducible apply keeps_takeReq
    | split

theorem keeps_releaseReq {z s : State} {src : BitVec 16} {dst : BitVec 16} {seq : Nat} {p : Req → Bool} (hz : Keeps z s) :
    Keeps z (releaseReq s src dst seq p) := by
  dsimp only [releaseReq]
  repeat' first
    | with_reducible assumption
    | intro _
    | with_reducible apply keeps_setReqs

theorem keeps_execRdata {z : State} {ring : RingId} {d : DataMsg} {s : State} (hz : Keeps z s) :
    KeepsNext z (execRdata ring d s) := by
  dsimp only [execRdata]
  repeat' first
    | with_reducible assumption
    | intro _
    | with_reducible apply keepsNext_next
    | with_reducible exact keepsNext_fault
    | with_reducible apply keeps_enterPool
    | with_reducible apply keeps_releaseHeldReq
    | with_reducible apply keeps_releaseReq
    | with_reducible apply keeps_countStale
    | split

theorem keeps_execSvc {z : State} {ring : RingId} {d : DataMsg} {s : State} (hz : Keeps z s) :
    KeepsNext z (execSvc ring d s) := by
  dsimp only [execSvc]
  repeat' first
    | with_reducible assumption
    | intro _
    | with_reducible apply keepsNext_next
    | with_reducible exact keepsNext_fault
    | with_reducible apply keeps_enterPool
    | with_reducible apply keeps_inOrder
    | with_reducible apply keeps_reply
    | with_reducible apply keeps_setQueue
    | split

theorem keeps_mcDeliver {z s : State} {f : Nat} {d : DataMsg} {i : Nat} {a : BitVec 16} (hz : Keeps z s) :
    Keeps z (mcDeliver s f d i a) := by
  dsimp only [mcDeliver]
  repeat' first
    | with_reducible assumption
    | intro _
    | with_reducible apply keeps_answer
    | with_reducible apply keeps_modRing
    | with_reducible apply keeps_setFenceSrc
    | with_reducible apply keeps_setQueue
    | split
    | with_reducible apply keeps_mk

theorem keeps_execMcast {z : State} {field : FieldId} {d : DataMsg} {s : State} (hz : Keeps z s) :
    KeepsNext z (execMcast field d s) := by
  dsimp only [execMcast]
  repeat' first
    | with_reducible assumption
    | intro _
    | with_reducible apply keepsNext_next
    | with_reducible exact keepsNext_fault
    | with_reducible apply keeps_modRing
    | with_reducible apply keeps_mcDeliver
    | with_reducible apply keeps_foldl
    | with_reducible apply keeps_mk

theorem keeps_latchReg {z s : State} {v : Nat} (hz : Keeps z s) :
    Keeps z (latchReg s v) := by
  dsimp only [latchReg]
  repeat' first
    | with_reducible assumption
    | with_reducible apply keeps_mk

theorem keeps_refusedRead {z s : State} {ma : Nat} (hz : Keeps z s) :
    Keeps z (refusedRead s ma) := by
  dsimp only [refusedRead]
  repeat' first
    | with_reducible assumption
    | with_reducible apply keeps_evAccess
    | with_reducible apply keeps_mk

theorem keeps_execPoolStatus {z : State} {ring : RingId} {s : State} (hz : Keeps z s) :
    KeepsNext z (execPoolStatus ring s) := by
  dsimp only [execPoolStatus]
  repeat' first
    | with_reducible assumption
    | intro _
    | with_reducible apply keepsNext_next
    | with_reducible exact keepsNext_fault
    | with_reducible apply keeps_refusedRead
    | with_reducible apply keeps_modRing
    | with_reducible apply keeps_latchReg
    | split
    | with_reducible apply keeps_mk

theorem keeps_execFenceCount {z : State} {ring : RingId} {s : State} (hz : Keeps z s) :
    KeepsNext z (execFenceCount ring s) := by
  dsimp only [execFenceCount]
  repeat' first
    | with_reducible assumption
    | intro _
    | with_reducible apply keepsNext_next
    | with_reducible exact keepsNext_fault
    | with_reducible apply keeps_refusedRead
    | with_reducible apply keeps_modRing
    | with_reducible apply keeps_latchReg
    | split
    | with_reducible apply keeps_mk

end Sys2Proof.Laws
end

