-- ==== Sys2Proof/Laws/Midway.lean ====
section
/-! SUPPORT. What the operations of Machine/Midway.lean keep: queue, factory identity, canonical memories. -/

namespace Sys2Proof.Laws
open Sys2Proof Sys2Proof.Machine

theorem keeps_dropDcnt {z s : State} {f : Nat} (hz : Keeps z s) :
    Keeps z (dropDcnt s f) := by
  dsimp only [dropDcnt]
  repeat' first
    | with_reducible assumption
    | intro _
    | with_reducible apply keeps_modField
    | with_reducible apply keeps_mk

theorem keeps_dropAge {z s : State} {f : Nat} (hz : Keeps z s) :
    Keeps z (dropAge s f) := by
  dsimp only [dropAge]
  repeat' first
    | with_reducible assumption
    | intro _
    | with_reducible apply keeps_modField
    | with_reducible apply keeps_mk

theorem keeps_dropFmt {z s : State} {f : Nat} (hz : Keeps z s) :
    Keeps z (dropFmt s f) := by
  dsimp only [dropFmt]
  repeat' first
    | with_reducible assumption
    | intro _
    | with_reducible apply keeps_modField
    | with_reducible apply keeps_mk

theorem keeps_takeLane {z s : State} {f : Nat} {o : RPort} {p : Packet} (hz : Keeps z s) :
    Keeps z (takeLane s f o p) := by
  dsimp only [takeLane]
  repeat' first
    | with_reducible assumption
    | intro _
    | with_reducible apply keeps_modField
    | with_reducible apply keeps_mk

theorem keeps_forwardPkt {z s : State} {f : Nat} {sd : Side} {p : Packet} {rest : List (BitVec 3)} {det : Bool} (hz : Keeps z s) :
    Keeps z (forwardPkt s f sd p rest det) := by
  dsimp only [forwardPkt]
  repeat' first
    | with_reducible assumption
    | with_reducible apply keeps_takeLane
    | split
    | with_reducible apply keeps_mk

theorem keeps_deflect {z s s₀ : State} {f : Nat} {p : Packet} {code : BitVec 3} {rest : List (BitVec 3)} {want : Option Side} {free : List RPort} (hz : Keeps z s) (hs₀ : Keeps z s₀) :
    Keeps z (deflect s s₀ f p code rest want free) := by
  dsimp only [deflect]
  repeat' first
    | with_reducible assumption
    | intro _
    | with_reducible apply keeps_dropDcnt
    | with_reducible apply keeps_modField
    | with_reducible apply keeps_forwardPkt
    | split
    | with_reducible apply keeps_mk

theorem keeps_lostAnswer {z s : State} {f : Nat} {d : DataMsg} (hz : Keeps z s) :
    Keeps z (lostAnswer s f d) := by
  dsimp only [lostAnswer]
  repeat' first
    | with_reducible assumption
    | intro _
    | with_reducible apply keeps_answer
    | with_reducible apply keeps_foldl
    | split
    | with_reducible apply keeps_mk

theorem keeps_ejected {z s : State} {f : Nat} {b : Body} (hz : Keeps z s) :
    Keeps z (ejected s f b) := by
  dsimp only [ejected]
  repeat' first
    | with_reducible assumption
    | intro _
    | with_reducible apply keeps_lostAnswer
    | with_reducible apply keeps_modRing
    | split
    | with_reducible apply keeps_mk

theorem keeps_refuse {z s : State} {f : Nat} (hz : Keeps z s) :
    Keeps z (refuse s f) := by
  dsimp only [refuse]
  repeat' first
    | with_reducible assumption
    | intro _
    | with_reducible apply keeps_modRing
    | with_reducible apply keeps_mk

theorem keeps_moveOn {z s s₀ : State} {f : Nat} {inp : RPort} {p : Packet} {got : RPort → Bool} {spare : List RPort} (hz : Keeps z s) (hs₀ : Keeps z s₀) :
    Keeps z (moveOn s s₀ f inp p got spare) := by
  dsimp only [moveOn]
  repeat' first
    | with_reducible assumption
    | with_reducible apply keeps_dropFmt
    | with_reducible apply keeps_dropAge
    | with_reducible apply keeps_deflect
    | with_reducible apply keeps_ejected
    | with_reducible apply keeps_takeLane
    | with_reducible apply keeps_refuse
    | with_reducible apply keeps_forwardPkt
    | split

theorem keeps_route {z s₀ : State} {f : Nat} {inp : RPort} {p : Packet} {free : List RPort} (hz : Keeps z s₀) :
    Keeps z (route s₀ f inp p free) := by
  dsimp only [route]
  repeat' first
    | with_reducible assumption
    | intro _
    | with_reducible apply keeps_modField
    | with_reducible apply keeps_moveOn
    | split
    | with_reducible apply keeps_mk

theorem keeps_execPacketRoute {z : State} {field : FieldId} {inp : RPort} {p : Packet} {free : List RPort} {s : State} (hz : Keeps z s) :
    KeepsNext z (execPacketRoute field inp p free s) := by
  dsimp only [execPacketRoute]
  repeat' first
    | with_reducible assumption
    | with_reducible apply keepsNext_next
    | with_reducible exact keepsNext_fault
    | with_reducible apply keeps_route

theorem keeps_execMwCount {z : State} {field : FieldId} {s : State} (hz : Keeps z s) :
    KeepsNext z (execMwCount field s) := by
  dsimp only [execMwCount]
  repeat' first
    | with_reducible assumption
    | intro _
    | with_reducible apply keepsNext_next
    | with_reducible exact keepsNext_fault
    | with_reducible apply keeps_modField
    | with_reducible apply keeps_latchReg
    | with_reducible apply keeps_mk

theorem keeps_agentGot {z s : State} {d : DataMsg} (hz : Keeps z s) :
    Keeps z (agentGot s d) := by
  dsimp only [agentGot]
  repeat' first
    | with_reducible assumption
    | intro _
    | with_reducible apply keeps_mk

theorem keeps_agentRefuse {z s : State} {d : DataMsg} (hz : Keeps z s) :
    Keeps z (agentRefuse s d) := by
  dsimp only [agentRefuse]
  repeat' first
    | with_reducible assumption
    | with_reducible apply keeps_answer
    | with_reducible apply keeps_mk

theorem keeps_agentCredit {z s : State} {d : DataMsg} (hz : Keeps z s) :
    Keeps z (agentCredit s d) := by
  dsimp only [agentCredit]
  repeat' first
    | with_reducible assumption
    | with_reducible apply keeps_sendCtl
    | with_reducible apply keeps_mk

theorem keeps_agentTake {z : State} {take : State → DataMsg → State} {x1 : Nat} {x2 : State} {x3 : DataMsg} (hz : Keeps z x2) (htake : ∀ s y1, Keeps z s → Keeps z (take s y1)) :
    Keeps z (agentTake take x1 x2 x3) := by
  induction x1 generalizing x2 x3 with
  | zero => dsimp only [agentTake]; assumption
  | succ n ih =>
    dsimp only [agentTake]
    repeat' first
      | with_reducible assumption
      | with_reducible apply ih
      | intro _
      | with_reducible apply htake
      | with_reducible apply keeps_agentGot
      | split
      | with_reducible apply keeps_mk

theorem keeps_agentArrive {z s : State} {d : DataMsg} {take : State → DataMsg → State} (hz : Keeps z s) (htake : ∀ s y1, Keeps z s → Keeps z (take s y1)) :
    Keeps z (agentArrive s d take) := by
  dsimp only [agentArrive]
  repeat' first
    | with_reducible assumption
    | intro _
    | with_reducible apply htake
    | with_reducible apply keeps_agentTake
    | with_reducible apply keeps_answer
    | split
    | with_reducible apply keeps_mk

theorem keeps_staleEpoch {z s : State} {r n : Nat} {d : DataMsg} {go : State → State} (hz : Keeps z s) (hgo : ∀ s, Keeps z s → Keeps z (go s)) :
    Keeps z (staleEpoch s r n d go) := by
  dsimp only [staleEpoch]
  repeat' first
    | with_reducible assumption
    | intro _
    | with_reducible apply hgo
    | with_reducible apply keeps_modRing
    | split
    | with_reducible apply keeps_mk

theorem keeps_egressTake {z : State} {p n : Nat} {s : State} {d : DataMsg} (hz : Keeps z s) :
    Keeps z (egressTake p n s d) := by
  dsimp only [egressTake]
  repeat' first
    | with_reducible assumption
    | intro _
    | with_reducible apply keeps_agentRefuse
    | with_reducible apply keeps_modSport
    | with_reducible apply keeps_answer
    | with_reducible apply keeps_poisonAtCommit
    | with_reducible apply keeps_agentCredit
    | split
    | with_reducible apply keeps_mk

theorem keeps_egressIn {z s : State} {d : DataMsg} (hz : Keeps z s) :
    Keeps z (egressIn s d) := by
  dsimp only [egressIn]
  repeat' first
    | with_reducible assumption
    | intro _
    | with_reducible apply keeps_staleEpoch
    | with_reducible apply keeps_agentArrive
    | with_reducible apply keeps_egressTake
    | with_reducible apply keeps_answer
    | split

theorem keeps_execDesc {z : State} {field : FieldId} {d : DataMsg} {s : State} (hz : Keeps z s) :
    KeepsNext z (execDesc field d s) := by
  dsimp only [execDesc]
  repeat' first
    | with_reducible assumption
    | intro _
    | with_reducible apply keepsNext_next
    | with_reducible exact keepsNext_fault
    | with_reducible apply keeps_enterPool
    | with_reducible apply keeps_arrive
    | with_reducible apply keeps_egressIn
    | split

theorem keeps_execDescDelivery {z : State} {site : SiteId} {ch : ChId} {s : State} (hz : Keeps z s) :
    KeepsNext z (execDescDelivery site ch s) := by
  dsimp only [execDescDelivery]
  repeat' first
    | with_reducible assumption
    | with_reducible apply keepsNext_next
    | with_reducible exact keepsNext_fault
    | with_reducible apply keeps_drainQueue
    | split

theorem keeps_replyHead {z s : State} {r : Nat} {c : CtlMsg} {at_ : Nat} {n : Option Nat} {go : State → State} (hz : Keeps z s) (hgo : ∀ s, Keeps z s → Keeps z (go s)) :
    Keeps z (replyHead s r c at_ n go) := by
  dsimp only [replyHead]
  repeat' first
    | with_reducible assumption
    | intro _
    | with_reducible apply hgo
    | with_reducible apply keeps_countStale
    | split

theorem keeps_answerTarget {z s : State} {c : CtlMsg} (hz : Keeps z s) :
    Keeps z (answerTarget s c) := by
  dsimp only [answerTarget]
  repeat' first
    | with_reducible assumption
    | intro _
    | with_reducible apply keeps_releaseHeldReq
    | with_reducible apply keeps_setReqs
    | split
    | with_reducible apply keeps_mk

theorem keeps_execAck {z : State} {ring : RingId} {c : CtlMsg} {s : State} (hz : Keeps z s) :
    KeepsNext z (execAck ring c s) := by
  dsimp only [execAck]
  repeat' first
    | with_reducible assumption
    | intro _
    | with_reducible apply keepsNext_next
    | with_reducible exact keepsNext_fault
    | with_reducible apply keeps_replyHead
    | with_reducible apply keeps_answerTarget
    | with_reducible apply keeps_setReqs
    | with_reducible apply keeps_releaseHeldReq
    | split
    | with_reducible apply keeps_mk

theorem keeps_nackDesc {z s : State} {i : Nat} {c : CtlMsg} (hz : Keeps z s) :
    Keeps z (nackDesc s i c) := by
  dsimp only [nackDesc]
  repeat' first
    | with_reducible assumption
    | intro _
    | with_reducible apply keeps_modTile
    | with_reducible apply keeps_closedSend
    | split
    | with_reducible apply keeps_mk

theorem keeps_execNack {z : State} {ring : RingId} {c : CtlMsg} {s : State} (hz : Keeps z s) :
    KeepsNext z (execNack ring c s) := by
  dsimp only [execNack]
  repeat' first
    | with_reducible assumption
    | intro _
    | with_reducible apply keepsNext_next
    | with_reducible exact keepsNext_fault
    | with_reducible apply keeps_replyHead
    | with_reducible apply keeps_setReqs
    | with_reducible apply keeps_answerTarget
    | with_reducible apply keeps_nackDesc
    | with_reducible apply keeps_releaseHeldReq
    | with_reducible apply keeps_creditBack
    | split

theorem keeps_agentCredited {z s : State} {c : CtlMsg} (hz : Keeps z s) :
    Keeps z (agentCredited s c) := by
  dsimp only [agentCredited]
  repeat' first
    | with_reducible assumption
    | with_reducible apply keeps_releaseHeldReq
    | split
    | with_reducible apply keeps_mk

theorem keeps_execCredit {z : State} {ring : RingId} {c : CtlMsg} {s : State} (hz : Keeps z s) :
    KeepsNext z (execCredit ring c s) := by
  dsimp only [execCredit]
  repeat' first
    | with_reducible assumption
    | intro _
    | with_reducible apply keepsNext_next
    | with_reducible exact keepsNext_fault
    | with_reducible apply keeps_replyHead
    | with_reducible apply keeps_agentCredited
    | with_reducible apply keeps_modTile
    | split
    | with_reducible apply keeps_mk

theorem keeps_probeAgent {z s : State} {c : CtlMsg} (hz : Keeps z s) :
    Keeps z (probeAgent s c) := by
  dsimp only [probeAgent]
  repeat' first
    | with_reducible assumption
    | intro _
    | with_reducible apply keeps_sendCtl
    | with_reducible apply keeps_foldl
    | split

theorem keeps_execProbe {z : State} {site : SiteId} {c : CtlMsg} {s : State} (hz : Keeps z s) :
    KeepsNext z (execProbe site c s) := by
  dsimp only [execProbe]
  repeat' first
    | with_reducible assumption
    | with_reducible apply keepsNext_next
    | with_reducible exact keepsNext_fault
    | with_reducible apply keeps_probeAgent
    | with_reducible apply keeps_sendCredit
    | split

theorem keeps_execSendProbe {z : State} {site : SiteId} {ch : ChId} {s : State} (hz : Keeps z s) :
    KeepsNext z (execSendProbe site ch s) := by
  dsimp only [execSendProbe]
  repeat' first
    | with_reducible assumption
    | intro _
    | with_reducible apply keepsNext_next
    | with_reducible exact keepsNext_fault
    | with_reducible apply keeps_sendCtl
    | split

theorem keeps_reportTarget {z s : State} {d : DataMsg} (hz : Keeps z s) :
    Keeps z (reportTarget s d) := by
  dsimp only [reportTarget]
  repeat' first
    | with_reducible assumption
    | intro _
    | with_reducible apply keeps_modRing
    | with_reducible apply keeps_modTen
    | split
    | with_reducible apply keeps_mk

theorem keeps_agentProbe {z s : State} {src : BitVec 16} {seq : BitVec 16} (hz : Keeps z s) :
    Keeps z (agentProbe s src seq) := by
  dsimp only [agentProbe]
  repeat' first
    | with_reducible assumption
    | intro _
    | with_reducible apply keeps_sendCtl
    | split
    | with_reducible apply keeps_mk

theorem keeps_execRequestResend {z : State} {src : BitVec 16} {seq : BitVec 16} {s : State} (hz : Keeps z s) :
    KeepsNext z (execRequestResend src seq s) := by
  dsimp only [execRequestResend]
  repeat' first
    | with_reducible assumption
    | intro _
    | with_reducible apply keepsNext_next
    | with_reducible exact keepsNext_fault
    | with_reducible apply keeps_agentProbe
    | with_reducible apply keeps_setReqs
    | with_reducible apply keeps_launch
    | with_reducible apply keeps_reportTarget
    | with_reducible apply keeps_releaseHeldReq
    | with_reducible apply keeps_evTile
    | with_reducible apply keeps_evField
    | split
    | with_reducible apply keeps_mk

theorem keeps_execAbort {z : State} {ring : RingId} {c : CtlMsg} {s : State} (hz : Keeps z s) :
    KeepsNext z (execAbort ring c s) := by
  dsimp only [execAbort]
  repeat' first
    | with_reducible assumption
    | intro _
    | with_reducible apply keepsNext_next
    | with_reducible exact keepsNext_fault
    | with_reducible apply keeps_modRing
    | split
    | with_reducible apply keeps_mk

theorem keeps_execRelease {z : State} {ring : RingId} {c : CtlMsg} {s : State} (hz : Keeps z s) :
    KeepsNext z (execRelease ring c s) := by
  dsimp only [execRelease]
  repeat' first
    | with_reducible assumption
    | intro _
    | with_reducible apply keepsNext_next
    | with_reducible exact keepsNext_fault
    | with_reducible apply keeps_modRing
    | split
    | with_reducible apply keeps_mk

theorem keeps_pumpUrgent {z s : State} {r : Nat} (hz : Keeps z s) :
    Keeps z (pumpUrgent s r) := by
  dsimp only [pumpUrgent]
  repeat' first
    | with_reducible assumption
    | intro _
    | with_reducible apply keeps_sendCtl
    | with_reducible apply keeps_setRing
    | with_reducible apply keeps_foldl
    | split
    | with_reducible apply keeps_mk

theorem keeps_sendHeartbeat {z s : State} {r : Nat} (hz : Keeps z s) :
    Keeps z (sendHeartbeat s r) := by
  dsimp only [sendHeartbeat]
  repeat' first
    | with_reducible assumption
    | intro _
    | with_reducible apply keeps_pumpUrgent
    | with_reducible apply keeps_modRing
    | with_reducible apply keeps_mk

end Sys2Proof.Laws
end

