-- ==== Sys2Proof/Laws/Dma.lean ====
section
/-! SUPPORT. What the operations of Machine/Dma.lean keep: queue, factory identity, canonical memories. -/

namespace Sys2Proof.Laws
open Sys2Proof Sys2Proof.Machine

theorem keeps_writePiece {z s : State} {addr : Nat → Option Nat} {p : Piece} (hz : Keeps z s) :
    Keeps z (writePiece s addr p) := by
  dsimp only [writePiece]
  repeat' first
    | with_reducible assumption
    | intro _
    | with_reducible apply keeps_placeWrite
    | with_reducible apply keeps_foldl
    | split

theorem keeps_agentSend {z s : State} {src : BitVec 16} {n vr vf : Nat} {vt ch w : Nat} {who : Nat} (hz : Keeps z s) :
    Keeps z (agentSend s src n vr vf vt ch w who) := by
  dsimp only [agentSend]
  repeat' first
    | with_reducible assumption
    | with_reducible apply keeps_agentReq
    | split
    | with_reducible apply keeps_mk

theorem keeps_execDmaDescriptor {z : State} {stack : StackId} {d : DataMsg} {s : State} (hz : Keeps z s) :
    KeepsNext z (execDmaDescriptor stack d s) := by
  dsimp only [execDmaDescriptor]
  repeat' first
    | with_reducible assumption
    | intro _
    | with_reducible apply keepsNext_next
    | with_reducible exact keepsNext_fault
    | with_reducible apply keeps_answer
    | with_reducible apply keeps_modRing
    | with_reducible apply keeps_enterPool
    | with_reducible apply keeps_agentArrive
    | with_reducible apply keeps_modStack
    | split
    | with_reducible apply keeps_mk

theorem keeps_readLex {z s : State} {n at_ : Nat} {addr : Nat → Option Nat} (hz : Keeps z s) :
    Keeps z (readLex s n at_ addr).1 := by
  dsimp only [readLex]
  repeat' first
    | with_reducible assumption
    | with_reducible apply keeps_pair
    | with_reducible apply keeps_noteRange

theorem keeps_loadLex {z : State} {s : State} {st n : Nat} {d : BitVec 512} (hz : Keeps z s) :
    KeepsOptFst z (loadLex s st n d) := by
  unfold loadLex
  lift_lets
  intro x used resident p
  have hp : Keeps z p.1 := keeps_readLex hz
  clear_value resident p
  split
  · refine ⟨fun t h => ?_⟩
    obtain ⟨l, _, rfl⟩ := Option.map_eq_some_iff.mp h
    exact hz
  split
  · exact keepsOptFst_none
  · refine keepsOptFst_some ?_
    dsimp only
    exact keeps_modStack hp

theorem keeps_execDmaStart {z : State} {stack : StackId} {s : State} (hz : Keeps z s) :
    KeepsNext z (execDmaStart stack s) := by
  dsimp only [execDmaStart]
  repeat' first
    | with_reducible assumption
    | intro _
    | with_reducible apply keepsNext_next
    | with_reducible exact keepsNext_fault
    | with_reducible apply keeps_loadLex
    | with_reducible apply keeps_agentCredit
    | with_reducible apply keeps_modStack
    | with_reducible apply keepsOptFst_some
    | with_reducible exact keepsOptFst_none
    | (with_reducible refine of_optFst ?_ (by assumption))
    | (with_reducible refine of_optPair ?_ (by assumption))
    | split
    | with_reducible apply keeps_mk

theorem keeps_setSpillTags {z s : State} {n st e : Nat} {len : Nat} (hz : Keeps z s) :
    Keeps z (setSpillTags s n st e len) := by
  dsimp only [setSpillTags]
  repeat' first
    | with_reducible assumption
    | intro _
    | with_reducible apply keeps_setSpillTag
    | with_reducible apply keeps_setTags
    | with_reducible apply keeps_foldl
    | split

theorem keeps_runJob {z : State} {s : State} {n st : Nat} {j : DmaJob} (hz : Keeps z s) :
    Keeps z (runJob s n st j).1 := by
  unfold runJob
  lift_lets
  intro d x src dst toFar fromFar dir e₁ auxUsed sv ps span e₃ e₂ s₁
  have h₁ : Keeps z s₁ := keeps_noteRange hz
  clear_value s₁
  intro s₂
  have h₂ : Keeps z s₂ := by
    change Keeps z (if auxUsed && j.lex.isNone then noteRange s₁ (auxAddr x d) (auxLen d sv) else s₁)
    split
    · exact keeps_noteRange h₁
    · exact h₁
  clear_value s₂
  intro bad s₃
  have h₃ : Keeps z s₃ := by
    change Keeps z (if bad then evRing s₂ (stackRing st) 1 0x0107 (fld d 256 32) else s₂)
    split
    · exact keeps_evRing h₂
    · exact h₂
  clear_value s₃
  intro spill s₄
  have h₄ : Keeps z s₄ := keeps_foldl h₃ fun s p hs => keeps_writePiece hs
  clear_value s₄
  intro s₅
  have h₅ : Keeps z s₅ := keeps_setSpillTags h₄
  clear_value s₅
  intro late
  repeat' first
    | with_reducible assumption
    | split

theorem keeps_execDmaCompletion {z : State} {stack : StackId} {s : State} (hz : Keeps z s) :
    KeepsNext z (execDmaCompletion stack s) := by
  dsimp only [execDmaCompletion]
  repeat' first
    | with_reducible assumption
    | intro _
    | with_reducible apply keepsNext_next
    | with_reducible exact keepsNext_fault
    | with_reducible apply keeps_modStack
    | with_reducible apply keeps_runJob
    | with_reducible apply keeps_modTen
    | with_reducible apply keeps_agentSend
    | (with_reducible refine of_fst ?_ (by assumption))
    | split
    | with_reducible apply keeps_mk

end Sys2Proof.Laws
end

