-- ==== Sys2Proof/Laws/Stream.lean ====
section
/-! SUPPORT. What the operations of Machine/Stream.lean keep: queue, factory identity, canonical memories. -/

namespace Sys2Proof.Laws
open Sys2Proof Sys2Proof.Machine

theorem keeps_emit {z s : State} {p : Nat} {f : Frame} (hz : Keeps z s) :
    Keeps z (emit s p f) := by
  dsimp only [emit]
  repeat' first
    | with_reducible assumption
    | intro _
    | with_reducible apply keeps_modSport
    | with_reducible apply keeps_mk

theorem keeps_sendAck {z s : State} {p : Nat} (hz : Keeps z s) :
    Keeps z (sendAck s p) := by
  dsimp only [sendAck]
  repeat' first
    | with_reducible assumption
    | with_reducible apply keeps_emit

theorem keeps_sendNak {z s : State} {p : Nat} (hz : Keeps z s) :
    Keeps z (sendNak s p) := by
  dsimp only [sendNak]
  repeat' first
    | with_reducible assumption
    | with_reducible apply keeps_emit

theorem keeps_sendVlCredit {z s : State} {p : Nat} (hz : Keeps z s) :
    Keeps z (sendVlCredit s p) := by
  dsimp only [sendVlCredit]
  repeat' first
    | with_reducible assumption
    | intro _
    | with_reducible apply keeps_emit

theorem keeps_sendHello {z s : State} {p : Nat} (hz : Keeps z s) :
    Keeps z (sendHello s p) := by
  dsimp only [sendHello]
  repeat' first
    | with_reducible assumption
    | with_reducible apply keeps_emit

theorem keeps_portLex_fresh {z : State} {s : State} {p n : Nat} {b : Binding} {x : Tenancy} (hz : Keeps z s) :
    Keeps z (portLex.fresh s p n b x).1 := by
  dsimp only [portLex.fresh]
  exact keeps_modSport (keeps_readLex hz)

theorem keeps_portLex {z : State} {s : State} {p n : Nat} {b : Binding} (hz : Keeps z s) :
    Keeps z (portLex s p n b).1 := by
  dsimp only [portLex]
  repeat' first
    | with_reducible assumption
    | with_reducible apply keeps_portLex_fresh
    | split

theorem keeps_egressBytes {z s : State} {p : Nat} {e : Egress} {b : Binding} (hz : Keeps z s) :
    Keeps z (egressBytes s p e b).1 := by
  dsimp only [egressBytes]
  repeat' first
    | with_reducible assumption
    | intro _
    | with_reducible apply keeps_pair
    | with_reducible apply keeps_noteRange
    | with_reducible apply keeps_portLex
    | with_reducible apply keeps_foldl
    | (with_reducible refine of_fst ?_ (by assumption))
    | split

theorem keeps_egressReady {z s : State} {p : Nat} {e : Egress} {b : Binding} (hz : Keeps z s) :
    KeepsOptFst z (egressReady s p e b) := by
  dsimp only [egressReady]
  repeat' first
    | with_reducible assumption
    | with_reducible apply keepsOptFst_some
    | with_reducible exact keepsOptFst_none
    | with_reducible apply keeps_egressBytes
    | (with_reducible refine of_fst ?_ (by assumption))
    | split

theorem keeps_returnCredits {z s : State} {p : Nat} (hz : Keeps z s) :
    Keeps z (returnCredits s p) := by
  dsimp only [returnCredits]
  repeat' first
    | with_reducible assumption
    | intro _
    | with_reducible apply keeps_agentCredit
    | with_reducible apply keeps_modSport
    | with_reducible apply keeps_foldl
    | split
    | with_reducible apply keeps_mk

theorem keeps_endEgress {z s : State} {p : Nat} {e : Egress} (hz : Keeps z s) :
    Keeps z (endEgress s p e) := by
  dsimp only [endEgress]
  repeat' first
    | with_reducible assumption
    | intro _
    | with_reducible apply keeps_modSport
    | with_reducible apply keeps_returnCredits
    | with_reducible apply keeps_agentCredit
    | split
    | with_reducible apply keeps_mk

theorem keeps_sendEgress {z s : State} {p v : Nat} (hz : Keeps z s) :
    KeepsOpt z (sendEgress s p v) := by
  dsimp only [sendEgress]
  repeat' first
    | with_reducible assumption
    | intro _
    | with_reducible apply keepsOpt_some
    | with_reducible exact keepsOpt_none
    | with_reducible apply keeps_egressReady
    | with_reducible apply keeps_endEgress
    | with_reducible apply keeps_setSport
    | with_reducible apply keepsOptFst_some
    | with_reducible exact keepsOptFst_none
    | with_reducible apply keepsOpt_map
    | (with_reducible refine of_optFst ?_ (by assumption))
    | (with_reducible refine of_optPair ?_ (by assumption))
    | (with_reducible refine opt_eq ?_ (by assumption))
    | split
    | with_reducible apply keeps_mk

theorem keeps_sendOnVl {z s : State} {p v : Nat} (hz : Keeps z s) :
    KeepsOpt z (sendOnVl s p v) := by
  dsimp only [sendOnVl]
  repeat' first
    | with_reducible assumption
    | intro _
    | with_reducible apply keepsOpt_some
    | with_reducible exact keepsOpt_none
    | with_reducible apply keeps_setSport
    | with_reducible apply keeps_sendEgress
    | (with_reducible refine of_opt ?_ (by assumption))
    | (with_reducible refine opt_eq ?_ (by assumption))
    | split
    | with_reducible apply keeps_mk

theorem keeps_pumpVls {z : State} {n : Nat} {s : State} {p : Nat} (hz : Keeps z s) : Keeps z (pumpVls n s p) := by
  induction n generalizing s with
  | zero => exact hz
  | succ n ih =>
    dsimp only [pumpVls]
    split
    · exact hz
    split
    · exact ih (keeps_setSport hz)
    · split
      · rename_i h
        obtain ⟨v, _, hv⟩ := List.exists_of_findSome?_eq_some h
        exact ih ((keeps_sendOnVl hz).of _ hv)
      · exact hz

theorem keeps_pumpPort {z s : State} {p : Nat} (hz : Keeps z s) :
    Keeps z (pumpPort s p) := by
  dsimp only [pumpPort]
  repeat' first
    | with_reducible assumption
    | with_reducible apply keeps_pumpVls

theorem keeps_sendRetried {z s : State} {p : Nat} {f : Frame} (hz : Keeps z s) :
    Keeps z (sendRetried s p f) := by
  dsimp only [sendRetried]
  repeat' first
    | with_reducible assumption
    | intro _
    | with_reducible apply keeps_pumpPort
    | with_reducible apply keeps_modSport
    | with_reducible apply keeps_mk

theorem keeps_keepEgress {z s : State} (hz : Keeps z s) :
    Keeps z (keepEgress s) := by
  dsimp only [keepEgress]
  repeat' first
    | with_reducible assumption
    | intro _
    | with_reducible apply keeps_egressBytes
    | with_reducible apply keeps_modSport
    | with_reducible apply keeps_foldl
    | (with_reducible refine of_fst ?_ (by assumption))
    | split
    | with_reducible apply keeps_mk

theorem keeps_freeUnits {z s : State} {p : Nat} {f : Frame} (hz : Keeps z s) :
    Keeps z (freeUnits s p f) := by
  dsimp only [freeUnits]
  repeat' first
    | with_reducible assumption
    | intro _
    | with_reducible apply keeps_modSport
    | with_reducible apply keeps_sendVlCredit
    | split
    | with_reducible apply keeps_mk

theorem keeps_advertise {z s : State} {p : Nat} (hz : Keeps z s) :
    Keeps z (advertise s p) := by
  dsimp only [advertise]
  repeat' first
    | with_reducible assumption
    | intro _
    | with_reducible apply keeps_sendVlCredit
    | with_reducible apply keeps_modSport
    | with_reducible apply keeps_foldl
    | split
    | with_reducible apply keeps_mk

theorem keeps_rxHeld {z s : State} {p : Nat} {f : Frame} (hz : Keeps z s) :
    Keeps z (rxHeld s p f) := by
  dsimp only [rxHeld]
  repeat' first
    | with_reducible assumption
    | intro _
    | with_reducible apply keeps_sendAck
    | with_reducible apply keeps_modSport
    | with_reducible apply keeps_sendNak
    | split
    | with_reducible apply keeps_mk

theorem keeps_rxRetried {z s : State} {p : Nat} {f : Frame} {go : State → State} (hz : Keeps z s) (hgo : ∀ s, Keeps z s → Keeps z (go s)) :
    Keeps z (rxRetried s p f go) := by
  dsimp only [rxRetried]
  repeat' first
    | with_reducible assumption
    | intro _
    | with_reducible apply hgo
    | with_reducible apply keeps_freeUnits
    | with_reducible apply keeps_sendAck
    | with_reducible apply keeps_modSport
    | with_reducible apply keeps_sendNak
    | split
    | with_reducible apply keeps_mk

theorem keeps_abortColl {z s : State} {ply : Nat} {c : Coll} {reason : Nat} {except : Option Nat} (hz : Keeps z s) :
    Keeps z (abortColl s ply c reason except) := by
  dsimp only [abortColl]
  repeat' first
    | with_reducible assumption
    | intro _
    | with_reducible apply keeps_sendRetried
    | with_reducible apply keeps_modPly
    | with_reducible apply keeps_evModule
    | with_reducible apply keeps_id
    | with_reducible apply keeps_foldl
    | split
    | with_reducible apply keeps_mk

theorem keeps_abortOnPort {z s : State} {p reason : Nat} (hz : Keeps z s) :
    Keeps z (abortOnPort s p reason) := by
  dsimp only [abortOnPort]
  repeat' first
    | with_reducible assumption
    | intro _
    | with_reducible apply keeps_abortColl
    | with_reducible apply keeps_foldl

theorem keeps_hardFail {z s : State} {p cause : Nat} (hz : Keeps z s) :
    Keeps z (hardFail s p cause) := by
  dsimp only [hardFail]
  repeat' first
    | with_reducible assumption
    | intro _
    | with_reducible apply keeps_abortOnPort
    | with_reducible apply keeps_modSport
    | with_reducible apply keeps_evModule
    | split
    | with_reducible apply keeps_mk

theorem keeps_trainPort {z s : State} {p : Nat} {r : TrainReport} (hz : Keeps z s) :
    Keeps z (trainPort s p r) := by
  dsimp only [trainPort]
  repeat' first
    | with_reducible assumption
    | with_reducible apply keeps_setSport
    | with_reducible apply keeps_evModule
    | with_reducible apply keeps_sendHello
    | split
    | with_reducible apply keeps_mk

theorem keeps_execPortTrain {z : State} {port : SPortId} {rep : TrainReport} {s : State} (hz : Keeps z s) :
    KeepsNext z (execPortTrain port rep s) := by
  dsimp only [execPortTrain]
  repeat' first
    | with_reducible assumption
    | with_reducible apply keepsNext_next
    | with_reducible exact keepsNext_fault
    | with_reducible apply keeps_trainPort

theorem keeps_helloIn {z s : State} {p : Nat} {f : Frame} (hz : Keeps z s) :
    Keeps z (helloIn s p f) := by
  dsimp only [helloIn]
  repeat' first
    | with_reducible assumption
    | intro _
    | with_reducible apply keeps_evModule
    | with_reducible apply keeps_setSport
    | with_reducible apply keeps_returnCredits
    | with_reducible apply keeps_pumpPort
    | with_reducible apply keeps_foldl
    | split
    | with_reducible apply keeps_mk

theorem keeps_protoErrIn {z s : State} {p : Nat} {f : Frame} (hz : Keeps z s) :
    Keeps z (protoErrIn s p f) := by
  dsimp only [protoErrIn]
  repeat' first
    | with_reducible assumption
    | intro _
    | with_reducible apply keeps_modSport
    | with_reducible apply keeps_rxRetried
    | with_reducible apply keeps_sendAck
    | with_reducible apply keeps_id
    | split
    | with_reducible apply keeps_mk

theorem keeps_onFrame {z s : State} {p : Nat} {f : Frame} {type : Nat} {go : State → State} (hz : Keeps z s) (hgo : ∀ s, Keeps z s → Keeps z (go s)) :
    Keeps z (onFrame s p f type go) := by
  dsimp only [onFrame]
  repeat' first
    | with_reducible assumption
    | intro _
    | with_reducible apply hgo
    | with_reducible apply keeps_protoErrIn
    | split

theorem keeps_execHello {z : State} {port : SPortId} {f : Frame} {s : State} (hz : Keeps z s) :
    KeepsNext z (execHello port f s) := by
  dsimp only [execHello]
  repeat' first
    | with_reducible assumption
    | intro _
    | with_reducible apply keepsNext_next
    | with_reducible exact keepsNext_fault
    | with_reducible apply keeps_onFrame
    | with_reducible apply keeps_helloIn

theorem keeps_execHelloResend {z : State} {port : SPortId} {s : State} (hz : Keeps z s) :
    KeepsNext z (execHelloResend port s) := by
  dsimp only [execHelloResend]
  repeat' first
    | with_reducible assumption
    | with_reducible apply keepsNext_next
    | with_reducible exact keepsNext_fault
    | with_reducible apply keeps_sendHello
    | split

theorem keeps_countDiscard {z s : State} {p : Nat} (hz : Keeps z s) :
    Keeps z (countDiscard s p) := by
  dsimp only [countDiscard]
  repeat' first
    | with_reducible assumption
    | intro _
    | with_reducible apply keeps_modSport
    | with_reducible apply keeps_mk

theorem keeps_frameWritten {z s : State} {p n : Nat} {b : Binding} {f : Frame} {len : Nat} (hz : Keeps z s) :
    Keeps z (frameWritten s p n b f len) := by
  dsimp only [frameWritten]
  repeat' first
    | with_reducible assumption
    | intro _
    | with_reducible apply keeps_modSport
    | with_reducible apply keeps_agentSend
    | split
    | with_reducible apply keeps_mk

theorem keeps_ingress {z s : State} {p n : Nat} {b : Binding} {f : Frame} (hz : Keeps z s) :
    Keeps z (ingress s p n b f) := by
  dsimp only [ingress]
  repeat' first
    | with_reducible assumption
    | intro _
    | with_reducible apply keeps_portLex
    | with_reducible apply keeps_countDiscard
    | with_reducible apply keeps_countNack
    | with_reducible apply keeps_frameWritten
    | with_reducible apply keeps_winWrite
    | with_reducible apply keeps_foldl
    | (with_reducible refine of_fst ?_ (by assumption))
    | split

theorem keeps_deliverFrame {z s : State} {p : Nat} {f : Frame} (hz : Keeps z s) :
    Keeps z (deliverFrame s p f) := by
  dsimp only [deliverFrame]
  repeat' first
    | with_reducible assumption
    | with_reducible apply keeps_ingress
    | with_reducible apply keeps_countDiscard
    | split

theorem keeps_deliverStep {z : State} {p : Nat} {s : State} {h : Frame × Bool} (hz : Keeps z s) :
    Keeps z (deliverStep p s h) := by
  dsimp only [deliverStep]
  repeat' first
    | with_reducible assumption
    | intro _
    | with_reducible apply keeps_modSport
    | with_reducible apply keeps_deliverFrame
    | with_reducible apply keeps_freeUnits
    | split
    | with_reducible apply keeps_mk

theorem keeps_deliverHeld {z s : State} {p : Nat} (hz : Keeps z s) :
    Keeps z (deliverHeld s p) := by
  dsimp only [deliverHeld]
  repeat' first
    | with_reducible assumption
    | intro _
    | with_reducible apply keeps_deliverStep
    | with_reducible apply keeps_modSport
    | with_reducible apply keeps_foldl
    | with_reducible apply keeps_mk

theorem keeps_dataFrame {z s : State} {p : Nat} {f : Frame} (hz : Keeps z s) :
    Keeps z (dataFrame s p f) := by
  dsimp only [dataFrame]
  repeat' first
    | with_reducible assumption
    | intro _
    | with_reducible apply keeps_deliverHeld
    | with_reducible apply keeps_rxHeld
    | with_reducible apply keeps_rxRetried
    | with_reducible apply keeps_deliverFrame
    | split

theorem keeps_execAspData {z : State} {port : SPortId} {f : Frame} {s : State} (hz : Keeps z s) :
    KeepsNext z (execAspData port f s) := by
  dsimp only [execAspData]
  repeat' first
    | with_reducible assumption
    | intro _
    | with_reducible apply keepsNext_next
    | with_reducible exact keepsNext_fault
    | with_reducible apply keeps_onFrame
    | with_reducible apply keeps_dataFrame

theorem keeps_creditIn {z s : State} {p : Nat} {f : Frame} (hz : Keeps z s) :
    Keeps z (creditIn s p f) := by
  dsimp only [creditIn]
  repeat' first
    | with_reducible assumption
    | intro _
    | with_reducible apply keeps_pumpPort
    | with_reducible apply keeps_modSport
    | with_reducible apply keeps_foldl
    | split
    | with_reducible apply keeps_mk

theorem keeps_execAspCredit {z : State} {port : SPortId} {f : Frame} {s : State} (hz : Keeps z s) :
    KeepsNext z (execAspCredit port f s) := by
  dsimp only [execAspCredit]
  repeat' first
    | with_reducible assumption
    | intro _
    | with_reducible apply keepsNext_next
    | with_reducible exact keepsNext_fault
    | with_reducible apply keeps_onFrame
    | with_reducible apply keeps_creditIn

theorem keeps_execAspAck {z : State} {port : SPortId} {f : Frame} {s : State} (hz : Keeps z s) :
    KeepsNext z (execAspAck port f s) := by
  dsimp only [execAspAck]
  repeat' first
    | with_reducible assumption
    | intro _
    | with_reducible apply keepsNext_next
    | with_reducible exact keepsNext_fault
    | with_reducible apply keeps_onFrame
    | with_reducible apply keeps_pumpPort
    | with_reducible apply keeps_modSport
    | split

theorem keeps_replayOrFail {z s : State} {p : Nat} (hz : Keeps z s) :
    Keeps z (replayOrFail s p) := by
  dsimp only [replayOrFail]
  repeat' first
    | with_reducible assumption
    | with_reducible apply keeps_hardFail
    | with_reducible apply keeps_setSport
    | split

theorem keeps_execNak {z : State} {port : SPortId} {f : Frame} {s : State} (hz : Keeps z s) :
    KeepsNext z (execNak port f s) := by
  dsimp only [execNak]
  repeat' first
    | with_reducible assumption
    | intro _
    | with_reducible apply keepsNext_next
    | with_reducible exact keepsNext_fault
    | with_reducible apply keeps_onFrame
    | with_reducible apply keeps_replayOrFail
    | with_reducible apply keeps_modSport
    | split

theorem keeps_execAspRetryTimeout {z : State} {port : SPortId} {s : State} (hz : Keeps z s) :
    KeepsNext z (execAspRetryTimeout port s) := by
  dsimp only [execAspRetryTimeout]
  repeat' first
    | with_reducible assumption
    | with_reducible apply keepsNext_next
    | with_reducible exact keepsNext_fault
    | with_reducible apply keeps_replayOrFail

theorem keeps_execLinkDown {z : State} {port : SPortId} {s : State} (hz : Keeps z s) :
    KeepsNext z (execLinkDown port s) := by
  dsimp only [execLinkDown]
  repeat' first
    | with_reducible assumption
    | with_reducible apply keepsNext_next
    | with_reducible exact keepsNext_fault
    | with_reducible apply keeps_hardFail

theorem keeps_execProtoErrFrame {z : State} {port : SPortId} {f : Frame} {s : State} (hz : Keeps z s) :
    KeepsNext z (execProtoErrFrame port f s) := by
  dsimp only [execProtoErrFrame]
  repeat' first
    | with_reducible assumption
    | with_reducible apply keepsNext_next
    | with_reducible exact keepsNext_fault
    | with_reducible apply keeps_protoErrIn

theorem keeps_execFrameCrcFailure {z : State} {port : SPortId} {s : State} (hz : Keeps z s) :
    KeepsNext z (execFrameCrcFailure port s) := by
  dsimp only [execFrameCrcFailure]
  repeat' first
    | with_reducible assumption
    | intro _
    | with_reducible apply keepsNext_next
    | with_reducible exact keepsNext_fault
    | with_reducible apply keeps_sendNak
    | with_reducible apply keeps_modSport
    | split
    | with_reducible apply keeps_mk

end Sys2Proof.Laws
end

