-- ==== Sys2Proof/Laws/Collective.lean ====
section
/-! SUPPORT. What the operations of Machine/Collective.lean keep: queue, factory identity, canonical memories. -/

namespace Sys2Proof.Laws
open Sys2Proof Sys2Proof.Machine

theorem keeps_writeRange {z s : State} {n ta : Nat} {bs : List Byte} (hz : Keeps z s) :
    Keeps z (writeRange s n ta bs) := by
  dsimp only [writeRange]
  repeat' first
    | with_reducible assumption
    | with_reducible apply keeps_winWrite
    | split

theorem keeps_sendStep {z s : State} {c : Coll} {t : Nat} {bs : List Byte} (hz : Keeps z s) :
    Keeps z (sendStep s c t bs) := by
  dsimp only [sendStep]
  repeat' first
    | with_reducible assumption
    | intro _
    | with_reducible apply keeps_sendRetried
    | with_reducible apply keeps_foldl
    | split

theorem keeps_putColl {z s : State} {ply : Nat} {c d : Coll} (hz : Keeps z s) :
    Keeps z (putColl s ply c d) := by
  dsimp only [putColl]
  repeat' first
    | with_reducible assumption
    | intro _
    | with_reducible apply keeps_modPly
    | split
    | with_reducible apply keeps_mk

theorem keeps_firstStep {z s : State} {ply : Nat} {c : Coll} (hz : Keeps z s) :
    Keeps z (firstStep s ply c) := by
  dsimp only [firstStep]
  repeat' first
    | with_reducible assumption
    | with_reducible apply keeps_putColl
    | with_reducible apply keeps_sendStep
    | split
    | with_reducible apply keeps_mk

theorem keeps_stepIn {z s : State} {ply : Nat} {c : Coll} {bs : List Byte} (hz : Keeps z s) :
    Keeps z (stepIn s ply c bs) := by
  dsimp only [stepIn]
  repeat' first
    | with_reducible assumption
    | with_reducible apply keeps_sendStep
    | with_reducible apply keeps_putColl
    | split
    | with_reducible apply keeps_mk

theorem keeps_startIn {z s : State} {ply : Nat} {c : Coll} {f : Frame} (hz : Keeps z s) :
    Keeps z (startIn s ply c f) := by
  dsimp only [startIn]
  repeat' first
    | with_reducible assumption
    | with_reducible apply keeps_firstStep
    | with_reducible apply keeps_abortColl
    | split

theorem keeps_dataIn {z s : State} {ply : Nat} {c : Coll} {f : Frame} (hz : Keeps z s) :
    Keeps z (dataIn s ply c f) := by
  dsimp only [dataIn]
  repeat' first
    | with_reducible assumption
    | with_reducible apply keeps_stepIn
    | with_reducible apply keeps_putColl
    | split
    | with_reducible apply keeps_mk

theorem keeps_collFrame {z s : State} {p : Nat} {f : Frame} (hz : Keeps z s) :
    Keeps z (collFrame s p f) := by
  dsimp only [collFrame]
  repeat' first
    | with_reducible assumption
    | intro _
    | with_reducible apply keeps_startIn
    | with_reducible apply keeps_dataIn
    | split

theorem keeps_collRx {z s : State} {p : Nat} {f : Frame} {known : Bool} (hz : Keeps z s) :
    Keeps z (collRx s p f known) := by
  dsimp only [collRx]
  repeat' first
    | with_reducible assumption
    | intro _
    | with_reducible apply keeps_rxRetried
    | with_reducible apply keeps_collFrame
    | with_reducible apply keeps_rxHeld
    | with_reducible apply keeps_countDiscard
    | split

theorem keeps_execCollective {z : State} {ply : PlyId} {d : DataMsg} {s : State} (hz : Keeps z s) :
    KeepsNext z (execCollective ply d s) := by
  dsimp only [execCollective]
  repeat' first
    | with_reducible assumption
    | intro _
    | with_reducible apply keepsNext_next
    | with_reducible exact keepsNext_fault
    | with_reducible apply keeps_answer
    | with_reducible apply keeps_modRing
    | with_reducible apply keeps_agentArrive
    | with_reducible apply keeps_modPly
    | split
    | with_reducible apply keeps_mk

theorem keeps_releaseHeld {z s : State} {c : Coll} (hz : Keeps z s) :
    Keeps z (releaseHeld s c) := by
  dsimp only [releaseHeld]
  repeat' first
    | with_reducible assumption
    | intro _
    | with_reducible apply keeps_modSport
    | with_reducible apply keeps_freeUnits
    | with_reducible apply keeps_collFrame
    | with_reducible apply keeps_foldl
    | split
    | with_reducible apply keeps_mk

theorem keeps_beginColl {z s : State} {ply : Nat} {c : Coll} (hz : Keeps z s) :
    Keeps z (beginColl s ply c) := by
  dsimp only [beginColl]
  repeat' first
    | with_reducible assumption
    | with_reducible apply keeps_agentCredit
    | with_reducible apply keeps_putColl
    | with_reducible apply keeps_abortColl
    | with_reducible apply keeps_sendRetried
    | with_reducible apply keeps_releaseHeld
    | split
    | with_reducible apply keeps_mk

theorem keeps_execCollectiveBegin {z : State} {ply : PlyId} {s : State} (hz : Keeps z s) :
    KeepsNext z (execCollectiveBegin ply s) := by
  dsimp only [execCollectiveBegin]
  repeat' first
    | with_reducible assumption
    | intro _
    | with_reducible apply keepsNext_next
    | with_reducible exact keepsNext_fault
    | with_reducible apply keeps_beginColl
    | split

theorem keeps_freeBytes {z s : State} {n : Nat} (hz : Keeps z s) :
    Keeps z (freeBytes s n).1 := by
  dsimp only [freeBytes]
  repeat' first
    | with_reducible assumption
    | intro _
    | with_reducible apply keeps_pair
    | with_reducible apply keeps_mk

theorem keeps_collResult {z s : State} {c : Coll} (hz : Keeps z s) :
    Keeps z (collResult s c) := by
  dsimp only [collResult]
  repeat' first
    | with_reducible assumption
    | intro _
    | with_reducible apply keeps_writeRange
    | with_reducible apply keeps_freeBytes
    | (with_reducible refine of_fst ?_ (by assumption))
    | split

theorem keeps_dropColl {z s : State} {ply : Nat} {c : Coll} (hz : Keeps z s) :
    Keeps z (dropColl s ply c) := by
  dsimp only [dropColl]
  repeat' first
    | with_reducible assumption
    | intro _
    | with_reducible apply keeps_modPly
    | with_reducible apply keeps_mk

theorem keeps_execCollectiveCompletion {z : State} {ply : PlyId} {collId : BitVec 32} {s : State} (hz : Keeps z s) :
    KeepsNext z (execCollectiveCompletion ply collId s) := by
  dsimp only [execCollectiveCompletion]
  repeat' first
    | with_reducible assumption
    | intro _
    | with_reducible apply keepsNext_next
    | with_reducible exact keepsNext_fault
    | with_reducible apply keeps_dropColl
    | with_reducible apply keeps_collResult
    | with_reducible apply keeps_agentSend
    | split
    | with_reducible apply keeps_mk

theorem keeps_localAborts {z s : State} {n : Nat} (hz : Keeps z s) :
    Keeps z (localAborts s n) := by
  dsimp only [localAborts]
  repeat' first
    | with_reducible assumption
    | intro _
    | with_reducible apply keeps_abortColl
    | with_reducible apply keeps_dropColl
    | with_reducible apply keeps_collResult
    | with_reducible apply keeps_foldl
    | split

theorem keeps_execCollStart {z : State} {port : SPortId} {f : Frame} {s : State} (hz : Keeps z s) :
    KeepsNext z (execCollStart port f s) := by
  dsimp only [execCollStart]
  repeat' first
    | with_reducible assumption
    | intro _
    | with_reducible apply keepsNext_next
    | with_reducible exact keepsNext_fault
    | with_reducible apply keeps_onFrame
    | with_reducible apply keeps_collRx

theorem keeps_execCollData {z : State} {port : SPortId} {f : Frame} {s : State} (hz : Keeps z s) :
    KeepsNext z (execCollData port f s) := by
  dsimp only [execCollData]
  repeat' first
    | with_reducible assumption
    | intro _
    | with_reducible apply keepsNext_next
    | with_reducible exact keepsNext_fault
    | with_reducible apply keeps_onFrame
    | with_reducible apply keeps_collRx

theorem keeps_execAspAbort {z : State} {port : SPortId} {f : Frame} {s : State} (hz : Keeps z s) :
    KeepsNext z (execAspAbort port f s) := by
  dsimp only [execAspAbort]
  repeat' first
    | with_reducible assumption
    | intro _
    | with_reducible apply keepsNext_next
    | with_reducible exact keepsNext_fault
    | with_reducible apply keeps_onFrame
    | with_reducible apply keeps_rxRetried
    | with_reducible apply keeps_abortColl
    | with_reducible apply keeps_agentCredit
    | with_reducible apply keeps_foldl
    | split

end Sys2Proof.Laws
end

