-- ==== Sys2Proof/Laws/Host.lean ====
section
/-! SUPPORT. What the operations of Machine/Host.lean keep: queue, factory identity, canonical memories. -/

namespace Sys2Proof.Laws
open Sys2Proof Sys2Proof.Machine

theorem keeps_modHq {z s : State} {p q : Nat} {f : HQueue → HQueue} (hz : Keeps z s) :
    Keeps z (modHq s p q f) := by
  dsimp only [modHq]
  repeat' first
    | with_reducible assumption
    | intro _
    | with_reducible apply keeps_modHport

theorem keeps_postOne {z s : State} {p q : Nat} {c : Completion} (hz : Keeps z s) :
    Keeps z (postOne s p q c) := by
  dsimp only [postOne]
  repeat' first
    | with_reducible assumption
    | intro _
    | with_reducible apply keeps_hostWrite
    | with_reducible apply keeps_modHq
    | with_reducible apply keeps_modHport
    | split
    | with_reducible apply keeps_mk

theorem keeps_complete {z s : State} {w : Waiter} {status result : Nat} (hz : Keeps z s) :
    Keeps z (complete s w status result) := by
  dsimp only [complete]
  repeat' first
    | with_reducible assumption
    | intro _
    | with_reducible apply keeps_postOne
    | with_reducible apply keeps_modHq
    | split
    | with_reducible apply keeps_mk

theorem keeps_completeOpt {z s : State} {w : Option Waiter} {status result : Nat} (hz : Keeps z s) :
    Keeps z (completeOpt s w status result) := by
  dsimp only [completeOpt]
  repeat' first
    | with_reducible assumption
    | with_reducible apply keeps_complete
    | split

theorem keeps_fetch {z s : State} {p : HPortId} {q : QId} {e : BitVec 512} {go : State → Waiter → State} (hz : Keeps z s) (hgo : ∀ s y1, Keeps z s → Keeps z (go s y1)) :
    Keeps z (fetch s p q e go) := by
  dsimp only [fetch]
  repeat' first
    | with_reducible assumption
    | intro _
    | with_reducible apply hgo
    | with_reducible apply keeps_modHq
    | split
    | with_reducible apply keeps_mk

theorem keeps_execInvalidCommand {z : State} {port : HPortId} {q : QId} {e : BitVec 512} {s : State} (hz : Keeps z s) :
    KeepsNext z (execInvalidCommand port q e s) := by
  dsimp only [execInvalidCommand]
  repeat' first
    | with_reducible assumption
    | intro _
    | with_reducible apply keepsNext_next
    | with_reducible exact keepsNext_fault
    | with_reducible apply keeps_fetch
    | with_reducible apply keeps_complete

theorem keeps_sqDoorbell {z s : State} {p q tail : Nat} (hz : Keeps z s) :
    Keeps z (sqDoorbell s p q tail) := by
  dsimp only [sqDoorbell]
  repeat' first
    | with_reducible assumption
    | intro _
    | with_reducible apply keeps_modHq
    | split
    | with_reducible apply keeps_mk

theorem keeps_cqDoorbell {z s : State} {p q head : Nat} (hz : Keeps z s) :
    Keeps z (cqDoorbell s p q head) := by
  dsimp only [cqDoorbell]
  repeat' first
    | with_reducible assumption
    | intro _
    | with_reducible apply keeps_modHq
    | split
    | with_reducible apply keeps_mk

theorem keeps_execSqTail {z : State} {port : HPortId} {q : QId} {tail : Nat} {s : State} (hz : Keeps z s) :
    KeepsNext z (execSqTail port q tail s) := by
  dsimp only [execSqTail]
  repeat' first
    | with_reducible assumption
    | with_reducible apply keepsNext_next
    | with_reducible exact keepsNext_fault
    | with_reducible apply keeps_sqDoorbell

theorem keeps_postHeld {z : State} {x0 : Nat} {x1 : State} {x2 : Nat} {x3 : Nat} (hz : Keeps z x1)  :
    Keeps z (postHeld x0 x1 x2 x3) := by
  induction x0 generalizing x1 x2 x3 with
  | zero => dsimp only [postHeld]; assumption
  | succ n ih =>
    dsimp only [postHeld]
    repeat' first
      | with_reducible assumption
      | with_reducible apply ih
      | intro _
      | with_reducible apply keeps_postOne
      | with_reducible apply keeps_modHq
      | split
      | with_reducible apply keeps_mk

theorem keeps_execCqHead {z : State} {port : HPortId} {q : QId} {head : Nat} {s : State} (hz : Keeps z s) :
    KeepsNext z (execCqHead port q head s) := by
  dsimp only [execCqHead]
  repeat' first
    | with_reducible assumption
    | with_reducible apply keepsNext_next
    | with_reducible exact keepsNext_fault
    | with_reducible apply keeps_cqDoorbell

theorem keeps_execCompletionPost {z : State} {port : HPortId} {q : QId} {s : State} (hz : Keeps z s) :
    KeepsNext z (execCompletionPost port q s) := by
  dsimp only [execCompletionPost]
  repeat' first
    | with_reducible assumption
    | with_reducible apply keepsNext_next
    | with_reducible exact keepsNext_fault
    | with_reducible apply keeps_postHeld

theorem keeps_execPortReset {z : State} {port : HPortId} {flr : Bool} {s : State} (hz : Keeps z s) :
    KeepsNext z (execPortReset port flr s) := by
  dsimp only [execPortReset]
  repeat' first
    | with_reducible assumption
    | intro _
    | with_reducible apply keepsNext_next
    | with_reducible exact keepsNext_fault
    | with_reducible apply keeps_modHport
    | with_reducible apply keeps_evModule
    | split
    | with_reducible apply keeps_mk

theorem keeps_execPtmDialog {z : State} {port : HPortId} {masterNs : BitVec 64} {s : State} (hz : Keeps z s) :
    KeepsNext z (execPtmDialog port masterNs s) := by
  dsimp only [execPtmDialog]
  repeat' first
    | with_reducible assumption
    | intro _
    | with_reducible apply keepsNext_next
    | with_reducible exact keepsNext_fault
    | with_reducible apply keeps_modHport
    | split
    | with_reducible apply keeps_mk

theorem keeps_execEvqLost {z : State} {port : HPortId} {s : State} (hz : Keeps z s) :
    KeepsNext z (execEvqLost port s) := by
  dsimp only [execEvqLost]
  repeat' first
    | with_reducible assumption
    | intro _
    | with_reducible apply keepsNext_next
    | with_reducible exact keepsNext_fault
    | with_reducible apply keeps_modHport
    | with_reducible apply keeps_mk

end Sys2Proof.Laws
end

