-- ==== Sys2Proof/Laws/Log.lean ====
section
/-! SUPPORT. What the operations of Machine/Log.lean keep: queue, factory identity, canonical memories. -/

namespace Sys2Proof.Laws
open Sys2Proof Sys2Proof.Machine

theorem keeps_modBox {z s : State} {f : Box → Box} (hz : Keeps z s) :
    Keeps z (modBox s f) := by
  dsimp only [modBox]
  repeat' first
    | with_reducible assumption
    | with_reducible apply keeps_mk

theorem keeps_modCan {z s : State} {f : Can → Can} (hz : Keeps z s) :
    Keeps z (modCan s f) := by
  dsimp only [modCan]
  repeat' first
    | with_reducible assumption
    | with_reducible apply keeps_mk

theorem keeps_evDeliver {z s : State} {r : EvRec} {p : Nat} (hz : Keeps z s) :
    Keeps z (evDeliver s r p) := by
  dsimp only [evDeliver]
  repeat' first
    | with_reducible assumption
    | intro _
    | with_reducible apply keeps_modHport
    | with_reducible apply keeps_hostWrite
    | with_reducible apply keeps_evModule
    | split
    | with_reducible apply keeps_mk

theorem keeps_emcyQueue {z s : State} {r : EvRec} (hz : Keeps z s) :
    Keeps z (emcyQueue s r) := by
  dsimp only [emcyQueue]
  repeat' first
    | with_reducible assumption
    | intro _
    | with_reducible apply keeps_modCan
    | split
    | with_reducible apply keeps_mk

theorem keeps_accept {z s : State} {r : EvRec} (hz : Keeps z s) :
    Keeps z (accept s r) := by
  dsimp only [accept]
  repeat' first
    | with_reducible assumption
    | intro _
    | with_reducible apply keeps_modBox
    | with_reducible apply keeps_evDeliver
    | with_reducible apply keeps_emcyQueue
    | with_reducible apply keeps_foldl
    | split
    | with_reducible apply keeps_mk

theorem keeps_mapAppend {z s : State} {e : BitVec 128} (hz : Keeps z s) :
    Keeps z (mapAppend s e) := by
  dsimp only [mapAppend]
  repeat' first
    | with_reducible assumption
    | intro _
    | with_reducible apply keeps_modBox
    | with_reducible apply keeps_evModule
    | split
    | with_reducible apply keeps_mk

theorem keeps_acceptRefinement {z s : State} {ply : Nat} (hz : Keeps z s) :
    Keeps z (acceptRefinement s ply) := by
  dsimp only [acceptRefinement]
  repeat' first
    | with_reducible assumption
    | with_reducible apply keeps_evModule
    | with_reducible apply keeps_mapAppend
    | with_reducible apply keeps_setPly
    | split
    | with_reducible apply keeps_mk

theorem keeps_eventRecord {z s : State} {src : Nat} (hz : Keeps z s) :
    Keeps z (eventRecord s src) := by
  dsimp only [eventRecord]
  repeat' first
    | with_reducible assumption
    | intro _
    | with_reducible apply keeps_accept
    | with_reducible apply keeps_modPly
    | with_reducible apply keeps_acceptRefinement
    | with_reducible apply keeps_modBox
    | split
    | with_reducible apply keeps_mk

theorem keeps_execEventRecord {z : State} {src : Fin 5} {s : State} (hz : Keeps z s) :
    KeepsNext z (execEventRecord src s) := by
  dsimp only [execEventRecord]
  repeat' first
    | with_reducible assumption
    | with_reducible apply keepsNext_next
    | with_reducible exact keepsNext_fault
    | with_reducible apply keeps_eventRecord
    | split

theorem keeps_logFlash {z s : State} (hz : Keeps z s) :
    Keeps z (logFlash s) := by
  dsimp only [logFlash]
  repeat' first
    | with_reducible assumption
    | intro _
    | with_reducible apply keeps_modBox
    | split
    | with_reducible apply keeps_mk

theorem keeps_execLogFlashWrite {z s : State} (hz : Keeps z s) :
    KeepsNext z (execLogFlashWrite s) := by
  dsimp only [execLogFlashWrite]
  repeat' first
    | with_reducible assumption
    | with_reducible apply keepsNext_next
    | with_reducible exact keepsNext_fault
    | with_reducible apply keeps_logFlash
    | split

theorem keeps_flushToFlash {z s : State} (hz : Keeps z s) :
    Keeps z (flushToFlash s) := by
  dsimp only [flushToFlash]
  repeat' first
    | with_reducible assumption
    | intro _
    | with_reducible apply keeps_eventRecord
    | with_reducible apply keeps_logFlash
    | with_reducible apply keeps_foldl
    | split

theorem keeps_canSend {z s : State} {m : CanMsg} (hz : Keeps z s) :
    Keeps z (canSend s m) := by
  dsimp only [canSend]
  repeat' first
    | with_reducible assumption
    | intro _
    | with_reducible apply keeps_modCan
    | with_reducible apply keeps_mk

theorem keeps_execEmcySend {z s : State} (hz : Keeps z s) :
    KeepsNext z (execEmcySend s) := by
  dsimp only [execEmcySend]
  repeat' first
    | with_reducible assumption
    | intro _
    | with_reducible apply keepsNext_next
    | with_reducible exact keepsNext_fault
    | with_reducible apply keeps_modCan
    | with_reducible apply keeps_canSend
    | split
    | with_reducible apply keeps_mk

theorem keeps_execCanHeartbeat {z s : State} (hz : Keeps z s) :
    KeepsNext z (execCanHeartbeat s) := by
  dsimp only [execCanHeartbeat]
  repeat' first
    | with_reducible assumption
    | intro _
    | with_reducible apply keepsNext_next
    | with_reducible exact keepsNext_fault
    | with_reducible apply keeps_modCan
    | with_reducible apply keeps_canSend
    | split
    | with_reducible apply keeps_mk

theorem keeps_execBusOff {z s : State} (hz : Keeps z s) :
    KeepsNext z (execBusOff s) := by
  dsimp only [execBusOff]
  repeat' first
    | with_reducible assumption
    | intro _
    | with_reducible apply keepsNext_next
    | with_reducible exact keepsNext_fault
    | with_reducible apply keeps_modCan
    | split
    | with_reducible apply keeps_mk

theorem keeps_execBusOffRecovery {z s : State} (hz : Keeps z s) :
    KeepsNext z (execBusOffRecovery s) := by
  dsimp only [execBusOffRecovery]
  repeat' first
    | with_reducible assumption
    | intro _
    | with_reducible apply keepsNext_next
    | with_reducible exact keepsNext_fault
    | with_reducible apply keeps_modCan
    | with_reducible apply keeps_mk

theorem keeps_dropTransfer {z s : State} (hz : Keeps z s) :
    Keeps z (dropTransfer s) := by
  dsimp only [dropTransfer]
  repeat' first
    | with_reducible assumption
    | intro _
    | with_reducible apply keeps_modCan
    | with_reducible apply keeps_modBox
    | split
    | with_reducible apply keeps_mk

theorem keeps_execSdoTimeout {z s : State} (hz : Keeps z s) :
    KeepsNext z (execSdoTimeout s) := by
  dsimp only [execSdoTimeout]
  repeat' first
    | with_reducible assumption
    | with_reducible apply keepsNext_next
    | with_reducible exact keepsNext_fault
    | with_reducible apply keeps_dropTransfer
    | with_reducible apply keeps_canSend
    | split

theorem keeps_setNmt {z s : State} {n : Nmt} (hz : Keeps z s) :
    Keeps z (setNmt s n) := by
  dsimp only [setNmt]
  repeat' first
    | with_reducible assumption
    | intro _
    | with_reducible apply keeps_modCan
    | split
    | with_reducible apply keeps_mk

theorem keeps_execNmtStart {z s : State} (hz : Keeps z s) :
    KeepsNext z (execNmtStart s) := by
  dsimp only [execNmtStart]
  repeat' first
    | with_reducible assumption
    | with_reducible apply keepsNext_next
    | with_reducible exact keepsNext_fault
    | with_reducible apply keeps_setNmt

theorem keeps_execEnterPreOperational {z s : State} (hz : Keeps z s) :
    KeepsNext z (execEnterPreOperational s) := by
  dsimp only [execEnterPreOperational]
  repeat' first
    | with_reducible assumption
    | with_reducible apply keepsNext_next
    | with_reducible exact keepsNext_fault
    | with_reducible apply keeps_setNmt

theorem keeps_execNmtStop {z s : State} (hz : Keeps z s) :
    KeepsNext z (execNmtStop s) := by
  dsimp only [execNmtStop]
  repeat' first
    | with_reducible assumption
    | with_reducible apply keepsNext_next
    | with_reducible exact keepsNext_fault
    | with_reducible apply keeps_setNmt

theorem keeps_canBoot {z s : State} (hz : Keeps z s) :
    Keeps z (canBoot s) := by
  dsimp only [canBoot]
  repeat' first
    | with_reducible assumption
    | intro _
    | with_reducible apply keeps_modCan
    | with_reducible apply keeps_canSend
    | with_reducible apply keeps_dropTransfer
    | split
    | with_reducible apply keeps_mk

theorem keeps_execResetCommunication {z s : State} (hz : Keeps z s) :
    KeepsNext z (execResetCommunication s) := by
  dsimp only [execResetCommunication]
  repeat' first
    | with_reducible assumption
    | intro _
    | with_reducible apply keepsNext_next
    | with_reducible exact keepsNext_fault
    | with_reducible apply keeps_modCan
    | with_reducible apply keeps_canBoot
    | split
    | with_reducible apply keeps_mk

theorem keeps_boxRestart {z s : State} {cause : Nat} (hz : Keeps z s) :
    Keeps z (boxRestart s cause) := by
  dsimp only [boxRestart]
  repeat' first
    | with_reducible assumption
    | intro _
    | with_reducible apply keeps_canBoot
    | with_reducible apply keeps_modBox
    | with_reducible apply keeps_evModule
    | with_reducible apply keeps_mk

theorem keeps_execBoxOfficeRestart {z s : State} (hz : Keeps z s) :
    KeepsNext z (execBoxOfficeRestart s) := by
  dsimp only [execBoxOfficeRestart]
  repeat' first
    | with_reducible assumption
    | intro _
    | with_reducible apply keepsNext_next
    | with_reducible exact keepsNext_fault
    | with_reducible apply keeps_boxRestart
    | with_reducible apply keeps_modBox
    | split

theorem keeps_execResetNode {z s : State} (hz : Keeps z s) :
    KeepsNext z (execResetNode s) := by
  dsimp only [execResetNode]
  repeat' first
    | with_reducible assumption
    | with_reducible apply keepsNext_next
    | with_reducible exact keepsNext_fault
    | with_reducible apply keeps_boxRestart
    | split

end Sys2Proof.Laws
end

