-- ==== Sys2Proof/Laws/Power.lean ====
section
/-! SUPPORT. What the operations of Machine/Power.lean keep: queue, factory identity, canonical memories. -/

namespace Sys2Proof.Laws
open Sys2Proof Sys2Proof.Machine

theorem keeps_modPwr {z s : State} {f : Power → Power} (hz : Keeps z s) :
    Keeps z (modPwr s f) := by
  dsimp only [modPwr]
  repeat' first
    | with_reducible assumption
    | with_reducible apply keeps_mk

theorem keeps_fastStep {z s : State} (hz : Keeps z s) :
    Keeps z (fastStep s) := by
  dsimp only [fastStep]
  repeat' first
    | with_reducible assumption
    | with_reducible apply keeps_mk

theorem keeps_shedAll {z s : State} (hz : Keeps z s) :
    Keeps z (shedAll s) := by
  dsimp only [shedAll]
  repeat' first
    | with_reducible assumption
    | intro _
    | with_reducible apply keeps_modPwr
    | with_reducible apply keeps_mk

theorem keeps_shareOut {z s : State} {nj : Nat} {ws : List (Nat × Nat)} (hz : Keeps z s) :
    Keeps z (shareOut s nj ws) := by
  dsimp only [shareOut]
  repeat' first
    | with_reducible assumption
    | intro _
    | with_reducible apply keeps_modPwr
    | with_reducible apply keeps_modTen
    | with_reducible apply keeps_foldl
    | split
    | with_reducible apply keeps_mk

theorem keeps_attribute_ {z s : State} {r : SampleReport} (hz : Keeps z s) :
    Keeps z (attribute_ s r) := by
  dsimp only [attribute_]
  repeat' first
    | with_reducible assumption
    | intro _
    | with_reducible apply keeps_modTen
    | with_reducible apply keeps_modPwr
    | with_reducible apply keeps_shareOut
    | with_reducible apply keeps_foldl
    | split
    | with_reducible apply keeps_mk

theorem keeps_beatEnergy {z s : State} {r : SampleReport} {mw : Nat} (hz : Keeps z s) :
    Keeps z (beatEnergy s r mw) := by
  dsimp only [beatEnergy]
  repeat' first
    | with_reducible assumption
    | intro _
    | with_reducible apply keeps_modPwr
    | with_reducible apply keeps_foldl
    | split
    | with_reducible apply keeps_mk

theorem keeps_sample {z s : State} {r : SampleReport} (hz : Keeps z s) :
    Keeps z (sample s r) := by
  dsimp only [sample]
  repeat' first
    | with_reducible assumption
    | intro _
    | with_reducible apply keeps_attribute_
    | with_reducible apply keeps_beatEnergy
    | with_reducible apply keeps_modPwr
    | with_reducible apply keeps_evModule
    | with_reducible apply keeps_fastStep
    | split
    | with_reducible apply keeps_mk

theorem keeps_execPowerSample {z : State} {rep : SampleReport} {s : State} (hz : Keeps z s) :
    KeepsNext z (execPowerSample rep s) := by
  dsimp only [execPowerSample]
  repeat' first
    | with_reducible assumption
    | with_reducible apply keepsNext_next
    | with_reducible exact keepsNext_fault
    | with_reducible apply keeps_sample
    | split

theorem keeps_execGuardClear {z s : State} (hz : Keeps z s) :
    KeepsNext z (execGuardClear s) := by
  dsimp only [execGuardClear]
  repeat' first
    | with_reducible assumption
    | intro _
    | with_reducible apply keepsNext_next
    | with_reducible exact keepsNext_fault
    | with_reducible apply keeps_modPwr
    | split
    | with_reducible apply keeps_mk

theorem keeps_thermalStep {z s : State} (hz : Keeps z s) :
    Keeps z (thermalStep s) := by
  dsimp only [thermalStep]
  repeat' first
    | with_reducible assumption
    | intro _
    | with_reducible apply keeps_modPwr
    | with_reducible apply keeps_getD
    | split
    | with_reducible apply keeps_mk

theorem keeps_loopStep {z s : State} (hz : Keeps z s) :
    Keeps z (loopStep s) := by
  dsimp only [loopStep]
  repeat' first
    | with_reducible assumption
    | intro _
    | with_reducible apply keeps_modPwr
    | with_reducible apply keeps_evModule
    | split
    | with_reducible apply keeps_mk

theorem keeps_execCapLoopAction {z s : State} (hz : Keeps z s) :
    KeepsNext z (execCapLoopAction s) := by
  dsimp only [execCapLoopAction]
  repeat' first
    | with_reducible assumption
    | intro _
    | with_reducible apply keepsNext_next
    | with_reducible exact keepsNext_fault
    | with_reducible apply keeps_modPwr
    | with_reducible apply keeps_thermalStep
    | with_reducible apply keeps_loopStep
    | split
    | with_reducible apply keeps_mk

theorem keeps_startBreach {z s : State} {thermal : Bool} (hz : Keeps z s) :
    Keeps z (startBreach s thermal) := by
  dsimp only [startBreach]
  repeat' first
    | with_reducible assumption
    | intro _
    | with_reducible apply keeps_modPwr
    | with_reducible apply keeps_evModule
    | with_reducible apply keeps_mk

theorem keeps_execRepeatBreach {z s : State} (hz : Keeps z s) :
    KeepsNext z (execRepeatBreach s) := by
  dsimp only [execRepeatBreach]
  repeat' first
    | with_reducible assumption
    | with_reducible apply keepsNext_next
    | with_reducible exact keepsNext_fault
    | with_reducible apply keeps_startBreach
    | split

theorem keeps_execBreachEnd {z s : State} (hz : Keeps z s) :
    KeepsNext z (execBreachEnd s) := by
  dsimp only [execBreachEnd]
  repeat' first
    | with_reducible assumption
    | intro _
    | with_reducible apply keepsNext_next
    | with_reducible exact keepsNext_fault
    | with_reducible apply keeps_modPwr
    | split
    | with_reducible apply keeps_mk

theorem keeps_throttleOn {z s : State} (hz : Keeps z s) :
    Keeps z (throttleOn s) := by
  dsimp only [throttleOn]
  repeat' first
    | with_reducible assumption
    | intro _
    | with_reducible apply keeps_fastStep
    | with_reducible apply keeps_modPwr
    | with_reducible apply keeps_mk

theorem keeps_edge {z s : State} {level : Bool} (hz : Keeps z s) :
    Keeps z (edge s level) := by
  dsimp only [edge]
  repeat' first
    | with_reducible assumption
    | intro _
    | with_reducible apply keeps_modPwr
    | split
    | with_reducible apply keeps_mk

theorem keeps_execThrottleAssert {z s : State} (hz : Keeps z s) :
    KeepsNext z (execThrottleAssert s) := by
  dsimp only [execThrottleAssert]
  repeat' first
    | with_reducible assumption
    | with_reducible apply keepsNext_next
    | with_reducible exact keepsNext_fault
    | with_reducible apply keeps_edge
    | with_reducible apply keeps_throttleOn
    | split

theorem keeps_execThrottleDeassert {z s : State} (hz : Keeps z s) :
    KeepsNext z (execThrottleDeassert s) := by
  dsimp only [execThrottleDeassert]
  repeat' first
    | with_reducible assumption
    | intro _
    | with_reducible apply keepsNext_next
    | with_reducible exact keepsNext_fault
    | with_reducible apply keeps_edge
    | with_reducible apply keeps_modPwr
    | split
    | with_reducible apply keeps_mk

theorem keeps_execChatterQuiet {z s : State} (hz : Keeps z s) :
    KeepsNext z (execChatterQuiet s) := by
  dsimp only [execChatterQuiet]
  repeat' first
    | with_reducible assumption
    | intro _
    | with_reducible apply keepsNext_next
    | with_reducible exact keepsNext_fault
    | with_reducible apply keeps_evModule
    | with_reducible apply keeps_modPwr
    | split
    | with_reducible apply keeps_mk

theorem keeps_execThrottleRelease {z s : State} (hz : Keeps z s) :
    KeepsNext z (execThrottleRelease s) := by
  dsimp only [execThrottleRelease]
  repeat' first
    | with_reducible assumption
    | intro _
    | with_reducible apply keepsNext_next
    | with_reducible exact keepsNext_fault
    | with_reducible apply keeps_modPwr
    | split
    | with_reducible apply keeps_mk

theorem keeps_execThrottleLong {z s : State} (hz : Keeps z s) :
    KeepsNext z (execThrottleLong s) := by
  dsimp only [execThrottleLong]
  repeat' first
    | with_reducible assumption
    | intro _
    | with_reducible apply keepsNext_next
    | with_reducible exact keepsNext_fault
    | with_reducible apply keeps_evModule
    | with_reducible apply keeps_modPwr
    | split
    | with_reducible apply keeps_mk

theorem keeps_execSensorRead {z : State} {rs : List SensorReading} {s : State} (hz : Keeps z s) :
    KeepsNext z (execSensorRead rs s) := by
  unfold execSensorRead
  apply keepsNext_next
  lift_lets
  intro s₁
  have h₁ : Keeps z s₁ := by
    refine keeps_foldl hz fun s x hs => ?_
    split
    · exact keeps_modPly hs
    · exact hs
  clear_value s₁
  intro s₂
  have h₂ : Keeps z s₂ := by
    refine keeps_foldl h₁ fun s x hs => ?_
    split
    · exact keeps_modRing hs
    · exact hs
  clear_value s₂
  intro s₃
  have h₃ : Keeps z s₃ := by
    change Keeps z (match maxInt ((rs.filter fun r => !r.dram).map (·.tenthC)) with
      | some v => modPwr s₂ fun p => { p with logicMax := v }
      | none => s₂)
    split
    · exact keeps_modPwr h₂
    · exact h₂
  clear_value s₃
  intro hot cool s₄
  have h₄ : Keeps z s₄ := keeps_modPwr h₃
  clear_value s₄
  dsimp only
  repeat' first
    | with_reducible assumption
    | intro _
    | with_reducible apply keeps_modPwr
    | with_reducible apply keeps_evModule
    | with_reducible apply keeps_startBreach
    | split

theorem keeps_execThermalCauseEnd {z s : State} (hz : Keeps z s) :
    KeepsNext z (execThermalCauseEnd s) := by
  dsimp only [execThermalCauseEnd]
  repeat' first
    | with_reducible assumption
    | intro _
    | with_reducible apply keepsNext_next
    | with_reducible exact keepsNext_fault
    | with_reducible apply keeps_modPwr
    | split
    | with_reducible apply keeps_mk

theorem keeps_execThermtrip {z : State} {ply : PlyId} {tenthC : Nat} {s : State} (hz : Keeps z s) :
    KeepsNext z (execThermtrip ply tenthC s) := by
  dsimp only [execThermtrip]
  repeat' first
    | with_reducible assumption
    | intro _
    | with_reducible apply keepsNext_next
    | with_reducible exact keepsNext_fault
    | with_reducible apply keeps_modPly
    | with_reducible apply keeps_modRing
    | with_reducible apply keeps_evModule
    | with_reducible apply keeps_foldl
    | split
    | with_reducible apply keeps_mk

theorem keeps_ringItemFails {z s : State} {g cause : Nat} (hz : Keeps z s) :
    Keeps z (ringItemFails s g cause) := by
  dsimp only [ringItemFails]
  repeat' first
    | with_reducible assumption
    | intro _
    | with_reducible apply keeps_modRing
    | with_reducible apply keeps_refine
    | split
    | with_reducible apply keeps_mk

theorem keeps_groupOff {z s : State} {g : Nat} {fuse : Bool} (hz : Keeps z s) :
    Keeps z (groupOff s g fuse) := by
  dsimp only [groupOff]
  repeat' first
    | with_reducible assumption
    | intro _
    | with_reducible apply keeps_modRing
    | with_reducible apply keeps_ringItemFails
    | with_reducible apply keeps_evRing
    | split
    | with_reducible apply keeps_mk

theorem keeps_execPhaseLost {z : State} {ring : RingId} {vdram : Bool} {phase : Fin 24} {s : State} (hz : Keeps z s) :
    KeepsNext z (execPhaseLost ring vdram phase s) := by
  dsimp only [execPhaseLost]
  repeat' first
    | with_reducible assumption
    | intro _
    | with_reducible apply keepsNext_next
    | with_reducible exact keepsNext_fault
    | with_reducible apply keeps_modRing
    | with_reducible apply keeps_evRing
    | with_reducible apply keeps_groupOff
    | split
    | with_reducible apply keeps_mk

theorem keeps_execRegLatchoff {z : State} {ring : RingId} {s : State} (hz : Keeps z s) :
    KeepsNext z (execRegLatchoff ring s) := by
  dsimp only [execRegLatchoff]
  repeat' first
    | with_reducible assumption
    | with_reducible apply keepsNext_next
    | with_reducible exact keepsNext_fault
    | with_reducible apply keeps_groupOff

theorem keeps_execEfuseOpen {z : State} {ring : RingId} {s : State} (hz : Keeps z s) :
    KeepsNext z (execEfuseOpen ring s) := by
  dsimp only [execEfuseOpen]
  repeat' first
    | with_reducible assumption
    | with_reducible apply keepsNext_next
    | with_reducible exact keepsNext_fault
    | with_reducible apply keeps_groupOff

theorem keeps_execCanaryRun {z : State} {ring : RingId} {rep : CanaryReport} {s : State} (hz : Keeps z s) :
    KeepsNext z (execCanaryRun ring rep s) := by
  unfold execCanaryRun
  apply keepsNext_next
  split
  · exact hz
  lift_lets
  intro clk low s₁
  have h₁ : Keeps z s₁ := keeps_modRing hz
  clear_value s₁
  intro s₂
  have h₂ : Keeps z s₂ := keeps_modBox h₁
  clear_value s₂
  intro s₃
  have h₃ : Keeps z s₃ := by
    change Keeps z (if low then evRing (modBox s₂ fun b => { b with marginLow := b.marginLow + 1 }) ring 0 0x0405
      (ofInt 32 rep.timingPs) else s₂)
    split
    · exact keeps_evRing (keeps_modBox h₂)
    · exact h₂
  clear_value s₃
  intro s₄
  have h₄ : Keeps z s₄ := by
    change Keeps z (match rep.failed with
      | some c => evRing (modRing s₃ ring fun r => { r with deepBeats := 54 }) ring 1 0x0406 c
      | none => s₃)
    split
    · exact keeps_evRing (keeps_modRing h₃)
    · exact h₃
  clear_value s₄
  dsimp only
  repeat' first
    | with_reducible assumption
    | intro _
    | with_reducible apply keeps_modPwr
    | split

theorem keeps_execOpticalSample {z : State} {ls : List LaneReading} {s : State} (hz : Keeps z s) :
    KeepsNext z (execOpticalSample ls s) := by
  dsimp only [execOpticalSample]
  repeat' first
    | with_reducible assumption
    | intro _
    | with_reducible apply keepsNext_next
    | with_reducible exact keepsNext_fault
    | with_reducible apply keeps_modSport
    | with_reducible apply keeps_evModule
    | with_reducible apply keeps_foldl
    | split
    | with_reducible apply keeps_mk

theorem keeps_execPoweredSecond {z s : State} (hz : Keeps z s) :
    KeepsNext z (execPoweredSecond s) := by
  dsimp only [execPoweredSecond]
  repeat' first
    | with_reducible assumption
    | with_reducible apply keepsNext_next
    | with_reducible exact keepsNext_fault
    | split
    | with_reducible apply keeps_mk

theorem keeps_execPoweredCountStore {z s : State} (hz : Keeps z s) :
    KeepsNext z (execPoweredCountStore s) := by
  dsimp only [execPoweredCountStore]
  repeat' first
    | with_reducible assumption
    | with_reducible apply keepsNext_next
    | with_reducible exact keepsNext_fault
    | split
    | with_reducible apply keeps_mk

end Sys2Proof.Laws
end

