-- ==== Sys2Proof/Laws/Rewind.lean ====
section
/-! SUPPORT. What the operations of Machine/Rewind.lean keep: queue, factory identity, canonical memories. -/

namespace Sys2Proof.Laws
open Sys2Proof Sys2Proof.Machine

theorem keeps_clearSite {z s : State} {i : Nat} (hz : Keeps z s) :
    Keeps z (clearSite s i) := by
  dsimp only [clearSite]
  repeat' first
    | with_reducible assumption
    | with_reducible apply keeps_modTile
    | with_reducible apply keeps_clearSpm

theorem keeps_clearPool {z s : State} {r : Nat} (hz : Keeps z s) :
    Keeps z (clearPool s r) := by
  dsimp only [clearPool]
  repeat' first
    | with_reducible assumption
    | intro _
    | with_reducible apply keeps_modRing
    | with_reducible apply keeps_modStack
    | with_reducible apply keeps_foldl
    | with_reducible apply keeps_mk

theorem keeps_clearFence {z s : State} {r : Nat} (hz : Keeps z s) :
    Keeps z (clearFence s r) := by
  dsimp only [clearFence]
  repeat' first
    | with_reducible assumption
    | intro _
    | with_reducible apply keeps_modRing
    | with_reducible apply keeps_clearPool
    | split
    | with_reducible apply keeps_mk

theorem keeps_clearNear {z s : State} {r : Nat} (hz : Keeps z s) :
    Keeps z (clearNear s r) := by
  dsimp only [clearNear]
  repeat' first
    | with_reducible assumption
    | intro _
    | with_reducible apply keeps_modField
    | with_reducible apply keeps_memClear
    | with_reducible apply keeps_foldl
    | with_reducible apply keeps_mk

theorem keeps_clearNearShare {z s : State} {f g n : Nat} (hz : Keeps z s) :
    Keeps z (clearNearShare s f g n) := by
  dsimp only [clearNearShare]
  repeat' first
    | with_reducible assumption
    | intro _
    | with_reducible apply keeps_modField
    | with_reducible apply keeps_memClear
    | with_reducible apply keeps_foldl
    | with_reducible apply keeps_mk

theorem keeps_clearFar {z s : State} {k g n : Nat} (hz : Keeps z s) :
    Keeps z (clearFar s k g n) := by
  dsimp only [clearFar]
  repeat' first
    | with_reducible assumption
    | intro _
    | with_reducible apply keeps_modStack
    | with_reducible apply keeps_memClear
    | split
    | with_reducible apply keeps_mk

theorem keeps_clearShare {z s : State} {n r : Nat} (hz : Keeps z s) :
    Keeps z (clearShare s n r) := by
  dsimp only [clearShare]
  repeat' first
    | with_reducible assumption
    | intro _
    | with_reducible apply keeps_clearFence
    | with_reducible apply keeps_clearSite
    | with_reducible apply keeps_modSport
    | with_reducible apply keeps_clearNear
    | with_reducible apply keeps_clearNearShare
    | with_reducible apply keeps_clearFar
    | with_reducible apply keeps_foldl
    | split
    | with_reducible apply keeps_mk

theorem keeps_topUp {z s : State} {p : Nat} (hz : Keeps z s) :
    Keeps z (topUp s p) := by
  dsimp only [topUp]
  repeat' first
    | with_reducible assumption
    | intro _
    | with_reducible apply keeps_modRing
    | with_reducible apply keeps_foldl
    | split
    | with_reducible apply keeps_mk

theorem keeps_dropRequests {z s : State} {n : Nat} (hz : Keeps z s) :
    Keeps z (dropRequests s n) := by
  dsimp only [dropRequests]
  repeat' first
    | with_reducible assumption
    | intro _
    | with_reducible apply keeps_modTile
    | with_reducible apply keeps_modRing
    | with_reducible apply keeps_modStack
    | with_reducible apply keeps_modSport
    | with_reducible apply keeps_foldl
    | split
    | with_reducible apply keeps_mk

theorem keeps_contextRewind {z s : State} {n : Nat} (hz : Keeps z s) :
    Keeps z (contextRewind s n) := by
  dsimp only [contextRewind]
  repeat' first
    | with_reducible assumption
    | intro _
    | with_reducible apply keeps_dropRequests
    | with_reducible apply keeps_localAborts
    | with_reducible apply keeps_complete
    | with_reducible apply keeps_modTen
    | with_reducible apply keeps_foldl
    | with_reducible apply keeps_mk

theorem keeps_idleTiles {z s : State} {n : Nat} (hz : Keeps z s) :
    Keeps z (idleTiles s n) := by
  dsimp only [idleTiles]
  repeat' first
    | with_reducible assumption
    | intro _
    | with_reducible apply keeps_modTile
    | with_reducible apply keeps_foldl

theorem keeps_beginClear {z s : State} {n : Nat} {rs : List Nat} (hz : Keeps z s) :
    Keeps z (beginClear s n rs) := by
  dsimp only [beginClear]
  repeat' first
    | with_reducible assumption
    | intro _
    | with_reducible apply keeps_modRing
    | with_reducible apply keeps_modTen
    | with_reducible apply keeps_foldl
    | split
    | with_reducible apply keeps_mk

theorem keeps_dropTenancy {z s : State} {n : Nat} (hz : Keeps z s) :
    Keeps z (dropTenancy s n) := by
  dsimp only [dropTenancy]
  repeat' first
    | with_reducible assumption
    | with_reducible apply keeps_setTen

theorem keeps_destroyNow {z s : State} {n : Nat} (hz : Keeps z s) :
    Keeps z (destroyNow s n) := by
  dsimp only [destroyNow]
  repeat' first
    | with_reducible assumption
    | intro _
    | with_reducible apply keeps_complete
    | with_reducible apply keeps_modTen
    | with_reducible apply keeps_completeOpt
    | with_reducible apply keeps_dropTenancy
    | with_reducible apply keeps_beginClear
    | with_reducible apply keeps_foldl
    | split
    | with_reducible apply keeps_mk

theorem keeps_endRehearsal {z s : State} {u : Run} (hz : Keeps z s) :
    Keeps z (endRehearsal s u) := by
  dsimp only [endRehearsal]
  repeat' first
    | with_reducible assumption
    | intro _
    | with_reducible apply keeps_modBox
    | split
    | with_reducible apply keeps_mk

theorem keeps_endRun {z s : State} {n status : Nat} (hz : Keeps z s) :
    Keeps z (endRun s n status) := by
  dsimp only [endRun]
  repeat' first
    | with_reducible assumption
    | intro _
    | with_reducible apply keeps_endRehearsal
    | with_reducible apply keeps_idleTiles
    | with_reducible apply keeps_modTen
    | with_reducible apply keeps_completeOpt
    | with_reducible apply keeps_destroyNow
    | split
    | with_reducible apply keeps_mk

theorem keeps_countEntry {z s : State} {n : Option Nat} {k : Nat} (hz : Keeps z s) :
    Keeps z (countEntry s n k) := by
  dsimp only [countEntry]
  repeat' first
    | with_reducible assumption
    | intro _
    | with_reducible apply keeps_modBox
    | split
    | with_reducible apply keeps_mk

theorem keeps_abortClause {z s : State} {n code detail : Nat} (hz : Keeps z s) :
    Keeps z (abortClause s n code detail) := by
  dsimp only [abortClause]
  repeat' first
    | with_reducible assumption
    | with_reducible apply keeps_endRun
    | with_reducible apply keeps_contextRewind
    | with_reducible apply keeps_countEntry
    | with_reducible apply keeps_evModule
    | split

theorem keeps_clearedRing {z s : State} {n r : Nat} (hz : Keeps z s) :
    Keeps z (clearedRing s n r) := by
  dsimp only [clearedRing]
  repeat' first
    | with_reducible assumption
    | intro _
    | with_reducible apply keeps_clearShare
    | with_reducible apply keeps_modTen
    | with_reducible apply keeps_topUp
    | with_reducible apply keeps_modRing
    | with_reducible apply keeps_evRing
    | split
    | with_reducible apply keeps_mk

theorem keeps_dropSwitch {z s : State} {n : Nat} (hz : Keeps z s) :
    Keeps z (dropSwitch s n) := by
  dsimp only [dropSwitch]
  repeat' first
    | with_reducible assumption
    | intro _
    | with_reducible apply keeps_completeOpt
    | with_reducible apply keeps_modTen
    | with_reducible apply keeps_mk

theorem keeps_execClearDone {z : State} {ring : RingId} {s : State} (hz : Keeps z s) :
    KeepsNext z (execClearDone ring s) := by
  dsimp only [execClearDone]
  repeat' first
    | with_reducible assumption
    | intro _
    | with_reducible apply keepsNext_next
    | with_reducible exact keepsNext_fault
    | with_reducible apply keeps_clearedRing
    | with_reducible apply keeps_completeOpt
    | with_reducible apply keeps_dropTenancy
    | with_reducible apply keeps_dropSwitch
    | with_reducible apply keeps_modTen
    | split
    | with_reducible apply keeps_mk

theorem keeps_requestPower {z s : State} {cause : Nat} (hz : Keeps z s) :
    Keeps z (requestPower s cause) := by
  dsimp only [requestPower]
  repeat' first
    | with_reducible assumption
    | intro _
    | with_reducible apply keeps_countEntry
    | with_reducible apply keeps_evModule
    | with_reducible apply keeps_modBox
    | with_reducible apply keeps_mk

theorem keeps_startReset {z s : State} {cause : Nat} (hz : Keeps z s) :
    Keeps z (startReset s cause) := by
  dsimp only [startReset]
  repeat' first
    | with_reducible assumption
    | intro _
    | with_reducible apply keeps_countEntry
    | with_reducible apply keeps_evModule
    | with_reducible apply keeps_modBox
    | split
    | with_reducible apply keeps_mk

theorem keeps_partitionFails {z s : State} (hz : Keeps z s) :
    Keeps z (partitionFails s) := by
  dsimp only [partitionFails]
  repeat' first
    | with_reducible assumption
    | intro _
    | with_reducible apply keeps_modBox
    | with_reducible apply keeps_startReset
    | split
    | with_reducible apply keeps_mk

theorem keeps_rmPacket {z s : State} {p q : Nat} (hz : Keeps z s) :
    Keeps z (rmPacket s p q) := by
  dsimp only [rmPacket]
  repeat' first
    | with_reducible assumption
    | with_reducible apply keeps_sendCtl

theorem keeps_serveGuests {z s : State} {p : Nat} (hz : Keeps z s) :
    Keeps z (serveGuests s p) := by
  dsimp only [serveGuests]
  repeat' first
    | with_reducible assumption
    | intro _
    | with_reducible apply keeps_rmPacket
    | with_reducible apply keeps_modPly
    | with_reducible apply keeps_foldl
    | split
    | with_reducible apply keeps_mk

theorem keeps_askReserve {z s : State} {r p : Nat} (hz : Keeps z s) :
    Keeps z (askReserve s r p) := by
  dsimp only [askReserve]
  repeat' first
    | with_reducible assumption
    | intro _
    | with_reducible apply keeps_modPly
    | with_reducible apply keeps_rmPacket
    | with_reducible apply keeps_serveGuests
    | split
    | with_reducible apply keeps_mk

theorem keeps_beginAction {z s : State} {p : Nat} {a : Option (Nat × Nat)} (hz : Keeps z s) :
    Keeps z (beginAction s p a) := by
  dsimp only [beginAction]
  repeat' first
    | with_reducible assumption
    | intro _
    | with_reducible apply keeps_modPly
    | with_reducible apply keeps_mk

theorem keeps_askPly {z s : State} {r level : Nat} (hz : Keeps z s) :
    Keeps z (askPly s r level) := by
  dsimp only [askPly]
  repeat' first
    | with_reducible assumption
    | intro _
    | with_reducible apply keeps_beginAction
    | with_reducible apply keeps_modPly
    | with_reducible apply keeps_startReset
    | with_reducible apply keeps_evModule
    | split
    | with_reducible apply keeps_mk

theorem keeps_endAction {z s : State} {p : Nat} {q : List (Nat × Nat)} (hz : Keeps z s) :
    Keeps z (endAction s p q) := by
  dsimp only [endAction]
  repeat' first
    | with_reducible assumption
    | intro _
    | with_reducible apply keeps_beginAction
    | with_reducible apply keeps_modPly
    | with_reducible apply keeps_serveGuests
    | with_reducible apply keeps_mk

theorem keeps_finishPly {z s : State} {r : Nat} (hz : Keeps z s) :
    Keeps z (finishPly s r) := by
  dsimp only [finishPly]
  repeat' first
    | with_reducible assumption
    | intro _
    | with_reducible apply keeps_endAction
    | with_reducible apply keeps_modPly
    | split
    | with_reducible apply keeps_mk

theorem keeps_beginBinding {z s : State} {n : Nat} (hz : Keeps z s) :
    Keeps z (beginBinding s n) := by
  dsimp only [beginBinding]
  repeat' first
    | with_reducible assumption
    | with_reducible apply keeps_beginAction
    | split

theorem keeps_endBinding {z s : State} {n : Nat} (hz : Keeps z s) :
    Keeps z (endBinding s n) := by
  dsimp only [endBinding]
  repeat' first
    | with_reducible assumption
    | intro _
    | with_reducible apply keeps_endAction
    | with_reducible apply keeps_foldl
    | split

theorem keeps_endRepairs {z s : State} {n : Nat} (hz : Keeps z s) :
    Keeps z (endRepairs s n) := by
  dsimp only [endRepairs]
  repeat' first
    | with_reducible assumption
    | intro _
    | with_reducible apply keeps_finishPly
    | with_reducible apply keeps_modRing
    | with_reducible apply keeps_foldl
    | split
    | with_reducible apply keeps_mk

theorem keeps_abortRun {z s : State} {n code detail : Nat} (hz : Keeps z s) :
    Keeps z (abortRun s n code detail) := by
  dsimp only [abortRun]
  repeat' first
    | with_reducible assumption
    | with_reducible apply keeps_endRepairs
    | with_reducible apply keeps_abortClause

theorem keeps_abortWritten {z s : State} {n : Nat} (hz : Keeps z s) :
    Keeps z (abortWritten s n) := by
  dsimp only [abortWritten]
  repeat' first
    | with_reducible assumption
    | with_reducible apply keeps_endRepairs
    | with_reducible apply keeps_endRun
    | with_reducible apply keeps_contextRewind
    | with_reducible apply keeps_countEntry
    | split

end Sys2Proof.Laws
end

