-- ==== Sys2Proof/Laws/Boot.lean ====
section
/-! SUPPORT. What the operations of Machine/Boot.lean keep: queue, factory identity, canonical memories. -/

namespace Sys2Proof.Laws
open Sys2Proof Sys2Proof.Machine

theorem keeps_siteTestFails {z s : State} {i step kind : Nat} (hz : Keeps z s) :
    Keeps z (siteTestFails s i step kind) := by
  dsimp only [siteTestFails]
  repeat' first
    | with_reducible assumption
    | intro _
    | with_reducible apply keeps_setSiteMap
    | with_reducible apply keeps_modTile
    | with_reducible apply keeps_refine
    | split
    | with_reducible apply keeps_mk

theorem keeps_siteDown {z s : State} {i : Nat} {unresolved : Bool} (hz : Keeps z s) :
    Keeps z (siteDown s i unresolved) := by
  dsimp only [siteDown]
  repeat' first
    | with_reducible assumption
    | intro _
    | with_reducible apply keeps_noteReal
    | with_reducible apply keeps_modTile
    | with_reducible apply keeps_setSiteMap
    | with_reducible apply keeps_refine
    | with_reducible apply keeps_evTile
    | split
    | with_reducible apply keeps_mk

theorem keeps_siteTestPasses {z s : State} {i step kind : Nat} (hz : Keeps z s) :
    Keeps z (siteTestPasses s i step kind) := by
  dsimp only [siteTestPasses]
  repeat' first
    | with_reducible assumption
    | with_reducible apply keeps_refine
    | with_reducible apply keeps_setSiteMap
    | split
    | with_reducible apply keeps_mk

theorem keeps_testSites {z s : State} {fields : List Nat} {failed : List SiteId} {step kind : Nat} (hz : Keeps z s) :
    Keeps z (testSites s fields failed step kind) := by
  dsimp only [testSites]
  repeat' first
    | with_reducible assumption
    | intro _
    | with_reducible apply keeps_siteTestFails
    | with_reducible apply keeps_siteTestPasses
    | with_reducible apply keeps_foldl
    | split

theorem keeps_testRetires {z s : State} {f step kind : Nat} (hz : Keeps z s) :
    Keeps z (testRetires s f step kind) := by
  dsimp only [testRetires]
  repeat' first
    | with_reducible assumption
    | intro _
    | with_reducible apply keeps_refine
    | with_reducible apply keeps_modField
    | split
    | with_reducible apply keeps_mk

theorem keeps_retireHopeless {z s : State} {step kind : Nat} (hz : Keeps z s) :
    Keeps z (retireHopeless s step kind) := by
  dsimp only [retireHopeless]
  repeat' first
    | with_reducible assumption
    | intro _
    | with_reducible apply keeps_testRetires
    | with_reducible apply keeps_foldl
    | split

theorem keeps_setCrossing {z s : State} {f : Nat} {sd : Side} {c w spares : Nat} (hz : Keeps z s) :
    Keeps z (setCrossing s f sd c w spares) := by
  dsimp only [setCrossing]
  repeat' first
    | with_reducible assumption
    | intro _
    | with_reducible apply keeps_modField
    | split
    | with_reducible apply keeps_mk

theorem keeps_seamEntry {z s : State} {f : Nat} {sd : Side} {csrc cause : Nat} (hz : Keeps z s) :
    Keeps z (seamEntry s f sd csrc cause) := by
  dsimp only [seamEntry]
  repeat' first
    | with_reducible assumption
    | with_reducible apply keeps_refine
    | split

theorem keeps_trainCrossings {z s : State} {cs : List (FieldId × Side × Nat × Nat × Nat)} {step kind : Nat} (hz : Keeps z s) :
    Keeps z (trainCrossings s cs step kind) := by
  dsimp only [trainCrossings]
  repeat' first
    | with_reducible assumption
    | intro _
    | with_reducible apply keeps_setCrossing
    | with_reducible apply keeps_seamEntry
    | with_reducible apply keeps_foldl
    | split

theorem keeps_midwayEntry {z s : State} {f : Nat} {sd : Side} {st csrc cause : Nat} (hz : Keeps z s) :
    Keeps z (midwayEntry s f sd st csrc cause) := by
  dsimp only [midwayEntry]
  repeat' first
    | with_reducible assumption
    | with_reducible apply keeps_refine

theorem keeps_failMidway {z s : State} {f : Nat} {sd : Side} {csrc cause : Nat} (hz : Keeps z s) :
    Keeps z (failMidway s f sd csrc cause) := by
  dsimp only [failMidway]
  repeat' first
    | with_reducible assumption
    | intro _
    | with_reducible apply keeps_modField
    | with_reducible apply keeps_midwayEntry
    | split
    | with_reducible apply keeps_mk

theorem keeps_failChannel {z s : State} {f c csrc : Nat} {cause : Nat} (hz : Keeps z s) :
    Keeps z (failChannel s f c csrc cause) := by
  dsimp only [failChannel]
  repeat' first
    | with_reducible assumption
    | intro _
    | with_reducible apply keeps_refine
    | with_reducible apply keeps_modNearCh
    | with_reducible apply keeps_mk

theorem keeps_testChannels {z s : State} {cs : List (FieldId × Nat)} {step kind : Nat} (hz : Keeps z s) :
    Keeps z (testChannels s cs step kind) := by
  dsimp only [testChannels]
  repeat' first
    | with_reducible assumption
    | intro _
    | with_reducible apply keeps_testRetires
    | with_reducible apply keeps_failChannel
    | with_reducible apply keeps_foldl

theorem keeps_fencePc {z s : State} {k pc csrc : Nat} {cause : Nat} (hz : Keeps z s) :
    Keeps z (fencePc s k pc csrc cause) := by
  dsimp only [fencePc]
  repeat' first
    | with_reducible assumption
    | intro _
    | with_reducible apply keeps_refine
    | with_reducible apply keeps_modStack
    | with_reducible apply keeps_mk

theorem keeps_deadStacks {z s : State} {step kind : Nat} (hz : Keeps z s) :
    Keeps z (deadStacks s step kind) := by
  dsimp only [deadStacks]
  repeat' first
    | with_reducible assumption
    | intro _
    | with_reducible apply keeps_testRetires
    | with_reducible apply keeps_foldl

theorem keeps_setRingStates {z s : State} {kept : Nat → Bool} (hz : Keeps z s) :
    Keeps z (setRingStates s kept) := by
  dsimp only [setRingStates]
  repeat' first
    | with_reducible assumption
    | intro _
    | with_reducible apply keeps_modRing
    | with_reducible apply keeps_topUp
    | with_reducible apply keeps_foldl
    | split
    | with_reducible apply keeps_mk

theorem keeps_applyEntry {z s : State} {e : BitVec 128} (hz : Keeps z s) :
    Keeps z (applyEntry s e) := by
  dsimp only [applyEntry]
  repeat' first
    | with_reducible assumption
    | intro _
    | with_reducible apply keeps_setSiteMap
    | with_reducible apply keeps_setCrossing
    | with_reducible apply keeps_modNearCh
    | with_reducible apply keeps_modField
    | with_reducible apply keeps_modStack
    | with_reducible apply keeps_modRing
    | with_reducible apply keeps_foldl
    | split
    | with_reducible apply keeps_mk

theorem keeps_expireSuspects {z s : State} (hz : Keeps z s) :
    Keeps z (expireSuspects s) := by
  dsimp only [expireSuspects]
  repeat' first
    | with_reducible assumption
    | intro _
    | with_reducible apply keeps_setField
    | with_reducible apply keeps_setRing
    | with_reducible apply keeps_foldl
    | split
    | with_reducible apply keeps_mk

theorem keeps_loadMap {z s : State} (hz : Keeps z s) :
    Keeps z (loadMap s) := by
  dsimp only [loadMap]
  repeat' first
    | with_reducible assumption
    | intro _
    | with_reducible apply keeps_applyEntry
    | with_reducible apply keeps_expireSuspects
    | with_reducible apply keeps_modField
    | with_reducible apply keeps_foldl
    | split
    | with_reducible apply keeps_mk

theorem keeps_applyReport {z s : State} {rep : BootReport} {kind : Nat} (hz : Keeps z s) :
    Keeps z (applyReport s rep kind) := by
  dsimp only [applyReport]
  repeat' first
    | with_reducible assumption
    | intro _
    | with_reducible apply keeps_retireHopeless
    | with_reducible apply keeps_testSites
    | with_reducible apply keeps_testRetires
    | with_reducible apply keeps_modPly
    | with_reducible apply keeps_trainCrossings
    | with_reducible apply keeps_failMidway
    | with_reducible apply keeps_testChannels
    | with_reducible apply keeps_deadStacks
    | with_reducible apply keeps_fencePc
    | with_reducible apply keeps_foldl
    | split
    | with_reducible apply keeps_mk

theorem keeps_mergeMap {z s : State} (hz : Keeps z s) :
    Keeps z (mergeMap s) := by
  dsimp only [mergeMap]
  repeat' first
    | with_reducible assumption
    | intro _
    | with_reducible apply keeps_acceptRefinement
    | with_reducible apply keeps_modBox
    | with_reducible apply keeps_foldl
    | with_reducible apply keeps_mk

theorem keeps_setReady {z s : State} {t : Tri} (hz : Keeps z s) :
    Keeps z (setReady s t) := by
  dsimp only [setReady]
  repeat' first
    | with_reducible assumption
    | with_reducible apply keeps_mk

theorem keeps_loadStored {z s : State} (hz : Keeps z s) :
    Keeps z (loadStored s) := by
  dsimp only [loadStored]
  repeat' first
    | with_reducible assumption
    | intro _
    | with_reducible apply keeps_modPwr
    | with_reducible apply keeps_modBox
    | with_reducible apply keeps_modSport
    | with_reducible apply keeps_foldl
    | split
    | with_reducible apply keeps_mk

theorem keeps_bringUpFails {z s : State} {step : Nat} (hz : Keeps z s) :
    Keeps z (bringUpFails s step) := by
  dsimp only [bringUpFails]
  repeat' first
    | with_reducible assumption
    | intro _
    | with_reducible apply keeps_evModule
    | with_reducible apply keeps_setReady
    | with_reducible apply keeps_modBox
    | with_reducible apply keeps_modRing
    | with_reducible apply keeps_requestPower
    | with_reducible apply keeps_foldl
    | split
    | with_reducible apply keeps_mk

theorem keeps_repeatRecords {z s : State} {rs : List (Nat × Nat)} (hz : Keeps z s) :
    Keeps z (repeatRecords s rs) := by
  dsimp only [repeatRecords]
  repeat' first
    | with_reducible assumption
    | intro _
    | with_reducible apply keeps_evModule
    | with_reducible apply keeps_foldl

theorem keeps_bootBox {z s : State} {rep : BootReport} {cause : Nat} (hz : Keeps z s) :
    Keeps z (bootBox s rep cause) := by
  dsimp only [bootBox]
  repeat' first
    | with_reducible assumption
    | intro _
    | with_reducible apply keeps_modBox
    | with_reducible apply keeps_modCan
    | with_reducible apply keeps_loadStored
    | with_reducible apply keeps_setReady
    | with_reducible apply keeps_canBoot
    | with_reducible apply keeps_modHport
    | with_reducible apply keeps_evModule
    | with_reducible apply keeps_repeatRecords
    | with_reducible apply keeps_throttleOn
    | with_reducible apply keeps_foldl
    | split
    | with_reducible apply keeps_mk

theorem keeps_nameLead {z s : State} (hz : Keeps z s) :
    Keeps z (nameLead s) := by
  dsimp only [nameLead]
  repeat' first
    | with_reducible assumption
    | intro _
    | with_reducible apply keeps_modBox
    | with_reducible apply keeps_mk

theorem keeps_startUnits {z s : State} {rep : BootReport} {kept : Nat → Bool} (hz : Keeps z s) :
    Keeps z (startUnits s rep kept) := by
  dsimp only [startUnits]
  repeat' first
    | with_reducible assumption
    | intro _
    | with_reducible apply keeps_bringUpFails
    | with_reducible apply keeps_groupOff
    | with_reducible apply keeps_loadMap
    | with_reducible apply keeps_setRingStates
    | with_reducible apply keeps_mergeMap
    | with_reducible apply keeps_applyReport
    | with_reducible apply keeps_nameLead
    | with_reducible apply keeps_evModule
    | with_reducible apply keeps_setReady
    | with_reducible apply keeps_modBox
    | with_reducible apply keeps_foldl
    | split
    | with_reducible apply keeps_mk

theorem keeps_bringUp {z s : State} {rep : BootReport} {cause : Nat} {kept : Nat → Bool} (hz : Keeps z s) :
    Keeps z (bringUp s rep cause kept) := by
  dsimp only [bringUp]
  repeat' first
    | with_reducible assumption
    | intro _
    | with_reducible apply keeps_modBox
    | with_reducible apply keeps_startUnits
    | with_reducible apply keeps_bootBox
    | split
    | with_reducible apply keeps_mk

theorem keeps_blank {z : State} {s : State} (hz : Keeps z s) : Keeps z (blank s) :=
  ⟨hz.pending, hz.fused, fun _ => rfl, fun _ => rfl⟩

theorem keeps_execPowerOn {z : State} {straps : BitVec 7} {rep : BootReport} {s : State} (hz : Keeps z s) :
    KeepsNext z (execPowerOn straps rep s) := by
  dsimp only [execPowerOn]
  repeat' first
    | with_reducible assumption
    | intro _
    | with_reducible apply keepsNext_next
    | with_reducible exact keepsNext_fault
    | with_reducible apply keeps_blank
    | with_reducible apply keeps_modBox
    | with_reducible apply keeps_bringUp
    | split
    | with_reducible apply keeps_mk

theorem keeps_execWholeModuleReset {z s : State} (hz : Keeps z s) :
    KeepsNext z (execWholeModuleReset s) := by
  dsimp only [execWholeModuleReset]
  repeat' first
    | with_reducible assumption
    | intro _
    | with_reducible apply keepsNext_next
    | with_reducible exact keepsNext_fault
    | with_reducible apply keeps_blank
    | with_reducible apply keeps_modBox
    | with_reducible apply keeps_foldl
    | split
    | with_reducible apply keeps_mk

theorem keeps_bringUpAfterReset {z s : State} {rep : BootReport} (hz : Keeps z s) :
    Keeps z (bringUpAfterReset s rep) := by
  dsimp only [bringUpAfterReset]
  repeat' first
    | with_reducible assumption
    | intro _
    | with_reducible apply keeps_bringUp

theorem keeps_execModResetDeassert {z : State} {straps : BitVec 7} {rep : BootReport} {s : State} (hz : Keeps z s) :
    KeepsNext z (execModResetDeassert straps rep s) := by
  dsimp only [execModResetDeassert]
  repeat' first
    | with_reducible assumption
    | intro _
    | with_reducible apply keepsNext_next
    | with_reducible exact keepsNext_fault
    | with_reducible apply keeps_bringUpAfterReset
    | with_reducible apply keeps_modBox
    | split
    | with_reducible apply keeps_mk

theorem keeps_execPsuOkAssert {z : State} {rep : BootReport} {s : State} (hz : Keeps z s) :
    KeepsNext z (execPsuOkAssert rep s) := by
  dsimp only [execPsuOkAssert]
  repeat' first
    | with_reducible assumption
    | with_reducible apply keepsNext_next
    | with_reducible exact keepsNext_fault
    | with_reducible apply keeps_bringUpAfterReset
    | split
    | with_reducible apply keeps_mk

theorem keeps_execUnpowered {z s : State} (hz : Keeps z s) :
    KeepsNext z (execUnpowered s) := by
  dsimp only [execUnpowered]
  repeat' first
    | with_reducible assumption
    | with_reducible apply keepsNext_next
    | with_reducible exact keepsNext_fault
    | with_reducible apply keeps_blank
    | with_reducible apply keeps_mk

theorem keeps_execHoldUpFlush {z : State} {busMv : Nat} {s : State} (hz : Keeps z s) :
    KeepsNext z (execHoldUpFlush busMv s) := by
  dsimp only [execHoldUpFlush]
  repeat' first
    | with_reducible assumption
    | intro _
    | with_reducible apply keepsNext_next
    | with_reducible exact keepsNext_fault
    | with_reducible apply keeps_modBox
    | with_reducible apply keeps_fastStep
    | with_reducible apply keeps_modPwr
    | with_reducible apply keeps_shedAll
    | with_reducible apply keeps_flushToFlash
    | with_reducible apply keeps_evModule
    | with_reducible apply keeps_setReady
    | split
    | with_reducible apply keeps_mk

theorem keeps_dropHeldFrames {z s : State} (hz : Keeps z s) :
    Keeps z (dropHeldFrames s) := by
  dsimp only [dropHeldFrames]
  repeat' first
    | with_reducible assumption
    | intro _
    | with_reducible apply keeps_freeUnits
    | with_reducible apply keeps_modSport
    | with_reducible apply keeps_foldl
    | split
    | with_reducible apply keeps_mk

theorem keeps_computeStop {z s : State} (hz : Keeps z s) :
    Keeps z (computeStop s) := by
  dsimp only [computeStop]
  repeat' first
    | with_reducible assumption
    | intro _
    | with_reducible apply keeps_keepEgress
    | with_reducible apply keeps_abortRun
    | with_reducible apply keeps_modTen
    | with_reducible apply keeps_dropRequests
    | with_reducible apply keeps_localAborts
    | with_reducible apply keeps_completeOpt
    | with_reducible apply keeps_clearSite
    | with_reducible apply keeps_modRing
    | with_reducible apply keeps_clearNear
    | with_reducible apply keeps_clearFence
    | with_reducible apply keeps_modField
    | with_reducible apply keeps_modPly
    | with_reducible apply keeps_modBox
    | with_reducible apply keeps_setReady
    | with_reducible apply keeps_dropHeldFrames
    | with_reducible apply keeps_foldl
    | split
    | with_reducible apply keeps_mk

theorem keeps_computeFinish {z s : State} {rep : BootReport} (hz : Keeps z s) :
    Keeps z (computeFinish s rep) := by
  dsimp only [computeFinish]
  repeat' first
    | with_reducible assumption
    | intro _
    | with_reducible apply keeps_requestPower
    | with_reducible apply keeps_mergeMap
    | with_reducible apply keeps_applyReport
    | with_reducible apply keeps_modRing
    | with_reducible apply keeps_topUp
    | with_reducible apply keeps_nameLead
    | with_reducible apply keeps_advertise
    | with_reducible apply keeps_evModule
    | with_reducible apply keeps_setReady
    | with_reducible apply keeps_modBox
    | with_reducible apply keeps_foldl
    | split
    | with_reducible apply keeps_mk

theorem keeps_execComputeResetTimeout {z s : State} (hz : Keeps z s) :
    KeepsNext z (execComputeResetTimeout s) := by
  dsimp only [execComputeResetTimeout]
  repeat' first
    | with_reducible assumption
    | intro _
    | with_reducible apply keepsNext_next
    | with_reducible exact keepsNext_fault
    | with_reducible apply keeps_modBox
    | with_reducible apply keeps_requestPower
    | split
    | with_reducible apply keeps_mk

theorem keeps_execRingmasterFault {z : State} {ply : PlyId} {s : State} (hz : Keeps z s) :
    KeepsNext z (execRingmasterFault ply s) := by
  dsimp only [execRingmasterFault]
  repeat' first
    | with_reducible assumption
    | with_reducible apply keepsNext_next
    | with_reducible exact keepsNext_fault
    | with_reducible apply keeps_startReset
    | with_reducible apply keeps_evModule
    | split

theorem keeps_execEscCountExpiry {z s : State} (hz : Keeps z s) :
    KeepsNext z (execEscCountExpiry s) := by
  dsimp only [execEscCountExpiry]
  repeat' first
    | with_reducible assumption
    | intro _
    | with_reducible apply keepsNext_next
    | with_reducible exact keepsNext_fault
    | with_reducible apply keeps_modRing
    | with_reducible apply keeps_modBox
    | with_reducible apply keeps_foldl
    | with_reducible apply keeps_mk

end Sys2Proof.Laws
end

