-- ==== Sys2Proof/Laws/Recovery.lean ====
section
/-! SUPPORT. What the operations of Machine/Recovery.lean keep: queue, factory identity, canonical memories. -/

namespace Sys2Proof.Laws
open Sys2Proof Sys2Proof.Machine

theorem keeps_releaseSite {z s : State} {i : Nat} (hz : Keeps z s) :
    Keeps z (releaseSite s i) := by
  dsimp only [releaseSite]
  repeat' first
    | with_reducible assumption
    | intro _
    | with_reducible apply keeps_modTile
    | with_reducible apply keeps_clearSite
    | split
    | with_reducible apply keeps_mk

theorem keeps_bindSite {z s : State} {i vr vf : Nat} {vt : Nat} (hz : Keeps z s) :
    Keeps z (bindSite s i vr vf vt) := by
  dsimp only [bindSite]
  repeat' first
    | with_reducible assumption
    | intro _
    | with_reducible apply keeps_modTile
    | split
    | with_reducible apply keeps_mk

theorem keeps_bindField {z s : State} {vr f : Nat} {trapeze : Bool} (hz : Keeps z s) :
    Keeps z (bindField s vr f trapeze) := by
  dsimp only [bindField]
  repeat' first
    | with_reducible assumption
    | intro _
    | with_reducible apply keeps_modField
    | with_reducible apply keeps_releaseSite
    | with_reducible apply keeps_clearSite
    | with_reducible apply keeps_modTile
    | with_reducible apply keeps_bindSite
    | with_reducible apply keeps_foldl
    | split
    | with_reducible apply keeps_mk

theorem keeps_bindClause {z s : State} {n : Nat} (hz : Keeps z s) :
    Keeps z (bindClause s n) := by
  dsimp only [bindClause]
  repeat' first
    | with_reducible assumption
    | intro _
    | with_reducible apply keeps_bindField
    | with_reducible apply keeps_foldl

theorem keeps_bindingMcast {z s : State} {n p : Nat} {rs : List Nat} (hz : Keeps z s) :
    Keeps z (bindingMcast s n p rs) := by
  dsimp only [bindingMcast]
  repeat' first
    | with_reducible assumption
    | intro _
    | with_reducible apply keeps_agentReq
    | with_reducible apply keeps_foldl
    | with_reducible apply keeps_mk

theorem keeps_sendBindings {z s : State} {n : Nat} (hz : Keeps z s) :
    Keeps z (sendBindings s n) := by
  dsimp only [sendBindings]
  repeat' first
    | with_reducible assumption
    | intro _
    | with_reducible apply keeps_bindingMcast
    | with_reducible apply keeps_foldl

theorem keeps_loadRows {z : State} {s : State} {i : Nat} {row : Nat} {a : Nat} {x4 : Nat} (hz : Keeps z s)  :
    Keeps z (loadRows s i row a x4) := by
  induction x4 generalizing s i row a with
  | zero => dsimp only [loadRows]; assumption
  | succ n ih =>
    dsimp only [loadRows]
    repeat' first
      | with_reducible assumption
      | with_reducible apply ih
      | with_reducible apply keeps_writeRow
      | with_reducible apply keeps_noteSpan
      | split

theorem keeps_restoreCarry {z s : State} {n i beat : Nat} (hz : Keeps z s) :
    Keeps z (restoreCarry s n i beat) := by
  dsimp only [restoreCarry]
  repeat' first
    | with_reducible assumption
    | with_reducible apply keeps_loadRows
    | with_reducible apply keeps_evTile
    | with_reducible apply keeps_failTile
    | split

theorem keeps_restoreTile {z s : State} {n i : Nat} (hz : Keeps z s) :
    Keeps z (restoreTile s n i) := by
  dsimp only [restoreTile]
  repeat' first
    | with_reducible assumption
    | intro _
    | with_reducible apply keeps_modTile
    | with_reducible apply keeps_loadRows
    | with_reducible apply keeps_restoreCarry
    | with_reducible apply keeps_foldl
    | split
    | with_reducible apply keeps_mk

theorem keeps_execTileRestore {z : State} {site : SiteId} {s : State} (hz : Keeps z s) :
    KeepsNext z (execTileRestore site s) := by
  dsimp only [execTileRestore]
  repeat' first
    | with_reducible assumption
    | with_reducible apply keepsNext_next
    | with_reducible exact keepsNext_fault
    | with_reducible apply keeps_restoreTile
    | split

theorem keeps_resetTiles {z s : State} {n : Nat} {sites : List Nat} (hz : Keeps z s) :
    Keeps z (resetTiles s n sites) := by
  dsimp only [resetTiles]
  repeat' first
    | with_reducible assumption
    | intro _
    | with_reducible apply keeps_bindClause
    | with_reducible apply keeps_modTile
    | with_reducible apply keeps_clearSpm
    | with_reducible apply keeps_foldl
    | split
    | with_reducible apply keeps_mk

theorem keeps_partitionReset {z s : State} {r : Nat} (hz : Keeps z s) :
    Keeps z (partitionReset s r) := by
  dsimp only [partitionReset]
  repeat' first
    | with_reducible assumption
    | intro _
    | with_reducible apply keeps_clearFence
    | with_reducible apply keeps_clearSite
    | with_reducible apply keeps_modRing
    | with_reducible apply keeps_foldl
    | with_reducible apply keeps_mk

theorem keeps_saveLost {z s : State} {r : Nat} {reh : Bool} (hz : Keeps z s) :
    Keeps z (saveLost s r reh) := by
  dsimp only [saveLost]
  repeat' first
    | with_reducible assumption
    | intro _
    | with_reducible apply keeps_endRepairs
    | with_reducible apply keeps_endRun
    | with_reducible apply keeps_contextRewind
    | with_reducible apply keeps_evModule
    | with_reducible apply keeps_abortRun
    | with_reducible apply keeps_foldl
    | split

theorem keeps_markRepair {z s : State} {n level : Nat} (hz : Keeps z s) :
    Keeps z (markRepair s n level) := by
  dsimp only [markRepair]
  repeat' first
    | with_reducible assumption
    | intro _
    | with_reducible apply keeps_modRing
    | with_reducible apply keeps_foldl
    | with_reducible apply keeps_mk

theorem keeps_noStrike {z s : State} (hz : Keeps z s) :
    Keeps z (noStrike s) := by
  dsimp only [noStrike]
  repeat' first
    | with_reducible assumption
    | intro _
    | with_reducible apply keeps_modRun
    | with_reducible apply keeps_foldl
    | split
    | with_reducible apply keeps_mk

theorem keeps_askReserves {z s : State} {r : Nat} {ps : List Nat} (hz : Keeps z s) :
    Keeps z (askReserves s r ps) := by
  dsimp only [askReserves]
  repeat' first
    | with_reducible assumption
    | intro _
    | with_reducible apply keeps_askReserve
    | with_reducible apply keeps_foldl

theorem keeps_planMove {z s : State} {n r : Nat} {m : Move} (hz : Keeps z s) :
    Keeps z (planMove s n r m) := by
  dsimp only [planMove]
  repeat' first
    | with_reducible assumption
    | intro _
    | with_reducible apply keeps_askReserves
    | with_reducible apply keeps_askPly
    | with_reducible apply keeps_finishPly
    | with_reducible apply keeps_markRepair
    | with_reducible apply keeps_modRing
    | with_reducible apply keeps_mk

theorem keeps_clauseLeaves {z s : State} {r n vr : Nat} {move : Option Move} (hz : Keeps z s) :
    Keeps z (clauseLeaves s r n vr move) := by
  dsimp only [clauseLeaves]
  repeat' first
    | with_reducible assumption
    | intro _
    | with_reducible apply keeps_modRun
    | with_reducible apply keeps_planMove
    | with_reducible apply keeps_abortRun
    | with_reducible apply keeps_askReserves
    | split
    | with_reducible apply keeps_mk

theorem keeps_leaveRing {z : State} {s : State} {r : Nat} {why : Leave} (hz : Keeps z s) :
    Keeps z (leaveRing s r why) := by
  unfold leaveRing
  lift_lets
  intro at_ move d reh
  clear_value d move at_ reh
  intro s₁
  have h₁ : Keeps z s₁ := by
    change Keeps z (if reh then s else countEntry (noteReal s (at_.map (·.1))) none 3)
    split
    · exact hz
    · exact keeps_countEntry (keeps_noteReal hz)
  clear_value s₁
  intro s₂
  have h₂ : Keeps z s₂ := keeps_evRing h₁
  clear_value s₂
  intro s₃
  have h₃ : Keeps z s₃ := keeps_modRing h₂
  clear_value s₃
  intro s₄
  have h₄ : Keeps z s₄ := keeps_saveLost h₃
  clear_value s₄
  intro s₅
  have h₅ : Keeps z s₅ := by
    change Keeps z (match at_ with
      | none => if reh then noStrike s₄ else s₄
      | some (n, vr) =>
        let again : Bool := match (tenOf s₄ n).run with | some u => u.resuming | none => false
        clauseLeaves (if again && !reh then partitionFails s₄ else s₄) r n vr move)
    repeat' first
      | with_reducible assumption
      | with_reducible apply keeps_noStrike
      | with_reducible apply keeps_clauseLeaves
      | with_reducible apply keeps_partitionFails
      | dsimp only
      | split
  clear_value s₅
  intro moves s₆
  have h₆ : Keeps z s₆ := by
    refine keeps_foldl h₅ fun s x hs => ?_
    split
    · exact keeps_modTen hs
    · exact hs
  clear_value s₆
  split
  · exact keeps_partitionReset h₆
  · exact h₆

theorem keeps_fieldLost {z s : State} {f : Nat} (hz : Keeps z s) :
    Keeps z (fieldLost s f) := by
  dsimp only [fieldLost]
  repeat' first
    | with_reducible assumption
    | with_reducible apply keeps_leaveRing
    | split

theorem keeps_retireField {z s : State} {f csrc cause : Nat} (hz : Keeps z s) :
    Keeps z (retireField s f csrc cause) := by
  dsimp only [retireField]
  repeat' first
    | with_reducible assumption
    | intro _
    | with_reducible apply keeps_modField
    | with_reducible apply keeps_refine
    | with_reducible apply keeps_fieldLost
    | split
    | with_reducible apply keeps_mk

theorem keeps_enterEngine {z s : State} {n : Nat} (hz : Keeps z s) :
    Keeps z (enterEngine s n) := by
  dsimp only [enterEngine]
  repeat' first
    | with_reducible assumption
    | intro _
    | with_reducible apply keeps_sendBindings
    | with_reducible apply keeps_resetTiles
    | with_reducible apply keeps_modRun
    | with_reducible apply keeps_fieldLost
    | with_reducible apply keeps_countEntry
    | with_reducible apply keeps_askPly
    | with_reducible apply keeps_markRepair
    | with_reducible apply keeps_evRing
    | split
    | with_reducible apply keeps_mk

theorem keeps_engineFails {z s : State} {n r : Nat} (hz : Keeps z s) :
    Keeps z (engineFails s n r) := by
  dsimp only [engineFails]
  repeat' first
    | with_reducible assumption
    | intro _
    | with_reducible apply keeps_enterEngine
    | with_reducible apply keeps_modRing
    | with_reducible apply keeps_leaveRing
    | with_reducible apply keeps_finishPly
    | split
    | with_reducible apply keeps_mk

theorem keeps_moveRing {z s : State} {n : Nat} {m : Move} (hz : Keeps z s) :
    Keeps z (moveRing s n m) := by
  dsimp only [moveRing]
  repeat' first
    | with_reducible assumption
    | intro _
    | with_reducible apply keeps_finishPly
    | with_reducible apply keeps_releaseSite
    | with_reducible apply keeps_modRun
    | with_reducible apply keeps_modTen
    | with_reducible apply keeps_foldl
    | split
    | with_reducible apply keeps_mk

theorem keeps_beginTakeover {z s : State} {n : Nat} {ms : List Move} (hz : Keeps z s) :
    Keeps z (beginTakeover s n ms) := by
  dsimp only [beginTakeover]
  repeat' first
    | with_reducible assumption
    | intro _
    | with_reducible apply keeps_moveRing
    | with_reducible apply keeps_dropRequests
    | with_reducible apply keeps_localAborts
    | with_reducible apply keeps_modRun
    | with_reducible apply keeps_foldl
    | split
    | with_reducible apply keeps_mk

theorem keeps_restoreGuard {z s : State} {n vr : Nat} {mirror : Bool} (hz : Keeps z s) :
    Keeps z (restoreGuard s n vr mirror) := by
  dsimp only [restoreGuard]
  repeat' first
    | with_reducible assumption
    | intro _
    | with_reducible apply keeps_copyTier
    | with_reducible apply keeps_foldl
    | split

theorem keeps_restoreResident {z s : State} {n vr : Nat} (hz : Keeps z s) :
    Keeps z (restoreResident s n vr) := by
  dsimp only [restoreResident]
  repeat' first
    | with_reducible assumption
    | intro _
    | with_reducible apply keeps_copyTier
    | with_reducible apply keeps_foldl
    | split

theorem keeps_noCopy {z s : State} {n : Nat} (hz : Keeps z s) :
    Keeps z (noCopy s n) := by
  dsimp only [noCopy]
  repeat' first
    | with_reducible assumption
    | with_reducible apply keeps_evRing
    | with_reducible apply keeps_failRun

theorem keeps_restoreClause {z s : State} {n : Nat} (hz : Keeps z s) :
    Keeps z (restoreClause s n) := by
  dsimp only [restoreClause]
  repeat' first
    | with_reducible assumption
    | intro _
    | with_reducible apply keeps_noCopy
    | with_reducible apply keeps_restoreGuard
    | with_reducible apply keeps_bindClause
    | with_reducible apply keeps_restoreResident
    | with_reducible apply keeps_modRun
    | with_reducible apply keeps_modTile
    | with_reducible apply keeps_restoreTile
    | with_reducible apply keeps_restoreCarry
    | with_reducible apply keeps_foldl
    | split
    | with_reducible apply keeps_mk

theorem keeps_execTakeoverRestoreDone {z : State} {ten : TenId} {s : State} (hz : Keeps z s) :
    KeepsNext z (execTakeoverRestoreDone ten s) := by
  dsimp only [execTakeoverRestoreDone]
  repeat' first
    | with_reducible assumption
    | intro _
    | with_reducible apply keepsNext_next
    | with_reducible exact keepsNext_fault
    | with_reducible apply keeps_restoreClause
    | with_reducible apply keeps_modRun
    | split
    | with_reducible apply keeps_mk

theorem keeps_execFarHomeMigrationDone {z : State} {ten : TenId} {vring : RingId} {s : State} (hz : Keeps z s) :
    KeepsNext z (execFarHomeMigrationDone ten vring s) := by
  dsimp only [execFarHomeMigrationDone]
  repeat' first
    | with_reducible assumption
    | intro _
    | with_reducible apply keepsNext_next
    | with_reducible exact keepsNext_fault
    | with_reducible apply keeps_modTen
    | split
    | with_reducible apply keeps_mk

end Sys2Proof.Laws
end

