-- ==== Sys2Proof/Laws/Replay.lean ====
section
/-! SUPPORT. What the operations of Machine/Replay.lean keep: queue, factory identity, canonical memories. -/

namespace Sys2Proof.Laws
open Sys2Proof Sys2Proof.Machine

theorem keeps_modClause {z s : State} {n : Nat} {f : Tile → Tile} (hz : Keeps z s) :
    Keeps z (modClause s n f) := by
  dsimp only [modClause]
  repeat' first
    | with_reducible assumption
    | intro _
    | with_reducible apply keeps_modTile
    | with_reducible apply keeps_foldl

theorem keeps_setPhase {z s : State} {n : Nat} {p : Phase} (hz : Keeps z s) :
    Keeps z (setPhase s n p) := by
  dsimp only [setPhase]
  repeat' first
    | with_reducible assumption
    | intro _
    | with_reducible apply keeps_modRun
    | with_reducible apply keeps_mk

theorem keeps_restoreSeq {z s : State} {n : Nat} {c : SeqCopy} (hz : Keeps z s) :
    Keeps z (restoreSeq s n c) := by
  dsimp only [restoreSeq]
  repeat' first
    | with_reducible assumption
    | intro _
    | with_reducible apply keeps_modRing
    | with_reducible apply keeps_foldl
    | with_reducible apply keeps_mk

theorem keeps_clearSeqs {z s : State} {n : Nat} (hz : Keeps z s) :
    Keeps z (clearSeqs s n) := by
  dsimp only [clearSeqs]
  repeat' first
    | with_reducible assumption
    | intro _
    | with_reducible apply keeps_mk

theorem keeps_dropBeat {z s : State} {n b : Nat} (hz : Keeps z s) :
    Keeps z (dropBeat s n b) := by
  dsimp only [dropBeat]
  repeat' first
    | with_reducible assumption
    | intro _
    | with_reducible apply keeps_modSport
    | with_reducible apply keeps_modRing
    | with_reducible apply keeps_modStack
    | with_reducible apply keeps_modPly
    | with_reducible apply keeps_modClause
    | with_reducible apply keeps_foldl
    | split
    | with_reducible apply keeps_mk

theorem keeps_releaseBeat {z s : State} {n b : Nat} (hz : Keeps z s) :
    Keeps z (releaseBeat s n b) := by
  dsimp only [releaseBeat]
  repeat' first
    | with_reducible assumption
    | intro _
    | with_reducible apply keeps_modRing
    | with_reducible apply keeps_modSport
    | with_reducible apply keeps_modPly
    | with_reducible apply keeps_modRun
    | with_reducible apply keeps_foldl
    | split
    | with_reducible apply keeps_mk

theorem keeps_withoutLater {z s : State} {n b : Nat} (hz : Keeps z s) :
    Keeps z (withoutLater s n b) := by
  dsimp only [withoutLater]
  repeat' first
    | with_reducible assumption
    | intro _
    | with_reducible apply keeps_memWriteP
    | with_reducible apply keeps_foldl
    | split

theorem keeps_readCopy {z s : State} {n b : Nat} (hz : Keeps z s) :
    Keeps z (readCopy s n b) := by
  dsimp only [readCopy]
  repeat' first
    | with_reducible assumption
    | intro _
    | with_reducible apply keeps_noteSpan
    | with_reducible apply keeps_modField
    | with_reducible apply keeps_modRun
    | with_reducible apply keeps_foldl
    | with_reducible apply keeps_mk

theorem keeps_beginCopy {z s : State} {n b : Nat} (hz : Keeps z s) :
    Keeps z (beginCopy s n b) := by
  dsimp only [beginCopy]
  repeat' first
    | with_reducible assumption
    | intro _
    | with_reducible apply keeps_modRun
    | with_reducible apply keeps_readCopy
    | with_reducible apply keeps_mk

theorem keeps_writeCopy {z : State} {s : State} {g : GuardCopy} (hz : Keeps z s) : Keeps z (writeCopy s g) :=
  keeps_poisonLanes (keeps_mem (keeps_foldl hz fun _ _ hs => keeps_markWritten (keeps_memClear hs)) memory_wf_foldl)

theorem keeps_execGuardCopyDone {z : State} {ten : TenId} {s : State} (hz : Keeps z s) :
    KeepsNext z (execGuardCopyDone ten s) := by
  dsimp only [execGuardCopyDone]
  repeat' first
    | with_reducible assumption
    | intro _
    | with_reducible apply keepsNext_next
    | with_reducible exact keepsNext_fault
    | with_reducible apply keeps_modRun
    | with_reducible apply keeps_writeCopy
    | split
    | with_reducible apply keeps_mk

theorem keeps_releaseCopies {z : State} {x0 : Nat} {x1 : State} {x2 : Nat} (hz : Keeps z x1)  :
    Keeps z (releaseCopies x0 x1 x2) := by
  induction x0 generalizing x1 x2 with
  | zero => dsimp only [releaseCopies]; assumption
  | succ n ih =>
    dsimp only [releaseCopies]
    repeat' first
      | with_reducible assumption
      | with_reducible apply ih
      | intro _
      | with_reducible apply keeps_modRun
      | with_reducible apply keeps_releaseBeat
      | split
      | with_reducible apply keeps_mk

theorem keeps_mirrorRows {z : State} {s : State} {i : Nat} {row : Nat} {a : Nat} {x4 : Nat} (hz : Keeps z s)  :
    Keeps z (mirrorRows s i row a x4) := by
  induction x4 generalizing s i row a with
  | zero => dsimp only [mirrorRows]; assumption
  | succ n ih =>
    dsimp only [mirrorRows]
    repeat' first
      | with_reducible assumption
      | with_reducible apply ih
      | with_reducible apply keeps_memWriteP
      | with_reducible apply keeps_noteWrite
      | with_reducible apply keeps_noteRead
      | split

theorem keeps_mirrorCarry {z s : State} {n b : Nat} (hz : Keeps z s) :
    Keeps z (mirrorCarry s n b) := by
  dsimp only [mirrorCarry]
  repeat' first
    | with_reducible assumption
    | intro _
    | with_reducible apply keeps_mirrorRows
    | with_reducible apply keeps_modRun
    | with_reducible apply keeps_foldl
    | with_reducible apply keeps_mk

theorem keeps_checkCarry {z s : State} {n b : Nat} (hz : Keeps z s) :
    Keeps z (checkCarry s n b) := by
  dsimp only [checkCarry]
  repeat' first
    | with_reducible assumption
    | intro _
    | with_reducible apply keeps_failTile
    | with_reducible apply keeps_foldl
    | split

theorem keeps_rehearsalDone {z s : State} {n b : Nat} (hz : Keeps z s) :
    Keeps z (rehearsalDone s n b) := by
  dsimp only [rehearsalDone]
  repeat' first
    | with_reducible assumption
    | intro _
    | with_reducible apply keeps_modRun
    | with_reducible apply keeps_modBox
    | split
    | with_reducible apply keeps_mk

theorem keeps_commit {z s : State} {n b : Nat} (hz : Keeps z s) :
    Keeps z (commit s n b) := by
  dsimp only [commit]
  repeat' first
    | with_reducible assumption
    | intro _
    | with_reducible apply keeps_modTen
    | with_reducible apply keeps_rehearsalDone
    | with_reducible apply keeps_endRepairs
    | with_reducible apply keeps_modRun
    | with_reducible apply keeps_modStack
    | with_reducible apply keeps_beginCopy
    | with_reducible apply keeps_releaseBeat
    | with_reducible apply keeps_foldl
    | split
    | with_reducible apply keeps_mk

theorem keeps_commitPending {z s : State} {n : Nat} (hz : Keeps z s) :
    Keeps z (commitPending s n) := by
  dsimp only [commitPending]
  repeat' first
    | with_reducible assumption
    | with_reducible apply keeps_commit
    | split

theorem keeps_startTiles {z s : State} {n : Nat} {replay : Bool} (hz : Keeps z s) :
    Keeps z (startTiles s n replay) := by
  dsimp only [startTiles]
  repeat' first
    | with_reducible assumption
    | with_reducible apply keeps_modClause
    | split

theorem keeps_startReplay {z s : State} {n b : Nat} (hz : Keeps z s) :
    KeepsOpt z (startReplay s n b) := by
  dsimp only [startReplay]
  repeat' first
    | with_reducible assumption
    | intro _
    | with_reducible apply keepsOpt_some
    | with_reducible exact keepsOpt_none
    | with_reducible apply keeps_modTen
    | with_reducible apply keeps_modRun
    | with_reducible apply keeps_startTiles
    | with_reducible apply keepsOpt_map
    | (with_reducible refine opt_eq ?_ (by assumption))
    | split
    | with_reducible apply keeps_mk

theorem keeps_noteFail {z s : State} {n : Nat} {fails : List Nat} (hz : Keeps z s) :
    Keeps z (noteFail s n fails) := by
  dsimp only [noteFail]
  repeat' first
    | with_reducible assumption
    | intro _
    | with_reducible apply keeps_noteReal
    | with_reducible apply keeps_modTen
    | with_reducible apply keeps_modBox
    | with_reducible apply keeps_evRing
    | with_reducible apply keeps_foldl
    | split
    | with_reducible apply keeps_mk

theorem keeps_rewindBeat {z s : State} {n : Nat} {u : Run} (hz : Keeps z s) :
    Keeps z (rewindBeat s n u) := by
  dsimp only [rewindBeat]
  repeat' first
    | with_reducible assumption
    | intro _
    | with_reducible apply keeps_modClause
    | with_reducible apply keeps_dropBeat
    | with_reducible apply keeps_restoreSeq
    | split

theorem keeps_excludeDue {z s : State} {n : Nat} {u : Run} (hz : Keeps z s) :
    Keeps z (excludeDue s n u) := by
  dsimp only [excludeDue]
  repeat' first
    | with_reducible assumption
    | intro _
    | with_reducible apply keeps_modRun
    | with_reducible apply keeps_siteDown
    | with_reducible apply keeps_foldl
    | split
    | with_reducible apply keeps_mk

theorem keeps_failBeat {z s : State} {n : Nat} (hz : Keeps z s) :
    Keeps z (failBeat s n) := by
  dsimp only [failBeat]
  repeat' first
    | with_reducible assumption
    | intro _
    | with_reducible apply keeps_noteFail
    | with_reducible apply keeps_abortRun
    | with_reducible apply keeps_abortWritten
    | with_reducible apply keeps_rewindBeat
    | with_reducible apply keeps_excludeDue
    | with_reducible apply keeps_engineFails
    | with_reducible apply keeps_enterEngine
    | with_reducible apply keeps_modRun
    | with_reducible apply keeps_startReplay
    | with_reducible apply keeps_markRepair
    | with_reducible apply keeps_modBox
    | with_reducible apply keepsOpt_some
    | with_reducible exact keepsOpt_none
    | with_reducible apply keeps_getD
    | with_reducible apply keeps_foldl
    | (with_reducible refine of_opt ?_ (by assumption))
    | split
    | with_reducible apply keeps_mk

theorem keeps_excludeLate {z s : State} {n : Nat} (hz : Keeps z s) :
    Keeps z (excludeLate s n) := by
  dsimp only [excludeLate]
  repeat' first
    | with_reducible assumption
    | intro _
    | with_reducible apply keeps_modRun
    | with_reducible apply keeps_siteDown
    | with_reducible apply keeps_foldl
    | split
    | with_reducible apply keeps_mk

theorem keeps_lateFail {z s : State} {n b : Nat} (hz : Keeps z s) :
    Keeps z (lateFail s n b) := by
  dsimp only [lateFail]
  repeat' first
    | with_reducible assumption
    | intro _
    | with_reducible apply keeps_excludeDue
    | with_reducible apply keeps_noteFail
    | with_reducible apply keeps_dropBeat
    | with_reducible apply keeps_modClause
    | with_reducible apply keeps_restoreSeq
    | with_reducible apply keeps_restoreCarry
    | with_reducible apply keeps_modRun
    | with_reducible apply keeps_abortWritten
    | with_reducible apply keeps_engineFails
    | with_reducible apply keeps_enterEngine
    | with_reducible apply keeps_foldl
    | split
    | with_reducible apply keeps_mk

end Sys2Proof.Laws
end

