-- ==== Sys2Proof/Laws/Clause.lean ====
section
/-! SUPPORT. What the operations of Machine/Clause.lean keep: queue, factory identity, canonical memories. -/

namespace Sys2Proof.Laws
open Sys2Proof Sys2Proof.Machine

theorem keeps_joinRehearsal {z s : State} {n : Nat} (hz : Keeps z s) :
    Keeps z (joinRehearsal s n) := by
  dsimp only [joinRehearsal]
  repeat' first
    | with_reducible assumption
    | intro _
    | with_reducible apply keeps_modRun
    | split
    | with_reducible apply keeps_mk

theorem keeps_startWork {z s : State} {n : Nat} (hz : Keeps z s) :
    Keeps z (startWork s n) := by
  dsimp only [startWork]
  repeat' first
    | with_reducible assumption
    | intro _
    | with_reducible apply keeps_modRun
    | with_reducible apply keeps_startTiles
    | with_reducible apply keeps_joinRehearsal
    | split
    | with_reducible apply keeps_mk

theorem keeps_workOrHold {z s : State} {n : Nat} (hz : Keeps z s) :
    Keeps z (workOrHold s n) := by
  dsimp only [workOrHold]
  repeat' first
    | with_reducible assumption
    | with_reducible apply keeps_setPhase
    | with_reducible apply keeps_startWork
    | split

theorem keeps_startDrain {z s : State} {n : Nat} (hz : Keeps z s) :
    Keeps z (startDrain s n) := by
  dsimp only [startDrain]
  repeat' first
    | with_reducible assumption
    | with_reducible apply keeps_modClause
    | with_reducible apply keeps_setPhase

theorem keeps_moveHomes {z s : State} {n : Nat} (hz : Keeps z s) :
    Keeps z (moveHomes s n) := by
  dsimp only [moveHomes]
  repeat' first
    | with_reducible assumption
    | intro _
    | with_reducible apply keeps_copyTier
    | with_reducible apply keeps_modStack
    | with_reducible apply keeps_modTen
    | with_reducible apply keeps_foldl
    | split
    | with_reducible apply keeps_mk

theorem keeps_clearEpoch {z s : State} {n : Nat} (hz : Keeps z s) :
    Keeps z (clearEpoch s n) := by
  dsimp only [clearEpoch]
  repeat' first
    | with_reducible assumption
    | intro _
    | with_reducible apply keeps_modRing
    | with_reducible apply keeps_modStack
    | with_reducible apply keeps_foldl
    | split
    | with_reducible apply keeps_mk

theorem keeps_restoreSpm {z : State} {s : State} {x : Tenancy} {key i : Nat} (hz : Keeps z s) :
    Keeps z (restoreSpm s x key i) := keeps_mem hz memory_wf_foldl

theorem keeps_writeClaims {z s : State} {n : Nat} (hz : Keeps z s) :
    Keeps z (writeClaims s n) := by
  dsimp only [writeClaims]
  repeat' first
    | with_reducible assumption
    | intro _
    | with_reducible apply keeps_modField
    | with_reducible apply keeps_foldl
    | with_reducible apply keeps_mk

theorem keeps_showEpoch {z s : State} {n : Nat} (hz : Keeps z s) :
    Keeps z (showEpoch s n) := by
  dsimp only [showEpoch]
  repeat' first
    | with_reducible assumption
    | intro _
    | with_reducible apply keeps_modTile
    | with_reducible apply keeps_foldl
    | with_reducible apply keeps_mk

theorem keeps_bindLoad {z s : State} {n : Nat} {back : Bool} (hz : Keeps z s) :
    Keeps z (bindLoad s n back) := by
  dsimp only [bindLoad]
  repeat' first
    | with_reducible assumption
    | intro _
    | with_reducible apply keeps_releaseSite
    | with_reducible apply keeps_bindClause
    | with_reducible apply keeps_restoreSpm
    | with_reducible apply keeps_modTile
    | with_reducible apply keeps_writeClaims
    | with_reducible apply keeps_sendBindings
    | with_reducible apply keeps_showEpoch
    | with_reducible apply keeps_foldl
    | split

theorem keeps_restoreQueues {z s : State} {n : Nat} (hz : Keeps z s) :
    Keeps z (restoreQueues s n) := by
  dsimp only [restoreQueues]
  repeat' first
    | with_reducible assumption
    | intro _
    | with_reducible apply keeps_restoreSeq
    | with_reducible apply keeps_modRing
    | with_reducible apply keeps_foldl
    | split
    | with_reducible apply keeps_mk

theorem keeps_beginLoad {z s : State} {n : Nat} (hz : Keeps z s) :
    Keeps z (beginLoad s n) := by
  dsimp only [beginLoad]
  repeat' first
    | with_reducible assumption
    | intro _
    | with_reducible apply keeps_modRun
    | with_reducible apply keeps_leaveRing
    | with_reducible apply keeps_setPhase
    | with_reducible apply keeps_planMove
    | with_reducible apply keeps_abortRun
    | with_reducible apply keeps_moveHomes
    | with_reducible apply keeps_clearSeqs
    | with_reducible apply keeps_clearEpoch
    | with_reducible apply keeps_modTen
    | with_reducible apply keeps_modBox
    | with_reducible apply keeps_bindLoad
    | with_reducible apply keeps_restoreQueues
    | with_reducible apply keeps_mirrorCarry
    | split
    | with_reducible apply keeps_mk

theorem keeps_loadResident {z s : State} {n : Nat} (hz : Keeps z s) :
    Keeps z (loadResident s n) := by
  dsimp only [loadResident]
  repeat' first
    | with_reducible assumption
    | intro _
    | with_reducible apply keeps_loadRows
    | with_reducible apply keeps_foldl
    | split

theorem keeps_firstCopies {z s : State} {n : Nat} (hz : Keeps z s) :
    Keeps z (firstCopies s n) := by
  dsimp only [firstCopies]
  repeat' first
    | with_reducible assumption
    | intro _
    | with_reducible apply keeps_modClause
    | with_reducible apply keeps_modRun
    | with_reducible apply keeps_mk

theorem keeps_resumeRun {z s : State} {n : Nat} {loaded : Bool} (hz : Keeps z s) :
    Keeps z (resumeRun s n loaded) := by
  dsimp only [resumeRun]
  repeat' first
    | with_reducible assumption
    | intro _
    | with_reducible apply keeps_startReplay
    | with_reducible apply keeps_modRun
    | with_reducible apply keeps_workOrHold
    | with_reducible apply keeps_startDrain
    | with_reducible apply keepsOpt_some
    | with_reducible exact keepsOpt_none
    | (with_reducible refine of_opt ?_ (by assumption))
    | split
    | with_reducible apply keeps_mk

theorem keeps_stageArea {z s : State} {n a : Nat} (hz : Keeps z s) :
    Keeps z (stageArea s n a) := by
  dsimp only [stageArea]
  repeat' first
    | with_reducible assumption
    | intro _
    | with_reducible apply keeps_modField
    | with_reducible apply keeps_foldl
    | with_reducible apply keeps_mk

theorem keeps_loadTick {z s : State} {n : Nat} (hz : Keeps z s) :
    Keeps z (loadTick s n) := by
  dsimp only [loadTick]
  repeat' first
    | with_reducible assumption
    | intro _
    | with_reducible apply keeps_modTen
    | with_reducible apply keeps_endRun
    | with_reducible apply keeps_modRun
    | with_reducible apply keeps_fieldLost
    | with_reducible apply keeps_bindLoad
    | with_reducible apply keeps_resetTiles
    | with_reducible apply keeps_stageArea
    | with_reducible apply keeps_firstCopies
    | with_reducible apply keeps_loadResident
    | with_reducible apply keeps_resumeRun
    | with_reducible apply keeps_workOrHold
    | split
    | with_reducible apply keeps_mk

theorem keeps_enterClause {z s : State} {n next : Nat} {passes : List (Nat × Nat)} (hz : Keeps z s) :
    Keeps z (enterClause s n next passes) := by
  dsimp only [enterClause]
  repeat' first
    | with_reducible assumption
    | intro _
    | with_reducible apply keeps_beginLoad
    | with_reducible apply keeps_modRun
    | with_reducible apply keeps_mk

theorem keeps_drainTick {z s : State} {n : Nat} (hz : Keeps z s) :
    Keeps z (drainTick s n) := by
  dsimp only [drainTick]
  repeat' first
    | with_reducible assumption
    | intro _
    | with_reducible apply keeps_lateFail
    | with_reducible apply keeps_commitPending
    | with_reducible apply keeps_endRun
    | with_reducible apply keeps_setPhase
    | with_reducible apply keeps_enterClause
    | split

theorem keeps_guardTick {z s : State} {n : Nat} (hz : Keeps z s) :
    Keeps z (guardTick s n) := by
  dsimp only [guardTick]
  repeat' first
    | with_reducible assumption
    | with_reducible apply keeps_lateFail
    | with_reducible apply keeps_commitPending
    | with_reducible apply keeps_enterEngine
    | with_reducible apply keeps_startDrain
    | with_reducible apply keeps_workOrHold
    | split

theorem keeps_saveTiles {z s : State} {n : Nat} (hz : Keeps z s) :
    Keeps z (saveTiles s n) := by
  dsimp only [saveTiles]
  repeat' first
    | with_reducible assumption
    | intro _
    | with_reducible apply keeps_modTen
    | with_reducible apply keeps_clearSeqs
    | with_reducible apply keeps_modRing
    | with_reducible apply keeps_clearSite
    | with_reducible apply keeps_foldl
    | split
    | with_reducible apply keeps_mk

theorem keeps_switchIn {z s : State} {m : Nat} (hz : Keeps z s) :
    Keeps z (switchIn s m) := by
  dsimp only [switchIn]
  repeat' first
    | with_reducible assumption
    | intro _
    | with_reducible apply keeps_modTen
    | with_reducible apply keeps_beginLoad
    | split
    | with_reducible apply keeps_mk

theorem keeps_doSwitch {z s : State} {n m : Nat} (hz : Keeps z s) :
    Keeps z (doSwitch s n m) := by
  dsimp only [doSwitch]
  repeat' first
    | with_reducible assumption
    | intro _
    | with_reducible apply keeps_modRun
    | with_reducible apply keeps_saveTiles
    | with_reducible apply keeps_clearSite
    | with_reducible apply keeps_modTen
    | with_reducible apply keeps_completeOpt
    | with_reducible apply keeps_switchIn
    | with_reducible apply keeps_foldl
    | split
    | with_reducible apply keeps_mk

theorem keeps_countSwitch {z s : State} {n : Nat} (hz : Keeps z s) :
    Keeps z (countSwitch s n) := by
  dsimp only [countSwitch]
  repeat' first
    | with_reducible assumption
    | intro _
    | with_reducible apply keeps_modTen
    | with_reducible apply keeps_mk

theorem keeps_waitTick {z s : State} {n : Nat} (hz : Keeps z s) :
    Keeps z (waitTick s n) := by
  dsimp only [waitTick]
  repeat' first
    | with_reducible assumption
    | intro _
    | with_reducible apply keeps_countSwitch
    | with_reducible apply keeps_setPhase
    | split

theorem keeps_swapTick {z s : State} {n left : Nat} (hz : Keeps z s) :
    Keeps z (swapTick s n left) := by
  dsimp only [swapTick]
  repeat' first
    | with_reducible assumption
    | intro _
    | with_reducible apply keeps_countSwitch
    | with_reducible apply keeps_setPhase
    | with_reducible apply keeps_doSwitch
    | split

theorem keeps_switchIdle {z s : State} {g : Nat} (hz : Keeps z s) :
    Keeps z (switchIdle s g) := by
  dsimp only [switchIdle]
  repeat' first
    | with_reducible assumption
    | with_reducible apply keeps_switchIn
    | with_reducible apply keeps_doSwitch
    | split

end Sys2Proof.Laws
end

