-- ==== Sys2Proof/Laws/Health.lean ====
section
/-! SUPPORT. What the operations of Machine/Health.lean keep: queue, factory identity, canonical memories. -/

namespace Sys2Proof.Laws
open Sys2Proof Sys2Proof.Machine

theorem keeps_checkSeam {z s : State} {f : Nat} {sd : Side} (hz : Keeps z s) :
    Keeps z (checkSeam s f sd) := by
  dsimp only [checkSeam]
  repeat' first
    | with_reducible assumption
    | intro _
    | with_reducible apply keeps_fieldLost
    | with_reducible apply keeps_foldl
    | split

theorem keeps_spareLane {z s : State} {f : Nat} {sd : Side} {c : Nat} {midway : Bool} (hz : Keeps z s) :
    KeepsOpt z (spareLane s f sd c midway) := by
  dsimp only [spareLane]
  repeat' first
    | with_reducible assumption
    | intro _
    | with_reducible apply keepsOpt_some
    | with_reducible exact keepsOpt_none
    | with_reducible apply keeps_modField
    | (with_reducible refine opt_eq ?_ (by assumption))
    | split
    | with_reducible apply keeps_mk

theorem keeps_checkRoute {z s : State} {f : Nat} (hz : Keeps z s) :
    Keeps z (checkRoute s f) := by
  dsimp only [checkRoute]
  repeat' first
    | with_reducible assumption
    | intro _
    | with_reducible apply keeps_fieldLost
    | with_reducible apply keeps_foldl
    | split

theorem keeps_laneRetire {z s : State} {f : Nat} {side : Side} {c lane : Nat} {midway : Bool} (hz : Keeps z s) :
    Keeps z (laneRetire s f side c lane midway) := by
  dsimp only [laneRetire]
  repeat' first
    | with_reducible assumption
    | with_reducible apply keeps_spareLane
    | with_reducible apply keeps_evField
    | with_reducible apply keeps_midwayEntry
    | with_reducible apply keeps_seamEntry
    | with_reducible apply keeps_checkRoute
    | with_reducible apply keeps_failMidway
    | with_reducible apply keeps_checkSeam
    | with_reducible apply keeps_setCrossing
    | with_reducible apply keepsOpt_some
    | with_reducible exact keepsOpt_none
    | (with_reducible refine of_opt ?_ (by assumption))
    | split

theorem keeps_execLaneRetire {z : State} {field : FieldId} {side : Side} {crossing : Fin 9} {lane : Fin 32} {midway : Bool} {s : State} (hz : Keeps z s) :
    KeepsNext z (execLaneRetire field side crossing lane midway s) := by
  dsimp only [execLaneRetire]
  repeat' first
    | with_reducible assumption
    | intro _
    | with_reducible apply keepsNext_next
    | with_reducible exact keepsNext_fault
    | with_reducible apply keeps_modField
    | split
    | with_reducible apply keeps_mk

theorem keeps_lanesTick {z s : State} (hz : Keeps z s) :
    Keeps z (lanesTick s) := by
  dsimp only [lanesTick]
  repeat' first
    | with_reducible assumption
    | intro _
    | with_reducible apply keeps_modField
    | with_reducible apply keeps_laneRetire
    | with_reducible apply keeps_foldl
    | split
    | with_reducible apply keeps_mk

theorem keeps_channelFails {z s : State} {f c cause : Nat} (hz : Keeps z s) :
    Keeps z (channelFails s f c cause) := by
  dsimp only [channelFails]
  repeat' first
    | with_reducible assumption
    | with_reducible apply keeps_retireField
    | with_reducible apply keeps_failChannel
    | split

theorem keeps_channelDegraded {z s : State} {f c cause : Nat} (hz : Keeps z s) :
    Keeps z (channelDegraded s f c cause) := by
  dsimp only [channelDegraded]
  repeat' first
    | with_reducible assumption
    | with_reducible apply keeps_refine

theorem keeps_moveTsvLane {z s : State} {f c k : Nat} (hz : Keeps z s) :
    Keeps z (moveTsvLane s f c k) := by
  dsimp only [moveTsvLane]
  repeat' first
    | with_reducible assumption
    | intro _
    | with_reducible apply keeps_modNearCh
    | with_reducible apply keeps_channelDegraded
    | with_reducible apply keeps_evField
    | with_reducible apply keeps_channelFails
    | split
    | with_reducible apply keeps_mk

theorem keeps_tsvTick {z s : State} (hz : Keeps z s) :
    Keeps z (tsvTick s) := by
  dsimp only [tsvTick]
  repeat' first
    | with_reducible assumption
    | intro _
    | with_reducible apply keeps_moveTsvLane
    | with_reducible apply keeps_modNearCh
    | with_reducible apply keeps_foldl
    | split
    | with_reducible apply keeps_mk

theorem keeps_execTsvLaneRetire {z : State} {field : FieldId} {ch : Fin 32} {group : Fin 36} {lane : Fin 32} {s : State} (hz : Keeps z s) :
    KeepsNext z (execTsvLaneRetire field ch group lane s) := by
  dsimp only [execTsvLaneRetire]
  repeat' first
    | with_reducible assumption
    | intro _
    | with_reducible apply keepsNext_next
    | with_reducible exact keepsNext_fault
    | with_reducible apply keeps_modNearCh
    | split
    | with_reducible apply keeps_mk

theorem keeps_remapRow {z s : State} {f c key : Nat} (hz : Keeps z s) :
    Keeps z (remapRow s f c key) := by
  dsimp only [remapRow]
  repeat' first
    | with_reducible assumption
    | intro _
    | with_reducible apply keeps_modNearCh
    | with_reducible apply keeps_channelDegraded
    | with_reducible apply keeps_channelFails
    | split
    | with_reducible apply keeps_mk

theorem keeps_execRowRemap {z : State} {field : FieldId} {ch : Fin 32} {half : Fin 2} {bank : Fin 32} {row : Fin 16384} {s : State} (hz : Keeps z s) :
    KeepsNext z (execRowRemap field ch half bank row s) := by
  dsimp only [execRowRemap]
  repeat' first
    | with_reducible assumption
    | with_reducible apply keepsNext_next
    | with_reducible exact keepsNext_fault
    | with_reducible apply keeps_remapRow
    | split

theorem keeps_poisonCodeword {z s : State} {a : Nat} (hz : Keeps z s) :
    Keeps z (poisonCodeword s a) := by
  dsimp only [poisonCodeword]
  repeat' first
    | with_reducible assumption
    | intro _
    | with_reducible apply keeps_poisonLanes
    | split
    | with_reducible apply keeps_mk

theorem keeps_healCodeword {z s : State} {a : Nat} (hz : Keeps z s) :
    Keeps z (healCodeword s a) := by
  dsimp only [healCodeword]
  repeat' first
    | with_reducible assumption
    | intro _
    | split
    | with_reducible apply keeps_mk

theorem keeps_patrolErr {z s : State} {f c : Nat} {x3 : PatrolErr} (hz : Keeps z s) :
    Keeps z (patrolErr s f c x3) := by
  dsimp only [patrolErr]
  repeat' first
    | with_reducible assumption
    | with_reducible apply keeps_healCodeword
    | with_reducible apply keeps_nearCorrected
    | with_reducible apply keeps_nearUncorrected
    | with_reducible apply keeps_poisonCodeword
    | split

theorem keeps_execNearPatrol {z : State} {field : FieldId} {ch : Fin 32} {errs : List PatrolErr} {s : State} (hz : Keeps z s) :
    KeepsNext z (execNearPatrol field ch errs s) := by
  dsimp only [execNearPatrol]
  repeat' first
    | with_reducible assumption
    | intro _
    | with_reducible apply keepsNext_next
    | with_reducible exact keepsNext_fault
    | with_reducible apply keeps_remapRow
    | with_reducible apply keeps_patrolErr
    | with_reducible apply keeps_modNearCh
    | with_reducible apply keeps_foldl
    | split
    | with_reducible apply keeps_mk

theorem keeps_execFarPatrol {z : State} {stack : StackId} {errs : List PatrolErr} {s : State} (hz : Keeps z s) :
    KeepsNext z (execFarPatrol stack errs s) := by
  dsimp only [execFarPatrol]
  repeat' first
    | with_reducible assumption
    | intro _
    | with_reducible apply keepsNext_next
    | with_reducible exact keepsNext_fault
    | with_reducible apply keeps_healCodeword
    | with_reducible apply keeps_modStack
    | with_reducible apply keeps_poisonCodeword
    | with_reducible apply keeps_evField
    | with_reducible apply keeps_foldl
    | split
    | with_reducible apply keeps_mk

theorem keeps_execPcRetrain {z : State} {stack : StackId} {pc : Fin 32} {s : State} (hz : Keeps z s) :
    KeepsNext z (execPcRetrain stack pc s) := by
  dsimp only [execPcRetrain]
  repeat' first
    | with_reducible assumption
    | intro _
    | with_reducible apply keepsNext_next
    | with_reducible exact keepsNext_fault
    | with_reducible apply keeps_modStack
    | split
    | with_reducible apply keeps_mk

theorem keeps_execPcRetrainDone {z : State} {stack : StackId} {pc : Fin 32} {ok : Bool} {s : State} (hz : Keeps z s) :
    KeepsNext z (execPcRetrainDone stack pc ok s) := by
  dsimp only [execPcRetrainDone]
  repeat' first
    | with_reducible assumption
    | intro _
    | with_reducible apply keepsNext_next
    | with_reducible exact keepsNext_fault
    | with_reducible apply keeps_modStack
    | with_reducible apply keeps_fencePc
    | with_reducible apply keeps_evField
    | split
    | with_reducible apply keeps_mk

theorem keeps_siteFailsLate {z s : State} {i mech : Nat} (hz : Keeps z s) :
    Keeps z (siteFailsLate s i mech) := by
  dsimp only [siteFailsLate]
  repeat' first
    | with_reducible assumption
    | intro _
    | with_reducible apply keeps_siteDown
    | with_reducible apply keeps_modRun
    | with_reducible apply keeps_noteReal
    | with_reducible apply keeps_failLate
    | split
    | with_reducible apply keeps_mk

theorem keeps_execTickMissing {z : State} {site : SiteId} {s : State} (hz : Keeps z s) :
    KeepsNext z (execTickMissing site s) := by
  dsimp only [execTickMissing]
  repeat' first
    | with_reducible assumption
    | intro _
    | with_reducible apply keepsNext_next
    | with_reducible exact keepsNext_fault
    | with_reducible apply keeps_siteFailsLate
    | with_reducible apply keeps_modTile
    | with_reducible apply keeps_modRing
    | with_reducible apply keeps_startReset
    | with_reducible apply keeps_evModule
    | with_reducible apply keeps_leaveRing
    | split
    | with_reducible apply keeps_mk

theorem keeps_execSideshowTest {z : State} {ring : RingId} {failed : List SiteId} {switchFailed : List SiteId} {s : State} (hz : Keeps z s) :
    KeepsNext z (execSideshowTest ring failed switchFailed s) := by
  dsimp only [execSideshowTest]
  repeat' first
    | with_reducible assumption
    | intro _
    | with_reducible apply keepsNext_next
    | with_reducible exact keepsNext_fault
    | with_reducible apply keeps_modBox
    | with_reducible apply keeps_siteFailsLate
    | with_reducible apply keeps_retireField
    | with_reducible apply keeps_foldl
    | split
    | with_reducible apply keeps_mk

theorem keeps_execSuspectExpiry {z : State} {item : MapItem} {s : State} (hz : Keeps z s) :
    KeepsNext z (execSuspectExpiry item s) := by
  dsimp only [execSuspectExpiry]
  repeat' first
    | with_reducible assumption
    | intro _
    | with_reducible apply keepsNext_next
    | with_reducible exact keepsNext_fault
    | with_reducible apply keeps_refine
    | with_reducible apply keeps_setSiteMap
    | with_reducible apply keeps_modRing
    | split
    | with_reducible apply keeps_mk

theorem keeps_execHeartbeat {z : State} {ring : RingId} {c : CtlMsg} {s : State} (hz : Keeps z s) :
    KeepsNext z (execHeartbeat ring c s) := by
  dsimp only [execHeartbeat]
  repeat' first
    | with_reducible assumption
    | with_reducible apply keepsNext_next
    | with_reducible exact keepsNext_fault
    | split
    | with_reducible apply keeps_mk

theorem keeps_execRingLost {z : State} {ring : RingId} {s : State} (hz : Keeps z s) :
    KeepsNext z (execRingLost ring s) := by
  dsimp only [execRingLost]
  repeat' first
    | with_reducible assumption
    | with_reducible apply keepsNext_next
    | with_reducible exact keepsNext_fault
    | with_reducible apply keeps_leaveRing
    | split
    | with_reducible apply keeps_mk

theorem keeps_execRingRejoin {z : State} {ring : RingId} {rep : PartReport} {s : State} (hz : Keeps z s) :
    KeepsNext z (execRingRejoin ring rep s) := by
  dsimp only [execRingRejoin]
  repeat' first
    | with_reducible assumption
    | intro _
    | with_reducible apply keepsNext_next
    | with_reducible exact keepsNext_fault
    | with_reducible apply keeps_evRing
    | with_reducible apply keeps_modRing
    | with_reducible apply keeps_testSites
    | with_reducible apply keeps_testRetires
    | with_reducible apply keeps_testChannels
    | with_reducible apply keeps_trainCrossings
    | with_reducible apply keeps_clearNear
    | with_reducible apply keeps_modBox
    | with_reducible apply keeps_foldl
    | split
    | with_reducible apply keeps_mk

theorem keeps_readTileReg {z s : State} {i off : Nat} (hz : Keeps z s) :
    Keeps z (readTileReg s i off) := by
  dsimp only [readTileReg]
  repeat' first
    | with_reducible assumption
    | intro _
    | with_reducible apply keeps_modTile
    | with_reducible apply keeps_latchReg
    | with_reducible apply keeps_refusedRead
    | split

theorem keeps_execErrStatus {z : State} {site : SiteId} {v : BitVec 64} {s : State} (hz : Keeps z s) :
    KeepsNext z (execErrStatus site v s) := by
  dsimp only [execErrStatus]
  repeat' first
    | with_reducible assumption
    | intro _
    | with_reducible apply keepsNext_next
    | with_reducible exact keepsNext_fault
    | with_reducible apply keeps_evAccess
    | with_reducible apply keeps_modTile
    | split
    | with_reducible apply keeps_mk

theorem keeps_execCorrCount {z : State} {site : SiteId} {s : State} (hz : Keeps z s) :
    KeepsNext z (execCorrCount site s) := by
  dsimp only [execCorrCount]
  repeat' first
    | with_reducible assumption
    | with_reducible apply keepsNext_next
    | with_reducible exact keepsNext_fault
    | with_reducible apply keeps_readTileReg

theorem keeps_execDiscardCount {z : State} {site : SiteId} {s : State} (hz : Keeps z s) :
    KeepsNext z (execDiscardCount site s) := by
  dsimp only [execDiscardCount]
  repeat' first
    | with_reducible assumption
    | with_reducible apply keepsNext_next
    | with_reducible exact keepsNext_fault
    | with_reducible apply keeps_readTileReg

theorem keeps_execPoisonCount {z : State} {site : SiteId} {s : State} (hz : Keeps z s) :
    KeepsNext z (execPoisonCount site s) := by
  dsimp only [execPoisonCount]
  repeat' first
    | with_reducible assumption
    | with_reducible apply keepsNext_next
    | with_reducible exact keepsNext_fault
    | with_reducible apply keeps_readTileReg

theorem keeps_readSeam {z s : State} {f : Nat} {sd : Side} (hz : Keeps z s) :
    Keeps z (readSeam s f sd) := by
  dsimp only [readSeam]
  repeat' first
    | with_reducible assumption
    | intro _
    | with_reducible apply keeps_modField
    | with_reducible apply keeps_latchReg
    | with_reducible apply keeps_mk

theorem keeps_readNearCh {z s : State} {f c : Nat} (hz : Keeps z s) :
    Keeps z (readNearCh s f c) := by
  dsimp only [readNearCh]
  repeat' first
    | with_reducible assumption
    | intro _
    | with_reducible apply keeps_modNearCh
    | with_reducible apply keeps_latchReg
    | with_reducible apply keeps_mk

theorem keeps_execCrcErr {z : State} {field : FieldId} {side : Side} {s : State} (hz : Keeps z s) :
    KeepsNext z (execCrcErr field side s) := by
  dsimp only [execCrcErr]
  repeat' first
    | with_reducible assumption
    | with_reducible apply keepsNext_next
    | with_reducible exact keepsNext_fault
    | with_reducible apply keeps_refusedRead
    | with_reducible apply keeps_readSeam
    | split

theorem keeps_execNearChStatus {z : State} {field : FieldId} {ch : Fin 32} {s : State} (hz : Keeps z s) :
    KeepsNext z (execNearChStatus field ch s) := by
  dsimp only [execNearChStatus]
  repeat' first
    | with_reducible assumption
    | with_reducible apply keepsNext_next
    | with_reducible exact keepsNext_fault
    | with_reducible apply keeps_refusedRead
    | with_reducible apply keeps_readNearCh
    | split

theorem keeps_rehearsalTick {z s : State} (hz : Keeps z s) :
    Keeps z (rehearsalTick s) := by
  dsimp only [rehearsalTick]
  repeat' first
    | with_reducible assumption
    | intro _
    | with_reducible apply keeps_modBox
    | split
    | with_reducible apply keeps_mk

theorem keeps_injectFault {z s : State} (hz : Keeps z s) :
    Keeps z (injectFault s) := by
  dsimp only [injectFault]
  repeat' first
    | with_reducible assumption
    | intro _
    | with_reducible apply keeps_modBox
    | with_reducible apply keeps_modTile
    | with_reducible apply keeps_failTile
    | with_reducible apply keeps_evTile
    | with_reducible apply keeps_spareLane
    | with_reducible apply keeps_evField
    | with_reducible apply keepsOpt_some
    | with_reducible exact keepsOpt_none
    | with_reducible apply keeps_foldl
    | (with_reducible refine of_opt ?_ (by assumption))
    | split
    | with_reducible apply keeps_mk

theorem keeps_execRehearsalFire {z s : State} (hz : Keeps z s) :
    KeepsNext z (execRehearsalFire s) := by
  dsimp only [execRehearsalFire]
  repeat' first
    | with_reducible assumption
    | intro _
    | with_reducible apply keepsNext_next
    | with_reducible exact keepsNext_fault
    | with_reducible apply keeps_modBox
    | with_reducible apply keeps_injectFault
    | with_reducible apply keeps_modRun
    | split
    | with_reducible apply keeps_mk

theorem keeps_execLaneDropReturn {z s : State} (hz : Keeps z s) :
    KeepsNext z (execLaneDropReturn s) := by
  dsimp only [execLaneDropReturn]
  repeat' first
    | with_reducible assumption
    | intro _
    | with_reducible apply keepsNext_next
    | with_reducible exact keepsNext_fault
    | with_reducible apply keeps_modField
    | with_reducible apply keeps_modBox
    | split
    | with_reducible apply keeps_mk

end Sys2Proof.Laws
end

