-- ==== Sys2Proof/Laws/Operands.lean ====
section
/-! SUPPORT. What the operations of Machine/Operands.lean keep: queue, factory identity, canonical memories. -/

namespace Sys2Proof.Laws
open Sys2Proof Sys2Proof.Machine

theorem keeps_srcRows {z s : State} {i src row : Nat} {cc : Nat} {u : PortUse} {n : Nat} (hz : Keeps z s) :
    KeepsOptFst z (srcRows s i src row cc u n) := by
  dsimp only [srcRows]
  repeat' first
    | with_reducible assumption
    | with_reducible apply keepsOptFst_some
    | with_reducible exact keepsOptFst_none
    | with_reducible apply keeps_readPort
    | with_reducible apply keeps_takeRows
    | (with_reducible refine of_fst ?_ (by assumption))
    | (with_reducible refine of_optFst ?_ (by assumption))
    | (with_reducible refine of_optPair ?_ (by assumption))
    | split

theorem keeps_pushOut {z s : State} {i b : Nat} {rs : List OutRow} (hz : Keeps z s) :
    Keeps z (pushOut s i b rs) := by
  dsimp only [pushOut]
  repeat' first
    | with_reducible assumption
    | intro _
    | with_reducible apply keeps_modTile
    | with_reducible apply keeps_mk

theorem keeps_applyWr {z s : State} {i w : Nat} {x3 : Wr} (hz : Keeps z s) :
    Keeps z (applyWr s i w x3) := by
  dsimp only [applyWr]
  repeat' first
    | with_reducible assumption
    | with_reducible apply keeps_writeRowAt
    | with_reducible apply keeps_writeWordAt
    | with_reducible apply keeps_pushOut
    | with_reducible apply keeps_writeNear
    | split

end Sys2Proof.Laws
end

