-- ==== Sys2Proof/Laws/Flags.lean ====
section
/-! SUPPORT. What the operations of Machine/Flags.lean keep: queue, factory identity, canonical memories. -/

namespace Sys2Proof.Laws
open Sys2Proof Sys2Proof.Machine

theorem keeps_setErr {z s : State} {i : Nat} {b : BitVec 9} (hz : Keeps z s) :
    Keeps z (setErr s i b) := by
  dsimp only [setErr]
  repeat' first
    | with_reducible assumption
    | intro _
    | with_reducible apply keeps_modTile
    | split
    | with_reducible apply keeps_mk

end Sys2Proof.Laws
end

