-- ==== Sys2Proof/Laws/Verbs.lean ====
section
/-! SUPPORT. What the operations of Machine/Verbs.lean keep: queue, factory identity, canonical memories. -/

namespace Sys2Proof.Laws
open Sys2Proof Sys2Proof.Machine

theorem keeps_applyWrs {z : State} {at_ : Nat → Nat} {s : State} {site : Nat} {k : Nat} {x4 : List (Nat × Wr)} (hz : Keeps z s)  :
    Keeps z (applyWrs at_ s site k x4) := by
  induction x4 generalizing s site k with
  | nil => dsimp only [applyWrs]; assumption
  | cons x xs ih =>
    dsimp only [applyWrs]
    repeat' first
      | with_reducible assumption
      | with_reducible apply ih
      | with_reducible apply keeps_applyWr
      | split

theorem keeps_mirrorFails {z s : State} {i row : Nat} (hz : Keeps z s) :
    Keeps z (mirrorFails s i row) := by
  dsimp only [mirrorFails]
  repeat' first
    | with_reducible assumption
    | intro _
    | with_reducible apply keeps_evTile
    | with_reducible apply keeps_failTile
    | with_reducible apply keeps_setErr
    | with_reducible apply keeps_modRun
    | with_reducible apply keeps_siteFails
    | split
    | with_reducible apply keeps_mk

theorem keeps_mirrorWrites {z : State} {at_ : Nat → Nat} {s : State} {i : Nat} {wi : List (Nat × Wr)} {wj : List (Nat × Wr)} (hz : Keeps z s) :
    Keeps z (mirrorWrites at_ s i wi wj) := by
  dsimp only [mirrorWrites]
  repeat' first
    | with_reducible assumption
    | intro _
    | with_reducible apply keeps_applyWrs
    | with_reducible apply keeps_mirrorFails
    | split

theorem keeps_runVerb {z : State} {x : VInfo} {eff : State → Nat → BitVec 128 → Nat → VRes} {s : State} {i : Nat} {v : BitVec 128} {cc late : Nat} (hz : Keeps z s) (heff : ∀ s y1 y2 y3, Keeps z s → KeepsRes z (eff s y1 y2 y3)) :
    KeepsRes z (runVerb x eff s i v cc late) := by
  dsimp only [runVerb]
  repeat' first
    | with_reducible assumption
    | intro _
    | with_reducible apply heff
    | with_reducible apply keepsRes_done
    | with_reducible exact keepsRes_trap
    | with_reducible apply keepsRes_wait
    | with_reducible apply keeps_mirrorWrites
    | with_reducible apply keeps_applyWrs
    | (with_reducible refine of_res ?_ (by assumption))
    | (with_reducible refine of_wait ?_ (by assumption))
    | (with_reducible refine res_eq ?_ (by assumption))
    | split

theorem keeps_pruneAt {z s : State} {i cc : Nat} (hz : Keeps z s) :
    Keeps z (pruneAt s i cc) := by
  dsimp only [pruneAt]
  repeat' first
    | with_reducible assumption
    | intro _
    | with_reducible apply keeps_modTile
    | split

theorem keeps_holdPair {z s : State} {i : Nat} {x : VInfo} {slot stamp cc : Nat} (hz : Keeps z s) :
    Keeps z (holdPair s i x slot stamp cc) := by
  dsimp only [holdPair]
  repeat' first
    | with_reducible assumption
    | intro _
    | with_reducible apply keeps_modTile
    | split
    | with_reducible apply keeps_mk

theorem keeps_beginWait {z s : State} {i slot : Nat} {u : VUnit} {stamp moved : Nat} {w : WaitRec} (hz : Keeps z s) :
    Keeps z (beginWait s i slot u stamp moved w) := by
  dsimp only [beginWait]
  repeat' first
    | with_reducible assumption
    | intro _
    | with_reducible apply keeps_modTile
    | split
    | with_reducible apply keeps_mk

theorem keeps_schedule {z : State} {x : VInfo} {eff : State → Nat → BitVec 128 → Nat → VRes} {s : State} {i slot : Nat} {v : BitVec 128} {wait : Nat} (hz : Keeps z s) (heff : ∀ s y1 y2 y3, Keeps z s → KeepsRes z (eff s y1 y2 y3)) :
    Keeps z (schedule x eff s i slot v wait) := by
  dsimp only [schedule]
  repeat' first
    | with_reducible assumption
    | intro _
    | with_reducible apply heff
    | with_reducible apply keeps_pruneAt
    | with_reducible apply keeps_trapTile
    | with_reducible apply keeps_runVerb
    | with_reducible apply keeps_beginWait
    | with_reducible apply keeps_holdPair
    | with_reducible apply keeps_modTile
    | (with_reducible refine of_res ?_ (by assumption))
    | (with_reducible refine of_wait ?_ (by assumption))
    | split

theorem keeps_releaseAt {z s : State} {i : Nat} {x : VInfo} {tag c : Nat} (hz : Keeps z s) :
    Keeps z (releaseAt s i x tag c) := by
  dsimp only [releaseAt]
  repeat' first
    | with_reducible assumption
    | intro _
    | with_reducible apply keeps_modTile
    | split
    | with_reducible apply keeps_mk

theorem keeps_startPair {z s : State} {i : Nat} {x : VInfo} {cc : Nat} {p : DynPlan} (hz : Keeps z s) :
    Keeps z (startPair s i x cc p) := by
  dsimp only [startPair]
  repeat' first
    | with_reducible assumption
    | intro _
    | with_reducible apply keeps_releaseAt
    | with_reducible apply keeps_modTile
    | split
    | with_reducible apply keeps_mk

theorem keeps_setShift {z s : State} {i : Nat} {m : List (Nat × Nat)} (hz : Keeps z s) :
    Keeps z (setShift s i m) := by
  dsimp only [setShift]
  repeat' first
    | with_reducible assumption
    | with_reducible apply keeps_modTile
    | split
    | with_reducible apply keeps_mk

theorem keeps_startDynamic {z : State} {info : BitVec 128 → VInfo} {eff : State → Nat → BitVec 128 → Nat → VRes} {s : State} {i cc : Nat} (hz : Keeps z s) (heff : ∀ s y1 y2 y3, Keeps z s → KeepsRes z (eff s y1 y2 y3)) :
    Keeps z (startDynamic info eff s i cc) := by
  dsimp only [startDynamic]
  repeat' first
    | with_reducible assumption
    | intro _
    | with_reducible apply heff
    | with_reducible apply keeps_pruneAt
    | with_reducible apply keeps_runVerb
    | with_reducible apply keeps_setShift
    | with_reducible apply keeps_trapTile
    | with_reducible apply keeps_setWait
    | with_reducible apply keeps_releaseAt
    | with_reducible apply keeps_modTile
    | with_reducible apply keeps_clearWait
    | with_reducible apply keeps_startPair
    | (with_reducible refine of_res ?_ (by assumption))
    | (with_reducible refine of_wait ?_ (by assumption))
    | split
    | with_reducible apply keeps_mk

end Sys2Proof.Laws
end

