-- ==== Sys2Proof/Laws/Mesh.lean ====
section
/-! SUPPORT. What the operations of Machine/Mesh.lean keep: queue, factory identity, canonical memories. -/

namespace Sys2Proof.Laws
open Sys2Proof Sys2Proof.Machine

theorem keeps_drivePath {z s : State} {hs : List Hop} (hz : Keeps z s) :
    Keeps z (drivePath s hs) := by
  dsimp only [drivePath]
  repeat' first
    | with_reducible assumption
    | intro _
    | with_reducible apply keeps_modTile
    | with_reducible apply keeps_foldl
    | with_reducible apply keeps_mk

theorem keeps_laneFailed {z s : State} {f key : Nat} (hz : Keeps z s) :
    Keeps z (laneFailed s f key) := by
  dsimp only [laneFailed]
  repeat' first
    | with_reducible assumption
    | intro _
    | with_reducible apply keeps_modField
    | split
    | with_reducible apply keeps_mk

theorem keeps_crcFails {z s : State} {h : Hop} {lane : Nat} (hz : Keeps z s) :
    Keeps z (crcFails s h lane) := by
  dsimp only [crcFails]
  repeat' first
    | with_reducible assumption
    | intro _
    | with_reducible apply keeps_modField
    | with_reducible apply keeps_laneFailed
    | split
    | with_reducible apply keeps_mk

theorem keeps_withdrawFrom {z s : State} {i : Nat} {bs : List Nat} {tok : Nat} (hz : Keeps z s) :
    KeepsOpt z (withdrawFrom s i bs tok) := by
  dsimp only [withdrawFrom]
  repeat' first
    | with_reducible assumption
    | intro _
    | with_reducible apply keepsOpt_some
    | with_reducible exact keepsOpt_none
    | with_reducible apply keeps_evTile
    | with_reducible apply keeps_failTile
    | with_reducible apply keeps_modTile
    | with_reducible apply keepsOpt_map
    | (with_reducible refine opt_eq ?_ (by assumption))
    | split
    | with_reducible apply keeps_mk

theorem keeps_withdrawHeader {z s : State} {i b p : Nat} (hz : Keeps z s) :
    Keeps z (withdrawHeader s i b p) := by
  dsimp only [withdrawHeader]
  repeat' first
    | with_reducible assumption
    | intro _
    | with_reducible apply keeps_withdrawFrom
    | with_reducible apply keeps_modTile
    | with_reducible apply keepsOpt_some
    | with_reducible exact keepsOpt_none
    | with_reducible apply keepsOpt_bind
    | (with_reducible refine of_opt ?_ (by assumption))
    | split
    | with_reducible apply keeps_mk

theorem keeps_offerWord {z s : State} {i b : Nat} {src : Producer} {w : MeshWord} (hz : Keeps z s) :
    KeepsOpt z (offerWord s i b src w) := by
  dsimp only [offerWord]
  repeat' first
    | with_reducible assumption
    | intro _
    | with_reducible apply keepsOpt_some
    | with_reducible exact keepsOpt_none
    | with_reducible apply keeps_epochDiscard
    | with_reducible apply keeps_withdrawHeader
    | with_reducible apply keeps_modTile
    | with_reducible apply keepsOpt_map
    | (with_reducible refine opt_eq ?_ (by assumption))
    | split
    | with_reducible apply keeps_mk

theorem keeps_takeWord {z s : State} {i b : Nat} {src : Producer} {w : MeshWord} (hz : Keeps z s) :
    KeepsOpt z (takeWord s i b src w) := by
  dsimp only [takeWord]
  repeat' first
    | with_reducible assumption
    | intro _
    | with_reducible apply keepsOpt_some
    | with_reducible exact keepsOpt_none
    | with_reducible apply keeps_offerWord
    | with_reducible apply keepsOpt_bind
    | (with_reducible refine of_opt ?_ (by assumption))
    | (with_reducible refine opt_eq ?_ (by assumption))
    | split

theorem keeps_poolWord {z s : State} {i b : Nat} {src : Producer} {w : MeshWord} (hz : Keeps z s) :
    KeepsOpt z (poolWord s i b src w) := by
  dsimp only [poolWord]
  repeat' first
    | with_reducible assumption
    | intro _
    | with_reducible apply keepsOpt_some
    | with_reducible exact keepsOpt_none
    | with_reducible apply keeps_takeWord
    | with_reducible apply keeps_modRing
    | (with_reducible refine of_opt ?_ (by assumption))
    | (with_reducible refine opt_eq ?_ (by assumption))
    | split
    | with_reducible apply keeps_mk

theorem keeps_offerPool {z : State} {s : State} {r : Nat} (hz : Keeps z s) : Keeps z (offerPool s r) := by
  unfold offerPool
  refine keeps_foldl_fst ?_ fun p x hp => ?_
  · dsimp only; exact keeps_modRing hz
  dsimp only
  split
  · exact hp
  split
  · dsimp only; exact keeps_modRing hp
  split
  · exact (keeps_takeWord hp).of _ (by assumption)
  · dsimp only; exact keeps_modRing hp

theorem keeps_wordDeflected {z s : State} {i : Nat} (hz : Keeps z s) :
    Keeps z (wordDeflected s i) := by
  dsimp only [wordDeflected]
  repeat' first
    | with_reducible assumption
    | intro _
    | with_reducible apply keeps_modRing
    | with_reducible apply keeps_modField
    | split
    | with_reducible apply keeps_mk

theorem keeps_sendOut {z s : State} {i b j : Nat} {o : Nat} {src : Producer} {cc : Nat} {path : List Side} {flips : BitVec 512} {crc : Option (Nat × Nat)} (hz : Keeps z s) :
    Keeps z (sendOut s i b j o src cc path flips crc) := by
  dsimp only [sendOut]
  repeat' first
    | with_reducible assumption
    | intro _
    | with_reducible apply keeps_trapTile
    | with_reducible apply keeps_poolWord
    | with_reducible apply keeps_takeWord
    | with_reducible apply keeps_wordDeflected
    | with_reducible apply keeps_crcFails
    | with_reducible apply keeps_drivePath
    | with_reducible apply keeps_modTile
    | with_reducible apply keepsOpt_some
    | with_reducible exact keepsOpt_none
    | with_reducible apply keepsOpt_bind
    | (with_reducible refine of_opt ?_ (by assumption))
    | split
    | with_reducible apply keeps_mk

theorem keeps_meshWord {z s : State} {i b : Nat} {src : Producer} {w : WordIn} (hz : Keeps z s) :
    Keeps z (meshWord s i b src w) := by
  dsimp only [meshWord]
  repeat' first
    | with_reducible assumption
    | intro _
    | with_reducible apply keeps_sendOut
    | with_reducible apply keeps_poolWord
    | with_reducible apply keeps_wordDeflected
    | with_reducible apply keepsOpt_some
    | with_reducible exact keepsOpt_none
    | with_reducible apply keeps_getD
    | with_reducible apply keepsOpt_bind
    | (with_reducible refine of_opt ?_ (by assumption))
    | split

theorem keeps_execMeshWord {z : State} {site : SiteId} {buf : BufId} {src : Producer} {w : WordIn} {s : State} (hz : Keeps z s) :
    KeepsNext z (execMeshWord site buf src w s) := by
  dsimp only [execMeshWord]
  repeat' first
    | with_reducible assumption
    | with_reducible apply keepsNext_next
    | with_reducible exact keepsNext_fault
    | with_reducible apply keeps_meshWord

theorem keeps_forward {z s : State} {i dest tok : Nat} {rs : List InRow} {spec : Option (Nat × Nat)} (hz : Keeps z s) :
    KeepsFwd z (forward s i dest tok rs spec) := by
  dsimp only [forward]
  repeat' first
    | with_reducible assumption
    | intro _
    | with_reducible apply keepsFwd_done
    | with_reducible exact keepsFwd_full
    | with_reducible exact keepsFwd_trap
    | with_reducible apply keeps_pushOut
    | with_reducible apply keeps_modTile
    | with_reducible apply keeps_writeRows
    | split
    | with_reducible apply keeps_mk

theorem keeps_forwardEntry {z s : State} {i : Nat} {e : MatchEntry} {tok : Nat} {rs : List InRow} (hz : Keeps z s) :
    Keeps z (forwardEntry s i e tok rs) := by
  dsimp only [forwardEntry]
  repeat' first
    | with_reducible assumption
    | intro _
    | with_reducible apply keeps_modTile
    | with_reducible apply keeps_forward
    | with_reducible apply keeps_trapTile
    | (with_reducible refine of_fwd ?_ (by assumption))
    | split
    | with_reducible apply keeps_mk

theorem keeps_addEntry {z s : State} {i : Nat} {e : MatchEntry} (hz : Keeps z s) :
    Keeps z (addEntry s i e).1 := by
  dsimp only [addEntry]
  repeat' first
    | with_reducible assumption
    | with_reducible apply keeps_pair
    | with_reducible apply keeps_setTile
    | split
    | with_reducible apply keeps_mk

theorem keeps_dropEntry {z s : State} {i : Nat} {e : MatchEntry} (hz : Keeps z s) :
    Keeps z (dropEntry s i e) := by
  dsimp only [dropEntry]
  repeat' first
    | with_reducible assumption
    | intro _
    | with_reducible apply keeps_modTile
    | with_reducible apply keeps_mk

theorem keeps_withdraw {z s : State} {i b rule : Nat} {seq total : Nat} (hz : Keeps z s) :
    Keeps z (withdraw s i b rule seq total).1 := by
  dsimp only [withdraw]
  repeat' first
    | with_reducible assumption
    | intro _
    | with_reducible apply keeps_pair
    | with_reducible apply keeps_setTile
    | split
    | with_reducible apply keeps_mk

theorem keeps_redirect {z s : State} {i d : Nat} {e : MatchEntry} {tok : Nat} {rs : List InRow} (hz : Keeps z s) :
    Keeps z (redirect s i d e tok rs) := by
  dsimp only [redirect]
  repeat' first
    | with_reducible assumption
    | intro _
    | with_reducible apply keeps_withdraw
    | with_reducible apply keeps_forwardEntry
    | with_reducible apply keeps_modTile
    | (with_reducible refine of_fst ?_ (by assumption))
    | split
    | with_reducible apply keeps_mk

theorem keeps_pushRest {z s : State} {i d : Nat} {e : MatchEntry} (hz : Keeps z s) :
    Keeps z (pushRest s i d e) := by
  dsimp only [pushRest]
  repeat' first
    | with_reducible assumption
    | intro _
    | with_reducible apply keeps_pushOut
    | with_reducible apply keeps_modTile
    | split
    | with_reducible apply keeps_mk

theorem keeps_tokenIn {z s : State} {i tok : Nat} (hz : Keeps z s) :
    Keeps z (tokenIn s i tok).1 := by
  dsimp only [tokenIn]
  repeat' first
    | with_reducible assumption
    | intro _
    | with_reducible apply keeps_pair
    | with_reducible apply keeps_modTile
    | with_reducible apply keeps_dropEntry
    | with_reducible apply keeps_redirect
    | with_reducible apply keeps_forwardEntry
    | with_reducible apply keeps_addEntry
    | (with_reducible refine of_fst ?_ (by assumption))
    | split
    | with_reducible apply keeps_mk

theorem keeps_packetIn {z s : State} {i rule : Nat} (hz : Keeps z s) :
    Keeps z (packetIn s i rule) := by
  dsimp only [packetIn]
  repeat' first
    | with_reducible assumption
    | intro _
    | with_reducible apply keeps_addEntry
    | with_reducible apply keeps_takeRows
    | with_reducible apply keeps_modTile
    | with_reducible apply keeps_forwardEntry
    | with_reducible apply keeps_dropEntry
    | with_reducible apply keeps_forward
    | with_reducible apply keeps_trapTile
    | with_reducible apply keepsOptFst_some
    | with_reducible exact keepsOptFst_none
    | (with_reducible refine of_fst ?_ (by assumption))
    | (with_reducible refine of_optFst ?_ (by assumption))
    | (with_reducible refine of_optPair ?_ (by assumption))
    | (with_reducible refine of_fwd ?_ (by assumption))
    | split
    | with_reducible apply keeps_mk

theorem keeps_tokenArrives {z s : State} {i tok : Nat} (hz : Keeps z s) :
    Keeps z (tokenArrives s i tok).1 := by
  dsimp only [tokenArrives]
  repeat' first
    | with_reducible assumption
    | with_reducible apply keeps_pair
    | with_reducible apply keeps_epochDiscard
    | with_reducible apply keeps_withdrawFrom
    | with_reducible apply keeps_tokenIn
    | with_reducible apply keepsOpt_some
    | with_reducible exact keepsOpt_none
    | with_reducible apply keeps_getD
    | (with_reducible refine of_fst ?_ (by assumption))
    | (with_reducible refine of_opt ?_ (by assumption))
    | split

theorem keeps_tokenWord {z : State} {s : State} {i : Nat} {b : Nat} {x3 : Nat} (hz : Keeps z s)  :
    Keeps z (tokenWord s i b x3) := by
  induction x3 generalizing s i b with
  | zero => dsimp only [tokenWord]; assumption
  | succ n ih =>
    dsimp only [tokenWord]
    repeat' first
      | with_reducible assumption
      | with_reducible apply ih
      | with_reducible apply keeps_tokenArrives
      | with_reducible apply keeps_noteRow
      | with_reducible apply keeps_failCheck
      | (with_reducible refine of_fst ?_ (by assumption))
      | split
      | with_reducible apply keeps_mk

theorem keeps_flushReady {z s : State} {i : Nat} (hz : Keeps z s) :
    Keeps z (flushReady s i) := by
  dsimp only [flushReady]
  repeat' first
    | with_reducible assumption
    | intro _
    | with_reducible apply keeps_redirect
    | with_reducible apply keeps_dropEntry
    | with_reducible apply keeps_pushRest
    | with_reducible apply keeps_forwardEntry
    | with_reducible apply keeps_getD
    | with_reducible apply keeps_foldl
    | split

theorem keeps_steerTile {z s : State} {i : Nat} {a : SteerArrival} (hz : Keeps z s) :
    Keeps z (steerTile s i a) := by
  dsimp only [steerTile]
  repeat' first
    | with_reducible assumption
    | with_reducible apply keeps_flushReady
    | with_reducible apply keeps_tokenWord
    | with_reducible apply keeps_packetIn
    | split

theorem keeps_steerCompare {z s₀ s : State} {i : Nat} (hz : Keeps z s₀) (hs : Keeps z s) :
    Keeps z (steerCompare s₀ s i) := by
  dsimp only [steerCompare]
  repeat' first
    | with_reducible assumption
    | intro _
    | with_reducible apply keeps_modTile
    | with_reducible apply keeps_writeRow
    | with_reducible apply keeps_mirrorFails
    | with_reducible apply keeps_foldl
    | split
    | with_reducible apply keeps_mk

theorem keeps_steerMatch {z s : State} {i : Nat} {a : SteerArrival} (hz : Keeps z s) :
    Keeps z (steerMatch s i a) := by
  dsimp only [steerMatch]
  repeat' first
    | with_reducible assumption
    | with_reducible apply keeps_steerCompare
    | with_reducible apply keeps_steerTile
    | split

theorem keeps_execSteerMatch {z : State} {site : SiteId} {a : SteerArrival} {s : State} (hz : Keeps z s) :
    KeepsNext z (execSteerMatch site a s) := by
  dsimp only [execSteerMatch]
  repeat' first
    | with_reducible assumption
    | with_reducible apply keepsNext_next
    | with_reducible exact keepsNext_fault
    | with_reducible apply keeps_steerMatch

end Sys2Proof.Laws
end

