-- ==== Sys2Proof/Laws/Tenancy.lean ====
section
/-! SUPPORT. What the operations of Machine/Tenancy.lean keep: queue, factory identity, canonical memories. -/

namespace Sys2Proof.Laws
open Sys2Proof Sys2Proof.Machine

theorem keeps_command {z s : State} {p : HPortId} {q : QId} {e : BitVec 512} {ok role : Bool} {go : State → Waiter → State} (hz : Keeps z s) (hgo : ∀ s y1, Keeps z s → Keeps z (go s y1)) :
    Keeps z (command s p q e ok role go) := by
  dsimp only [command]
  repeat' first
    | with_reducible assumption
    | intro _
    | with_reducible apply hgo
    | with_reducible apply keeps_fetch
    | with_reducible apply keeps_complete
    | split

theorem keeps_busy {z s : State} {w : Waiter} (hz : Keeps z s) :
    Keeps z (busy s w) := by
  dsimp only [busy]
  repeat' first
    | with_reducible assumption
    | with_reducible apply keeps_complete

theorem keeps_execTenCreate {z : State} {port : HPortId} {q : QId} {e : BitVec 512} {s : State} (hz : Keeps z s) :
    KeepsNext z (execTenCreate port q e s) := by
  dsimp only [execTenCreate]
  repeat' first
    | with_reducible assumption
    | intro _
    | with_reducible apply keepsNext_next
    | with_reducible exact keepsNext_fault
    | with_reducible apply keeps_command
    | with_reducible apply keeps_busy
    | with_reducible apply keeps_complete
    | with_reducible apply keeps_modTen
    | split
    | with_reducible apply keeps_mk

theorem keeps_execTenDestroy {z : State} {port : HPortId} {q : QId} {e : BitVec 512} {s : State} (hz : Keeps z s) :
    KeepsNext z (execTenDestroy port q e s) := by
  dsimp only [execTenDestroy]
  repeat' first
    | with_reducible assumption
    | intro _
    | with_reducible apply keepsNext_next
    | with_reducible exact keepsNext_fault
    | with_reducible apply keeps_command
    | with_reducible apply keeps_busy
    | with_reducible apply keeps_modTen
    | with_reducible apply keeps_endRun
    | with_reducible apply keeps_modRun
    | with_reducible apply keeps_destroyNow
    | split
    | with_reducible apply keeps_mk

theorem keeps_assignExclusive {z s : State} {w : Waiter} {n : Nat} {rs : List Nat} (hz : Keeps z s) :
    Keeps z (assignExclusive s w n rs) := by
  dsimp only [assignExclusive]
  repeat' first
    | with_reducible assumption
    | intro _
    | with_reducible apply keeps_busy
    | with_reducible apply keeps_modRing
    | with_reducible apply keeps_complete
    | with_reducible apply keeps_modTen
    | with_reducible apply keeps_foldl
    | split
    | with_reducible apply keeps_mk

theorem keeps_assignShared {z s : State} {w : Waiter} {n g near : Nat} {far : Nat} {rs : List Nat} (hz : Keeps z s) :
    Keeps z (assignShared s w n g near far rs) := by
  dsimp only [assignShared]
  repeat' first
    | with_reducible assumption
    | intro _
    | with_reducible apply keeps_busy
    | with_reducible apply keeps_modRing
    | with_reducible apply keeps_complete
    | with_reducible apply keeps_modTen
    | with_reducible apply keeps_foldl
    | split
    | with_reducible apply keeps_mk

theorem keeps_execRingAssign {z : State} {port : HPortId} {q : QId} {e : BitVec 512} {s : State} (hz : Keeps z s) :
    KeepsNext z (execRingAssign port q e s) := by
  dsimp only [execRingAssign]
  repeat' first
    | with_reducible assumption
    | intro _
    | with_reducible apply keepsNext_next
    | with_reducible exact keepsNext_fault
    | with_reducible apply keeps_command
    | with_reducible apply keeps_busy
    | with_reducible apply keeps_assignShared
    | with_reducible apply keeps_assignExclusive
    | split

theorem keeps_execRingRelease {z : State} {port : HPortId} {q : QId} {e : BitVec 512} {s : State} (hz : Keeps z s) :
    KeepsNext z (execRingRelease port q e s) := by
  dsimp only [execRingRelease]
  repeat' first
    | with_reducible assumption
    | intro _
    | with_reducible apply keepsNext_next
    | with_reducible exact keepsNext_fault
    | with_reducible apply keeps_command
    | with_reducible apply keeps_busy
    | with_reducible apply keeps_beginClear
    | with_reducible apply keeps_modTen
    | split
    | with_reducible apply keeps_mk

theorem keeps_execSliceSet {z : State} {port : HPortId} {q : QId} {e : BitVec 512} {s : State} (hz : Keeps z s) :
    KeepsNext z (execSliceSet port q e s) := by
  dsimp only [execSliceSet]
  repeat' first
    | with_reducible assumption
    | intro _
    | with_reducible apply keepsNext_next
    | with_reducible exact keepsNext_fault
    | with_reducible apply keeps_command
    | with_reducible apply keeps_busy
    | with_reducible apply keeps_complete
    | with_reducible apply keeps_modTen
    | split
    | with_reducible apply keeps_mk

theorem keeps_execSwitch {z : State} {port : HPortId} {q : QId} {e : BitVec 512} {s : State} (hz : Keeps z s) :
    KeepsNext z (execSwitch port q e s) := by
  dsimp only [execSwitch]
  repeat' first
    | with_reducible assumption
    | intro _
    | with_reducible apply keepsNext_next
    | with_reducible exact keepsNext_fault
    | with_reducible apply keeps_command
    | with_reducible apply keeps_busy
    | with_reducible apply keeps_modTen
    | split
    | with_reducible apply keeps_mk

theorem keeps_execTimeSliceQuantum {z : State} {group : Fin 4} {s : State} (hz : Keeps z s) :
    KeepsNext z (execTimeSliceQuantum group s) := by
  dsimp only [execTimeSliceQuantum]
  repeat' first
    | with_reducible assumption
    | intro _
    | with_reducible apply keepsNext_next
    | with_reducible exact keepsNext_fault
    | with_reducible apply keeps_modTen
    | split
    | with_reducible apply keeps_mk

theorem keeps_execWinOpen {z : State} {port : HPortId} {q : QId} {e : BitVec 512} {s : State} (hz : Keeps z s) :
    KeepsNext z (execWinOpen port q e s) := by
  dsimp only [execWinOpen]
  repeat' first
    | with_reducible assumption
    | intro _
    | with_reducible apply keepsNext_next
    | with_reducible exact keepsNext_fault
    | with_reducible apply keeps_command
    | with_reducible apply keeps_busy
    | with_reducible apply keeps_complete
    | with_reducible apply keeps_modTen
    | split
    | with_reducible apply keeps_mk

theorem keeps_execWinClose {z : State} {port : HPortId} {q : QId} {e : BitVec 512} {s : State} (hz : Keeps z s) :
    KeepsNext z (execWinClose port q e s) := by
  dsimp only [execWinClose]
  repeat' first
    | with_reducible assumption
    | intro _
    | with_reducible apply keepsNext_next
    | with_reducible exact keepsNext_fault
    | with_reducible apply keeps_command
    | with_reducible apply keeps_complete
    | with_reducible apply keeps_modTen
    | split

theorem keeps_execLoad {z : State} {port : HPortId} {q : QId} {e : BitVec 512} {s : State} (hz : Keeps z s) :
    KeepsNext z (execLoad port q e s) := by
  dsimp only [execLoad]
  repeat' first
    | with_reducible assumption
    | intro _
    | with_reducible apply keepsNext_next
    | with_reducible exact keepsNext_fault
    | with_reducible apply keeps_command
    | with_reducible apply keeps_busy
    | with_reducible apply keeps_complete
    | with_reducible apply keeps_beginBinding
    | with_reducible apply keeps_modTen
    | split
    | with_reducible apply keeps_mk

theorem keeps_clearTags {z s : State} {n : Nat} (hz : Keeps z s) :
    Keeps z (clearTags s n) := by
  dsimp only [clearTags]
  repeat' first
    | with_reducible assumption
    | intro _
    | with_reducible apply keeps_modField
    | with_reducible apply keeps_modStack
    | with_reducible apply keeps_foldl
    | with_reducible apply keeps_mk

theorem keeps_execBindingComplete {z : State} {ten : TenId} {s : State} (hz : Keeps z s) :
    KeepsNext z (execBindingComplete ten s) := by
  dsimp only [execBindingComplete]
  repeat' first
    | with_reducible assumption
    | intro _
    | with_reducible apply keepsNext_next
    | with_reducible exact keepsNext_fault
    | with_reducible apply keeps_endBinding
    | with_reducible apply keeps_modTen
    | with_reducible apply keeps_completeOpt
    | with_reducible apply keeps_clearTags
    | split
    | with_reducible apply keeps_mk

theorem keeps_execRun {z : State} {port : HPortId} {q : QId} {e : BitVec 512} {s : State} (hz : Keeps z s) :
    KeepsNext z (execRun port q e s) := by
  dsimp only [execRun]
  repeat' first
    | with_reducible assumption
    | intro _
    | with_reducible apply keepsNext_next
    | with_reducible exact keepsNext_fault
    | with_reducible apply keeps_command
    | with_reducible apply keeps_busy
    | with_reducible apply keeps_complete
    | with_reducible apply keeps_modTen
    | split
    | with_reducible apply keeps_mk

theorem keeps_execStop {z : State} {port : HPortId} {q : QId} {e : BitVec 512} {s : State} (hz : Keeps z s) :
    KeepsNext z (execStop port q e s) := by
  dsimp only [execStop]
  repeat' first
    | with_reducible assumption
    | intro _
    | with_reducible apply keepsNext_next
    | with_reducible exact keepsNext_fault
    | with_reducible apply keeps_command
    | with_reducible apply keeps_busy
    | with_reducible apply keeps_modRun
    | with_reducible apply keeps_endRun
    | split
    | with_reducible apply keeps_mk

theorem keeps_execUnload {z : State} {port : HPortId} {q : QId} {e : BitVec 512} {s : State} (hz : Keeps z s) :
    KeepsNext z (execUnload port q e s) := by
  dsimp only [execUnload]
  repeat' first
    | with_reducible assumption
    | intro _
    | with_reducible apply keepsNext_next
    | with_reducible exact keepsNext_fault
    | with_reducible apply keeps_command
    | with_reducible apply keeps_busy
    | with_reducible apply keeps_complete
    | with_reducible apply keeps_modTen
    | split
    | with_reducible apply keeps_mk

theorem keeps_serveDma {z s : State} {n : Nat} {r : HostRead} (hz : Keeps z s) :
    Keeps z (serveDma s n r).1 := by
  dsimp only [serveDma]
  repeat' first
    | with_reducible assumption
    | intro _
    | with_reducible apply keeps_pair
    | with_reducible apply keeps_complete
    | with_reducible apply keeps_countNack
    | with_reducible apply keeps_winWrite
    | with_reducible apply keeps_noteRange
    | with_reducible apply keeps_hostWrite
    | split

theorem keeps_startDma {z s : State} {n : Nat} {r : HostRead} (hz : Keeps z s) :
    Keeps z (startDma s n r) := by
  dsimp only [startDma]
  repeat' first
    | with_reducible assumption
    | intro _
    | with_reducible apply keeps_modTen
    | with_reducible apply keeps_serveDma
    | (with_reducible refine of_fst ?_ (by assumption))
    | split
    | with_reducible apply keeps_mk

theorem keeps_execDmaWr {z : State} {port : HPortId} {q : QId} {e : BitVec 512} {data : List Byte} {s : State} (hz : Keeps z s) :
    KeepsNext z (execDmaWr port q e data s) := by
  dsimp only [execDmaWr]
  repeat' first
    | with_reducible assumption
    | intro _
    | with_reducible apply keepsNext_next
    | with_reducible exact keepsNext_fault
    | with_reducible apply keeps_command
    | with_reducible apply keeps_complete
    | with_reducible apply keeps_startDma
    | split

theorem keeps_execDmaRd {z : State} {port : HPortId} {q : QId} {e : BitVec 512} {s : State} (hz : Keeps z s) :
    KeepsNext z (execDmaRd port q e s) := by
  dsimp only [execDmaRd]
  repeat' first
    | with_reducible assumption
    | intro _
    | with_reducible apply keepsNext_next
    | with_reducible exact keepsNext_fault
    | with_reducible apply keeps_command
    | with_reducible apply keeps_complete
    | with_reducible apply keeps_startDma
    | split

theorem keeps_serveReads {z s : State} {n : Nat} (hz : Keeps z s) :
    Keeps z (serveReads s n) := by
  dsimp only [serveReads]
  repeat' first
    | with_reducible assumption
    | intro _
    | with_reducible apply keeps_startDma
    | with_reducible apply keeps_modTen
    | with_reducible apply keeps_foldl
    | with_reducible apply keeps_mk

end Sys2Proof.Laws
end

