-- ==== Sys2Proof/Laws/Beat.lean ====
section
/-! SUPPORT. What the operations of Machine/Beat.lean keep: queue, factory identity, canonical memories. -/

namespace Sys2Proof.Laws
open Sys2Proof Sys2Proof.Machine

theorem keeps_firstOverrun {z s : State} {n : Nat} (hz : Keeps z s) :
    Keeps z (firstOverrun s n) := by
  dsimp only [firstOverrun]
  repeat' first
    | with_reducible assumption
    | intro _
    | with_reducible apply keeps_modRun
    | with_reducible apply keeps_modClause
    | with_reducible apply keeps_evRing
    | with_reducible apply keeps_mk

theorem keeps_enterHang {z s : State} {n : Nat} (hz : Keeps z s) :
    Keeps z (enterHang s n) := by
  dsimp only [enterHang]
  repeat' first
    | with_reducible assumption
    | intro _
    | with_reducible apply keeps_setPhase
    | with_reducible apply keeps_modClause
    | with_reducible apply keeps_mk

theorem keeps_overrunTick {z s : State} {n : Nat} {u : Run} (hz : Keeps z s) :
    Keeps z (overrunTick s n u) := by
  dsimp only [overrunTick]
  repeat' first
    | with_reducible assumption
    | with_reducible apply keeps_modClause
    | with_reducible apply keeps_enterHang
    | with_reducible apply keeps_firstOverrun
    | split

theorem keeps_checkKept {z s : State} {n : Nat} (hz : Keeps z s) :
    Keeps z (checkKept s n) := by
  dsimp only [checkKept]
  repeat' first
    | with_reducible assumption
    | intro _
    | with_reducible apply keeps_trapTile
    | with_reducible apply keeps_foldl
    | split

theorem keeps_nextBeat {z s : State} {n : Nat} (hz : Keeps z s) :
    Keeps z (nextBeat s n) := by
  dsimp only [nextBeat]
  repeat' first
    | with_reducible assumption
    | intro _
    | with_reducible apply keeps_modRun
    | with_reducible apply keeps_mirrorCarry
    | with_reducible apply keeps_startReplay
    | with_reducible apply keeps_startDrain
    | with_reducible apply keeps_workOrHold
    | with_reducible apply keepsOpt_some
    | with_reducible exact keepsOpt_none
    | with_reducible apply keeps_getD
    | (with_reducible refine of_opt ?_ (by assumption))
    | split
    | with_reducible apply keeps_mk

theorem keeps_passBeat {z s : State} {n : Nat} (hz : Keeps z s) :
    Keeps z (passBeat s n) := by
  dsimp only [passBeat]
  repeat' first
    | with_reducible assumption
    | intro _
    | with_reducible apply keeps_modClause
    | with_reducible apply keeps_modTen
    | with_reducible apply keeps_modRun
    | with_reducible apply keeps_nextBeat
    | split
    | with_reducible apply keeps_mk

theorem keeps_oneUp {z s : State} {n r level : Nat} {u : Run} (hz : Keeps z s) :
    Keeps z (oneUp s n r level u) := by
  dsimp only [oneUp]
  repeat' first
    | with_reducible assumption
    | intro _
    | with_reducible apply keeps_noteReal
    | with_reducible apply keeps_rewindBeat
    | with_reducible apply keeps_excludeDue
    | with_reducible apply keeps_enterEngine
    | with_reducible apply keeps_modRun
    | with_reducible apply keeps_leaveRing
    | with_reducible apply keeps_startReset
    | with_reducible apply keeps_foldl
    | split
    | with_reducible apply keeps_mk

theorem keeps_workTick {z s : State} {n : Nat} (hz : Keeps z s) :
    Keeps z (workTick s n) := by
  dsimp only [workTick]
  repeat' first
    | with_reducible assumption
    | intro _
    | with_reducible apply keeps_checkKept
    | with_reducible apply keeps_checkCarry
    | with_reducible apply keeps_lateFail
    | with_reducible apply keeps_modRun
    | with_reducible apply keeps_commitPending
    | with_reducible apply keeps_oneUp
    | with_reducible apply keeps_noteFail
    | with_reducible apply keeps_failBeat
    | with_reducible apply keeps_overrunTick
    | with_reducible apply keeps_passBeat
    | split
    | with_reducible apply keeps_mk

theorem keeps_countLate {z s : State} {n : Nat} (hz : Keeps z s) :
    Keeps z (countLate s n) := by
  dsimp only [countLate]
  repeat' first
    | with_reducible assumption
    | intro _
    | with_reducible apply keeps_partitionFails
    | with_reducible apply keeps_modRun
    | with_reducible apply keeps_mk

theorem keeps_rebindEnd {z s : State} {n : Nat} {u : Run} (hz : Keeps z s) :
    Keeps z (rebindEnd s n u) := by
  dsimp only [rebindEnd]
  repeat' first
    | with_reducible assumption
    | intro _
    | with_reducible apply keeps_engineFails
    | with_reducible apply keeps_finishPly
    | with_reducible apply keeps_modRun
    | with_reducible apply keeps_countLate
    | with_reducible apply keeps_beginLoad
    | with_reducible apply keeps_resumeRun
    | with_reducible apply keeps_firstCopies
    | with_reducible apply keeps_foldl
    | split
    | with_reducible apply keeps_mk

theorem keeps_rebindTick {z s : State} {n left : Nat} (hz : Keeps z s) :
    Keeps z (rebindTick s n left) := by
  dsimp only [rebindTick]
  repeat' first
    | with_reducible assumption
    | intro _
    | with_reducible apply keeps_abortWritten
    | with_reducible apply keeps_oneUp
    | with_reducible apply keeps_setPhase
    | with_reducible apply keeps_rebindEnd
    | split

theorem keeps_takeoverTick {z s : State} {n : Nat} {u : Run} (hz : Keeps z s) :
    Keeps z (takeoverTick s n u) := by
  dsimp only [takeoverTick]
  repeat' first
    | with_reducible assumption
    | intro _
    | with_reducible apply keeps_abortWritten
    | with_reducible apply keeps_oneUp
    | with_reducible apply keeps_modRun
    | with_reducible apply keeps_countLate
    | split
    | with_reducible apply keeps_mk

theorem keeps_overdueTick {z s : State} (hz : Keeps z s) :
    Keeps z (overdueTick s) := by
  dsimp only [overdueTick]
  repeat' first
    | with_reducible assumption
    | intro _
    | with_reducible apply keeps_startReset
    | with_reducible apply keeps_evModule
    | split

theorem keeps_clauseTick {z s : State} {n : Nat} (hz : Keeps z s) :
    Keeps z (clauseTick s n) := by
  dsimp only [clauseTick]
  repeat' first
    | with_reducible assumption
    | with_reducible apply keeps_excludeLate
    | with_reducible apply keeps_releaseCopies
    | with_reducible apply keeps_beginTakeover
    | with_reducible apply keeps_endRun
    | with_reducible apply keeps_beginLoad
    | with_reducible apply keeps_loadTick
    | with_reducible apply keeps_workTick
    | with_reducible apply keeps_drainTick
    | with_reducible apply keeps_guardTick
    | with_reducible apply keeps_waitTick
    | with_reducible apply keeps_swapTick
    | with_reducible apply keeps_rebindTick
    | with_reducible apply keeps_takeoverTick
    | split

theorem keeps_heartTick {z s : State} (hz : Keeps z s) :
    Keeps z (heartTick s) := by
  dsimp only [heartTick]
  repeat' first
    | with_reducible assumption
    | intro _
    | with_reducible apply keeps_foldl
    | split
    | with_reducible apply keeps_mk

theorem keeps_ringTick {z s : State} (hz : Keeps z s) :
    Keeps z (ringTick s) := by
  dsimp only [ringTick]
  repeat' first
    | with_reducible assumption
    | intro _
    | with_reducible apply keeps_modRing
    | with_reducible apply keeps_foldl
    | with_reducible apply keeps_mk

theorem keeps_beatRecords {z s : State} (hz : Keeps z s) :
    Keeps z (beatRecords s) := by
  dsimp only [beatRecords]
  repeat' first
    | with_reducible assumption
    | intro _
    | with_reducible apply keeps_modTile
    | with_reducible apply keeps_evTile
    | with_reducible apply keeps_evField
    | with_reducible apply keeps_modField
    | with_reducible apply keeps_foldl
    | split
    | with_reducible apply keeps_mk

theorem keeps_clockTick {z s : State} (hz : Keeps z s) :
    Keeps z (clockTick s) := by
  dsimp only [clockTick]
  repeat' first
    | with_reducible assumption
    | intro _
    | with_reducible apply keeps_modPwr
    | split
    | with_reducible apply keeps_mk

theorem keeps_energyTick {z s : State} (hz : Keeps z s) :
    Keeps z (energyTick s) := by
  dsimp only [energyTick]
  repeat' first
    | with_reducible assumption
    | intro _
    | with_reducible apply keeps_modPwr
    | with_reducible apply keeps_modTen
    | with_reducible apply keeps_foldl
    | split
    | with_reducible apply keeps_mk

theorem keeps_timeTick {z s : State} (hz : Keeps z s) :
    Keeps z (timeTick s) := by
  dsimp only [timeTick]
  repeat' first
    | with_reducible assumption
    | with_reducible apply keeps_mk

theorem keeps_stallTick {z s : State} (hz : Keeps z s) :
    Keeps z (stallTick s) := by
  dsimp only [stallTick]
  repeat' first
    | with_reducible assumption
    | intro _
    | with_reducible apply keeps_modTile
    | with_reducible apply keeps_modBox
    | with_reducible apply keeps_foldl
    | split
    | with_reducible apply keeps_mk

theorem keeps_holdTick {z s : State} (hz : Keeps z s) :
    Keeps z (holdTick s) := by
  dsimp only [holdTick]
  repeat' first
    | with_reducible assumption
    | intro _
    | with_reducible apply keeps_modBox
    | split
    | with_reducible apply keeps_mk

theorem keeps_heartbeats {z s : State} (hz : Keeps z s) :
    Keeps z (heartbeats s) := by
  dsimp only [heartbeats]
  repeat' first
    | with_reducible assumption
    | intro _
    | with_reducible apply keeps_sendHeartbeat
    | with_reducible apply keeps_foldl
    | split

theorem keeps_healthExchange {z s : State} (hz : Keeps z s) :
    Keeps z (healthExchange s) := by
  dsimp only [healthExchange]
  repeat' first
    | with_reducible assumption
    | intro _
    | with_reducible apply keeps_sendCtl
    | with_reducible apply keeps_foldl
    | split

theorem keeps_serveQueues {z s : State} (hz : Keeps z s) :
    Keeps z (serveQueues s) := by
  dsimp only [serveQueues]
  repeat' first
    | with_reducible assumption
    | intro _
    | with_reducible apply keeps_setQueue
    | with_reducible apply keeps_foldl
    | split

theorem keeps_beatLimits {z s : State} (hz : Keeps z s) :
    Keeps z (beatLimits s) := by
  dsimp only [beatLimits]
  repeat' first
    | with_reducible assumption
    | intro _
    | with_reducible apply keeps_modTile
    | with_reducible apply keeps_foldl
    | split
    | with_reducible apply keeps_mk

theorem keeps_fieldsTick {z s : State} (hz : Keeps z s) :
    Keeps z (fieldsTick s) := by
  dsimp only [fieldsTick]
  repeat' first
    | with_reducible assumption
    | intro _
    | with_reducible apply keeps_retireField
    | with_reducible apply keeps_foldl
    | split

theorem keeps_clearRaised {z s : State} (hz : Keeps z s) :
    Keeps z (clearRaised s) := by
  dsimp only [clearRaised]
  repeat' first
    | with_reducible assumption
    | intro _
    | with_reducible apply keeps_modPly
    | with_reducible apply keeps_foldl
    | split
    | with_reducible apply keeps_mk

theorem keeps_readyTick {z s : State} (hz : Keeps z s) :
    Keeps z (readyTick s) := by
  dsimp only [readyTick]
  repeat' first
    | with_reducible assumption
    | intro _
    | with_reducible apply keeps_heartTick
    | with_reducible apply keeps_energyTick
    | with_reducible apply keeps_overdueTick
    | with_reducible apply keeps_clauseTick
    | with_reducible apply keeps_switchIdle
    | with_reducible apply keeps_fieldsTick
    | with_reducible apply keeps_rehearsalTick
    | with_reducible apply keeps_stallTick
    | with_reducible apply keeps_holdTick
    | with_reducible apply keeps_tsvTick
    | with_reducible apply keeps_lanesTick
    | with_reducible apply keeps_timeTick
    | with_reducible apply keeps_clockTick
    | with_reducible apply keeps_clearRaised
    | with_reducible apply keeps_beatRecords
    | with_reducible apply keeps_ringTick
    | with_reducible apply keeps_beatLimits
    | with_reducible apply keeps_healthExchange
    | with_reducible apply keeps_heartbeats
    | with_reducible apply keeps_serveQueues
    | with_reducible apply keeps_offerPool
    | with_reducible apply keeps_serveReads
    | with_reducible apply keeps_pumpPort
    | with_reducible apply keeps_deliverHeld
    | with_reducible apply keeps_foldl
    | split

theorem keeps_heldTick {z s : State} (hz : Keeps z s) :
    Keeps z (heldTick s) := by
  dsimp only [heldTick]
  repeat' first
    | with_reducible assumption
    | intro _
    | with_reducible apply keeps_timeTick
    | with_reducible apply keeps_idleTiles
    | with_reducible apply keeps_setPhase
    | with_reducible apply keeps_energyTick
    | with_reducible apply keeps_foldl

theorem keeps_tick {z s : State} {rep : TickReport} (hz : Keeps z s) :
    Keeps z (tick s rep) := by
  dsimp only [tick]
  repeat' first
    | with_reducible assumption
    | with_reducible apply keeps_timeTick
    | with_reducible apply keeps_computeStop
    | with_reducible apply keeps_energyTick
    | with_reducible apply keeps_readyTick
    | with_reducible apply keeps_computeFinish
    | with_reducible apply keeps_heldTick
    | split

theorem keeps_execBeatTick {z : State} {rep : TickReport} {s : State} (hz : Keeps z s) :
    KeepsNext z (execBeatTick rep s) := by
  dsimp only [execBeatTick]
  repeat' first
    | with_reducible assumption
    | with_reducible apply keepsNext_next
    | with_reducible exact keepsNext_fault
    | with_reducible apply keeps_tick

theorem keeps_execStagingComplete {z : State} {ten : TenId} {s : State} (hz : Keeps z s) :
    KeepsNext z (execStagingComplete ten s) := by
  dsimp only [execStagingComplete]
  repeat' first
    | with_reducible assumption
    | intro _
    | with_reducible apply keepsNext_next
    | with_reducible exact keepsNext_fault
    | with_reducible apply keeps_modRun
    | with_reducible apply keeps_stageArea
    | split
    | with_reducible apply keeps_mk

theorem keeps_execStageStall {z : State} {ten : TenId} {s : State} (hz : Keeps z s) :
    KeepsNext z (execStageStall ten s) := by
  dsimp only [execStageStall]
  repeat' first
    | with_reducible assumption
    | with_reducible apply keepsNext_next
    | with_reducible exact keepsNext_fault
    | with_reducible apply keeps_abortRun
    | split

theorem keeps_keepHang {z s : State} {n cls : Nat} {ws : List WaitRec} {first : Nat → Bool} (hz : Keeps z s) :
    Keeps z (keepHang s n cls ws first) := by
  dsimp only [keepHang]
  repeat' first
    | with_reducible assumption
    | intro _
    | with_reducible apply keeps_modBox
    | with_reducible apply keeps_mk

theorem keeps_hangFails {z s : State} {n : Nat} {sinks : List Nat} {cycle : List Nat} (hz : Keeps z s) :
    Keeps z (hangFails s n sinks cycle) := by
  dsimp only [hangFails]
  repeat' first
    | with_reducible assumption
    | intro _
    | with_reducible apply keeps_modClause
    | with_reducible apply keeps_failBeat
    | with_reducible apply keeps_modRun
    | with_reducible apply keeps_foldl
    | with_reducible apply keeps_mk

theorem keeps_hangVerdict {z s : State} {n : Nat} {u : Run} (hz : Keeps z s) :
    Keeps z (hangVerdict s n u) := by
  dsimp only [hangVerdict]
  repeat' first
    | with_reducible assumption
    | intro _
    | with_reducible apply keeps_keepHang
    | with_reducible apply keeps_abortRun
    | with_reducible apply keeps_hangFails
    | with_reducible apply keeps_modClause
    | with_reducible apply keeps_modRun
    | with_reducible apply keeps_evRing
    | with_reducible apply keeps_foldl
    | split
    | with_reducible apply keeps_mk

theorem keeps_execHangVerdict {z : State} {ten : TenId} {s : State} (hz : Keeps z s) :
    KeepsNext z (execHangVerdict ten s) := by
  dsimp only [execHangVerdict]
  repeat' first
    | with_reducible assumption
    | with_reducible apply keepsNext_next
    | with_reducible exact keepsNext_fault
    | with_reducible apply keeps_hangVerdict
    | split

theorem keeps_execExtStall {z : State} {ten : TenId} {s : State} (hz : Keeps z s) :
    KeepsNext z (execExtStall ten s) := by
  dsimp only [execExtStall]
  repeat' first
    | with_reducible assumption
    | with_reducible apply keepsNext_next
    | with_reducible exact keepsNext_fault
    | with_reducible apply keeps_abortRun
    | split

end Sys2Proof.Laws
end

