-- ==== Sys2Proof/Laws/Dict.lean ====
section
/-! SUPPORT. What the operations of Machine/Dict.lean keep: queue, factory identity, canonical memories. -/

namespace Sys2Proof.Laws
open Sys2Proof Sys2Proof.Machine

theorem keeps_modPath {z s : State} {p : Path} {f : PathSt → PathSt} (hz : Keeps z s) :
    Keeps z (modPath s p f) := by
  dsimp only [modPath]
  repeat' first
    | with_reducible assumption
    | intro _
    | with_reducible apply keeps_modHport
    | with_reducible apply keeps_modCan
    | split
    | with_reducible apply keeps_mk

theorem keeps_setSettings {z s : State} {f : Settings → Settings} (hz : Keeps z s) :
    Keeps z (setSettings s f) := by
  dsimp only [setSettings]
  repeat' first
    | with_reducible assumption
    | intro _
    | with_reducible apply keeps_modBox
    | with_reducible apply keeps_mk

theorem keeps_ranged {z : State} {ok : Bool} {s : State} (hz : Keeps z s) :
    KeepsExcept z (ranged ok s) := by
  dsimp only [ranged]
  repeat' first
    | with_reducible assumption
    | with_reducible apply keepsExcept_ok
    | with_reducible exact keepsExcept_error
    | (with_reducible refine except_eq ?_ (by assumption))
    | split

theorem keeps_rangedIdle {z : State} {ok idle : Bool} {s : State} (hz : Keeps z s) :
    KeepsExcept z (rangedIdle ok idle s) := by
  dsimp only [rangedIdle]
  repeat' first
    | with_reducible assumption
    | with_reducible apply keepsExcept_ok
    | with_reducible exact keepsExcept_error
    | (with_reducible refine except_eq ?_ (by assumption))
    | split

theorem keeps_fwWrite {z s : State} {path : Path} {off : Nat} {bs : List Byte} (hz : Keeps z s) :
    KeepsExcept z (fwWrite s path off bs) := by
  dsimp only [fwWrite]
  repeat' first
    | with_reducible assumption
    | intro _
    | with_reducible apply keepsExcept_ok
    | with_reducible exact keepsExcept_error
    | with_reducible apply keeps_modCan
    | with_reducible apply keeps_modBox
    | (with_reducible refine except_eq ?_ (by assumption))
    | split
    | with_reducible apply keeps_mk

theorem keeps_fwControl {z s : State} {v : Nat} (hz : Keeps z s) :
    KeepsExcept z (fwControl s v) := by
  dsimp only [fwControl]
  repeat' first
    | with_reducible assumption
    | intro _
    | with_reducible apply keepsExcept_ok
    | with_reducible exact keepsExcept_error
    | with_reducible apply keeps_boxRestart
    | with_reducible apply keeps_modBox
    | (with_reducible refine except_eq ?_ (by assumption))
    | split
    | with_reducible apply keeps_mk

theorem keeps_commWrite {z s : State} {path : Path} {i v off : Nat} {bs : List Byte} (hz : Keeps z s) :
    KeepsExcept z (commWrite s path i v off bs) := by
  dsimp only [commWrite]
  repeat' first
    | with_reducible assumption
    | intro _
    | with_reducible apply keepsExcept_ok
    | with_reducible exact keepsExcept_error
    | with_reducible apply keeps_modBox
    | with_reducible apply keeps_ranged
    | with_reducible apply keeps_setSettings
    | with_reducible apply keeps_fwWrite
    | with_reducible apply keeps_fwControl
    | (with_reducible refine of_except ?_ (by assumption))
    | (with_reducible refine except_eq ?_ (by assumption))
    | split
    | with_reducible apply keeps_mk

theorem keeps_setReserve {z s : State} {v : Nat} (hz : Keeps z s) :
    Keeps z (setReserve s v) := by
  dsimp only [setReserve]
  repeat' first
    | with_reducible assumption
    | intro _
    | with_reducible apply keeps_topUp
    | with_reducible apply keeps_modRing
    | with_reducible apply keeps_setSettings
    | with_reducible apply keeps_foldl
    | split
    | with_reducible apply keeps_mk

theorem keeps_ringWrite {z s : State} {r v : Nat} (hz : Keeps z s) :
    KeepsExcept z (ringWrite s r v) := by
  dsimp only [ringWrite]
  repeat' first
    | with_reducible assumption
    | intro _
    | with_reducible apply keepsExcept_ok
    | with_reducible exact keepsExcept_error
    | with_reducible apply keeps_modRing
    | (with_reducible refine except_eq ?_ (by assumption))
    | split
    | with_reducible apply keeps_mk

theorem keeps_moduleWrite {z s : State} {path : Path} {i sub v : Nat} (hz : Keeps z s) :
    KeepsExcept z (moduleWrite s path i sub v) := by
  dsimp only [moduleWrite]
  repeat' first
    | with_reducible assumption
    | intro _
    | with_reducible apply keepsExcept_ok
    | with_reducible exact keepsExcept_error
    | with_reducible apply keeps_ranged
    | with_reducible apply keeps_modPath
    | with_reducible apply keeps_rangedIdle
    | with_reducible apply keeps_setSettings
    | with_reducible apply keeps_setReserve
    | with_reducible apply keeps_modBox
    | with_reducible apply keeps_ringWrite
    | (with_reducible refine of_except ?_ (by assumption))
    | (with_reducible refine except_eq ?_ (by assumption))
    | split
    | with_reducible apply keeps_mk

theorem keeps_powerWrite {z s : State} {i v : Nat} (hz : Keeps z s) :
    KeepsExcept z (powerWrite s i v) := by
  dsimp only [powerWrite]
  repeat' first
    | with_reducible assumption
    | intro _
    | with_reducible apply keepsExcept_ok
    | with_reducible exact keepsExcept_error
    | with_reducible apply keeps_ranged
    | with_reducible apply keeps_modPwr
    | with_reducible apply keeps_setSettings
    | (with_reducible refine of_except ?_ (by assumption))
    | (with_reducible refine except_eq ?_ (by assumption))
    | split
    | with_reducible apply keeps_mk

theorem keeps_auditWrite {z s : State} {i sub v : Nat} (hz : Keeps z s) :
    KeepsExcept z (auditWrite s i sub v) := by
  dsimp only [auditWrite]
  repeat' first
    | with_reducible assumption
    | intro _
    | with_reducible apply keepsExcept_ok
    | with_reducible exact keepsExcept_error
    | with_reducible apply keeps_ranged
    | with_reducible apply keeps_modTen
    | with_reducible apply keeps_setSettings
    | (with_reducible refine of_except ?_ (by assumption))
    | (with_reducible refine except_eq ?_ (by assumption))
    | split
    | with_reducible apply keeps_mk

theorem keeps_revertWrite {z s : State} {v : Nat} (hz : Keeps z s) :
    KeepsExcept z (revertWrite s v) := by
  dsimp only [revertWrite]
  repeat' first
    | with_reducible assumption
    | with_reducible apply keepsExcept_ok
    | with_reducible exact keepsExcept_error
    | with_reducible apply keeps_mapAppend
    | (with_reducible refine except_eq ?_ (by assumption))
    | split

theorem keeps_armWrite {z s : State} {v : Nat} (hz : Keeps z s) :
    KeepsExcept z (armWrite s v) := by
  dsimp only [armWrite]
  repeat' first
    | with_reducible assumption
    | intro _
    | with_reducible apply keepsExcept_ok
    | with_reducible exact keepsExcept_error
    | with_reducible apply keeps_modBox
    | (with_reducible refine except_eq ?_ (by assumption))
    | split
    | with_reducible apply keeps_mk

theorem keeps_unpinWrite {z s : State} {v : Nat} (hz : Keeps z s) :
    Keeps z (unpinWrite s v) := by
  dsimp only [unpinWrite]
  repeat' first
    | with_reducible assumption
    | intro _
    | with_reducible apply keeps_modBox
    | split
    | with_reducible apply keeps_mk

theorem keeps_healthWrite {z s : State} {path : Path} {i sub v : Nat} (hz : Keeps z s) :
    KeepsExcept z (healthWrite s path i sub v) := by
  dsimp only [healthWrite]
  repeat' first
    | with_reducible assumption
    | intro _
    | with_reducible apply keepsExcept_ok
    | with_reducible exact keepsExcept_error
    | with_reducible apply keeps_modBox
    | with_reducible apply keeps_ranged
    | with_reducible apply keeps_modPath
    | with_reducible apply keeps_unpinWrite
    | with_reducible apply keeps_setSettings
    | with_reducible apply keeps_startReset
    | with_reducible apply keeps_revertWrite
    | with_reducible apply keeps_armWrite
    | (with_reducible refine of_except ?_ (by assumption))
    | (with_reducible refine except_eq ?_ (by assumption))
    | split
    | with_reducible apply keeps_mk

theorem keeps_roleWrite {z s : State} {p v : Nat} (hz : Keeps z s) :
    KeepsExcept z (roleWrite s p v) := by
  dsimp only [roleWrite]
  repeat' first
    | with_reducible assumption
    | intro _
    | with_reducible apply keepsExcept_ok
    | with_reducible exact keepsExcept_error
    | with_reducible apply keeps_modHport
    | (with_reducible refine except_eq ?_ (by assumption))
    | split
    | with_reducible apply keeps_mk

theorem keeps_enableWrite {z s : State} {p v : Nat} (hz : Keeps z s) :
    Keeps z (enableWrite s p v) := by
  dsimp only [enableWrite]
  repeat' first
    | with_reducible assumption
    | intro _
    | with_reducible apply keeps_setSport
    | with_reducible apply keeps_abortOnPort
    | with_reducible apply keeps_modSport
    | split
    | with_reducible apply keeps_mk

theorem keeps_retrainWrite {z s : State} {p v : Nat} (hz : Keeps z s) :
    Keeps z (retrainWrite s p v) := by
  dsimp only [retrainWrite]
  repeat' first
    | with_reducible assumption
    | intro _
    | with_reducible apply keeps_modSport
    | with_reducible apply keeps_hardFail
    | with_reducible apply keeps_mk

theorem keeps_portMapWrite {z s : State} {n : Nat} {bs : List Byte} (hz : Keeps z s) :
    KeepsExcept z (portMapWrite s n bs) := by
  dsimp only [portMapWrite]
  repeat' first
    | with_reducible assumption
    | intro _
    | with_reducible apply keepsExcept_ok
    | with_reducible exact keepsExcept_error
    | with_reducible apply keeps_rangedIdle
    | with_reducible apply keeps_modTen
    | with_reducible apply keeps_foldl
    | (with_reducible refine of_except ?_ (by assumption))
    | (with_reducible refine except_eq ?_ (by assumption))
    | split
    | with_reducible apply keeps_mk

theorem keeps_endHold {z s : State} (hz : Keeps z s) :
    Keeps z (endHold s) := by
  dsimp only [endHold]
  repeat' first
    | with_reducible assumption
    | intro _
    | with_reducible apply keeps_modBox
    | with_reducible apply keeps_mk

theorem keeps_holdWrite {z s : State} {v : Nat} (hz : Keeps z s) :
    Keeps z (holdWrite s v) := by
  dsimp only [holdWrite]
  repeat' first
    | with_reducible assumption
    | intro _
    | with_reducible apply keeps_endHold
    | with_reducible apply keeps_modBox
    | split
    | with_reducible apply keeps_mk

theorem keeps_portWrite {z s : State} {i sub v : Nat} {bs : List Byte} (hz : Keeps z s) :
    KeepsExcept z (portWrite s i sub v bs) := by
  dsimp only [portWrite]
  repeat' first
    | with_reducible assumption
    | intro _
    | with_reducible apply keepsExcept_ok
    | with_reducible exact keepsExcept_error
    | with_reducible apply keeps_roleWrite
    | with_reducible apply keeps_ranged
    | with_reducible apply keeps_setSettings
    | with_reducible apply keeps_enableWrite
    | with_reducible apply keeps_rangedIdle
    | with_reducible apply keeps_modSport
    | with_reducible apply keeps_retrainWrite
    | with_reducible apply keeps_portMapWrite
    | with_reducible apply keeps_holdWrite
    | (with_reducible refine of_except ?_ (by assumption))
    | (with_reducible refine except_eq ?_ (by assumption))
    | split
    | with_reducible apply keeps_mk

theorem keeps_applyWrite {z s : State} {path : Path} {i sub off : Nat} {bs : List Byte} (hz : Keeps z s) :
    KeepsExcept z (applyWrite s path i sub off bs) := by
  dsimp only [applyWrite]
  repeat' first
    | with_reducible assumption
    | with_reducible apply keepsExcept_ok
    | with_reducible exact keepsExcept_error
    | with_reducible apply keeps_commWrite
    | with_reducible apply keeps_moduleWrite
    | with_reducible apply keeps_powerWrite
    | with_reducible apply keeps_auditWrite
    | with_reducible apply keeps_healthWrite
    | with_reducible apply keeps_portWrite
    | (with_reducible refine of_except ?_ (by assumption))
    | (with_reducible refine except_eq ?_ (by assumption))
    | split

theorem keeps_dictWrite {z s : State} {path : Path} {i sub off : Nat} {bs : List Byte} (hz : Keeps z s) :
    KeepsExcept z (dictWrite s path i sub off bs) := by
  dsimp only [dictWrite]
  repeat' first
    | with_reducible assumption
    | with_reducible apply keepsExcept_ok
    | with_reducible exact keepsExcept_error
    | with_reducible apply keeps_applyWrite
    | (with_reducible refine of_except ?_ (by assumption))
    | (with_reducible refine except_eq ?_ (by assumption))
    | split

end Sys2Proof.Laws
end

