-- ==== Sys2Proof/Laws/Engine.lean ====
section
/-! SUPPORT. What the operations of Machine/Engine.lean keep: queue, factory identity, canonical memories. -/

namespace Sys2Proof.Laws
open Sys2Proof Sys2Proof.Machine

theorem keeps_engFinish {z s : State} {i : Nat} {v : BitVec 128} {accs : List Acc} {pq : List Nat × List Nat} (hz : Keeps z s) :
    Keeps z (engFinish s i v accs pq).1 := by
  dsimp only [engFinish]
  repeat' first
    | with_reducible assumption
    | with_reducible apply keeps_pair
    | with_reducible apply keeps_setTile
    | split
    | with_reducible apply keeps_mk

theorem keeps_setDrain {z s : State} {i l d : Nat} (hz : Keeps z s) :
    Keeps z (setDrain s i l d) := by
  dsimp only [setDrain]
  repeat' first
    | with_reducible assumption
    | intro _
    | with_reducible apply keeps_modTile
    | split
    | with_reducible apply keeps_mk

theorem keeps_opRows {z s : State} {i src row : Nat} {cc : Nat} {pn : Panel} {x : OpRows} {p q lag : Nat} (hz : Keeps z s) :
    KeepsOptFst z (opRows s i src row cc pn x p q lag) := by
  dsimp only [opRows]
  repeat' first
    | with_reducible assumption
    | with_reducible apply keepsOptFst_some
    | with_reducible exact keepsOptFst_none
    | with_reducible apply keeps_readPort
    | with_reducible apply keeps_readRows
    | with_reducible apply keeps_takeRows
    | (with_reducible refine of_fst ?_ (by assumption))
    | (with_reducible refine of_optFst ?_ (by assumption))
    | (with_reducible refine of_optPair ?_ (by assumption))
    | split

theorem keeps_mmaHalf {z s : State} {i cc : Nat} {tr : Bool} {v : BitVec 128} {wb : Nat} {pb : List Nat} (hz : Keeps z s) :
    KeepsOptFst z (mmaHalf s i cc tr v wb pb) := by
  dsimp only [mmaHalf]
  repeat' first
    | with_reducible assumption
    | with_reducible apply keepsOptFst_some
    | with_reducible exact keepsOptFst_none
    | with_reducible apply keeps_opRows
    | with_reducible apply keeps_readRows
    | with_reducible apply keeps_engFinish
    | (with_reducible refine of_fst ?_ (by assumption))
    | (with_reducible refine of_optFst ?_ (by assumption))
    | (with_reducible refine of_optPair ?_ (by assumption))
    | split

theorem keeps_fusionLink {z s : State} {i : Nat} (hz : Keeps z s) :
    Keeps z (fusionLink s i).1 := by
  dsimp only [fusionLink]
  repeat' first
    | with_reducible assumption
    | intro _
    | with_reducible apply keeps_pair
    | with_reducible apply keeps_modTile
    | with_reducible apply keeps_modRun
    | with_reducible apply keeps_siteFails
    | split
    | with_reducible apply keeps_mk

theorem keeps_mmaEff {z : State} {tr : Bool} {s : State} {i : Nat} {v : BitVec 128} {cc : Nat} (hz : Keeps z s) :
    KeepsRes z (mmaEff tr s i v cc) := by
  dsimp only [mmaEff]
  repeat' first
    | with_reducible assumption
    | with_reducible apply keepsRes_done
    | with_reducible exact keepsRes_trap
    | with_reducible apply keepsRes_wait
    | with_reducible apply keeps_opRows
    | with_reducible apply keeps_setDrain
    | with_reducible apply keeps_mmaHalf
    | with_reducible apply keeps_fusionLink
    | with_reducible apply keepsOptFst_some
    | with_reducible exact keepsOptFst_none
    | (with_reducible refine of_fst ?_ (by assumption))
    | (with_reducible refine of_optFst ?_ (by assumption))
    | (with_reducible refine of_optPair ?_ (by assumption))
    | (with_reducible refine res_eq ?_ (by assumption))
    | split

theorem keeps_mmaXHalf {z s : State} {i ib cc : Nat} {v : BitVec 128} {bad : List Nat} (hz : Keeps z s) :
    Keeps z (mmaXHalf s i ib cc v bad).1 := by
  dsimp only [mmaXHalf]
  repeat' first
    | with_reducible assumption
    | with_reducible apply keeps_pair
    | with_reducible apply keeps_readRows
    | with_reducible apply keeps_engFinish
    | (with_reducible refine of_fst ?_ (by assumption))

theorem keeps_mmaXEff {z s : State} {i : Nat} {v : BitVec 128} {cc : Nat} (hz : Keeps z s) :
    KeepsRes z (mmaXEff s i v cc) := by
  dsimp only [mmaXEff]
  repeat' first
    | with_reducible assumption
    | with_reducible apply keepsRes_done
    | with_reducible exact keepsRes_trap
    | with_reducible apply keepsRes_wait
    | with_reducible apply keeps_mmaXHalf
    | with_reducible apply keeps_setDrain
    | with_reducible apply keeps_fusionLink
    | (with_reducible refine of_fst ?_ (by assumption))
    | (with_reducible refine res_eq ?_ (by assumption))
    | split

theorem keeps_execMma {z : State} {site : SiteId} {slot : Fin 8192} {v : BitVec 128} {s : State} (hz : Keeps z s) :
    KeepsNext z (execMma site slot v s) := by
  dsimp only [execMma]
  repeat' first
    | with_reducible assumption
    | with_reducible apply keepsNext_next
    | with_reducible exact keepsNext_fault
    | with_reducible apply keeps_schedule
    | with_reducible apply keeps_mmaEff
    | (with_reducible refine of_res ?_ (by assumption))
    | (with_reducible refine of_wait ?_ (by assumption))

theorem keeps_execMmaT {z : State} {site : SiteId} {slot : Fin 8192} {v : BitVec 128} {s : State} (hz : Keeps z s) :
    KeepsNext z (execMmaT site slot v s) := by
  dsimp only [execMmaT]
  repeat' first
    | with_reducible assumption
    | with_reducible apply keepsNext_next
    | with_reducible exact keepsNext_fault
    | with_reducible apply keeps_schedule
    | with_reducible apply keeps_mmaEff
    | (with_reducible refine of_res ?_ (by assumption))
    | (with_reducible refine of_wait ?_ (by assumption))

theorem keeps_execMmaX {z : State} {site : SiteId} {slot : Fin 8192} {v : BitVec 128} {s : State} (hz : Keeps z s) :
    KeepsNext z (execMmaX site slot v s) := by
  dsimp only [execMmaX]
  repeat' first
    | with_reducible assumption
    | with_reducible apply keepsNext_next
    | with_reducible exact keepsNext_fault
    | with_reducible apply keeps_schedule
    | with_reducible apply keeps_mmaXEff
    | (with_reducible refine of_res ?_ (by assumption))
    | (with_reducible refine of_wait ?_ (by assumption))

end Sys2Proof.Laws
end

