-- ==== Sys2Proof/Laws/Ma.lean ====
section
/-! SUPPORT. What the operations of Machine/Ma.lean keep: queue, factory identity, canonical memories. -/

namespace Sys2Proof.Laws
open Sys2Proof Sys2Proof.Machine

theorem keeps_fieldRegRead {z s : State} {f off : Nat} (hz : Keeps z s) :
    Keeps z (fieldRegRead s f off).1 := by
  dsimp only [fieldRegRead]
  repeat' first
    | with_reducible assumption
    | intro _
    | with_reducible apply keeps_pair
    | with_reducible apply keeps_readSeam
    | with_reducible apply keeps_modField
    | with_reducible apply keeps_readNearCh
    | split
    | with_reducible apply keeps_mk

theorem keeps_ringRegRead {z s : State} {r off : Nat} (hz : Keeps z s) :
    Keeps z (ringRegRead s r off).1 := by
  dsimp only [ringRegRead]
  repeat' first
    | with_reducible assumption
    | intro _
    | with_reducible apply keeps_pair
    | with_reducible apply keeps_modRing
    | split
    | with_reducible apply keeps_mk

theorem keeps_regsRead {z : State} {rd : State → Nat → State × Nat} {s : State} {off : Nat} {x3 : Nat} (hz : Keeps z s) (hrd : ∀ s y1, Keeps z s → Keeps z (rd s y1).1) :
    Keeps z (regsRead rd s off x3).1 := by
  induction x3 generalizing s off with
  | zero => dsimp only [regsRead]; assumption
  | succ n ih =>
    dsimp only [regsRead]
    repeat' first
      | with_reducible assumption
      | with_reducible apply ih
      | intro _
      | with_reducible apply hrd
      | with_reducible apply keeps_pair
      | (with_reducible refine of_fst ?_ (by assumption))
      | split

theorem keeps_tileRegRead {z s : State} {i off : Nat} (hz : Keeps z s) :
    Keeps z (tileRegRead s i off).1 := by
  dsimp only [tileRegRead]
  repeat' first
    | with_reducible assumption
    | intro _
    | with_reducible apply keeps_pair
    | with_reducible apply keeps_modTile

theorem keeps_spmWords {z : State} {s : State} {i : Nat} {n : Nat} {x3 : Nat} (hz : Keeps z s)  :
    Keeps z (spmWords s i n x3).1 := by
  induction x3 generalizing s i n with
  | zero => dsimp only [spmWords]; assumption
  | succ n ih =>
    dsimp only [spmWords]
    repeat' first
      | with_reducible assumption
      | with_reducible apply ih
      | intro _
      | with_reducible apply keeps_pair
      | with_reducible apply keeps_modTile
      | with_reducible apply keeps_noteRead
      | split
      | with_reducible apply keeps_mk

theorem keeps_askSlots {z s : State} {i n : Nat} (hz : Keeps z s) :
    Keeps z (askSlots s i n) := by
  dsimp only [askSlots]
  repeat' first
    | with_reducible assumption
    | intro _
    | with_reducible apply keeps_modTile
    | with_reducible apply keeps_mk

theorem keeps_maLoad {z s : State} {ma n : Nat} (hz : Keeps z s) :
    Keeps z (maLoad s ma n).1 := by
  dsimp only [maLoad]
  repeat' first
    | with_reducible assumption
    | intro _
    | with_reducible apply keeps_pair
    | with_reducible apply keeps_evAccess
    | with_reducible apply keeps_noteRange
    | with_reducible apply keeps_freeBytes
    | with_reducible apply keeps_spmWords
    | with_reducible apply keeps_askSlots
    | with_reducible apply keeps_regsRead
    | with_reducible apply keeps_tileRegRead
    | with_reducible apply keeps_fieldRegRead
    | with_reducible apply keeps_ringRegRead
    | (with_reducible refine of_fst ?_ (by assumption))
    | split

theorem keeps_tileRegWrite {z s : State} {i off v : Nat} (hz : Keeps z s) :
    Keeps z (tileRegWrite s i off v) := by
  dsimp only [tileRegWrite]
  repeat' first
    | with_reducible assumption
    | intro _
    | with_reducible apply keeps_modTile
    | with_reducible apply keeps_setTile
    | with_reducible apply keeps_setErr
    | split
    | with_reducible apply keeps_mk

theorem keeps_poolFlushWrite {z s : State} {r v : Nat} (hz : Keeps z s) :
    Keeps z (poolFlushWrite s r v) := by
  dsimp only [poolFlushWrite]
  repeat' first
    | with_reducible assumption
    | with_reducible apply keeps_flushAll
    | with_reducible apply keeps_flushQueue
    | split

theorem keeps_pieces {z : State} {wr : State → Nat → List Byte → State} {s : State} {off : Nat} {bs : List Byte} (hz : Keeps z s) (hwr : ∀ s y1 y2, Keeps z s → Keeps z (wr s y1 y2)) :
    Keeps z (pieces wr s off bs) := by
  dsimp only [pieces]
  repeat' first
    | with_reducible assumption
    | intro _
    | with_reducible apply hwr
    | with_reducible apply keeps_foldl

theorem keeps_maStore {z s : State} {ma : Nat} {bs : List Byte} (hz : Keeps z s) :
    Keeps z (maStore s ma bs).1 := by
  dsimp only [maStore]
  repeat' first
    | with_reducible assumption
    | intro _
    | with_reducible apply keeps_pair
    | with_reducible apply keeps_evAccess
    | with_reducible apply keeps_pieces
    | with_reducible apply keeps_placeWrite
    | with_reducible apply keeps_writeWord
    | with_reducible apply keeps_askSlots
    | with_reducible apply keeps_tileRegWrite
    | with_reducible apply keeps_poolFlushWrite
    | split

end Sys2Proof.Laws
end

