-- ==== Sys2Proof/Laws/Move.lean ====
section
/-! SUPPORT. What the operations of Machine/Move.lean keep: queue, factory identity, canonical memories. -/

namespace Sys2Proof.Laws
open Sys2Proof Sys2Proof.Machine

theorem keeps_movRows {z s : State} {i : Nat} {v : BitVec 128} {cc k n : Nat} (hz : Keeps z s) :
    KeepsOptFst z (movRows s i v cc k n) := by
  dsimp only [movRows]
  repeat' first
    | with_reducible assumption
    | intro _
    | with_reducible apply keepsOptFst_some
    | with_reducible exact keepsOptFst_none
    | with_reducible apply keeps_readRows
    | with_reducible apply keeps_takeRows
    | with_reducible apply keeps_readNear
    | with_reducible apply keeps_getD
    | (with_reducible refine of_fst ?_ (by assumption))
    | (with_reducible refine of_optFst ?_ (by assumption))
    | (with_reducible refine of_optPair ?_ (by assumption))
    | split

theorem keeps_movOut {z s : State} {i : Nat} {v : BitVec 128} {cc : Nat} (hz : Keeps z s) :
    KeepsRes z (movOut s i v cc) := by
  dsimp only [movOut]
  repeat' first
    | with_reducible assumption
    | intro _
    | with_reducible apply keepsRes_done
    | with_reducible exact keepsRes_trap
    | with_reducible apply keepsRes_wait
    | with_reducible apply keeps_movRows
    | with_reducible apply keepsOptFst_some
    | with_reducible exact keepsOptFst_none
    | (with_reducible refine of_optFst ?_ (by assumption))
    | (with_reducible refine of_optPair ?_ (by assumption))
    | (with_reducible refine res_eq ?_ (by assumption))
    | split

theorem keeps_movEff {z s : State} {i : Nat} {v : BitVec 128} {cc : Nat} (hz : Keeps z s) :
    KeepsRes z (movEff s i v cc) := by
  dsimp only [movEff]
  repeat' first
    | with_reducible assumption
    | intro _
    | with_reducible apply keepsRes_done
    | with_reducible exact keepsRes_trap
    | with_reducible apply keepsRes_wait
    | with_reducible apply keeps_modTile
    | with_reducible apply keeps_movOut
    | with_reducible apply keeps_movRows
    | with_reducible apply keepsOptFst_some
    | with_reducible exact keepsOptFst_none
    | (with_reducible refine of_optFst ?_ (by assumption))
    | (with_reducible refine of_optPair ?_ (by assumption))
    | (with_reducible refine of_res ?_ (by assumption))
    | (with_reducible refine of_wait ?_ (by assumption))
    | (with_reducible refine res_eq ?_ (by assumption))
    | split

theorem keeps_undoXfer {z s : State} {m o : NearXfer} (hz : Keeps z s) :
    Keeps z (undoXfer s m o) := by
  dsimp only [undoXfer]
  repeat' first
    | with_reducible assumption
    | intro _
    | with_reducible apply keeps_memWriteP
    | with_reducible apply keeps_foldl
    | split

theorem keeps_scheduleNear {z s : State} {i slot : Nat} {v : BitVec 128} {wait : Nat} (hz : Keeps z s) :
    Keeps z (scheduleNear s i slot v wait) := by
  dsimp only [scheduleNear]
  repeat' first
    | with_reducible assumption
    | intro _
    | with_reducible apply keeps_schedule
    | with_reducible apply keeps_movEff
    | with_reducible apply keeps_modField
    | with_reducible apply keeps_trapTile
    | with_reducible apply keeps_undoXfer
    | with_reducible apply keeps_foldl
    | (with_reducible refine of_res ?_ (by assumption))
    | (with_reducible refine of_wait ?_ (by assumption))
    | split
    | with_reducible apply keeps_mk

theorem keeps_scheduleMov {z s : State} {i slot : Nat} {v : BitVec 128} {wait : Nat} (hz : Keeps z s) :
    Keeps z (scheduleMov s i slot v wait) := by
  dsimp only [scheduleMov]
  repeat' first
    | with_reducible assumption
    | with_reducible apply keeps_scheduleNear
    | with_reducible apply keeps_schedule
    | with_reducible apply keeps_movEff
    | (with_reducible refine of_res ?_ (by assumption))
    | (with_reducible refine of_wait ?_ (by assumption))
    | split

theorem keeps_execMov {z : State} {site : SiteId} {slot : Fin 8192} {x : VerbWait} {s : State} (hz : Keeps z s) :
    KeepsNext z (execMov site slot x s) := by
  dsimp only [execMov]
  repeat' first
    | with_reducible assumption
    | with_reducible apply keepsNext_next
    | with_reducible exact keepsNext_fault
    | with_reducible apply keeps_scheduleMov

theorem keeps_execDrop {z : State} {site : SiteId} {slot : Fin 8192} {v : BitVec 128} {s : State} (hz : Keeps z s) :
    KeepsNext z (execDrop site slot v s) := by
  dsimp only [execDrop]
  repeat' first
    | with_reducible assumption
    | with_reducible apply keepsNext_next
    | with_reducible exact keepsNext_fault
    | with_reducible apply keeps_schedule
    | with_reducible apply keeps_movEff
    | (with_reducible refine of_res ?_ (by assumption))
    | (with_reducible refine of_wait ?_ (by assumption))

theorem keeps_sendEff {z s : State} {i : Nat} {v : BitVec 128} {cc : Nat} (hz : Keeps z s) :
    KeepsRes z (sendEff s i v cc) := by
  dsimp only [sendEff]
  repeat' first
    | with_reducible assumption
    | with_reducible apply keepsRes_done
    | with_reducible exact keepsRes_trap
    | with_reducible apply keepsRes_wait
    | with_reducible apply keeps_readRows
    | with_reducible apply keeps_chanSend
    | (with_reducible refine of_fst ?_ (by assumption))
    | (with_reducible refine of_sent ?_ (by assumption))
    | (with_reducible refine of_closed ?_ (by assumption))
    | (with_reducible refine res_eq ?_ (by assumption))
    | split

theorem keeps_recvEff {z s : State} {i : Nat} {v : BitVec 128} {cc : Nat} (hz : Keeps z s) :
    KeepsRes z (recvEff s i v cc) := by
  dsimp only [recvEff]
  repeat' first
    | with_reducible assumption
    | intro _
    | with_reducible apply keepsRes_done
    | with_reducible exact keepsRes_trap
    | with_reducible apply keepsRes_wait
    | with_reducible apply keeps_chanRecv
    | with_reducible apply keepsOptFst_some
    | with_reducible exact keepsOptFst_none
    | (with_reducible refine of_optFst ?_ (by assumption))
    | (with_reducible refine of_optPair ?_ (by assumption))
    | (with_reducible refine res_eq ?_ (by assumption))
    | split

theorem keeps_execSend {z : State} {site : SiteId} {slot : Fin 8192} {x : VerbWait} {s : State} (hz : Keeps z s) :
    KeepsNext z (execSend site slot x s) := by
  dsimp only [execSend]
  repeat' first
    | with_reducible assumption
    | with_reducible apply keepsNext_next
    | with_reducible exact keepsNext_fault
    | with_reducible apply keeps_schedule
    | with_reducible apply keeps_sendEff
    | (with_reducible refine of_res ?_ (by assumption))
    | (with_reducible refine of_wait ?_ (by assumption))

theorem keeps_execRecv {z : State} {site : SiteId} {slot : Fin 8192} {x : VerbWait} {s : State} (hz : Keeps z s) :
    KeepsNext z (execRecv site slot x s) := by
  dsimp only [execRecv]
  repeat' first
    | with_reducible assumption
    | with_reducible apply keepsNext_next
    | with_reducible exact keepsNext_fault
    | with_reducible apply keeps_schedule
    | with_reducible apply keeps_recvEff
    | (with_reducible refine of_res ?_ (by assumption))
    | (with_reducible refine of_wait ?_ (by assumption))

theorem keeps_steerEff {z s : State} {i : Nat} {v : BitVec 128} {cc : Nat} (hz : Keeps z s) :
    KeepsRes z (steerEff s i v cc) := by
  dsimp only [steerEff]
  repeat' first
    | with_reducible assumption
    | intro _
    | with_reducible apply keepsRes_done
    | with_reducible exact keepsRes_trap
    | with_reducible apply keepsRes_wait
    | with_reducible apply keeps_modTile
    | (with_reducible refine res_eq ?_ (by assumption))
    | split
    | with_reducible apply keeps_mk

theorem keeps_execSteer {z : State} {site : SiteId} {slot : Fin 8192} {v : BitVec 128} {s : State} (hz : Keeps z s) :
    KeepsNext z (execSteer site slot v s) := by
  dsimp only [execSteer]
  repeat' first
    | with_reducible assumption
    | with_reducible apply keepsNext_next
    | with_reducible exact keepsNext_fault
    | with_reducible apply keeps_schedule
    | with_reducible apply keeps_steerEff
    | (with_reducible refine of_res ?_ (by assumption))
    | (with_reducible refine of_wait ?_ (by assumption))

theorem keeps_execSteerClear {z : State} {site : SiteId} {slot : Fin 8192} {v : BitVec 128} {s : State} (hz : Keeps z s) :
    KeepsNext z (execSteerClear site slot v s) := by
  dsimp only [execSteerClear]
  repeat' first
    | with_reducible assumption
    | with_reducible apply keepsNext_next
    | with_reducible exact keepsNext_fault
    | with_reducible apply keeps_schedule
    | with_reducible apply keeps_steerEff
    | (with_reducible refine of_res ?_ (by assumption))
    | (with_reducible refine of_wait ?_ (by assumption))

end Sys2Proof.Laws
end

