-- ==== Sys2Proof/Laws/Sfu.lean ====
section
/-! SUPPORT. What the operations of Machine/Sfu.lean keep: queue, factory identity, canonical memories. -/

namespace Sys2Proof.Laws
open Sys2Proof Sys2Proof.Machine

theorem keeps_dualCheck {z s : State} {i b : Nat} {codes : List Nat} (hz : Keeps z s) :
    Keeps z (dualCheck s i b codes) := by
  dsimp only [dualCheck]
  repeat' first
    | with_reducible assumption
    | intro _
    | with_reducible apply keeps_modTile
    | with_reducible apply keeps_failCheck
    | split
    | with_reducible apply keeps_mk

theorem keeps_sfuDone {z s : State} {i b : Nat} {out : List (Nat × Bool)} (hz : Keeps z s) :
    Keeps z (sfuDone s i b out).1 := by
  dsimp only [sfuDone]
  repeat' first
    | with_reducible assumption
    | intro _
    | with_reducible apply keeps_pair
    | with_reducible apply keeps_dualCheck

theorem keeps_sfuEff {z s : State} {i : Nat} {v : BitVec 128} {cc : Nat} (hz : Keeps z s) :
    KeepsRes z (sfuEff s i v cc) := by
  dsimp only [sfuEff]
  repeat' first
    | with_reducible assumption
    | intro _
    | with_reducible apply keepsRes_done
    | with_reducible exact keepsRes_trap
    | with_reducible apply keepsRes_wait
    | with_reducible apply keeps_srcRows
    | with_reducible apply keeps_readPort
    | with_reducible apply keeps_sfuDone
    | with_reducible apply keepsOptFst_some
    | with_reducible exact keepsOptFst_none
    | (with_reducible refine of_fst ?_ (by assumption))
    | (with_reducible refine of_optFst ?_ (by assumption))
    | (with_reducible refine of_optPair ?_ (by assumption))
    | (with_reducible refine res_eq ?_ (by assumption))
    | split

theorem keeps_redEff {z s : State} {i : Nat} {v : BitVec 128} {cc : Nat} (hz : Keeps z s) :
    KeepsRes z (redEff s i v cc) := by
  dsimp only [redEff]
  repeat' first
    | with_reducible assumption
    | intro _
    | with_reducible apply keepsRes_done
    | with_reducible exact keepsRes_trap
    | with_reducible apply keepsRes_wait
    | with_reducible apply keeps_readPort
    | with_reducible apply keeps_foldl
    | (with_reducible refine of_fst ?_ (by assumption))
    | (with_reducible refine res_eq ?_ (by assumption))
    | split

theorem keeps_smaxEff {z s : State} {i : Nat} {v : BitVec 128} {cc : Nat} (hz : Keeps z s) :
    KeepsRes z (smaxEff s i v cc) := by
  dsimp only [smaxEff]
  repeat' first
    | with_reducible assumption
    | intro _
    | with_reducible apply keepsRes_done
    | with_reducible exact keepsRes_trap
    | with_reducible apply keepsRes_wait
    | with_reducible apply keeps_readPort
    | with_reducible apply keeps_sfuDone
    | (with_reducible refine of_fst ?_ (by assumption))
    | (with_reducible refine res_eq ?_ (by assumption))

theorem keeps_castEff {z s : State} {i : Nat} {v : BitVec 128} {cc : Nat} (hz : Keeps z s) :
    KeepsRes z (castEff s i v cc) := by
  dsimp only [castEff]
  repeat' first
    | with_reducible assumption
    | with_reducible apply keepsRes_done
    | with_reducible exact keepsRes_trap
    | with_reducible apply keepsRes_wait
    | with_reducible apply keeps_readPort
    | (with_reducible refine of_fst ?_ (by assumption))
    | (with_reducible refine res_eq ?_ (by assumption))
    | split

theorem keeps_execSfu {z : State} {site : SiteId} {slot : Fin 8192} {v : BitVec 128} {s : State} (hz : Keeps z s) :
    KeepsNext z (execSfu site slot v s) := by
  dsimp only [execSfu]
  repeat' first
    | with_reducible assumption
    | with_reducible apply keepsNext_next
    | with_reducible exact keepsNext_fault
    | with_reducible apply keeps_schedule
    | with_reducible apply keeps_sfuEff
    | (with_reducible refine of_res ?_ (by assumption))
    | (with_reducible refine of_wait ?_ (by assumption))

theorem keeps_execRand {z : State} {site : SiteId} {slot : Fin 8192} {v : BitVec 128} {s : State} (hz : Keeps z s) :
    KeepsNext z (execRand site slot v s) := by
  dsimp only [execRand]
  repeat' first
    | with_reducible assumption
    | with_reducible apply keepsNext_next
    | with_reducible exact keepsNext_fault
    | with_reducible apply keeps_schedule
    | with_reducible apply keeps_sfuEff
    | (with_reducible refine of_res ?_ (by assumption))
    | (with_reducible refine of_wait ?_ (by assumption))

theorem keeps_execRed {z : State} {site : SiteId} {slot : Fin 8192} {v : BitVec 128} {s : State} (hz : Keeps z s) :
    KeepsNext z (execRed site slot v s) := by
  dsimp only [execRed]
  repeat' first
    | with_reducible assumption
    | with_reducible apply keepsNext_next
    | with_reducible exact keepsNext_fault
    | with_reducible apply keeps_schedule
    | with_reducible apply keeps_redEff
    | (with_reducible refine of_res ?_ (by assumption))
    | (with_reducible refine of_wait ?_ (by assumption))

theorem keeps_execSmax {z : State} {site : SiteId} {slot : Fin 8192} {v : BitVec 128} {s : State} (hz : Keeps z s) :
    KeepsNext z (execSmax site slot v s) := by
  dsimp only [execSmax]
  repeat' first
    | with_reducible assumption
    | with_reducible apply keepsNext_next
    | with_reducible exact keepsNext_fault
    | with_reducible apply keeps_schedule
    | with_reducible apply keeps_smaxEff
    | (with_reducible refine of_res ?_ (by assumption))
    | (with_reducible refine of_wait ?_ (by assumption))

theorem keeps_execCastConvert {z : State} {site : SiteId} {slot : Fin 8192} {v : BitVec 128} {s : State} (hz : Keeps z s) :
    KeepsNext z (execCastConvert site slot v s) := by
  dsimp only [execCastConvert]
  repeat' first
    | with_reducible assumption
    | with_reducible apply keepsNext_next
    | with_reducible exact keepsNext_fault
    | with_reducible apply keeps_schedule
    | with_reducible apply keeps_castEff
    | (with_reducible refine of_res ?_ (by assumption))
    | (with_reducible refine of_wait ?_ (by assumption))

theorem keeps_execCastSlice {z : State} {site : SiteId} {slot : Fin 8192} {v : BitVec 128} {s : State} (hz : Keeps z s) :
    KeepsNext z (execCastSlice site slot v s) := by
  dsimp only [execCastSlice]
  repeat' first
    | with_reducible assumption
    | with_reducible apply keepsNext_next
    | with_reducible exact keepsNext_fault
    | with_reducible apply keeps_schedule
    | with_reducible apply keeps_castEff
    | (with_reducible refine of_res ?_ (by assumption))
    | (with_reducible refine of_wait ?_ (by assumption))

theorem keeps_execCastFinalize {z : State} {site : SiteId} {slot : Fin 8192} {v : BitVec 128} {s : State} (hz : Keeps z s) :
    KeepsNext z (execCastFinalize site slot v s) := by
  dsimp only [execCastFinalize]
  repeat' first
    | with_reducible assumption
    | with_reducible apply keepsNext_next
    | with_reducible exact keepsNext_fault
    | with_reducible apply keeps_schedule
    | with_reducible apply keeps_castEff
    | (with_reducible refine of_res ?_ (by assumption))
    | (with_reducible refine of_wait ?_ (by assumption))

end Sys2Proof.Laws
end

