-- ==== Sys2Proof/Laws/MemVerbs.lean ====
section
/-! SUPPORT. What the operations of Machine/MemVerbs.lean keep: queue, factory identity, canonical memories. -/

namespace Sys2Proof.Laws
open Sys2Proof Sys2Proof.Machine

theorem keeps_ccountEff {z s : State} {i : Nat} {v : BitVec 128} {cc : Nat} (hz : Keeps z s) :
    KeepsRes z (ccountEff s i v cc) := by
  dsimp only [ccountEff]
  repeat' first
    | with_reducible assumption
    | intro _
    | with_reducible apply keepsRes_done
    | with_reducible exact keepsRes_trap
    | with_reducible apply keepsRes_wait
    | with_reducible apply keeps_srcRows
    | with_reducible apply keepsOptFst_some
    | with_reducible exact keepsOptFst_none
    | (with_reducible refine of_optFst ?_ (by assumption))
    | (with_reducible refine of_optPair ?_ (by assumption))
    | (with_reducible refine res_eq ?_ (by assumption))
    | split

theorem keeps_execCcount {z : State} {site : SiteId} {slot : Fin 8192} {v : BitVec 128} {s : State} (hz : Keeps z s) :
    KeepsNext z (execCcount site slot v s) := by
  dsimp only [execCcount]
  repeat' first
    | with_reducible assumption
    | with_reducible apply keepsNext_next
    | with_reducible exact keepsNext_fault
    | with_reducible apply keeps_schedule
    | with_reducible apply keeps_ccountEff
    | (with_reducible refine of_res ?_ (by assumption))
    | (with_reducible refine of_wait ?_ (by assumption))

theorem keeps_checkEff {z s : State} {i : Nat} {v : BitVec 128} {cc : Nat} (hz : Keeps z s) :
    KeepsRes z (checkEff s i v cc) := by
  unfold checkEff
  repeat' first
    | with_reducible assumption
    | with_reducible apply keepsRes_done
    | with_reducible exact keepsRes_trap
    | with_reducible apply keepsRes_wait
    | with_reducible apply keeps_readRows
    | with_reducible apply keeps_failCheck
    | (with_reducible refine of_fst ?_ (by assumption))
    | (with_reducible refine res_eq ?_ (by assumption))
    | split
    | dsimp only

theorem keeps_execCheckCsum {z : State} {site : SiteId} {slot : Fin 8192} {v : BitVec 128} {s : State} (hz : Keeps z s) :
    KeepsNext z (execCheckCsum site slot v s) := by
  dsimp only [execCheckCsum]
  repeat' first
    | with_reducible assumption
    | with_reducible apply keepsNext_next
    | with_reducible exact keepsNext_fault
    | with_reducible apply keeps_schedule
    | with_reducible apply keeps_checkEff
    | (with_reducible refine of_res ?_ (by assumption))
    | (with_reducible refine of_wait ?_ (by assumption))

theorem keeps_execCheckCmp {z : State} {site : SiteId} {slot : Fin 8192} {v : BitVec 128} {s : State} (hz : Keeps z s) :
    KeepsNext z (execCheckCmp site slot v s) := by
  dsimp only [execCheckCmp]
  repeat' first
    | with_reducible assumption
    | with_reducible apply keepsNext_next
    | with_reducible exact keepsNext_fault
    | with_reducible apply keeps_schedule
    | with_reducible apply keeps_checkEff
    | (with_reducible refine of_res ?_ (by assumption))
    | (with_reducible refine of_wait ?_ (by assumption))

theorem keeps_execCheckPoison {z : State} {site : SiteId} {slot : Fin 8192} {v : BitVec 128} {s : State} (hz : Keeps z s) :
    KeepsNext z (execCheckPoison site slot v s) := by
  dsimp only [execCheckPoison]
  repeat' first
    | with_reducible assumption
    | with_reducible apply keepsNext_next
    | with_reducible exact keepsNext_fault
    | with_reducible apply keeps_schedule
    | with_reducible apply keeps_checkEff
    | (with_reducible refine of_res ?_ (by assumption))
    | (with_reducible refine of_wait ?_ (by assumption))

theorem keeps_nopEff {z s : State} {i : Nat} {v : BitVec 128} {cc : Nat} (hz : Keeps z s) :
    KeepsRes z (nopEff s i v cc) := by
  dsimp only [nopEff]
  repeat' first
    | with_reducible assumption
    | with_reducible apply keepsRes_done
    | with_reducible exact keepsRes_trap
    | with_reducible apply keepsRes_wait
    | (with_reducible refine res_eq ?_ (by assumption))

theorem keeps_execNop {z : State} {site : SiteId} {slot : Fin 8192} {v : BitVec 128} {s : State} (hz : Keeps z s) :
    KeepsNext z (execNop site slot v s) := by
  dsimp only [execNop]
  repeat' first
    | with_reducible assumption
    | with_reducible apply keepsNext_next
    | with_reducible exact keepsNext_fault
    | with_reducible apply keeps_schedule
    | with_reducible apply keeps_nopEff
    | (with_reducible refine of_res ?_ (by assumption))
    | (with_reducible refine of_wait ?_ (by assumption))

theorem keeps_execReservedVerb {z : State} {site : SiteId} {slot : Fin 8192} {v : BitVec 128} {s : State} (hz : Keeps z s) :
    KeepsNext z (execReservedVerb site slot v s) := by
  dsimp only [execReservedVerb]
  repeat' first
    | with_reducible assumption
    | with_reducible apply keepsNext_next
    | with_reducible exact keepsNext_fault
    | with_reducible apply keeps_schedule
    | with_reducible apply keeps_nopEff
    | (with_reducible refine of_res ?_ (by assumption))
    | (with_reducible refine of_wait ?_ (by assumption))

theorem keeps_verbEff {z s : State} {i : Nat} {v : BitVec 128} {cc : Nat} (hz : Keeps z s) :
    KeepsRes z (verbEff s i v cc) := by
  dsimp only [verbEff]
  repeat' first
    | with_reducible assumption
    | with_reducible apply keepsRes_done
    | with_reducible exact keepsRes_trap
    | with_reducible apply keepsRes_wait
    | with_reducible apply keeps_mmaEff
    | with_reducible apply keeps_mmaXEff
    | with_reducible apply keeps_sfuEff
    | with_reducible apply keeps_redEff
    | with_reducible apply keeps_smaxEff
    | with_reducible apply keeps_castEff
    | with_reducible apply keeps_movEff
    | with_reducible apply keeps_sendEff
    | with_reducible apply keeps_recvEff
    | with_reducible apply keeps_steerEff
    | with_reducible apply keeps_ccountEff
    | with_reducible apply keeps_checkEff
    | with_reducible apply keeps_nopEff
    | (with_reducible refine of_res ?_ (by assumption))
    | (with_reducible refine of_wait ?_ (by assumption))
    | (with_reducible refine res_eq ?_ (by assumption))
    | split

theorem keeps_execDynamicVerbStart {z : State} {site : SiteId} {cc : Nat} {s : State} (hz : Keeps z s) :
    KeepsNext z (execDynamicVerbStart site cc s) := by
  dsimp only [execDynamicVerbStart]
  repeat' first
    | with_reducible assumption
    | with_reducible apply keepsNext_next
    | with_reducible exact keepsNext_fault
    | with_reducible apply keeps_startDynamic
    | with_reducible apply keeps_verbEff
    | (with_reducible refine of_res ?_ (by assumption))
    | (with_reducible refine of_wait ?_ (by assumption))

end Sys2Proof.Laws
end

