-- ==== Sys2Proof/Laws/Registers.lean ====
section
/-! SUPPORT. What the operations of Machine/Registers.lean keep: queue, factory identity, canonical memories. -/

namespace Sys2Proof.Laws
open Sys2Proof Sys2Proof.Machine

theorem keeps_ask {z s : State} {path : Path} {cmd : BitVec 64} {bs : List Byte} (hz : Keeps z s) :
    Keeps z (ask s path cmd bs) := by
  dsimp only [ask]
  repeat' first
    | with_reducible assumption
    | intro _
    | with_reducible apply keeps_modHport
    | split
    | with_reducible apply keeps_mk

theorem keeps_respond {z s : State} {path : Path} {code : Nat} {bs : List Byte} (hz : Keeps z s) :
    Keeps z (respond s path code bs) := by
  dsimp only [respond]
  repeat' first
    | with_reducible assumption
    | intro _
    | with_reducible apply keeps_modHport
    | with_reducible apply keeps_canSend
    | split
    | with_reducible apply keeps_mk

theorem keeps_holdAsk {z s : State} {path : Path} {cmd : BitVec 64} {bs : List Byte} (hz : Keeps z s) :
    Keeps z (holdAsk s path cmd bs) := by
  dsimp only [holdAsk]
  repeat' first
    | with_reducible assumption
    | intro _
    | with_reducible apply keeps_modHport
    | with_reducible apply keeps_ask
    | split
    | with_reducible apply keeps_mk

theorem keeps_finishWrite {z : State} {s : State} {path : Path} {r : Except Nat State} (hz : Keeps z s)
    (hr : KeepsExcept z r) : Keeps z (finishWrite s path r) := by
  dsimp only [finishWrite]
  split
  · exact keeps_respond (hr.of _ rfl)
  · exact keeps_respond hz

theorem keeps_finishRead {z s : State} {path : Path} {i off len : Nat} {r : Except Nat (List Byte)} (hz : Keeps z s) :
    Keeps z (finishRead s path i off len r) := by
  dsimp only [finishRead]
  repeat' first
    | with_reducible assumption
    | with_reducible apply keeps_respond
    | split

theorem keeps_writeAccess {z s : State} {path : Path} {i sub off : Nat} {bs : List Byte} (hz : Keeps z s) :
    Keeps z (writeAccess s path i sub off bs) := by
  dsimp only [writeAccess]
  repeat' first
    | with_reducible assumption
    | with_reducible apply keeps_holdAsk
    | with_reducible apply keeps_ask
    | with_reducible apply keeps_finishWrite
    | with_reducible apply keeps_dictWrite
    | with_reducible apply keepsExcept_ok
    | with_reducible exact keepsExcept_error
    | (with_reducible refine of_except ?_ (by assumption))
    | split

theorem keeps_readAccess {z s : State} {path : Path} {i sub off : Nat} (hz : Keeps z s) :
    Keeps z (readAccess s path i sub off) := by
  dsimp only [readAccess]
  repeat' first
    | with_reducible assumption
    | with_reducible apply keeps_holdAsk
    | with_reducible apply keeps_ask
    | with_reducible apply keeps_finishRead
    | split

theorem keeps_execUsdoRead {z : State} {index : BitVec 16} {sub : BitVec 8} {s : State} (hz : Keeps z s) :
    KeepsNext z (execUsdoRead index sub s) := by
  dsimp only [execUsdoRead]
  repeat' first
    | with_reducible assumption
    | with_reducible apply keepsNext_next
    | with_reducible exact keepsNext_fault
    | with_reducible apply keeps_readAccess

theorem keeps_execUsdoWrite {z : State} {index : BitVec 16} {sub : BitVec 8} {data : List Byte} {s : State} (hz : Keeps z s) :
    KeepsNext z (execUsdoWrite index sub data s) := by
  dsimp only [execUsdoWrite]
  repeat' first
    | with_reducible assumption
    | with_reducible apply keepsNext_next
    | with_reducible exact keepsNext_fault
    | with_reducible apply keeps_writeAccess

theorem keeps_execMailboxRead {z : State} {port : HPortId} {index : BitVec 16} {sub : BitVec 8} {offset : BitVec 16} {s : State} (hz : Keeps z s) :
    KeepsNext z (execMailboxRead port index sub offset s) := by
  dsimp only [execMailboxRead]
  repeat' first
    | with_reducible assumption
    | with_reducible apply keepsNext_next
    | with_reducible exact keepsNext_fault
    | with_reducible apply keeps_readAccess

theorem keeps_execMailboxWrite {z : State} {port : HPortId} {index : BitVec 16} {sub : BitVec 8} {data : List Byte} {s : State} (hz : Keeps z s) :
    KeepsNext z (execMailboxWrite port index sub data s) := by
  dsimp only [execMailboxWrite]
  repeat' first
    | with_reducible assumption
    | with_reducible apply keepsNext_next
    | with_reducible exact keepsNext_fault
    | with_reducible apply keeps_writeAccess

theorem keeps_mbMaRead {z s : State} {p ma n : Nat} (hz : Keeps z s) :
    Keeps z (mbMaRead s p ma n).1 := by
  dsimp only [mbMaRead]
  repeat' first
    | with_reducible assumption
    | with_reducible apply keeps_pair
    | with_reducible apply keeps_maLoad
    | (with_reducible refine of_fst ?_ (by assumption))
    | split

theorem keeps_mbMaWrite {z s : State} {p ma : Nat} {bs : List Byte} (hz : Keeps z s) :
    Keeps z (mbMaWrite s p ma bs).1 := by
  dsimp only [mbMaWrite]
  repeat' first
    | with_reducible assumption
    | with_reducible apply keeps_pair
    | with_reducible apply keeps_maStore
    | (with_reducible refine of_fst ?_ (by assumption))
    | split

theorem keeps_execMaRead {z : State} {port : HPortId} {ma : BitVec 64} {len : Nat} {s : State} (hz : Keeps z s) :
    KeepsNext z (execMaRead port ma len s) := by
  dsimp only [execMaRead]
  repeat' first
    | with_reducible assumption
    | with_reducible apply keepsNext_next
    | with_reducible exact keepsNext_fault
    | with_reducible apply keeps_holdAsk
    | with_reducible apply keeps_ask
    | with_reducible apply keeps_mbMaRead
    | with_reducible apply keeps_respond
    | (with_reducible refine of_fst ?_ (by assumption))
    | split

theorem keeps_execMaWrite {z : State} {port : HPortId} {ma : BitVec 64} {data : List Byte} {s : State} (hz : Keeps z s) :
    KeepsNext z (execMaWrite port ma data s) := by
  dsimp only [execMaWrite]
  repeat' first
    | with_reducible assumption
    | with_reducible apply keepsNext_next
    | with_reducible exact keepsNext_fault
    | with_reducible apply keeps_holdAsk
    | with_reducible apply keeps_ask
    | with_reducible apply keeps_mbMaWrite
    | with_reducible apply keeps_respond
    | (with_reducible refine of_fst ?_ (by assumption))
    | split

theorem keeps_execStoreAll {z : State} {path : Path} {data : List Byte} {s : State} (hz : Keeps z s) :
    KeepsNext z (execStoreAll path data s) := by
  dsimp only [execStoreAll]
  repeat' first
    | with_reducible assumption
    | with_reducible apply keepsNext_next
    | with_reducible exact keepsNext_fault
    | with_reducible apply keeps_writeAccess

theorem keeps_execRestoreAll {z : State} {path : Path} {data : List Byte} {s : State} (hz : Keeps z s) :
    KeepsNext z (execRestoreAll path data s) := by
  dsimp only [execRestoreAll]
  repeat' first
    | with_reducible assumption
    | with_reducible apply keepsNext_next
    | with_reducible exact keepsNext_fault
    | with_reducible apply keeps_writeAccess

theorem keeps_execFwImage {z : State} {path : Path} {offset : Nat} {data : List Byte} {s : State} (hz : Keeps z s) :
    KeepsNext z (execFwImage path offset data s) := by
  dsimp only [execFwImage]
  repeat' first
    | with_reducible assumption
    | with_reducible apply keepsNext_next
    | with_reducible exact keepsNext_fault
    | with_reducible apply keeps_writeAccess

theorem keeps_execFwActivate {z : State} {path : Path} {s : State} (hz : Keeps z s) :
    KeepsNext z (execFwActivate path s) := by
  dsimp only [execFwActivate]
  repeat' first
    | with_reducible assumption
    | with_reducible apply keepsNext_next
    | with_reducible exact keepsNext_fault
    | with_reducible apply keeps_writeAccess

theorem keeps_execFwDiscard {z : State} {path : Path} {s : State} (hz : Keeps z s) :
    KeepsNext z (execFwDiscard path s) := by
  dsimp only [execFwDiscard]
  repeat' first
    | with_reducible assumption
    | with_reducible apply keepsNext_next
    | with_reducible exact keepsNext_fault
    | with_reducible apply keeps_writeAccess

theorem keeps_execLevel {z : State} {path : Path} {data : List Byte} {s : State} (hz : Keeps z s) :
    KeepsNext z (execLevel path data s) := by
  dsimp only [execLevel]
  repeat' first
    | with_reducible assumption
    | with_reducible apply keepsNext_next
    | with_reducible exact keepsNext_fault
    | with_reducible apply keeps_writeAccess

theorem keeps_execRole {z : State} {path : Path} {port : HPortId} {data : List Byte} {s : State} (hz : Keeps z s) :
    KeepsNext z (execRole path port data s) := by
  dsimp only [execRole]
  repeat' first
    | with_reducible assumption
    | with_reducible apply keepsNext_next
    | with_reducible exact keepsNext_fault
    | with_reducible apply keeps_writeAccess

theorem keeps_execRevert {z : State} {path : Path} {data : List Byte} {s : State} (hz : Keeps z s) :
    KeepsNext z (execRevert path data s) := by
  dsimp only [execRevert]
  repeat' first
    | with_reducible assumption
    | with_reducible apply keepsNext_next
    | with_reducible exact keepsNext_fault
    | with_reducible apply keeps_writeAccess

theorem keeps_execArm {z : State} {path : Path} {data : List Byte} {s : State} (hz : Keeps z s) :
    KeepsNext z (execArm path data s) := by
  dsimp only [execArm]
  repeat' first
    | with_reducible assumption
    | with_reducible apply keepsNext_next
    | with_reducible exact keepsNext_fault
    | with_reducible apply keeps_writeAccess

theorem keeps_execModuleReset {z : State} {path : Path} {data : List Byte} {s : State} (hz : Keeps z s) :
    KeepsNext z (execModuleReset path data s) := by
  dsimp only [execModuleReset]
  repeat' first
    | with_reducible assumption
    | with_reducible apply keepsNext_next
    | with_reducible exact keepsNext_fault
    | with_reducible apply keeps_writeAccess

theorem keeps_execUnpinTo {z : State} {path : Path} {data : List Byte} {s : State} (hz : Keeps z s) :
    KeepsNext z (execUnpinTo path data s) := by
  dsimp only [execUnpinTo]
  repeat' first
    | with_reducible assumption
    | with_reducible apply keepsNext_next
    | with_reducible exact keepsNext_fault
    | with_reducible apply keeps_writeAccess

theorem keeps_execAlertClear {z : State} {path : Path} {data : List Byte} {s : State} (hz : Keeps z s) :
    KeepsNext z (execAlertClear path data s) := by
  dsimp only [execAlertClear]
  repeat' first
    | with_reducible assumption
    | with_reducible apply keepsNext_next
    | with_reducible exact keepsNext_fault
    | with_reducible apply keeps_writeAccess

theorem keeps_execRetrain {z : State} {path : Path} {port : SPortId} {data : List Byte} {s : State} (hz : Keeps z s) :
    KeepsNext z (execRetrain path port data s) := by
  dsimp only [execRetrain]
  repeat' first
    | with_reducible assumption
    | with_reducible apply keepsNext_next
    | with_reducible exact keepsNext_fault
    | with_reducible apply keeps_writeAccess

theorem keeps_execPortEnable {z : State} {path : Path} {port : SPortId} {data : List Byte} {s : State} (hz : Keeps z s) :
    KeepsNext z (execPortEnable path port data s) := by
  dsimp only [execPortEnable]
  repeat' first
    | with_reducible assumption
    | with_reducible apply keepsNext_next
    | with_reducible exact keepsNext_fault
    | with_reducible apply keeps_writeAccess

theorem keeps_execReservePerPly {z : State} {path : Path} {data : List Byte} {s : State} (hz : Keeps z s) :
    KeepsNext z (execReservePerPly path data s) := by
  dsimp only [execReservePerPly]
  repeat' first
    | with_reducible assumption
    | with_reducible apply keepsNext_next
    | with_reducible exact keepsNext_fault
    | with_reducible apply keeps_writeAccess

theorem keeps_execRingStateWrite {z : State} {path : Path} {ring : RingId} {data : List Byte} {s : State} (hz : Keeps z s) :
    KeepsNext z (execRingStateWrite path ring data s) := by
  dsimp only [execRingStateWrite]
  repeat' first
    | with_reducible assumption
    | with_reducible apply keepsNext_next
    | with_reducible exact keepsNext_fault
    | with_reducible apply keeps_writeAccess

theorem keeps_execSideshowHold {z : State} {path : Path} {data : List Byte} {s : State} (hz : Keeps z s) :
    KeepsNext z (execSideshowHold path data s) := by
  dsimp only [execSideshowHold]
  repeat' first
    | with_reducible assumption
    | with_reducible apply keepsNext_next
    | with_reducible exact keepsNext_fault
    | with_reducible apply keeps_writeAccess

theorem keeps_execSideshowHoldExpiry {z s : State} (hz : Keeps z s) :
    KeepsNext z (execSideshowHoldExpiry s) := by
  dsimp only [execSideshowHoldExpiry]
  repeat' first
    | with_reducible assumption
    | with_reducible apply keepsNext_next
    | with_reducible exact keepsNext_fault
    | with_reducible apply keeps_endHold
    | split

theorem keeps_mbServe {z s : State} {p : HPortId} (hz : Keeps z s) :
    Keeps z (mbServe s p) := by
  dsimp only [mbServe]
  repeat' first
    | with_reducible assumption
    | with_reducible apply keeps_respond
    | with_reducible apply keeps_mbMaWrite
    | with_reducible apply keeps_mbMaRead
    | with_reducible apply keeps_finishWrite
    | with_reducible apply keeps_dictWrite
    | with_reducible apply keeps_finishRead
    | with_reducible apply keepsExcept_ok
    | with_reducible exact keepsExcept_error
    | (with_reducible refine of_fst ?_ (by assumption))
    | (with_reducible refine of_except ?_ (by assumption))
    | split

theorem keeps_mbCommand {z s : State} {p : HPortId} {w : BitVec 64} (hz : Keeps z s) :
    Keeps z (mbCommand s p w) := by
  dsimp only [mbCommand]
  repeat' first
    | with_reducible assumption
    | intro _
    | with_reducible apply keeps_modHport
    | with_reducible apply keeps_mbServe
    | split
    | with_reducible apply keeps_mk

theorem keeps_serveBusy {z s : State} (hz : Keeps z s) :
    Keeps z (serveBusy s) := by
  dsimp only [serveBusy]
  repeat' first
    | with_reducible assumption
    | intro _
    | with_reducible apply keeps_mbServe
    | with_reducible apply keeps_foldl
    | split

theorem keeps_passTime {z s : State} (hz : Keeps z s) :
    Keeps z (passTime s) := by
  dsimp only [passTime]
  repeat' first
    | with_reducible assumption
    | with_reducible apply keeps_serveBusy
    | with_reducible apply keeps_mk

theorem keeps_bar0Write {z s : State} {p : HPortId} {off : Nat} {bs : List Byte} (hz : Keeps z s) :
    Keeps z (bar0Write s p off bs) := by
  dsimp only [bar0Write]
  repeat' first
    | with_reducible assumption
    | intro _
    | with_reducible apply keeps_modHport
    | with_reducible apply keeps_modHq
    | with_reducible apply keeps_sqDoorbell
    | with_reducible apply keeps_cqDoorbell
    | with_reducible apply keeps_mbCommand
    | with_reducible apply keeps_foldl
    | split
    | with_reducible apply keeps_mk

theorem keeps_execRegisterWrite {z : State} {t : RegTarget} {data : List Byte} {s : State} (hz : Keeps z s) :
    KeepsNext z (execRegisterWrite t data s) := by
  dsimp only [execRegisterWrite]
  repeat' first
    | with_reducible assumption
    | with_reducible apply keepsNext_next
    | with_reducible exact keepsNext_fault
    | with_reducible apply keeps_maStore
    | with_reducible apply keeps_bar0Write
    | with_reducible apply keeps_writeAccess
    | (with_reducible refine of_fst ?_ (by assumption))
    | split

end Sys2Proof.Laws
end

