-- ==== Sys2Proof/Laws/Scalar.lean ====
section
/-! SUPPORT. What the operations of Machine/Scalar.lean keep: queue, factory identity, canonical memories. -/

namespace Sys2Proof.Laws
open Sys2Proof Sys2Proof.Machine

theorem keeps_scalarOp {z s : State} {i : Nat} {w : BitVec 32} {ok : Bool} {run : State → State} (hz : Keeps z s) (hrun : ∀ s, Keeps z s → Keeps z (run s)) :
    Keeps z (scalarOp s i w ok run) := by
  dsimp only [scalarOp]
  repeat' first
    | with_reducible assumption
    | intro _
    | with_reducible apply hrun
    | with_reducible apply keeps_trapTile
    | with_reducible apply keeps_setTile
    | split

theorem keeps_scalarRd {z s : State} {i : Nat} {w : BitVec 32} {ok : Bool} {f : Tile → BitVec 64} (hz : Keeps z s) :
    Keeps z (scalarRd s i w ok f) := by
  dsimp only [scalarRd]
  repeat' first
    | with_reducible assumption
    | intro _
    | with_reducible apply keeps_scalarOp
    | with_reducible apply keeps_modTile

theorem keeps_execAlu {z : State} {site : SiteId} {w : BitVec 32} {s : State} (hz : Keeps z s) :
    KeepsNext z (execAlu site w s) := by
  dsimp only [execAlu]
  repeat' first
    | with_reducible assumption
    | intro _
    | with_reducible apply keepsNext_next
    | with_reducible exact keepsNext_fault
    | with_reducible apply keeps_scalarRd

theorem keeps_execAddi {z : State} {site : SiteId} {w : BitVec 32} {s : State} (hz : Keeps z s) :
    KeepsNext z (execAddi site w s) := by
  dsimp only [execAddi]
  repeat' first
    | with_reducible assumption
    | intro _
    | with_reducible apply keepsNext_next
    | with_reducible exact keepsNext_fault
    | with_reducible apply keeps_scalarRd

theorem keeps_execAndi {z : State} {site : SiteId} {w : BitVec 32} {s : State} (hz : Keeps z s) :
    KeepsNext z (execAndi site w s) := by
  dsimp only [execAndi]
  repeat' first
    | with_reducible assumption
    | intro _
    | with_reducible apply keepsNext_next
    | with_reducible exact keepsNext_fault
    | with_reducible apply keeps_scalarRd

theorem keeps_execOri {z : State} {site : SiteId} {w : BitVec 32} {s : State} (hz : Keeps z s) :
    KeepsNext z (execOri site w s) := by
  dsimp only [execOri]
  repeat' first
    | with_reducible assumption
    | intro _
    | with_reducible apply keepsNext_next
    | with_reducible exact keepsNext_fault
    | with_reducible apply keeps_scalarRd
    | split

theorem keeps_execXori {z : State} {site : SiteId} {w : BitVec 32} {s : State} (hz : Keeps z s) :
    KeepsNext z (execXori site w s) := by
  dsimp only [execXori]
  repeat' first
    | with_reducible assumption
    | intro _
    | with_reducible apply keepsNext_next
    | with_reducible exact keepsNext_fault
    | with_reducible apply keeps_scalarRd

theorem keeps_execShli {z : State} {site : SiteId} {w : BitVec 32} {s : State} (hz : Keeps z s) :
    KeepsNext z (execShli site w s) := by
  dsimp only [execShli]
  repeat' first
    | with_reducible assumption
    | intro _
    | with_reducible apply keepsNext_next
    | with_reducible exact keepsNext_fault
    | with_reducible apply keeps_scalarRd

theorem keeps_execShri {z : State} {site : SiteId} {w : BitVec 32} {s : State} (hz : Keeps z s) :
    KeepsNext z (execShri site w s) := by
  dsimp only [execShri]
  repeat' first
    | with_reducible assumption
    | intro _
    | with_reducible apply keepsNext_next
    | with_reducible exact keepsNext_fault
    | with_reducible apply keeps_scalarRd

theorem keeps_execSrai {z : State} {site : SiteId} {w : BitVec 32} {s : State} (hz : Keeps z s) :
    KeepsNext z (execSrai site w s) := by
  dsimp only [execSrai]
  repeat' first
    | with_reducible assumption
    | intro _
    | with_reducible apply keepsNext_next
    | with_reducible exact keepsNext_fault
    | with_reducible apply keeps_scalarRd

theorem keeps_execLui {z : State} {site : SiteId} {w : BitVec 32} {s : State} (hz : Keeps z s) :
    KeepsNext z (execLui site w s) := by
  dsimp only [execLui]
  repeat' first
    | with_reducible assumption
    | intro _
    | with_reducible apply keepsNext_next
    | with_reducible exact keepsNext_fault
    | with_reducible apply keeps_scalarRd

theorem keeps_execCmp {z : State} {site : SiteId} {w : BitVec 32} {s : State} (hz : Keeps z s) :
    KeepsNext z (execCmp site w s) := by
  dsimp only [execCmp]
  repeat' first
    | with_reducible assumption
    | intro _
    | with_reducible apply keepsNext_next
    | with_reducible exact keepsNext_fault
    | with_reducible apply keeps_scalarOp
    | with_reducible apply keeps_modTile

theorem keeps_execPlog {z : State} {site : SiteId} {w : BitVec 32} {s : State} (hz : Keeps z s) :
    KeepsNext z (execPlog site w s) := by
  dsimp only [execPlog]
  repeat' first
    | with_reducible assumption
    | intro _
    | with_reducible apply keepsNext_next
    | with_reducible exact keepsNext_fault
    | with_reducible apply keeps_scalarOp
    | with_reducible apply keeps_modTile

theorem keeps_takeSlot {z s : State} {i cc : Nat} (hz : Keeps z s) :
    Keeps z (takeSlot s i cc) := by
  dsimp only [takeSlot]
  repeat' first
    | with_reducible assumption
    | intro _
    | with_reducible apply keeps_modTile
    | with_reducible apply keeps_mk

theorem keeps_loadWord {z s : State} {i n cc : Nat} (hz : Keeps z s) :
    Keeps z (loadWord s i n cc).1 := by
  dsimp only [loadWord]
  repeat' first
    | with_reducible assumption
    | intro _
    | with_reducible apply keeps_pair
    | with_reducible apply keeps_readRowIn
    | with_reducible apply keeps_modTile
    | with_reducible apply keeps_failCheck
    | (with_reducible refine of_fst ?_ (by assumption))
    | split
    | with_reducible apply keeps_mk

theorem keeps_execLd {z : State} {site : SiteId} {x : NarrowOp} {s : State} (hz : Keeps z s) :
    KeepsNext z (execLd site x s) := by
  dsimp only [execLd]
  repeat' first
    | with_reducible assumption
    | intro _
    | with_reducible apply keepsNext_next
    | with_reducible exact keepsNext_fault
    | with_reducible apply keeps_scalarOp
    | with_reducible apply keeps_pruneAt
    | with_reducible apply keeps_trapTile
    | with_reducible apply keeps_loadWord
    | with_reducible apply keeps_modTile
    | with_reducible apply keeps_takeSlot
    | (with_reducible refine of_fst ?_ (by assumption))
    | split

theorem keeps_execSt {z : State} {site : SiteId} {x : NarrowOp} {s : State} (hz : Keeps z s) :
    KeepsNext z (execSt site x s) := by
  dsimp only [execSt]
  repeat' first
    | with_reducible assumption
    | intro _
    | with_reducible apply keepsNext_next
    | with_reducible exact keepsNext_fault
    | with_reducible apply keeps_scalarOp
    | with_reducible apply keeps_pruneAt
    | with_reducible apply keeps_trapTile
    | with_reducible apply keeps_modTile
    | with_reducible apply keeps_takeSlot
    | with_reducible apply keeps_writeWordAt
    | split

theorem keeps_execBr {z : State} {site : SiteId} {w : BitVec 32} {s : State} (hz : Keeps z s) :
    KeepsNext z (execBr site w s) := by
  dsimp only [execBr]
  repeat' first
    | with_reducible assumption
    | intro _
    | with_reducible apply keepsNext_next
    | with_reducible exact keepsNext_fault
    | with_reducible apply keeps_scalarOp
    | with_reducible apply keeps_modTile

theorem keeps_execJal {z : State} {site : SiteId} {w : BitVec 32} {s : State} (hz : Keeps z s) :
    KeepsNext z (execJal site w s) := by
  dsimp only [execJal]
  repeat' first
    | with_reducible assumption
    | intro _
    | with_reducible apply keepsNext_next
    | with_reducible exact keepsNext_fault
    | with_reducible apply keeps_scalarOp
    | with_reducible apply keeps_modTile

theorem keeps_execJr {z : State} {site : SiteId} {w : BitVec 32} {s : State} (hz : Keeps z s) :
    KeepsNext z (execJr site w s) := by
  dsimp only [execJr]
  repeat' first
    | with_reducible assumption
    | intro _
    | with_reducible apply keepsNext_next
    | with_reducible exact keepsNext_fault
    | with_reducible apply keeps_scalarOp
    | with_reducible apply keeps_modTile

theorem keeps_execScalarSend {z : State} {site : SiteId} {w : BitVec 32} {s : State} (hz : Keeps z s) :
    KeepsNext z (execScalarSend site w s) := by
  dsimp only [execScalarSend]
  repeat' first
    | with_reducible assumption
    | intro _
    | with_reducible apply keepsNext_next
    | with_reducible exact keepsNext_fault
    | with_reducible apply keeps_scalarOp
    | with_reducible apply keeps_trapTile
    | with_reducible apply keeps_chanSend
    | with_reducible apply keeps_clearWait
    | with_reducible apply keeps_modTile
    | with_reducible apply keeps_setWait
    | (with_reducible refine of_sent ?_ (by assumption))
    | (with_reducible refine of_closed ?_ (by assumption))
    | split

theorem keeps_execScalarRecv {z : State} {site : SiteId} {w : BitVec 32} {s : State} (hz : Keeps z s) :
    KeepsNext z (execScalarRecv site w s) := by
  dsimp only [execScalarRecv]
  repeat' first
    | with_reducible assumption
    | intro _
    | with_reducible apply keepsNext_next
    | with_reducible exact keepsNext_fault
    | with_reducible apply keeps_scalarOp
    | with_reducible apply keeps_trapTile
    | with_reducible apply keeps_chanRecv
    | with_reducible apply keeps_setWait
    | with_reducible apply keeps_clearWait
    | with_reducible apply keeps_modTile
    | with_reducible apply keepsOptFst_some
    | with_reducible exact keepsOptFst_none
    | with_reducible apply keeps_foldl
    | (with_reducible refine of_optFst ?_ (by assumption))
    | (with_reducible refine of_optPair ?_ (by assumption))
    | split

theorem keeps_execQlen {z : State} {site : SiteId} {w : BitVec 32} {s : State} (hz : Keeps z s) :
    KeepsNext z (execQlen site w s) := by
  dsimp only [execQlen]
  repeat' first
    | with_reducible assumption
    | intro _
    | with_reducible apply keepsNext_next
    | with_reducible exact keepsNext_fault
    | with_reducible apply keeps_scalarRd

theorem keeps_issueVerb {z s : State} {i : Nat} {v : BitVec 128} (hz : Keeps z s) :
    Keeps z (issueVerb s i v) := by
  dsimp only [issueVerb]
  repeat' first
    | with_reducible assumption
    | intro _
    | with_reducible apply keeps_trapTile
    | with_reducible apply keeps_setWait
    | with_reducible apply keeps_modTile
    | with_reducible apply keeps_clearWait
    | split
    | with_reducible apply keeps_mk

theorem keeps_execIssue {z : State} {site : SiteId} {w : BitVec 32} {s : State} (hz : Keeps z s) :
    KeepsNext z (execIssue site w s) := by
  dsimp only [execIssue]
  repeat' first
    | with_reducible assumption
    | intro _
    | with_reducible apply keepsNext_next
    | with_reducible exact keepsNext_fault
    | with_reducible apply keeps_scalarOp
    | with_reducible apply keeps_trapTile
    | with_reducible apply keeps_issueVerb
    | split

theorem keeps_execSbwait {z : State} {site : SiteId} {w : BitVec 32} {s : State} (hz : Keeps z s) :
    KeepsNext z (execSbwait site w s) := by
  dsimp only [execSbwait]
  repeat' first
    | with_reducible assumption
    | intro _
    | with_reducible apply keepsNext_next
    | with_reducible exact keepsNext_fault
    | with_reducible apply keeps_scalarOp
    | with_reducible apply keeps_modTile
    | split

theorem keeps_execRdreg {z : State} {site : SiteId} {w : BitVec 32} {s : State} (hz : Keeps z s) :
    KeepsNext z (execRdreg site w s) := by
  dsimp only [execRdreg]
  repeat' first
    | with_reducible assumption
    | intro _
    | with_reducible apply keepsNext_next
    | with_reducible exact keepsNext_fault
    | with_reducible apply keeps_scalarOp
    | with_reducible apply keeps_trapTile
    | with_reducible apply keeps_modTile
    | split

theorem keeps_execRdtime {z : State} {site : SiteId} {w : BitVec 32} {s : State} (hz : Keeps z s) :
    KeepsNext z (execRdtime site w s) := by
  dsimp only [execRdtime]
  repeat' first
    | with_reducible assumption
    | intro _
    | with_reducible apply keepsNext_next
    | with_reducible exact keepsNext_fault
    | with_reducible apply keeps_scalarRd

theorem keeps_execTrap {z : State} {site : SiteId} {w : BitVec 32} {s : State} (hz : Keeps z s) :
    KeepsNext z (execTrap site w s) := by
  dsimp only [execTrap]
  repeat' first
    | with_reducible assumption
    | intro _
    | with_reducible apply keepsNext_next
    | with_reducible exact keepsNext_fault
    | with_reducible apply keeps_scalarOp
    | with_reducible apply keeps_trapTile

theorem keeps_execEndCore {z : State} {site : SiteId} {w : BitVec 32} {s : State} (hz : Keeps z s) :
    KeepsNext z (execEndCore site w s) := by
  dsimp only [execEndCore]
  repeat' first
    | with_reducible assumption
    | intro _
    | with_reducible apply keepsNext_next
    | with_reducible exact keepsNext_fault
    | with_reducible apply keeps_scalarOp
    | with_reducible apply keeps_modTile
    | with_reducible apply keeps_mk

theorem keeps_execIllegalInstruction {z : State} {site : SiteId} {w : BitVec 32} {s : State} (hz : Keeps z s) :
    KeepsNext z (execIllegalInstruction site w s) := by
  dsimp only [execIllegalInstruction]
  repeat' first
    | with_reducible assumption
    | intro _
    | with_reducible apply keepsNext_next
    | with_reducible exact keepsNext_fault
    | with_reducible apply keeps_scalarOp

theorem keeps_scrubBack {z s : State} {i row : Nat} (hz : Keeps z s) :
    Keeps z (scrubBack s i row) := by
  dsimp only [scrubBack]
  repeat' first
    | with_reducible assumption
    | intro _
    | with_reducible apply keeps_modTile
    | split
    | with_reducible apply keeps_mk

theorem keeps_scrubPersist {z s : State} {i row : Nat} (hz : Keeps z s) :
    Keeps z (scrubPersist s i row) := by
  dsimp only [scrubPersist]
  repeat' first
    | with_reducible assumption
    | intro _
    | with_reducible apply keeps_modTile
    | with_reducible apply keeps_siteFails
    | with_reducible apply keeps_foldl
    | with_reducible apply keeps_mk

theorem keeps_scrubRead {z s : State} {i : Nat} (hz : Keeps z s) :
    Keeps z (scrubRead s i) := by
  dsimp only [scrubRead]
  repeat' first
    | with_reducible assumption
    | intro _
    | with_reducible apply keeps_modTile
    | with_reducible apply keeps_noteRead
    | with_reducible apply keeps_scrubPersist
    | with_reducible apply keeps_poisonLanes
    | split
    | with_reducible apply keeps_mk

theorem keeps_maSlot {z s : State} {i cc : Nat} (hz : Keeps z s) :
    KeepsOpt z (maSlot s i cc) := by
  dsimp only [maSlot]
  repeat' first
    | with_reducible assumption
    | intro _
    | with_reducible apply keepsOpt_some
    | with_reducible exact keepsOpt_none
    | with_reducible apply keeps_modTile
    | (with_reducible refine opt_eq ?_ (by assumption))
    | split
    | with_reducible apply keeps_mk

theorem keeps_narrowSlot {z s : State} {i cc : Nat} (hz : Keeps z s) :
    Keeps z (narrowSlot s i cc) := by
  dsimp only [narrowSlot]
  repeat' first
    | with_reducible assumption
    | with_reducible apply keeps_pruneAt
    | with_reducible apply keeps_maSlot
    | with_reducible apply keeps_takeSlot
    | with_reducible apply keeps_scrubBack
    | with_reducible apply keeps_scrubRead
    | with_reducible apply keepsOpt_some
    | with_reducible exact keepsOpt_none
    | (with_reducible refine of_opt ?_ (by assumption))
    | split

theorem keeps_execNarrowAccess {z : State} {site : SiteId} {cc : Nat} {s : State} (hz : Keeps z s) :
    KeepsNext z (execNarrowAccess site cc s) := by
  dsimp only [execNarrowAccess]
  repeat' first
    | with_reducible assumption
    | with_reducible apply keepsNext_next
    | with_reducible exact keepsNext_fault
    | with_reducible apply keeps_narrowSlot

end Sys2Proof.Laws
end

