-- ==== Sys2Proof/Laws/State.lean ====
section
/-! SUPPORT. What each named update of the state leaves as it was, one lemma a part, and what the parts' readers
answer after an update. -/

namespace Sys2Proof.Laws
open Sys2Proof Sys2Proof.Machine

variable (s : State)

/-! ### Parts that an update leaves as they were -/

@[simp] theorem setTile_pending (i : Nat) (x : Tile) : (setTile s i x).pending = s.pending := rfl
@[simp] theorem setTile_fused (i : Nat) (x : Tile) : (setTile s i x).fused = s.fused := rfl
@[simp] theorem setTile_time (i : Nat) (x : Tile) : (setTile s i x).time = s.time := rfl
@[simp] theorem setTile_pins (i : Nat) (x : Tile) : (setTile s i x).pins = s.pins := rfl
@[simp] theorem setTile_pwr (i : Nat) (x : Tile) : (setTile s i x).pwr = s.pwr := rfl
@[simp] theorem setTile_fields (i : Nat) (x : Tile) : (setTile s i x).fields = s.fields := rfl
@[simp] theorem setTile_rings (i : Nat) (x : Tile) : (setTile s i x).rings = s.rings := rfl
@[simp] theorem setTile_plies (i : Nat) (x : Tile) : (setTile s i x).plies = s.plies := rfl
@[simp] theorem setTile_farStacks (i : Nat) (x : Tile) : (setTile s i x).farStacks = s.farStacks := rfl
@[simp] theorem setTile_tens (i : Nat) (x : Tile) : (setTile s i x).tens = s.tens := rfl
@[simp] theorem setTile_hports (i : Nat) (x : Tile) : (setTile s i x).hports = s.hports := rfl
@[simp] theorem setTile_sports (i : Nat) (x : Tile) : (setTile s i x).sports = s.sports := rfl
@[simp] theorem setTile_box (i : Nat) (x : Tile) : (setTile s i x).box = s.box := rfl
@[simp] theorem setTile_can (i : Nat) (x : Tile) : (setTile s i x).can = s.can := rfl
@[simp] theorem setTile_net (i : Nat) (x : Tile) : (setTile s i x).net = s.net := rfl
@[simp] theorem setTile_agentReqs (i : Nat) (x : Tile) : (setTile s i x).agentReqs = s.agentReqs := rfl
@[simp] theorem setTile_reqSeq (i : Nat) (x : Tile) : (setTile s i x).reqSeq = s.reqSeq := rfl
@[simp] theorem setTile_agentSeq (i : Nat) (x : Tile) : (setTile s i x).agentSeq = s.agentSeq := rfl
@[simp] theorem setTile_agentTaken (i : Nat) (x : Tile) : (setTile s i x).agentTaken = s.agentTaken := rfl
@[simp] theorem setTile_agentPark (i : Nat) (x : Tile) : (setTile s i x).agentPark = s.agentPark := rfl
@[simp] theorem setTile_agentNack (i : Nat) (x : Tile) : (setTile s i x).agentNack = s.agentNack := rfl
@[simp] theorem setTile_agentOut (i : Nat) (x : Tile) : (setTile s i x).agentOut = s.agentOut := rfl
@[simp] theorem setTile_hbSeen (i : Nat) (x : Tile) : (setTile s i x).hbSeen = s.hbSeen := rfl
@[simp] theorem setTile_hbMissed (i : Nat) (x : Tile) : (setTile s i x).hbMissed = s.hbMissed := rfl
@[simp] theorem setTile_hbLost (i : Nat) (x : Tile) : (setTile s i x).hbLost = s.hbLost := rfl
@[simp] theorem setTile_mem (i : Nat) (x : Tile) : (setTile s i x).mem = s.mem := rfl
@[simp] theorem setTile_poison (i : Nat) (x : Tile) : (setTile s i x).poison = s.poison := rfl
@[simp] theorem setTile_latent (i : Nat) (x : Tile) : (setTile s i x).latent = s.latent := rfl
@[simp] theorem setTile_hostOut (i : Nat) (x : Tile) : (setTile s i x).hostOut = s.hostOut := rfl
@[simp] theorem setTile_regOut (i : Nat) (x : Tile) : (setTile s i x).regOut = s.regOut := rfl
@[simp] theorem setTile_regPoison (i : Nat) (x : Tile) : (setTile s i x).regPoison = s.regPoison := rfl
@[simp] theorem setTile_freeCtr (i : Nat) (x : Tile) : (setTile s i x).freeCtr = s.freeCtr := rfl

@[simp] theorem modTile_pending (i : Nat) (g : Tile → Tile) : (modTile s i g).pending = s.pending := rfl
@[simp] theorem modTile_fused (i : Nat) (g : Tile → Tile) : (modTile s i g).fused = s.fused := rfl
@[simp] theorem modTile_time (i : Nat) (g : Tile → Tile) : (modTile s i g).time = s.time := rfl
@[simp] theorem modTile_pins (i : Nat) (g : Tile → Tile) : (modTile s i g).pins = s.pins := rfl
@[simp] theorem modTile_pwr (i : Nat) (g : Tile → Tile) : (modTile s i g).pwr = s.pwr := rfl
@[simp] theorem modTile_fields (i : Nat) (g : Tile → Tile) : (modTile s i g).fields = s.fields := rfl
@[simp] theorem modTile_rings (i : Nat) (g : Tile → Tile) : (modTile s i g).rings = s.rings := rfl
@[simp] theorem modTile_plies (i : Nat) (g : Tile → Tile) : (modTile s i g).plies = s.plies := rfl
@[simp] theorem modTile_farStacks (i : Nat) (g : Tile → Tile) : (modTile s i g).farStacks = s.farStacks := rfl
@[simp] theorem modTile_tens (i : Nat) (g : Tile → Tile) : (modTile s i g).tens = s.tens := rfl
@[simp] theorem modTile_hports (i : Nat) (g : Tile → Tile) : (modTile s i g).hports = s.hports := rfl
@[simp] theorem modTile_sports (i : Nat) (g : Tile → Tile) : (modTile s i g).sports = s.sports := rfl
@[simp] theorem modTile_box (i : Nat) (g : Tile → Tile) : (modTile s i g).box = s.box := rfl
@[simp] theorem modTile_can (i : Nat) (g : Tile → Tile) : (modTile s i g).can = s.can := rfl
@[simp] theorem modTile_net (i : Nat) (g : Tile → Tile) : (modTile s i g).net = s.net := rfl
@[simp] theorem modTile_agentReqs (i : Nat) (g : Tile → Tile) : (modTile s i g).agentReqs = s.agentReqs := rfl
@[simp] theorem modTile_reqSeq (i : Nat) (g : Tile → Tile) : (modTile s i g).reqSeq = s.reqSeq := rfl
@[simp] theorem modTile_agentSeq (i : Nat) (g : Tile → Tile) : (modTile s i g).agentSeq = s.agentSeq := rfl
@[simp] theorem modTile_agentTaken (i : Nat) (g : Tile → Tile) : (modTile s i g).agentTaken = s.agentTaken := rfl
@[simp] theorem modTile_agentPark (i : Nat) (g : Tile → Tile) : (modTile s i g).agentPark = s.agentPark := rfl
@[simp] theorem modTile_agentNack (i : Nat) (g : Tile → Tile) : (modTile s i g).agentNack = s.agentNack := rfl
@[simp] theorem modTile_agentOut (i : Nat) (g : Tile → Tile) : (modTile s i g).agentOut = s.agentOut := rfl
@[simp] theorem modTile_hbSeen (i : Nat) (g : Tile → Tile) : (modTile s i g).hbSeen = s.hbSeen := rfl
@[simp] theorem modTile_hbMissed (i : Nat) (g : Tile → Tile) : (modTile s i g).hbMissed = s.hbMissed := rfl
@[simp] theorem modTile_hbLost (i : Nat) (g : Tile → Tile) : (modTile s i g).hbLost = s.hbLost := rfl
@[simp] theorem modTile_mem (i : Nat) (g : Tile → Tile) : (modTile s i g).mem = s.mem := rfl
@[simp] theorem modTile_poison (i : Nat) (g : Tile → Tile) : (modTile s i g).poison = s.poison := rfl
@[simp] theorem modTile_latent (i : Nat) (g : Tile → Tile) : (modTile s i g).latent = s.latent := rfl
@[simp] theorem modTile_hostOut (i : Nat) (g : Tile → Tile) : (modTile s i g).hostOut = s.hostOut := rfl
@[simp] theorem modTile_regOut (i : Nat) (g : Tile → Tile) : (modTile s i g).regOut = s.regOut := rfl
@[simp] theorem modTile_regPoison (i : Nat) (g : Tile → Tile) : (modTile s i g).regPoison = s.regPoison := rfl
@[simp] theorem modTile_freeCtr (i : Nat) (g : Tile → Tile) : (modTile s i g).freeCtr = s.freeCtr := rfl

@[simp] theorem setField_pending (i : Nat) (x : Field) : (setField s i x).pending = s.pending := rfl
@[simp] theorem setField_fused (i : Nat) (x : Field) : (setField s i x).fused = s.fused := rfl
@[simp] theorem setField_time (i : Nat) (x : Field) : (setField s i x).time = s.time := rfl
@[simp] theorem setField_pins (i : Nat) (x : Field) : (setField s i x).pins = s.pins := rfl
@[simp] theorem setField_pwr (i : Nat) (x : Field) : (setField s i x).pwr = s.pwr := rfl
@[simp] theorem setField_tiles (i : Nat) (x : Field) : (setField s i x).tiles = s.tiles := rfl
@[simp] theorem setField_rings (i : Nat) (x : Field) : (setField s i x).rings = s.rings := rfl
@[simp] theorem setField_plies (i : Nat) (x : Field) : (setField s i x).plies = s.plies := rfl
@[simp] theorem setField_farStacks (i : Nat) (x : Field) : (setField s i x).farStacks = s.farStacks := rfl
@[simp] theorem setField_tens (i : Nat) (x : Field) : (setField s i x).tens = s.tens := rfl
@[simp] theorem setField_hports (i : Nat) (x : Field) : (setField s i x).hports = s.hports := rfl
@[simp] theorem setField_sports (i : Nat) (x : Field) : (setField s i x).sports = s.sports := rfl
@[simp] theorem setField_box (i : Nat) (x : Field) : (setField s i x).box = s.box := rfl
@[simp] theorem setField_can (i : Nat) (x : Field) : (setField s i x).can = s.can := rfl
@[simp] theorem setField_net (i : Nat) (x : Field) : (setField s i x).net = s.net := rfl
@[simp] theorem setField_agentReqs (i : Nat) (x : Field) : (setField s i x).agentReqs = s.agentReqs := rfl
@[simp] theorem setField_reqSeq (i : Nat) (x : Field) : (setField s i x).reqSeq = s.reqSeq := rfl
@[simp] theorem setField_agentSeq (i : Nat) (x : Field) : (setField s i x).agentSeq = s.agentSeq := rfl
@[simp] theorem setField_agentTaken (i : Nat) (x : Field) : (setField s i x).agentTaken = s.agentTaken := rfl
@[simp] theorem setField_agentPark (i : Nat) (x : Field) : (setField s i x).agentPark = s.agentPark := rfl
@[simp] theorem setField_agentNack (i : Nat) (x : Field) : (setField s i x).agentNack = s.agentNack := rfl
@[simp] theorem setField_agentOut (i : Nat) (x : Field) : (setField s i x).agentOut = s.agentOut := rfl
@[simp] theorem setField_hbSeen (i : Nat) (x : Field) : (setField s i x).hbSeen = s.hbSeen := rfl
@[simp] theorem setField_hbMissed (i : Nat) (x : Field) : (setField s i x).hbMissed = s.hbMissed := rfl
@[simp] theorem setField_hbLost (i : Nat) (x : Field) : (setField s i x).hbLost = s.hbLost := rfl
@[simp] theorem setField_mem (i : Nat) (x : Field) : (setField s i x).mem = s.mem := rfl
@[simp] theorem setField_poison (i : Nat) (x : Field) : (setField s i x).poison = s.poison := rfl
@[simp] theorem setField_latent (i : Nat) (x : Field) : (setField s i x).latent = s.latent := rfl
@[simp] theorem setField_hostOut (i : Nat) (x : Field) : (setField s i x).hostOut = s.hostOut := rfl
@[simp] theorem setField_regOut (i : Nat) (x : Field) : (setField s i x).regOut = s.regOut := rfl
@[simp] theorem setField_regPoison (i : Nat) (x : Field) : (setField s i x).regPoison = s.regPoison := rfl
@[simp] theorem setField_freeCtr (i : Nat) (x : Field) : (setField s i x).freeCtr = s.freeCtr := rfl

@[simp] theorem modField_pending (i : Nat) (g : Field → Field) : (modField s i g).pending = s.pending := rfl
@[simp] theorem modField_fused (i : Nat) (g : Field → Field) : (modField s i g).fused = s.fused := rfl
@[simp] theorem modField_time (i : Nat) (g : Field → Field) : (modField s i g).time = s.time := rfl
@[simp] theorem modField_pins (i : Nat) (g : Field → Field) : (modField s i g).pins = s.pins := rfl
@[simp] theorem modField_pwr (i : Nat) (g : Field → Field) : (modField s i g).pwr = s.pwr := rfl
@[simp] theorem modField_tiles (i : Nat) (g : Field → Field) : (modField s i g).tiles = s.tiles := rfl
@[simp] theorem modField_rings (i : Nat) (g : Field → Field) : (modField s i g).rings = s.rings := rfl
@[simp] theorem modField_plies (i : Nat) (g : Field → Field) : (modField s i g).plies = s.plies := rfl
@[simp] theorem modField_farStacks (i : Nat) (g : Field → Field) : (modField s i g).farStacks = s.farStacks := rfl
@[simp] theorem modField_tens (i : Nat) (g : Field → Field) : (modField s i g).tens = s.tens := rfl
@[simp] theorem modField_hports (i : Nat) (g : Field → Field) : (modField s i g).hports = s.hports := rfl
@[simp] theorem modField_sports (i : Nat) (g : Field → Field) : (modField s i g).sports = s.sports := rfl
@[simp] theorem modField_box (i : Nat) (g : Field → Field) : (modField s i g).box = s.box := rfl
@[simp] theorem modField_can (i : Nat) (g : Field → Field) : (modField s i g).can = s.can := rfl
@[simp] theorem modField_net (i : Nat) (g : Field → Field) : (modField s i g).net = s.net := rfl
@[simp] theorem modField_agentReqs (i : Nat) (g : Field → Field) : (modField s i g).agentReqs = s.agentReqs := rfl
@[simp] theorem modField_reqSeq (i : Nat) (g : Field → Field) : (modField s i g).reqSeq = s.reqSeq := rfl
@[simp] theorem modField_agentSeq (i : Nat) (g : Field → Field) : (modField s i g).agentSeq = s.agentSeq := rfl
@[simp] theorem modField_agentTaken (i : Nat) (g : Field → Field) : (modField s i g).agentTaken = s.agentTaken := rfl
@[simp] theorem modField_agentPark (i : Nat) (g : Field → Field) : (modField s i g).agentPark = s.agentPark := rfl
@[simp] theorem modField_agentNack (i : Nat) (g : Field → Field) : (modField s i g).agentNack = s.agentNack := rfl
@[simp] theorem modField_agentOut (i : Nat) (g : Field → Field) : (modField s i g).agentOut = s.agentOut := rfl
@[simp] theorem modField_hbSeen (i : Nat) (g : Field → Field) : (modField s i g).hbSeen = s.hbSeen := rfl
@[simp] theorem modField_hbMissed (i : Nat) (g : Field → Field) : (modField s i g).hbMissed = s.hbMissed := rfl
@[simp] theorem modField_hbLost (i : Nat) (g : Field → Field) : (modField s i g).hbLost = s.hbLost := rfl
@[simp] theorem modField_mem (i : Nat) (g : Field → Field) : (modField s i g).mem = s.mem := rfl
@[simp] theorem modField_poison (i : Nat) (g : Field → Field) : (modField s i g).poison = s.poison := rfl
@[simp] theorem modField_latent (i : Nat) (g : Field → Field) : (modField s i g).latent = s.latent := rfl
@[simp] theorem modField_hostOut (i : Nat) (g : Field → Field) : (modField s i g).hostOut = s.hostOut := rfl
@[simp] theorem modField_regOut (i : Nat) (g : Field → Field) : (modField s i g).regOut = s.regOut := rfl
@[simp] theorem modField_regPoison (i : Nat) (g : Field → Field) : (modField s i g).regPoison = s.regPoison := rfl
@[simp] theorem modField_freeCtr (i : Nat) (g : Field → Field) : (modField s i g).freeCtr = s.freeCtr := rfl

@[simp] theorem setRing_pending (i : Nat) (x : Ring) : (setRing s i x).pending = s.pending := rfl
@[simp] theorem setRing_fused (i : Nat) (x : Ring) : (setRing s i x).fused = s.fused := rfl
@[simp] theorem setRing_time (i : Nat) (x : Ring) : (setRing s i x).time = s.time := rfl
@[simp] theorem setRing_pins (i : Nat) (x : Ring) : (setRing s i x).pins = s.pins := rfl
@[simp] theorem setRing_pwr (i : Nat) (x : Ring) : (setRing s i x).pwr = s.pwr := rfl
@[simp] theorem setRing_tiles (i : Nat) (x : Ring) : (setRing s i x).tiles = s.tiles := rfl
@[simp] theorem setRing_fields (i : Nat) (x : Ring) : (setRing s i x).fields = s.fields := rfl
@[simp] theorem setRing_plies (i : Nat) (x : Ring) : (setRing s i x).plies = s.plies := rfl
@[simp] theorem setRing_farStacks (i : Nat) (x : Ring) : (setRing s i x).farStacks = s.farStacks := rfl
@[simp] theorem setRing_tens (i : Nat) (x : Ring) : (setRing s i x).tens = s.tens := rfl
@[simp] theorem setRing_hports (i : Nat) (x : Ring) : (setRing s i x).hports = s.hports := rfl
@[simp] theorem setRing_sports (i : Nat) (x : Ring) : (setRing s i x).sports = s.sports := rfl
@[simp] theorem setRing_box (i : Nat) (x : Ring) : (setRing s i x).box = s.box := rfl
@[simp] theorem setRing_can (i : Nat) (x : Ring) : (setRing s i x).can = s.can := rfl
@[simp] theorem setRing_net (i : Nat) (x : Ring) : (setRing s i x).net = s.net := rfl
@[simp] theorem setRing_agentReqs (i : Nat) (x : Ring) : (setRing s i x).agentReqs = s.agentReqs := rfl
@[simp] theorem setRing_reqSeq (i : Nat) (x : Ring) : (setRing s i x).reqSeq = s.reqSeq := rfl
@[simp] theorem setRing_agentSeq (i : Nat) (x : Ring) : (setRing s i x).agentSeq = s.agentSeq := rfl
@[simp] theorem setRing_agentTaken (i : Nat) (x : Ring) : (setRing s i x).agentTaken = s.agentTaken := rfl
@[simp] theorem setRing_agentPark (i : Nat) (x : Ring) : (setRing s i x).agentPark = s.agentPark := rfl
@[simp] theorem setRing_agentNack (i : Nat) (x : Ring) : (setRing s i x).agentNack = s.agentNack := rfl
@[simp] theorem setRing_agentOut (i : Nat) (x : Ring) : (setRing s i x).agentOut = s.agentOut := rfl
@[simp] theorem setRing_hbSeen (i : Nat) (x : Ring) : (setRing s i x).hbSeen = s.hbSeen := rfl
@[simp] theorem setRing_hbMissed (i : Nat) (x : Ring) : (setRing s i x).hbMissed = s.hbMissed := rfl
@[simp] theorem setRing_hbLost (i : Nat) (x : Ring) : (setRing s i x).hbLost = s.hbLost := rfl
@[simp] theorem setRing_mem (i : Nat) (x : Ring) : (setRing s i x).mem = s.mem := rfl
@[simp] theorem setRing_poison (i : Nat) (x : Ring) : (setRing s i x).poison = s.poison := rfl
@[simp] theorem setRing_latent (i : Nat) (x : Ring) : (setRing s i x).latent = s.latent := rfl
@[simp] theorem setRing_hostOut (i : Nat) (x : Ring) : (setRing s i x).hostOut = s.hostOut := rfl
@[simp] theorem setRing_regOut (i : Nat) (x : Ring) : (setRing s i x).regOut = s.regOut := rfl
@[simp] theorem setRing_regPoison (i : Nat) (x : Ring) : (setRing s i x).regPoison = s.regPoison := rfl
@[simp] theorem setRing_freeCtr (i : Nat) (x : Ring) : (setRing s i x).freeCtr = s.freeCtr := rfl

@[simp] theorem modRing_pending (i : Nat) (g : Ring → Ring) : (modRing s i g).pending = s.pending := rfl
@[simp] theorem modRing_fused (i : Nat) (g : Ring → Ring) : (modRing s i g).fused = s.fused := rfl
@[simp] theorem modRing_time (i : Nat) (g : Ring → Ring) : (modRing s i g).time = s.time := rfl
@[simp] theorem modRing_pins (i : Nat) (g : Ring → Ring) : (modRing s i g).pins = s.pins := rfl
@[simp] theorem modRing_pwr (i : Nat) (g : Ring → Ring) : (modRing s i g).pwr = s.pwr := rfl
@[simp] theorem modRing_tiles (i : Nat) (g : Ring → Ring) : (modRing s i g).tiles = s.tiles := rfl
@[simp] theorem modRing_fields (i : Nat) (g : Ring → Ring) : (modRing s i g).fields = s.fields := rfl
@[simp] theorem modRing_plies (i : Nat) (g : Ring → Ring) : (modRing s i g).plies = s.plies := rfl
@[simp] theorem modRing_farStacks (i : Nat) (g : Ring → Ring) : (modRing s i g).farStacks = s.farStacks := rfl
@[simp] theorem modRing_tens (i : Nat) (g : Ring → Ring) : (modRing s i g).tens = s.tens := rfl
@[simp] theorem modRing_hports (i : Nat) (g : Ring → Ring) : (modRing s i g).hports = s.hports := rfl
@[simp] theorem modRing_sports (i : Nat) (g : Ring → Ring) : (modRing s i g).sports = s.sports := rfl
@[simp] theorem modRing_box (i : Nat) (g : Ring → Ring) : (modRing s i g).box = s.box := rfl
@[simp] theorem modRing_can (i : Nat) (g : Ring → Ring) : (modRing s i g).can = s.can := rfl
@[simp] theorem modRing_net (i : Nat) (g : Ring → Ring) : (modRing s i g).net = s.net := rfl
@[simp] theorem modRing_agentReqs (i : Nat) (g : Ring → Ring) : (modRing s i g).agentReqs = s.agentReqs := rfl
@[simp] theorem modRing_reqSeq (i : Nat) (g : Ring → Ring) : (modRing s i g).reqSeq = s.reqSeq := rfl
@[simp] theorem modRing_agentSeq (i : Nat) (g : Ring → Ring) : (modRing s i g).agentSeq = s.agentSeq := rfl
@[simp] theorem modRing_agentTaken (i : Nat) (g : Ring → Ring) : (modRing s i g).agentTaken = s.agentTaken := rfl
@[simp] theorem modRing_agentPark (i : Nat) (g : Ring → Ring) : (modRing s i g).agentPark = s.agentPark := rfl
@[simp] theorem modRing_agentNack (i : Nat) (g : Ring → Ring) : (modRing s i g).agentNack = s.agentNack := rfl
@[simp] theorem modRing_agentOut (i : Nat) (g : Ring → Ring) : (modRing s i g).agentOut = s.agentOut := rfl
@[simp] theorem modRing_hbSeen (i : Nat) (g : Ring → Ring) : (modRing s i g).hbSeen = s.hbSeen := rfl
@[simp] theorem modRing_hbMissed (i : Nat) (g : Ring → Ring) : (modRing s i g).hbMissed = s.hbMissed := rfl
@[simp] theorem modRing_hbLost (i : Nat) (g : Ring → Ring) : (modRing s i g).hbLost = s.hbLost := rfl
@[simp] theorem modRing_mem (i : Nat) (g : Ring → Ring) : (modRing s i g).mem = s.mem := rfl
@[simp] theorem modRing_poison (i : Nat) (g : Ring → Ring) : (modRing s i g).poison = s.poison := rfl
@[simp] theorem modRing_latent (i : Nat) (g : Ring → Ring) : (modRing s i g).latent = s.latent := rfl
@[simp] theorem modRing_hostOut (i : Nat) (g : Ring → Ring) : (modRing s i g).hostOut = s.hostOut := rfl
@[simp] theorem modRing_regOut (i : Nat) (g : Ring → Ring) : (modRing s i g).regOut = s.regOut := rfl
@[simp] theorem modRing_regPoison (i : Nat) (g : Ring → Ring) : (modRing s i g).regPoison = s.regPoison := rfl
@[simp] theorem modRing_freeCtr (i : Nat) (g : Ring → Ring) : (modRing s i g).freeCtr = s.freeCtr := rfl

@[simp] theorem setPly_pending (i : Nat) (x : Ply) : (setPly s i x).pending = s.pending := rfl
@[simp] theorem setPly_fused (i : Nat) (x : Ply) : (setPly s i x).fused = s.fused := rfl
@[simp] theorem setPly_time (i : Nat) (x : Ply) : (setPly s i x).time = s.time := rfl
@[simp] theorem setPly_pins (i : Nat) (x : Ply) : (setPly s i x).pins = s.pins := rfl
@[simp] theorem setPly_pwr (i : Nat) (x : Ply) : (setPly s i x).pwr = s.pwr := rfl
@[simp] theorem setPly_tiles (i : Nat) (x : Ply) : (setPly s i x).tiles = s.tiles := rfl
@[simp] theorem setPly_fields (i : Nat) (x : Ply) : (setPly s i x).fields = s.fields := rfl
@[simp] theorem setPly_rings (i : Nat) (x : Ply) : (setPly s i x).rings = s.rings := rfl
@[simp] theorem setPly_farStacks (i : Nat) (x : Ply) : (setPly s i x).farStacks = s.farStacks := rfl
@[simp] theorem setPly_tens (i : Nat) (x : Ply) : (setPly s i x).tens = s.tens := rfl
@[simp] theorem setPly_hports (i : Nat) (x : Ply) : (setPly s i x).hports = s.hports := rfl
@[simp] theorem setPly_sports (i : Nat) (x : Ply) : (setPly s i x).sports = s.sports := rfl
@[simp] theorem setPly_box (i : Nat) (x : Ply) : (setPly s i x).box = s.box := rfl
@[simp] theorem setPly_can (i : Nat) (x : Ply) : (setPly s i x).can = s.can := rfl
@[simp] theorem setPly_net (i : Nat) (x : Ply) : (setPly s i x).net = s.net := rfl
@[simp] theorem setPly_agentReqs (i : Nat) (x : Ply) : (setPly s i x).agentReqs = s.agentReqs := rfl
@[simp] theorem setPly_reqSeq (i : Nat) (x : Ply) : (setPly s i x).reqSeq = s.reqSeq := rfl
@[simp] theorem setPly_agentSeq (i : Nat) (x : Ply) : (setPly s i x).agentSeq = s.agentSeq := rfl
@[simp] theorem setPly_agentTaken (i : Nat) (x : Ply) : (setPly s i x).agentTaken = s.agentTaken := rfl
@[simp] theorem setPly_agentPark (i : Nat) (x : Ply) : (setPly s i x).agentPark = s.agentPark := rfl
@[simp] theorem setPly_agentNack (i : Nat) (x : Ply) : (setPly s i x).agentNack = s.agentNack := rfl
@[simp] theorem setPly_agentOut (i : Nat) (x : Ply) : (setPly s i x).agentOut = s.agentOut := rfl
@[simp] theorem setPly_hbSeen (i : Nat) (x : Ply) : (setPly s i x).hbSeen = s.hbSeen := rfl
@[simp] theorem setPly_hbMissed (i : Nat) (x : Ply) : (setPly s i x).hbMissed = s.hbMissed := rfl
@[simp] theorem setPly_hbLost (i : Nat) (x : Ply) : (setPly s i x).hbLost = s.hbLost := rfl
@[simp] theorem setPly_mem (i : Nat) (x : Ply) : (setPly s i x).mem = s.mem := rfl
@[simp] theorem setPly_poison (i : Nat) (x : Ply) : (setPly s i x).poison = s.poison := rfl
@[simp] theorem setPly_latent (i : Nat) (x : Ply) : (setPly s i x).latent = s.latent := rfl
@[simp] theorem setPly_hostOut (i : Nat) (x : Ply) : (setPly s i x).hostOut = s.hostOut := rfl
@[simp] theorem setPly_regOut (i : Nat) (x : Ply) : (setPly s i x).regOut = s.regOut := rfl
@[simp] theorem setPly_regPoison (i : Nat) (x : Ply) : (setPly s i x).regPoison = s.regPoison := rfl
@[simp] theorem setPly_freeCtr (i : Nat) (x : Ply) : (setPly s i x).freeCtr = s.freeCtr := rfl

@[simp] theorem modPly_pending (i : Nat) (g : Ply → Ply) : (modPly s i g).pending = s.pending := rfl
@[simp] theorem modPly_fused (i : Nat) (g : Ply → Ply) : (modPly s i g).fused = s.fused := rfl
@[simp] theorem modPly_time (i : Nat) (g : Ply → Ply) : (modPly s i g).time = s.time := rfl
@[simp] theorem modPly_pins (i : Nat) (g : Ply → Ply) : (modPly s i g).pins = s.pins := rfl
@[simp] theorem modPly_pwr (i : Nat) (g : Ply → Ply) : (modPly s i g).pwr = s.pwr := rfl
@[simp] theorem modPly_tiles (i : Nat) (g : Ply → Ply) : (modPly s i g).tiles = s.tiles := rfl
@[simp] theorem modPly_fields (i : Nat) (g : Ply → Ply) : (modPly s i g).fields = s.fields := rfl
@[simp] theorem modPly_rings (i : Nat) (g : Ply → Ply) : (modPly s i g).rings = s.rings := rfl
@[simp] theorem modPly_farStacks (i : Nat) (g : Ply → Ply) : (modPly s i g).farStacks = s.farStacks := rfl
@[simp] theorem modPly_tens (i : Nat) (g : Ply → Ply) : (modPly s i g).tens = s.tens := rfl
@[simp] theorem modPly_hports (i : Nat) (g : Ply → Ply) : (modPly s i g).hports = s.hports := rfl
@[simp] theorem modPly_sports (i : Nat) (g : Ply → Ply) : (modPly s i g).sports = s.sports := rfl
@[simp] theorem modPly_box (i : Nat) (g : Ply → Ply) : (modPly s i g).box = s.box := rfl
@[simp] theorem modPly_can (i : Nat) (g : Ply → Ply) : (modPly s i g).can = s.can := rfl
@[simp] theorem modPly_net (i : Nat) (g : Ply → Ply) : (modPly s i g).net = s.net := rfl
@[simp] theorem modPly_agentReqs (i : Nat) (g : Ply → Ply) : (modPly s i g).agentReqs = s.agentReqs := rfl
@[simp] theorem modPly_reqSeq (i : Nat) (g : Ply → Ply) : (modPly s i g).reqSeq = s.reqSeq := rfl
@[simp] theorem modPly_agentSeq (i : Nat) (g : Ply → Ply) : (modPly s i g).agentSeq = s.agentSeq := rfl
@[simp] theorem modPly_agentTaken (i : Nat) (g : Ply → Ply) : (modPly s i g).agentTaken = s.agentTaken := rfl
@[simp] theorem modPly_agentPark (i : Nat) (g : Ply → Ply) : (modPly s i g).agentPark = s.agentPark := rfl
@[simp] theorem modPly_agentNack (i : Nat) (g : Ply → Ply) : (modPly s i g).agentNack = s.agentNack := rfl
@[simp] theorem modPly_agentOut (i : Nat) (g : Ply → Ply) : (modPly s i g).agentOut = s.agentOut := rfl
@[simp] theorem modPly_hbSeen (i : Nat) (g : Ply → Ply) : (modPly s i g).hbSeen = s.hbSeen := rfl
@[simp] theorem modPly_hbMissed (i : Nat) (g : Ply → Ply) : (modPly s i g).hbMissed = s.hbMissed := rfl
@[simp] theorem modPly_hbLost (i : Nat) (g : Ply → Ply) : (modPly s i g).hbLost = s.hbLost := rfl
@[simp] theorem modPly_mem (i : Nat) (g : Ply → Ply) : (modPly s i g).mem = s.mem := rfl
@[simp] theorem modPly_poison (i : Nat) (g : Ply → Ply) : (modPly s i g).poison = s.poison := rfl
@[simp] theorem modPly_latent (i : Nat) (g : Ply → Ply) : (modPly s i g).latent = s.latent := rfl
@[simp] theorem modPly_hostOut (i : Nat) (g : Ply → Ply) : (modPly s i g).hostOut = s.hostOut := rfl
@[simp] theorem modPly_regOut (i : Nat) (g : Ply → Ply) : (modPly s i g).regOut = s.regOut := rfl
@[simp] theorem modPly_regPoison (i : Nat) (g : Ply → Ply) : (modPly s i g).regPoison = s.regPoison := rfl
@[simp] theorem modPly_freeCtr (i : Nat) (g : Ply → Ply) : (modPly s i g).freeCtr = s.freeCtr := rfl

@[simp] theorem setStack_pending (i : Nat) (x : Stack) : (setStack s i x).pending = s.pending := rfl
@[simp] theorem setStack_fused (i : Nat) (x : Stack) : (setStack s i x).fused = s.fused := rfl
@[simp] theorem setStack_time (i : Nat) (x : Stack) : (setStack s i x).time = s.time := rfl
@[simp] theorem setStack_pins (i : Nat) (x : Stack) : (setStack s i x).pins = s.pins := rfl
@[simp] theorem setStack_pwr (i : Nat) (x : Stack) : (setStack s i x).pwr = s.pwr := rfl
@[simp] theorem setStack_tiles (i : Nat) (x : Stack) : (setStack s i x).tiles = s.tiles := rfl
@[simp] theorem setStack_fields (i : Nat) (x : Stack) : (setStack s i x).fields = s.fields := rfl
@[simp] theorem setStack_rings (i : Nat) (x : Stack) : (setStack s i x).rings = s.rings := rfl
@[simp] theorem setStack_plies (i : Nat) (x : Stack) : (setStack s i x).plies = s.plies := rfl
@[simp] theorem setStack_tens (i : Nat) (x : Stack) : (setStack s i x).tens = s.tens := rfl
@[simp] theorem setStack_hports (i : Nat) (x : Stack) : (setStack s i x).hports = s.hports := rfl
@[simp] theorem setStack_sports (i : Nat) (x : Stack) : (setStack s i x).sports = s.sports := rfl
@[simp] theorem setStack_box (i : Nat) (x : Stack) : (setStack s i x).box = s.box := rfl
@[simp] theorem setStack_can (i : Nat) (x : Stack) : (setStack s i x).can = s.can := rfl
@[simp] theorem setStack_net (i : Nat) (x : Stack) : (setStack s i x).net = s.net := rfl
@[simp] theorem setStack_agentReqs (i : Nat) (x : Stack) : (setStack s i x).agentReqs = s.agentReqs := rfl
@[simp] theorem setStack_reqSeq (i : Nat) (x : Stack) : (setStack s i x).reqSeq = s.reqSeq := rfl
@[simp] theorem setStack_agentSeq (i : Nat) (x : Stack) : (setStack s i x).agentSeq = s.agentSeq := rfl
@[simp] theorem setStack_agentTaken (i : Nat) (x : Stack) : (setStack s i x).agentTaken = s.agentTaken := rfl
@[simp] theorem setStack_agentPark (i : Nat) (x : Stack) : (setStack s i x).agentPark = s.agentPark := rfl
@[simp] theorem setStack_agentNack (i : Nat) (x : Stack) : (setStack s i x).agentNack = s.agentNack := rfl
@[simp] theorem setStack_agentOut (i : Nat) (x : Stack) : (setStack s i x).agentOut = s.agentOut := rfl
@[simp] theorem setStack_hbSeen (i : Nat) (x : Stack) : (setStack s i x).hbSeen = s.hbSeen := rfl
@[simp] theorem setStack_hbMissed (i : Nat) (x : Stack) : (setStack s i x).hbMissed = s.hbMissed := rfl
@[simp] theorem setStack_hbLost (i : Nat) (x : Stack) : (setStack s i x).hbLost = s.hbLost := rfl
@[simp] theorem setStack_mem (i : Nat) (x : Stack) : (setStack s i x).mem = s.mem := rfl
@[simp] theorem setStack_poison (i : Nat) (x : Stack) : (setStack s i x).poison = s.poison := rfl
@[simp] theorem setStack_latent (i : Nat) (x : Stack) : (setStack s i x).latent = s.latent := rfl
@[simp] theorem setStack_hostOut (i : Nat) (x : Stack) : (setStack s i x).hostOut = s.hostOut := rfl
@[simp] theorem setStack_regOut (i : Nat) (x : Stack) : (setStack s i x).regOut = s.regOut := rfl
@[simp] theorem setStack_regPoison (i : Nat) (x : Stack) : (setStack s i x).regPoison = s.regPoison := rfl
@[simp] theorem setStack_freeCtr (i : Nat) (x : Stack) : (setStack s i x).freeCtr = s.freeCtr := rfl

@[simp] theorem modStack_pending (i : Nat) (g : Stack → Stack) : (modStack s i g).pending = s.pending := rfl
@[simp] theorem modStack_fused (i : Nat) (g : Stack → Stack) : (modStack s i g).fused = s.fused := rfl
@[simp] theorem modStack_time (i : Nat) (g : Stack → Stack) : (modStack s i g).time = s.time := rfl
@[simp] theorem modStack_pins (i : Nat) (g : Stack → Stack) : (modStack s i g).pins = s.pins := rfl
@[simp] theorem modStack_pwr (i : Nat) (g : Stack → Stack) : (modStack s i g).pwr = s.pwr := rfl
@[simp] theorem modStack_tiles (i : Nat) (g : Stack → Stack) : (modStack s i g).tiles = s.tiles := rfl
@[simp] theorem modStack_fields (i : Nat) (g : Stack → Stack) : (modStack s i g).fields = s.fields := rfl
@[simp] theorem modStack_rings (i : Nat) (g : Stack → Stack) : (modStack s i g).rings = s.rings := rfl
@[simp] theorem modStack_plies (i : Nat) (g : Stack → Stack) : (modStack s i g).plies = s.plies := rfl
@[simp] theorem modStack_tens (i : Nat) (g : Stack → Stack) : (modStack s i g).tens = s.tens := rfl
@[simp] theorem modStack_hports (i : Nat) (g : Stack → Stack) : (modStack s i g).hports = s.hports := rfl
@[simp] theorem modStack_sports (i : Nat) (g : Stack → Stack) : (modStack s i g).sports = s.sports := rfl
@[simp] theorem modStack_box (i : Nat) (g : Stack → Stack) : (modStack s i g).box = s.box := rfl
@[simp] theorem modStack_can (i : Nat) (g : Stack → Stack) : (modStack s i g).can = s.can := rfl
@[simp] theorem modStack_net (i : Nat) (g : Stack → Stack) : (modStack s i g).net = s.net := rfl
@[simp] theorem modStack_agentReqs (i : Nat) (g : Stack → Stack) : (modStack s i g).agentReqs = s.agentReqs := rfl
@[simp] theorem modStack_reqSeq (i : Nat) (g : Stack → Stack) : (modStack s i g).reqSeq = s.reqSeq := rfl
@[simp] theorem modStack_agentSeq (i : Nat) (g : Stack → Stack) : (modStack s i g).agentSeq = s.agentSeq := rfl
@[simp] theorem modStack_agentTaken (i : Nat) (g : Stack → Stack) : (modStack s i g).agentTaken = s.agentTaken := rfl
@[simp] theorem modStack_agentPark (i : Nat) (g : Stack → Stack) : (modStack s i g).agentPark = s.agentPark := rfl
@[simp] theorem modStack_agentNack (i : Nat) (g : Stack → Stack) : (modStack s i g).agentNack = s.agentNack := rfl
@[simp] theorem modStack_agentOut (i : Nat) (g : Stack → Stack) : (modStack s i g).agentOut = s.agentOut := rfl
@[simp] theorem modStack_hbSeen (i : Nat) (g : Stack → Stack) : (modStack s i g).hbSeen = s.hbSeen := rfl
@[simp] theorem modStack_hbMissed (i : Nat) (g : Stack → Stack) : (modStack s i g).hbMissed = s.hbMissed := rfl
@[simp] theorem modStack_hbLost (i : Nat) (g : Stack → Stack) : (modStack s i g).hbLost = s.hbLost := rfl
@[simp] theorem modStack_mem (i : Nat) (g : Stack → Stack) : (modStack s i g).mem = s.mem := rfl
@[simp] theorem modStack_poison (i : Nat) (g : Stack → Stack) : (modStack s i g).poison = s.poison := rfl
@[simp] theorem modStack_latent (i : Nat) (g : Stack → Stack) : (modStack s i g).latent = s.latent := rfl
@[simp] theorem modStack_hostOut (i : Nat) (g : Stack → Stack) : (modStack s i g).hostOut = s.hostOut := rfl
@[simp] theorem modStack_regOut (i : Nat) (g : Stack → Stack) : (modStack s i g).regOut = s.regOut := rfl
@[simp] theorem modStack_regPoison (i : Nat) (g : Stack → Stack) : (modStack s i g).regPoison = s.regPoison := rfl
@[simp] theorem modStack_freeCtr (i : Nat) (g : Stack → Stack) : (modStack s i g).freeCtr = s.freeCtr := rfl

@[simp] theorem setTen_pending (i : Nat) (x : Tenancy) : (setTen s i x).pending = s.pending := rfl
@[simp] theorem setTen_fused (i : Nat) (x : Tenancy) : (setTen s i x).fused = s.fused := rfl
@[simp] theorem setTen_time (i : Nat) (x : Tenancy) : (setTen s i x).time = s.time := rfl
@[simp] theorem setTen_pins (i : Nat) (x : Tenancy) : (setTen s i x).pins = s.pins := rfl
@[simp] theorem setTen_pwr (i : Nat) (x : Tenancy) : (setTen s i x).pwr = s.pwr := rfl
@[simp] theorem setTen_tiles (i : Nat) (x : Tenancy) : (setTen s i x).tiles = s.tiles := rfl
@[simp] theorem setTen_fields (i : Nat) (x : Tenancy) : (setTen s i x).fields = s.fields := rfl
@[simp] theorem setTen_rings (i : Nat) (x : Tenancy) : (setTen s i x).rings = s.rings := rfl
@[simp] theorem setTen_plies (i : Nat) (x : Tenancy) : (setTen s i x).plies = s.plies := rfl
@[simp] theorem setTen_farStacks (i : Nat) (x : Tenancy) : (setTen s i x).farStacks = s.farStacks := rfl
@[simp] theorem setTen_hports (i : Nat) (x : Tenancy) : (setTen s i x).hports = s.hports := rfl
@[simp] theorem setTen_sports (i : Nat) (x : Tenancy) : (setTen s i x).sports = s.sports := rfl
@[simp] theorem setTen_box (i : Nat) (x : Tenancy) : (setTen s i x).box = s.box := rfl
@[simp] theorem setTen_can (i : Nat) (x : Tenancy) : (setTen s i x).can = s.can := rfl
@[simp] theorem setTen_net (i : Nat) (x : Tenancy) : (setTen s i x).net = s.net := rfl
@[simp] theorem setTen_agentReqs (i : Nat) (x : Tenancy) : (setTen s i x).agentReqs = s.agentReqs := rfl
@[simp] theorem setTen_reqSeq (i : Nat) (x : Tenancy) : (setTen s i x).reqSeq = s.reqSeq := rfl
@[simp] theorem setTen_agentSeq (i : Nat) (x : Tenancy) : (setTen s i x).agentSeq = s.agentSeq := rfl
@[simp] theorem setTen_agentTaken (i : Nat) (x : Tenancy) : (setTen s i x).agentTaken = s.agentTaken := rfl
@[simp] theorem setTen_agentPark (i : Nat) (x : Tenancy) : (setTen s i x).agentPark = s.agentPark := rfl
@[simp] theorem setTen_agentNack (i : Nat) (x : Tenancy) : (setTen s i x).agentNack = s.agentNack := rfl
@[simp] theorem setTen_agentOut (i : Nat) (x : Tenancy) : (setTen s i x).agentOut = s.agentOut := rfl
@[simp] theorem setTen_hbSeen (i : Nat) (x : Tenancy) : (setTen s i x).hbSeen = s.hbSeen := rfl
@[simp] theorem setTen_hbMissed (i : Nat) (x : Tenancy) : (setTen s i x).hbMissed = s.hbMissed := rfl
@[simp] theorem setTen_hbLost (i : Nat) (x : Tenancy) : (setTen s i x).hbLost = s.hbLost := rfl
@[simp] theorem setTen_mem (i : Nat) (x : Tenancy) : (setTen s i x).mem = s.mem := rfl
@[simp] theorem setTen_poison (i : Nat) (x : Tenancy) : (setTen s i x).poison = s.poison := rfl
@[simp] theorem setTen_latent (i : Nat) (x : Tenancy) : (setTen s i x).latent = s.latent := rfl
@[simp] theorem setTen_hostOut (i : Nat) (x : Tenancy) : (setTen s i x).hostOut = s.hostOut := rfl
@[simp] theorem setTen_regOut (i : Nat) (x : Tenancy) : (setTen s i x).regOut = s.regOut := rfl
@[simp] theorem setTen_regPoison (i : Nat) (x : Tenancy) : (setTen s i x).regPoison = s.regPoison := rfl
@[simp] theorem setTen_freeCtr (i : Nat) (x : Tenancy) : (setTen s i x).freeCtr = s.freeCtr := rfl

@[simp] theorem modTen_pending (i : Nat) (g : Tenancy → Tenancy) : (modTen s i g).pending = s.pending := rfl
@[simp] theorem modTen_fused (i : Nat) (g : Tenancy → Tenancy) : (modTen s i g).fused = s.fused := rfl
@[simp] theorem modTen_time (i : Nat) (g : Tenancy → Tenancy) : (modTen s i g).time = s.time := rfl
@[simp] theorem modTen_pins (i : Nat) (g : Tenancy → Tenancy) : (modTen s i g).pins = s.pins := rfl
@[simp] theorem modTen_pwr (i : Nat) (g : Tenancy → Tenancy) : (modTen s i g).pwr = s.pwr := rfl
@[simp] theorem modTen_tiles (i : Nat) (g : Tenancy → Tenancy) : (modTen s i g).tiles = s.tiles := rfl
@[simp] theorem modTen_fields (i : Nat) (g : Tenancy → Tenancy) : (modTen s i g).fields = s.fields := rfl
@[simp] theorem modTen_rings (i : Nat) (g : Tenancy → Tenancy) : (modTen s i g).rings = s.rings := rfl
@[simp] theorem modTen_plies (i : Nat) (g : Tenancy → Tenancy) : (modTen s i g).plies = s.plies := rfl
@[simp] theorem modTen_farStacks (i : Nat) (g : Tenancy → Tenancy) : (modTen s i g).farStacks = s.farStacks := rfl
@[simp] theorem modTen_hports (i : Nat) (g : Tenancy → Tenancy) : (modTen s i g).hports = s.hports := rfl
@[simp] theorem modTen_sports (i : Nat) (g : Tenancy → Tenancy) : (modTen s i g).sports = s.sports := rfl
@[simp] theorem modTen_box (i : Nat) (g : Tenancy → Tenancy) : (modTen s i g).box = s.box := rfl
@[simp] theorem modTen_can (i : Nat) (g : Tenancy → Tenancy) : (modTen s i g).can = s.can := rfl
@[simp] theorem modTen_net (i : Nat) (g : Tenancy → Tenancy) : (modTen s i g).net = s.net := rfl
@[simp] theorem modTen_agentReqs (i : Nat) (g : Tenancy → Tenancy) : (modTen s i g).agentReqs = s.agentReqs := rfl
@[simp] theorem modTen_reqSeq (i : Nat) (g : Tenancy → Tenancy) : (modTen s i g).reqSeq = s.reqSeq := rfl
@[simp] theorem modTen_agentSeq (i : Nat) (g : Tenancy → Tenancy) : (modTen s i g).agentSeq = s.agentSeq := rfl
@[simp] theorem modTen_agentTaken (i : Nat) (g : Tenancy → Tenancy) : (modTen s i g).agentTaken = s.agentTaken := rfl
@[simp] theorem modTen_agentPark (i : Nat) (g : Tenancy → Tenancy) : (modTen s i g).agentPark = s.agentPark := rfl
@[simp] theorem modTen_agentNack (i : Nat) (g : Tenancy → Tenancy) : (modTen s i g).agentNack = s.agentNack := rfl
@[simp] theorem modTen_agentOut (i : Nat) (g : Tenancy → Tenancy) : (modTen s i g).agentOut = s.agentOut := rfl
@[simp] theorem modTen_hbSeen (i : Nat) (g : Tenancy → Tenancy) : (modTen s i g).hbSeen = s.hbSeen := rfl
@[simp] theorem modTen_hbMissed (i : Nat) (g : Tenancy → Tenancy) : (modTen s i g).hbMissed = s.hbMissed := rfl
@[simp] theorem modTen_hbLost (i : Nat) (g : Tenancy → Tenancy) : (modTen s i g).hbLost = s.hbLost := rfl
@[simp] theorem modTen_mem (i : Nat) (g : Tenancy → Tenancy) : (modTen s i g).mem = s.mem := rfl
@[simp] theorem modTen_poison (i : Nat) (g : Tenancy → Tenancy) : (modTen s i g).poison = s.poison := rfl
@[simp] theorem modTen_latent (i : Nat) (g : Tenancy → Tenancy) : (modTen s i g).latent = s.latent := rfl
@[simp] theorem modTen_hostOut (i : Nat) (g : Tenancy → Tenancy) : (modTen s i g).hostOut = s.hostOut := rfl
@[simp] theorem modTen_regOut (i : Nat) (g : Tenancy → Tenancy) : (modTen s i g).regOut = s.regOut := rfl
@[simp] theorem modTen_regPoison (i : Nat) (g : Tenancy → Tenancy) : (modTen s i g).regPoison = s.regPoison := rfl
@[simp] theorem modTen_freeCtr (i : Nat) (g : Tenancy → Tenancy) : (modTen s i g).freeCtr = s.freeCtr := rfl

@[simp] theorem setHport_pending (i : Nat) (x : HPort) : (setHport s i x).pending = s.pending := rfl
@[simp] theorem setHport_fused (i : Nat) (x : HPort) : (setHport s i x).fused = s.fused := rfl
@[simp] theorem setHport_time (i : Nat) (x : HPort) : (setHport s i x).time = s.time := rfl
@[simp] theorem setHport_pins (i : Nat) (x : HPort) : (setHport s i x).pins = s.pins := rfl
@[simp] theorem setHport_pwr (i : Nat) (x : HPort) : (setHport s i x).pwr = s.pwr := rfl
@[simp] theorem setHport_tiles (i : Nat) (x : HPort) : (setHport s i x).tiles = s.tiles := rfl
@[simp] theorem setHport_fields (i : Nat) (x : HPort) : (setHport s i x).fields = s.fields := rfl
@[simp] theorem setHport_rings (i : Nat) (x : HPort) : (setHport s i x).rings = s.rings := rfl
@[simp] theorem setHport_plies (i : Nat) (x : HPort) : (setHport s i x).plies = s.plies := rfl
@[simp] theorem setHport_farStacks (i : Nat) (x : HPort) : (setHport s i x).farStacks = s.farStacks := rfl
@[simp] theorem setHport_tens (i : Nat) (x : HPort) : (setHport s i x).tens = s.tens := rfl
@[simp] theorem setHport_sports (i : Nat) (x : HPort) : (setHport s i x).sports = s.sports := rfl
@[simp] theorem setHport_box (i : Nat) (x : HPort) : (setHport s i x).box = s.box := rfl
@[simp] theorem setHport_can (i : Nat) (x : HPort) : (setHport s i x).can = s.can := rfl
@[simp] theorem setHport_net (i : Nat) (x : HPort) : (setHport s i x).net = s.net := rfl
@[simp] theorem setHport_agentReqs (i : Nat) (x : HPort) : (setHport s i x).agentReqs = s.agentReqs := rfl
@[simp] theorem setHport_reqSeq (i : Nat) (x : HPort) : (setHport s i x).reqSeq = s.reqSeq := rfl
@[simp] theorem setHport_agentSeq (i : Nat) (x : HPort) : (setHport s i x).agentSeq = s.agentSeq := rfl
@[simp] theorem setHport_agentTaken (i : Nat) (x : HPort) : (setHport s i x).agentTaken = s.agentTaken := rfl
@[simp] theorem setHport_agentPark (i : Nat) (x : HPort) : (setHport s i x).agentPark = s.agentPark := rfl
@[simp] theorem setHport_agentNack (i : Nat) (x : HPort) : (setHport s i x).agentNack = s.agentNack := rfl
@[simp] theorem setHport_agentOut (i : Nat) (x : HPort) : (setHport s i x).agentOut = s.agentOut := rfl
@[simp] theorem setHport_hbSeen (i : Nat) (x : HPort) : (setHport s i x).hbSeen = s.hbSeen := rfl
@[simp] theorem setHport_hbMissed (i : Nat) (x : HPort) : (setHport s i x).hbMissed = s.hbMissed := rfl
@[simp] theorem setHport_hbLost (i : Nat) (x : HPort) : (setHport s i x).hbLost = s.hbLost := rfl
@[simp] theorem setHport_mem (i : Nat) (x : HPort) : (setHport s i x).mem = s.mem := rfl
@[simp] theorem setHport_poison (i : Nat) (x : HPort) : (setHport s i x).poison = s.poison := rfl
@[simp] theorem setHport_latent (i : Nat) (x : HPort) : (setHport s i x).latent = s.latent := rfl
@[simp] theorem setHport_hostOut (i : Nat) (x : HPort) : (setHport s i x).hostOut = s.hostOut := rfl
@[simp] theorem setHport_regOut (i : Nat) (x : HPort) : (setHport s i x).regOut = s.regOut := rfl
@[simp] theorem setHport_regPoison (i : Nat) (x : HPort) : (setHport s i x).regPoison = s.regPoison := rfl
@[simp] theorem setHport_freeCtr (i : Nat) (x : HPort) : (setHport s i x).freeCtr = s.freeCtr := rfl

@[simp] theorem modHport_pending (i : Nat) (g : HPort → HPort) : (modHport s i g).pending = s.pending := rfl
@[simp] theorem modHport_fused (i : Nat) (g : HPort → HPort) : (modHport s i g).fused = s.fused := rfl
@[simp] theorem modHport_time (i : Nat) (g : HPort → HPort) : (modHport s i g).time = s.time := rfl
@[simp] theorem modHport_pins (i : Nat) (g : HPort → HPort) : (modHport s i g).pins = s.pins := rfl
@[simp] theorem modHport_pwr (i : Nat) (g : HPort → HPort) : (modHport s i g).pwr = s.pwr := rfl
@[simp] theorem modHport_tiles (i : Nat) (g : HPort → HPort) : (modHport s i g).tiles = s.tiles := rfl
@[simp] theorem modHport_fields (i : Nat) (g : HPort → HPort) : (modHport s i g).fields = s.fields := rfl
@[simp] theorem modHport_rings (i : Nat) (g : HPort → HPort) : (modHport s i g).rings = s.rings := rfl
@[simp] theorem modHport_plies (i : Nat) (g : HPort → HPort) : (modHport s i g).plies = s.plies := rfl
@[simp] theorem modHport_farStacks (i : Nat) (g : HPort → HPort) : (modHport s i g).farStacks = s.farStacks := rfl
@[simp] theorem modHport_tens (i : Nat) (g : HPort → HPort) : (modHport s i g).tens = s.tens := rfl
@[simp] theorem modHport_sports (i : Nat) (g : HPort → HPort) : (modHport s i g).sports = s.sports := rfl
@[simp] theorem modHport_box (i : Nat) (g : HPort → HPort) : (modHport s i g).box = s.box := rfl
@[simp] theorem modHport_can (i : Nat) (g : HPort → HPort) : (modHport s i g).can = s.can := rfl
@[simp] theorem modHport_net (i : Nat) (g : HPort → HPort) : (modHport s i g).net = s.net := rfl
@[simp] theorem modHport_agentReqs (i : Nat) (g : HPort → HPort) : (modHport s i g).agentReqs = s.agentReqs := rfl
@[simp] theorem modHport_reqSeq (i : Nat) (g : HPort → HPort) : (modHport s i g).reqSeq = s.reqSeq := rfl
@[simp] theorem modHport_agentSeq (i : Nat) (g : HPort → HPort) : (modHport s i g).agentSeq = s.agentSeq := rfl
@[simp] theorem modHport_agentTaken (i : Nat) (g : HPort → HPort) : (modHport s i g).agentTaken = s.agentTaken := rfl
@[simp] theorem modHport_agentPark (i : Nat) (g : HPort → HPort) : (modHport s i g).agentPark = s.agentPark := rfl
@[simp] theorem modHport_agentNack (i : Nat) (g : HPort → HPort) : (modHport s i g).agentNack = s.agentNack := rfl
@[simp] theorem modHport_agentOut (i : Nat) (g : HPort → HPort) : (modHport s i g).agentOut = s.agentOut := rfl
@[simp] theorem modHport_hbSeen (i : Nat) (g : HPort → HPort) : (modHport s i g).hbSeen = s.hbSeen := rfl
@[simp] theorem modHport_hbMissed (i : Nat) (g : HPort → HPort) : (modHport s i g).hbMissed = s.hbMissed := rfl
@[simp] theorem modHport_hbLost (i : Nat) (g : HPort → HPort) : (modHport s i g).hbLost = s.hbLost := rfl
@[simp] theorem modHport_mem (i : Nat) (g : HPort → HPort) : (modHport s i g).mem = s.mem := rfl
@[simp] theorem modHport_poison (i : Nat) (g : HPort → HPort) : (modHport s i g).poison = s.poison := rfl
@[simp] theorem modHport_latent (i : Nat) (g : HPort → HPort) : (modHport s i g).latent = s.latent := rfl
@[simp] theorem modHport_hostOut (i : Nat) (g : HPort → HPort) : (modHport s i g).hostOut = s.hostOut := rfl
@[simp] theorem modHport_regOut (i : Nat) (g : HPort → HPort) : (modHport s i g).regOut = s.regOut := rfl
@[simp] theorem modHport_regPoison (i : Nat) (g : HPort → HPort) : (modHport s i g).regPoison = s.regPoison := rfl
@[simp] theorem modHport_freeCtr (i : Nat) (g : HPort → HPort) : (modHport s i g).freeCtr = s.freeCtr := rfl

@[simp] theorem setSport_pending (i : Nat) (x : SPort) : (setSport s i x).pending = s.pending := rfl
@[simp] theorem setSport_fused (i : Nat) (x : SPort) : (setSport s i x).fused = s.fused := rfl
@[simp] theorem setSport_time (i : Nat) (x : SPort) : (setSport s i x).time = s.time := rfl
@[simp] theorem setSport_pins (i : Nat) (x : SPort) : (setSport s i x).pins = s.pins := rfl
@[simp] theorem setSport_pwr (i : Nat) (x : SPort) : (setSport s i x).pwr = s.pwr := rfl
@[simp] theorem setSport_tiles (i : Nat) (x : SPort) : (setSport s i x).tiles = s.tiles := rfl
@[simp] theorem setSport_fields (i : Nat) (x : SPort) : (setSport s i x).fields = s.fields := rfl
@[simp] theorem setSport_rings (i : Nat) (x : SPort) : (setSport s i x).rings = s.rings := rfl
@[simp] theorem setSport_plies (i : Nat) (x : SPort) : (setSport s i x).plies = s.plies := rfl
@[simp] theorem setSport_farStacks (i : Nat) (x : SPort) : (setSport s i x).farStacks = s.farStacks := rfl
@[simp] theorem setSport_tens (i : Nat) (x : SPort) : (setSport s i x).tens = s.tens := rfl
@[simp] theorem setSport_hports (i : Nat) (x : SPort) : (setSport s i x).hports = s.hports := rfl
@[simp] theorem setSport_box (i : Nat) (x : SPort) : (setSport s i x).box = s.box := rfl
@[simp] theorem setSport_can (i : Nat) (x : SPort) : (setSport s i x).can = s.can := rfl
@[simp] theorem setSport_net (i : Nat) (x : SPort) : (setSport s i x).net = s.net := rfl
@[simp] theorem setSport_agentReqs (i : Nat) (x : SPort) : (setSport s i x).agentReqs = s.agentReqs := rfl
@[simp] theorem setSport_reqSeq (i : Nat) (x : SPort) : (setSport s i x).reqSeq = s.reqSeq := rfl
@[simp] theorem setSport_agentSeq (i : Nat) (x : SPort) : (setSport s i x).agentSeq = s.agentSeq := rfl
@[simp] theorem setSport_agentTaken (i : Nat) (x : SPort) : (setSport s i x).agentTaken = s.agentTaken := rfl
@[simp] theorem setSport_agentPark (i : Nat) (x : SPort) : (setSport s i x).agentPark = s.agentPark := rfl
@[simp] theorem setSport_agentNack (i : Nat) (x : SPort) : (setSport s i x).agentNack = s.agentNack := rfl
@[simp] theorem setSport_agentOut (i : Nat) (x : SPort) : (setSport s i x).agentOut = s.agentOut := rfl
@[simp] theorem setSport_hbSeen (i : Nat) (x : SPort) : (setSport s i x).hbSeen = s.hbSeen := rfl
@[simp] theorem setSport_hbMissed (i : Nat) (x : SPort) : (setSport s i x).hbMissed = s.hbMissed := rfl
@[simp] theorem setSport_hbLost (i : Nat) (x : SPort) : (setSport s i x).hbLost = s.hbLost := rfl
@[simp] theorem setSport_mem (i : Nat) (x : SPort) : (setSport s i x).mem = s.mem := rfl
@[simp] theorem setSport_poison (i : Nat) (x : SPort) : (setSport s i x).poison = s.poison := rfl
@[simp] theorem setSport_latent (i : Nat) (x : SPort) : (setSport s i x).latent = s.latent := rfl
@[simp] theorem setSport_hostOut (i : Nat) (x : SPort) : (setSport s i x).hostOut = s.hostOut := rfl
@[simp] theorem setSport_regOut (i : Nat) (x : SPort) : (setSport s i x).regOut = s.regOut := rfl
@[simp] theorem setSport_regPoison (i : Nat) (x : SPort) : (setSport s i x).regPoison = s.regPoison := rfl
@[simp] theorem setSport_freeCtr (i : Nat) (x : SPort) : (setSport s i x).freeCtr = s.freeCtr := rfl

@[simp] theorem modSport_pending (i : Nat) (g : SPort → SPort) : (modSport s i g).pending = s.pending := rfl
@[simp] theorem modSport_fused (i : Nat) (g : SPort → SPort) : (modSport s i g).fused = s.fused := rfl
@[simp] theorem modSport_time (i : Nat) (g : SPort → SPort) : (modSport s i g).time = s.time := rfl
@[simp] theorem modSport_pins (i : Nat) (g : SPort → SPort) : (modSport s i g).pins = s.pins := rfl
@[simp] theorem modSport_pwr (i : Nat) (g : SPort → SPort) : (modSport s i g).pwr = s.pwr := rfl
@[simp] theorem modSport_tiles (i : Nat) (g : SPort → SPort) : (modSport s i g).tiles = s.tiles := rfl
@[simp] theorem modSport_fields (i : Nat) (g : SPort → SPort) : (modSport s i g).fields = s.fields := rfl
@[simp] theorem modSport_rings (i : Nat) (g : SPort → SPort) : (modSport s i g).rings = s.rings := rfl
@[simp] theorem modSport_plies (i : Nat) (g : SPort → SPort) : (modSport s i g).plies = s.plies := rfl
@[simp] theorem modSport_farStacks (i : Nat) (g : SPort → SPort) : (modSport s i g).farStacks = s.farStacks := rfl
@[simp] theorem modSport_tens (i : Nat) (g : SPort → SPort) : (modSport s i g).tens = s.tens := rfl
@[simp] theorem modSport_hports (i : Nat) (g : SPort → SPort) : (modSport s i g).hports = s.hports := rfl
@[simp] theorem modSport_box (i : Nat) (g : SPort → SPort) : (modSport s i g).box = s.box := rfl
@[simp] theorem modSport_can (i : Nat) (g : SPort → SPort) : (modSport s i g).can = s.can := rfl
@[simp] theorem modSport_net (i : Nat) (g : SPort → SPort) : (modSport s i g).net = s.net := rfl
@[simp] theorem modSport_agentReqs (i : Nat) (g : SPort → SPort) : (modSport s i g).agentReqs = s.agentReqs := rfl
@[simp] theorem modSport_reqSeq (i : Nat) (g : SPort → SPort) : (modSport s i g).reqSeq = s.reqSeq := rfl
@[simp] theorem modSport_agentSeq (i : Nat) (g : SPort → SPort) : (modSport s i g).agentSeq = s.agentSeq := rfl
@[simp] theorem modSport_agentTaken (i : Nat) (g : SPort → SPort) : (modSport s i g).agentTaken = s.agentTaken := rfl
@[simp] theorem modSport_agentPark (i : Nat) (g : SPort → SPort) : (modSport s i g).agentPark = s.agentPark := rfl
@[simp] theorem modSport_agentNack (i : Nat) (g : SPort → SPort) : (modSport s i g).agentNack = s.agentNack := rfl
@[simp] theorem modSport_agentOut (i : Nat) (g : SPort → SPort) : (modSport s i g).agentOut = s.agentOut := rfl
@[simp] theorem modSport_hbSeen (i : Nat) (g : SPort → SPort) : (modSport s i g).hbSeen = s.hbSeen := rfl
@[simp] theorem modSport_hbMissed (i : Nat) (g : SPort → SPort) : (modSport s i g).hbMissed = s.hbMissed := rfl
@[simp] theorem modSport_hbLost (i : Nat) (g : SPort → SPort) : (modSport s i g).hbLost = s.hbLost := rfl
@[simp] theorem modSport_mem (i : Nat) (g : SPort → SPort) : (modSport s i g).mem = s.mem := rfl
@[simp] theorem modSport_poison (i : Nat) (g : SPort → SPort) : (modSport s i g).poison = s.poison := rfl
@[simp] theorem modSport_latent (i : Nat) (g : SPort → SPort) : (modSport s i g).latent = s.latent := rfl
@[simp] theorem modSport_hostOut (i : Nat) (g : SPort → SPort) : (modSport s i g).hostOut = s.hostOut := rfl
@[simp] theorem modSport_regOut (i : Nat) (g : SPort → SPort) : (modSport s i g).regOut = s.regOut := rfl
@[simp] theorem modSport_regPoison (i : Nat) (g : SPort → SPort) : (modSport s i g).regPoison = s.regPoison := rfl
@[simp] theorem modSport_freeCtr (i : Nat) (g : SPort → SPort) : (modSport s i g).freeCtr = s.freeCtr := rfl

@[simp] theorem modNearCh_pending (f c : Nat) (g : NearCh → NearCh) : (modNearCh s f c g).pending = s.pending := rfl
@[simp] theorem modNearCh_fused (f c : Nat) (g : NearCh → NearCh) : (modNearCh s f c g).fused = s.fused := rfl
@[simp] theorem modNearCh_time (f c : Nat) (g : NearCh → NearCh) : (modNearCh s f c g).time = s.time := rfl
@[simp] theorem modNearCh_pins (f c : Nat) (g : NearCh → NearCh) : (modNearCh s f c g).pins = s.pins := rfl
@[simp] theorem modNearCh_pwr (f c : Nat) (g : NearCh → NearCh) : (modNearCh s f c g).pwr = s.pwr := rfl
@[simp] theorem modNearCh_tiles (f c : Nat) (g : NearCh → NearCh) : (modNearCh s f c g).tiles = s.tiles := rfl
@[simp] theorem modNearCh_rings (f c : Nat) (g : NearCh → NearCh) : (modNearCh s f c g).rings = s.rings := rfl
@[simp] theorem modNearCh_plies (f c : Nat) (g : NearCh → NearCh) : (modNearCh s f c g).plies = s.plies := rfl
@[simp] theorem modNearCh_farStacks (f c : Nat) (g : NearCh → NearCh) : (modNearCh s f c g).farStacks = s.farStacks := rfl
@[simp] theorem modNearCh_tens (f c : Nat) (g : NearCh → NearCh) : (modNearCh s f c g).tens = s.tens := rfl
@[simp] theorem modNearCh_hports (f c : Nat) (g : NearCh → NearCh) : (modNearCh s f c g).hports = s.hports := rfl
@[simp] theorem modNearCh_sports (f c : Nat) (g : NearCh → NearCh) : (modNearCh s f c g).sports = s.sports := rfl
@[simp] theorem modNearCh_box (f c : Nat) (g : NearCh → NearCh) : (modNearCh s f c g).box = s.box := rfl
@[simp] theorem modNearCh_can (f c : Nat) (g : NearCh → NearCh) : (modNearCh s f c g).can = s.can := rfl
@[simp] theorem modNearCh_net (f c : Nat) (g : NearCh → NearCh) : (modNearCh s f c g).net = s.net := rfl
@[simp] theorem modNearCh_agentReqs (f c : Nat) (g : NearCh → NearCh) : (modNearCh s f c g).agentReqs = s.agentReqs := rfl
@[simp] theorem modNearCh_reqSeq (f c : Nat) (g : NearCh → NearCh) : (modNearCh s f c g).reqSeq = s.reqSeq := rfl
@[simp] theorem modNearCh_agentSeq (f c : Nat) (g : NearCh → NearCh) : (modNearCh s f c g).agentSeq = s.agentSeq := rfl
@[simp] theorem modNearCh_agentTaken (f c : Nat) (g : NearCh → NearCh) : (modNearCh s f c g).agentTaken = s.agentTaken := rfl
@[simp] theorem modNearCh_agentPark (f c : Nat) (g : NearCh → NearCh) : (modNearCh s f c g).agentPark = s.agentPark := rfl
@[simp] theorem modNearCh_agentNack (f c : Nat) (g : NearCh → NearCh) : (modNearCh s f c g).agentNack = s.agentNack := rfl
@[simp] theorem modNearCh_agentOut (f c : Nat) (g : NearCh → NearCh) : (modNearCh s f c g).agentOut = s.agentOut := rfl
@[simp] theorem modNearCh_hbSeen (f c : Nat) (g : NearCh → NearCh) : (modNearCh s f c g).hbSeen = s.hbSeen := rfl
@[simp] theorem modNearCh_hbMissed (f c : Nat) (g : NearCh → NearCh) : (modNearCh s f c g).hbMissed = s.hbMissed := rfl
@[simp] theorem modNearCh_hbLost (f c : Nat) (g : NearCh → NearCh) : (modNearCh s f c g).hbLost = s.hbLost := rfl
@[simp] theorem modNearCh_mem (f c : Nat) (g : NearCh → NearCh) : (modNearCh s f c g).mem = s.mem := rfl
@[simp] theorem modNearCh_poison (f c : Nat) (g : NearCh → NearCh) : (modNearCh s f c g).poison = s.poison := rfl
@[simp] theorem modNearCh_latent (f c : Nat) (g : NearCh → NearCh) : (modNearCh s f c g).latent = s.latent := rfl
@[simp] theorem modNearCh_hostOut (f c : Nat) (g : NearCh → NearCh) : (modNearCh s f c g).hostOut = s.hostOut := rfl
@[simp] theorem modNearCh_regOut (f c : Nat) (g : NearCh → NearCh) : (modNearCh s f c g).regOut = s.regOut := rfl
@[simp] theorem modNearCh_regPoison (f c : Nat) (g : NearCh → NearCh) : (modNearCh s f c g).regPoison = s.regPoison := rfl
@[simp] theorem modNearCh_freeCtr (f c : Nat) (g : NearCh → NearCh) : (modNearCh s f c g).freeCtr = s.freeCtr := rfl

@[simp] theorem modRun_pending (n : Nat) (g : Run → Run) : (modRun s n g).pending = s.pending := rfl
@[simp] theorem modRun_fused (n : Nat) (g : Run → Run) : (modRun s n g).fused = s.fused := rfl
@[simp] theorem modRun_time (n : Nat) (g : Run → Run) : (modRun s n g).time = s.time := rfl
@[simp] theorem modRun_pins (n : Nat) (g : Run → Run) : (modRun s n g).pins = s.pins := rfl
@[simp] theorem modRun_pwr (n : Nat) (g : Run → Run) : (modRun s n g).pwr = s.pwr := rfl
@[simp] theorem modRun_tiles (n : Nat) (g : Run → Run) : (modRun s n g).tiles = s.tiles := rfl
@[simp] theorem modRun_fields (n : Nat) (g : Run → Run) : (modRun s n g).fields = s.fields := rfl
@[simp] theorem modRun_rings (n : Nat) (g : Run → Run) : (modRun s n g).rings = s.rings := rfl
@[simp] theorem modRun_plies (n : Nat) (g : Run → Run) : (modRun s n g).plies = s.plies := rfl
@[simp] theorem modRun_farStacks (n : Nat) (g : Run → Run) : (modRun s n g).farStacks = s.farStacks := rfl
@[simp] theorem modRun_hports (n : Nat) (g : Run → Run) : (modRun s n g).hports = s.hports := rfl
@[simp] theorem modRun_sports (n : Nat) (g : Run → Run) : (modRun s n g).sports = s.sports := rfl
@[simp] theorem modRun_box (n : Nat) (g : Run → Run) : (modRun s n g).box = s.box := rfl
@[simp] theorem modRun_can (n : Nat) (g : Run → Run) : (modRun s n g).can = s.can := rfl
@[simp] theorem modRun_net (n : Nat) (g : Run → Run) : (modRun s n g).net = s.net := rfl
@[simp] theorem modRun_agentReqs (n : Nat) (g : Run → Run) : (modRun s n g).agentReqs = s.agentReqs := rfl
@[simp] theorem modRun_reqSeq (n : Nat) (g : Run → Run) : (modRun s n g).reqSeq = s.reqSeq := rfl
@[simp] theorem modRun_agentSeq (n : Nat) (g : Run → Run) : (modRun s n g).agentSeq = s.agentSeq := rfl
@[simp] theorem modRun_agentTaken (n : Nat) (g : Run → Run) : (modRun s n g).agentTaken = s.agentTaken := rfl
@[simp] theorem modRun_agentPark (n : Nat) (g : Run → Run) : (modRun s n g).agentPark = s.agentPark := rfl
@[simp] theorem modRun_agentNack (n : Nat) (g : Run → Run) : (modRun s n g).agentNack = s.agentNack := rfl
@[simp] theorem modRun_agentOut (n : Nat) (g : Run → Run) : (modRun s n g).agentOut = s.agentOut := rfl
@[simp] theorem modRun_hbSeen (n : Nat) (g : Run → Run) : (modRun s n g).hbSeen = s.hbSeen := rfl
@[simp] theorem modRun_hbMissed (n : Nat) (g : Run → Run) : (modRun s n g).hbMissed = s.hbMissed := rfl
@[simp] theorem modRun_hbLost (n : Nat) (g : Run → Run) : (modRun s n g).hbLost = s.hbLost := rfl
@[simp] theorem modRun_mem (n : Nat) (g : Run → Run) : (modRun s n g).mem = s.mem := rfl
@[simp] theorem modRun_poison (n : Nat) (g : Run → Run) : (modRun s n g).poison = s.poison := rfl
@[simp] theorem modRun_latent (n : Nat) (g : Run → Run) : (modRun s n g).latent = s.latent := rfl
@[simp] theorem modRun_hostOut (n : Nat) (g : Run → Run) : (modRun s n g).hostOut = s.hostOut := rfl
@[simp] theorem modRun_regOut (n : Nat) (g : Run → Run) : (modRun s n g).regOut = s.regOut := rfl
@[simp] theorem modRun_regPoison (n : Nat) (g : Run → Run) : (modRun s n g).regPoison = s.regPoison := rfl
@[simp] theorem modRun_freeCtr (n : Nat) (g : Run → Run) : (modRun s n g).freeCtr = s.freeCtr := rfl

@[simp] theorem modBox_pending (g : Box → Box) : (modBox s g).pending = s.pending := rfl
@[simp] theorem modBox_fused (g : Box → Box) : (modBox s g).fused = s.fused := rfl
@[simp] theorem modBox_time (g : Box → Box) : (modBox s g).time = s.time := rfl
@[simp] theorem modBox_pins (g : Box → Box) : (modBox s g).pins = s.pins := rfl
@[simp] theorem modBox_pwr (g : Box → Box) : (modBox s g).pwr = s.pwr := rfl
@[simp] theorem modBox_tiles (g : Box → Box) : (modBox s g).tiles = s.tiles := rfl
@[simp] theorem modBox_fields (g : Box → Box) : (modBox s g).fields = s.fields := rfl
@[simp] theorem modBox_rings (g : Box → Box) : (modBox s g).rings = s.rings := rfl
@[simp] theorem modBox_plies (g : Box → Box) : (modBox s g).plies = s.plies := rfl
@[simp] theorem modBox_farStacks (g : Box → Box) : (modBox s g).farStacks = s.farStacks := rfl
@[simp] theorem modBox_tens (g : Box → Box) : (modBox s g).tens = s.tens := rfl
@[simp] theorem modBox_hports (g : Box → Box) : (modBox s g).hports = s.hports := rfl
@[simp] theorem modBox_sports (g : Box → Box) : (modBox s g).sports = s.sports := rfl
@[simp] theorem modBox_can (g : Box → Box) : (modBox s g).can = s.can := rfl
@[simp] theorem modBox_net (g : Box → Box) : (modBox s g).net = s.net := rfl
@[simp] theorem modBox_agentReqs (g : Box → Box) : (modBox s g).agentReqs = s.agentReqs := rfl
@[simp] theorem modBox_reqSeq (g : Box → Box) : (modBox s g).reqSeq = s.reqSeq := rfl
@[simp] theorem modBox_agentSeq (g : Box → Box) : (modBox s g).agentSeq = s.agentSeq := rfl
@[simp] theorem modBox_agentTaken (g : Box → Box) : (modBox s g).agentTaken = s.agentTaken := rfl
@[simp] theorem modBox_agentPark (g : Box → Box) : (modBox s g).agentPark = s.agentPark := rfl
@[simp] theorem modBox_agentNack (g : Box → Box) : (modBox s g).agentNack = s.agentNack := rfl
@[simp] theorem modBox_agentOut (g : Box → Box) : (modBox s g).agentOut = s.agentOut := rfl
@[simp] theorem modBox_hbSeen (g : Box → Box) : (modBox s g).hbSeen = s.hbSeen := rfl
@[simp] theorem modBox_hbMissed (g : Box → Box) : (modBox s g).hbMissed = s.hbMissed := rfl
@[simp] theorem modBox_hbLost (g : Box → Box) : (modBox s g).hbLost = s.hbLost := rfl
@[simp] theorem modBox_mem (g : Box → Box) : (modBox s g).mem = s.mem := rfl
@[simp] theorem modBox_poison (g : Box → Box) : (modBox s g).poison = s.poison := rfl
@[simp] theorem modBox_latent (g : Box → Box) : (modBox s g).latent = s.latent := rfl
@[simp] theorem modBox_hostOut (g : Box → Box) : (modBox s g).hostOut = s.hostOut := rfl
@[simp] theorem modBox_regOut (g : Box → Box) : (modBox s g).regOut = s.regOut := rfl
@[simp] theorem modBox_regPoison (g : Box → Box) : (modBox s g).regPoison = s.regPoison := rfl
@[simp] theorem modBox_freeCtr (g : Box → Box) : (modBox s g).freeCtr = s.freeCtr := rfl

@[simp] theorem modPwr_pending (g : Power → Power) : (modPwr s g).pending = s.pending := rfl
@[simp] theorem modPwr_fused (g : Power → Power) : (modPwr s g).fused = s.fused := rfl
@[simp] theorem modPwr_time (g : Power → Power) : (modPwr s g).time = s.time := rfl
@[simp] theorem modPwr_pins (g : Power → Power) : (modPwr s g).pins = s.pins := rfl
@[simp] theorem modPwr_tiles (g : Power → Power) : (modPwr s g).tiles = s.tiles := rfl
@[simp] theorem modPwr_fields (g : Power → Power) : (modPwr s g).fields = s.fields := rfl
@[simp] theorem modPwr_rings (g : Power → Power) : (modPwr s g).rings = s.rings := rfl
@[simp] theorem modPwr_plies (g : Power → Power) : (modPwr s g).plies = s.plies := rfl
@[simp] theorem modPwr_farStacks (g : Power → Power) : (modPwr s g).farStacks = s.farStacks := rfl
@[simp] theorem modPwr_tens (g : Power → Power) : (modPwr s g).tens = s.tens := rfl
@[simp] theorem modPwr_hports (g : Power → Power) : (modPwr s g).hports = s.hports := rfl
@[simp] theorem modPwr_sports (g : Power → Power) : (modPwr s g).sports = s.sports := rfl
@[simp] theorem modPwr_box (g : Power → Power) : (modPwr s g).box = s.box := rfl
@[simp] theorem modPwr_can (g : Power → Power) : (modPwr s g).can = s.can := rfl
@[simp] theorem modPwr_net (g : Power → Power) : (modPwr s g).net = s.net := rfl
@[simp] theorem modPwr_agentReqs (g : Power → Power) : (modPwr s g).agentReqs = s.agentReqs := rfl
@[simp] theorem modPwr_reqSeq (g : Power → Power) : (modPwr s g).reqSeq = s.reqSeq := rfl
@[simp] theorem modPwr_agentSeq (g : Power → Power) : (modPwr s g).agentSeq = s.agentSeq := rfl
@[simp] theorem modPwr_agentTaken (g : Power → Power) : (modPwr s g).agentTaken = s.agentTaken := rfl
@[simp] theorem modPwr_agentPark (g : Power → Power) : (modPwr s g).agentPark = s.agentPark := rfl
@[simp] theorem modPwr_agentNack (g : Power → Power) : (modPwr s g).agentNack = s.agentNack := rfl
@[simp] theorem modPwr_agentOut (g : Power → Power) : (modPwr s g).agentOut = s.agentOut := rfl
@[simp] theorem modPwr_hbSeen (g : Power → Power) : (modPwr s g).hbSeen = s.hbSeen := rfl
@[simp] theorem modPwr_hbMissed (g : Power → Power) : (modPwr s g).hbMissed = s.hbMissed := rfl
@[simp] theorem modPwr_hbLost (g : Power → Power) : (modPwr s g).hbLost = s.hbLost := rfl
@[simp] theorem modPwr_mem (g : Power → Power) : (modPwr s g).mem = s.mem := rfl
@[simp] theorem modPwr_poison (g : Power → Power) : (modPwr s g).poison = s.poison := rfl
@[simp] theorem modPwr_latent (g : Power → Power) : (modPwr s g).latent = s.latent := rfl
@[simp] theorem modPwr_hostOut (g : Power → Power) : (modPwr s g).hostOut = s.hostOut := rfl
@[simp] theorem modPwr_regOut (g : Power → Power) : (modPwr s g).regOut = s.regOut := rfl
@[simp] theorem modPwr_regPoison (g : Power → Power) : (modPwr s g).regPoison = s.regPoison := rfl
@[simp] theorem modPwr_freeCtr (g : Power → Power) : (modPwr s g).freeCtr = s.freeCtr := rfl

@[simp] theorem modCan_pending (g : Can → Can) : (modCan s g).pending = s.pending := rfl
@[simp] theorem modCan_fused (g : Can → Can) : (modCan s g).fused = s.fused := rfl
@[simp] theorem modCan_time (g : Can → Can) : (modCan s g).time = s.time := rfl
@[simp] theorem modCan_pins (g : Can → Can) : (modCan s g).pins = s.pins := rfl
@[simp] theorem modCan_pwr (g : Can → Can) : (modCan s g).pwr = s.pwr := rfl
@[simp] theorem modCan_tiles (g : Can → Can) : (modCan s g).tiles = s.tiles := rfl
@[simp] theorem modCan_fields (g : Can → Can) : (modCan s g).fields = s.fields := rfl
@[simp] theorem modCan_rings (g : Can → Can) : (modCan s g).rings = s.rings := rfl
@[simp] theorem modCan_plies (g : Can → Can) : (modCan s g).plies = s.plies := rfl
@[simp] theorem modCan_farStacks (g : Can → Can) : (modCan s g).farStacks = s.farStacks := rfl
@[simp] theorem modCan_tens (g : Can → Can) : (modCan s g).tens = s.tens := rfl
@[simp] theorem modCan_hports (g : Can → Can) : (modCan s g).hports = s.hports := rfl
@[simp] theorem modCan_sports (g : Can → Can) : (modCan s g).sports = s.sports := rfl
@[simp] theorem modCan_box (g : Can → Can) : (modCan s g).box = s.box := rfl
@[simp] theorem modCan_net (g : Can → Can) : (modCan s g).net = s.net := rfl
@[simp] theorem modCan_agentReqs (g : Can → Can) : (modCan s g).agentReqs = s.agentReqs := rfl
@[simp] theorem modCan_reqSeq (g : Can → Can) : (modCan s g).reqSeq = s.reqSeq := rfl
@[simp] theorem modCan_agentSeq (g : Can → Can) : (modCan s g).agentSeq = s.agentSeq := rfl
@[simp] theorem modCan_agentTaken (g : Can → Can) : (modCan s g).agentTaken = s.agentTaken := rfl
@[simp] theorem modCan_agentPark (g : Can → Can) : (modCan s g).agentPark = s.agentPark := rfl
@[simp] theorem modCan_agentNack (g : Can → Can) : (modCan s g).agentNack = s.agentNack := rfl
@[simp] theorem modCan_agentOut (g : Can → Can) : (modCan s g).agentOut = s.agentOut := rfl
@[simp] theorem modCan_hbSeen (g : Can → Can) : (modCan s g).hbSeen = s.hbSeen := rfl
@[simp] theorem modCan_hbMissed (g : Can → Can) : (modCan s g).hbMissed = s.hbMissed := rfl
@[simp] theorem modCan_hbLost (g : Can → Can) : (modCan s g).hbLost = s.hbLost := rfl
@[simp] theorem modCan_mem (g : Can → Can) : (modCan s g).mem = s.mem := rfl
@[simp] theorem modCan_poison (g : Can → Can) : (modCan s g).poison = s.poison := rfl
@[simp] theorem modCan_latent (g : Can → Can) : (modCan s g).latent = s.latent := rfl
@[simp] theorem modCan_hostOut (g : Can → Can) : (modCan s g).hostOut = s.hostOut := rfl
@[simp] theorem modCan_regOut (g : Can → Can) : (modCan s g).regOut = s.regOut := rfl
@[simp] theorem modCan_regPoison (g : Can → Can) : (modCan s g).regPoison = s.regPoison := rfl
@[simp] theorem modCan_freeCtr (g : Can → Can) : (modCan s g).freeCtr = s.freeCtr := rfl

@[simp] theorem memWrite_pending (a : Nat) (bs : List Byte) : (memWrite s a bs).pending = s.pending := rfl
@[simp] theorem memWrite_fused (a : Nat) (bs : List Byte) : (memWrite s a bs).fused = s.fused := rfl
@[simp] theorem memWrite_time (a : Nat) (bs : List Byte) : (memWrite s a bs).time = s.time := rfl
@[simp] theorem memWrite_pins (a : Nat) (bs : List Byte) : (memWrite s a bs).pins = s.pins := rfl
@[simp] theorem memWrite_pwr (a : Nat) (bs : List Byte) : (memWrite s a bs).pwr = s.pwr := rfl
@[simp] theorem memWrite_tiles (a : Nat) (bs : List Byte) : (memWrite s a bs).tiles = s.tiles := rfl
@[simp] theorem memWrite_fields (a : Nat) (bs : List Byte) : (memWrite s a bs).fields = s.fields := rfl
@[simp] theorem memWrite_rings (a : Nat) (bs : List Byte) : (memWrite s a bs).rings = s.rings := rfl
@[simp] theorem memWrite_plies (a : Nat) (bs : List Byte) : (memWrite s a bs).plies = s.plies := rfl
@[simp] theorem memWrite_farStacks (a : Nat) (bs : List Byte) : (memWrite s a bs).farStacks = s.farStacks := rfl
@[simp] theorem memWrite_tens (a : Nat) (bs : List Byte) : (memWrite s a bs).tens = s.tens := rfl
@[simp] theorem memWrite_hports (a : Nat) (bs : List Byte) : (memWrite s a bs).hports = s.hports := rfl
@[simp] theorem memWrite_sports (a : Nat) (bs : List Byte) : (memWrite s a bs).sports = s.sports := rfl
@[simp] theorem memWrite_box (a : Nat) (bs : List Byte) : (memWrite s a bs).box = s.box := rfl
@[simp] theorem memWrite_can (a : Nat) (bs : List Byte) : (memWrite s a bs).can = s.can := rfl
@[simp] theorem memWrite_net (a : Nat) (bs : List Byte) : (memWrite s a bs).net = s.net := rfl
@[simp] theorem memWrite_agentReqs (a : Nat) (bs : List Byte) : (memWrite s a bs).agentReqs = s.agentReqs := rfl
@[simp] theorem memWrite_reqSeq (a : Nat) (bs : List Byte) : (memWrite s a bs).reqSeq = s.reqSeq := rfl
@[simp] theorem memWrite_agentSeq (a : Nat) (bs : List Byte) : (memWrite s a bs).agentSeq = s.agentSeq := rfl
@[simp] theorem memWrite_agentTaken (a : Nat) (bs : List Byte) : (memWrite s a bs).agentTaken = s.agentTaken := rfl
@[simp] theorem memWrite_agentPark (a : Nat) (bs : List Byte) : (memWrite s a bs).agentPark = s.agentPark := rfl
@[simp] theorem memWrite_agentNack (a : Nat) (bs : List Byte) : (memWrite s a bs).agentNack = s.agentNack := rfl
@[simp] theorem memWrite_agentOut (a : Nat) (bs : List Byte) : (memWrite s a bs).agentOut = s.agentOut := rfl
@[simp] theorem memWrite_hbSeen (a : Nat) (bs : List Byte) : (memWrite s a bs).hbSeen = s.hbSeen := rfl
@[simp] theorem memWrite_hbMissed (a : Nat) (bs : List Byte) : (memWrite s a bs).hbMissed = s.hbMissed := rfl
@[simp] theorem memWrite_hbLost (a : Nat) (bs : List Byte) : (memWrite s a bs).hbLost = s.hbLost := rfl
@[simp] theorem memWrite_hostOut (a : Nat) (bs : List Byte) : (memWrite s a bs).hostOut = s.hostOut := rfl
@[simp] theorem memWrite_regOut (a : Nat) (bs : List Byte) : (memWrite s a bs).regOut = s.regOut := rfl
@[simp] theorem memWrite_regPoison (a : Nat) (bs : List Byte) : (memWrite s a bs).regPoison = s.regPoison := rfl
@[simp] theorem memWrite_freeCtr (a : Nat) (bs : List Byte) : (memWrite s a bs).freeCtr = s.freeCtr := rfl

@[simp] theorem poisonLanes_pending (ls : List Nat) : (poisonLanes s ls).pending = s.pending := rfl
@[simp] theorem poisonLanes_fused (ls : List Nat) : (poisonLanes s ls).fused = s.fused := rfl
@[simp] theorem poisonLanes_time (ls : List Nat) : (poisonLanes s ls).time = s.time := rfl
@[simp] theorem poisonLanes_pins (ls : List Nat) : (poisonLanes s ls).pins = s.pins := rfl
@[simp] theorem poisonLanes_pwr (ls : List Nat) : (poisonLanes s ls).pwr = s.pwr := rfl
@[simp] theorem poisonLanes_tiles (ls : List Nat) : (poisonLanes s ls).tiles = s.tiles := rfl
@[simp] theorem poisonLanes_fields (ls : List Nat) : (poisonLanes s ls).fields = s.fields := rfl
@[simp] theorem poisonLanes_rings (ls : List Nat) : (poisonLanes s ls).rings = s.rings := rfl
@[simp] theorem poisonLanes_plies (ls : List Nat) : (poisonLanes s ls).plies = s.plies := rfl
@[simp] theorem poisonLanes_farStacks (ls : List Nat) : (poisonLanes s ls).farStacks = s.farStacks := rfl
@[simp] theorem poisonLanes_tens (ls : List Nat) : (poisonLanes s ls).tens = s.tens := rfl
@[simp] theorem poisonLanes_hports (ls : List Nat) : (poisonLanes s ls).hports = s.hports := rfl
@[simp] theorem poisonLanes_sports (ls : List Nat) : (poisonLanes s ls).sports = s.sports := rfl
@[simp] theorem poisonLanes_box (ls : List Nat) : (poisonLanes s ls).box = s.box := rfl
@[simp] theorem poisonLanes_can (ls : List Nat) : (poisonLanes s ls).can = s.can := rfl
@[simp] theorem poisonLanes_net (ls : List Nat) : (poisonLanes s ls).net = s.net := rfl
@[simp] theorem poisonLanes_agentReqs (ls : List Nat) : (poisonLanes s ls).agentReqs = s.agentReqs := rfl
@[simp] theorem poisonLanes_reqSeq (ls : List Nat) : (poisonLanes s ls).reqSeq = s.reqSeq := rfl
@[simp] theorem poisonLanes_agentSeq (ls : List Nat) : (poisonLanes s ls).agentSeq = s.agentSeq := rfl
@[simp] theorem poisonLanes_agentTaken (ls : List Nat) : (poisonLanes s ls).agentTaken = s.agentTaken := rfl
@[simp] theorem poisonLanes_agentPark (ls : List Nat) : (poisonLanes s ls).agentPark = s.agentPark := rfl
@[simp] theorem poisonLanes_agentNack (ls : List Nat) : (poisonLanes s ls).agentNack = s.agentNack := rfl
@[simp] theorem poisonLanes_agentOut (ls : List Nat) : (poisonLanes s ls).agentOut = s.agentOut := rfl
@[simp] theorem poisonLanes_hbSeen (ls : List Nat) : (poisonLanes s ls).hbSeen = s.hbSeen := rfl
@[simp] theorem poisonLanes_hbMissed (ls : List Nat) : (poisonLanes s ls).hbMissed = s.hbMissed := rfl
@[simp] theorem poisonLanes_hbLost (ls : List Nat) : (poisonLanes s ls).hbLost = s.hbLost := rfl
@[simp] theorem poisonLanes_mem (ls : List Nat) : (poisonLanes s ls).mem = s.mem := rfl
@[simp] theorem poisonLanes_latent (ls : List Nat) : (poisonLanes s ls).latent = s.latent := rfl
@[simp] theorem poisonLanes_hostOut (ls : List Nat) : (poisonLanes s ls).hostOut = s.hostOut := rfl
@[simp] theorem poisonLanes_regOut (ls : List Nat) : (poisonLanes s ls).regOut = s.regOut := rfl
@[simp] theorem poisonLanes_regPoison (ls : List Nat) : (poisonLanes s ls).regPoison = s.regPoison := rfl
@[simp] theorem poisonLanes_freeCtr (ls : List Nat) : (poisonLanes s ls).freeCtr = s.freeCtr := rfl

@[simp] theorem memWriteP_pending (a : Nat) (bs : List Byte) (ls : List Nat) : (memWriteP s a bs ls).pending = s.pending := rfl
@[simp] theorem memWriteP_fused (a : Nat) (bs : List Byte) (ls : List Nat) : (memWriteP s a bs ls).fused = s.fused := rfl
@[simp] theorem memWriteP_time (a : Nat) (bs : List Byte) (ls : List Nat) : (memWriteP s a bs ls).time = s.time := rfl
@[simp] theorem memWriteP_pins (a : Nat) (bs : List Byte) (ls : List Nat) : (memWriteP s a bs ls).pins = s.pins := rfl
@[simp] theorem memWriteP_pwr (a : Nat) (bs : List Byte) (ls : List Nat) : (memWriteP s a bs ls).pwr = s.pwr := rfl
@[simp] theorem memWriteP_tiles (a : Nat) (bs : List Byte) (ls : List Nat) : (memWriteP s a bs ls).tiles = s.tiles := rfl
@[simp] theorem memWriteP_fields (a : Nat) (bs : List Byte) (ls : List Nat) : (memWriteP s a bs ls).fields = s.fields := rfl
@[simp] theorem memWriteP_rings (a : Nat) (bs : List Byte) (ls : List Nat) : (memWriteP s a bs ls).rings = s.rings := rfl
@[simp] theorem memWriteP_plies (a : Nat) (bs : List Byte) (ls : List Nat) : (memWriteP s a bs ls).plies = s.plies := rfl
@[simp] theorem memWriteP_farStacks (a : Nat) (bs : List Byte) (ls : List Nat) : (memWriteP s a bs ls).farStacks = s.farStacks := rfl
@[simp] theorem memWriteP_tens (a : Nat) (bs : List Byte) (ls : List Nat) : (memWriteP s a bs ls).tens = s.tens := rfl
@[simp] theorem memWriteP_hports (a : Nat) (bs : List Byte) (ls : List Nat) : (memWriteP s a bs ls).hports = s.hports := rfl
@[simp] theorem memWriteP_sports (a : Nat) (bs : List Byte) (ls : List Nat) : (memWriteP s a bs ls).sports = s.sports := rfl
@[simp] theorem memWriteP_box (a : Nat) (bs : List Byte) (ls : List Nat) : (memWriteP s a bs ls).box = s.box := rfl
@[simp] theorem memWriteP_can (a : Nat) (bs : List Byte) (ls : List Nat) : (memWriteP s a bs ls).can = s.can := rfl
@[simp] theorem memWriteP_net (a : Nat) (bs : List Byte) (ls : List Nat) : (memWriteP s a bs ls).net = s.net := rfl
@[simp] theorem memWriteP_agentReqs (a : Nat) (bs : List Byte) (ls : List Nat) : (memWriteP s a bs ls).agentReqs = s.agentReqs := rfl
@[simp] theorem memWriteP_reqSeq (a : Nat) (bs : List Byte) (ls : List Nat) : (memWriteP s a bs ls).reqSeq = s.reqSeq := rfl
@[simp] theorem memWriteP_agentSeq (a : Nat) (bs : List Byte) (ls : List Nat) : (memWriteP s a bs ls).agentSeq = s.agentSeq := rfl
@[simp] theorem memWriteP_agentTaken (a : Nat) (bs : List Byte) (ls : List Nat) : (memWriteP s a bs ls).agentTaken = s.agentTaken := rfl
@[simp] theorem memWriteP_agentPark (a : Nat) (bs : List Byte) (ls : List Nat) : (memWriteP s a bs ls).agentPark = s.agentPark := rfl
@[simp] theorem memWriteP_agentNack (a : Nat) (bs : List Byte) (ls : List Nat) : (memWriteP s a bs ls).agentNack = s.agentNack := rfl
@[simp] theorem memWriteP_agentOut (a : Nat) (bs : List Byte) (ls : List Nat) : (memWriteP s a bs ls).agentOut = s.agentOut := rfl
@[simp] theorem memWriteP_hbSeen (a : Nat) (bs : List Byte) (ls : List Nat) : (memWriteP s a bs ls).hbSeen = s.hbSeen := rfl
@[simp] theorem memWriteP_hbMissed (a : Nat) (bs : List Byte) (ls : List Nat) : (memWriteP s a bs ls).hbMissed = s.hbMissed := rfl
@[simp] theorem memWriteP_hbLost (a : Nat) (bs : List Byte) (ls : List Nat) : (memWriteP s a bs ls).hbLost = s.hbLost := rfl
@[simp] theorem memWriteP_hostOut (a : Nat) (bs : List Byte) (ls : List Nat) : (memWriteP s a bs ls).hostOut = s.hostOut := rfl
@[simp] theorem memWriteP_regOut (a : Nat) (bs : List Byte) (ls : List Nat) : (memWriteP s a bs ls).regOut = s.regOut := rfl
@[simp] theorem memWriteP_regPoison (a : Nat) (bs : List Byte) (ls : List Nat) : (memWriteP s a bs ls).regPoison = s.regPoison := rfl
@[simp] theorem memWriteP_freeCtr (a : Nat) (bs : List Byte) (ls : List Nat) : (memWriteP s a bs ls).freeCtr = s.freeCtr := rfl

@[simp] theorem memClear_pending (lo hi : Nat) : (memClear s lo hi).pending = s.pending := rfl
@[simp] theorem memClear_fused (lo hi : Nat) : (memClear s lo hi).fused = s.fused := rfl
@[simp] theorem memClear_time (lo hi : Nat) : (memClear s lo hi).time = s.time := rfl
@[simp] theorem memClear_pins (lo hi : Nat) : (memClear s lo hi).pins = s.pins := rfl
@[simp] theorem memClear_pwr (lo hi : Nat) : (memClear s lo hi).pwr = s.pwr := rfl
@[simp] theorem memClear_tiles (lo hi : Nat) : (memClear s lo hi).tiles = s.tiles := rfl
@[simp] theorem memClear_fields (lo hi : Nat) : (memClear s lo hi).fields = s.fields := rfl
@[simp] theorem memClear_rings (lo hi : Nat) : (memClear s lo hi).rings = s.rings := rfl
@[simp] theorem memClear_plies (lo hi : Nat) : (memClear s lo hi).plies = s.plies := rfl
@[simp] theorem memClear_farStacks (lo hi : Nat) : (memClear s lo hi).farStacks = s.farStacks := rfl
@[simp] theorem memClear_tens (lo hi : Nat) : (memClear s lo hi).tens = s.tens := rfl
@[simp] theorem memClear_hports (lo hi : Nat) : (memClear s lo hi).hports = s.hports := rfl
@[simp] theorem memClear_sports (lo hi : Nat) : (memClear s lo hi).sports = s.sports := rfl
@[simp] theorem memClear_box (lo hi : Nat) : (memClear s lo hi).box = s.box := rfl
@[simp] theorem memClear_can (lo hi : Nat) : (memClear s lo hi).can = s.can := rfl
@[simp] theorem memClear_net (lo hi : Nat) : (memClear s lo hi).net = s.net := rfl
@[simp] theorem memClear_agentReqs (lo hi : Nat) : (memClear s lo hi).agentReqs = s.agentReqs := rfl
@[simp] theorem memClear_reqSeq (lo hi : Nat) : (memClear s lo hi).reqSeq = s.reqSeq := rfl
@[simp] theorem memClear_agentSeq (lo hi : Nat) : (memClear s lo hi).agentSeq = s.agentSeq := rfl
@[simp] theorem memClear_agentTaken (lo hi : Nat) : (memClear s lo hi).agentTaken = s.agentTaken := rfl
@[simp] theorem memClear_agentPark (lo hi : Nat) : (memClear s lo hi).agentPark = s.agentPark := rfl
@[simp] theorem memClear_agentNack (lo hi : Nat) : (memClear s lo hi).agentNack = s.agentNack := rfl
@[simp] theorem memClear_agentOut (lo hi : Nat) : (memClear s lo hi).agentOut = s.agentOut := rfl
@[simp] theorem memClear_hbSeen (lo hi : Nat) : (memClear s lo hi).hbSeen = s.hbSeen := rfl
@[simp] theorem memClear_hbMissed (lo hi : Nat) : (memClear s lo hi).hbMissed = s.hbMissed := rfl
@[simp] theorem memClear_hbLost (lo hi : Nat) : (memClear s lo hi).hbLost = s.hbLost := rfl
@[simp] theorem memClear_hostOut (lo hi : Nat) : (memClear s lo hi).hostOut = s.hostOut := rfl
@[simp] theorem memClear_regOut (lo hi : Nat) : (memClear s lo hi).regOut = s.regOut := rfl
@[simp] theorem memClear_regPoison (lo hi : Nat) : (memClear s lo hi).regPoison = s.regPoison := rfl
@[simp] theorem memClear_freeCtr (lo hi : Nat) : (memClear s lo hi).freeCtr = s.freeCtr := rfl

@[simp] theorem hostWrite_pending (p a : Nat) (bs : List Byte) : (hostWrite s p a bs).pending = s.pending := rfl
@[simp] theorem hostWrite_fused (p a : Nat) (bs : List Byte) : (hostWrite s p a bs).fused = s.fused := rfl
@[simp] theorem hostWrite_time (p a : Nat) (bs : List Byte) : (hostWrite s p a bs).time = s.time := rfl
@[simp] theorem hostWrite_pins (p a : Nat) (bs : List Byte) : (hostWrite s p a bs).pins = s.pins := rfl
@[simp] theorem hostWrite_pwr (p a : Nat) (bs : List Byte) : (hostWrite s p a bs).pwr = s.pwr := rfl
@[simp] theorem hostWrite_tiles (p a : Nat) (bs : List Byte) : (hostWrite s p a bs).tiles = s.tiles := rfl
@[simp] theorem hostWrite_fields (p a : Nat) (bs : List Byte) : (hostWrite s p a bs).fields = s.fields := rfl
@[simp] theorem hostWrite_rings (p a : Nat) (bs : List Byte) : (hostWrite s p a bs).rings = s.rings := rfl
@[simp] theorem hostWrite_plies (p a : Nat) (bs : List Byte) : (hostWrite s p a bs).plies = s.plies := rfl
@[simp] theorem hostWrite_farStacks (p a : Nat) (bs : List Byte) : (hostWrite s p a bs).farStacks = s.farStacks := rfl
@[simp] theorem hostWrite_tens (p a : Nat) (bs : List Byte) : (hostWrite s p a bs).tens = s.tens := rfl
@[simp] theorem hostWrite_hports (p a : Nat) (bs : List Byte) : (hostWrite s p a bs).hports = s.hports := rfl
@[simp] theorem hostWrite_sports (p a : Nat) (bs : List Byte) : (hostWrite s p a bs).sports = s.sports := rfl
@[simp] theorem hostWrite_box (p a : Nat) (bs : List Byte) : (hostWrite s p a bs).box = s.box := rfl
@[simp] theorem hostWrite_can (p a : Nat) (bs : List Byte) : (hostWrite s p a bs).can = s.can := rfl
@[simp] theorem hostWrite_net (p a : Nat) (bs : List Byte) : (hostWrite s p a bs).net = s.net := rfl
@[simp] theorem hostWrite_agentReqs (p a : Nat) (bs : List Byte) : (hostWrite s p a bs).agentReqs = s.agentReqs := rfl
@[simp] theorem hostWrite_reqSeq (p a : Nat) (bs : List Byte) : (hostWrite s p a bs).reqSeq = s.reqSeq := rfl
@[simp] theorem hostWrite_agentSeq (p a : Nat) (bs : List Byte) : (hostWrite s p a bs).agentSeq = s.agentSeq := rfl
@[simp] theorem hostWrite_agentTaken (p a : Nat) (bs : List Byte) : (hostWrite s p a bs).agentTaken = s.agentTaken := rfl
@[simp] theorem hostWrite_agentPark (p a : Nat) (bs : List Byte) : (hostWrite s p a bs).agentPark = s.agentPark := rfl
@[simp] theorem hostWrite_agentNack (p a : Nat) (bs : List Byte) : (hostWrite s p a bs).agentNack = s.agentNack := rfl
@[simp] theorem hostWrite_agentOut (p a : Nat) (bs : List Byte) : (hostWrite s p a bs).agentOut = s.agentOut := rfl
@[simp] theorem hostWrite_hbSeen (p a : Nat) (bs : List Byte) : (hostWrite s p a bs).hbSeen = s.hbSeen := rfl
@[simp] theorem hostWrite_hbMissed (p a : Nat) (bs : List Byte) : (hostWrite s p a bs).hbMissed = s.hbMissed := rfl
@[simp] theorem hostWrite_hbLost (p a : Nat) (bs : List Byte) : (hostWrite s p a bs).hbLost = s.hbLost := rfl
@[simp] theorem hostWrite_mem (p a : Nat) (bs : List Byte) : (hostWrite s p a bs).mem = s.mem := rfl
@[simp] theorem hostWrite_poison (p a : Nat) (bs : List Byte) : (hostWrite s p a bs).poison = s.poison := rfl
@[simp] theorem hostWrite_latent (p a : Nat) (bs : List Byte) : (hostWrite s p a bs).latent = s.latent := rfl
@[simp] theorem hostWrite_regOut (p a : Nat) (bs : List Byte) : (hostWrite s p a bs).regOut = s.regOut := rfl
@[simp] theorem hostWrite_regPoison (p a : Nat) (bs : List Byte) : (hostWrite s p a bs).regPoison = s.regPoison := rfl
@[simp] theorem hostWrite_freeCtr (p a : Nat) (bs : List Byte) : (hostWrite s p a bs).freeCtr = s.freeCtr := rfl

/-! ### Readers after an update of another part -/

@[simp] theorem fieldOf_setTile (i : Nat) (x : Tile) (j : Nat) : fieldOf (setTile s i x) j = fieldOf s j := rfl
@[simp] theorem ringOf_setTile (i : Nat) (x : Tile) (j : Nat) : ringOf (setTile s i x) j = ringOf s j := rfl
@[simp] theorem plyOf_setTile (i : Nat) (x : Tile) (j : Nat) : plyOf (setTile s i x) j = plyOf s j := rfl
@[simp] theorem stackOf_setTile (i : Nat) (x : Tile) (j : Nat) : stackOf (setTile s i x) j = stackOf s j := rfl
@[simp] theorem tenOf_setTile (i : Nat) (x : Tile) (j : Nat) : tenOf (setTile s i x) j = tenOf s j := rfl
@[simp] theorem hportOf_setTile (i : Nat) (x : Tile) (j : Nat) : hportOf (setTile s i x) j = hportOf s j := rfl
@[simp] theorem sportOf_setTile (i : Nat) (x : Tile) (j : Nat) : sportOf (setTile s i x) j = sportOf s j := rfl
@[simp] theorem memByte_setTile (i : Nat) (x : Tile) (y : Nat) : memByte (setTile s i x) y = memByte s y := rfl

@[simp] theorem fieldOf_modTile (i : Nat) (g : Tile → Tile) (j : Nat) : fieldOf (modTile s i g) j = fieldOf s j := rfl
@[simp] theorem ringOf_modTile (i : Nat) (g : Tile → Tile) (j : Nat) : ringOf (modTile s i g) j = ringOf s j := rfl
@[simp] theorem plyOf_modTile (i : Nat) (g : Tile → Tile) (j : Nat) : plyOf (modTile s i g) j = plyOf s j := rfl
@[simp] theorem stackOf_modTile (i : Nat) (g : Tile → Tile) (j : Nat) : stackOf (modTile s i g) j = stackOf s j := rfl
@[simp] theorem tenOf_modTile (i : Nat) (g : Tile → Tile) (j : Nat) : tenOf (modTile s i g) j = tenOf s j := rfl
@[simp] theorem hportOf_modTile (i : Nat) (g : Tile → Tile) (j : Nat) : hportOf (modTile s i g) j = hportOf s j := rfl
@[simp] theorem sportOf_modTile (i : Nat) (g : Tile → Tile) (j : Nat) : sportOf (modTile s i g) j = sportOf s j := rfl
@[simp] theorem memByte_modTile (i : Nat) (g : Tile → Tile) (y : Nat) : memByte (modTile s i g) y = memByte s y := rfl

@[simp] theorem tileOf_setField (i : Nat) (x : Field) (j : Nat) : tileOf (setField s i x) j = tileOf s j := rfl
@[simp] theorem ringOf_setField (i : Nat) (x : Field) (j : Nat) : ringOf (setField s i x) j = ringOf s j := rfl
@[simp] theorem plyOf_setField (i : Nat) (x : Field) (j : Nat) : plyOf (setField s i x) j = plyOf s j := rfl
@[simp] theorem stackOf_setField (i : Nat) (x : Field) (j : Nat) : stackOf (setField s i x) j = stackOf s j := rfl
@[simp] theorem tenOf_setField (i : Nat) (x : Field) (j : Nat) : tenOf (setField s i x) j = tenOf s j := rfl
@[simp] theorem hportOf_setField (i : Nat) (x : Field) (j : Nat) : hportOf (setField s i x) j = hportOf s j := rfl
@[simp] theorem sportOf_setField (i : Nat) (x : Field) (j : Nat) : sportOf (setField s i x) j = sportOf s j := rfl
@[simp] theorem memByte_setField (i : Nat) (x : Field) (y : Nat) : memByte (setField s i x) y = memByte s y := rfl

@[simp] theorem tileOf_modField (i : Nat) (g : Field → Field) (j : Nat) : tileOf (modField s i g) j = tileOf s j := rfl
@[simp] theorem ringOf_modField (i : Nat) (g : Field → Field) (j : Nat) : ringOf (modField s i g) j = ringOf s j := rfl
@[simp] theorem plyOf_modField (i : Nat) (g : Field → Field) (j : Nat) : plyOf (modField s i g) j = plyOf s j := rfl
@[simp] theorem stackOf_modField (i : Nat) (g : Field → Field) (j : Nat) : stackOf (modField s i g) j = stackOf s j := rfl
@[simp] theorem tenOf_modField (i : Nat) (g : Field → Field) (j : Nat) : tenOf (modField s i g) j = tenOf s j := rfl
@[simp] theorem hportOf_modField (i : Nat) (g : Field → Field) (j : Nat) : hportOf (modField s i g) j = hportOf s j := rfl
@[simp] theorem sportOf_modField (i : Nat) (g : Field → Field) (j : Nat) : sportOf (modField s i g) j = sportOf s j := rfl
@[simp] theorem memByte_modField (i : Nat) (g : Field → Field) (y : Nat) : memByte (modField s i g) y = memByte s y := rfl

@[simp] theorem tileOf_setRing (i : Nat) (x : Ring) (j : Nat) : tileOf (setRing s i x) j = tileOf s j := rfl
@[simp] theorem fieldOf_setRing (i : Nat) (x : Ring) (j : Nat) : fieldOf (setRing s i x) j = fieldOf s j := rfl
@[simp] theorem plyOf_setRing (i : Nat) (x : Ring) (j : Nat) : plyOf (setRing s i x) j = plyOf s j := rfl
@[simp] theorem stackOf_setRing (i : Nat) (x : Ring) (j : Nat) : stackOf (setRing s i x) j = stackOf s j := rfl
@[simp] theorem tenOf_setRing (i : Nat) (x : Ring) (j : Nat) : tenOf (setRing s i x) j = tenOf s j := rfl
@[simp] theorem hportOf_setRing (i : Nat) (x : Ring) (j : Nat) : hportOf (setRing s i x) j = hportOf s j := rfl
@[simp] theorem sportOf_setRing (i : Nat) (x : Ring) (j : Nat) : sportOf (setRing s i x) j = sportOf s j := rfl
@[simp] theorem memByte_setRing (i : Nat) (x : Ring) (y : Nat) : memByte (setRing s i x) y = memByte s y := rfl

@[simp] theorem tileOf_modRing (i : Nat) (g : Ring → Ring) (j : Nat) : tileOf (modRing s i g) j = tileOf s j := rfl
@[simp] theorem fieldOf_modRing (i : Nat) (g : Ring → Ring) (j : Nat) : fieldOf (modRing s i g) j = fieldOf s j := rfl
@[simp] theorem plyOf_modRing (i : Nat) (g : Ring → Ring) (j : Nat) : plyOf (modRing s i g) j = plyOf s j := rfl
@[simp] theorem stackOf_modRing (i : Nat) (g : Ring → Ring) (j : Nat) : stackOf (modRing s i g) j = stackOf s j := rfl
@[simp] theorem tenOf_modRing (i : Nat) (g : Ring → Ring) (j : Nat) : tenOf (modRing s i g) j = tenOf s j := rfl
@[simp] theorem hportOf_modRing (i : Nat) (g : Ring → Ring) (j : Nat) : hportOf (modRing s i g) j = hportOf s j := rfl
@[simp] theorem sportOf_modRing (i : Nat) (g : Ring → Ring) (j : Nat) : sportOf (modRing s i g) j = sportOf s j := rfl
@[simp] theorem memByte_modRing (i : Nat) (g : Ring → Ring) (y : Nat) : memByte (modRing s i g) y = memByte s y := rfl

@[simp] theorem tileOf_setPly (i : Nat) (x : Ply) (j : Nat) : tileOf (setPly s i x) j = tileOf s j := rfl
@[simp] theorem fieldOf_setPly (i : Nat) (x : Ply) (j : Nat) : fieldOf (setPly s i x) j = fieldOf s j := rfl
@[simp] theorem ringOf_setPly (i : Nat) (x : Ply) (j : Nat) : ringOf (setPly s i x) j = ringOf s j := rfl
@[simp] theorem stackOf_setPly (i : Nat) (x : Ply) (j : Nat) : stackOf (setPly s i x) j = stackOf s j := rfl
@[simp] theorem tenOf_setPly (i : Nat) (x : Ply) (j : Nat) : tenOf (setPly s i x) j = tenOf s j := rfl
@[simp] theorem hportOf_setPly (i : Nat) (x : Ply) (j : Nat) : hportOf (setPly s i x) j = hportOf s j := rfl
@[simp] theorem sportOf_setPly (i : Nat) (x : Ply) (j : Nat) : sportOf (setPly s i x) j = sportOf s j := rfl
@[simp] theorem memByte_setPly (i : Nat) (x : Ply) (y : Nat) : memByte (setPly s i x) y = memByte s y := rfl

@[simp] theorem tileOf_modPly (i : Nat) (g : Ply → Ply) (j : Nat) : tileOf (modPly s i g) j = tileOf s j := rfl
@[simp] theorem fieldOf_modPly (i : Nat) (g : Ply → Ply) (j : Nat) : fieldOf (modPly s i g) j = fieldOf s j := rfl
@[simp] theorem ringOf_modPly (i : Nat) (g : Ply → Ply) (j : Nat) : ringOf (modPly s i g) j = ringOf s j := rfl
@[simp] theorem stackOf_modPly (i : Nat) (g : Ply → Ply) (j : Nat) : stackOf (modPly s i g) j = stackOf s j := rfl
@[simp] theorem tenOf_modPly (i : Nat) (g : Ply → Ply) (j : Nat) : tenOf (modPly s i g) j = tenOf s j := rfl
@[simp] theorem hportOf_modPly (i : Nat) (g : Ply → Ply) (j : Nat) : hportOf (modPly s i g) j = hportOf s j := rfl
@[simp] theorem sportOf_modPly (i : Nat) (g : Ply → Ply) (j : Nat) : sportOf (modPly s i g) j = sportOf s j := rfl
@[simp] theorem memByte_modPly (i : Nat) (g : Ply → Ply) (y : Nat) : memByte (modPly s i g) y = memByte s y := rfl

@[simp] theorem tileOf_setStack (i : Nat) (x : Stack) (j : Nat) : tileOf (setStack s i x) j = tileOf s j := rfl
@[simp] theorem fieldOf_setStack (i : Nat) (x : Stack) (j : Nat) : fieldOf (setStack s i x) j = fieldOf s j := rfl
@[simp] theorem ringOf_setStack (i : Nat) (x : Stack) (j : Nat) : ringOf (setStack s i x) j = ringOf s j := rfl
@[simp] theorem plyOf_setStack (i : Nat) (x : Stack) (j : Nat) : plyOf (setStack s i x) j = plyOf s j := rfl
@[simp] theorem tenOf_setStack (i : Nat) (x : Stack) (j : Nat) : tenOf (setStack s i x) j = tenOf s j := rfl
@[simp] theorem hportOf_setStack (i : Nat) (x : Stack) (j : Nat) : hportOf (setStack s i x) j = hportOf s j := rfl
@[simp] theorem sportOf_setStack (i : Nat) (x : Stack) (j : Nat) : sportOf (setStack s i x) j = sportOf s j := rfl
@[simp] theorem memByte_setStack (i : Nat) (x : Stack) (y : Nat) : memByte (setStack s i x) y = memByte s y := rfl

@[simp] theorem tileOf_modStack (i : Nat) (g : Stack → Stack) (j : Nat) : tileOf (modStack s i g) j = tileOf s j := rfl
@[simp] theorem fieldOf_modStack (i : Nat) (g : Stack → Stack) (j : Nat) : fieldOf (modStack s i g) j = fieldOf s j := rfl
@[simp] theorem ringOf_modStack (i : Nat) (g : Stack → Stack) (j : Nat) : ringOf (modStack s i g) j = ringOf s j := rfl
@[simp] theorem plyOf_modStack (i : Nat) (g : Stack → Stack) (j : Nat) : plyOf (modStack s i g) j = plyOf s j := rfl
@[simp] theorem tenOf_modStack (i : Nat) (g : Stack → Stack) (j : Nat) : tenOf (modStack s i g) j = tenOf s j := rfl
@[simp] theorem hportOf_modStack (i : Nat) (g : Stack → Stack) (j : Nat) : hportOf (modStack s i g) j = hportOf s j := rfl
@[simp] theorem sportOf_modStack (i : Nat) (g : Stack → Stack) (j : Nat) : sportOf (modStack s i g) j = sportOf s j := rfl
@[simp] theorem memByte_modStack (i : Nat) (g : Stack → Stack) (y : Nat) : memByte (modStack s i g) y = memByte s y := rfl

@[simp] theorem tileOf_setTen (i : Nat) (x : Tenancy) (j : Nat) : tileOf (setTen s i x) j = tileOf s j := rfl
@[simp] theorem fieldOf_setTen (i : Nat) (x : Tenancy) (j : Nat) : fieldOf (setTen s i x) j = fieldOf s j := rfl
@[simp] theorem ringOf_setTen (i : Nat) (x : Tenancy) (j : Nat) : ringOf (setTen s i x) j = ringOf s j := rfl
@[simp] theorem plyOf_setTen (i : Nat) (x : Tenancy) (j : Nat) : plyOf (setTen s i x) j = plyOf s j := rfl
@[simp] theorem stackOf_setTen (i : Nat) (x : Tenancy) (j : Nat) : stackOf (setTen s i x) j = stackOf s j := rfl
@[simp] theorem hportOf_setTen (i : Nat) (x : Tenancy) (j : Nat) : hportOf (setTen s i x) j = hportOf s j := rfl
@[simp] theorem sportOf_setTen (i : Nat) (x : Tenancy) (j : Nat) : sportOf (setTen s i x) j = sportOf s j := rfl
@[simp] theorem memByte_setTen (i : Nat) (x : Tenancy) (y : Nat) : memByte (setTen s i x) y = memByte s y := rfl

@[simp] theorem tileOf_modTen (i : Nat) (g : Tenancy → Tenancy) (j : Nat) : tileOf (modTen s i g) j = tileOf s j := rfl
@[simp] theorem fieldOf_modTen (i : Nat) (g : Tenancy → Tenancy) (j : Nat) : fieldOf (modTen s i g) j = fieldOf s j := rfl
@[simp] theorem ringOf_modTen (i : Nat) (g : Tenancy → Tenancy) (j : Nat) : ringOf (modTen s i g) j = ringOf s j := rfl
@[simp] theorem plyOf_modTen (i : Nat) (g : Tenancy → Tenancy) (j : Nat) : plyOf (modTen s i g) j = plyOf s j := rfl
@[simp] theorem stackOf_modTen (i : Nat) (g : Tenancy → Tenancy) (j : Nat) : stackOf (modTen s i g) j = stackOf s j := rfl
@[simp] theorem hportOf_modTen (i : Nat) (g : Tenancy → Tenancy) (j : Nat) : hportOf (modTen s i g) j = hportOf s j := rfl
@[simp] theorem sportOf_modTen (i : Nat) (g : Tenancy → Tenancy) (j : Nat) : sportOf (modTen s i g) j = sportOf s j := rfl
@[simp] theorem memByte_modTen (i : Nat) (g : Tenancy → Tenancy) (y : Nat) : memByte (modTen s i g) y = memByte s y := rfl

@[simp] theorem tileOf_setHport (i : Nat) (x : HPort) (j : Nat) : tileOf (setHport s i x) j = tileOf s j := rfl
@[simp] theorem fieldOf_setHport (i : Nat) (x : HPort) (j : Nat) : fieldOf (setHport s i x) j = fieldOf s j := rfl
@[simp] theorem ringOf_setHport (i : Nat) (x : HPort) (j : Nat) : ringOf (setHport s i x) j = ringOf s j := rfl
@[simp] theorem plyOf_setHport (i : Nat) (x : HPort) (j : Nat) : plyOf (setHport s i x) j = plyOf s j := rfl
@[simp] theorem stackOf_setHport (i : Nat) (x : HPort) (j : Nat) : stackOf (setHport s i x) j = stackOf s j := rfl
@[simp] theorem tenOf_setHport (i : Nat) (x : HPort) (j : Nat) : tenOf (setHport s i x) j = tenOf s j := rfl
@[simp] theorem sportOf_setHport (i : Nat) (x : HPort) (j : Nat) : sportOf (setHport s i x) j = sportOf s j := rfl
@[simp] theorem memByte_setHport (i : Nat) (x : HPort) (y : Nat) : memByte (setHport s i x) y = memByte s y := rfl

@[simp] theorem tileOf_modHport (i : Nat) (g : HPort → HPort) (j : Nat) : tileOf (modHport s i g) j = tileOf s j := rfl
@[simp] theorem fieldOf_modHport (i : Nat) (g : HPort → HPort) (j : Nat) : fieldOf (modHport s i g) j = fieldOf s j := rfl
@[simp] theorem ringOf_modHport (i : Nat) (g : HPort → HPort) (j : Nat) : ringOf (modHport s i g) j = ringOf s j := rfl
@[simp] theorem plyOf_modHport (i : Nat) (g : HPort → HPort) (j : Nat) : plyOf (modHport s i g) j = plyOf s j := rfl
@[simp] theorem stackOf_modHport (i : Nat) (g : HPort → HPort) (j : Nat) : stackOf (modHport s i g) j = stackOf s j := rfl
@[simp] theorem tenOf_modHport (i : Nat) (g : HPort → HPort) (j : Nat) : tenOf (modHport s i g) j = tenOf s j := rfl
@[simp] theorem sportOf_modHport (i : Nat) (g : HPort → HPort) (j : Nat) : sportOf (modHport s i g) j = sportOf s j := rfl
@[simp] theorem memByte_modHport (i : Nat) (g : HPort → HPort) (y : Nat) : memByte (modHport s i g) y = memByte s y := rfl

@[simp] theorem tileOf_setSport (i : Nat) (x : SPort) (j : Nat) : tileOf (setSport s i x) j = tileOf s j := rfl
@[simp] theorem fieldOf_setSport (i : Nat) (x : SPort) (j : Nat) : fieldOf (setSport s i x) j = fieldOf s j := rfl
@[simp] theorem ringOf_setSport (i : Nat) (x : SPort) (j : Nat) : ringOf (setSport s i x) j = ringOf s j := rfl
@[simp] theorem plyOf_setSport (i : Nat) (x : SPort) (j : Nat) : plyOf (setSport s i x) j = plyOf s j := rfl
@[simp] theorem stackOf_setSport (i : Nat) (x : SPort) (j : Nat) : stackOf (setSport s i x) j = stackOf s j := rfl
@[simp] theorem tenOf_setSport (i : Nat) (x : SPort) (j : Nat) : tenOf (setSport s i x) j = tenOf s j := rfl
@[simp] theorem hportOf_setSport (i : Nat) (x : SPort) (j : Nat) : hportOf (setSport s i x) j = hportOf s j := rfl
@[simp] theorem memByte_setSport (i : Nat) (x : SPort) (y : Nat) : memByte (setSport s i x) y = memByte s y := rfl

@[simp] theorem tileOf_modSport (i : Nat) (g : SPort → SPort) (j : Nat) : tileOf (modSport s i g) j = tileOf s j := rfl
@[simp] theorem fieldOf_modSport (i : Nat) (g : SPort → SPort) (j : Nat) : fieldOf (modSport s i g) j = fieldOf s j := rfl
@[simp] theorem ringOf_modSport (i : Nat) (g : SPort → SPort) (j : Nat) : ringOf (modSport s i g) j = ringOf s j := rfl
@[simp] theorem plyOf_modSport (i : Nat) (g : SPort → SPort) (j : Nat) : plyOf (modSport s i g) j = plyOf s j := rfl
@[simp] theorem stackOf_modSport (i : Nat) (g : SPort → SPort) (j : Nat) : stackOf (modSport s i g) j = stackOf s j := rfl
@[simp] theorem tenOf_modSport (i : Nat) (g : SPort → SPort) (j : Nat) : tenOf (modSport s i g) j = tenOf s j := rfl
@[simp] theorem hportOf_modSport (i : Nat) (g : SPort → SPort) (j : Nat) : hportOf (modSport s i g) j = hportOf s j := rfl
@[simp] theorem memByte_modSport (i : Nat) (g : SPort → SPort) (y : Nat) : memByte (modSport s i g) y = memByte s y := rfl

@[simp] theorem tileOf_modNearCh (f c : Nat) (g : NearCh → NearCh) (j : Nat) : tileOf (modNearCh s f c g) j = tileOf s j := rfl
@[simp] theorem ringOf_modNearCh (f c : Nat) (g : NearCh → NearCh) (j : Nat) : ringOf (modNearCh s f c g) j = ringOf s j := rfl
@[simp] theorem plyOf_modNearCh (f c : Nat) (g : NearCh → NearCh) (j : Nat) : plyOf (modNearCh s f c g) j = plyOf s j := rfl
@[simp] theorem stackOf_modNearCh (f c : Nat) (g : NearCh → NearCh) (j : Nat) : stackOf (modNearCh s f c g) j = stackOf s j := rfl
@[simp] theorem tenOf_modNearCh (f c : Nat) (g : NearCh → NearCh) (j : Nat) : tenOf (modNearCh s f c g) j = tenOf s j := rfl
@[simp] theorem hportOf_modNearCh (f c : Nat) (g : NearCh → NearCh) (j : Nat) : hportOf (modNearCh s f c g) j = hportOf s j := rfl
@[simp] theorem sportOf_modNearCh (f c : Nat) (g : NearCh → NearCh) (j : Nat) : sportOf (modNearCh s f c g) j = sportOf s j := rfl
@[simp] theorem memByte_modNearCh (f c : Nat) (g : NearCh → NearCh) (y : Nat) : memByte (modNearCh s f c g) y = memByte s y := rfl

@[simp] theorem tileOf_modRun (n : Nat) (g : Run → Run) (j : Nat) : tileOf (modRun s n g) j = tileOf s j := rfl
@[simp] theorem fieldOf_modRun (n : Nat) (g : Run → Run) (j : Nat) : fieldOf (modRun s n g) j = fieldOf s j := rfl
@[simp] theorem ringOf_modRun (n : Nat) (g : Run → Run) (j : Nat) : ringOf (modRun s n g) j = ringOf s j := rfl
@[simp] theorem plyOf_modRun (n : Nat) (g : Run → Run) (j : Nat) : plyOf (modRun s n g) j = plyOf s j := rfl
@[simp] theorem stackOf_modRun (n : Nat) (g : Run → Run) (j : Nat) : stackOf (modRun s n g) j = stackOf s j := rfl
@[simp] theorem hportOf_modRun (n : Nat) (g : Run → Run) (j : Nat) : hportOf (modRun s n g) j = hportOf s j := rfl
@[simp] theorem sportOf_modRun (n : Nat) (g : Run → Run) (j : Nat) : sportOf (modRun s n g) j = sportOf s j := rfl
@[simp] theorem memByte_modRun (n : Nat) (g : Run → Run) (y : Nat) : memByte (modRun s n g) y = memByte s y := rfl

@[simp] theorem tileOf_modBox (g : Box → Box) (j : Nat) : tileOf (modBox s g) j = tileOf s j := rfl
@[simp] theorem fieldOf_modBox (g : Box → Box) (j : Nat) : fieldOf (modBox s g) j = fieldOf s j := rfl
@[simp] theorem ringOf_modBox (g : Box → Box) (j : Nat) : ringOf (modBox s g) j = ringOf s j := rfl
@[simp] theorem plyOf_modBox (g : Box → Box) (j : Nat) : plyOf (modBox s g) j = plyOf s j := rfl
@[simp] theorem stackOf_modBox (g : Box → Box) (j : Nat) : stackOf (modBox s g) j = stackOf s j := rfl
@[simp] theorem tenOf_modBox (g : Box → Box) (j : Nat) : tenOf (modBox s g) j = tenOf s j := rfl
@[simp] theorem hportOf_modBox (g : Box → Box) (j : Nat) : hportOf (modBox s g) j = hportOf s j := rfl
@[simp] theorem sportOf_modBox (g : Box → Box) (j : Nat) : sportOf (modBox s g) j = sportOf s j := rfl
@[simp] theorem memByte_modBox (g : Box → Box) (y : Nat) : memByte (modBox s g) y = memByte s y := rfl

@[simp] theorem tileOf_modPwr (g : Power → Power) (j : Nat) : tileOf (modPwr s g) j = tileOf s j := rfl
@[simp] theorem fieldOf_modPwr (g : Power → Power) (j : Nat) : fieldOf (modPwr s g) j = fieldOf s j := rfl
@[simp] theorem ringOf_modPwr (g : Power → Power) (j : Nat) : ringOf (modPwr s g) j = ringOf s j := rfl
@[simp] theorem plyOf_modPwr (g : Power → Power) (j : Nat) : plyOf (modPwr s g) j = plyOf s j := rfl
@[simp] theorem stackOf_modPwr (g : Power → Power) (j : Nat) : stackOf (modPwr s g) j = stackOf s j := rfl
@[simp] theorem tenOf_modPwr (g : Power → Power) (j : Nat) : tenOf (modPwr s g) j = tenOf s j := rfl
@[simp] theorem hportOf_modPwr (g : Power → Power) (j : Nat) : hportOf (modPwr s g) j = hportOf s j := rfl
@[simp] theorem sportOf_modPwr (g : Power → Power) (j : Nat) : sportOf (modPwr s g) j = sportOf s j := rfl
@[simp] theorem memByte_modPwr (g : Power → Power) (y : Nat) : memByte (modPwr s g) y = memByte s y := rfl

@[simp] theorem tileOf_modCan (g : Can → Can) (j : Nat) : tileOf (modCan s g) j = tileOf s j := rfl
@[simp] theorem fieldOf_modCan (g : Can → Can) (j : Nat) : fieldOf (modCan s g) j = fieldOf s j := rfl
@[simp] theorem ringOf_modCan (g : Can → Can) (j : Nat) : ringOf (modCan s g) j = ringOf s j := rfl
@[simp] theorem plyOf_modCan (g : Can → Can) (j : Nat) : plyOf (modCan s g) j = plyOf s j := rfl
@[simp] theorem stackOf_modCan (g : Can → Can) (j : Nat) : stackOf (modCan s g) j = stackOf s j := rfl
@[simp] theorem tenOf_modCan (g : Can → Can) (j : Nat) : tenOf (modCan s g) j = tenOf s j := rfl
@[simp] theorem hportOf_modCan (g : Can → Can) (j : Nat) : hportOf (modCan s g) j = hportOf s j := rfl
@[simp] theorem sportOf_modCan (g : Can → Can) (j : Nat) : sportOf (modCan s g) j = sportOf s j := rfl
@[simp] theorem memByte_modCan (g : Can → Can) (y : Nat) : memByte (modCan s g) y = memByte s y := rfl

@[simp] theorem tileOf_memWrite (a : Nat) (bs : List Byte) (j : Nat) : tileOf (memWrite s a bs) j = tileOf s j := rfl
@[simp] theorem fieldOf_memWrite (a : Nat) (bs : List Byte) (j : Nat) : fieldOf (memWrite s a bs) j = fieldOf s j := rfl
@[simp] theorem ringOf_memWrite (a : Nat) (bs : List Byte) (j : Nat) : ringOf (memWrite s a bs) j = ringOf s j := rfl
@[simp] theorem plyOf_memWrite (a : Nat) (bs : List Byte) (j : Nat) : plyOf (memWrite s a bs) j = plyOf s j := rfl
@[simp] theorem stackOf_memWrite (a : Nat) (bs : List Byte) (j : Nat) : stackOf (memWrite s a bs) j = stackOf s j := rfl
@[simp] theorem tenOf_memWrite (a : Nat) (bs : List Byte) (j : Nat) : tenOf (memWrite s a bs) j = tenOf s j := rfl
@[simp] theorem hportOf_memWrite (a : Nat) (bs : List Byte) (j : Nat) : hportOf (memWrite s a bs) j = hportOf s j := rfl
@[simp] theorem sportOf_memWrite (a : Nat) (bs : List Byte) (j : Nat) : sportOf (memWrite s a bs) j = sportOf s j := rfl

@[simp] theorem tileOf_poisonLanes (ls : List Nat) (j : Nat) : tileOf (poisonLanes s ls) j = tileOf s j := rfl
@[simp] theorem fieldOf_poisonLanes (ls : List Nat) (j : Nat) : fieldOf (poisonLanes s ls) j = fieldOf s j := rfl
@[simp] theorem ringOf_poisonLanes (ls : List Nat) (j : Nat) : ringOf (poisonLanes s ls) j = ringOf s j := rfl
@[simp] theorem plyOf_poisonLanes (ls : List Nat) (j : Nat) : plyOf (poisonLanes s ls) j = plyOf s j := rfl
@[simp] theorem stackOf_poisonLanes (ls : List Nat) (j : Nat) : stackOf (poisonLanes s ls) j = stackOf s j := rfl
@[simp] theorem tenOf_poisonLanes (ls : List Nat) (j : Nat) : tenOf (poisonLanes s ls) j = tenOf s j := rfl
@[simp] theorem hportOf_poisonLanes (ls : List Nat) (j : Nat) : hportOf (poisonLanes s ls) j = hportOf s j := rfl
@[simp] theorem sportOf_poisonLanes (ls : List Nat) (j : Nat) : sportOf (poisonLanes s ls) j = sportOf s j := rfl
@[simp] theorem memByte_poisonLanes (ls : List Nat) (y : Nat) : memByte (poisonLanes s ls) y = memByte s y := rfl

@[simp] theorem tileOf_memWriteP (a : Nat) (bs : List Byte) (ls : List Nat) (j : Nat) : tileOf (memWriteP s a bs ls) j = tileOf s j := rfl
@[simp] theorem fieldOf_memWriteP (a : Nat) (bs : List Byte) (ls : List Nat) (j : Nat) : fieldOf (memWriteP s a bs ls) j = fieldOf s j := rfl
@[simp] theorem ringOf_memWriteP (a : Nat) (bs : List Byte) (ls : List Nat) (j : Nat) : ringOf (memWriteP s a bs ls) j = ringOf s j := rfl
@[simp] theorem plyOf_memWriteP (a : Nat) (bs : List Byte) (ls : List Nat) (j : Nat) : plyOf (memWriteP s a bs ls) j = plyOf s j := rfl
@[simp] theorem stackOf_memWriteP (a : Nat) (bs : List Byte) (ls : List Nat) (j : Nat) : stackOf (memWriteP s a bs ls) j = stackOf s j := rfl
@[simp] theorem tenOf_memWriteP (a : Nat) (bs : List Byte) (ls : List Nat) (j : Nat) : tenOf (memWriteP s a bs ls) j = tenOf s j := rfl
@[simp] theorem hportOf_memWriteP (a : Nat) (bs : List Byte) (ls : List Nat) (j : Nat) : hportOf (memWriteP s a bs ls) j = hportOf s j := rfl
@[simp] theorem sportOf_memWriteP (a : Nat) (bs : List Byte) (ls : List Nat) (j : Nat) : sportOf (memWriteP s a bs ls) j = sportOf s j := rfl

@[simp] theorem tileOf_memClear (lo hi : Nat) (j : Nat) : tileOf (memClear s lo hi) j = tileOf s j := rfl
@[simp] theorem fieldOf_memClear (lo hi : Nat) (j : Nat) : fieldOf (memClear s lo hi) j = fieldOf s j := rfl
@[simp] theorem ringOf_memClear (lo hi : Nat) (j : Nat) : ringOf (memClear s lo hi) j = ringOf s j := rfl
@[simp] theorem plyOf_memClear (lo hi : Nat) (j : Nat) : plyOf (memClear s lo hi) j = plyOf s j := rfl
@[simp] theorem stackOf_memClear (lo hi : Nat) (j : Nat) : stackOf (memClear s lo hi) j = stackOf s j := rfl
@[simp] theorem tenOf_memClear (lo hi : Nat) (j : Nat) : tenOf (memClear s lo hi) j = tenOf s j := rfl
@[simp] theorem hportOf_memClear (lo hi : Nat) (j : Nat) : hportOf (memClear s lo hi) j = hportOf s j := rfl
@[simp] theorem sportOf_memClear (lo hi : Nat) (j : Nat) : sportOf (memClear s lo hi) j = sportOf s j := rfl

@[simp] theorem tileOf_hostWrite (p a : Nat) (bs : List Byte) (j : Nat) : tileOf (hostWrite s p a bs) j = tileOf s j := rfl
@[simp] theorem fieldOf_hostWrite (p a : Nat) (bs : List Byte) (j : Nat) : fieldOf (hostWrite s p a bs) j = fieldOf s j := rfl
@[simp] theorem ringOf_hostWrite (p a : Nat) (bs : List Byte) (j : Nat) : ringOf (hostWrite s p a bs) j = ringOf s j := rfl
@[simp] theorem plyOf_hostWrite (p a : Nat) (bs : List Byte) (j : Nat) : plyOf (hostWrite s p a bs) j = plyOf s j := rfl
@[simp] theorem stackOf_hostWrite (p a : Nat) (bs : List Byte) (j : Nat) : stackOf (hostWrite s p a bs) j = stackOf s j := rfl
@[simp] theorem tenOf_hostWrite (p a : Nat) (bs : List Byte) (j : Nat) : tenOf (hostWrite s p a bs) j = tenOf s j := rfl
@[simp] theorem hportOf_hostWrite (p a : Nat) (bs : List Byte) (j : Nat) : hportOf (hostWrite s p a bs) j = hportOf s j := rfl
@[simp] theorem sportOf_hostWrite (p a : Nat) (bs : List Byte) (j : Nat) : sportOf (hostWrite s p a bs) j = sportOf s j := rfl
@[simp] theorem memByte_hostWrite (p a : Nat) (bs : List Byte) (y : Nat) : memByte (hostWrite s p a bs) y = memByte s y := rfl

/-! ### Readers after an update of the same part -/

theorem tileOf_setTile (i j : Nat) (x : Tile) : tileOf (setTile s i x) j = if j = i then x else tileOf s j :=
  smap_get_put _ _ _ _ _
theorem tileOf_modTile (i j : Nat) (g : Tile → Tile) :
    tileOf (modTile s i g) j = if j = i then g (tileOf s i) else tileOf s j := smap_get_put _ _ _ _ _
@[simp] theorem tileOf_setTile_same (i : Nat) (x : Tile) : tileOf (setTile s i x) i = x := smap_get_put_same _ _ _ _
@[simp] theorem tileOf_modTile_same (i : Nat) (g : Tile → Tile) : tileOf (modTile s i g) i = g (tileOf s i) :=
  smap_get_put_same _ _ _ _

theorem fieldOf_setField (i j : Nat) (x : Field) : fieldOf (setField s i x) j = if j = i then x else fieldOf s j :=
  smap_get_put _ _ _ _ _
theorem fieldOf_modField (i j : Nat) (g : Field → Field) :
    fieldOf (modField s i g) j = if j = i then g (fieldOf s i) else fieldOf s j := smap_get_put _ _ _ _ _
@[simp] theorem fieldOf_setField_same (i : Nat) (x : Field) : fieldOf (setField s i x) i = x := smap_get_put_same _ _ _ _
@[simp] theorem fieldOf_modField_same (i : Nat) (g : Field → Field) : fieldOf (modField s i g) i = g (fieldOf s i) :=
  smap_get_put_same _ _ _ _

theorem ringOf_setRing (i j : Nat) (x : Ring) : ringOf (setRing s i x) j = if j = i then x else ringOf s j :=
  smap_get_put _ _ _ _ _
theorem ringOf_modRing (i j : Nat) (g : Ring → Ring) :
    ringOf (modRing s i g) j = if j = i then g (ringOf s i) else ringOf s j := smap_get_put _ _ _ _ _
@[simp] theorem ringOf_setRing_same (i : Nat) (x : Ring) : ringOf (setRing s i x) i = x := smap_get_put_same _ _ _ _
@[simp] theorem ringOf_modRing_same (i : Nat) (g : Ring → Ring) : ringOf (modRing s i g) i = g (ringOf s i) :=
  smap_get_put_same _ _ _ _

theorem plyOf_setPly (i j : Nat) (x : Ply) : plyOf (setPly s i x) j = if j = i then x else plyOf s j :=
  smap_get_put _ _ _ _ _
theorem plyOf_modPly (i j : Nat) (g : Ply → Ply) :
    plyOf (modPly s i g) j = if j = i then g (plyOf s i) else plyOf s j := smap_get_put _ _ _ _ _
@[simp] theorem plyOf_setPly_same (i : Nat) (x : Ply) : plyOf (setPly s i x) i = x := smap_get_put_same _ _ _ _
@[simp] theorem plyOf_modPly_same (i : Nat) (g : Ply → Ply) : plyOf (modPly s i g) i = g (plyOf s i) :=
  smap_get_put_same _ _ _ _

theorem stackOf_setStack (i j : Nat) (x : Stack) : stackOf (setStack s i x) j = if j = i then x else stackOf s j :=
  smap_get_put _ _ _ _ _
theorem stackOf_modStack (i j : Nat) (g : Stack → Stack) :
    stackOf (modStack s i g) j = if j = i then g (stackOf s i) else stackOf s j := smap_get_put _ _ _ _ _
@[simp] theorem stackOf_setStack_same (i : Nat) (x : Stack) : stackOf (setStack s i x) i = x := smap_get_put_same _ _ _ _
@[simp] theorem stackOf_modStack_same (i : Nat) (g : Stack → Stack) : stackOf (modStack s i g) i = g (stackOf s i) :=
  smap_get_put_same _ _ _ _

theorem tenOf_setTen (i j : Nat) (x : Tenancy) : tenOf (setTen s i x) j = if j = i then x else tenOf s j :=
  smap_get_put _ _ _ _ _
theorem tenOf_modTen (i j : Nat) (g : Tenancy → Tenancy) :
    tenOf (modTen s i g) j = if j = i then g (tenOf s i) else tenOf s j := smap_get_put _ _ _ _ _
@[simp] theorem tenOf_setTen_same (i : Nat) (x : Tenancy) : tenOf (setTen s i x) i = x := smap_get_put_same _ _ _ _
@[simp] theorem tenOf_modTen_same (i : Nat) (g : Tenancy → Tenancy) : tenOf (modTen s i g) i = g (tenOf s i) :=
  smap_get_put_same _ _ _ _

theorem hportOf_setHport (i j : Nat) (x : HPort) : hportOf (setHport s i x) j = if j = i then x else hportOf s j :=
  smap_get_put _ _ _ _ _
theorem hportOf_modHport (i j : Nat) (g : HPort → HPort) :
    hportOf (modHport s i g) j = if j = i then g (hportOf s i) else hportOf s j := smap_get_put _ _ _ _ _
@[simp] theorem hportOf_setHport_same (i : Nat) (x : HPort) : hportOf (setHport s i x) i = x := smap_get_put_same _ _ _ _
@[simp] theorem hportOf_modHport_same (i : Nat) (g : HPort → HPort) : hportOf (modHport s i g) i = g (hportOf s i) :=
  smap_get_put_same _ _ _ _

theorem sportOf_setSport (i j : Nat) (x : SPort) : sportOf (setSport s i x) j = if j = i then x else sportOf s j :=
  smap_get_put _ _ _ _ _
theorem sportOf_modSport (i j : Nat) (g : SPort → SPort) :
    sportOf (modSport s i g) j = if j = i then g (sportOf s i) else sportOf s j := smap_get_put _ _ _ _ _
@[simp] theorem sportOf_setSport_same (i : Nat) (x : SPort) : sportOf (setSport s i x) i = x := smap_get_put_same _ _ _ _
@[simp] theorem sportOf_modSport_same (i : Nat) (g : SPort → SPort) : sportOf (modSport s i g) i = g (sportOf s i) :=
  smap_get_put_same _ _ _ _

@[simp] theorem modBox_box (g : Box → Box) : (modBox s g).box = g s.box := rfl
@[simp] theorem modPwr_pwr (g : Power → Power) : (modPwr s g).pwr = g s.pwr := rfl
@[simp] theorem modCan_can (g : Can → Can) : (modCan s g).can = g s.can := rfl

/-! ### Event records, refinements and failures -/

@[simp] theorem stageRec_pending (p : Nat) (r : EvRec) : (stageRec s p r).pending = s.pending := by unfold stageRec; dsimp only; repeat (split <;> try rfl)
@[simp] theorem stageRec_fused (p : Nat) (r : EvRec) : (stageRec s p r).fused = s.fused := by unfold stageRec; dsimp only; repeat (split <;> try rfl)
@[simp] theorem stageRec_time (p : Nat) (r : EvRec) : (stageRec s p r).time = s.time := by unfold stageRec; dsimp only; repeat (split <;> try rfl)
@[simp] theorem stageRec_pins (p : Nat) (r : EvRec) : (stageRec s p r).pins = s.pins := by unfold stageRec; dsimp only; repeat (split <;> try rfl)
@[simp] theorem stageRec_pwr (p : Nat) (r : EvRec) : (stageRec s p r).pwr = s.pwr := by unfold stageRec; dsimp only; repeat (split <;> try rfl)
@[simp] theorem stageRec_tiles (p : Nat) (r : EvRec) : (stageRec s p r).tiles = s.tiles := by unfold stageRec; dsimp only; repeat (split <;> try rfl)
@[simp] theorem stageRec_fields (p : Nat) (r : EvRec) : (stageRec s p r).fields = s.fields := by unfold stageRec; dsimp only; repeat (split <;> try rfl)
@[simp] theorem stageRec_rings (p : Nat) (r : EvRec) : (stageRec s p r).rings = s.rings := by unfold stageRec; dsimp only; repeat (split <;> try rfl)
@[simp] theorem stageRec_farStacks (p : Nat) (r : EvRec) : (stageRec s p r).farStacks = s.farStacks := by unfold stageRec; dsimp only; repeat (split <;> try rfl)
@[simp] theorem stageRec_tens (p : Nat) (r : EvRec) : (stageRec s p r).tens = s.tens := by unfold stageRec; dsimp only; repeat (split <;> try rfl)
@[simp] theorem stageRec_hports (p : Nat) (r : EvRec) : (stageRec s p r).hports = s.hports := by unfold stageRec; dsimp only; repeat (split <;> try rfl)
@[simp] theorem stageRec_sports (p : Nat) (r : EvRec) : (stageRec s p r).sports = s.sports := by unfold stageRec; dsimp only; repeat (split <;> try rfl)
@[simp] theorem stageRec_can (p : Nat) (r : EvRec) : (stageRec s p r).can = s.can := by unfold stageRec; dsimp only; repeat (split <;> try rfl)
@[simp] theorem stageRec_net (p : Nat) (r : EvRec) : (stageRec s p r).net = s.net := by unfold stageRec; dsimp only; repeat (split <;> try rfl)
@[simp] theorem stageRec_agentReqs (p : Nat) (r : EvRec) : (stageRec s p r).agentReqs = s.agentReqs := by unfold stageRec; dsimp only; repeat (split <;> try rfl)
@[simp] theorem stageRec_reqSeq (p : Nat) (r : EvRec) : (stageRec s p r).reqSeq = s.reqSeq := by unfold stageRec; dsimp only; repeat (split <;> try rfl)
@[simp] theorem stageRec_agentSeq (p : Nat) (r : EvRec) : (stageRec s p r).agentSeq = s.agentSeq := by unfold stageRec; dsimp only; repeat (split <;> try rfl)
@[simp] theorem stageRec_agentTaken (p : Nat) (r : EvRec) : (stageRec s p r).agentTaken = s.agentTaken := by unfold stageRec; dsimp only; repeat (split <;> try rfl)
@[simp] theorem stageRec_agentPark (p : Nat) (r : EvRec) : (stageRec s p r).agentPark = s.agentPark := by unfold stageRec; dsimp only; repeat (split <;> try rfl)
@[simp] theorem stageRec_agentNack (p : Nat) (r : EvRec) : (stageRec s p r).agentNack = s.agentNack := by unfold stageRec; dsimp only; repeat (split <;> try rfl)
@[simp] theorem stageRec_agentOut (p : Nat) (r : EvRec) : (stageRec s p r).agentOut = s.agentOut := by unfold stageRec; dsimp only; repeat (split <;> try rfl)
@[simp] theorem stageRec_hbSeen (p : Nat) (r : EvRec) : (stageRec s p r).hbSeen = s.hbSeen := by unfold stageRec; dsimp only; repeat (split <;> try rfl)
@[simp] theorem stageRec_hbMissed (p : Nat) (r : EvRec) : (stageRec s p r).hbMissed = s.hbMissed := by unfold stageRec; dsimp only; repeat (split <;> try rfl)
@[simp] theorem stageRec_hbLost (p : Nat) (r : EvRec) : (stageRec s p r).hbLost = s.hbLost := by unfold stageRec; dsimp only; repeat (split <;> try rfl)
@[simp] theorem stageRec_mem (p : Nat) (r : EvRec) : (stageRec s p r).mem = s.mem := by unfold stageRec; dsimp only; repeat (split <;> try rfl)
@[simp] theorem stageRec_poison (p : Nat) (r : EvRec) : (stageRec s p r).poison = s.poison := by unfold stageRec; dsimp only; repeat (split <;> try rfl)
@[simp] theorem stageRec_latent (p : Nat) (r : EvRec) : (stageRec s p r).latent = s.latent := by unfold stageRec; dsimp only; repeat (split <;> try rfl)
@[simp] theorem stageRec_hostOut (p : Nat) (r : EvRec) : (stageRec s p r).hostOut = s.hostOut := by unfold stageRec; dsimp only; repeat (split <;> try rfl)
@[simp] theorem stageRec_regOut (p : Nat) (r : EvRec) : (stageRec s p r).regOut = s.regOut := by unfold stageRec; dsimp only; repeat (split <;> try rfl)
@[simp] theorem stageRec_regPoison (p : Nat) (r : EvRec) : (stageRec s p r).regPoison = s.regPoison := by unfold stageRec; dsimp only; repeat (split <;> try rfl)
@[simp] theorem stageRec_freeCtr (p : Nat) (r : EvRec) : (stageRec s p r).freeCtr = s.freeCtr := by unfold stageRec; dsimp only; repeat (split <;> try rfl)
@[simp] theorem tileOf_stageRec (p : Nat) (r : EvRec) (j : Nat) : tileOf (stageRec s p r) j = tileOf s j := by
  unfold tileOf; rw [stageRec_tiles]
@[simp] theorem fieldOf_stageRec (p : Nat) (r : EvRec) (j : Nat) : fieldOf (stageRec s p r) j = fieldOf s j := by
  unfold fieldOf; rw [stageRec_fields]
@[simp] theorem ringOf_stageRec (p : Nat) (r : EvRec) (j : Nat) : ringOf (stageRec s p r) j = ringOf s j := by
  unfold ringOf; rw [stageRec_rings]
@[simp] theorem stackOf_stageRec (p : Nat) (r : EvRec) (j : Nat) : stackOf (stageRec s p r) j = stackOf s j := by
  unfold stackOf; rw [stageRec_farStacks]
@[simp] theorem tenOf_stageRec (p : Nat) (r : EvRec) (j : Nat) : tenOf (stageRec s p r) j = tenOf s j := by
  unfold tenOf; rw [stageRec_tens]
@[simp] theorem hportOf_stageRec (p : Nat) (r : EvRec) (j : Nat) : hportOf (stageRec s p r) j = hportOf s j := by
  unfold hportOf; rw [stageRec_hports]
@[simp] theorem sportOf_stageRec (p : Nat) (r : EvRec) (j : Nat) : sportOf (stageRec s p r) j = sportOf s j := by
  unfold sportOf; rw [stageRec_sports]
@[simp] theorem memByte_stageRec (p : Nat) (r : EvRec) (j : Nat) : memByte (stageRec s p r) j = memByte s j := by
  unfold memByte; rw [stageRec_mem]

@[simp] theorem evField_pending (f cls code d : Nat) (l : Nat) : (evField s f cls code d l).pending = s.pending := stageRec_pending _ _ _
@[simp] theorem evField_fused (f cls code d : Nat) (l : Nat) : (evField s f cls code d l).fused = s.fused := stageRec_fused _ _ _
@[simp] theorem evField_time (f cls code d : Nat) (l : Nat) : (evField s f cls code d l).time = s.time := stageRec_time _ _ _
@[simp] theorem evField_pins (f cls code d : Nat) (l : Nat) : (evField s f cls code d l).pins = s.pins := stageRec_pins _ _ _
@[simp] theorem evField_pwr (f cls code d : Nat) (l : Nat) : (evField s f cls code d l).pwr = s.pwr := stageRec_pwr _ _ _
@[simp] theorem evField_tiles (f cls code d : Nat) (l : Nat) : (evField s f cls code d l).tiles = s.tiles := stageRec_tiles _ _ _
@[simp] theorem evField_fields (f cls code d : Nat) (l : Nat) : (evField s f cls code d l).fields = s.fields := stageRec_fields _ _ _
@[simp] theorem evField_rings (f cls code d : Nat) (l : Nat) : (evField s f cls code d l).rings = s.rings := stageRec_rings _ _ _
@[simp] theorem evField_farStacks (f cls code d : Nat) (l : Nat) : (evField s f cls code d l).farStacks = s.farStacks := stageRec_farStacks _ _ _
@[simp] theorem evField_tens (f cls code d : Nat) (l : Nat) : (evField s f cls code d l).tens = s.tens := stageRec_tens _ _ _
@[simp] theorem evField_hports (f cls code d : Nat) (l : Nat) : (evField s f cls code d l).hports = s.hports := stageRec_hports _ _ _
@[simp] theorem evField_sports (f cls code d : Nat) (l : Nat) : (evField s f cls code d l).sports = s.sports := stageRec_sports _ _ _
@[simp] theorem evField_can (f cls code d : Nat) (l : Nat) : (evField s f cls code d l).can = s.can := stageRec_can _ _ _
@[simp] theorem evField_net (f cls code d : Nat) (l : Nat) : (evField s f cls code d l).net = s.net := stageRec_net _ _ _
@[simp] theorem evField_agentReqs (f cls code d : Nat) (l : Nat) : (evField s f cls code d l).agentReqs = s.agentReqs := stageRec_agentReqs _ _ _
@[simp] theorem evField_reqSeq (f cls code d : Nat) (l : Nat) : (evField s f cls code d l).reqSeq = s.reqSeq := stageRec_reqSeq _ _ _
@[simp] theorem evField_agentSeq (f cls code d : Nat) (l : Nat) : (evField s f cls code d l).agentSeq = s.agentSeq := stageRec_agentSeq _ _ _
@[simp] theorem evField_agentTaken (f cls code d : Nat) (l : Nat) : (evField s f cls code d l).agentTaken = s.agentTaken := stageRec_agentTaken _ _ _
@[simp] theorem evField_agentPark (f cls code d : Nat) (l : Nat) : (evField s f cls code d l).agentPark = s.agentPark := stageRec_agentPark _ _ _
@[simp] theorem evField_agentNack (f cls code d : Nat) (l : Nat) : (evField s f cls code d l).agentNack = s.agentNack := stageRec_agentNack _ _ _
@[simp] theorem evField_agentOut (f cls code d : Nat) (l : Nat) : (evField s f cls code d l).agentOut = s.agentOut := stageRec_agentOut _ _ _
@[simp] theorem evField_hbSeen (f cls code d : Nat) (l : Nat) : (evField s f cls code d l).hbSeen = s.hbSeen := stageRec_hbSeen _ _ _
@[simp] theorem evField_hbMissed (f cls code d : Nat) (l : Nat) : (evField s f cls code d l).hbMissed = s.hbMissed := stageRec_hbMissed _ _ _
@[simp] theorem evField_hbLost (f cls code d : Nat) (l : Nat) : (evField s f cls code d l).hbLost = s.hbLost := stageRec_hbLost _ _ _
@[simp] theorem evField_mem (f cls code d : Nat) (l : Nat) : (evField s f cls code d l).mem = s.mem := stageRec_mem _ _ _
@[simp] theorem evField_poison (f cls code d : Nat) (l : Nat) : (evField s f cls code d l).poison = s.poison := stageRec_poison _ _ _
@[simp] theorem evField_latent (f cls code d : Nat) (l : Nat) : (evField s f cls code d l).latent = s.latent := stageRec_latent _ _ _
@[simp] theorem evField_hostOut (f cls code d : Nat) (l : Nat) : (evField s f cls code d l).hostOut = s.hostOut := stageRec_hostOut _ _ _
@[simp] theorem evField_regOut (f cls code d : Nat) (l : Nat) : (evField s f cls code d l).regOut = s.regOut := stageRec_regOut _ _ _
@[simp] theorem evField_regPoison (f cls code d : Nat) (l : Nat) : (evField s f cls code d l).regPoison = s.regPoison := stageRec_regPoison _ _ _
@[simp] theorem evField_freeCtr (f cls code d : Nat) (l : Nat) : (evField s f cls code d l).freeCtr = s.freeCtr := stageRec_freeCtr _ _ _
@[simp] theorem tileOf_evField (f cls code d : Nat) (l : Nat) (j : Nat) : tileOf (evField s f cls code d l) j = tileOf s j := by
  unfold tileOf; rw [evField_tiles]
@[simp] theorem fieldOf_evField (f cls code d : Nat) (l : Nat) (j : Nat) : fieldOf (evField s f cls code d l) j = fieldOf s j := by
  unfold fieldOf; rw [evField_fields]
@[simp] theorem ringOf_evField (f cls code d : Nat) (l : Nat) (j : Nat) : ringOf (evField s f cls code d l) j = ringOf s j := by
  unfold ringOf; rw [evField_rings]
@[simp] theorem stackOf_evField (f cls code d : Nat) (l : Nat) (j : Nat) : stackOf (evField s f cls code d l) j = stackOf s j := by
  unfold stackOf; rw [evField_farStacks]
@[simp] theorem tenOf_evField (f cls code d : Nat) (l : Nat) (j : Nat) : tenOf (evField s f cls code d l) j = tenOf s j := by
  unfold tenOf; rw [evField_tens]
@[simp] theorem hportOf_evField (f cls code d : Nat) (l : Nat) (j : Nat) : hportOf (evField s f cls code d l) j = hportOf s j := by
  unfold hportOf; rw [evField_hports]
@[simp] theorem sportOf_evField (f cls code d : Nat) (l : Nat) (j : Nat) : sportOf (evField s f cls code d l) j = sportOf s j := by
  unfold sportOf; rw [evField_sports]
@[simp] theorem memByte_evField (f cls code d : Nat) (l : Nat) (j : Nat) : memByte (evField s f cls code d l) j = memByte s j := by
  unfold memByte; rw [evField_mem]

@[simp] theorem evRing_pending (r cls code d : Nat) (l : Nat) : (evRing s r cls code d l).pending = s.pending := stageRec_pending _ _ _
@[simp] theorem evRing_fused (r cls code d : Nat) (l : Nat) : (evRing s r cls code d l).fused = s.fused := stageRec_fused _ _ _
@[simp] theorem evRing_time (r cls code d : Nat) (l : Nat) : (evRing s r cls code d l).time = s.time := stageRec_time _ _ _
@[simp] theorem evRing_pins (r cls code d : Nat) (l : Nat) : (evRing s r cls code d l).pins = s.pins := stageRec_pins _ _ _
@[simp] theorem evRing_pwr (r cls code d : Nat) (l : Nat) : (evRing s r cls code d l).pwr = s.pwr := stageRec_pwr _ _ _
@[simp] theorem evRing_tiles (r cls code d : Nat) (l : Nat) : (evRing s r cls code d l).tiles = s.tiles := stageRec_tiles _ _ _
@[simp] theorem evRing_fields (r cls code d : Nat) (l : Nat) : (evRing s r cls code d l).fields = s.fields := stageRec_fields _ _ _
@[simp] theorem evRing_rings (r cls code d : Nat) (l : Nat) : (evRing s r cls code d l).rings = s.rings := stageRec_rings _ _ _
@[simp] theorem evRing_farStacks (r cls code d : Nat) (l : Nat) : (evRing s r cls code d l).farStacks = s.farStacks := stageRec_farStacks _ _ _
@[simp] theorem evRing_tens (r cls code d : Nat) (l : Nat) : (evRing s r cls code d l).tens = s.tens := stageRec_tens _ _ _
@[simp] theorem evRing_hports (r cls code d : Nat) (l : Nat) : (evRing s r cls code d l).hports = s.hports := stageRec_hports _ _ _
@[simp] theorem evRing_sports (r cls code d : Nat) (l : Nat) : (evRing s r cls code d l).sports = s.sports := stageRec_sports _ _ _
@[simp] theorem evRing_can (r cls code d : Nat) (l : Nat) : (evRing s r cls code d l).can = s.can := stageRec_can _ _ _
@[simp] theorem evRing_net (r cls code d : Nat) (l : Nat) : (evRing s r cls code d l).net = s.net := stageRec_net _ _ _
@[simp] theorem evRing_agentReqs (r cls code d : Nat) (l : Nat) : (evRing s r cls code d l).agentReqs = s.agentReqs := stageRec_agentReqs _ _ _
@[simp] theorem evRing_reqSeq (r cls code d : Nat) (l : Nat) : (evRing s r cls code d l).reqSeq = s.reqSeq := stageRec_reqSeq _ _ _
@[simp] theorem evRing_agentSeq (r cls code d : Nat) (l : Nat) : (evRing s r cls code d l).agentSeq = s.agentSeq := stageRec_agentSeq _ _ _
@[simp] theorem evRing_agentTaken (r cls code d : Nat) (l : Nat) : (evRing s r cls code d l).agentTaken = s.agentTaken := stageRec_agentTaken _ _ _
@[simp] theorem evRing_agentPark (r cls code d : Nat) (l : Nat) : (evRing s r cls code d l).agentPark = s.agentPark := stageRec_agentPark _ _ _
@[simp] theorem evRing_agentNack (r cls code d : Nat) (l : Nat) : (evRing s r cls code d l).agentNack = s.agentNack := stageRec_agentNack _ _ _
@[simp] theorem evRing_agentOut (r cls code d : Nat) (l : Nat) : (evRing s r cls code d l).agentOut = s.agentOut := stageRec_agentOut _ _ _
@[simp] theorem evRing_hbSeen (r cls code d : Nat) (l : Nat) : (evRing s r cls code d l).hbSeen = s.hbSeen := stageRec_hbSeen _ _ _
@[simp] theorem evRing_hbMissed (r cls code d : Nat) (l : Nat) : (evRing s r cls code d l).hbMissed = s.hbMissed := stageRec_hbMissed _ _ _
@[simp] theorem evRing_hbLost (r cls code d : Nat) (l : Nat) : (evRing s r cls code d l).hbLost = s.hbLost := stageRec_hbLost _ _ _
@[simp] theorem evRing_mem (r cls code d : Nat) (l : Nat) : (evRing s r cls code d l).mem = s.mem := stageRec_mem _ _ _
@[simp] theorem evRing_poison (r cls code d : Nat) (l : Nat) : (evRing s r cls code d l).poison = s.poison := stageRec_poison _ _ _
@[simp] theorem evRing_latent (r cls code d : Nat) (l : Nat) : (evRing s r cls code d l).latent = s.latent := stageRec_latent _ _ _
@[simp] theorem evRing_hostOut (r cls code d : Nat) (l : Nat) : (evRing s r cls code d l).hostOut = s.hostOut := stageRec_hostOut _ _ _
@[simp] theorem evRing_regOut (r cls code d : Nat) (l : Nat) : (evRing s r cls code d l).regOut = s.regOut := stageRec_regOut _ _ _
@[simp] theorem evRing_regPoison (r cls code d : Nat) (l : Nat) : (evRing s r cls code d l).regPoison = s.regPoison := stageRec_regPoison _ _ _
@[simp] theorem evRing_freeCtr (r cls code d : Nat) (l : Nat) : (evRing s r cls code d l).freeCtr = s.freeCtr := stageRec_freeCtr _ _ _
@[simp] theorem tileOf_evRing (r cls code d : Nat) (l : Nat) (j : Nat) : tileOf (evRing s r cls code d l) j = tileOf s j := by
  unfold tileOf; rw [evRing_tiles]
@[simp] theorem fieldOf_evRing (r cls code d : Nat) (l : Nat) (j : Nat) : fieldOf (evRing s r cls code d l) j = fieldOf s j := by
  unfold fieldOf; rw [evRing_fields]
@[simp] theorem ringOf_evRing (r cls code d : Nat) (l : Nat) (j : Nat) : ringOf (evRing s r cls code d l) j = ringOf s j := by
  unfold ringOf; rw [evRing_rings]
@[simp] theorem stackOf_evRing (r cls code d : Nat) (l : Nat) (j : Nat) : stackOf (evRing s r cls code d l) j = stackOf s j := by
  unfold stackOf; rw [evRing_farStacks]
@[simp] theorem tenOf_evRing (r cls code d : Nat) (l : Nat) (j : Nat) : tenOf (evRing s r cls code d l) j = tenOf s j := by
  unfold tenOf; rw [evRing_tens]
@[simp] theorem hportOf_evRing (r cls code d : Nat) (l : Nat) (j : Nat) : hportOf (evRing s r cls code d l) j = hportOf s j := by
  unfold hportOf; rw [evRing_hports]
@[simp] theorem sportOf_evRing (r cls code d : Nat) (l : Nat) (j : Nat) : sportOf (evRing s r cls code d l) j = sportOf s j := by
  unfold sportOf; rw [evRing_sports]
@[simp] theorem memByte_evRing (r cls code d : Nat) (l : Nat) (j : Nat) : memByte (evRing s r cls code d l) j = memByte s j := by
  unfold memByte; rw [evRing_mem]

@[simp] theorem evTile_pending (i cls code d : Nat) (l : Nat) : (evTile s i cls code d l).pending = s.pending := stageRec_pending _ _ _
@[simp] theorem evTile_fused (i cls code d : Nat) (l : Nat) : (evTile s i cls code d l).fused = s.fused := stageRec_fused _ _ _
@[simp] theorem evTile_time (i cls code d : Nat) (l : Nat) : (evTile s i cls code d l).time = s.time := stageRec_time _ _ _
@[simp] theorem evTile_pins (i cls code d : Nat) (l : Nat) : (evTile s i cls code d l).pins = s.pins := stageRec_pins _ _ _
@[simp] theorem evTile_pwr (i cls code d : Nat) (l : Nat) : (evTile s i cls code d l).pwr = s.pwr := stageRec_pwr _ _ _
@[simp] theorem evTile_tiles (i cls code d : Nat) (l : Nat) : (evTile s i cls code d l).tiles = s.tiles := stageRec_tiles _ _ _
@[simp] theorem evTile_fields (i cls code d : Nat) (l : Nat) : (evTile s i cls code d l).fields = s.fields := stageRec_fields _ _ _
@[simp] theorem evTile_rings (i cls code d : Nat) (l : Nat) : (evTile s i cls code d l).rings = s.rings := stageRec_rings _ _ _
@[simp] theorem evTile_farStacks (i cls code d : Nat) (l : Nat) : (evTile s i cls code d l).farStacks = s.farStacks := stageRec_farStacks _ _ _
@[simp] theorem evTile_tens (i cls code d : Nat) (l : Nat) : (evTile s i cls code d l).tens = s.tens := stageRec_tens _ _ _
@[simp] theorem evTile_hports (i cls code d : Nat) (l : Nat) : (evTile s i cls code d l).hports = s.hports := stageRec_hports _ _ _
@[simp] theorem evTile_sports (i cls code d : Nat) (l : Nat) : (evTile s i cls code d l).sports = s.sports := stageRec_sports _ _ _
@[simp] theorem evTile_can (i cls code d : Nat) (l : Nat) : (evTile s i cls code d l).can = s.can := stageRec_can _ _ _
@[simp] theorem evTile_net (i cls code d : Nat) (l : Nat) : (evTile s i cls code d l).net = s.net := stageRec_net _ _ _
@[simp] theorem evTile_agentReqs (i cls code d : Nat) (l : Nat) : (evTile s i cls code d l).agentReqs = s.agentReqs := stageRec_agentReqs _ _ _
@[simp] theorem evTile_reqSeq (i cls code d : Nat) (l : Nat) : (evTile s i cls code d l).reqSeq = s.reqSeq := stageRec_reqSeq _ _ _
@[simp] theorem evTile_agentSeq (i cls code d : Nat) (l : Nat) : (evTile s i cls code d l).agentSeq = s.agentSeq := stageRec_agentSeq _ _ _
@[simp] theorem evTile_agentTaken (i cls code d : Nat) (l : Nat) : (evTile s i cls code d l).agentTaken = s.agentTaken := stageRec_agentTaken _ _ _
@[simp] theorem evTile_agentPark (i cls code d : Nat) (l : Nat) : (evTile s i cls code d l).agentPark = s.agentPark := stageRec_agentPark _ _ _
@[simp] theorem evTile_agentNack (i cls code d : Nat) (l : Nat) : (evTile s i cls code d l).agentNack = s.agentNack := stageRec_agentNack _ _ _
@[simp] theorem evTile_agentOut (i cls code d : Nat) (l : Nat) : (evTile s i cls code d l).agentOut = s.agentOut := stageRec_agentOut _ _ _
@[simp] theorem evTile_hbSeen (i cls code d : Nat) (l : Nat) : (evTile s i cls code d l).hbSeen = s.hbSeen := stageRec_hbSeen _ _ _
@[simp] theorem evTile_hbMissed (i cls code d : Nat) (l : Nat) : (evTile s i cls code d l).hbMissed = s.hbMissed := stageRec_hbMissed _ _ _
@[simp] theorem evTile_hbLost (i cls code d : Nat) (l : Nat) : (evTile s i cls code d l).hbLost = s.hbLost := stageRec_hbLost _ _ _
@[simp] theorem evTile_mem (i cls code d : Nat) (l : Nat) : (evTile s i cls code d l).mem = s.mem := stageRec_mem _ _ _
@[simp] theorem evTile_poison (i cls code d : Nat) (l : Nat) : (evTile s i cls code d l).poison = s.poison := stageRec_poison _ _ _
@[simp] theorem evTile_latent (i cls code d : Nat) (l : Nat) : (evTile s i cls code d l).latent = s.latent := stageRec_latent _ _ _
@[simp] theorem evTile_hostOut (i cls code d : Nat) (l : Nat) : (evTile s i cls code d l).hostOut = s.hostOut := stageRec_hostOut _ _ _
@[simp] theorem evTile_regOut (i cls code d : Nat) (l : Nat) : (evTile s i cls code d l).regOut = s.regOut := stageRec_regOut _ _ _
@[simp] theorem evTile_regPoison (i cls code d : Nat) (l : Nat) : (evTile s i cls code d l).regPoison = s.regPoison := stageRec_regPoison _ _ _
@[simp] theorem evTile_freeCtr (i cls code d : Nat) (l : Nat) : (evTile s i cls code d l).freeCtr = s.freeCtr := stageRec_freeCtr _ _ _
@[simp] theorem tileOf_evTile (i cls code d : Nat) (l : Nat) (j : Nat) : tileOf (evTile s i cls code d l) j = tileOf s j := by
  unfold tileOf; rw [evTile_tiles]
@[simp] theorem fieldOf_evTile (i cls code d : Nat) (l : Nat) (j : Nat) : fieldOf (evTile s i cls code d l) j = fieldOf s j := by
  unfold fieldOf; rw [evTile_fields]
@[simp] theorem ringOf_evTile (i cls code d : Nat) (l : Nat) (j : Nat) : ringOf (evTile s i cls code d l) j = ringOf s j := by
  unfold ringOf; rw [evTile_rings]
@[simp] theorem stackOf_evTile (i cls code d : Nat) (l : Nat) (j : Nat) : stackOf (evTile s i cls code d l) j = stackOf s j := by
  unfold stackOf; rw [evTile_farStacks]
@[simp] theorem tenOf_evTile (i cls code d : Nat) (l : Nat) (j : Nat) : tenOf (evTile s i cls code d l) j = tenOf s j := by
  unfold tenOf; rw [evTile_tens]
@[simp] theorem hportOf_evTile (i cls code d : Nat) (l : Nat) (j : Nat) : hportOf (evTile s i cls code d l) j = hportOf s j := by
  unfold hportOf; rw [evTile_hports]
@[simp] theorem sportOf_evTile (i cls code d : Nat) (l : Nat) (j : Nat) : sportOf (evTile s i cls code d l) j = sportOf s j := by
  unfold sportOf; rw [evTile_sports]
@[simp] theorem memByte_evTile (i cls code d : Nat) (l : Nat) (j : Nat) : memByte (evTile s i cls code d l) j = memByte s j := by
  unfold memByte; rw [evTile_mem]

@[simp] theorem evModule_pending (cls code d : Nat) (n : Option Nat) (l : Nat) (reh : Bool) : (evModule s cls code d n l reh).pending = s.pending := rfl
@[simp] theorem evModule_fused (cls code d : Nat) (n : Option Nat) (l : Nat) (reh : Bool) : (evModule s cls code d n l reh).fused = s.fused := rfl
@[simp] theorem evModule_time (cls code d : Nat) (n : Option Nat) (l : Nat) (reh : Bool) : (evModule s cls code d n l reh).time = s.time := rfl
@[simp] theorem evModule_pins (cls code d : Nat) (n : Option Nat) (l : Nat) (reh : Bool) : (evModule s cls code d n l reh).pins = s.pins := rfl
@[simp] theorem evModule_pwr (cls code d : Nat) (n : Option Nat) (l : Nat) (reh : Bool) : (evModule s cls code d n l reh).pwr = s.pwr := rfl
@[simp] theorem evModule_tiles (cls code d : Nat) (n : Option Nat) (l : Nat) (reh : Bool) : (evModule s cls code d n l reh).tiles = s.tiles := rfl
@[simp] theorem evModule_fields (cls code d : Nat) (n : Option Nat) (l : Nat) (reh : Bool) : (evModule s cls code d n l reh).fields = s.fields := rfl
@[simp] theorem evModule_rings (cls code d : Nat) (n : Option Nat) (l : Nat) (reh : Bool) : (evModule s cls code d n l reh).rings = s.rings := rfl
@[simp] theorem evModule_plies (cls code d : Nat) (n : Option Nat) (l : Nat) (reh : Bool) : (evModule s cls code d n l reh).plies = s.plies := rfl
@[simp] theorem evModule_farStacks (cls code d : Nat) (n : Option Nat) (l : Nat) (reh : Bool) : (evModule s cls code d n l reh).farStacks = s.farStacks := rfl
@[simp] theorem evModule_tens (cls code d : Nat) (n : Option Nat) (l : Nat) (reh : Bool) : (evModule s cls code d n l reh).tens = s.tens := rfl
@[simp] theorem evModule_hports (cls code d : Nat) (n : Option Nat) (l : Nat) (reh : Bool) : (evModule s cls code d n l reh).hports = s.hports := rfl
@[simp] theorem evModule_sports (cls code d : Nat) (n : Option Nat) (l : Nat) (reh : Bool) : (evModule s cls code d n l reh).sports = s.sports := rfl
@[simp] theorem evModule_can (cls code d : Nat) (n : Option Nat) (l : Nat) (reh : Bool) : (evModule s cls code d n l reh).can = s.can := rfl
@[simp] theorem evModule_net (cls code d : Nat) (n : Option Nat) (l : Nat) (reh : Bool) : (evModule s cls code d n l reh).net = s.net := rfl
@[simp] theorem evModule_agentReqs (cls code d : Nat) (n : Option Nat) (l : Nat) (reh : Bool) : (evModule s cls code d n l reh).agentReqs = s.agentReqs := rfl
@[simp] theorem evModule_reqSeq (cls code d : Nat) (n : Option Nat) (l : Nat) (reh : Bool) : (evModule s cls code d n l reh).reqSeq = s.reqSeq := rfl
@[simp] theorem evModule_agentSeq (cls code d : Nat) (n : Option Nat) (l : Nat) (reh : Bool) : (evModule s cls code d n l reh).agentSeq = s.agentSeq := rfl
@[simp] theorem evModule_agentTaken (cls code d : Nat) (n : Option Nat) (l : Nat) (reh : Bool) : (evModule s cls code d n l reh).agentTaken = s.agentTaken := rfl
@[simp] theorem evModule_agentPark (cls code d : Nat) (n : Option Nat) (l : Nat) (reh : Bool) : (evModule s cls code d n l reh).agentPark = s.agentPark := rfl
@[simp] theorem evModule_agentNack (cls code d : Nat) (n : Option Nat) (l : Nat) (reh : Bool) : (evModule s cls code d n l reh).agentNack = s.agentNack := rfl
@[simp] theorem evModule_agentOut (cls code d : Nat) (n : Option Nat) (l : Nat) (reh : Bool) : (evModule s cls code d n l reh).agentOut = s.agentOut := rfl
@[simp] theorem evModule_hbSeen (cls code d : Nat) (n : Option Nat) (l : Nat) (reh : Bool) : (evModule s cls code d n l reh).hbSeen = s.hbSeen := rfl
@[simp] theorem evModule_hbMissed (cls code d : Nat) (n : Option Nat) (l : Nat) (reh : Bool) : (evModule s cls code d n l reh).hbMissed = s.hbMissed := rfl
@[simp] theorem evModule_hbLost (cls code d : Nat) (n : Option Nat) (l : Nat) (reh : Bool) : (evModule s cls code d n l reh).hbLost = s.hbLost := rfl
@[simp] theorem evModule_mem (cls code d : Nat) (n : Option Nat) (l : Nat) (reh : Bool) : (evModule s cls code d n l reh).mem = s.mem := rfl
@[simp] theorem evModule_poison (cls code d : Nat) (n : Option Nat) (l : Nat) (reh : Bool) : (evModule s cls code d n l reh).poison = s.poison := rfl
@[simp] theorem evModule_latent (cls code d : Nat) (n : Option Nat) (l : Nat) (reh : Bool) : (evModule s cls code d n l reh).latent = s.latent := rfl
@[simp] theorem evModule_hostOut (cls code d : Nat) (n : Option Nat) (l : Nat) (reh : Bool) : (evModule s cls code d n l reh).hostOut = s.hostOut := rfl
@[simp] theorem evModule_regOut (cls code d : Nat) (n : Option Nat) (l : Nat) (reh : Bool) : (evModule s cls code d n l reh).regOut = s.regOut := rfl
@[simp] theorem evModule_regPoison (cls code d : Nat) (n : Option Nat) (l : Nat) (reh : Bool) : (evModule s cls code d n l reh).regPoison = s.regPoison := rfl
@[simp] theorem evModule_freeCtr (cls code d : Nat) (n : Option Nat) (l : Nat) (reh : Bool) : (evModule s cls code d n l reh).freeCtr = s.freeCtr := rfl
@[simp] theorem tileOf_evModule (cls code d : Nat) (n : Option Nat) (l : Nat) (reh : Bool) (j : Nat) : tileOf (evModule s cls code d n l reh) j = tileOf s j := by
  unfold tileOf; rw [evModule_tiles]
@[simp] theorem fieldOf_evModule (cls code d : Nat) (n : Option Nat) (l : Nat) (reh : Bool) (j : Nat) : fieldOf (evModule s cls code d n l reh) j = fieldOf s j := by
  unfold fieldOf; rw [evModule_fields]
@[simp] theorem ringOf_evModule (cls code d : Nat) (n : Option Nat) (l : Nat) (reh : Bool) (j : Nat) : ringOf (evModule s cls code d n l reh) j = ringOf s j := by
  unfold ringOf; rw [evModule_rings]
@[simp] theorem stackOf_evModule (cls code d : Nat) (n : Option Nat) (l : Nat) (reh : Bool) (j : Nat) : stackOf (evModule s cls code d n l reh) j = stackOf s j := by
  unfold stackOf; rw [evModule_farStacks]
@[simp] theorem tenOf_evModule (cls code d : Nat) (n : Option Nat) (l : Nat) (reh : Bool) (j : Nat) : tenOf (evModule s cls code d n l reh) j = tenOf s j := by
  unfold tenOf; rw [evModule_tens]
@[simp] theorem hportOf_evModule (cls code d : Nat) (n : Option Nat) (l : Nat) (reh : Bool) (j : Nat) : hportOf (evModule s cls code d n l reh) j = hportOf s j := by
  unfold hportOf; rw [evModule_hports]
@[simp] theorem sportOf_evModule (cls code d : Nat) (n : Option Nat) (l : Nat) (reh : Bool) (j : Nat) : sportOf (evModule s cls code d n l reh) j = sportOf s j := by
  unfold sportOf; rw [evModule_sports]
@[simp] theorem memByte_evModule (cls code d : Nat) (n : Option Nat) (l : Nat) (reh : Bool) (j : Nat) : memByte (evModule s cls code d n l reh) j = memByte s j := by
  unfold memByte; rw [evModule_mem]

@[simp] theorem evAccess_pending (a : Nat) : (evAccess s a).pending = s.pending := rfl
@[simp] theorem evAccess_fused (a : Nat) : (evAccess s a).fused = s.fused := rfl
@[simp] theorem evAccess_time (a : Nat) : (evAccess s a).time = s.time := rfl
@[simp] theorem evAccess_pins (a : Nat) : (evAccess s a).pins = s.pins := rfl
@[simp] theorem evAccess_pwr (a : Nat) : (evAccess s a).pwr = s.pwr := rfl
@[simp] theorem evAccess_tiles (a : Nat) : (evAccess s a).tiles = s.tiles := rfl
@[simp] theorem evAccess_fields (a : Nat) : (evAccess s a).fields = s.fields := rfl
@[simp] theorem evAccess_rings (a : Nat) : (evAccess s a).rings = s.rings := rfl
@[simp] theorem evAccess_plies (a : Nat) : (evAccess s a).plies = s.plies := rfl
@[simp] theorem evAccess_farStacks (a : Nat) : (evAccess s a).farStacks = s.farStacks := rfl
@[simp] theorem evAccess_tens (a : Nat) : (evAccess s a).tens = s.tens := rfl
@[simp] theorem evAccess_hports (a : Nat) : (evAccess s a).hports = s.hports := rfl
@[simp] theorem evAccess_sports (a : Nat) : (evAccess s a).sports = s.sports := rfl
@[simp] theorem evAccess_can (a : Nat) : (evAccess s a).can = s.can := rfl
@[simp] theorem evAccess_net (a : Nat) : (evAccess s a).net = s.net := rfl
@[simp] theorem evAccess_agentReqs (a : Nat) : (evAccess s a).agentReqs = s.agentReqs := rfl
@[simp] theorem evAccess_reqSeq (a : Nat) : (evAccess s a).reqSeq = s.reqSeq := rfl
@[simp] theorem evAccess_agentSeq (a : Nat) : (evAccess s a).agentSeq = s.agentSeq := rfl
@[simp] theorem evAccess_agentTaken (a : Nat) : (evAccess s a).agentTaken = s.agentTaken := rfl
@[simp] theorem evAccess_agentPark (a : Nat) : (evAccess s a).agentPark = s.agentPark := rfl
@[simp] theorem evAccess_agentNack (a : Nat) : (evAccess s a).agentNack = s.agentNack := rfl
@[simp] theorem evAccess_agentOut (a : Nat) : (evAccess s a).agentOut = s.agentOut := rfl
@[simp] theorem evAccess_hbSeen (a : Nat) : (evAccess s a).hbSeen = s.hbSeen := rfl
@[simp] theorem evAccess_hbMissed (a : Nat) : (evAccess s a).hbMissed = s.hbMissed := rfl
@[simp] theorem evAccess_hbLost (a : Nat) : (evAccess s a).hbLost = s.hbLost := rfl
@[simp] theorem evAccess_mem (a : Nat) : (evAccess s a).mem = s.mem := rfl
@[simp] theorem evAccess_poison (a : Nat) : (evAccess s a).poison = s.poison := rfl
@[simp] theorem evAccess_latent (a : Nat) : (evAccess s a).latent = s.latent := rfl
@[simp] theorem evAccess_hostOut (a : Nat) : (evAccess s a).hostOut = s.hostOut := rfl
@[simp] theorem evAccess_regOut (a : Nat) : (evAccess s a).regOut = s.regOut := rfl
@[simp] theorem evAccess_regPoison (a : Nat) : (evAccess s a).regPoison = s.regPoison := rfl
@[simp] theorem evAccess_freeCtr (a : Nat) : (evAccess s a).freeCtr = s.freeCtr := rfl
@[simp] theorem tileOf_evAccess (a : Nat) (j : Nat) : tileOf (evAccess s a) j = tileOf s j := by
  unfold tileOf; rw [evAccess_tiles]
@[simp] theorem fieldOf_evAccess (a : Nat) (j : Nat) : fieldOf (evAccess s a) j = fieldOf s j := by
  unfold fieldOf; rw [evAccess_fields]
@[simp] theorem ringOf_evAccess (a : Nat) (j : Nat) : ringOf (evAccess s a) j = ringOf s j := by
  unfold ringOf; rw [evAccess_rings]
@[simp] theorem stackOf_evAccess (a : Nat) (j : Nat) : stackOf (evAccess s a) j = stackOf s j := by
  unfold stackOf; rw [evAccess_farStacks]
@[simp] theorem tenOf_evAccess (a : Nat) (j : Nat) : tenOf (evAccess s a) j = tenOf s j := by
  unfold tenOf; rw [evAccess_tens]
@[simp] theorem hportOf_evAccess (a : Nat) (j : Nat) : hportOf (evAccess s a) j = hportOf s j := by
  unfold hportOf; rw [evAccess_hports]
@[simp] theorem sportOf_evAccess (a : Nat) (j : Nat) : sportOf (evAccess s a) j = sportOf s j := by
  unfold sportOf; rw [evAccess_sports]
@[simp] theorem memByte_evAccess (a : Nat) (j : Nat) : memByte (evAccess s a) j = memByte s j := by
  unfold memByte; rw [evAccess_mem]

@[simp] theorem refine_pending (p : Nat) (e : BitVec 128) : (refine s p e).pending = s.pending := rfl
@[simp] theorem refine_fused (p : Nat) (e : BitVec 128) : (refine s p e).fused = s.fused := rfl
@[simp] theorem refine_time (p : Nat) (e : BitVec 128) : (refine s p e).time = s.time := rfl
@[simp] theorem refine_pins (p : Nat) (e : BitVec 128) : (refine s p e).pins = s.pins := rfl
@[simp] theorem refine_pwr (p : Nat) (e : BitVec 128) : (refine s p e).pwr = s.pwr := rfl
@[simp] theorem refine_tiles (p : Nat) (e : BitVec 128) : (refine s p e).tiles = s.tiles := rfl
@[simp] theorem refine_fields (p : Nat) (e : BitVec 128) : (refine s p e).fields = s.fields := rfl
@[simp] theorem refine_rings (p : Nat) (e : BitVec 128) : (refine s p e).rings = s.rings := rfl
@[simp] theorem refine_farStacks (p : Nat) (e : BitVec 128) : (refine s p e).farStacks = s.farStacks := rfl
@[simp] theorem refine_tens (p : Nat) (e : BitVec 128) : (refine s p e).tens = s.tens := rfl
@[simp] theorem refine_hports (p : Nat) (e : BitVec 128) : (refine s p e).hports = s.hports := rfl
@[simp] theorem refine_sports (p : Nat) (e : BitVec 128) : (refine s p e).sports = s.sports := rfl
@[simp] theorem refine_box (p : Nat) (e : BitVec 128) : (refine s p e).box = s.box := rfl
@[simp] theorem refine_can (p : Nat) (e : BitVec 128) : (refine s p e).can = s.can := rfl
@[simp] theorem refine_net (p : Nat) (e : BitVec 128) : (refine s p e).net = s.net := rfl
@[simp] theorem refine_agentReqs (p : Nat) (e : BitVec 128) : (refine s p e).agentReqs = s.agentReqs := rfl
@[simp] theorem refine_reqSeq (p : Nat) (e : BitVec 128) : (refine s p e).reqSeq = s.reqSeq := rfl
@[simp] theorem refine_agentSeq (p : Nat) (e : BitVec 128) : (refine s p e).agentSeq = s.agentSeq := rfl
@[simp] theorem refine_agentTaken (p : Nat) (e : BitVec 128) : (refine s p e).agentTaken = s.agentTaken := rfl
@[simp] theorem refine_agentPark (p : Nat) (e : BitVec 128) : (refine s p e).agentPark = s.agentPark := rfl
@[simp] theorem refine_agentNack (p : Nat) (e : BitVec 128) : (refine s p e).agentNack = s.agentNack := rfl
@[simp] theorem refine_agentOut (p : Nat) (e : BitVec 128) : (refine s p e).agentOut = s.agentOut := rfl
@[simp] theorem refine_hbSeen (p : Nat) (e : BitVec 128) : (refine s p e).hbSeen = s.hbSeen := rfl
@[simp] theorem refine_hbMissed (p : Nat) (e : BitVec 128) : (refine s p e).hbMissed = s.hbMissed := rfl
@[simp] theorem refine_hbLost (p : Nat) (e : BitVec 128) : (refine s p e).hbLost = s.hbLost := rfl
@[simp] theorem refine_mem (p : Nat) (e : BitVec 128) : (refine s p e).mem = s.mem := rfl
@[simp] theorem refine_poison (p : Nat) (e : BitVec 128) : (refine s p e).poison = s.poison := rfl
@[simp] theorem refine_latent (p : Nat) (e : BitVec 128) : (refine s p e).latent = s.latent := rfl
@[simp] theorem refine_hostOut (p : Nat) (e : BitVec 128) : (refine s p e).hostOut = s.hostOut := rfl
@[simp] theorem refine_regOut (p : Nat) (e : BitVec 128) : (refine s p e).regOut = s.regOut := rfl
@[simp] theorem refine_regPoison (p : Nat) (e : BitVec 128) : (refine s p e).regPoison = s.regPoison := rfl
@[simp] theorem refine_freeCtr (p : Nat) (e : BitVec 128) : (refine s p e).freeCtr = s.freeCtr := rfl
@[simp] theorem tileOf_refine (p : Nat) (e : BitVec 128) (j : Nat) : tileOf (refine s p e) j = tileOf s j := by
  unfold tileOf; rw [refine_tiles]
@[simp] theorem fieldOf_refine (p : Nat) (e : BitVec 128) (j : Nat) : fieldOf (refine s p e) j = fieldOf s j := by
  unfold fieldOf; rw [refine_fields]
@[simp] theorem ringOf_refine (p : Nat) (e : BitVec 128) (j : Nat) : ringOf (refine s p e) j = ringOf s j := by
  unfold ringOf; rw [refine_rings]
@[simp] theorem stackOf_refine (p : Nat) (e : BitVec 128) (j : Nat) : stackOf (refine s p e) j = stackOf s j := by
  unfold stackOf; rw [refine_farStacks]
@[simp] theorem tenOf_refine (p : Nat) (e : BitVec 128) (j : Nat) : tenOf (refine s p e) j = tenOf s j := by
  unfold tenOf; rw [refine_tens]
@[simp] theorem hportOf_refine (p : Nat) (e : BitVec 128) (j : Nat) : hportOf (refine s p e) j = hportOf s j := by
  unfold hportOf; rw [refine_hports]
@[simp] theorem sportOf_refine (p : Nat) (e : BitVec 128) (j : Nat) : sportOf (refine s p e) j = sportOf s j := by
  unfold sportOf; rw [refine_sports]
@[simp] theorem memByte_refine (p : Nat) (e : BitVec 128) (j : Nat) : memByte (refine s p e) j = memByte s j := by
  unfold memByte; rw [refine_mem]

@[simp] theorem setSiteMap_pending (i : Nat) (m : SiteMap) : (setSiteMap s i m).pending = s.pending := rfl
@[simp] theorem setSiteMap_fused (i : Nat) (m : SiteMap) : (setSiteMap s i m).fused = s.fused := rfl
@[simp] theorem setSiteMap_time (i : Nat) (m : SiteMap) : (setSiteMap s i m).time = s.time := rfl
@[simp] theorem setSiteMap_pins (i : Nat) (m : SiteMap) : (setSiteMap s i m).pins = s.pins := rfl
@[simp] theorem setSiteMap_pwr (i : Nat) (m : SiteMap) : (setSiteMap s i m).pwr = s.pwr := rfl
@[simp] theorem setSiteMap_tiles (i : Nat) (m : SiteMap) : (setSiteMap s i m).tiles = s.tiles := rfl
@[simp] theorem setSiteMap_rings (i : Nat) (m : SiteMap) : (setSiteMap s i m).rings = s.rings := rfl
@[simp] theorem setSiteMap_plies (i : Nat) (m : SiteMap) : (setSiteMap s i m).plies = s.plies := rfl
@[simp] theorem setSiteMap_farStacks (i : Nat) (m : SiteMap) : (setSiteMap s i m).farStacks = s.farStacks := rfl
@[simp] theorem setSiteMap_tens (i : Nat) (m : SiteMap) : (setSiteMap s i m).tens = s.tens := rfl
@[simp] theorem setSiteMap_hports (i : Nat) (m : SiteMap) : (setSiteMap s i m).hports = s.hports := rfl
@[simp] theorem setSiteMap_sports (i : Nat) (m : SiteMap) : (setSiteMap s i m).sports = s.sports := rfl
@[simp] theorem setSiteMap_box (i : Nat) (m : SiteMap) : (setSiteMap s i m).box = s.box := rfl
@[simp] theorem setSiteMap_can (i : Nat) (m : SiteMap) : (setSiteMap s i m).can = s.can := rfl
@[simp] theorem setSiteMap_net (i : Nat) (m : SiteMap) : (setSiteMap s i m).net = s.net := rfl
@[simp] theorem setSiteMap_agentReqs (i : Nat) (m : SiteMap) : (setSiteMap s i m).agentReqs = s.agentReqs := rfl
@[simp] theorem setSiteMap_reqSeq (i : Nat) (m : SiteMap) : (setSiteMap s i m).reqSeq = s.reqSeq := rfl
@[simp] theorem setSiteMap_agentSeq (i : Nat) (m : SiteMap) : (setSiteMap s i m).agentSeq = s.agentSeq := rfl
@[simp] theorem setSiteMap_agentTaken (i : Nat) (m : SiteMap) : (setSiteMap s i m).agentTaken = s.agentTaken := rfl
@[simp] theorem setSiteMap_agentPark (i : Nat) (m : SiteMap) : (setSiteMap s i m).agentPark = s.agentPark := rfl
@[simp] theorem setSiteMap_agentNack (i : Nat) (m : SiteMap) : (setSiteMap s i m).agentNack = s.agentNack := rfl
@[simp] theorem setSiteMap_agentOut (i : Nat) (m : SiteMap) : (setSiteMap s i m).agentOut = s.agentOut := rfl
@[simp] theorem setSiteMap_hbSeen (i : Nat) (m : SiteMap) : (setSiteMap s i m).hbSeen = s.hbSeen := rfl
@[simp] theorem setSiteMap_hbMissed (i : Nat) (m : SiteMap) : (setSiteMap s i m).hbMissed = s.hbMissed := rfl
@[simp] theorem setSiteMap_hbLost (i : Nat) (m : SiteMap) : (setSiteMap s i m).hbLost = s.hbLost := rfl
@[simp] theorem setSiteMap_mem (i : Nat) (m : SiteMap) : (setSiteMap s i m).mem = s.mem := rfl
@[simp] theorem setSiteMap_poison (i : Nat) (m : SiteMap) : (setSiteMap s i m).poison = s.poison := rfl
@[simp] theorem setSiteMap_latent (i : Nat) (m : SiteMap) : (setSiteMap s i m).latent = s.latent := rfl
@[simp] theorem setSiteMap_hostOut (i : Nat) (m : SiteMap) : (setSiteMap s i m).hostOut = s.hostOut := rfl
@[simp] theorem setSiteMap_regOut (i : Nat) (m : SiteMap) : (setSiteMap s i m).regOut = s.regOut := rfl
@[simp] theorem setSiteMap_regPoison (i : Nat) (m : SiteMap) : (setSiteMap s i m).regPoison = s.regPoison := rfl
@[simp] theorem setSiteMap_freeCtr (i : Nat) (m : SiteMap) : (setSiteMap s i m).freeCtr = s.freeCtr := rfl
@[simp] theorem tileOf_setSiteMap (i : Nat) (m : SiteMap) (j : Nat) : tileOf (setSiteMap s i m) j = tileOf s j := by
  unfold tileOf; rw [setSiteMap_tiles]
@[simp] theorem ringOf_setSiteMap (i : Nat) (m : SiteMap) (j : Nat) : ringOf (setSiteMap s i m) j = ringOf s j := by
  unfold ringOf; rw [setSiteMap_rings]
@[simp] theorem stackOf_setSiteMap (i : Nat) (m : SiteMap) (j : Nat) : stackOf (setSiteMap s i m) j = stackOf s j := by
  unfold stackOf; rw [setSiteMap_farStacks]
@[simp] theorem tenOf_setSiteMap (i : Nat) (m : SiteMap) (j : Nat) : tenOf (setSiteMap s i m) j = tenOf s j := by
  unfold tenOf; rw [setSiteMap_tens]
@[simp] theorem hportOf_setSiteMap (i : Nat) (m : SiteMap) (j : Nat) : hportOf (setSiteMap s i m) j = hportOf s j := by
  unfold hportOf; rw [setSiteMap_hports]
@[simp] theorem sportOf_setSiteMap (i : Nat) (m : SiteMap) (j : Nat) : sportOf (setSiteMap s i m) j = sportOf s j := by
  unfold sportOf; rw [setSiteMap_sports]
@[simp] theorem memByte_setSiteMap (i : Nat) (m : SiteMap) (j : Nat) : memByte (setSiteMap s i m) j = memByte s j := by
  unfold memByte; rw [setSiteMap_mem]

@[simp] theorem failRun_pending (n m : Nat) : (failRun s n m).pending = s.pending := rfl
@[simp] theorem failRun_fused (n m : Nat) : (failRun s n m).fused = s.fused := rfl
@[simp] theorem failRun_time (n m : Nat) : (failRun s n m).time = s.time := rfl
@[simp] theorem failRun_pins (n m : Nat) : (failRun s n m).pins = s.pins := rfl
@[simp] theorem failRun_pwr (n m : Nat) : (failRun s n m).pwr = s.pwr := rfl
@[simp] theorem failRun_tiles (n m : Nat) : (failRun s n m).tiles = s.tiles := rfl
@[simp] theorem failRun_fields (n m : Nat) : (failRun s n m).fields = s.fields := rfl
@[simp] theorem failRun_rings (n m : Nat) : (failRun s n m).rings = s.rings := rfl
@[simp] theorem failRun_plies (n m : Nat) : (failRun s n m).plies = s.plies := rfl
@[simp] theorem failRun_farStacks (n m : Nat) : (failRun s n m).farStacks = s.farStacks := rfl
@[simp] theorem failRun_hports (n m : Nat) : (failRun s n m).hports = s.hports := rfl
@[simp] theorem failRun_sports (n m : Nat) : (failRun s n m).sports = s.sports := rfl
@[simp] theorem failRun_box (n m : Nat) : (failRun s n m).box = s.box := rfl
@[simp] theorem failRun_can (n m : Nat) : (failRun s n m).can = s.can := rfl
@[simp] theorem failRun_net (n m : Nat) : (failRun s n m).net = s.net := rfl
@[simp] theorem failRun_agentReqs (n m : Nat) : (failRun s n m).agentReqs = s.agentReqs := rfl
@[simp] theorem failRun_reqSeq (n m : Nat) : (failRun s n m).reqSeq = s.reqSeq := rfl
@[simp] theorem failRun_agentSeq (n m : Nat) : (failRun s n m).agentSeq = s.agentSeq := rfl
@[simp] theorem failRun_agentTaken (n m : Nat) : (failRun s n m).agentTaken = s.agentTaken := rfl
@[simp] theorem failRun_agentPark (n m : Nat) : (failRun s n m).agentPark = s.agentPark := rfl
@[simp] theorem failRun_agentNack (n m : Nat) : (failRun s n m).agentNack = s.agentNack := rfl
@[simp] theorem failRun_agentOut (n m : Nat) : (failRun s n m).agentOut = s.agentOut := rfl
@[simp] theorem failRun_hbSeen (n m : Nat) : (failRun s n m).hbSeen = s.hbSeen := rfl
@[simp] theorem failRun_hbMissed (n m : Nat) : (failRun s n m).hbMissed = s.hbMissed := rfl
@[simp] theorem failRun_hbLost (n m : Nat) : (failRun s n m).hbLost = s.hbLost := rfl
@[simp] theorem failRun_mem (n m : Nat) : (failRun s n m).mem = s.mem := rfl
@[simp] theorem failRun_poison (n m : Nat) : (failRun s n m).poison = s.poison := rfl
@[simp] theorem failRun_latent (n m : Nat) : (failRun s n m).latent = s.latent := rfl
@[simp] theorem failRun_hostOut (n m : Nat) : (failRun s n m).hostOut = s.hostOut := rfl
@[simp] theorem failRun_regOut (n m : Nat) : (failRun s n m).regOut = s.regOut := rfl
@[simp] theorem failRun_regPoison (n m : Nat) : (failRun s n m).regPoison = s.regPoison := rfl
@[simp] theorem failRun_freeCtr (n m : Nat) : (failRun s n m).freeCtr = s.freeCtr := rfl
@[simp] theorem tileOf_failRun (n m : Nat) (j : Nat) : tileOf (failRun s n m) j = tileOf s j := by
  unfold tileOf; rw [failRun_tiles]
@[simp] theorem fieldOf_failRun (n m : Nat) (j : Nat) : fieldOf (failRun s n m) j = fieldOf s j := by
  unfold fieldOf; rw [failRun_fields]
@[simp] theorem ringOf_failRun (n m : Nat) (j : Nat) : ringOf (failRun s n m) j = ringOf s j := by
  unfold ringOf; rw [failRun_rings]
@[simp] theorem stackOf_failRun (n m : Nat) (j : Nat) : stackOf (failRun s n m) j = stackOf s j := by
  unfold stackOf; rw [failRun_farStacks]
@[simp] theorem hportOf_failRun (n m : Nat) (j : Nat) : hportOf (failRun s n m) j = hportOf s j := by
  unfold hportOf; rw [failRun_hports]
@[simp] theorem sportOf_failRun (n m : Nat) (j : Nat) : sportOf (failRun s n m) j = sportOf s j := by
  unfold sportOf; rw [failRun_sports]
@[simp] theorem memByte_failRun (n m : Nat) (j : Nat) : memByte (failRun s n m) j = memByte s j := by
  unfold memByte; rw [failRun_mem]

@[simp] theorem failRing_pending (r m : Nat) : (failRing s r m).pending = s.pending := by unfold failRing; split <;> rfl
@[simp] theorem failRing_fused (r m : Nat) : (failRing s r m).fused = s.fused := by unfold failRing; split <;> rfl
@[simp] theorem failRing_time (r m : Nat) : (failRing s r m).time = s.time := by unfold failRing; split <;> rfl
@[simp] theorem failRing_pins (r m : Nat) : (failRing s r m).pins = s.pins := by unfold failRing; split <;> rfl
@[simp] theorem failRing_pwr (r m : Nat) : (failRing s r m).pwr = s.pwr := by unfold failRing; split <;> rfl
@[simp] theorem failRing_tiles (r m : Nat) : (failRing s r m).tiles = s.tiles := by unfold failRing; split <;> rfl
@[simp] theorem failRing_fields (r m : Nat) : (failRing s r m).fields = s.fields := by unfold failRing; split <;> rfl
@[simp] theorem failRing_rings (r m : Nat) : (failRing s r m).rings = s.rings := by unfold failRing; split <;> rfl
@[simp] theorem failRing_plies (r m : Nat) : (failRing s r m).plies = s.plies := by unfold failRing; split <;> rfl
@[simp] theorem failRing_farStacks (r m : Nat) : (failRing s r m).farStacks = s.farStacks := by unfold failRing; split <;> rfl
@[simp] theorem failRing_hports (r m : Nat) : (failRing s r m).hports = s.hports := by unfold failRing; split <;> rfl
@[simp] theorem failRing_sports (r m : Nat) : (failRing s r m).sports = s.sports := by unfold failRing; split <;> rfl
@[simp] theorem failRing_box (r m : Nat) : (failRing s r m).box = s.box := by unfold failRing; split <;> rfl
@[simp] theorem failRing_can (r m : Nat) : (failRing s r m).can = s.can := by unfold failRing; split <;> rfl
@[simp] theorem failRing_net (r m : Nat) : (failRing s r m).net = s.net := by unfold failRing; split <;> rfl
@[simp] theorem failRing_agentReqs (r m : Nat) : (failRing s r m).agentReqs = s.agentReqs := by unfold failRing; split <;> rfl
@[simp] theorem failRing_reqSeq (r m : Nat) : (failRing s r m).reqSeq = s.reqSeq := by unfold failRing; split <;> rfl
@[simp] theorem failRing_agentSeq (r m : Nat) : (failRing s r m).agentSeq = s.agentSeq := by unfold failRing; split <;> rfl
@[simp] theorem failRing_agentTaken (r m : Nat) : (failRing s r m).agentTaken = s.agentTaken := by unfold failRing; split <;> rfl
@[simp] theorem failRing_agentPark (r m : Nat) : (failRing s r m).agentPark = s.agentPark := by unfold failRing; split <;> rfl
@[simp] theorem failRing_agentNack (r m : Nat) : (failRing s r m).agentNack = s.agentNack := by unfold failRing; split <;> rfl
@[simp] theorem failRing_agentOut (r m : Nat) : (failRing s r m).agentOut = s.agentOut := by unfold failRing; split <;> rfl
@[simp] theorem failRing_hbSeen (r m : Nat) : (failRing s r m).hbSeen = s.hbSeen := by unfold failRing; split <;> rfl
@[simp] theorem failRing_hbMissed (r m : Nat) : (failRing s r m).hbMissed = s.hbMissed := by unfold failRing; split <;> rfl
@[simp] theorem failRing_hbLost (r m : Nat) : (failRing s r m).hbLost = s.hbLost := by unfold failRing; split <;> rfl
@[simp] theorem failRing_mem (r m : Nat) : (failRing s r m).mem = s.mem := by unfold failRing; split <;> rfl
@[simp] theorem failRing_poison (r m : Nat) : (failRing s r m).poison = s.poison := by unfold failRing; split <;> rfl
@[simp] theorem failRing_latent (r m : Nat) : (failRing s r m).latent = s.latent := by unfold failRing; split <;> rfl
@[simp] theorem failRing_hostOut (r m : Nat) : (failRing s r m).hostOut = s.hostOut := by unfold failRing; split <;> rfl
@[simp] theorem failRing_regOut (r m : Nat) : (failRing s r m).regOut = s.regOut := by unfold failRing; split <;> rfl
@[simp] theorem failRing_regPoison (r m : Nat) : (failRing s r m).regPoison = s.regPoison := by unfold failRing; split <;> rfl
@[simp] theorem failRing_freeCtr (r m : Nat) : (failRing s r m).freeCtr = s.freeCtr := by unfold failRing; split <;> rfl
@[simp] theorem tileOf_failRing (r m : Nat) (j : Nat) : tileOf (failRing s r m) j = tileOf s j := by
  unfold tileOf; rw [failRing_tiles]
@[simp] theorem fieldOf_failRing (r m : Nat) (j : Nat) : fieldOf (failRing s r m) j = fieldOf s j := by
  unfold fieldOf; rw [failRing_fields]
@[simp] theorem ringOf_failRing (r m : Nat) (j : Nat) : ringOf (failRing s r m) j = ringOf s j := by
  unfold ringOf; rw [failRing_rings]
@[simp] theorem stackOf_failRing (r m : Nat) (j : Nat) : stackOf (failRing s r m) j = stackOf s j := by
  unfold stackOf; rw [failRing_farStacks]
@[simp] theorem hportOf_failRing (r m : Nat) (j : Nat) : hportOf (failRing s r m) j = hportOf s j := by
  unfold hportOf; rw [failRing_hports]
@[simp] theorem sportOf_failRing (r m : Nat) (j : Nat) : sportOf (failRing s r m) j = sportOf s j := by
  unfold sportOf; rw [failRing_sports]
@[simp] theorem memByte_failRing (r m : Nat) (j : Nat) : memByte (failRing s r m) j = memByte s j := by
  unfold memByte; rw [failRing_mem]

@[simp] theorem failTile_pending (i m : Nat) : (failTile s i m).pending = s.pending := by unfold failTile; split <;> rfl
@[simp] theorem failTile_fused (i m : Nat) : (failTile s i m).fused = s.fused := by unfold failTile; split <;> rfl
@[simp] theorem failTile_time (i m : Nat) : (failTile s i m).time = s.time := by unfold failTile; split <;> rfl
@[simp] theorem failTile_pins (i m : Nat) : (failTile s i m).pins = s.pins := by unfold failTile; split <;> rfl
@[simp] theorem failTile_pwr (i m : Nat) : (failTile s i m).pwr = s.pwr := by unfold failTile; split <;> rfl
@[simp] theorem failTile_tiles (i m : Nat) : (failTile s i m).tiles = s.tiles := by unfold failTile; split <;> rfl
@[simp] theorem failTile_fields (i m : Nat) : (failTile s i m).fields = s.fields := by unfold failTile; split <;> rfl
@[simp] theorem failTile_rings (i m : Nat) : (failTile s i m).rings = s.rings := by unfold failTile; split <;> rfl
@[simp] theorem failTile_plies (i m : Nat) : (failTile s i m).plies = s.plies := by unfold failTile; split <;> rfl
@[simp] theorem failTile_farStacks (i m : Nat) : (failTile s i m).farStacks = s.farStacks := by unfold failTile; split <;> rfl
@[simp] theorem failTile_hports (i m : Nat) : (failTile s i m).hports = s.hports := by unfold failTile; split <;> rfl
@[simp] theorem failTile_sports (i m : Nat) : (failTile s i m).sports = s.sports := by unfold failTile; split <;> rfl
@[simp] theorem failTile_box (i m : Nat) : (failTile s i m).box = s.box := by unfold failTile; split <;> rfl
@[simp] theorem failTile_can (i m : Nat) : (failTile s i m).can = s.can := by unfold failTile; split <;> rfl
@[simp] theorem failTile_net (i m : Nat) : (failTile s i m).net = s.net := by unfold failTile; split <;> rfl
@[simp] theorem failTile_agentReqs (i m : Nat) : (failTile s i m).agentReqs = s.agentReqs := by unfold failTile; split <;> rfl
@[simp] theorem failTile_reqSeq (i m : Nat) : (failTile s i m).reqSeq = s.reqSeq := by unfold failTile; split <;> rfl
@[simp] theorem failTile_agentSeq (i m : Nat) : (failTile s i m).agentSeq = s.agentSeq := by unfold failTile; split <;> rfl
@[simp] theorem failTile_agentTaken (i m : Nat) : (failTile s i m).agentTaken = s.agentTaken := by unfold failTile; split <;> rfl
@[simp] theorem failTile_agentPark (i m : Nat) : (failTile s i m).agentPark = s.agentPark := by unfold failTile; split <;> rfl
@[simp] theorem failTile_agentNack (i m : Nat) : (failTile s i m).agentNack = s.agentNack := by unfold failTile; split <;> rfl
@[simp] theorem failTile_agentOut (i m : Nat) : (failTile s i m).agentOut = s.agentOut := by unfold failTile; split <;> rfl
@[simp] theorem failTile_hbSeen (i m : Nat) : (failTile s i m).hbSeen = s.hbSeen := by unfold failTile; split <;> rfl
@[simp] theorem failTile_hbMissed (i m : Nat) : (failTile s i m).hbMissed = s.hbMissed := by unfold failTile; split <;> rfl
@[simp] theorem failTile_hbLost (i m : Nat) : (failTile s i m).hbLost = s.hbLost := by unfold failTile; split <;> rfl
@[simp] theorem failTile_mem (i m : Nat) : (failTile s i m).mem = s.mem := by unfold failTile; split <;> rfl
@[simp] theorem failTile_poison (i m : Nat) : (failTile s i m).poison = s.poison := by unfold failTile; split <;> rfl
@[simp] theorem failTile_latent (i m : Nat) : (failTile s i m).latent = s.latent := by unfold failTile; split <;> rfl
@[simp] theorem failTile_hostOut (i m : Nat) : (failTile s i m).hostOut = s.hostOut := by unfold failTile; split <;> rfl
@[simp] theorem failTile_regOut (i m : Nat) : (failTile s i m).regOut = s.regOut := by unfold failTile; split <;> rfl
@[simp] theorem failTile_regPoison (i m : Nat) : (failTile s i m).regPoison = s.regPoison := by unfold failTile; split <;> rfl
@[simp] theorem failTile_freeCtr (i m : Nat) : (failTile s i m).freeCtr = s.freeCtr := by unfold failTile; split <;> rfl
@[simp] theorem tileOf_failTile (i m : Nat) (j : Nat) : tileOf (failTile s i m) j = tileOf s j := by
  unfold tileOf; rw [failTile_tiles]
@[simp] theorem fieldOf_failTile (i m : Nat) (j : Nat) : fieldOf (failTile s i m) j = fieldOf s j := by
  unfold fieldOf; rw [failTile_fields]
@[simp] theorem ringOf_failTile (i m : Nat) (j : Nat) : ringOf (failTile s i m) j = ringOf s j := by
  unfold ringOf; rw [failTile_rings]
@[simp] theorem stackOf_failTile (i m : Nat) (j : Nat) : stackOf (failTile s i m) j = stackOf s j := by
  unfold stackOf; rw [failTile_farStacks]
@[simp] theorem hportOf_failTile (i m : Nat) (j : Nat) : hportOf (failTile s i m) j = hportOf s j := by
  unfold hportOf; rw [failTile_hports]
@[simp] theorem sportOf_failTile (i m : Nat) (j : Nat) : sportOf (failTile s i m) j = sportOf s j := by
  unfold sportOf; rw [failTile_sports]
@[simp] theorem memByte_failTile (i m : Nat) (j : Nat) : memByte (failTile s i m) j = memByte s j := by
  unfold memByte; rw [failTile_mem]

@[simp] theorem failLate_pending (r m : Nat) : (failLate s r m).pending = s.pending := by unfold failLate; split <;> rfl
@[simp] theorem failLate_fused (r m : Nat) : (failLate s r m).fused = s.fused := by unfold failLate; split <;> rfl
@[simp] theorem failLate_time (r m : Nat) : (failLate s r m).time = s.time := by unfold failLate; split <;> rfl
@[simp] theorem failLate_pins (r m : Nat) : (failLate s r m).pins = s.pins := by unfold failLate; split <;> rfl
@[simp] theorem failLate_pwr (r m : Nat) : (failLate s r m).pwr = s.pwr := by unfold failLate; split <;> rfl
@[simp] theorem failLate_tiles (r m : Nat) : (failLate s r m).tiles = s.tiles := by unfold failLate; split <;> rfl
@[simp] theorem failLate_fields (r m : Nat) : (failLate s r m).fields = s.fields := by unfold failLate; split <;> rfl
@[simp] theorem failLate_rings (r m : Nat) : (failLate s r m).rings = s.rings := by unfold failLate; split <;> rfl
@[simp] theorem failLate_plies (r m : Nat) : (failLate s r m).plies = s.plies := by unfold failLate; split <;> rfl
@[simp] theorem failLate_farStacks (r m : Nat) : (failLate s r m).farStacks = s.farStacks := by unfold failLate; split <;> rfl
@[simp] theorem failLate_hports (r m : Nat) : (failLate s r m).hports = s.hports := by unfold failLate; split <;> rfl
@[simp] theorem failLate_sports (r m : Nat) : (failLate s r m).sports = s.sports := by unfold failLate; split <;> rfl
@[simp] theorem failLate_box (r m : Nat) : (failLate s r m).box = s.box := by unfold failLate; split <;> rfl
@[simp] theorem failLate_can (r m : Nat) : (failLate s r m).can = s.can := by unfold failLate; split <;> rfl
@[simp] theorem failLate_net (r m : Nat) : (failLate s r m).net = s.net := by unfold failLate; split <;> rfl
@[simp] theorem failLate_agentReqs (r m : Nat) : (failLate s r m).agentReqs = s.agentReqs := by unfold failLate; split <;> rfl
@[simp] theorem failLate_reqSeq (r m : Nat) : (failLate s r m).reqSeq = s.reqSeq := by unfold failLate; split <;> rfl
@[simp] theorem failLate_agentSeq (r m : Nat) : (failLate s r m).agentSeq = s.agentSeq := by unfold failLate; split <;> rfl
@[simp] theorem failLate_agentTaken (r m : Nat) : (failLate s r m).agentTaken = s.agentTaken := by unfold failLate; split <;> rfl
@[simp] theorem failLate_agentPark (r m : Nat) : (failLate s r m).agentPark = s.agentPark := by unfold failLate; split <;> rfl
@[simp] theorem failLate_agentNack (r m : Nat) : (failLate s r m).agentNack = s.agentNack := by unfold failLate; split <;> rfl
@[simp] theorem failLate_agentOut (r m : Nat) : (failLate s r m).agentOut = s.agentOut := by unfold failLate; split <;> rfl
@[simp] theorem failLate_hbSeen (r m : Nat) : (failLate s r m).hbSeen = s.hbSeen := by unfold failLate; split <;> rfl
@[simp] theorem failLate_hbMissed (r m : Nat) : (failLate s r m).hbMissed = s.hbMissed := by unfold failLate; split <;> rfl
@[simp] theorem failLate_hbLost (r m : Nat) : (failLate s r m).hbLost = s.hbLost := by unfold failLate; split <;> rfl
@[simp] theorem failLate_mem (r m : Nat) : (failLate s r m).mem = s.mem := by unfold failLate; split <;> rfl
@[simp] theorem failLate_poison (r m : Nat) : (failLate s r m).poison = s.poison := by unfold failLate; split <;> rfl
@[simp] theorem failLate_latent (r m : Nat) : (failLate s r m).latent = s.latent := by unfold failLate; split <;> rfl
@[simp] theorem failLate_hostOut (r m : Nat) : (failLate s r m).hostOut = s.hostOut := by unfold failLate; split <;> rfl
@[simp] theorem failLate_regOut (r m : Nat) : (failLate s r m).regOut = s.regOut := by unfold failLate; split <;> rfl
@[simp] theorem failLate_regPoison (r m : Nat) : (failLate s r m).regPoison = s.regPoison := by unfold failLate; split <;> rfl
@[simp] theorem failLate_freeCtr (r m : Nat) : (failLate s r m).freeCtr = s.freeCtr := by unfold failLate; split <;> rfl
@[simp] theorem tileOf_failLate (r m : Nat) (j : Nat) : tileOf (failLate s r m) j = tileOf s j := by
  unfold tileOf; rw [failLate_tiles]
@[simp] theorem fieldOf_failLate (r m : Nat) (j : Nat) : fieldOf (failLate s r m) j = fieldOf s j := by
  unfold fieldOf; rw [failLate_fields]
@[simp] theorem ringOf_failLate (r m : Nat) (j : Nat) : ringOf (failLate s r m) j = ringOf s j := by
  unfold ringOf; rw [failLate_rings]
@[simp] theorem stackOf_failLate (r m : Nat) (j : Nat) : stackOf (failLate s r m) j = stackOf s j := by
  unfold stackOf; rw [failLate_farStacks]
@[simp] theorem hportOf_failLate (r m : Nat) (j : Nat) : hportOf (failLate s r m) j = hportOf s j := by
  unfold hportOf; rw [failLate_hports]
@[simp] theorem sportOf_failLate (r m : Nat) (j : Nat) : sportOf (failLate s r m) j = sportOf s j := by
  unfold sportOf; rw [failLate_sports]
@[simp] theorem memByte_failLate (r m : Nat) (j : Nat) : memByte (failLate s r m) j = memByte s j := by
  unfold memByte; rw [failLate_mem]

@[simp] theorem modHq_pending (p q : Nat) (g : HQueue → HQueue) : (modHq s p q g).pending = s.pending := rfl
@[simp] theorem modHq_fused (p q : Nat) (g : HQueue → HQueue) : (modHq s p q g).fused = s.fused := rfl
@[simp] theorem modHq_time (p q : Nat) (g : HQueue → HQueue) : (modHq s p q g).time = s.time := rfl
@[simp] theorem modHq_pins (p q : Nat) (g : HQueue → HQueue) : (modHq s p q g).pins = s.pins := rfl
@[simp] theorem modHq_pwr (p q : Nat) (g : HQueue → HQueue) : (modHq s p q g).pwr = s.pwr := rfl
@[simp] theorem modHq_tiles (p q : Nat) (g : HQueue → HQueue) : (modHq s p q g).tiles = s.tiles := rfl
@[simp] theorem modHq_fields (p q : Nat) (g : HQueue → HQueue) : (modHq s p q g).fields = s.fields := rfl
@[simp] theorem modHq_rings (p q : Nat) (g : HQueue → HQueue) : (modHq s p q g).rings = s.rings := rfl
@[simp] theorem modHq_plies (p q : Nat) (g : HQueue → HQueue) : (modHq s p q g).plies = s.plies := rfl
@[simp] theorem modHq_farStacks (p q : Nat) (g : HQueue → HQueue) : (modHq s p q g).farStacks = s.farStacks := rfl
@[simp] theorem modHq_tens (p q : Nat) (g : HQueue → HQueue) : (modHq s p q g).tens = s.tens := rfl
@[simp] theorem modHq_sports (p q : Nat) (g : HQueue → HQueue) : (modHq s p q g).sports = s.sports := rfl
@[simp] theorem modHq_box (p q : Nat) (g : HQueue → HQueue) : (modHq s p q g).box = s.box := rfl
@[simp] theorem modHq_can (p q : Nat) (g : HQueue → HQueue) : (modHq s p q g).can = s.can := rfl
@[simp] theorem modHq_net (p q : Nat) (g : HQueue → HQueue) : (modHq s p q g).net = s.net := rfl
@[simp] theorem modHq_agentReqs (p q : Nat) (g : HQueue → HQueue) : (modHq s p q g).agentReqs = s.agentReqs := rfl
@[simp] theorem modHq_reqSeq (p q : Nat) (g : HQueue → HQueue) : (modHq s p q g).reqSeq = s.reqSeq := rfl
@[simp] theorem modHq_agentSeq (p q : Nat) (g : HQueue → HQueue) : (modHq s p q g).agentSeq = s.agentSeq := rfl
@[simp] theorem modHq_agentTaken (p q : Nat) (g : HQueue → HQueue) : (modHq s p q g).agentTaken = s.agentTaken := rfl
@[simp] theorem modHq_agentPark (p q : Nat) (g : HQueue → HQueue) : (modHq s p q g).agentPark = s.agentPark := rfl
@[simp] theorem modHq_agentNack (p q : Nat) (g : HQueue → HQueue) : (modHq s p q g).agentNack = s.agentNack := rfl
@[simp] theorem modHq_agentOut (p q : Nat) (g : HQueue → HQueue) : (modHq s p q g).agentOut = s.agentOut := rfl
@[simp] theorem modHq_hbSeen (p q : Nat) (g : HQueue → HQueue) : (modHq s p q g).hbSeen = s.hbSeen := rfl
@[simp] theorem modHq_hbMissed (p q : Nat) (g : HQueue → HQueue) : (modHq s p q g).hbMissed = s.hbMissed := rfl
@[simp] theorem modHq_hbLost (p q : Nat) (g : HQueue → HQueue) : (modHq s p q g).hbLost = s.hbLost := rfl
@[simp] theorem modHq_mem (p q : Nat) (g : HQueue → HQueue) : (modHq s p q g).mem = s.mem := rfl
@[simp] theorem modHq_poison (p q : Nat) (g : HQueue → HQueue) : (modHq s p q g).poison = s.poison := rfl
@[simp] theorem modHq_latent (p q : Nat) (g : HQueue → HQueue) : (modHq s p q g).latent = s.latent := rfl
@[simp] theorem modHq_hostOut (p q : Nat) (g : HQueue → HQueue) : (modHq s p q g).hostOut = s.hostOut := rfl
@[simp] theorem modHq_regOut (p q : Nat) (g : HQueue → HQueue) : (modHq s p q g).regOut = s.regOut := rfl
@[simp] theorem modHq_regPoison (p q : Nat) (g : HQueue → HQueue) : (modHq s p q g).regPoison = s.regPoison := rfl
@[simp] theorem modHq_freeCtr (p q : Nat) (g : HQueue → HQueue) : (modHq s p q g).freeCtr = s.freeCtr := rfl
@[simp] theorem tileOf_modHq (p q : Nat) (g : HQueue → HQueue) (j : Nat) : tileOf (modHq s p q g) j = tileOf s j := by
  unfold tileOf; rw [modHq_tiles]
@[simp] theorem fieldOf_modHq (p q : Nat) (g : HQueue → HQueue) (j : Nat) : fieldOf (modHq s p q g) j = fieldOf s j := by
  unfold fieldOf; rw [modHq_fields]
@[simp] theorem ringOf_modHq (p q : Nat) (g : HQueue → HQueue) (j : Nat) : ringOf (modHq s p q g) j = ringOf s j := by
  unfold ringOf; rw [modHq_rings]
@[simp] theorem stackOf_modHq (p q : Nat) (g : HQueue → HQueue) (j : Nat) : stackOf (modHq s p q g) j = stackOf s j := by
  unfold stackOf; rw [modHq_farStacks]
@[simp] theorem tenOf_modHq (p q : Nat) (g : HQueue → HQueue) (j : Nat) : tenOf (modHq s p q g) j = tenOf s j := by
  unfold tenOf; rw [modHq_tens]
@[simp] theorem sportOf_modHq (p q : Nat) (g : HQueue → HQueue) (j : Nat) : sportOf (modHq s p q g) j = sportOf s j := by
  unfold sportOf; rw [modHq_sports]
@[simp] theorem memByte_modHq (p q : Nat) (g : HQueue → HQueue) (j : Nat) : memByte (modHq s p q g) j = memByte s j := by
  unfold memByte; rw [modHq_mem]

@[simp] theorem postOne_pending (p q : Nat) (c : Completion) : (postOne s p q c).pending = s.pending := by unfold postOne; dsimp only; rw [modHq_pending, modHport_pending, hostWrite_pending]
@[simp] theorem postOne_fused (p q : Nat) (c : Completion) : (postOne s p q c).fused = s.fused := by unfold postOne; dsimp only; rw [modHq_fused, modHport_fused, hostWrite_fused]
@[simp] theorem postOne_time (p q : Nat) (c : Completion) : (postOne s p q c).time = s.time := by unfold postOne; dsimp only; rw [modHq_time, modHport_time, hostWrite_time]
@[simp] theorem postOne_pins (p q : Nat) (c : Completion) : (postOne s p q c).pins = s.pins := by unfold postOne; dsimp only; rw [modHq_pins, modHport_pins, hostWrite_pins]
@[simp] theorem postOne_pwr (p q : Nat) (c : Completion) : (postOne s p q c).pwr = s.pwr := by unfold postOne; dsimp only; rw [modHq_pwr, modHport_pwr, hostWrite_pwr]
@[simp] theorem postOne_tiles (p q : Nat) (c : Completion) : (postOne s p q c).tiles = s.tiles := by unfold postOne; dsimp only; rw [modHq_tiles, modHport_tiles, hostWrite_tiles]
@[simp] theorem postOne_fields (p q : Nat) (c : Completion) : (postOne s p q c).fields = s.fields := by unfold postOne; dsimp only; rw [modHq_fields, modHport_fields, hostWrite_fields]
@[simp] theorem postOne_rings (p q : Nat) (c : Completion) : (postOne s p q c).rings = s.rings := by unfold postOne; dsimp only; rw [modHq_rings, modHport_rings, hostWrite_rings]
@[simp] theorem postOne_plies (p q : Nat) (c : Completion) : (postOne s p q c).plies = s.plies := by unfold postOne; dsimp only; rw [modHq_plies, modHport_plies, hostWrite_plies]
@[simp] theorem postOne_farStacks (p q : Nat) (c : Completion) : (postOne s p q c).farStacks = s.farStacks := by unfold postOne; dsimp only; rw [modHq_farStacks, modHport_farStacks, hostWrite_farStacks]
@[simp] theorem postOne_tens (p q : Nat) (c : Completion) : (postOne s p q c).tens = s.tens := by unfold postOne; dsimp only; rw [modHq_tens, modHport_tens, hostWrite_tens]
@[simp] theorem postOne_sports (p q : Nat) (c : Completion) : (postOne s p q c).sports = s.sports := by unfold postOne; dsimp only; rw [modHq_sports, modHport_sports, hostWrite_sports]
@[simp] theorem postOne_box (p q : Nat) (c : Completion) : (postOne s p q c).box = s.box := by unfold postOne; dsimp only; rw [modHq_box, modHport_box, hostWrite_box]
@[simp] theorem postOne_can (p q : Nat) (c : Completion) : (postOne s p q c).can = s.can := by unfold postOne; dsimp only; rw [modHq_can, modHport_can, hostWrite_can]
@[simp] theorem postOne_net (p q : Nat) (c : Completion) : (postOne s p q c).net = s.net := by unfold postOne; dsimp only; rw [modHq_net, modHport_net, hostWrite_net]
@[simp] theorem postOne_agentReqs (p q : Nat) (c : Completion) : (postOne s p q c).agentReqs = s.agentReqs := by unfold postOne; dsimp only; rw [modHq_agentReqs, modHport_agentReqs, hostWrite_agentReqs]
@[simp] theorem postOne_reqSeq (p q : Nat) (c : Completion) : (postOne s p q c).reqSeq = s.reqSeq := by unfold postOne; dsimp only; rw [modHq_reqSeq, modHport_reqSeq, hostWrite_reqSeq]
@[simp] theorem postOne_agentSeq (p q : Nat) (c : Completion) : (postOne s p q c).agentSeq = s.agentSeq := by unfold postOne; dsimp only; rw [modHq_agentSeq, modHport_agentSeq, hostWrite_agentSeq]
@[simp] theorem postOne_agentTaken (p q : Nat) (c : Completion) : (postOne s p q c).agentTaken = s.agentTaken := by unfold postOne; dsimp only; rw [modHq_agentTaken, modHport_agentTaken, hostWrite_agentTaken]
@[simp] theorem postOne_agentPark (p q : Nat) (c : Completion) : (postOne s p q c).agentPark = s.agentPark := by unfold postOne; dsimp only; rw [modHq_agentPark, modHport_agentPark, hostWrite_agentPark]
@[simp] theorem postOne_agentNack (p q : Nat) (c : Completion) : (postOne s p q c).agentNack = s.agentNack := by unfold postOne; dsimp only; rw [modHq_agentNack, modHport_agentNack, hostWrite_agentNack]
@[simp] theorem postOne_agentOut (p q : Nat) (c : Completion) : (postOne s p q c).agentOut = s.agentOut := by unfold postOne; dsimp only; rw [modHq_agentOut, modHport_agentOut, hostWrite_agentOut]
@[simp] theorem postOne_hbSeen (p q : Nat) (c : Completion) : (postOne s p q c).hbSeen = s.hbSeen := by unfold postOne; dsimp only; rw [modHq_hbSeen, modHport_hbSeen, hostWrite_hbSeen]
@[simp] theorem postOne_hbMissed (p q : Nat) (c : Completion) : (postOne s p q c).hbMissed = s.hbMissed := by unfold postOne; dsimp only; rw [modHq_hbMissed, modHport_hbMissed, hostWrite_hbMissed]
@[simp] theorem postOne_hbLost (p q : Nat) (c : Completion) : (postOne s p q c).hbLost = s.hbLost := by unfold postOne; dsimp only; rw [modHq_hbLost, modHport_hbLost, hostWrite_hbLost]
@[simp] theorem postOne_mem (p q : Nat) (c : Completion) : (postOne s p q c).mem = s.mem := by unfold postOne; dsimp only; rw [modHq_mem, modHport_mem, hostWrite_mem]
@[simp] theorem postOne_poison (p q : Nat) (c : Completion) : (postOne s p q c).poison = s.poison := by unfold postOne; dsimp only; rw [modHq_poison, modHport_poison, hostWrite_poison]
@[simp] theorem postOne_latent (p q : Nat) (c : Completion) : (postOne s p q c).latent = s.latent := by unfold postOne; dsimp only; rw [modHq_latent, modHport_latent, hostWrite_latent]
@[simp] theorem postOne_regOut (p q : Nat) (c : Completion) : (postOne s p q c).regOut = s.regOut := by unfold postOne; dsimp only; rw [modHq_regOut, modHport_regOut, hostWrite_regOut]
@[simp] theorem postOne_regPoison (p q : Nat) (c : Completion) : (postOne s p q c).regPoison = s.regPoison := by unfold postOne; dsimp only; rw [modHq_regPoison, modHport_regPoison, hostWrite_regPoison]
@[simp] theorem postOne_freeCtr (p q : Nat) (c : Completion) : (postOne s p q c).freeCtr = s.freeCtr := by unfold postOne; dsimp only; rw [modHq_freeCtr, modHport_freeCtr, hostWrite_freeCtr]
@[simp] theorem tileOf_postOne (p q : Nat) (c : Completion) (j : Nat) : tileOf (postOne s p q c) j = tileOf s j := by
  unfold tileOf; rw [postOne_tiles]
@[simp] theorem fieldOf_postOne (p q : Nat) (c : Completion) (j : Nat) : fieldOf (postOne s p q c) j = fieldOf s j := by
  unfold fieldOf; rw [postOne_fields]
@[simp] theorem ringOf_postOne (p q : Nat) (c : Completion) (j : Nat) : ringOf (postOne s p q c) j = ringOf s j := by
  unfold ringOf; rw [postOne_rings]
@[simp] theorem stackOf_postOne (p q : Nat) (c : Completion) (j : Nat) : stackOf (postOne s p q c) j = stackOf s j := by
  unfold stackOf; rw [postOne_farStacks]
@[simp] theorem tenOf_postOne (p q : Nat) (c : Completion) (j : Nat) : tenOf (postOne s p q c) j = tenOf s j := by
  unfold tenOf; rw [postOne_tens]
@[simp] theorem sportOf_postOne (p q : Nat) (c : Completion) (j : Nat) : sportOf (postOne s p q c) j = sportOf s j := by
  unfold sportOf; rw [postOne_sports]
@[simp] theorem memByte_postOne (p q : Nat) (c : Completion) (j : Nat) : memByte (postOne s p q c) j = memByte s j := by
  unfold memByte; rw [postOne_mem]

@[simp] theorem complete_pending (w : Waiter) (st r : Nat) : (complete s w st r).pending = s.pending := by unfold complete; dsimp only; repeat' first | with_reducible rfl | rw [postOne_pending] | rw [modHq_pending] | split
@[simp] theorem complete_fused (w : Waiter) (st r : Nat) : (complete s w st r).fused = s.fused := by unfold complete; dsimp only; repeat' first | with_reducible rfl | rw [postOne_fused] | rw [modHq_fused] | split
@[simp] theorem complete_time (w : Waiter) (st r : Nat) : (complete s w st r).time = s.time := by unfold complete; dsimp only; repeat' first | with_reducible rfl | rw [postOne_time] | rw [modHq_time] | split
@[simp] theorem complete_pins (w : Waiter) (st r : Nat) : (complete s w st r).pins = s.pins := by unfold complete; dsimp only; repeat' first | with_reducible rfl | rw [postOne_pins] | rw [modHq_pins] | split
@[simp] theorem complete_pwr (w : Waiter) (st r : Nat) : (complete s w st r).pwr = s.pwr := by unfold complete; dsimp only; repeat' first | with_reducible rfl | rw [postOne_pwr] | rw [modHq_pwr] | split
@[simp] theorem complete_tiles (w : Waiter) (st r : Nat) : (complete s w st r).tiles = s.tiles := by unfold complete; dsimp only; repeat' first | with_reducible rfl | rw [postOne_tiles] | rw [modHq_tiles] | split
@[simp] theorem complete_fields (w : Waiter) (st r : Nat) : (complete s w st r).fields = s.fields := by unfold complete; dsimp only; repeat' first | with_reducible rfl | rw [postOne_fields] | rw [modHq_fields] | split
@[simp] theorem complete_rings (w : Waiter) (st r : Nat) : (complete s w st r).rings = s.rings := by unfold complete; dsimp only; repeat' first | with_reducible rfl | rw [postOne_rings] | rw [modHq_rings] | split
@[simp] theorem complete_plies (w : Waiter) (st r : Nat) : (complete s w st r).plies = s.plies := by unfold complete; dsimp only; repeat' first | with_reducible rfl | rw [postOne_plies] | rw [modHq_plies] | split
@[simp] theorem complete_farStacks (w : Waiter) (st r : Nat) : (complete s w st r).farStacks = s.farStacks := by unfold complete; dsimp only; repeat' first | with_reducible rfl | rw [postOne_farStacks] | rw [modHq_farStacks] | split
@[simp] theorem complete_tens (w : Waiter) (st r : Nat) : (complete s w st r).tens = s.tens := by unfold complete; dsimp only; repeat' first | with_reducible rfl | rw [postOne_tens] | rw [modHq_tens] | split
@[simp] theorem complete_sports (w : Waiter) (st r : Nat) : (complete s w st r).sports = s.sports := by unfold complete; dsimp only; repeat' first | with_reducible rfl | rw [postOne_sports] | rw [modHq_sports] | split
@[simp] theorem complete_box (w : Waiter) (st r : Nat) : (complete s w st r).box = s.box := by unfold complete; dsimp only; repeat' first | with_reducible rfl | rw [postOne_box] | rw [modHq_box] | split
@[simp] theorem complete_can (w : Waiter) (st r : Nat) : (complete s w st r).can = s.can := by unfold complete; dsimp only; repeat' first | with_reducible rfl | rw [postOne_can] | rw [modHq_can] | split
@[simp] theorem complete_net (w : Waiter) (st r : Nat) : (complete s w st r).net = s.net := by unfold complete; dsimp only; repeat' first | with_reducible rfl | rw [postOne_net] | rw [modHq_net] | split
@[simp] theorem complete_agentReqs (w : Waiter) (st r : Nat) : (complete s w st r).agentReqs = s.agentReqs := by unfold complete; dsimp only; repeat' first | with_reducible rfl | rw [postOne_agentReqs] | rw [modHq_agentReqs] | split
@[simp] theorem complete_reqSeq (w : Waiter) (st r : Nat) : (complete s w st r).reqSeq = s.reqSeq := by unfold complete; dsimp only; repeat' first | with_reducible rfl | rw [postOne_reqSeq] | rw [modHq_reqSeq] | split
@[simp] theorem complete_agentSeq (w : Waiter) (st r : Nat) : (complete s w st r).agentSeq = s.agentSeq := by unfold complete; dsimp only; repeat' first | with_reducible rfl | rw [postOne_agentSeq] | rw [modHq_agentSeq] | split
@[simp] theorem complete_agentTaken (w : Waiter) (st r : Nat) : (complete s w st r).agentTaken = s.agentTaken := by unfold complete; dsimp only; repeat' first | with_reducible rfl | rw [postOne_agentTaken] | rw [modHq_agentTaken] | split
@[simp] theorem complete_agentPark (w : Waiter) (st r : Nat) : (complete s w st r).agentPark = s.agentPark := by unfold complete; dsimp only; repeat' first | with_reducible rfl | rw [postOne_agentPark] | rw [modHq_agentPark] | split
@[simp] theorem complete_agentNack (w : Waiter) (st r : Nat) : (complete s w st r).agentNack = s.agentNack := by unfold complete; dsimp only; repeat' first | with_reducible rfl | rw [postOne_agentNack] | rw [modHq_agentNack] | split
@[simp] theorem complete_agentOut (w : Waiter) (st r : Nat) : (complete s w st r).agentOut = s.agentOut := by unfold complete; dsimp only; repeat' first | with_reducible rfl | rw [postOne_agentOut] | rw [modHq_agentOut] | split
@[simp] theorem complete_hbSeen (w : Waiter) (st r : Nat) : (complete s w st r).hbSeen = s.hbSeen := by unfold complete; dsimp only; repeat' first | with_reducible rfl | rw [postOne_hbSeen] | rw [modHq_hbSeen] | split
@[simp] theorem complete_hbMissed (w : Waiter) (st r : Nat) : (complete s w st r).hbMissed = s.hbMissed := by unfold complete; dsimp only; repeat' first | with_reducible rfl | rw [postOne_hbMissed] | rw [modHq_hbMissed] | split
@[simp] theorem complete_hbLost (w : Waiter) (st r : Nat) : (complete s w st r).hbLost = s.hbLost := by unfold complete; dsimp only; repeat' first | with_reducible rfl | rw [postOne_hbLost] | rw [modHq_hbLost] | split
@[simp] theorem complete_mem (w : Waiter) (st r : Nat) : (complete s w st r).mem = s.mem := by unfold complete; dsimp only; repeat' first | with_reducible rfl | rw [postOne_mem] | rw [modHq_mem] | split
@[simp] theorem complete_poison (w : Waiter) (st r : Nat) : (complete s w st r).poison = s.poison := by unfold complete; dsimp only; repeat' first | with_reducible rfl | rw [postOne_poison] | rw [modHq_poison] | split
@[simp] theorem complete_latent (w : Waiter) (st r : Nat) : (complete s w st r).latent = s.latent := by unfold complete; dsimp only; repeat' first | with_reducible rfl | rw [postOne_latent] | rw [modHq_latent] | split
@[simp] theorem complete_regOut (w : Waiter) (st r : Nat) : (complete s w st r).regOut = s.regOut := by unfold complete; dsimp only; repeat' first | with_reducible rfl | rw [postOne_regOut] | rw [modHq_regOut] | split
@[simp] theorem complete_regPoison (w : Waiter) (st r : Nat) : (complete s w st r).regPoison = s.regPoison := by unfold complete; dsimp only; repeat' first | with_reducible rfl | rw [postOne_regPoison] | rw [modHq_regPoison] | split
@[simp] theorem complete_freeCtr (w : Waiter) (st r : Nat) : (complete s w st r).freeCtr = s.freeCtr := by unfold complete; dsimp only; repeat' first | with_reducible rfl | rw [postOne_freeCtr] | rw [modHq_freeCtr] | split
@[simp] theorem tileOf_complete (w : Waiter) (st r : Nat) (j : Nat) : tileOf (complete s w st r) j = tileOf s j := by
  unfold tileOf; rw [complete_tiles]
@[simp] theorem fieldOf_complete (w : Waiter) (st r : Nat) (j : Nat) : fieldOf (complete s w st r) j = fieldOf s j := by
  unfold fieldOf; rw [complete_fields]
@[simp] theorem ringOf_complete (w : Waiter) (st r : Nat) (j : Nat) : ringOf (complete s w st r) j = ringOf s j := by
  unfold ringOf; rw [complete_rings]
@[simp] theorem stackOf_complete (w : Waiter) (st r : Nat) (j : Nat) : stackOf (complete s w st r) j = stackOf s j := by
  unfold stackOf; rw [complete_farStacks]
@[simp] theorem tenOf_complete (w : Waiter) (st r : Nat) (j : Nat) : tenOf (complete s w st r) j = tenOf s j := by
  unfold tenOf; rw [complete_tens]
@[simp] theorem sportOf_complete (w : Waiter) (st r : Nat) (j : Nat) : sportOf (complete s w st r) j = sportOf s j := by
  unfold sportOf; rw [complete_sports]
@[simp] theorem memByte_complete (w : Waiter) (st r : Nat) (j : Nat) : memByte (complete s w st r) j = memByte s j := by
  unfold memByte; rw [complete_mem]

@[simp] theorem completeOpt_pending (w : Option Waiter) (st r : Nat) : (completeOpt s w st r).pending = s.pending := by cases w with | none => rfl | some x => exact complete_pending _ _ _ _
@[simp] theorem completeOpt_fused (w : Option Waiter) (st r : Nat) : (completeOpt s w st r).fused = s.fused := by cases w with | none => rfl | some x => exact complete_fused _ _ _ _
@[simp] theorem completeOpt_time (w : Option Waiter) (st r : Nat) : (completeOpt s w st r).time = s.time := by cases w with | none => rfl | some x => exact complete_time _ _ _ _
@[simp] theorem completeOpt_pins (w : Option Waiter) (st r : Nat) : (completeOpt s w st r).pins = s.pins := by cases w with | none => rfl | some x => exact complete_pins _ _ _ _
@[simp] theorem completeOpt_pwr (w : Option Waiter) (st r : Nat) : (completeOpt s w st r).pwr = s.pwr := by cases w with | none => rfl | some x => exact complete_pwr _ _ _ _
@[simp] theorem completeOpt_tiles (w : Option Waiter) (st r : Nat) : (completeOpt s w st r).tiles = s.tiles := by cases w with | none => rfl | some x => exact complete_tiles _ _ _ _
@[simp] theorem completeOpt_fields (w : Option Waiter) (st r : Nat) : (completeOpt s w st r).fields = s.fields := by cases w with | none => rfl | some x => exact complete_fields _ _ _ _
@[simp] theorem completeOpt_rings (w : Option Waiter) (st r : Nat) : (completeOpt s w st r).rings = s.rings := by cases w with | none => rfl | some x => exact complete_rings _ _ _ _
@[simp] theorem completeOpt_plies (w : Option Waiter) (st r : Nat) : (completeOpt s w st r).plies = s.plies := by cases w with | none => rfl | some x => exact complete_plies _ _ _ _
@[simp] theorem completeOpt_farStacks (w : Option Waiter) (st r : Nat) : (completeOpt s w st r).farStacks = s.farStacks := by cases w with | none => rfl | some x => exact complete_farStacks _ _ _ _
@[simp] theorem completeOpt_tens (w : Option Waiter) (st r : Nat) : (completeOpt s w st r).tens = s.tens := by cases w with | none => rfl | some x => exact complete_tens _ _ _ _
@[simp] theorem completeOpt_sports (w : Option Waiter) (st r : Nat) : (completeOpt s w st r).sports = s.sports := by cases w with | none => rfl | some x => exact complete_sports _ _ _ _
@[simp] theorem completeOpt_box (w : Option Waiter) (st r : Nat) : (completeOpt s w st r).box = s.box := by cases w with | none => rfl | some x => exact complete_box _ _ _ _
@[simp] theorem completeOpt_can (w : Option Waiter) (st r : Nat) : (completeOpt s w st r).can = s.can := by cases w with | none => rfl | some x => exact complete_can _ _ _ _
@[simp] theorem completeOpt_net (w : Option Waiter) (st r : Nat) : (completeOpt s w st r).net = s.net := by cases w with | none => rfl | some x => exact complete_net _ _ _ _
@[simp] theorem completeOpt_agentReqs (w : Option Waiter) (st r : Nat) : (completeOpt s w st r).agentReqs = s.agentReqs := by cases w with | none => rfl | some x => exact complete_agentReqs _ _ _ _
@[simp] theorem completeOpt_reqSeq (w : Option Waiter) (st r : Nat) : (completeOpt s w st r).reqSeq = s.reqSeq := by cases w with | none => rfl | some x => exact complete_reqSeq _ _ _ _
@[simp] theorem completeOpt_agentSeq (w : Option Waiter) (st r : Nat) : (completeOpt s w st r).agentSeq = s.agentSeq := by cases w with | none => rfl | some x => exact complete_agentSeq _ _ _ _
@[simp] theorem completeOpt_agentTaken (w : Option Waiter) (st r : Nat) : (completeOpt s w st r).agentTaken = s.agentTaken := by cases w with | none => rfl | some x => exact complete_agentTaken _ _ _ _
@[simp] theorem completeOpt_agentPark (w : Option Waiter) (st r : Nat) : (completeOpt s w st r).agentPark = s.agentPark := by cases w with | none => rfl | some x => exact complete_agentPark _ _ _ _
@[simp] theorem completeOpt_agentNack (w : Option Waiter) (st r : Nat) : (completeOpt s w st r).agentNack = s.agentNack := by cases w with | none => rfl | some x => exact complete_agentNack _ _ _ _
@[simp] theorem completeOpt_agentOut (w : Option Waiter) (st r : Nat) : (completeOpt s w st r).agentOut = s.agentOut := by cases w with | none => rfl | some x => exact complete_agentOut _ _ _ _
@[simp] theorem completeOpt_hbSeen (w : Option Waiter) (st r : Nat) : (completeOpt s w st r).hbSeen = s.hbSeen := by cases w with | none => rfl | some x => exact complete_hbSeen _ _ _ _
@[simp] theorem completeOpt_hbMissed (w : Option Waiter) (st r : Nat) : (completeOpt s w st r).hbMissed = s.hbMissed := by cases w with | none => rfl | some x => exact complete_hbMissed _ _ _ _
@[simp] theorem completeOpt_hbLost (w : Option Waiter) (st r : Nat) : (completeOpt s w st r).hbLost = s.hbLost := by cases w with | none => rfl | some x => exact complete_hbLost _ _ _ _
@[simp] theorem completeOpt_mem (w : Option Waiter) (st r : Nat) : (completeOpt s w st r).mem = s.mem := by cases w with | none => rfl | some x => exact complete_mem _ _ _ _
@[simp] theorem completeOpt_poison (w : Option Waiter) (st r : Nat) : (completeOpt s w st r).poison = s.poison := by cases w with | none => rfl | some x => exact complete_poison _ _ _ _
@[simp] theorem completeOpt_latent (w : Option Waiter) (st r : Nat) : (completeOpt s w st r).latent = s.latent := by cases w with | none => rfl | some x => exact complete_latent _ _ _ _
@[simp] theorem completeOpt_regOut (w : Option Waiter) (st r : Nat) : (completeOpt s w st r).regOut = s.regOut := by cases w with | none => rfl | some x => exact complete_regOut _ _ _ _
@[simp] theorem completeOpt_regPoison (w : Option Waiter) (st r : Nat) : (completeOpt s w st r).regPoison = s.regPoison := by cases w with | none => rfl | some x => exact complete_regPoison _ _ _ _
@[simp] theorem completeOpt_freeCtr (w : Option Waiter) (st r : Nat) : (completeOpt s w st r).freeCtr = s.freeCtr := by cases w with | none => rfl | some x => exact complete_freeCtr _ _ _ _
@[simp] theorem tileOf_completeOpt (w : Option Waiter) (st r : Nat) (j : Nat) : tileOf (completeOpt s w st r) j = tileOf s j := by
  unfold tileOf; rw [completeOpt_tiles]
@[simp] theorem fieldOf_completeOpt (w : Option Waiter) (st r : Nat) (j : Nat) : fieldOf (completeOpt s w st r) j = fieldOf s j := by
  unfold fieldOf; rw [completeOpt_fields]
@[simp] theorem ringOf_completeOpt (w : Option Waiter) (st r : Nat) (j : Nat) : ringOf (completeOpt s w st r) j = ringOf s j := by
  unfold ringOf; rw [completeOpt_rings]
@[simp] theorem stackOf_completeOpt (w : Option Waiter) (st r : Nat) (j : Nat) : stackOf (completeOpt s w st r) j = stackOf s j := by
  unfold stackOf; rw [completeOpt_farStacks]
@[simp] theorem tenOf_completeOpt (w : Option Waiter) (st r : Nat) (j : Nat) : tenOf (completeOpt s w st r) j = tenOf s j := by
  unfold tenOf; rw [completeOpt_tens]
@[simp] theorem sportOf_completeOpt (w : Option Waiter) (st r : Nat) (j : Nat) : sportOf (completeOpt s w st r) j = sportOf s j := by
  unfold sportOf; rw [completeOpt_sports]
@[simp] theorem memByte_completeOpt (w : Option Waiter) (st r : Nat) (j : Nat) : memByte (completeOpt s w st r) j = memByte s j := by
  unfold memByte; rw [completeOpt_mem]

@[simp] theorem failCheck_pending (i m : Nat) : (failCheck s i m).pending = s.pending := (evTile_pending _ _ _ _ _ _).trans (failTile_pending _ _ _)
@[simp] theorem failCheck_fused (i m : Nat) : (failCheck s i m).fused = s.fused := (evTile_fused _ _ _ _ _ _).trans (failTile_fused _ _ _)
@[simp] theorem failCheck_time (i m : Nat) : (failCheck s i m).time = s.time := (evTile_time _ _ _ _ _ _).trans (failTile_time _ _ _)
@[simp] theorem failCheck_pins (i m : Nat) : (failCheck s i m).pins = s.pins := (evTile_pins _ _ _ _ _ _).trans (failTile_pins _ _ _)
@[simp] theorem failCheck_pwr (i m : Nat) : (failCheck s i m).pwr = s.pwr := (evTile_pwr _ _ _ _ _ _).trans (failTile_pwr _ _ _)
@[simp] theorem failCheck_tiles (i m : Nat) : (failCheck s i m).tiles = s.tiles := (evTile_tiles _ _ _ _ _ _).trans (failTile_tiles _ _ _)
@[simp] theorem failCheck_fields (i m : Nat) : (failCheck s i m).fields = s.fields := (evTile_fields _ _ _ _ _ _).trans (failTile_fields _ _ _)
@[simp] theorem failCheck_rings (i m : Nat) : (failCheck s i m).rings = s.rings := (evTile_rings _ _ _ _ _ _).trans (failTile_rings _ _ _)
@[simp] theorem failCheck_farStacks (i m : Nat) : (failCheck s i m).farStacks = s.farStacks := (evTile_farStacks _ _ _ _ _ _).trans (failTile_farStacks _ _ _)
@[simp] theorem failCheck_hports (i m : Nat) : (failCheck s i m).hports = s.hports := (evTile_hports _ _ _ _ _ _).trans (failTile_hports _ _ _)
@[simp] theorem failCheck_sports (i m : Nat) : (failCheck s i m).sports = s.sports := (evTile_sports _ _ _ _ _ _).trans (failTile_sports _ _ _)
@[simp] theorem failCheck_can (i m : Nat) : (failCheck s i m).can = s.can := (evTile_can _ _ _ _ _ _).trans (failTile_can _ _ _)
@[simp] theorem failCheck_net (i m : Nat) : (failCheck s i m).net = s.net := (evTile_net _ _ _ _ _ _).trans (failTile_net _ _ _)
@[simp] theorem failCheck_agentReqs (i m : Nat) : (failCheck s i m).agentReqs = s.agentReqs := (evTile_agentReqs _ _ _ _ _ _).trans (failTile_agentReqs _ _ _)
@[simp] theorem failCheck_reqSeq (i m : Nat) : (failCheck s i m).reqSeq = s.reqSeq := (evTile_reqSeq _ _ _ _ _ _).trans (failTile_reqSeq _ _ _)
@[simp] theorem failCheck_agentSeq (i m : Nat) : (failCheck s i m).agentSeq = s.agentSeq := (evTile_agentSeq _ _ _ _ _ _).trans (failTile_agentSeq _ _ _)
@[simp] theorem failCheck_agentTaken (i m : Nat) : (failCheck s i m).agentTaken = s.agentTaken := (evTile_agentTaken _ _ _ _ _ _).trans (failTile_agentTaken _ _ _)
@[simp] theorem failCheck_agentPark (i m : Nat) : (failCheck s i m).agentPark = s.agentPark := (evTile_agentPark _ _ _ _ _ _).trans (failTile_agentPark _ _ _)
@[simp] theorem failCheck_agentNack (i m : Nat) : (failCheck s i m).agentNack = s.agentNack := (evTile_agentNack _ _ _ _ _ _).trans (failTile_agentNack _ _ _)
@[simp] theorem failCheck_agentOut (i m : Nat) : (failCheck s i m).agentOut = s.agentOut := (evTile_agentOut _ _ _ _ _ _).trans (failTile_agentOut _ _ _)
@[simp] theorem failCheck_hbSeen (i m : Nat) : (failCheck s i m).hbSeen = s.hbSeen := (evTile_hbSeen _ _ _ _ _ _).trans (failTile_hbSeen _ _ _)
@[simp] theorem failCheck_hbMissed (i m : Nat) : (failCheck s i m).hbMissed = s.hbMissed := (evTile_hbMissed _ _ _ _ _ _).trans (failTile_hbMissed _ _ _)
@[simp] theorem failCheck_hbLost (i m : Nat) : (failCheck s i m).hbLost = s.hbLost := (evTile_hbLost _ _ _ _ _ _).trans (failTile_hbLost _ _ _)
@[simp] theorem failCheck_mem (i m : Nat) : (failCheck s i m).mem = s.mem := (evTile_mem _ _ _ _ _ _).trans (failTile_mem _ _ _)
@[simp] theorem failCheck_poison (i m : Nat) : (failCheck s i m).poison = s.poison := (evTile_poison _ _ _ _ _ _).trans (failTile_poison _ _ _)
@[simp] theorem failCheck_latent (i m : Nat) : (failCheck s i m).latent = s.latent := (evTile_latent _ _ _ _ _ _).trans (failTile_latent _ _ _)
@[simp] theorem failCheck_hostOut (i m : Nat) : (failCheck s i m).hostOut = s.hostOut := (evTile_hostOut _ _ _ _ _ _).trans (failTile_hostOut _ _ _)
@[simp] theorem failCheck_regOut (i m : Nat) : (failCheck s i m).regOut = s.regOut := (evTile_regOut _ _ _ _ _ _).trans (failTile_regOut _ _ _)
@[simp] theorem failCheck_regPoison (i m : Nat) : (failCheck s i m).regPoison = s.regPoison := (evTile_regPoison _ _ _ _ _ _).trans (failTile_regPoison _ _ _)
@[simp] theorem failCheck_freeCtr (i m : Nat) : (failCheck s i m).freeCtr = s.freeCtr := (evTile_freeCtr _ _ _ _ _ _).trans (failTile_freeCtr _ _ _)
@[simp] theorem tileOf_failCheck (i m : Nat) (j : Nat) : tileOf (failCheck s i m) j = tileOf s j := by
  unfold tileOf; rw [failCheck_tiles]
@[simp] theorem fieldOf_failCheck (i m : Nat) (j : Nat) : fieldOf (failCheck s i m) j = fieldOf s j := by
  unfold fieldOf; rw [failCheck_fields]
@[simp] theorem ringOf_failCheck (i m : Nat) (j : Nat) : ringOf (failCheck s i m) j = ringOf s j := by
  unfold ringOf; rw [failCheck_rings]
@[simp] theorem stackOf_failCheck (i m : Nat) (j : Nat) : stackOf (failCheck s i m) j = stackOf s j := by
  unfold stackOf; rw [failCheck_farStacks]
@[simp] theorem hportOf_failCheck (i m : Nat) (j : Nat) : hportOf (failCheck s i m) j = hportOf s j := by
  unfold hportOf; rw [failCheck_hports]
@[simp] theorem sportOf_failCheck (i m : Nat) (j : Nat) : sportOf (failCheck s i m) j = sportOf s j := by
  unfold sportOf; rw [failCheck_sports]
@[simp] theorem memByte_failCheck (i m : Nat) (j : Nat) : memByte (failCheck s i m) j = memByte s j := by
  unfold memByte; rw [failCheck_mem]

end Sys2Proof.Laws
end

