-- ==== Sys2Proof/WellFormed.lean ====
section
/-! DEFINITION. Well-formed commands: the command's row agrees with the code in its word, and operand lists have
the lengths and values that their rules give. A meaning never needs these checks to be defined. -/

namespace Sys2Proof

/-- Verb code of a verb (R104). -/
def verbOp (v : BitVec 128) : Nat := v.toNat % 256

/-- OP of a scalar instruction (R136). -/
def scalarOpc (w : BitVec 32) : Nat := w.toNat / 2 ^ 22 % 64

/-- OPC of a command-queue entry (R355). -/
def entryOp (e : BitVec 512) : Nat := e.toNat % 256

/-- Operation codes of the command queues (R356). -/
def entryCodes : List Nat := [1, 2, 3, 4, 5, 6, 8, 9, 0x10, 0x11, 0x12, 0x13, 0x20, 0x21]

/-- TYPE of a frame (R379). -/
def frameType (f : Frame) : Nat := f.hdr.toNat % 16

/-- Verb codes of the L2 (R144). -/
def verbCodes : List Nat := [0x01, 0x02, 0x03, 0x08, 0x09, 0x0A, 0x11, 0x10, 0x18, 0x19, 0x20, 0x28, 0x30, 0x3F]

/-- Operation codes of the scalar core (R137). -/
def scalarCodes : List Nat :=
  [0, 1, 2, 3, 4, 5, 6, 7, 8, 9, 0xA, 0x10, 0x11, 0x18, 0x19, 0x1A, 0x20, 0x21, 0x22, 0x28, 0x29, 0x30, 0x31, 0x3E, 0x3F]

/-- Payload of a data packet: LEN bytes, at most 1,024 (R246); a WREAD carries none. -/
def DataMsg.ok (d : DataMsg) : Bool :=
  decide (d.len ≤ 1024) && (if d.dtype = .wread then d.payload.isEmpty else d.payload.length = d.len) &&
  d.psn.all (fun l => decide (8 * l < max 8 d.payload.length))

def Packet.ok (p : Packet) : Bool :=
  decide (p.dcnt ≤ 255) && decide (p.age ≤ 4095) &&
  (match p.body with
   | .ctl _ => decide (p.route.length ≤ 40)
   | .data d => decide (p.route.length ≤ 42) && d.ok)

/-- Bits [lo + len − 1 : lo] of a verb. -/
def vbits (v : BitVec 128) (lo len : Nat) : Nat := v.toNat / 2 ^ lo % 2 ^ len

/-- A word of the mesh: 64 bytes. -/
def MeshWord.ok (w : MeshWord) : Bool := w.bytes.length = 64

/-- A tile's word is taken from its buffer; that of any other producer is whole. -/
def WordIn.ok : Producer → WordIn → Bool
  | .tile _ _ _, .sent _ _ _ _ _ => true
  | .tile _ _ _, .whole _ => false
  | _, .whole w => w.ok
  | _, .sent _ _ _ _ _ => false

/-- A command as its row describes it. -/
def Instr.wf : Instr → Bool
  | .powerOn _ _ => true
  | .holdUpFlush _ => true
  | .wholeModuleReset => true
  | .modResetDeassert _ _ => true
  | .unpowered => true
  | .throttleAssert => true
  | .throttleDeassert => true
  | .chatterQuiet => true
  | .throttleRelease => true
  | .throttleLong => true
  | .powerSample _ => true
  | .guardClear => true
  | .capLoopAction => true
  | .repeatBreach => true
  | .breachEnd => true
  | .sensorRead _ => true
  | .thermalCauseEnd => true
  | .thermtrip _ _ => true
  | .phaseLost _ _ _ => true
  | .regLatchoff _ => true
  | .efuseOpen _ => true
  | .canaryRun _ _ => true
  | .opticalSample _ => true
  | .poweredSecond => true
  | .poweredCountStore => true
  | .beatTick _ => true
  | .stagingComplete _ => true
  | .stageStall _ => true
  | .tickMissing _ => true
  | .sideshowTest _ _ _ => true
  | .heartbeat _ c => c.ctype = .heartbeat
  | .ringLost _ => true
  | .takeoverRestoreDone _ => true
  | .tileRestore _ => true
  | .farHomeMigrationDone _ _ => true
  | .ringRejoin _ _ => true
  | .hangVerdict _ => true
  | .extStall _ => true
  | .computeResetTimeout => true
  | .ringmasterFault _ => true
  | .escCountExpiry => true
  | .suspectExpiry _ => true
  | .guardCopyDone _ => true
  | .laneRetire _ _ _ _ _ => true
  | .tsvLaneRetire _ _ _ _ => true
  | .rowRemap _ _ _ _ _ => true
  | .nearPatrol _ _ _ => true
  | .farPatrol _ _ => true
  | .pcRetrain _ _ => true
  | .pcRetrainDone _ _ _ => true
  | .boxOfficeRestart => true
  | .eventRecord _ => true
  | .logFlashWrite => true
  | .emcySend => true
  | .canHeartbeat => true
  | .busOff => true
  | .busOffRecovery => true
  | .sdoTimeout => true
  | .nmtStart => true
  | .enterPreOperational => true
  | .nmtStop => true
  | .resetCommunication => true
  | .resetNode => true
  | .usdoRead _ _ => true
  | .usdoWrite _ _ _ => true
  | .sqTail _ _ t => decide (t < 65536)
  | .cqHead _ _ h => decide (h < 65536)
  | .completionPost _ _ => true
  | .portReset _ _ => true
  | .ptmDialog _ _ => true
  | .tenCreate _ _ e => entryOp e = 0x01
  | .tenDestroy _ _ e => entryOp e = 0x02
  | .ringAssign _ _ e => entryOp e = 0x03
  | .ringRelease _ _ e => entryOp e = 0x04
  | .sliceSet _ _ e => entryOp e = 0x05
  | .switch _ _ e => entryOp e = 0x06
  | .winOpen _ _ e => entryOp e = 0x08
  | .winClose _ _ e => entryOp e = 0x09
  | .load _ _ e => entryOp e = 0x10
  | .run _ _ e => entryOp e = 0x11
  | .stop _ _ e => entryOp e = 0x12
  | .unload _ _ e => entryOp e = 0x13
  | .dmaWr _ _ e _ => entryOp e = 0x20
  | .dmaRd _ _ e => entryOp e = 0x21
  | .bindingComplete _ => true
  | .timeSliceQuantum _ => true
  | .clearDone _ => true
  | .mailboxRead _ _ _ _ => true
  | .mailboxWrite _ _ _ _ => true
  | .maRead _ _ n => decide (n ≤ 1024)
  | .maWrite _ _ d => decide (d.length ≤ 1024)
  | .storeAll _ _ => true
  | .restoreAll _ _ => true
  | .fwImage _ _ _ => true
  | .fwActivate _ => true
  | .fwDiscard _ => true
  | .level _ _ => true
  | .role _ _ _ => true
  | .revert _ _ => true
  | .arm _ _ => true
  | .rehearsalFire => true
  | .laneDropReturn => true
  | .moduleReset _ _ => true
  | .unpinTo _ _ => true
  | .alertClear _ _ => true
  | .retrain _ _ _ => true
  | .portEnable _ _ _ => true
  | .reservePerPly _ _ => true
  | .ringStateWrite _ _ _ => true
  | .sideshowHold _ _ => true
  | .sideshowHoldExpiry => true
  | .errStatus _ _ => true
  | .corrCount _ => true
  | .discardCount _ => true
  | .poisonCount _ => true
  | .crcErr _ _ => true
  | .nearChStatus _ _ => true
  | .mwCount _ => true
  | .poolStatus _ => true
  | .fenceCount _ => true
  | .evqLost _ => true
  | .poolFlushQueue _ _ => true
  | .poolFlushAll _ => true
  | .registerWrite _ _ => true
  | .mma _ _ v => verbOp v = 0x01
  | .mmaT _ _ v => verbOp v = 0x02
  | .mmaX _ _ v => verbOp v = 0x03
  | .sfu _ _ v => verbOp v = 0x08 && vbits v 91 6 ≠ 0x20
  | .rand _ _ v => verbOp v = 0x08 && vbits v 91 6 = 0x20
  | .red _ _ v => verbOp v = 0x09
  | .smax _ _ v => verbOp v = 0x0A
  | .castConvert _ _ v => verbOp v = 0x11 && vbits v 87 2 = 0
  | .castSlice _ _ v => verbOp v = 0x11 && vbits v 87 2 = 1
  | .castFinalize _ _ v => verbOp v = 0x11 && vbits v 87 2 = 2
  | .mov _ _ x => verbOp x.v = 0x10 && vbits x.v 108 1 = 0
  | .drop _ _ v => verbOp v = 0x10 && vbits v 108 1 = 1
  | .send _ _ x => verbOp x.v = 0x18
  | .recv _ _ x => verbOp x.v = 0x19
  | .steer _ _ v => verbOp v = 0x20 && vbits v 67 1 = 0
  | .steerClear _ _ v => verbOp v = 0x20 && vbits v 67 1 = 1
  | .ccount _ _ v => verbOp v = 0x28
  | .checkCsum _ _ v => verbOp v = 0x30 && vbits v 32 2 = 0
  | .checkCmp _ _ v => verbOp v = 0x30 && vbits v 32 2 = 1
  | .checkPoison _ _ v => verbOp v = 0x30 && vbits v 32 2 ≥ 2
  | .nop _ _ v => verbOp v = 0x3F
  | .dynamicVerbStart _ _ => true
  | .alu _ w => scalarOpc w = 0x00
  | .addi _ w => scalarOpc w = 0x01
  | .andi _ w => scalarOpc w = 0x02
  | .ori _ w => scalarOpc w = 0x03
  | .xori _ w => scalarOpc w = 0x04
  | .shli _ w => scalarOpc w = 0x05
  | .shri _ w => scalarOpc w = 0x06
  | .srai _ w => scalarOpc w = 0x07
  | .lui _ w => scalarOpc w = 0x08
  | .cmp _ w => scalarOpc w = 0x09
  | .plog _ w => scalarOpc w = 0x0A
  | .ld _ x => scalarOpc x.w = 0x10
  | .st _ x => scalarOpc x.w = 0x11
  | .narrowAccess _ _ => true
  | .br _ w => scalarOpc w = 0x18
  | .jal _ w => scalarOpc w = 0x19
  | .jr _ w => scalarOpc w = 0x1A
  | .scalarSend _ w => scalarOpc w = 0x20
  | .scalarRecv _ w => scalarOpc w = 0x21
  | .qlen _ w => scalarOpc w = 0x22
  | .issue _ w => scalarOpc w = 0x28
  | .sbwait _ w => scalarOpc w = 0x29
  | .rdreg _ w => scalarOpc w = 0x30
  | .rdtime _ w => scalarOpc w = 0x31
  | .trap _ w => scalarOpc w = 0x3E
  | .endCore _ w => scalarOpc w = 0x3F
  | .meshWord _ _ src w => WordIn.ok src w
  | .steerMatch _ _ => true
  | .packetRoute _ _ p _ => p.ok
  | .desc _ d => d.dtype = .desc && d.ok
  | .descDelivery _ _ => true
  | .wwrite _ d => d.dtype = .wwrite && d.ok
  | .wread _ d => d.dtype = .wread && d.ok
  | .fenceApply _ _ => true
  | .rdata _ d => d.dtype = .rdata && d.ok
  | .mcast _ d => d.dtype = .mcast && d.ok
  | .svc _ d => d.dtype = .svc && d.ok
  | .ack _ c => c.ctype = .ack
  | .nack _ c => c.ctype = .nack
  | .credit _ c => c.ctype = .credit
  | .probe _ c => c.ctype = .probe
  | .sendProbe _ _ => true
  | .abort _ c => c.ctype = .abort
  | .release _ c => c.ctype = .release
  | .requestResend _ _ => true
  | .dmaDescriptor _ d => d.dtype = .desc && d.ok
  | .dmaStart _ => true
  | .dmaCompletion _ => true
  | .collective _ d => d.dtype = .desc && d.ok
  | .collectiveBegin _ => true
  | .collectiveCompletion _ _ => true
  | .portTrain _ _ => true
  | .hello _ f => frameType f = 4
  | .helloResend _ => true
  | .aspData _ f => frameType f = 0
  | .aspCredit _ f => frameType f = 1
  | .aspAck _ f => frameType f = 2
  | .nak _ f => frameType f = 3
  | .collStart _ f => frameType f = 5
  | .collData _ f => frameType f = 6
  | .aspAbort _ f => frameType f = 7
  | .aspRetryTimeout _ => true
  | .linkDown _ => true
  | .psuOkAssert _ => true
  | .reservedVerb _ _ v => !verbCodes.contains (verbOp v)
  | .illegalInstruction _ w => !scalarCodes.contains (scalarOpc w)
  | .invalidCommand _ _ e => !entryCodes.contains (entryOp e)
  | .protoErrFrame _ _ => true
  | .frameCrcFailure _ => true

end Sys2Proof
end

