-- ==== Sys2Proof/Tests/Slice0.lean ====
section
/-! SUPPORT. Tests of the model: ill-formed commands are refused, the manual's worked examples come out as the manual
works them, and for each statement of `Obligations` with hypotheses one theorem `test_<name>` shows, clause by clause,
a concrete state and operands that meet all of them together. -/

namespace Sys2Proof.Tests
open Sys2Proof Sys2Proof.Machine

set_option Elab.async false

/-! ### Results of the model's own types, compared by a Bool -/

theorem ok_of {ε α : Type} [DecidableEq α] {r : Except ε α} {w : α}
    (h : (match r with | .ok x => decide (x = w) | .error _ => false) = true) : r = .ok w := by
  cases r <;> simp_all
theorem error_of {ε α : Type} [DecidableEq ε] {r : Except ε α} {w : ε}
    (h : (match r with | .error x => decide (x = w) | .ok _ => false) = true) : r = .error w := by
  cases r <;> simp_all
theorem sent_of {r : SendRes} {u : State} (h : (match r with | .sent x => decide (x = u) | _ => false) = true) :
    r = .sent u := by
  cases r <;> simp_all
theorem some_of {α β : Type} {o : Option (α × β)} {d : α × β} (h : o.isSome = true) : o = some ((o.getD d).1, (o.getD d).2) := by
  cases o <;> simp_all
theorem format_of {r : SendRes} (h : (match r with | .format => true | _ => false) = true) : r = .format := by
  cases r <;> simp_all
theorem done_of {r : VRes} {u : State} {ws : List (Nat × Wr)}
    (h : (match r with | .done x y => decide (x = u ∧ y = ws) | _ => false) = true) : r = .done u ws := by
  cases r <;> simp_all
theorem trap_of {r : VRes} {c : Nat} (h : (match r with | .trap d => decide (d = c) | _ => false) = true) : r = .trap c := by
  cases r <;> simp_all
theorem wait_of {r : VRes} {u : State} {ws : List (Nat × Wr)} {k : Nat} {w : WaitRec}
    (h : (match r with | .wait x y m z => decide (x = u ∧ y = ws ∧ m = k ∧ z = w) | _ => false) = true) : r = .wait u ws k w := by
  cases r <;> simp_all
theorem next_of {o : Host.Outcome State Fault Refusal} {u : State}
    (h : (match o with | .next x => decide (x = u) | _ => false) = true) : o = .next u := by
  cases o <;> simp_all

/-! ### States -/

/-- Powered, READY, nothing running. -/
def tOn : State :=
  { State.reset with
    pins := { psuOk := true, psuSeen := true, ready := .high }, box := { state := .ready }
    time := { uptime := 200000000000, beatStart := 200000000000 }, can := { nmt := .operational, onBus := true } }
/-- An entry of a command queue (R355). -/
def ent (ten : Nat) (ops : Nat) : BitVec 512 := BitVec.ofNat 512 (0x00070001 + ten * 2 ^ 32 + ops * 2 ^ 64)
/-- Host port 0, its Owner, with one command waiting in queue 0. -/
def tQ : State :=
  { tOn with hports := [(0, { role := .owner, queues := [(0, { enable := true, sqLog := 4, cqLog := 4, sqTail := 1 })] })] }
/-- A sentence of one clause on one ring. -/
def aSentence : Sentence :=
  { seamFloor := 75, beatLog2 := 15, rings := 1, trapeze := false, detColl := false, guard := false, spec := false
    mirror := false, bindings := [], bound := [3], farHome := [3]
    clauses := [{ rings := 1, next := 0xFFFF, loopTo := 0xFFFF, loopCount := 0, workBeats := 4, trapeze := false
                  guard := false, cfg := {} }] }
/-- A window of two granules in the near tier of the first ring. -/
def aWindow (a : Attr) : Window := { base := 0, granules := 2, attr := a, place := .near 0 }
/-- Tenancy 2 of port 0. -/
def tTen (x : Tenancy) : State := { tQ with tens := [(2, x)] }
/-- Tenancy 2, bound on ring 3 and running a beat. -/
def aRunning : Tenancy :=
  { st := .running, rings := [3], resident := true, nearLen := 1023, farLen := 262144, sentence := some aSentence
    windows := [aWindow .master], run := some { phase := .work, begun := true } }
/-- A word of fields (place, value). -/
def flds (n : Nat) (fs : List (Nat × Nat)) : BitVec n := BitVec.ofNat n (fs.foldl (fun w p => w + p.2 * 2 ^ p.1) 0)
/-- A verb at cc 100: its code and its other fields. -/
def vb (code : Nat) (fs : List (Nat × Nat)) : BitVec 128 := flds 128 ((0, code) :: (8, 100) :: fs)
/-- Site 0 runs a beat; a few bytes stand in its scratchpad and in near memory. -/
def tSite (t : Tile) : State :=
  { tOn with
    tiles := [(0, t)]
    mem := [(nearAddr 0 0 1024, 0x11), (nearAddr 0 0 1025, 0x22), (spmAddr 0 0, 0x12), (spmAddr 0 1, 0x34),
      (spmAddr 0 513, 0x56)] }
def aTile : Tile := { st := .running, bound := true, core := { ended := false } }
def tV : State := tSite aTile

/-! ### Ill-formed commands are refused: one term for each check of `Instr.wf` -/

def badData : DataMsg :=
  { dtype := .desc, btag := 0, src := 0, dst := 0, len := 1, seq := 0, ten := 0, rgen := 0, tgen := 0, ngen := 0, epoch := 0
    tspec := 0 }
def badCtl : CtlMsg := { ctype := .ack, src := 0, dst := 0, arg := 0 }
def badPkt : Packet := { route := List.replicate 41 0, head := .north, urg := false, det := false, dcnt := 0, age := 0, body := .ctl badCtl }

theorem test_ill_formed_verbs_are_refused :
    [Instr.mma 0 0 0, .mmaT 0 0 1, .mmaX 0 0 1, .sfu 0 0 0, .sfu 0 0 (flds 128 [(0, 8), (91, 0x20)]), .rand 0 0 (flds 128 [(91, 0x20)]),
     .rand 0 0 8, .red 0 0 8, .smax 0 0 9, .castConvert 0 0 0x10, .castConvert 0 0 (flds 128 [(0, 0x11), (87, 3)]),
     .castSlice 0 0 0x11, .castSlice 0 0 (flds 128 [(87, 1)]), .castFinalize 0 0 0x11, .castFinalize 0 0 (flds 128 [(87, 2)]),
     .mov 0 0 ⟨0x11, 0⟩, .mov 0 0 ⟨flds 128 [(0, 0x10), (108, 1)], 0⟩, .drop 0 0 0x10, .drop 0 0 (flds 128 [(108, 1)]), .send 0 0 ⟨0x19, 0⟩,
     .recv 0 0 ⟨0x18, 0⟩, .steer 0 0 0x21, .steer 0 0 (flds 128 [(0, 0x20), (67, 1)]), .steerClear 0 0 0x20,
     .steerClear 0 0 (flds 128 [(67, 1)]), .ccount 0 0 0x20, .checkCsum 0 0 0x28, .checkCsum 0 0 (flds 128 [(0, 0x30), (32, 1)]),
     .checkCmp 0 0 0x30, .checkCmp 0 0 (flds 128 [(32, 1)]), .checkPoison 0 0 0x30, .checkPoison 0 0 (flds 128 [(32, 2)]),
     .nop 0 0 0x30, .reservedVerb 0 0 0x3F].all (fun i => !i.wf) = true := by decide +kernel

theorem test_ill_formed_scalars_are_refused :
    [Instr.alu 0 (flds 32 [(22, 1)]), .addi 0 0, .andi 0 0, .ori 0 0, .xori 0 0, .shli 0 0, .shri 0 0, .srai 0 0, .lui 0 0,
     .cmp 0 0, .plog 0 0, .ld 0 ⟨0, 0⟩, .st 0 ⟨0, 0⟩, .br 0 0, .jal 0 0, .jr 0 0, .scalarSend 0 0, .scalarRecv 0 0, .qlen 0 0, .issue 0 0,
     .sbwait 0 0, .rdreg 0 0, .rdtime 0 0, .trap 0 0, .endCore 0 0, .illegalInstruction 0 0].all (fun i => !i.wf) = true := by
  decide +kernel

theorem test_ill_formed_messages_are_refused :
    [Instr.meshWord 0 0 (.dma 0) (.sent 0 0 [] 0 none), .meshWord 0 0 (.tile 0 0 0) (.whole { bytes := List.replicate 64 0, par := 0, psn := 0, vb := 0, eop := false, btag := 0, epoch := 0 }),
     .meshWord 0 0 (.dma 0) (.whole { bytes := [1], par := 0, psn := 0, vb := 0, eop := false, btag := 0, epoch := 0 }),
     .packetRoute 0 .loc badPkt [], .packetRoute 0 .loc { badPkt with route := [], dcnt := 256 } [],
     .packetRoute 0 .loc { badPkt with route := [], age := 4096 } [], .packetRoute 0 .loc { badPkt with route := [], body := .data badData } [],
     .desc 0 { badData with dtype := .svc, len := 0 }, .desc 0 badData, .desc 0 { badData with len := 0, psn := [1] },
     .wwrite 0 { badData with len := 0 }, .wread 0 { badData with dtype := .wread, payload := [1] },
     .wread 0 { badData with dtype := .wread, len := 1025 }, .rdata 0 { badData with len := 0 }, .mcast 0 { badData with len := 0 },
     .svc 0 { badData with len := 0 }, .dmaDescriptor 0 badData, .collective 0 badData, .ack 0 { badCtl with ctype := .nack },
     .nack 0 badCtl, .credit 0 badCtl, .probe 0 badCtl, .abort 0 badCtl, .release 0 badCtl, .heartbeat 0 badCtl].all
      (fun i => !i.wf) = true := by decide +kernel

theorem test_ill_formed_host_commands_are_refused :
    [Instr.tenCreate 0 0 0, .tenDestroy 0 0 0, .ringAssign 0 0 0, .ringRelease 0 0 0, .sliceSet 0 0 0, .switch 0 0 0, .winOpen 0 0 0,
     .winClose 0 0 0, .load 0 0 0, .run 0 0 0, .stop 0 0 0, .unload 0 0 0, .dmaWr 0 0 0 [], .dmaRd 0 0 0, .invalidCommand 0 0 0x21,
     .hello 0 { hdr := 0 }, .aspData 0 { hdr := 1 }, .aspCredit 0 { hdr := 0 }, .aspAck 0 { hdr := 0 }, .nak 0 { hdr := 0 },
     .collStart 0 { hdr := 0 }, .collData 0 { hdr := 0 }, .aspAbort 0 { hdr := 0 }, .sqTail 0 0 65536, .cqHead 0 0 65536,
     .maRead 0 0 1025, .maWrite 0 0 (List.replicate 1025 0)].all (fun i => !i.wf) = true := by decide +kernel

/-! ### The manual's worked examples -/

/-- Chapter 3, the diagnostic read: near channel 5 of field 37 of ply 2, offset 0x1000, ring 36. -/
theorem test_example_near_address :
    nearAddr (2 * 96 + 37) 5 0x1000 = 0x0800000000000000 + 0x0128000000000000 + 0x0001400000000000 + 0x1000 ∧
    fieldRing (2 * 96 + 37) = 36 := by decide +kernel

/-- Chapter 3, the event source: ply 3, field 58. -/
theorem test_example_event_source :
    fieldRing (3 * 96 + 58) = 59 ∧ ringCentre 59 = 3 * 96 + 70 ∧ ringStack 59 0 = 3 * 32 + 19 ∧
    fieldX (3 * 96 + 58) = 22 ∧ fieldY (3 * 96 + 58) = 12 ∧ isEdge (3 * 96 + 58) = false := by decide +kernel

/-- Sum of the products of two operand lists in BF16, at the anchor that R83 gives it. -/
def bfDot (a b : List Nat) : Acc :=
  let ps := (a.zip b).map fun p => (opnd 8 false p.1 0, opnd 8 false p.2 0)
  sumPairs { anchor := anchorOf (tOf 8) (tOf 8) ps } ps

/-- Chapter 4: 2^15, 3, −2^15, 1.25 by 2^15, 1, 2^15, 1 has anchor 31 and gives 4.25 in any order. -/
theorem test_example_exact_dot :
    (bfDot [0x4700, 0x4040, 0xC700, 0x3FA0] [0x4700, 0x3F80, 0x4700, 0x3F80]).anchor = 31 ∧
    (bfDot [0x4700, 0x4040, 0xC700, 0x3FA0] [0x4700, 0x3F80, 0x4700, 0x3F80]).w = 17 * 2 ^ 117 ∧
    accOut 8 false (bfDot [0x4700, 0x4040, 0xC700, 0x3FA0] [0x4700, 0x3F80, 0x4700, 0x3F80]) = 0x4088 ∧
    accOut 8 false (bfDot [0x4700, 0xC700, 0x4040, 0x3FA0] [0x4700, 0x4700, 0x3F80, 0x3F80]) = 0x4088 := by decide +kernel

/-- Chapter 4: 2^100, 2^15, −2^100 by 2^100, 2^15, 2^100 loses 2^30 and outputs +0. -/
theorem test_example_truncated_dot :
    (bfDot [0x7180, 0x4700, 0xF180] [0x7180, 0x4700, 0x7180]).anchor = 201 ∧
    (bfDot [0x7180, 0x4700, 0xF180] [0x7180, 0x4700, 0x7180]).trunc = true ∧
    accOut 8 false (bfDot [0x7180, 0x4700, 0xF180] [0x7180, 0x4700, 0x7180]) = 0 := by decide +kernel

/-- Chapter 5: the MMA stamped at 2,000 with both operands MXFP8 and K = 1,024. -/
def exMma : BitVec 128 := flds 128 [(0, 1), (8, 2000), (84, 32), (95, 3), (99, 3), (103, 8), (107, 1), (108, 1), (109, 1)]
theorem test_example_mma_timing : mmaQ false exMma = 32 ∧ mmaP exMma = 1024 ∧ drainCc (eOut exMma) (eCk exMma) = 64 := by
  decide +kernel

/-- Chapter 7: 1,200 E4M3 elements occupy three rows. -/
theorem test_example_count_rows : rowsOf 1200 8 = 3 := by decide +kernel

/-- Chapter 8: the receive ring of 128 units whose write pointer stands at 120 and whose oldest unit is 40. -/
def exRing : RecvCh := { seg := 20, size := 0, wp := 120, rp := 40, used := 80 }
theorem test_example_ring_places :
    ringBase exRing = 0x140000 ∧ ringUnits exRing = 128 ∧
    (ringPlace exRing 1000).map (fun p => (p.1, p.2.1, p.2.2.wp)) = some (0, some 120, 16) ∧
    ((ringPlace exRing 1000).bind fun p => (ringPlace p.2.2 1024).map fun q => (q.1, q.2.1, q.2.2.wp)) = some (16, none, 32) ∧
    ((ringPlace exRing 1000).bind fun p => (ringPlace p.2.2 1024).bind fun q => ringPlace q.2.2 1024) = none := by decide +kernel

/-- Chapter 5: site 47 is dead. A Trapeze clause shifts rows 4 and 5; a clause without it shifts row 5 only. -/
def exDead (tr : Bool) : State :=
  let s := { tOn with fields := [(0, { sites := [(47, { st := .retired })] })] }
  { s with fields := [(0, { fieldOf s 0 with shift := rowShifts s 0 tr })] }
theorem test_example_trapeze_shift :
    ([34, 39, 42, 47].map (siteOf (exDead true) 0)) = [39, 44, 48, 53] ∧ ((List.range 64).all fun v => siteOf (exDead true) 0 v ≠ 38) ∧
    ([34, 42].map (siteOf (exDead false) 0)) = [38, 48] := by decide +kernel

/-- Chapter 3: index 1 = 0x1234 of a phrase with scale 0x2C; its codebook entry is 38 B0 44 00. -/
def exPhrase : Source := { w := 0x1234 * 2 ^ 14 + 0x2C * 2 ^ 224, len := 29, psn := [] }
def exBook : Source := { w := 0x0044B038 * 2 ^ (32 * 0x1234), len := 65536, psn := [] }
theorem test_example_phrase :
    ((((lxCodes exBook exPhrase).drop 4).take 4).map fun c => encFloat fp32 false (opnd 0xC true c.1.1 c.1.2).v) =
      [0x3EC00000, 0xBE400000, 0x3F900000, 0] := by decide +kernel

/-- Chapter 6: a packet of 1,000 bytes fills one row of 512 and one of 488 valid bytes. -/
def exWord (last : Bool) : MeshWord :=
  { bytes := List.replicate 64 7, par := 0xFF, psn := 0, vb := if last then 40 else 0, eop := last, btag := 0, epoch := 0 }
theorem test_example_stream_rows :
    ((List.replicate 15 (exWord false) ++ [exWord true]).foldl
      (fun b w => b.bind fun x => storeWord x false false false (.stream 0) w) (some ({} : InBuf))).map
      (fun x => x.live.rows.map fun r => r.count) = some [512, 488] := by decide +kernel

/-- Chapter 9: the farthest pair of ring controllers stands at (1, 1) and (22, 15). -/
theorem test_example_farthest_pair : fieldX (ringCentre 0) = 1 ∧ fieldY (ringCentre 0) = 1 ∧ fieldX (ringCentre 63) = 22 ∧
    fieldY (ringCentre 63) = 15 := by decide +kernel

/-! ### Witness states of the statements -/

def tThr : State := { tOn with pins := { tOn.pins with throttle := true }, pwr := { throttleDemand := true } }
def tChat : State := { tOn with pwr := { chatter := true, lastEdge := 100 } }
def tRel : State := { tOn with pwr := { throttleDemand := true, quietSince := some 5 } }
def tGuard : State := { tOn with pwr := { guardMhz := some 900, guardQuietSince := some 5 } }
def tCap : State := { tOn with pwr := { samples := [200000000, 200000000, 200000000, 200000000] } }
def tOver : State := { tOn with pwr := { overCount := 40 } }
def tBreach : State := { tOn with pwr := { breach := true, quietSince := some 5, clockSteps := 3 } }
def tS1_1 : State := { tOn with pwr := { thermal := true, thermalCoolSince := some 5 } }
def tS1_2 : State := { tOn with rings := [(0, { supply := 2 })] }
def tDark : State := { tOn with pins := {} }
def tInRst : State := { tOn with pins := { psuOk := true, psuSeen := true, modReset := true }, box := { state := .inReset } }
def tS2_1 : State := { tDark with pins := { modReset := true } }
def tS2_2 : State := { tInRst with pins := { psuSeen := true, modReset := true } }
def tS2_3 : State := { tInRst with pins := { psuSeen := true }, box := { state := .waitPsu } }
def tS2_4 : State := { tInRst with pins := { psuSeen := true }, box := { state := .waitPsu } }
def tS2_5 : State := { tInRst with pins := { psuSeen := true, modReset := true }, box := { state := .inReset } }
def tS2_6 : State := { tOn with box := { state := .computeReset, resetStart := some 5, resetFails := [190000000000] } }
def tS2_7 : State := { tOn with box := { state := .ready, partFails := [1, 195000000000], resetFails := [3] } }
def tDk : State := { tOn with rings := [(0, { supply := 2 })] }
def tSp : State := { tOn with fields := [(0, { nearCh := [(3, { lanes := [(4, 2)] })] })] }
def tDue : State := { tOn with fields := [(0, { nearCh := [(3, { slots := 1, rowDue := [63 * 16384 + 16383] })] })] }
def tS2_8 : State := { tOn with farStacks := [(0, { written := [0] })] }
def tS2_9 : State := { tOn with farStacks := [(0, { retraining := [31] })] }
def tS2_10 : State := { tOn with farStacks := [(0, { retraining := [31] })] }
def tTile : State := { tOn with tiles := [(0, { st := .idle, corr := 7, discards := 8, poisonCnt := 9 })] }
def tS2_11 : State := { tOn with tiles := [(0, { st := .running })] }
def tS2_12 : State := { tOn with fields := [(0, { crcErr := [(1, 5)] })] }
def tS2_13 : State := { tOn with fields := [(0, { nearCh := [(1, { corr := 7, uncorr := 3 })] })] }
def tS3_1 : State := { tOn with hbLost := 0x20 }
def tS3_2 : State := { tOn with rings := [(5, { st := .resetting, partStart := some 3 })], hbLost := 0x20, hbMissed := 0x20 }
def tS3_3 : State := { tOn with rings := [(5, { st := .resetting, partStart := some 3 })] }
def tSusp : State := { tOn with time := { poweredS := 720 * 3600 + 2 }, fields := [(0, { sites := [(0, { st := .suspect, lastFail := some 1 })] })], rings := [(0, { item := .suspect, itemFail := some 1 })] }
def tReh : State := { tOn with box := { tOn.box with reh := { enable := true, kind := 2, target := 0, status := 1 } } }
def tRunn : State := { tOn with
   tens := [(0, { st := .running, rings := [0], resident := true, farBase := 0, farLen := 8
                  sentence := some { seamFloor := 0, beatLog2 := 15, rings := 1, trapeze := false, detColl := false, guard := false, spec := false, mirror := false, clauses := [{ rings := 1, next := 255, loopTo := 255, loopCount := 0, workBeats := 4, trapeze := false, guard := false, cfg := {} }], bindings := [], bound := [0], farHome := [0] }
                  run := some { phase := .work } })] }
def tRehR : State := { tRunn with box := tReh.box }
def tRehD : State := { tRunn with box := { tOn.box with reh := { kind := 3, status := 2 } } }
def tS3_4 : State := { tOn with box := { tOn.box with reh := { lane := some (5, 0, 0, false) } } }
def tEv : State := { tOn with plies := [(1, { staging := [{ uptime := 1, cls := 4, code := 0x0906 }] })], box := { state := .ready, staging := [{ uptime := 1, cls := 3, code := 0x0906 }], toFlash := [{ uptime := 2, cls := 5, code := 0x0801 }] }, can := { nmt := .operational, onBus := true, emcyQ := [{ uptime := 1, cls := 4, code := 0x0906 }], segmented := true } }
def tQh : State := { tOn with hports := [(0, { role := .owner, queues := [(0, { enable := true, sqLog := 4, cqLog := 4, sqTail := 1, held := [⟨3, 0, 0, 0⟩] })] })] }
def tQl : State := { tOn with hports := [(0, { role := .owner, evqLost := 9 })] }
def tT1 : State := tTen { st := .created }
def tT2 : State := tTen { st := .running, run := some {} , rings := [3], resident := true }
def tT3 : State := tTen { st := .ready, rings := [3, 5] }
def tGrp : State := { tQ with tens := [(2, { st := .running, rings := [3], group := some 1, resident := true, quantum := 5, sinceIn := 5, sentence := some aSentence, run := some {} }), (4, { st := .ready, rings := [3], group := some 1, sentence := some aSentence })] }
def tRls : State := tTen { st := .clearing, rings := [3, 5], releasing := [3] }
def tT4 : State := tTen { st := .ready, rings := [3, 5], loading := some (aSentence, [aWindow .input]), binding := some ⟨0, 0, 7, 0⟩ }
def tT4b : State := { tT4 with plies := [(0, { busy := some (3, 1) })], box := { tT4.box with lead := some 0 } }
def tT5 : State := tTen { st := .ready, rings := [3], nearLen := 1023, farLen := 262144 }
def tT6 : State := tTen { st := .ready, rings := [3], nearLen := 1023, farLen := 262144, windows := [aWindow .input], sentence := some aSentence }
def tT7 : State := tTen aRunning
def dmaE (len : Nat) : BitVec 512 := ent 2 (64 + 4096 * 2 ^ 64 + len * 2 ^ 128)
def tT6o : State := tTen { st := .ready, rings := [3], nearLen := 1023, farLen := 262144, windows := [aWindow .output] }
def tT6m : State := { tT6o with mem := [(nearAddr (ringField 3 0) 0 64, 7), (nearAddr (ringField 3 0) 0 65, 9)] }
def tHb : State := { tOn with box := { tOn.box with set := { heartbeatMs := 500 } } }
def tHold : State := { tOn with time := { uptime := 3600000000005 }, box := { state := .ready, sideHold := true, sideHoldAt := 5, heldFrom := some 7 } }
def tHold2 : State := { tOn with time := { uptime := 3600000000004 }, box := { state := .ready, sideHold := true, sideHoldAt := 5, heldFrom := some 7 } }
def tLv : State := { tOn with hports := [(0, { role := .owner, path := { level := 0x201 } })] }
def tLc : State := { tOn with can := { tOn.can with path := { level := 0x201 } } }
def tFw : State := { tLv with box := { state := .ready, fwStatus := 1, fwOwner := some (.host 0), fwBytes := [1] } }
def tFw2 : State := { tLv with box := { state := .ready, fwStatus := 2, fwBytes := [1], fwRunning := [5] } }
def tLog : State := { tLv with box := { state := .ready, log := [(0, ⟨{ uptime := 1, cls := 4, code := 0x906, seq := 5 }, true⟩), (1, ⟨{ uptime := 1, cls := 4, code := 0x906, seq := 6 }, true⟩)], fieldMap := [mapEntry 0 4 0 0 0 1 5 0 0 0], factory := [0] } }
def tArm : State := { tLv with box := { state := .ready, reh := { enable := true, kind := 1, target := 3 } }, rings := [(3, { st := .assigned }), (4, { st := .reserve })], tens := [(2, { aRunning with })] }
def tDis : State := { tLv with sports := [(31, { st := .disabled, enable := false })] }
def tUp : State := { tLv with sports := [(31, { st := .up, width := 8 })] }
def tMem : State := { tLv with mem := [(nearAddr 0 0 64, 7), (nearAddr 0 0 65, 9)] }
def tMemD : State := { tMem with rings := [(0, { supply := 1 })] }
def dMsg (t : Sys2Proof.DType) : DataMsg := { dtype := t, btag := 0, src := epAddr 0 77, dst := epAddr 0 0, len := 8, seq := 0, ten := 2, rgen := 0, tgen := 0, ngen := 0, epoch := 0, tspec := 0, payload := if t = .wread then [] else [1, 2, 3, 4, 5, 6, 7, 8] }
def tPool : State := { tOn with rings := [(0, { queues := [(1, [dMsg .svc]), (2, [dMsg .svc])], commitQ := [⟨dMsg .wwrite, 1, false⟩], ejected := [(384, dMsg .desc)], refused := 5, cntClosed := 1, cntRefused := 2, cntStale := 3, cntEpoch := 4 })], fields := [(0, { deflect := 1, dropDcnt := 2, dropAge := 3, dropFmt := 4, crcRetry := 5 })], farStacks := [(0, { queue := [{ desc := 0, msg := dMsg .desc, beat := 0 }] })] }
def tPoolDark : State := { tPool with rings := [(0, { supply := 1 })] }
def tRun : State := tTen aRunning
def tTick : State := { tOn with time := { uptime := 200000000000, beatLog2Next := some 16 }, pwr := { capWNext := some 50000, fixedFreqNext := some false }, hbSeen := 5 }
def tCr : State := { tOn with box := { state := .computeReset, pwrPending := true } }
def tHeld : State := { tOn with box := { state := .held } }
def tPend : State := tTen { aRunning with run := some { phase := .work, begun := true, pendingBeat := some 4, sentBeat := 5 } }
def tGr : State := tTen { aRunning with run := some { phase := .grace, begun := true } }
def tFail : State := tTen { aRunning with run := some { phase := .work, begun := true, fails := [mechCsum], sentBeat := 5, workBeat := 2, history := [⟨5, 0, 2, []⟩] } }
def gc : GuardCopy := { beat := 4, ranges := [(1000, 4)], cells := [(1001, 7)], psn := [] }
def tGc : State := { (tTen { aRunning with run := some { phase := .work, begun := true, copies := [gc] } }) with mem := [(5, 1), (1000, 3), (1005, 2)] }
def tGcw : State := { tGc with tens := [(2, { tenOf tGc 2 with windows := [{ base := 0, granules := 1, attr := .guarded, place := .far 0 }] })], farStacks := [(3, { retraining := [4] })] }
def tSt : State := tTen { aRunning with run := some { phase := .load, begun := true, staged := false, stageAt := some 5 } }
def tHo : State := tTen { aRunning with run := some { phase := .hold 5, begun := true } }
def tHg : State := { (tTen { aRunning with sentence := some aSentence, run := some { phase := .hang 0, begun := true } }) with time := { uptime := 200000000000, cc := 12288 }, tiles := [(ringField 3 0 * 72, { st := .running, bound := true, vring := 0, waits := [{ vtile := 0, vfield := 0, vring := 0, unit := 1, kind := 1, ext := true }] })] }
def rFull : Run := { phase := .work, begun := true, copies := [{ beat := 4, cells := [], psn := [], blocks := (List.range 129).map fun k => (4096 * k, 2 ^ 60 + 4096 * k) }] }
def tFull2 : State := tTen { aRunning with sentence := some { aSentence with guard := true, clauses := aSentence.clauses.map fun c => { c with guard := true } }, run := some rFull }
def tM : State :=
  { tOn with
    tens := [(2, { aRunning with
      rings := [0], sentence := some { aSentence with bound := [0], farHome := [0], mirror := true }
      run := some { phase := .work, begun := true, level := 4 } })]
    tiles := [(0, { aTile with mirror := true, role := 1 }), (9, { aTile with mirror := true, role := 2 })] }
def tM1 : State := atStamp tM 0 (vb 0x3F [])
def tV1 : State := atStamp tV 0 (vb 0x3F [])
def rxV : BitVec 128 := vb 0x19 [(32, 4), (37, 2)]
/-- What a verb's effect leaves, and the wait it ends in. -/
def effD (r : VRes) : State × List (Nat × Wr) := match r with | .done u ws => (u, ws) | .wait u ws _ _ => (u, ws) | _ => (tOn, [])
def effW (r : VRes) : Nat × WaitRec := match r with | .wait _ _ m w => (m, w) | _ => (0, waitRecv {} 0 0 0)
/-- The mirror pair with receive queues and send channels of its halves. -/
def tMr (a b : List (BitVec 256)) (c d : SendCh) : State :=
  { tM with tiles := [(0, { aTile with mirror := true, role := 1, recvCh := [(4, { queue := a })], sendCh := [(3, c)] }),
                      (9, { aTile with mirror := true, role := 2, recvCh := [(4, { queue := b })], sendCh := [(3, d)] })] }
def mrI (a b : List (BitVec 256)) : VRes := recvEff (atStamp (tMr a b {} {}) 0 rxV 7) 0 rxV 107
def mrJ (a b : List (BitVec 256)) : VRes := recvEff (effD (mrI a b)).1 9 rxV 107
def txV : BitVec 128 := vb 0x18 [(32, 3), (37, 2), (50, 1)]
def txC (n : Nat) : SendCh := { dstVtile := 1, dstVfield := 0, dstVring := 0, dstCh := 4, valid := true, credits := n }
def txF : SendCh := { dstVfield := 6, valid := true }
def mxI (n : Nat) : VRes := sendEff (atStamp (tMr [] [] (txC n) txF) 0 txV 7) 0 txV 107
def tCar : State := tSite { aTile with carryBase := 16, carryRows := 2, recvCh := [(4, { queue := [77] })] }
def rxC : BitVec 128 := vb 0x19 [(32, 4), (37, 18)]
def tCarE : State × List (Nat × Wr) := match recvEff (atStamp tCar 0 rxC 7) 0 rxC 107 with | .done u ws => (u, ws) | _ => (tCar, [])
def tIss : State := tSite { aTile with core := { ended := false, g := [(2, 0xFF)] } }
def mmaV (o : Nat) : BitVec 128 := vb 1 [(32, 0), (45, 4), (58, 20), (84, 1), (95, 6), (99, 6), (103, 0xD), (112, o)]
def r1 (tr : Bool) (v : BitVec 128) : State × List RowRd := (opRows (atStamp tV 0 v) 0 (eSrcB v) (eBRow v) (actCc tV 0 v) (panelB v) (rowsB v) (mmaP v) (mmaQ tr v) 1).getD (tV, [])
def r2 (tr : Bool) (v : BitVec 128) : State × List RowRd :=
  (opRows (setDrain (r1 tr v).1 0 (actCc tV 0 v + 5 + mmaQ tr v + mmaP v) (drainCc (eOut v) (eCk v))) 0 (eSrcA v) (eARow v) (actCc tV 0 v)
    (panelA tr v) (rowsA tr v) (mmaP v) (mmaQ tr v) 0).getD (tV, [])
def mmaXV : BitVec 128 := vb 3 [(32, 0), (45, 4), (58, 20), (71, 12), (84, 1), (95, 2), (103, 0xA)]
def tCatch : State := tSite { aTile with role := 2 }
def sfuV (fn : Nat) (src : Nat) : BitVec 128 := vb 8 [(32, 0), (45, 8), (58, 20), (71, 100), (91, fn), (97, if fn = 0x20 then 0xD else 0xA), (101, 8), (113, src)]
def sfuR (v : BitVec 128) : State × List RowRd := (srcRows (atStamp tV 0 v) 0 (sSrc v) (fld v 32 13) (stampOf v) (readUse 0 (rowsOf (sN v) (fbits (sFi v))) (sfuInfo v).occ) (rowsOf (sN v) (fbits (sFi v)))).getD (tV, [])
def redV : BitVec 128 := vb 9 [(32, 0), (45, 2), (58, 20), (71, 0xA), (95, 0xA)]
def redP : BitVec 128 := vb 9 [(32, 0), (45, 2), (58, 20), (75, 1)]
def smaxV : BitVec 128 := vb 0xA [(32, 0), (45, 20), (58, 40), (74, 2), (90, 0xA), (94, 8)]
def castV (m fi fo : Nat) : BitVec 128 := vb 0x11 [(32, 0), (45, 20), (58, 100), (78, fi), (82, fo), (87, m), (89, 60)]
def castS : BitVec 128 := vb 0x11 [(32, 0), (45, 20), (58, 2048), (78, 0xA), (82, 2), (87, 1), (89, 60)]
def stV (c : Nat) : BitVec 128 := vb 0x20 [(32, 3), (36, 1), (38, 2), (41, 5), (54, 6), (67, c)]
def tRl : State := tSite { aTile with rules := [(3, ⟨0, 1, false, 0, 1, 0, 9⟩), (4, ⟨0, 1, false, 0, 1, 0, 9⟩)] }
def mvV (sk dk : Nat) (fs : List (Nat × Nat)) : BitVec 128 := vb 0x10 ([(32, sk), (35, dk), (38, 1), (40, 2), (42, 0), (55, 1), (68, 3)] ++ fs)
def tIn : State := tSite { aTile with inb := [(1, { live := { rows := [{ bytes := [1, 2], count := 512 }, { bytes := [3, 4], count := 512 }, { bytes := [5], count := 64, endsPkt := true }] } })] }
def tIn1 : State × List RowRd := (takeRows (atStamp tIn 0 (mvV 1 0 [])) 0 1 3).getD (tIn, [])
def tOut : State := tSite { aTile with outb := [(2, { rows := [{ bytes := [1], count := 512, eop := true }], dest := some (.mesh .north) })] }
def tOutT : State := tSite { tileOf tOut 0 with matchBuf := [{ rule := 0, seq := 0, token := some (2 * 2 ^ 16), left := 1 }] }
def tOutF : State := tSite { aTile with outb := [(2, { rows := List.replicate 62 { bytes := [1], count := 512, eop := true }, dest := some (.mesh .north) })] }
def nmV (sk dk off : Nat) : BitVec 128 := vb 0x10 [(32, sk), (35, dk), (42, 0), (55, 1), (68, 1), (81, 7), (86, off)]
def meOf (v : BitVec 128) : NearXfer := { site := 0, slot := 5, ch := vCh v, cc := stampOf v, rows := vRows v, off := vOff v, write := vDk v = 2, dst := fld v 55 13 }
def tNe : State := { tV with tens := [(2, { aRunning with rings := [0], sentence := some { aSentence with bound := [0], farHome := [0] }})] }
def nmR : BitVec 128 := flds 128 [(0, 0x10), (8, 7 * 32), (32, 2), (35, 0), (42, 0), (55, 1), (68, 3), (81, 7), (86, 0)]
def tNe2 : State := { tNe with fields := [(0, { xfers := [{ site := 1, slot := 0, ch := 7, cc := 100, rows := 1, off := 8192, write := false }] })] }
def tSd : State := { (tSite { aTile with sendCh := [(3, { dstVtile := 1, dstVfield := 0, dstVring := 0, dstCh := 4, valid := true, credits := 2, seq := 5, sent := 6 })], recvCh := [(4, { queue := [77, 78], recvd := 3 })] }) with tens := tNe.tens }
def sdV : BitVec 128 := vb 0x18 [(32, 3), (37, 2), (50, 1)]
def sdQ : State × List RowRd := readRows (atStamp tSd 0 sdV) 0 2 107 1 1
def sdD : Nat := seqAt (rowsNat sdQ.2) 256 1
def cSent : State := match chanSend sdQ.1 0 3 sdD with | .sent u => u | _ => tSd
def rcV : BitVec 128 := vb 0x19 [(32, 4), (37, 2), (50, 15)]
def ccV : BitVec 128 := vb 0x28 [(32, 0), (45, 300), (65, 6), (69, 1), (72, 0), (104, 9), (117, 63), (123, 0)]
def ccR : State × List RowRd := (srcRows (atStamp tV 0 ccV) 0 (cc131Src ccV) (fld ccV 32 13) (actCc tV 0 ccV) ⟨0, rowsOf (cc131N ccV) (fbits (cc131Type ccV)), 1, 1, 0⟩ (rowsOf (cc131N ccV) (fbits (cc131Type ccV)))).getD (tV, [])
def ckV (m : Nat) : BitVec 128 := vb 0x30 [(32, m), (34, 0), (47, 4), (60, 2)]
def tCk : State := { tNe with tiles := [(0, { aTile with spm := { unsummed := [2] } })] }
def tDy : State := tSite { aTile with dynQ := [{ verb := vb 0x30 [(32, 2), (34, 0), (60, 2)], tag := 3, writes := [], reads := [(0, 2)] }] }
def dyD : DynVerb := { verb := vb 0x30 [(32, 2), (34, 0), (60, 2)], tag := 3, writes := [], reads := [(0, 2)] }
def dyX : VInfo := verbInfo dyD.verb
def tDyU (s : State) : State := pruneAt s 0 50
def tDyT : DynPlan := (dynTimes verbInfo (tDyU tDy) 0 dyX 50).getD { occ := 0, done := 0, late := 0, ports := [] }
def tDyV : State := setShift (tDyU tDy) 0 tDyT.shift
def tDyP : State × List (Nat × Wr) := match verbEff tDyV 0 dyD.verb 50 with | .done u ws => (u, ws) | _ => (tDy, [])
def tDy2 : State := tSite { aTile with eng := { memTo := 60 }, dynQ := [dyD] }
def tDy2T : DynPlan := (dynTimes verbInfo (tDyU tDy2) 0 dyX 50).getD { occ := 0, done := 0, late := 0, ports := [] }
def dyS : DynVerb := { verb := vb 0x18 [(32, 3), (37, 2), (50, 1)], tag := 3, writes := [], reads := [] }
def dyR : DynVerb := { verb := vb 0x19 [(32, 4), (37, 2)], tag := 3, writes := [], reads := [] }
def tDyE (d : DynVerb) : State := tSite { aTile with dynQ := [d], sendCh := [(3, txF)] }
def dyPl (d : DynVerb) : DynPlan := (dynTimes verbInfo (tDyU (tDyE d)) 0 (verbInfo d.verb) 50).getD { occ := 0, done := 0, late := 0, ports := [] }
def tDyW (d : DynVerb) : State := setShift (tDyU (tDyE d)) 0 (dyPl d).shift
def dyN : DynVerb := { verb := nmV 2 0 4096, tag := 3, writes := [(1, 1)], reads := [] }
def tDy3 : State := { (tSite { aTile with dynQ := [dyN] }) with fields := [(0, { claims := (List.range 8).map fun k => 7 * 2 ^ 14 + 50 + 64 * k })] }
/-- A scalar instruction: its code and its other fields, unguarded. -/
def sw (op : Nat) (fs : List (Nat × Nat)) : BitVec 32 := flds 32 ((22, op) :: fs)
def tSc : State := tSite { aTile with core := { ended := false, pc := 16383, g := [(1, 7), (2, 5), (3, 0xFFFFFFFFFFFFFFF0), (4, 0x30)] } }
def tLd (g : Nat) : State := tSite { aTile with core := { ended := false, g := [(1, BitVec.ofNat 64 g), (2, 0xABCD)] }, sb := [(0, { first := 9, last := 9, tag := 3 })], carryBase := 16, carryRows := 2, dynQ := [{ verb := 0, tag := 3, writes := [], reads := [(10, 1)] }] }
def oldOf : OldRow := { row := 0, w := 20, bytes := List.replicate 512 7, psn := [3] }
def tLdO : State := tSite { tileOf (tLd 3) 0 with oldRows := [oldOf] }
def tCh : State := { tSd with tiles := [(0, { (tileOf tSd 0) with core := { ended := false, g := [(0, 5), (1, 7), (2, 9), (4, 0x30)] } })] }
def tSb : State := tLd 0
def scW : BitVec 32 := sw 0x20 [(17, 28), (12, 3)]
def scSent : State := match chanSend tCh 0 3 (packN 64 ((List.range 4).map fun k => (gReg (tileOf tCh 0) (28 + k)).toNat)) with | .sent u => u | _ => tCh
def tInv : State := { tCh with tiles := [(0, { (tileOf tCh 0) with core := { ended := false, g := [(28, 0xFFFFFFFFFFFFFFFF), (31, 0xFFFFFFFFFFFFFFFF)] } })] }
def tIs : State := tSite { aTile with core := { ended := false, g := [(2, vb 0x09 [(32, 0), (45, 2), (58, 20), (71, 0xA), (95, 0xA)] |>.setWidth 64), (3, (vb 0x09 [(32, 0), (45, 2), (58, 20), (71, 0xA), (95, 0xA)] >>> 64).setWidth 64)] } }
def isV : BitVec 128 := BitVec.ofNat 128 ((gReg (tileOf tIs 0) 2).toNat + (gReg (tileOf tIs 0) 3).toNat * 2 ^ 64)
def tPc : State := tSite { aTile with core := { ended := false, pc := 16384 } }
def gNo : BitVec 32 := sw 0 [(31, 1)]
def tBp : State := tSite { aTile with core := { ended := false, pc := 5 }, badParity := [65541] }
def tWb : State := tSite { aTile with spm := { writeback := some 0 } }
def tMd : State := tSite { aTile with spm := { maDue := 2 } }
def tFn : State := tSite { aTile with st := .fenced, spm := { maDue := 2 } }
def tHi : State := tSite { aTile with spm := { hints := [7, 9], scrubRow := 6143 } }
/-- A data packet of virtual tile 0 on ring 3, for tenancy 2, of the beat before the last two. -/
def dm (t : Sys2Proof.DType) (n : Nat) : DataMsg :=
  { dtype := t, btag := 2, src := epAddr (ringField 3 0) 0, dst := epAddr (ringCentre 3) 73, len := n, seq := 0, ten := 2, rgen := 0, tgen := 0, ngen := 0, epoch := 0, tspec := 64, payload := if t = .wread then [] else List.replicate n 7 }
def mw (e : BitVec 8) : MeshWord := { bytes := List.replicate 64 9, par := 0, psn := 0, vb := 0, eop := false, btag := 0, epoch := e }
def t11 : State := tSite { aTile with vring := 0, epoch := 4, discards := 2 ^ 32 - 1 }
def t11f : State := tSite { aTile with vring := 0, epoch := 4, inb := [(3, { wrPkt := 1, live := { rows := List.replicate 64 { bytes := [1], count := 512 } } })] }
/-- A packet forwarded on prediction, and the withdrawal header that comes behind it. -/
def rWd : InRow := { bytes := leBytes 8 (mkToken 7 3 2 false true 4), count := 512, endsPkt := true }
def mwWd : MeshWord := { (mw 4) with bytes := leBytes 64 (mkToken 7 3 2 true true 4), eop := true }
def sSpec : Sentence := { aSentence with spec := true }
def tWd : State :=
  { (tSite { aTile with vring := 0, epoch := 4, inb := [(3, { wrPkt := 1, live := { rows := [rWd] } })] }) with
    tens := [(2, { aRunning with rings := [0], sentence := some sSpec })] }
def big (n : Nat) : List DataMsg := List.replicate n (dm .svc 1024)
def t11p : State := { t11f with rings := [(0, { queues := [(tileQueue (tileOf t11f 0), big 13)], refused := 65535 })] }
/-- Virtual tiles 0 and 1 of ring 0, side by side; a word of tile 1 waits for the mesh, one for the Midway. -/
def t11m : State :=
  { tV with
    tens := [(2, { aRunning with rings := [0], sentence := some { aSentence with bound := [0], farHome := [0] } })]
    tiles := [(0, { aTile with vring := 0, vfield := 0, vtile := 0 }),
      (1, { aTile with
        vring := 0, vfield := 0, vtile := 1
        outb := [(2, { rows := [{ bytes := List.replicate 64 9, count := 64, eop := true }], dest := some (.mesh .west) }),
          (3, { rows := [{ bytes := List.replicate 64 9, count := 64, eop := true }], dest := some (.midway 0 0 0 1) })] })] }
def w11 (o : Nat) : MeshWord := (sentWord t11m 1 (outBuf (tileOf t11m 1) o)).getD (mw 0)
def h11 : List Hop := [{ site := 1, side := .west, cc := 100 }]
def t11k : State := modTile t11m 1 fun t => { t with driven := [portKey { site := 1, side := .west, cc := 100 }] }
def b11 (b o : Nat) : InBuf :=
  (storeWord (inBuf (tileOf t11m 0) b) false false false (.tile 0 0 1) (transit (w11 o) 1 false)).getD {}
def tok0 (r d : Nat) : BitVec 64 := BitVec.ofNat 64 (mkToken 7 d r false false 4)
def tkRow : InRow := { bytes := leBytes 8 (tok0 2 5).toNat, count := 8, endsPkt := true }
def t11w : State := tSite { aTile with vring := 0, epoch := 4, rules := [(2, ⟨1, 3, false, 0, 1, 0, 7⟩)], inb := [(3, { live := { rows := [tkRow] } })] }
def pkRows : List InRow := [{ bytes := [1, 2], count := 512 }, { bytes := [5], count := 64, endsPkt := true }]
def r11 : SteerRule := { din := 1, tin := 0, spec := false, rbase := 0, rrows := 1, used := 0, seq := 7 }
def e11 : MatchEntry := { rule := 2, seq := 7, token := some (tok0 2 3).toNat }
def t11s : State := tSite { aTile with epoch := 4, rules := [(2, r11)], matchBuf := [e11], inb := [(1, { live := { rows := pkRows } })], outb := [(3, { dest := some (.mesh .north) })] }
def t11t : State × List RowRd := (takeRows t11s 0 1 2).getD (t11s, [])
def pk (rt : List (BitVec 3)) (b : Body) : Packet := { route := rt, head := .east, urg := false, det := false, dcnt := 0, age := 3, body := b }
def cm (ct : CType) : CtlMsg := { ctype := ct, src := epAddr (ringField 3 0) 0, dst := epAddr (ringField 3 0) 0, arg := 0 }
def fl (f : Nat) (inp : RPort) (p : Packet) : Flight := { field := f, inp := inp, p := p, since := 199999999990 }
def tNet (p : Packet) (f : Nat) (inp : RPort) : State := { tV with net := [fl 5 .loc p, fl f inp p] }
def pCtl : Packet := pk [4] (.ctl (cm .ack))
def pDead : Packet := { pCtl with crcDead := true }
def pOld : Packet := { pCtl with age := 3584 }
def pEnd : Packet := pk [4] (.data (dm .svc 8))
def pOn : Packet := pk [2, 4] (.data (dm .svc 8))
def pDcnt : Packet := { pOn with dcnt := 255 }
def tLostR : State := { (tNet pEnd 0 .loc) with rings := [(0, { ejectOff := true })] }
def tNet3 : State := { tV with net := [fl 0 (.link .north) pEnd, fl 0 (.link .north) pDcnt, fl 0 (.link .north) pEnd, fl 0 (.link .north) pOn] }
def pEc : Packet := pk [5, 4] (.data (dm .svc 8))
def pFk : Packet := pk [7, 4, 0, 4] (.data (dm .svc 8))
def pMl : Packet := pk [4] (.data { (dm .mcast 8) with tspec := BitVec.ofNat 256 (2 ^ 16 + (epAddr 0 72).toNat * 2 ^ 24) })
def tLostM : State := { (tNet pMl 0 .loc) with rings := [(0, { ejectOff := true })] }
/-- Site of virtual tile 0 on ring 3. -/
def site3 : SiteId := ⟨ringField 3 0 * 72, by decide⟩
def rc3 : RecvCh := { srcVtile := 0, srcVfield := 0, srcVring := 0, srcCh := 6, valid := true, expect := 257, recvd := 5 }
def t3 (x : Tile) : State := { tOn with tiles := [(ringField 3 0 * 72, x)], tens := [(2, aRunning)] }
def t3r : State := t3 { aTile with recvCh := [(4, rc3)] }
def dsc : DataMsg := { (dm .desc 0) with dst := epAddr (ringField 3 0) 0, seq := 1, sch := 6, rch := 4, payload := [] }
def bnd : Binding := { stream := 0, egress := true, lport := 0, port := 9, vl := 2, op := 0, ifmt := 0, ofmt := 0, base := 0, granules := 1, nVtile := 0, nVfield := 0, nVring := 0, nCh := 0, aux := 0 }
def tEg : State := { tOn with tens := [(2, { aRunning with sentence := some { aSentence with bindings := [bnd] } })] }
def eg : DataMsg := { dsc with dst := epAddr (portField 9) 77, seq := 0 }
def egO : DataMsg := { eg with tspec := flds 256 [(208, 1)] }
def egD : DataMsg := { eg with seq := 255 }
def egL : DataMsg := { eg with seq := 15 }
def tEg0 : State := { tOn with tens := [(2, { aRunning with sentence := some aSentence })] }
def t3q : State := { t3r with rings := [(3, { queues := [(tileQueue (tileOf t3r (ringField 3 0 * 72)), [dsc])] })] }
def tF (a : Attr) : State := { tOn with tens := [(2, { aRunning with windows := [aWindow a] })], tiles := [(ringField 3 0 * 72, aTile)] }
def wM : Window := aWindow .master
def dmP : DataMsg := { (dm .wwrite 8) with btag := 0 }
def dmT : DataMsg := { (dm .wread 8) with ten := 3 }
def tFq (k : Nat) (d : DataMsg) : State := { tF .master with rings := [(3, { queues := [(k, [d])], srcs := [(d.src.toNat, { expect := 1 })] })] }
def aU (w : Bool) (d : DataMsg) : State := applyReq (takeReq (tFq (if w then 386 else 388) d) 3 w d) 3 2 d
def tDk3 : State := { tOn with rings := [(3, { supply := 2 })] }
def tFull : State := { tOn with rings := [(3, { queues := [(390, big 25)], refused := 65535 })] }
def mcA : BitVec 16 := epAddr (ringField 3 0) 5
def dmM : DataMsg := { (dm .mcast 8) with tspec := BitVec.ofNat 256 (2 ^ 17 + mcA.toNat * 2 ^ 40) }
def c3 (ct : CType) (a : Nat) : CtlMsg := { (cm ct) with arg := BitVec.ofNat 76 a }
def rq (dt : Sys2Proof.DType) : Req := { msg := { (dm dt 8) with src := epAddr (ringField 3 0) 0, dst := epAddr (ringField 3 0) 0, seq := 9, sch := 6 }, sentAt := 5 }
def tRq (dt : Sys2Proof.DType) : State := t3 { aTile with reqs := [rq dt], sendCh := [(6, { dstVtile := 0, valid := true, credits := 3, sent := 20 })] }
def rdM : DataMsg := { (dm .rdata 8) with dst := epAddr (ringField 3 0) 0, src := epAddr (ringField 3 0) 0, seq := 9 }
def rdO : DataMsg := { rdM with rgen := 1 }
def tPr : State := t3 { aTile with recvCh := [(4, rc3)], sendCh := [(6, { dstVtile := 0, valid := true, credits := 0, sent := 20 })], waits := [{ vtile := 0, vfield := 0, vring := 0, unit := 1, kind := 1, ch := 6, since := 5 }] }
def rqL : Req := { rq .wwrite with resends := 8 }
def tRqL : State := t3 { aTile with reqs := [rqL] }
/-- A ring controller with a multicast of two targets, a far-DMA engine with a descriptor for a tile. -/
def ctl3 : BitVec 16 := epAddr (ringCentre 3) 73
def mcR : Req := { msg := { (dm .mcast 8) with src := ctl3, seq := 9, tspec := BitVec.ofNat 256 (3 * 2 ^ 16) }, sentAt := 5 }
def tMcR : State := { tOn with tens := [(2, aRunning)], agentReqs := [(ctl3.toNat, [mcR])] }
def cMc (ct : CType) : CtlMsg := { (c3 ct (9 + 2 ^ 20 + 2 ^ 21)) with dst := ctl3 }
def agD : DataMsg := { dsc with src := trunkEp 0, dst := epAddr (ringField 3 0) 0, seq := 9, sch := 0, rch := 4 }
def agR : Req := { msg := agD, sentAt := 5 }
def tAg (sent : Bool) (n : Nat) : State := { t3r with agentReqs := [(agD.src.toNat, [{ agR with sent := sent }])], agentOut := [(outKey agD, { credits := n, sent := 20 })] }
def tSrc : State :=
  { tOn with
    tens := [(2, { aRunning with sentence := some { aSentence with bindings := [{ bnd with egress := false }] } })]
    tiles := [(ringField 3 0 * 72, { aTile with recvCh := [(4, { rc3 with srcVfield := 7, srcCh := 0 })] })] }
def dj (fs : List (Nat × Nat)) : BitVec 512 := flds 512 fs
/-- A COPY of 64 bytes from the near window to the far window of tenancy 2. -/
def cpy : BitVec 512 := dj [(16, 2), (32, 64), (64, 1 + 64 * 4), (128, 1 + 0x800000 * 4)]
def tDm : Tenancy := { aRunning with windows := [aWindow .master, { base := 0x800000, granules := 1, attr := .master, place := .far 0 }] }
def dd (n : Nat) : DataMsg := { (dm .desc 64) with src := epAddr (ringField 3 0) 0, dst := epAddr (ringCentre 3) 74, payload := leBytes 64 n }
def stk : StackId := ⟨ringStack 3 0, by decide⟩
def tD (q a : List DmaJob) : State := { tOn with tens := [(2, tDm)], farStacks := [(ringStack 3 0, { queue := q, active := a })], mem := [(nearAddr (ringField 3 0) 0 64, 7), (nearAddr (ringField 3 0) 0 65, 9)] }
def ddS : DataMsg := { (dd 5) with seq := 5 }
def ddE : DataMsg := { (dd 5) with epoch := 9 }
def bigJob : DmaJob := { desc := 0, msg := { (dd 5) with payload := List.replicate 4096 0 }, beat := 3, eligible := true }
def jb (dl : Nat) : DmaJob := { desc := dj [(16, dl)], msg := dd 5, beat := 3, eligible := true }
def jl : DmaJob := { desc := dj [(0, 1), (8, 0xC), (12, 0xA), (16, 2), (32, 64), (64, 1 + 64 * 4), (128, 1 + 0x800000 * 4)], msg := dd 5, beat := 3, eligible := true }
def lx : Lexicon := ⟨2, jAux jl.desc, 5, []⟩
def lx2 : Lexicon := ⟨2, jAux jl.desc + 16, 6, []⟩
def lx3 : Lexicon := ⟨2, jAux jl.desc + 32, 7, []⟩
def tDl : State := { (tD [] []) with farStacks := [(ringStack 3 0, { queue := [jl], lexicon := some lx })] }
def tDkk : State := { (tD [] []) with farStacks := [(ringStack 3 0, { queue := [jl], active := [{ jl with lex := some lx3 }], lexicon := some lx2, lexicon2 := some lx3 })] }
def jc : DmaJob := { desc := cpy, msg := dd 5, beat := 3, eligible := true }
def tDh : State := { (tD [] [jc]) with farStacks := [(ringStack 3 0, { active := [jc], retraining := List.range 32 })] }
def cd (op : Nat) : BitVec 512 := flds 512 [(0, op), (8, 0xA), (12, 0xA), (24, 2), (32, 1), (40, 0), (45, 1), (64, 77), (96, 64), (128, 0), (176, 0x400000)]
def col (op : Nat) : Coll := { desc := cd op, ten := 2, msg := { (dd 5) with dst := sequencerEp 0 }, beat := 3, eligible := true }
def tCo (cs : List Coll) : State := { tOn with tens := [(2, { aRunning with sentence := some { aSentence with portMap := [(0, 8), (1, 9)] }, windows := [aWindow .output, { base := 0x400000, granules := 2, attr := .input, place := .near 200 }] })], plies := [(0, { colls := cs })], sports := [(8, { st := .up, width := 8 }), (9, { st := .up, width := 8 })] }
def colB : Coll := { col 0 with desc := 0 }
def colD (st : Nat) : Coll := { col 0 with running := true, status := some st, res := [(0, List.replicate 128 3), (1, List.replicate 128 4)] }
def fr (ty lsn stream off msg : Nat) (pl : List Byte) : Frame := mkFrame ty (match ty with | 0 => 3 | 5 | 6 => 1 | _ => 0) false lsn stream off msg pl
def colR : Coll := { col 0 with running := true }
def tSpt (x : SPort) : State := { tOn with sports := [(31, x)] }
def tShed : State := { (tSpt { st := .down }) with pwr := { lanesShed := true } }
def hf (v : Nat) : Frame := mkFrame 4 0 true 0 0 0 0 (leBytes 16 (v * 2 ^ 8 + 1500 * 2 ^ 16 + 77 * 2 ^ 64))
def rf (l : Nat) : Frame := fr 0 l 5 0 0 [1]
def spUp : SPort := { st := .up, width := 8, retryBuf := [rf 4, rf 5, rf 6], outQ := [], txLimit := [(3, 9)] }
def spW : SPort := { spUp with noProgress := 7 }
def bf : Frame := mkFrame 0 1 false 0 5 0 0 [1]
def ib : Binding := { stream := 5, egress := false, lport := 0, port := 31, vl := 2, op := 0, ifmt := 0, ofmt := 0, base := 0, granules := 2, nVtile := 0, nVfield := 0, nVring := 0, nCh := 3, aux := 0 }
def tIg (l : Nat) : State := { tOn with sports := [(31, { st := .up, width := 8, lsnRx := l })], tens := [(2, { aRunning with windows := [aWindow .input], sentence := some { aSentence with bindings := [ib] } })] }
def tIgH : State := { (tIg 6) with tens := [(2, { tenOf (tIg 6) 2 with run := some { phase := .replay, begun := true } })] }
def tPd : State := { tOn with pending := [.unpowered, .guardClear] }
def tPdT : State := match exec .unpowered tPd with | .next t => t | _ => tPd
def rb : Tenancy := { aRunning with run := some { phase := .rebind 1, begun := true } }
def iRb : SiteId := ⟨ringField 3 0 * 72, by decide⟩
def tRb : State := { tTen rb with
  tiles := [(iRb.val, { st := .running, bound := true, restoring := true })]
  plies := [(0, { busy := some (3, 2) })] }
def tTk : State := tTen { aRunning with run := some { phase := .takeover 0 3, begun := true } }
def tHm : State := tTen { aRunning with sentence := some { aSentence with farHome := [4] } }
def tPdR : State := match step tPd with | .next t => t | _ => tPd

/-! ### Every clause of every statement meets its hypotheses somewhere -/

theorem test_ThrottleInputAssertsRestoresAndReleases :
    ((tOn.pins.throttle = false) ∧ (tOn.pins.psuSeen = true) ∧ (tOn.pwr.chatter = false)) ∧
    ((tThr.pins.throttle = true)) ∧
    ((tChat.pwr.chatter = true) ∧ (tChat.pwr.lastEdge + 1000000 ≤ tChat.time.uptime)) ∧
    ((tRel.pwr.throttleDemand = true) ∧ (tRel.pins.throttle = false) ∧ (tRel.pwr.chatter = false) ∧
      (tRel.pwr.lastEdge + 100000000 ≤ tRel.time.uptime) ∧ (∃ q, tRel.pwr.quietSince = some q ∧ q + 100000000 ≤ tRel.time.uptime)) ∧
    ((tThr.pins.throttle = true ∨ tThr.pwr.chatter = true) ∧ (tThr.pwr.throttleDemand = true) ∧ (tThr.pwr.throttleLongDone = false) ∧
      (tThr.pwr.throttleAt + 60000000000 < tThr.time.uptime)) := by
  and_intros <;> decide +kernel

theorem test_PowerMeasurementAndCapLoopAct :
    ((80000 < 80001 ∨ 66000 < 80001 ∧ 2 ≤ tOn.pwr.overVolt)) ∧
    ((80000 ≤ 66000 ∨ 80000 ≤ 80000 ∧ tOn.pwr.overVolt < 2)) ∧
    ((tOn.pins.psuSeen = true) ∧ (tOn.time.uptime % 50000 = 0) ∧ (66000 ≤ 66000)) ∧
    ((tGuard.pwr.guardMhz.isSome = true) ∧ (∃ q, tGuard.pwr.guardQuietSince = some q ∧ q + 100000000 ≤ tGuard.time.uptime)) ∧
    ((tCap.pins.psuSeen = true) ∧ (tCap.pwr.holdUp = false) ∧ (∀ (u : Nat), tCap.pwr.lastAction = some u → u + 200000 ≤ tCap.time.uptime)) ∧
    ((tOver.pwr.fixedFreq = true) ∧ (tOver.pwr.breach = false) ∧ (40 ≤ tOver.pwr.overCount) ∧ (tOver.pwr.holdUp = false)) ∧
    ((tBreach.pwr.breach = true) ∧ (∃ q, tBreach.pwr.quietSince = some q ∧ q + 100000000 ≤ tBreach.time.uptime) ∧
      (tBreach.pwr.thermal = false) ∧ (tBreach.pwr.throttleDemand = false) ∧
      (∀ (u : Nat), tBreach.pwr.causeEnd = some u → u + 100000000 ≤ tBreach.time.uptime)) := by
  and_intros <;> decide +kernel

theorem test_HeatAndSupplyFaultsAct :
    ((∃ r ∈ [{ field := 0, dram := false, tenthC := 1050 : SensorReading }], (if r.dram = true then 950 else 1050) ≤ r.tenthC)) ∧
    ((∀ r ∈ [{ field := 0, dram := false, tenthC := 999 : SensorReading }], r.tenthC < if r.dram = true then 900 else 1000)) ∧
    ((tS1_1.pwr.thermal = true) ∧ (∃ q, tS1_1.pwr.thermalCoolSince = some q ∧ q + 100000000 ≤ tS1_1.time.uptime)) ∧
    (((plyOf tOn 0).tripped = false) ∧ (1150 ≤ 1150)) ∧
    (((ringOf tOn 0).supply = 0) ∧ ((ringOf tOn 0).vcoreLost.contains 23 = false)) ∧
    (((ringOf tOn 0).supply = 0) ∧ (3 < 4) ∧ ((ringOf tOn 0).vdramLost.contains 3 = false)) ∧
    (((ringOf tOn 0).supply = 0)) ∧
    (((ringOf tS1_2 0).supply ≠ 0)) := by
  and_intros <;> decide +kernel

theorem test_MarginsLanesAndPoweredTimeCount :
    ((tOn.box.heldFrom = none) ∧ ((ringOf tOn 5).supply = 0)) ∧
    ((tOn.pins.psuSeen = true)) ∧
    ((tOn.pins.psuSeen = true) ∧ (boxRuns tOn = true)) := by
  and_intros <;> decide +kernel

theorem test_PowerOnAndResetsAct :
    ((tDark.pins.psuSeen = false) ∧ (tDark.pins.modReset = false)) ∧
    ((tS2_1.pins.psuSeen = false) ∧ (tS2_1.pins.modReset = true)) ∧
    ((tOn.pins.psuSeen = true) ∧ (tOn.pins.modReset = false)) ∧
    ((tS2_2.pins.psuSeen = true) ∧ (tS2_2.pins.modReset = true) ∧ (tS2_2.pins.psuOk = false)) ∧
    ((tInRst.pins.psuSeen = true) ∧ (tInRst.pins.modReset = true) ∧ (tInRst.pins.psuOk = true)) ∧
    ((tS2_3.pins.psuSeen = true) ∧ (tS2_3.pins.psuOk = false)) ∧
    ((tS2_5.pins.psuSeen = true) ∧ (tS2_5.pins.psuOk = false)) ∧
    ((tOn.pins.psuOk = true) ∧ (tOn.pins.modReset = false) ∧ (boxRuns tOn = true)) := by
  and_intros <;> decide +kernel

theorem test_EscalationLadderCounts :
    ((tS2_6.box.resetStart = some 5) ∧ (tS2_6.box.state = Boot.computeReset) ∧ (tS2_6.box.pwrPending = false) ∧
      (5 + 3000000000 ≤ tS2_6.time.uptime)) ∧
    ((tOn.box.state = Boot.ready) ∧ ((plyOf tOn 2).rmOk = true) ∧ (tOn.box.resetStart = none)) := by
  and_intros <;> decide +kernel

theorem test_PatrolAndLaneRepairAct :
    ((tOn.pins.psuSeen = true) ∧ (neighbour 0 Side.east = some 1)) ∧
    ((tDk.pins.psuSeen = true) ∧ (dark tDk (fieldRing 0) = true)) ∧
    ((tOn.pins.psuSeen = true) ∧ (dark tOn (fieldRing 0) = false)) ∧
    ((tOn.pins.psuSeen = true) ∧ (SMap.get 0 (nearCh (fieldOf tOn 0) 3).lanes 4 < 2)) ∧
    ((tSp.pins.psuSeen = true) ∧ (2 ≤ SMap.get 0 (nearCh (fieldOf tSp 0) 3).lanes 4)) ∧
    ((tDue.pins.psuSeen = true) ∧ (dark tDue (fieldRing 0) = false) ∧ ((nearCh (fieldOf tDue 0) 3).slots % 2 = 1) ∧
      ((1 * 32 + 31) * 16384 + 16383 ∈ (nearCh (fieldOf tDue 0) 3).rowDue) ∧
      (SMap.get 0 (nearCh (fieldOf tDue 0) 3).rows (1 * 32 + 31) < 64)) ∧
    ((tOn.pins.psuSeen = true) ∧ (dark tOn (fieldRing 0) = false) ∧
      ((nearCh (fieldOf tOn 0) 3).slots % 2 ≠ 1 ∨ (1 * 32 + 31) * 16384 + 16383 ∉ (nearCh (fieldOf tOn 0) 3).rowDue)) := by
  and_intros <;> decide +kernel

theorem test_PatrolAndLaneRepairAct_2 :
    ((tOn.pins.psuSeen = true) ∧ (dark tOn (fieldRing 0) = false) ∧ ((nearCh (fieldOf tOn 0) 3).failed = false) ∧
      (∀ k ∈ (nearCh (fieldOf tOn 0) 3).rowDue, k / 524288 ≠ (nearCh (fieldOf tOn 0) 3).slots % 2) ∧
      (dramKey 512 ∈ patrolRows (nearCh (fieldOf tOn 0) 3).slots)) ∧
    ((tS2_8.pins.psuSeen = true) ∧ ((stackOf tS2_8 0).written.contains (fldN 640 21 18) = true)) ∧
    ((tOn.pins.psuSeen = true) ∧ ((stackOf tOn 0).written.contains (fldN 640 21 18) = false)) ∧
    ((tOn.pins.psuSeen = true) ∧ ((stackOf tOn 0).fenced.contains 31 = false)) ∧
    ((tS2_9.pins.psuSeen = true) ∧ ((stackOf tS2_9 0).retraining.contains 31 = true)) ∧
    ((tS2_10.pins.psuSeen = true) ∧ ((stackOf tS2_10 0).retraining.contains 31 = true)) := by
  and_intros <;> decide +kernel

theorem test_CounterReadsReturnAndClear :
    ((dark tOn (siteRing 0) = false)) ∧
    ((dark tTile (siteRing 0) = false) ∧ (tileReadable (tileOf tTile 0) = true)) ∧
    ((tileReadable (tileOf tS2_11 0) = false ∨ dark tS2_11 (siteRing 0) = true)) ∧
    ((dark tS2_12 (fieldRing 0) = false)) ∧
    ((dark tS2_13 (fieldRing 0) = false)) := by
  and_intros <;> decide +kernel

theorem test_RingsAreLostAndRejoin :
    (((ringOf tOn 5).supply = 0) ∧ ((ringOf tOn 5).ctlDead = false) ∧ (withholds tOn 5 = false)) ∧
    ((tS3_1.box.state = Boot.ready) ∧ (bit tS3_1.hbLost 5 = true) ∧ ((ringOf tS3_1 5).st ≠ RingSt.lost) ∧
      ((ringOf tS3_1 5).st ≠ RingSt.resetting) ∧ (withholds tS3_1 5 = false) ∧
      (∀ p ∈ tS3_1.tens, p.2.rings.contains 5 = false ∧ p.2.run = none)) ∧
    (((ringOf tS3_2 5).st = RingSt.resetting) ∧ ((ringOf tS3_2 5).partStart.isSome = true) ∧ ((ringOf tS3_2 5).ctlDead = false) ∧
      (dark tS3_2 5 = false)) ∧
    (((ringOf tS3_3 5).st = RingSt.resetting) ∧ ((ringOf tS3_3 5).partStart.isSome = true) ∧ ((ringOf tS3_3 5).ctlDead = false) ∧
      (dark tS3_3 5 = false)) := by
  and_intros <;> decide +kernel

theorem test_SiteTestsAndSuspectsAct :
    ((tOn.box.state = Boot.ready) ∧ (dark tOn (siteRing 0) = false) ∧ ((tileOf tOn 0).st ≠ TileSt.fenced) ∧
      (siteDead (siteMap tOn 0).st = false) ∧
      (∃ j ∈ ringSites (siteRing 0), j ≠ 0 ∧ (tileOf tOn j).st ≠ TileSt.fenced ∧ siteDead (siteMap tOn j).st = false ∧ ((ringOf tOn (siteRing 0)).missedTick = tOn.time.ticks → (ringOf tOn (siteRing 0)).missed.contains j = false))) ∧
    ((tOn.box.state = Boot.ready) ∧ (tOn.box.heldFrom = none) ∧ ((ringOf tOn 0).supply = 0) ∧ ((ringOf tOn 0).st ≠ RingSt.lost) ∧
      ((ringOf tOn 0).st ≠ RingSt.resetting)) ∧
    (((siteMap tSusp 0).st = SiteSt.suspect) ∧ ((siteMap tSusp 0).lastFail = some 1) ∧ (1 + 720 * 3600 < tSusp.time.poweredS)) ∧
    (((ringOf tSusp 0).item = SiteSt.suspect) ∧ ((ringOf tSusp 0).itemFail = some 1) ∧ (1 + 720 * 3600 < tSusp.time.poweredS)) := by
  and_intros <;> decide +kernel

theorem test_RehearsalFiresOnce :
    ((tReh.box.reh.status = 1) ∧ (tReh.box.state = Boot.ready)) ∧
    ((tRehR.box.reh.status = 1) ∧ (tRehR.box.state = Boot.ready)) ∧
    ((tOn.box.reh.status ≠ 1 ∨ tOn.box.state ≠ Boot.ready)) ∧
    ((tRehD.box.reh.status = 2) ∧ (tRehD.box.reh.poisonNext = []) ∧ (tRehD.box.reh.stall = none) ∧ (tRehD.box.reh.lossRing = none) ∧
      (∀ p ∈ tRehD.tens, (p.2.run.bind fun x => x.rehearsedAt) = none)) ∧
    ((tS3_4.box.reh.lane = some (5, 0, 0, false)) ∧ (5 ≤ tS3_4.time.uptime)) := by
  and_intros <;> decide +kernel

theorem test_EventRecordsAreAcceptedInOrder :
    ((boxRuns tEv = true) ∧ (1 < 4) ∧ ((plyOf tEv 1).staging = [{ uptime := 1, cls := 4, code := 2310 : EvRec }])) ∧
    ((boxRuns tEv = true) ∧ (tEv.box.staging = [{ uptime := 1, cls := 3, code := 2310 : EvRec }])) ∧
    ((boxRuns tEv = true) ∧ (tEv.box.toFlash = [{ uptime := 2, cls := 5, code := 2049 : EvRec }])) ∧
    ((boxRuns tEv = true)) := by
  and_intros <;> decide +kernel

theorem test_CanNodeFollowsItsCommands :
    ((tEv.can.onBus = true) ∧ (tEv.can.busOff = false) ∧ (tEv.can.nmt ≠ Nmt.boot)) ∧
    ((tEv.can.onBus = true) ∧ (tEv.can.busOff = false) ∧ (tEv.can.nmt ≠ Nmt.boot) ∧ (tEv.box.set.heartbeatMs ≠ 0) ∧
      (tEv.can.hbAt + tEv.box.set.heartbeatMs * 1000000 ≤ tEv.time.uptime)) ∧
    ((tEv.can.emcyQ = [{ uptime := 1, cls := 4, code := 2310 : EvRec }]) ∧ (canServes tEv = true) ∧ (tEv.can.emcyLast = none)) ∧
    ((tEv.can.onBus = true)) ∧
    ((tEv.can.segmented = true) ∧ (tEv.can.segAt + 1000000000 < tEv.time.uptime)) := by
  and_intros <;> decide +kernel

theorem test_HostQueuesFollowTheirDoorbells :
    (((hq tQ 0 0).enable = true)) ∧
    (((hq tQh 0 0).held = [{ cid := 3, status := 0, sq := 0, result := 0 : Completion }]) ∧ (cqFree (hq tQh 0 0) = true)) ∧
    (((hq tQ 0 0).enable = true) ∧ ((hq tQ 0 0).error = false) ∧ (sqWaiting (hq tQ 0 0) = true) ∧ ((hq tQ 0 0).held = []) ∧
      (boxRuns tQ = true) ∧ ((hq tQ 0 0).cqLog ≠ 0) ∧ (cqFree (hq tQ 0 0) = true)) ∧
    ((boxRuns tQ = true)) ∧
    ((boxRuns tQ = true) ∧ (∀ (u : Nat), (hportOf tQ 0).ptmLast = some u → u + tQ.box.set.ptmMs * 1000000 ≤ tQ.time.uptime)) := by
  and_intros <;> decide +kernel

theorem test_TenancyCommandsTakeEffect :
    (((hq tQ 0 0).enable = true) ∧ ((hq tQ 0 0).error = false) ∧ (sqWaiting (hq tQ 0 0) = true) ∧ ((hq tQ 0 0).held = []) ∧
      (boxRuns tQ = true) ∧ (isOwner tQ 0 = true) ∧ (entryOk (ent 0 0) 3 = true) ∧
      ((hportOf tQ (eOp (ent 0 0) 0 3)).role ≠ Role.observer) ∧
      (List.find? (fun n => decide ((tenOf tQ n).st = TenSt.none_)) (List.range 64) = some 0)) := by
  and_intros <;> decide +kernel

theorem test_TenancyCommandsTakeEffect_2 :
    (((hq tT1 0 0).enable = true) ∧ ((hq tT1 0 0).error = false) ∧ (sqWaiting (hq tT1 0 0) = true) ∧ ((hq tT1 0 0).held = []) ∧
      (boxRuns tT1 = true) ∧ (isOwner tT1 0 = true) ∧ (entryOk (ent 2 0) 0 = true) ∧ ((tenOf tT1 (eTen (ent 2 0))).st ≠ TenSt.none_) ∧
      ((tenOf tT1 (eTen (ent 2 0))).st ≠ TenSt.clearing) ∧ ((tenOf tT1 (eTen (ent 2 0))).st ≠ TenSt.switchedOut) ∧
      ((tenOf tT1 (eTen (ent 2 0))).destroyBy = none) ∧ ((tenOf tT1 (eTen (ent 2 0))).binding = none)) := by
  and_intros <;> decide +kernel

theorem test_TenancyCommandsTakeEffect_3 :
    (((hq tT2 0 0).enable = true) ∧ ((hq tT2 0 0).error = false) ∧ (sqWaiting (hq tT2 0 0) = true) ∧ ((hq tT2 0 0).held = []) ∧
      (boxRuns tT2 = true) ∧ (isOwner tT2 0 = true) ∧ (entryOk (ent 2 0) 0 = true) ∧ ((tenOf tT2 (eTen (ent 2 0))).st ≠ TenSt.none_) ∧
      ((tenOf tT2 (eTen (ent 2 0))).st ≠ TenSt.clearing) ∧ ((tenOf tT2 (eTen (ent 2 0))).st ≠ TenSt.switchedOut) ∧
      ((tenOf tT2 (eTen (ent 2 0))).destroyBy = none) ∧ ((tenOf tT2 (eTen (ent 2 0))).binding = none)) := by
  and_intros <;> decide +kernel

theorem test_TenancyCommandsTakeEffect_4 :
    (((hq tT1 0 0).enable = true) ∧ ((hq tT1 0 0).error = false) ∧ (sqWaiting (hq tT1 0 0) = true) ∧ ((hq tT1 0 0).held = []) ∧
      (boxRuns tT1 = true) ∧ (isOwner tT1 0 = true) ∧ (entryOk (ent 2 (1 + 2 ^ 63)) 96 = true) ∧ (eOp (ent 2 (1 + 2 ^ 63)) 64 1 = 0) ∧
      (computeUp tT1 = true) ∧ ((tenOf tT1 (eTen (ent 2 (1 + 2 ^ 63)))).st = TenSt.created) ∧
      ((tenOf tT1 (eTen (ent 2 (1 + 2 ^ 63)))).binding = none) ∧ ((tenOf tT1 (eTen (ent 2 (1 + 2 ^ 63)))).destroyBy = none) ∧
      ((tenOf tT1 (eTen (ent 2 (1 + 2 ^ 63)))).group = none) ∧ (ringsOf (eOp (ent 2 (1 + 2 ^ 63)) 0 64) ≠ []) ∧
      (∀ r ∈ ringsOf (eOp (ent 2 (1 + 2 ^ 63)) 0 64), (ringOf tT1 r).st = RingSt.free ∧ ringWhole tT1 r 75 = true)) := by
  and_intros <;> decide +kernel

theorem test_TenancyCommandsTakeEffect_5 :
    (((hq tT3 0 0).enable = true) ∧ ((hq tT3 0 0).error = false) ∧ (sqWaiting (hq tT3 0 0) = true) ∧ ((hq tT3 0 0).held = []) ∧
      (boxRuns tT3 = true) ∧ (isOwner tT3 0 = true) ∧ (entryOk (ent 2 8) 64 = true) ∧ ((tenOf tT3 (eTen (ent 2 8))).st = TenSt.ready) ∧
      ((tenOf tT3 (eTen (ent 2 8))).binding = none) ∧ ((tenOf tT3 (eTen (ent 2 8))).destroyBy = none) ∧
      ((tenOf tT3 (eTen (ent 2 8))).sentence = none) ∧ ((tenOf tT3 (eTen (ent 2 8))).group = none) ∧ (ringsOf (eOp (ent 2 8) 0 64) ≠ []) ∧
      (∀ r ∈ ringsOf (eOp (ent 2 8) 0 64), (tenOf tT3 (eTen (ent 2 8))).rings.contains r = true ∧ holdsHost (tenOf tT3 (eTen (ent 2 8))) r = false)) := by
  and_intros <;> decide +kernel

theorem test_TenancyCommandsTakeEffect_6 :
    (((hq tT3 0 0).enable = true) ∧ ((hq tT3 0 0).error = false) ∧ (sqWaiting (hq tT3 0 0) = true) ∧ ((hq tT3 0 0).held = []) ∧
      (boxRuns tT3 = true) ∧ (isOwner tT3 0 = true) ∧ (entryOk (ent 2 (2 ^ 20 - 1)) 20 = true) ∧
      ((tenOf tT3 (eTen (ent 2 (2 ^ 20 - 1)))).st ≠ TenSt.none_)) ∧
    (((hq tGrp 0 0).enable = true) ∧ ((hq tGrp 0 0).error = false) ∧ (sqWaiting (hq tGrp 0 0) = true) ∧ ((hq tGrp 0 0).held = []) ∧
      (boxRuns tGrp = true) ∧ (isOwner tGrp 0 = true) ∧ (entryOk (ent 2 1) 2 = true) ∧ (residentOf tGrp (eOp (ent 2 1) 0 2) = some 2) ∧
      ((nextTurn tGrp (eOp (ent 2 1) 0 2) 2 false).isSome = true) ∧ ((tenOf tGrp 2).switchBy = none)) := by
  and_intros <;> decide +kernel

theorem test_SlicesAndClearedRingsAct :
    ((residentOf tGrp 1 = some 2) ∧ ((tenOf tGrp 2).run = some { : Run }) ∧ ((tenOf tGrp 2).quantum ≠ 0) ∧
      ((tenOf tGrp 2).quantum ≤ (tenOf tGrp 2).sinceIn) ∧ ((nextTurn tGrp 1 2 false).isSome = true)) ∧
    ((List.find? (fun p => p.2.releasing.contains 3) tRls.tens = some (2, { st := TenSt.clearing, rings := [3, 5], releasing := [3] : Tenancy }))) := by
  and_intros <;> decide +kernel

theorem test_SentenceCommandsTakeEffect :
    (((tenOf tT4 2).loading = some (aSentence, [aWindow Attr.input])) ∧ (bindingWaits tT4 2 = false)) ∧
    ((bindingWaits tT4b 2 = true)) ∧
    (((hq tT5 0 0).enable = true) ∧ ((hq tT5 0 0).error = false) ∧ (sqWaiting (hq tT5 0 0) = true) ∧ ((hq tT5 0 0).held = []) ∧
      (boxRuns tT5 = true) ∧ (mayCommand tT5 0 (eTen (ent 2 (2097152 + 3 * 2 ^ 48))) = true) ∧
      (entryOk (ent 2 (2097152 + 3 * 2 ^ 48)) 75 = true) ∧ (eOp (ent 2 (2097152 + 3 * 2 ^ 48)) 0 48 % granBytes = 0) ∧
      (1 ≤ eOp (ent 2 (2097152 + 3 * 2 ^ 48)) 48 27) ∧
      (eOp (ent 2 (2097152 + 3 * 2 ^ 48)) 0 48 + eOp (ent 2 (2097152 + 3 * 2 ^ 48)) 48 27 * granBytes ≤ 2 ^ 48) ∧ (computeUp tT5 = true) ∧
      ((tenOf tT5 (eTen (ent 2 (2097152 + 3 * 2 ^ 48)))).rings ≠ []) ∧
      ((tenOf tT5 (eTen (ent 2 (2097152 + 3 * 2 ^ 48)))).st ≠ TenSt.clearing) ∧
      ((tenOf tT5 (eTen (ent 2 (2097152 + 3 * 2 ^ 48)))).destroyBy = none) ∧
      ((tenOf tT5 (eTen (ent 2 (2097152 + 3 * 2 ^ 48)))).windows = []) ∧
      (eOp (ent 2 (2097152 + 3 * 2 ^ 48)) 48 27 ≤ (hostGrans (tenOf tT5 (eTen (ent 2 (2097152 + 3 * 2 ^ 48)))) (eOp (ent 2 (2097152 + 3 * 2 ^ 48)) 48 27 + 1) (eOp (ent 2 (2097152 + 3 * 2 ^ 48)) 48 27) (tenOf tT5 (eTen (ent 2 (2097152 + 3 * 2 ^ 48)))).hostNext).length) ∧
      (∀ (y : Sentence), (tenOf tT5 (eTen (ent 2 (2097152 + 3 * 2 ^ 48)))).sentence = some y → ∀ g ∈ hostGrans (tenOf tT5 (eTen (ent 2 (2097152 + 3 * 2 ^ 48)))) (eOp (ent 2 (2097152 + 3 * 2 ^ 48)) 48 27 + 1) (eOp (ent 2 (2097152 + 3 * 2 ^ 48)) 48 27) (tenOf tT5 (eTen (ent 2 (2097152 + 3 * 2 ^ 48)))).hostNext, reachesFar (tenOf tT5 (eTen (ent 2 (2097152 + 3 * 2 ^ 48)))) y y.farHome g.2 = false)) := by
  and_intros <;> decide +kernel

theorem test_SentenceCommandsTakeEffect_2 :
    (((hq tT6 0 0).enable = true) ∧ ((hq tT6 0 0).error = false) ∧ (sqWaiting (hq tT6 0 0) = true) ∧ ((hq tT6 0 0).held = []) ∧
      (boxRuns tT6 = true) ∧ (mayCommand tT6 0 (eTen (ent 2 0)) = true) ∧ (entryOk (ent 2 0) 48 = true) ∧
      (List.find? (fun v => decide (v.base = eOp (ent 2 0) 0 48)) (tenOf tT6 (eTen (ent 2 0))).windows = some (aWindow Attr.input))) := by
  and_intros <;> decide +kernel

theorem test_SentenceCommandsTakeEffect_3 :
    (((hq tT6 0 0).enable = true) ∧ ((hq tT6 0 0).error = false) ∧ (sqWaiting (hq tT6 0 0) = true) ∧ ((hq tT6 0 0).held = []) ∧
      (boxRuns tT6 = true) ∧ (mayCommand tT6 0 (eTen (ent 2 (2 ^ 64 * 4096))) = true) ∧ (entryOk (ent 2 (2 ^ 64 * 4096)) 112 = true) ∧
      (eOp (ent 2 (2 ^ 64 * 4096)) 48 16 = 0) ∧ (computeUp tT6 = true) ∧ ((tenOf tT6 (eTen (ent 2 (2 ^ 64 * 4096)))).st = TenSt.ready) ∧
      ((tenOf tT6 (eTen (ent 2 (2 ^ 64 * 4096)))).run = none) ∧ ((tenOf tT6 (eTen (ent 2 (2 ^ 64 * 4096)))).binding = none) ∧
      ((tenOf tT6 (eTen (ent 2 (2 ^ 64 * 4096)))).destroyBy = none) ∧
      (winAt (tenOf tT6 (eTen (ent 2 (2 ^ 64 * 4096)))) (eOp (ent 2 (2 ^ 64 * 4096)) 0 48) = some (aWindow Attr.input)) ∧
      ((aWindow Attr.input).attr = Attr.input ∨ (aWindow Attr.input).attr = Attr.master) ∧
      (eOp (ent 2 (2 ^ 64 * 4096)) 0 48 + eOp (ent 2 (2 ^ 64 * 4096)) 64 48 ≤ winEnd (aWindow Attr.input))) := by
  and_intros <;> decide +kernel

theorem test_SentenceCommandsTakeEffect_4 :
    (((hq tT6 0 0).enable = true) ∧ ((hq tT6 0 0).error = false) ∧ (sqWaiting (hq tT6 0 0) = true) ∧ ((hq tT6 0 0).held = []) ∧
      (boxRuns tT6 = true) ∧ (mayCommand tT6 0 (eTen (ent 2 0)) = true) ∧ (entryOk (ent 2 0) 0 = true) ∧ (computeUp tT6 = true) ∧
      ((tenOf tT6 (eTen (ent 2 0))).st = TenSt.ready) ∧ ((tenOf tT6 (eTen (ent 2 0))).sentence = some aSentence) ∧
      (aSentence.clauses ≠ []) ∧ ((tenOf tT6 (eTen (ent 2 0))).run = none) ∧ ((tenOf tT6 (eTen (ent 2 0))).binding = none) ∧
      ((tenOf tT6 (eTen (ent 2 0))).destroyBy = none) ∧ (aSentence.beatLog2 = tT6.time.beatLog2)) := by
  and_intros <;> decide +kernel

theorem test_SentenceCommandsTakeEffect_5 :
    (((hq tT7 0 0).enable = true) ∧ ((hq tT7 0 0).error = false) ∧ (sqWaiting (hq tT7 0 0) = true) ∧ ((hq tT7 0 0).held = []) ∧
      (boxRuns tT7 = true) ∧ (mayCommand tT7 0 (eTen (ent 2 0)) = true) ∧ (entryOk (ent 2 0) 0 = true) ∧
      ((tenOf tT7 (eTen (ent 2 0))).run = some { phase := Phase.work, begun := true : Run }) ∧
      ((tenOf tT7 (eTen (ent 2 0))).st ≠ TenSt.switchedOut)) ∧
    (((hq tT6 0 0).enable = true) ∧ ((hq tT6 0 0).error = false) ∧ (sqWaiting (hq tT6 0 0) = true) ∧ ((hq tT6 0 0).held = []) ∧
      (boxRuns tT6 = true) ∧ (mayCommand tT6 0 (eTen (ent 2 0)) = true) ∧ (entryOk (ent 2 0) 0 = true) ∧
      ((tenOf tT6 (eTen (ent 2 0))).sentence.isSome = true) ∧ ((tenOf tT6 (eTen (ent 2 0))).run = none) ∧
      ((tenOf tT6 (eTen (ent 2 0))).binding = none) ∧ ((tenOf tT6 (eTen (ent 2 0))).destroyBy = none)) := by
  and_intros <;> decide +kernel

theorem test_SmallDmaMovesTheWindowsBytes :
    (((hq tT6 0 0).enable = true) ∧ ((hq tT6 0 0).error = false) ∧ (sqWaiting (hq tT6 0 0) = true) ∧ ((hq tT6 0 0).held = []) ∧
      (boxRuns tT6 = true) ∧ (mayCommand tT6 0 (eTen (dmaE 64)) = true) ∧ (dmaOk (dmaE 64) = true) ∧
      (winAt (tenOf tT6 (eTen (dmaE 64))) (eOp (dmaE 64) 0 48) = some (aWindow Attr.input)) ∧
      (eOp (dmaE 64) 0 48 + eOp (dmaE 64) 128 17 ≤ winEnd (aWindow Attr.input)) ∧
      (rangeDark tT6 (tenOf tT6 (eTen (dmaE 64))) (aWindow Attr.input) (eOp (dmaE 64) 0 48) (eOp (dmaE 64) 128 17) = false) ∧
      (∀ r ∈ (tenOf tT6 (eTen (dmaE 64))).reads, r.w.port = 0 → r.w.q ≠ 0) ∧ (mayWrite Agent.host (aWindow Attr.input).attr = true)) := by
  and_intros <;> decide +kernel

theorem test_SmallDmaMovesTheWindowsBytes_2 :
    (((hq tT6 0 0).enable = true) ∧ ((hq tT6 0 0).error = false) ∧ (sqWaiting (hq tT6 0 0) = true) ∧ ((hq tT6 0 0).held = []) ∧
      (boxRuns tT6 = true) ∧ (mayCommand tT6 0 (eTen (dmaE 128)) = true) ∧ (dmaOk (dmaE 128) = true) ∧
      (winAt (tenOf tT6 (eTen (dmaE 128))) (eOp (dmaE 128) 0 48) = some (aWindow Attr.input)) ∧
      (eOp (dmaE 128) 0 48 + eOp (dmaE 128) 128 17 ≤ winEnd (aWindow Attr.input)) ∧
      (rangeDark tT6 (tenOf tT6 (eTen (dmaE 128))) (aWindow Attr.input) (eOp (dmaE 128) 0 48) (eOp (dmaE 128) 128 17) = false) ∧
      (∀ r ∈ (tenOf tT6 (eTen (dmaE 128))).reads, r.w.port = 0 → r.w.q ≠ 0) ∧ (mayWrite Agent.host (aWindow Attr.input).attr = true)) := by
  and_intros <;> decide +kernel

theorem test_SmallDmaMovesTheWindowsBytes_3 :
    (((hq tT6m 0 0).enable = true) ∧ ((hq tT6m 0 0).error = false) ∧ (sqWaiting (hq tT6m 0 0) = true) ∧ ((hq tT6m 0 0).held = []) ∧
      (boxRuns tT6m = true) ∧ (mayCommand tT6m 0 (eTen (dmaE 64)) = true) ∧ (dmaOk (dmaE 64) = true) ∧
      (winAt (tenOf tT6m (eTen (dmaE 64))) (eOp (dmaE 64) 0 48) = some (aWindow Attr.output)) ∧
      (eOp (dmaE 64) 0 48 + eOp (dmaE 64) 128 17 ≤ winEnd (aWindow Attr.output)) ∧
      (rangeDark tT6m (tenOf tT6m (eTen (dmaE 64))) (aWindow Attr.output) (eOp (dmaE 64) 0 48) (eOp (dmaE 64) 128 17) = false) ∧
      (∀ r ∈ (tenOf tT6m (eTen (dmaE 64))).reads, r.w.port = 0 → r.w.q ≠ 0) ∧ (mayRead Agent.host (aWindow Attr.output).attr = true) ∧
      (rangePending tT6m (eTen (dmaE 64)) (eOp (dmaE 64) 0 48) (eOp (dmaE 64) 128 17) = false)) := by
  and_intros <;> decide +kernel

theorem test_DictionaryAccessesAnswerTheirPath :
    ((pathServes tOn Path.can = true) ∧ (512 ≤ (pathOf tOn Path.can).level)) ∧
    ((pathServes tOn Path.can = true) ∧ (512 ≤ (pathOf tOn Path.can).level) ∧ (99 < 2 ^ 16)) ∧
    ((pathServes tOn Path.can = true) ∧ (512 ≤ (pathOf tOn Path.can).level) ∧ (60000 < 2 ^ 16)) ∧
    ((pathServes tOn Path.can = true) ∧ (512 ≤ (pathOf tOn Path.can).level) ∧ (0 < 2 ^ 16)) ∧
    ((pathServes tOn (Path.host 0) = true) ∧ (512 ≤ (pathOf tOn (Path.host 0)).level) ∧ (2 ^ 32 - 1 < 2 ^ 32)) ∧
    ((pathServes tOn (Path.host 1) = true) ∧ (512 ≤ (pathOf tOn (Path.host 1)).level) ∧ (isOwner tOn 1 = false)) := by
  and_intros <;> decide +kernel

theorem test_DictionaryAccessesAnswerTheirPath_2 :
    ((canServes tOn = true) ∧ (dictRead tOn Path.can 4120 1 = Except.ok [94, 10, 0, 0]) ∧ ([94, 10, 0, 0].length ≤ 256)) ∧
    ((canServes tOn = true) ∧ (dictRead tOn Path.can 32768 1 = Except.error 100794368)) ∧
    ((canServes tOn = true) ∧ (dictWrite tOn Path.can 32768 1 0 [1] = Except.error 100794368)) ∧
    ((canServes tOn = true) ∧ (dictWrite tOn Path.can 4119 0 0 [244, 1] = Except.ok tHb)) ∧
    ((pathServes tOn (Path.host 0) = true)) := by
  and_intros <;> first | (with_reducible refine ok_of ?_; decide +kernel) | (with_reducible refine error_of ?_; decide +kernel) | decide +kernel

theorem test_SettingRowsTakeEffect :
    ((tHold.box.sideHold = true) ∧ (tHold.box.sideHoldAt + 3600000000000 ≤ tHold.time.uptime)) ∧
    ((tHold2.box.sideHold = true) ∧ (tHold2.time.uptime < tHold2.box.sideHoldAt + 3600000000000)) ∧
    ((pathServes tLv (Path.host 0) = true) ∧ (512 ≤ (pathOf tLv (Path.host 0)).level) ∧ (permits tLv (Path.host 0) Who.ownerOp 1 = true)) ∧
    ((pathServes tLc Path.can = true) ∧ (512 ≤ (pathOf tLc Path.can).level) ∧ (permits tLc Path.can Who.ownerOp 1 = true)) ∧
    ((pathServes tLv (Path.host 0) = true) ∧ (512 ≤ (pathOf tLv (Path.host 0)).level) ∧ (512 ≤ 512) ∧ (512 < 2 ^ 16)) ∧
    ((pathServes tLv (Path.host 0) = true) ∧ (512 ≤ (pathOf tLv (Path.host 0)).level) ∧ (512 ≤ 65535) ∧ (65535 < 2 ^ 16)) := by
  and_intros <;> decide +kernel

theorem test_SettingRowsTakeEffect_2 :
    ((pathServes tLv (Path.host 0) = true) ∧ (512 ≤ (pathOf tLv (Path.host 0)).level) ∧ (permits tLv (Path.host 0) Who.owner 1 = true) ∧
      (4 ≤ 4) ∧ (clauseRuns tLv = false) ∧ (∀ r < 64, (ringOf tLv r).st ≠ RingSt.resetting)) ∧
    ((pathServes tLv (Path.host 0) = true) ∧ (512 ≤ (pathOf tLv (Path.host 0)).level) ∧ (permits tLv (Path.host 0) Who.owner 1 = true) ∧
      ((ringOf tLv 63).st = RingSt.free ∨ (ringOf tLv 63).st = RingSt.reserve) ∧ (ringWhole tLv 63 75 = true)) ∧
    ((pathServes tLv (Path.host 0) = true) ∧ (512 ≤ (pathOf tLv (Path.host 0)).level) ∧ (permits tLv (Path.host 0) Who.owner 1 = true) ∧
      ((ringOf tLv 0).st = RingSt.free ∨ (ringOf tLv 0).st = RingSt.reserve) ∧ (ringWhole tLv 0 75 = true)) := by
  and_intros <;> decide +kernel

theorem test_SettingRowsTakeEffect_3 :
    ((pathServes tLv (Path.host 0) = true) ∧ (512 ≤ (pathOf tLv (Path.host 0)).level) ∧ (permits tLv (Path.host 0) Who.owner 1 = true) ∧
      (513 ≤ (pathOf tLv (Path.host 0)).level) ∧ (tLv.box.sideHold = false)) ∧
    ((pathServes tLv (Path.host 0) = true) ∧ (512 ≤ (pathOf tLv (Path.host 0)).level) ∧ (permits tLv (Path.host 0) Who.owner 1 = true) ∧
      (513 ≤ (pathOf tLv (Path.host 0)).level)) ∧
    ((pathServes tLv Path.can = true) ∧ (512 ≤ (pathOf tLv Path.can).level) ∧ (1 ≤ 1)) ∧
    ((pathServes tLv Path.can = true) ∧ (512 ≤ (pathOf tLv Path.can).level) ∧ (0 ≤ 1)) ∧
    ((pathServes tLv Path.can = true) ∧ (512 ≤ (pathOf tLv Path.can).level) ∧ (∀ (q : HPortId), q ≠ 0 → isOwner tLv (↑q : Nat) = false)) := by
  and_intros <;> decide +kernel

theorem test_SettingRowsTakeEffect_4 :
    ((pathServes tLv Path.can = true) ∧ (512 ≤ (pathOf tLv Path.can).level) ∧ (0 ≠ 1) ∧ (isOwner tLv 0 = true)) := by
  and_intros <;> decide +kernel

theorem test_FirmwareIsStagedAndActivated :
    ((pathServes tLv (Path.host 0) = true) ∧ (512 ≤ (pathOf tLv (Path.host 0)).level) ∧ (permits tLv (Path.host 0) Who.ownerOp 1 = true) ∧
      (tLv.box.fwStatus ≠ 1) ∧ ([1, 2].length ≤ 2 ^ 24)) ∧
    ((pathServes tLv (Path.host 0) = true) ∧ (512 ≤ (pathOf tLv (Path.host 0)).level) ∧ (permits tLv (Path.host 0) Who.ownerOp 1 = true) ∧
      (tLv.box.fwStatus ≠ 1) ∧ (([] : List Byte).length ≤ 2 ^ 24)) ∧
    ((pathServes tLc Path.can = true) ∧ (512 ≤ (pathOf tLc Path.can).level) ∧ (permits tLc Path.can Who.ownerOp 1 = true) ∧
      (tLc.box.fwStatus ≠ 1) ∧ ([1, 2].length ≤ 2 ^ 24)) := by
  and_intros <;> decide +kernel

theorem test_FirmwareIsStagedAndActivated_2 :
    ((pathServes tFw (Path.host 0) = true) ∧ (512 ≤ (pathOf tFw (Path.host 0)).level) ∧ (permits tFw (Path.host 0) Who.ownerOp 1 = true) ∧
      (tFw.box.fwStatus = 1) ∧ (tFw.box.fwOwner = some (Path.host 0)) ∧ ((tFw.box.fwBytes ++ [2]).length ≤ 2 ^ 24)) ∧
    ((pathServes tFw2 (Path.host 0) = true) ∧ (512 ≤ (pathOf tFw2 (Path.host 0)).level) ∧
      (permits tFw2 (Path.host 0) Who.ownerOp 1 = true) ∧ (tFw2.box.state ≠ Boot.computeReset) ∧ (tFw2.box.resetStart = none) ∧
      (tFw2.box.pwrPending = false) ∧ (tFw2.box.fwStatus = 2)) ∧
    ((pathServes tFw (Path.host 0) = true) ∧ (512 ≤ (pathOf tFw (Path.host 0)).level) ∧ (permits tFw (Path.host 0) Who.ownerOp 1 = true) ∧
      (tFw.box.state ≠ Boot.computeReset) ∧ (tFw.box.resetStart = none) ∧ (tFw.box.pwrPending = false) ∧ (tFw.box.fwStatus ≠ 2)) := by
  and_intros <;> decide +kernel

theorem test_FirmwareIsStagedAndActivated_3 :
    ((pathServes tFw2 (Path.host 0) = true) ∧ (512 ≤ (pathOf tFw2 (Path.host 0)).level) ∧
      (permits tFw2 (Path.host 0) Who.ownerOp 1 = true) ∧ (tFw2.box.fwStatus = 2)) := by
  and_intros <;> decide +kernel

theorem test_OwnerHealthRowsTakeEffect :
    ((pathServes tLog (Path.host 0) = true) ∧ (512 ≤ (pathOf tLog (Path.host 0)).level) ∧ (permits tLog (Path.host 0) Who.owner 1 = true) ∧
      (5 < 2 ^ 32)) ∧
    ((pathServes tArm (Path.host 0) = true) ∧ (512 ≤ (pathOf tArm (Path.host 0)).level) ∧ (permits tArm (Path.host 0) Who.owner 1 = true) ∧
      (513 ≤ (pathOf tArm (Path.host 0)).level) ∧ (armReason tArm = 0)) ∧
    ((pathServes tLv (Path.host 0) = true) ∧ (512 ≤ (pathOf tLv (Path.host 0)).level) ∧ (permits tLv (Path.host 0) Who.owner 1 = true) ∧
      (513 ≤ (pathOf tLv (Path.host 0)).level) ∧ (armReason tLv ≠ 0)) ∧
    ((pathServes tLv (Path.host 0) = true) ∧ (512 ≤ (pathOf tLv (Path.host 0)).level) ∧ (permits tLv (Path.host 0) Who.owner 1 = true) ∧
      (tLv.box.state = Boot.ready) ∧ (tLv.box.resetStart = none)) := by
  and_intros <;> decide +kernel

theorem test_PortRowsTakeEffect :
    ((pathServes tDis (Path.host 0) = true) ∧ (512 ≤ (pathOf tDis (Path.host 0)).level) ∧
      (permits tDis (Path.host 0) Who.ownerOp (31 + 1) = true) ∧ ((sportOf tDis 31).enable = false)) ∧
    ((pathServes tLv (Path.host 0) = true) ∧ (512 ≤ (pathOf tLv (Path.host 0)).level) ∧
      (permits tLv (Path.host 0) Who.ownerOp (31 + 1) = true)) ∧
    ((pathServes tUp (Path.host 0) = true) ∧ (512 ≤ (pathOf tUp (Path.host 0)).level) ∧
      (permits tUp (Path.host 0) Who.ownerOp (31 + 1) = true) ∧ (255 < 256) ∧ ((sportOf tUp 31).st = SPortSt.up)) := by
  and_intros <;> decide +kernel

theorem test_ModuleAddressAccesses :
    ((pathServes tMem (Path.host 0) = true) ∧ (isOwner tMem 0 = true) ∧ (64 % 8 = 0) ∧ (256 % 8 = 0) ∧ (8 ≤ 256) ∧ (256 ≤ 256) ∧
      (maTarget tMem 64 256 = some (MaTarget.near 0 0 64)) ∧ (64 + 256 ≤ guardSave) ∧ (clauseOnRing tMem (fieldRing 0) = false) ∧
      (dark tMem (fieldRing 0) = false) ∧ (∀ k < 256, latentAt tMem ((nearAddr 0 0 64 + k) / 64 * 8) = none) ∧
      (tierPoisoned tMem (nearAddr 0 0 64) 256 = false) ∧ (inConfig tMem 0 64 256 = false)) := by
  and_intros <;> decide +kernel

theorem test_ModuleAddressAccesses_2 :
    ((pathServes tMem (Path.host 0) = true) ∧ (isOwner tMem 0 = true) ∧ ((BitVec.ofNat 64 (guardSave - 8)).toNat % 8 = 0) ∧ (8 % 8 = 0) ∧
      (8 ≤ 8) ∧ (8 ≤ 256) ∧ (maTarget tMem (BitVec.ofNat 64 (guardSave - 8)).toNat 8 = some (MaTarget.near 0 0 (guardSave - 8))) ∧
      (guardSave - 8 + 8 ≤ guardSave) ∧ (clauseOnRing tMem (fieldRing 0) = false) ∧ (dark tMem (fieldRing 0) = false) ∧
      (∀ k < 8, latentAt tMem ((nearAddr 0 0 (guardSave - 8) + k) / 64 * 8) = none) ∧
      (tierPoisoned tMem (nearAddr 0 0 (guardSave - 8)) 8 = false) ∧ (inConfig tMem 0 (guardSave - 8) 8 = false)) := by
  and_intros <;> decide +kernel

theorem test_ModuleAddressAccesses_3 :
    ((pathServes tMem (Path.host 0) = true) ∧ (isOwner tMem 0 = true) ∧ (64 % 8 = 0) ∧ ((List.replicate 248 3).length % 8 = 0) ∧
      (8 ≤ (List.replicate 248 3).length) ∧ ((List.replicate 248 3).length ≤ 248) ∧
      (maTarget tMem 64 (List.replicate 248 3).length = some (MaTarget.near 0 0 64)) ∧ (64 + (List.replicate 248 3).length ≤ guardSave) ∧
      (clauseOnRing tMem (fieldRing 0) = false) ∧ (dark tMem (fieldRing 0) = false)) ∧
    ((pathServes tMemD (Path.host 0) = true) ∧ (isOwner tMemD 0 = true) ∧ (64 % 8 = 0) ∧ (256 % 8 = 0) ∧ (8 ≤ 256) ∧ (256 ≤ 256) ∧
      (maTarget tMemD 64 256 = some (MaTarget.near 0 0 64)) ∧ (clauseOnRing tMemD (fieldRing 0) = true ∨ dark tMemD (fieldRing 0) = true)) := by
  and_intros <;> decide +kernel

theorem test_ModuleAddressAccesses_4 :
    ((pathServes tMem (Path.host 0) = true) ∧ (isOwner tMem 0 = true) ∧
      (maTarget tMem 17293822569102704640 (List.replicate 8 3).length = none) ∧ (17293822569102704640 % 8 = 0) ∧
      ((List.replicate 8 3).length % 8 = 0)) ∧
    ((pathServes tMem (Path.host 0) = true) ∧ (isOwner tMem 0 = true)) ∧
    ((pathServes tMem (Path.host 0) = true) ∧ (isOwner tMem 0 = true) ∧ (512 ≤ (pathOf tMem (Path.host 0)).level) ∧ (500 ≤ 500) ∧
      (500 ≤ 100000)) := by
  and_intros <;> decide +kernel

theorem test_PoolFenceAndRouterRegisters :
    ((dark tPool 0 = false)) ∧
    ((dark tPoolDark 0 = true) ∧ (Instr.poolStatus 0 ∈ [Instr.poolStatus 0, Instr.fenceCount 0])) ∧
    ((dark tPoolDark 0 = true) ∧ (Instr.fenceCount 0 ∈ [Instr.poolStatus 0, Instr.fenceCount 0])) ∧
    ((clauseOnRing tPoolDark 0 = true ∨ dark tPoolDark 0 = true)) ∧
    ((clauseOnRing tPool 0 = false) ∧ (dark tPool 0 = false) ∧ (1 ≠ 384) ∧ (1 ≠ 385) ∧ (1 ≠ 387)) ∧
    ((clauseOnRing tPool 0 = false) ∧ (dark tPool 0 = false) ∧ (386 ≠ 384) ∧ (386 ≠ 385) ∧ (386 ≠ 387)) ∧
    ((clauseOnRing tPool 0 = false) ∧ (dark tPool 0 = false) ∧ (384 = 384 ∨ 384 = 385)) := by
  and_intros <;> decide +kernel

theorem test_PoolFenceAndRouterRegisters_2 :
    ((clauseOnRing tPool 0 = false) ∧ (dark tPool 0 = false)) ∧
    ((clauseOnRing tRun 3 = true ∨ dark tRun 3 = true)) := by
  and_intros <;> decide +kernel

theorem test_TickCountsAndAppliesWhatWaited :
    ((tTick.box.state = Boot.ready) ∧ (tTick.box.resetStart = none) ∧ (tTick.tens = [])) ∧
    ((tCr.box.state = Boot.computeReset) ∧ (tCr.box.pwrPending = true)) ∧
    ((tHeld.box.state = Boot.held ∧ runningTens tHeld = [] ∨ tHeld.box.state = Boot.failed)) := by
  and_intros <;> decide +kernel

theorem test_BeatsCommitReplayOrOverrun :
    (((tenOf tPend 2).run = some { sentBeat := 5, phase := Phase.work, begun := true, pendingBeat := some 4 : Run })) ∧
    (((tenOf tRun 2).run = some { phase := Phase.work, begun := true : Run })) ∧
    (((tenOf tGr 2).run = some { phase := Phase.grace, begun := true : Run })) ∧
    (((tenOf tFail 2).run = some { workBeat := 2, sentBeat := 5, phase := Phase.work, begun := true, fails := [mechCsum], history := [{ beat := 5, clause := 0, workBeat := 2, passes := [] : BeatPos }] : Run }) ∧
      (mechProgram ∉ [mechCsum]) ∧ (mechNoRestore ∉ [mechCsum]) ∧ (mechDead ∉ [mechCsum]) ∧ (mechAgain ∉ [mechCsum]) ∧
      (0 < 2 ∨ 0 + escWindow < tFail.time.uptime) ∧
      (List.find? (fun h => decide (h.beat = 5)) [{ beat := 5, clause := 0, workBeat := 2, passes := [] : BeatPos }] = some { beat := 5, clause := 0, workBeat := 2, passes := [] : BeatPos })) ∧
    (((tenOf tFull2 2).run = some rFull) ∧ (guardFull tFull2 2 = true)) := by
  and_intros <;> decide +kernel

theorem test_ClauseEventsTakeEffect :
    (((tenOf tGcw 2).run = some { phase := Phase.work, begun := true, copies := [gc] : Run }) ∧ (copyWaits tGcw 2 = true)) ∧
    (((tenOf tGc 2).run = some { phase := Phase.work, begun := true, copies := [gc] : Run }) ∧
      (List.find? (fun g => !g.done) [gc] = some gc) ∧ (copyWaits tGc 2 = false)) ∧
    (((tenOf tSt 2).run = some { phase := Phase.load, begun := true, staged := false, stageAt := some 5 : Run })) ∧
    (((tenOf tSt 2).run = some { phase := Phase.load, begun := true, staged := false, stageAt := some 5 : Run }) ∧
      (false = false ∨ false = false ∧ longBroadcast tSt 2 = true) ∧ (5 + tSt.box.set.stallMs * 1000000 ≤ tSt.time.uptime) ∧
      ((tenOf tSt 2).destroyBy = none) ∧ ((tenOf tSt 2).rings ≠ [])) ∧
    (((tenOf tHo 2).run = some { phase := Phase.hold 5, begun := true : Run }) ∧ (5 + tHo.box.set.stallMs * 1000000 ≤ tHo.time.uptime) ∧
      ((tenOf tHo 2).destroyBy = none) ∧ ((tenOf tHo 2).rings ≠ [])) ∧
    (((tenOf tHg 2).run = some { phase := Phase.hang 0, begun := true : Run }) ∧ (0 + 12288 ≤ tHg.time.cc) ∧
      (waitCycle (clauseWaits tHg 2) = []) ∧ (((clauseWaits tHg 2).any fun x => x.ext) = true)) := by
  and_intros <;> decide +kernel

theorem test_ScheduledVerbsIssueAtTheirStamps :
    ((issues (tileOf tOn 0) (waitsIn (tileOf tOn 0) 5) = false ∨ halts tOn (siteRing 0) = true ∨ mirrorOn tOn 0 = true ∧ (tileOf tOn 0).role = 2 ∨ waitHeld tOn 0 5 (actCc tOn 0 (vb 63 [])) = true)) ∧
    ((issues (tileOf tM 9) (waitsIn (tileOf tM 9) 5) = false ∨ halts tM (siteRing 9) = true ∨ mirrorOn tM 9 = true ∧ (tileOf tM 9).role = 2 ∨ waitHeld tM 9 5 (actCc tM 9 (vb 63 [])) = true)) ∧
    ((¬(issues (tileOf tM 0) (waitsIn (tileOf tM 0) 5) = false ∨ halts tM (siteRing 0) = true ∨ mirrorOn tM 0 = true ∧ (tileOf tM 0).role = 2 ∨ waitHeld tM 0 5 (actCc tM 0 (vb 63 [])) = true)) ∧
      (goTrap (atStamp tM 0 (vb 63 [])) 0 5 (restOf tM 0 5 (nopInfo (vb 63 []))) (vb 63 []) (actCc tM 0 (vb 63 [])) = none) ∧
      (mirrorOn (atStamp tM 0 (vb 63 [])) 0 = true) ∧ ((tileOf (atStamp tM 0 (vb 63 [])) 0).role = 1) ∧
      (nopEff (atStamp tM 0 (vb 63 [])) 0 (vb 63 []) (actCc tM 0 (vb 63 [])) = VRes.done tM1 []) ∧
      (nopEff tM1 (0 + 9) (vb 63 []) (actCc tM 0 (vb 63 [])) = VRes.done tM1 []) ∧ (carryHit (atStamp tM 0 (vb 63 [])) ([] ++ []) = false)) ∧
    ((¬(issues (tileOf tV 0) (waitsIn (tileOf tV 0) 5) = false ∨ halts tV (siteRing 0) = true ∨ mirrorOn tV 0 = true ∧ (tileOf tV 0).role = 2 ∨ waitHeld tV 0 5 (actCc tV 0 (vb 63 [(32, 1)])) = true)) ∧
      (goTrap (atStamp tV 0 (vb 63 [(32, 1)])) 0 5 (restOf tV 0 5 (nopInfo (vb 63 [(32, 1)]))) (vb 63 [(32, 1)]) (actCc tV 0 (vb 63 [(32, 1)])) = some 3)) ∧
    ((¬(issues (tileOf tV 0) (waitsIn (tileOf tV 0) 5) = false ∨ halts tV (siteRing 0) = true ∨ mirrorOn tV 0 = true ∧ (tileOf tV 0).role = 2 ∨ waitHeld tV 0 5 (actCc tV 0 (vb 63 [])) = true)) ∧
      (goTrap (atStamp tV 0 (vb 63 [])) 0 5 (restOf tV 0 5 (nopInfo (vb 63 []))) (vb 63 []) (actCc tV 0 (vb 63 [])) = none) ∧
      (mirrorOn (atStamp tV 0 (vb 63 [])) 0 = false ∨ (tileOf (atStamp tV 0 (vb 63 [])) 0).role ≠ 1) ∧
      (nopEff (atStamp tV 0 (vb 63 [])) 0 (vb 63 []) (actCc tV 0 (vb 63 [])) = VRes.done tV1 []) ∧
      (carryHit (atStamp tV 0 (vb 63 [])) [] = false)) := by
  and_intros <;> first | (with_reducible refine done_of ?_; decide +kernel) | decide +kernel

theorem test_ScheduledVerbsIssueAtTheirStamps_2 :
    ((¬(issues (tileOf tV 0) (waitsIn (tileOf tV 0) 5) = false ∨ halts tV (siteRing 0) = true ∨ mirrorOn tV 0 = true ∧ (tileOf tV 0).role = 2 ∨ waitHeld tV 0 5 (actCc tV 0 rxV 7) = true)) ∧
      (goTrap (atStamp tV 0 rxV 7) 0 5 (restOf tV 0 5 (chanInfo true rxV)) rxV (actCc tV 0 rxV 7) = none) ∧
      (mirrorOn (atStamp tV 0 rxV 7) 0 = false ∨ (tileOf (atStamp tV 0 rxV 7) 0).role ≠ 1) ∧
      (recvEff (atStamp tV 0 rxV 7) 0 rxV (actCc tV 0 rxV 7) = VRes.wait (atStamp tV 0 rxV 7) [] 0 (waitRecv (tileOf (atStamp tV 0 rxV 7) 0) 4 1 2))) ∧
    ((¬(issues (tileOf (tMr [] [] { : SendCh } { : SendCh }) 0) (waitsIn (tileOf (tMr [] [] { : SendCh } { : SendCh }) 0) 5) = false ∨ halts (tMr [] [] { : SendCh } { : SendCh }) (siteRing 0) = true ∨ mirrorOn (tMr [] [] { : SendCh } { : SendCh }) 0 = true ∧ (tileOf (tMr [] [] { : SendCh } { : SendCh }) 0).role = 2 ∨ waitHeld (tMr [] [] { : SendCh } { : SendCh }) 0 5 (actCc (tMr [] [] { : SendCh } { : SendCh }) 0 rxV 7) = true)) ∧
      (goTrap (atStamp (tMr [] [] { : SendCh } { : SendCh }) 0 rxV 7) 0 5 (restOf (tMr [] [] { : SendCh } { : SendCh }) 0 5 (chanInfo true rxV)) rxV (actCc (tMr [] [] { : SendCh } { : SendCh }) 0 rxV 7) = none) ∧
      (mirrorOn (atStamp (tMr [] [] { : SendCh } { : SendCh }) 0 rxV 7) 0 = true) ∧
      ((tileOf (atStamp (tMr [] [] { : SendCh } { : SendCh }) 0 rxV 7) 0).role = 1) ∧
      (recvEff (atStamp (tMr [] [] { : SendCh } { : SendCh }) 0 rxV 7) 0 rxV (actCc (tMr [] [] { : SendCh } { : SendCh }) 0 rxV 7) = VRes.wait (effD (mrI [] [])).1 (effD (mrI [] [])).2 (effW (mrI [] [])).1 (effW (mrI [] [])).2) ∧
      (recvEff (effD (mrI [] [])).1 (0 + 9) rxV (actCc (tMr [] [] { : SendCh } { : SendCh }) 0 rxV 7) = VRes.wait (effD (mrJ [] [])).1 (effD (mrJ [] [])).2 (effW (mrJ [] [])).1 (effW (mrJ [] [])).2)) := by
  and_intros <;> first | (with_reducible refine wait_of ?_; decide +kernel) | decide +kernel

theorem test_ScheduledVerbsIssueAtTheirStamps_3 :
    ((¬(issues (tileOf (tMr [77] [] { : SendCh } { : SendCh }) 0) (waitsIn (tileOf (tMr [77] [] { : SendCh } { : SendCh }) 0) 5) = false ∨ halts (tMr [77] [] { : SendCh } { : SendCh }) (siteRing 0) = true ∨ mirrorOn (tMr [77] [] { : SendCh } { : SendCh }) 0 = true ∧ (tileOf (tMr [77] [] { : SendCh } { : SendCh }) 0).role = 2 ∨ waitHeld (tMr [77] [] { : SendCh } { : SendCh }) 0 5 (actCc (tMr [77] [] { : SendCh } { : SendCh }) 0 rxV 7) = true)) ∧
      (goTrap (atStamp (tMr [77] [] { : SendCh } { : SendCh }) 0 rxV 7) 0 5 (restOf (tMr [77] [] { : SendCh } { : SendCh }) 0 5 (chanInfo true rxV)) rxV (actCc (tMr [77] [] { : SendCh } { : SendCh }) 0 rxV 7) = none) ∧
      (mirrorOn (atStamp (tMr [77] [] { : SendCh } { : SendCh }) 0 rxV 7) 0 = true) ∧
      ((tileOf (atStamp (tMr [77] [] { : SendCh } { : SendCh }) 0 rxV 7) 0).role = 1) ∧
      (recvEff (atStamp (tMr [77] [] { : SendCh } { : SendCh }) 0 rxV 7) 0 rxV (actCc (tMr [77] [] { : SendCh } { : SendCh }) 0 rxV 7) = VRes.done (effD (mrI [77] [])).1 (effD (mrI [77] [])).2) ∧
      (recvEff (effD (mrI [77] [])).1 (0 + 9) rxV (actCc (tMr [77] [] { : SendCh } { : SendCh }) 0 rxV 7) = VRes.wait (effD (mrJ [77] [])).1 (effD (mrJ [77] [])).2 (effW (mrJ [77] [])).1 (effW (mrJ [77] [])).2)) := by
  and_intros <;> first | (with_reducible refine done_of ?_; decide +kernel) | (with_reducible refine wait_of ?_; decide +kernel) | decide +kernel

theorem test_ScheduledVerbsIssueAtTheirStamps_4 :
    ((¬(issues (tileOf (tMr [] [77] { : SendCh } { : SendCh }) 0) (waitsIn (tileOf (tMr [] [77] { : SendCh } { : SendCh }) 0) 5) = false ∨ halts (tMr [] [77] { : SendCh } { : SendCh }) (siteRing 0) = true ∨ mirrorOn (tMr [] [77] { : SendCh } { : SendCh }) 0 = true ∧ (tileOf (tMr [] [77] { : SendCh } { : SendCh }) 0).role = 2 ∨ waitHeld (tMr [] [77] { : SendCh } { : SendCh }) 0 5 (actCc (tMr [] [77] { : SendCh } { : SendCh }) 0 rxV 7) = true)) ∧
      (goTrap (atStamp (tMr [] [77] { : SendCh } { : SendCh }) 0 rxV 7) 0 5 (restOf (tMr [] [77] { : SendCh } { : SendCh }) 0 5 (chanInfo true rxV)) rxV (actCc (tMr [] [77] { : SendCh } { : SendCh }) 0 rxV 7) = none) ∧
      (mirrorOn (atStamp (tMr [] [77] { : SendCh } { : SendCh }) 0 rxV 7) 0 = true) ∧
      ((tileOf (atStamp (tMr [] [77] { : SendCh } { : SendCh }) 0 rxV 7) 0).role = 1) ∧
      (recvEff (atStamp (tMr [] [77] { : SendCh } { : SendCh }) 0 rxV 7) 0 rxV (actCc (tMr [] [77] { : SendCh } { : SendCh }) 0 rxV 7) = VRes.wait (effD (mrI [] [77])).1 (effD (mrI [] [77])).2 (effW (mrI [] [77])).1 (effW (mrI [] [77])).2) ∧
      (recvEff (effD (mrI [] [77])).1 (0 + 9) rxV (actCc (tMr [] [77] { : SendCh } { : SendCh }) 0 rxV 7) = VRes.done (effD (mrJ [] [77])).1 (effD (mrJ [] [77])).2)) := by
  and_intros <;> first | (with_reducible refine done_of ?_; decide +kernel) | (with_reducible refine wait_of ?_; decide +kernel) | decide +kernel

theorem test_ScheduledVerbsIssueAtTheirStamps_5 :
    ((¬(issues (tileOf (tMr [] [] (txC 2) txF) 0) (waitsIn (tileOf (tMr [] [] (txC 2) txF) 0) 5) = false ∨ halts (tMr [] [] (txC 2) txF) (siteRing 0) = true ∨ mirrorOn (tMr [] [] (txC 2) txF) 0 = true ∧ (tileOf (tMr [] [] (txC 2) txF) 0).role = 2 ∨ waitHeld (tMr [] [] (txC 2) txF) 0 5 (actCc (tMr [] [] (txC 2) txF) 0 txV 7) = true)) ∧
      (goTrap (atStamp (tMr [] [] (txC 2) txF) 0 txV 7) 0 5 (restOf (tMr [] [] (txC 2) txF) 0 5 (chanInfo false txV)) txV (actCc (tMr [] [] (txC 2) txF) 0 txV 7) = none) ∧
      (mirrorOn (atStamp (tMr [] [] (txC 2) txF) 0 txV 7) 0 = true) ∧ ((tileOf (atStamp (tMr [] [] (txC 2) txF) 0 txV 7) 0).role = 1) ∧
      (sendEff (atStamp (tMr [] [] (txC 2) txF) 0 txV 7) 0 txV (actCc (tMr [] [] (txC 2) txF) 0 txV 7) = VRes.done (effD (mxI 2)).1 (effD (mxI 2)).2) ∧
      (sendEff (effD (mxI 2)).1 (0 + 9) txV (actCc (tMr [] [] (txC 2) txF) 0 txV 7) = VRes.trap 3)) ∧
    ((¬(issues (tileOf (tMr [] [] (txC 0) txF) 0) (waitsIn (tileOf (tMr [] [] (txC 0) txF) 0) 5) = false ∨ halts (tMr [] [] (txC 0) txF) (siteRing 0) = true ∨ mirrorOn (tMr [] [] (txC 0) txF) 0 = true ∧ (tileOf (tMr [] [] (txC 0) txF) 0).role = 2 ∨ waitHeld (tMr [] [] (txC 0) txF) 0 5 (actCc (tMr [] [] (txC 0) txF) 0 txV 7) = true)) ∧
      (goTrap (atStamp (tMr [] [] (txC 0) txF) 0 txV 7) 0 5 (restOf (tMr [] [] (txC 0) txF) 0 5 (chanInfo false txV)) txV (actCc (tMr [] [] (txC 0) txF) 0 txV 7) = none) ∧
      (mirrorOn (atStamp (tMr [] [] (txC 0) txF) 0 txV 7) 0 = true) ∧ ((tileOf (atStamp (tMr [] [] (txC 0) txF) 0 txV 7) 0).role = 1) ∧
      (sendEff (atStamp (tMr [] [] (txC 0) txF) 0 txV 7) 0 txV (actCc (tMr [] [] (txC 0) txF) 0 txV 7) = VRes.wait (effD (mxI 0)).1 (effD (mxI 0)).2 (effW (mxI 0)).1 (effW (mxI 0)).2) ∧
      (sendEff (effD (mxI 0)).1 (0 + 9) txV (actCc (tMr [] [] (txC 0) txF) 0 txV 7) = VRes.trap 3)) := by
  and_intros <;> first | (with_reducible refine done_of ?_; decide +kernel) | (with_reducible refine trap_of ?_; decide +kernel) | (with_reducible refine wait_of ?_; decide +kernel) | decide +kernel

theorem test_ScheduledVerbsIssueAtTheirStamps_6 :
    ((¬(issues (tileOf tCar 0) (waitsIn (tileOf tCar 0) 5) = false ∨ halts tCar (siteRing 0) = true ∨ mirrorOn tCar 0 = true ∧ (tileOf tCar 0).role = 2 ∨ waitHeld tCar 0 5 (actCc tCar 0 rxC 7) = true)) ∧
      (goTrap (atStamp tCar 0 rxC 7) 0 5 (restOf tCar 0 5 (chanInfo true rxC)) rxC (actCc tCar 0 rxC 7) = none) ∧
      (mirrorOn (atStamp tCar 0 rxC 7) 0 = false ∨ (tileOf (atStamp tCar 0 rxC 7) 0).role ≠ 1) ∧
      (recvEff (atStamp tCar 0 rxC 7) 0 rxC (actCc tCar 0 rxC 7) = VRes.done tCarE.1 tCarE.2) ∧
      (carryHit (atStamp tCar 0 rxC 7) tCarE.2 = true)) ∧
    ((¬(issues (tileOf tCatch 0) (waitsIn (tileOf tCatch 0) 5) = false ∨ halts tCatch (siteRing 0) = true ∨ mirrorOn tCatch 0 = true ∧ (tileOf tCatch 0).role = 2 ∨ waitHeld tCatch 0 5 (actCc tCatch 0 (mmaV 0)) = true)) ∧
      (goTrap (atStamp tCatch 0 (mmaV 0)) 0 5 (restOf tCatch 0 5 (mmaInfo false (mmaV 0))) (mmaV 0) (actCc tCatch 0 (mmaV 0)) = none) ∧
      (mmaEff false (atStamp tCatch 0 (mmaV 0)) 0 (mmaV 0) (actCc tCatch 0 (mmaV 0)) = VRes.trap 6)) := by
  and_intros <;> first | (with_reducible refine done_of ?_; decide +kernel) | (with_reducible refine trap_of ?_; decide +kernel) | decide +kernel

theorem test_NopHoldsNoUnitAndCompletesAtOnce :
    ((issues (tileOf tV 0) (waitsIn (tileOf tV 0) 5) = true) ∧ (halts tV (siteRing 0) = false) ∧ (mirrorOn tV 0 = false) ∧
      (waitHeld tV 0 5 (actCc tV 0 (vb 63 [])) = false) ∧
      (goTrap (atStamp tV 0 (vb 63 [])) 0 5 (restOf tV 0 5 (nopInfo (vb 63 []))) (vb 63 []) (actCc tV 0 (vb 63 [])) = none)) ∧
    ((fld (vb 63 [(127, 1)]) 32 96 ≠ 0) ∧ (issues (tileOf tV 0) false = true) ∧ (halts tV (siteRing 0) = false) ∧
      ((mirrorOn tV 0 && decide ((tileOf tV 0).role = 2)) = false) ∧ (waitsIn (tileOf tV 0) 5 = false) ∧
      ((tileOf tV 0).badParity.contains 5 = false)) := by
  and_intros <;> decide +kernel

theorem test_ReservedVerbsTrapTheirTile :
    ((issues (tileOf tV 0) false = true) ∧ (halts tV (siteRing 0) = false) ∧ ((mirrorOn tV 0 && decide ((tileOf tV 0).role = 2)) = false) ∧
      (waitsIn (tileOf tV 0) 8191 = false) ∧ ((tileOf tV 0).badParity.contains 8191 = false)) ∧
    ((64 ≤ fld (vb 255 []) 0 8)) ∧
    ((coreRuns (tileOf tIss 0) = true) ∧ (halts tIss (siteRing 0) = false) ∧ (coreHeld tIss 0 (beatCc tIss) = false) ∧
      ((tileOf tIss 0).badParity.contains (2 ^ 16 + (tileOf tIss 0).core.pc) = false) ∧ ((tileOf tIss 0).core.pc < 16384) ∧
      (guardOk (tileOf tIss 0) (flds 32 [(22, 40), (12, 2)]) = true) ∧ (opRa (flds 32 [(22, 40), (12, 2)]) % 2 = 0) ∧
      (255 = BitVec.ofNat 128 ((gReg (tileOf tIss 0) (opRa (flds 32 [(22, 40), (12, 2)]))).toNat + (gReg (tileOf tIss 0) (opRa (flds 32 [(22, 40), (12, 2)]) + 1)).toNat * 2 ^ 64)) ∧
      (64 ≤ fld (255 : BitVec 128) 0 8)) := by
  and_intros <;> decide +kernel

theorem test_EngineVerbsComputeTheirBlocks :
    ((issues (tileOf tV 0) (waitsIn (tileOf tV 0) 5) = true) ∧ (halts tV (siteRing 0) = false) ∧ (mirrorOn tV 0 = false) ∧
      (waitHeld tV 0 5 (actCc tV 0 (mmaV 0)) = false) ∧
      (goTrap (atStamp tV 0 (mmaV 0)) 0 5 (restOf tV 0 5 (mmaInfo false (mmaV 0))) (mmaV 0) (actCc tV 0 (mmaV 0)) = none) ∧
      ((tileOf tV 0).role = 0) ∧
      (∀ o ∈ (tileOf tV 0).oldRows, actCc tV 0 (mmaV 0) ≤ o.w → o.row < eCRow (mmaV 0) ∨ eCRow (mmaV 0) + outRows (eFo (mmaV 0)) (eOut (mmaV 0)) (eCk (mmaV 0)) ≤ o.row) ∧
      (engReady (tileOf tV 0) (mmaV 0) (actCc tV 0 (mmaV 0) + 5 + mmaQ false (mmaV 0) + mmaP (mmaV 0)) (drainCc (eOut (mmaV 0)) (eCk (mmaV 0))) = none) ∧
      (opRows (atStamp tV 0 (mmaV 0)) 0 (eSrcB (mmaV 0)) (eBRow (mmaV 0)) (actCc tV 0 (mmaV 0)) (panelB (mmaV 0)) (rowsB (mmaV 0)) (mmaP (mmaV 0)) (mmaQ false (mmaV 0)) 1 = some ((r1 false (mmaV 0)).1, (r1 false (mmaV 0)).2)) ∧
      (opRows (setDrain (r1 false (mmaV 0)).1 0 (actCc tV 0 (mmaV 0) + 5 + mmaQ false (mmaV 0) + mmaP (mmaV 0)) (drainCc (eOut (mmaV 0)) (eCk (mmaV 0)))) 0 (eSrcA (mmaV 0)) (eARow (mmaV 0)) (actCc tV 0 (mmaV 0)) (panelA false (mmaV 0)) (rowsA false (mmaV 0)) (mmaP (mmaV 0)) (mmaQ false (mmaV 0)) 0 = some ((r2 false (mmaV 0)).1, (r2 false (mmaV 0)).2)) ∧
      (∀ k < outRows (eFo (mmaV 0)) (eOut (mmaV 0)) (eCk (mmaV 0)), carryBroken (tileOf tV 0) (eCRow (mmaV 0) + k) 1 = false)) := by
  and_intros <;> first | (refine some_of (d := (tV, [])) ?_; decide +kernel) | decide +kernel

theorem test_EngineVerbsComputeTheirBlocks_2 :
    ((issues (tileOf tV 0) (waitsIn (tileOf tV 0) 5) = true) ∧ (halts tV (siteRing 0) = false) ∧ (mirrorOn tV 0 = false) ∧
      (waitHeld tV 0 5 (actCc tV 0 (mmaV 1)) = false) ∧
      (goTrap (atStamp tV 0 (mmaV 1)) 0 5 (restOf tV 0 5 (mmaInfo true (mmaV 1))) (mmaV 1) (actCc tV 0 (mmaV 1)) = none) ∧
      ((tileOf tV 0).role = 0) ∧
      (∀ o ∈ (tileOf tV 0).oldRows, actCc tV 0 (mmaV 1) ≤ o.w → o.row < eCRow (mmaV 1) ∨ eCRow (mmaV 1) + outRows (eFo (mmaV 1)) (eOut (mmaV 1)) (eCk (mmaV 1)) ≤ o.row) ∧
      (engReady (tileOf tV 0) (mmaV 1) (actCc tV 0 (mmaV 1) + 5 + mmaQ true (mmaV 1) + mmaP (mmaV 1)) (drainCc (eOut (mmaV 1)) (eCk (mmaV 1))) = none) ∧
      (opRows (atStamp tV 0 (mmaV 1)) 0 (eSrcB (mmaV 1)) (eBRow (mmaV 1)) (actCc tV 0 (mmaV 1)) (panelB (mmaV 1)) (rowsB (mmaV 1)) (mmaP (mmaV 1)) (mmaQ true (mmaV 1)) 1 = some ((r1 true (mmaV 1)).1, (r1 true (mmaV 1)).2)) ∧
      (opRows (setDrain (r1 true (mmaV 1)).1 0 (actCc tV 0 (mmaV 1) + 5 + mmaQ true (mmaV 1) + mmaP (mmaV 1)) (drainCc (eOut (mmaV 1)) (eCk (mmaV 1)))) 0 (eSrcA (mmaV 1)) (eARow (mmaV 1)) (actCc tV 0 (mmaV 1)) (panelA true (mmaV 1)) (rowsA true (mmaV 1)) (mmaP (mmaV 1)) (mmaQ true (mmaV 1)) 0 = some ((r2 true (mmaV 1)).1, (r2 true (mmaV 1)).2)) ∧
      (∀ k < outRows (eFo (mmaV 1)) (eOut (mmaV 1)) (eCk (mmaV 1)), carryBroken (tileOf tV 0) (eCRow (mmaV 1) + k) 1 = false)) ∧
    ((issues (tileOf tV 0) (waitsIn (tileOf tV 0) 5) = true) ∧ (halts tV (siteRing 0) = false) ∧ (mirrorOn tV 0 = false) ∧
      (waitHeld tV 0 5 (actCc tV 0 mmaXV) = false) ∧
      (goTrap (atStamp tV 0 mmaXV) 0 5 (restOf tV 0 5 (mmaXInfo mmaXV)) mmaXV (actCc tV 0 mmaXV) = none) ∧ ((tileOf tV 0).role = 0) ∧
      (∀ o ∈ (tileOf tV 0).oldRows, actCc tV 0 mmaXV ≤ o.w → o.row < eCRow mmaXV ∨ eCRow mmaXV + outRows (eFo mmaXV) (eOut mmaXV) (eCk mmaXV) ≤ o.row) ∧
      (engReady (tileOf tV 0) mmaXV (actCc tV 0 mmaXV + 5 + withCk (eCk mmaXV) (eK mmaXV)) (drainCc (eOut mmaXV) (eCk mmaXV)) = none) ∧
      (∀ k < outRows (eFo mmaXV) (eOut mmaXV) (eCk mmaXV), carryBroken (tileOf tV 0) (eCRow mmaXV + k) 1 = false)) := by
  and_intros <;> first | (refine some_of (d := (tV, [])) ?_; decide +kernel) | decide +kernel

theorem test_EngineVerbsComputeTheirBlocks_3 :
    (((tileOf tCatch 0).role = 2) ∧ (issues (tileOf tCatch 0) (waitsIn (tileOf tCatch 0) 5) = true) ∧ (halts tCatch (siteRing 0) = false) ∧
      (mirrorOn tCatch 0 = false) ∧ (waitHeld tCatch 0 5 (actCc tCatch 0 (mmaV 0)) = false) ∧
      (goTrap (atStamp tCatch 0 (mmaV 0)) 0 5 (restOf tCatch 0 5 (mmaInfo false (mmaV 0))) (mmaV 0) (actCc tCatch 0 (mmaV 0)) = none)) ∧
    (((tileOf tCatch 0).role = 2) ∧ (issues (tileOf tCatch 0) (waitsIn (tileOf tCatch 0) 5) = true) ∧ (halts tCatch (siteRing 0) = false) ∧
      (mirrorOn tCatch 0 = false) ∧ (waitHeld tCatch 0 5 (actCc tCatch 0 mmaXV) = false) ∧
      (goTrap (atStamp tCatch 0 mmaXV) 0 5 (restOf tCatch 0 5 (mmaXInfo mmaXV)) mmaXV (actCc tCatch 0 mmaXV) = none)) := by
  and_intros <;> decide +kernel

theorem test_SpecialFunctionVerbsWriteTheirRows :
    ((issues (tileOf tV 0) (waitsIn (tileOf tV 0) 5) = true) ∧ (halts tV (siteRing 0) = false) ∧ (mirrorOn tV 0 = false) ∧
      (waitHeld tV 0 5 (actCc tV 0 (sfuV 0 0)) = false) ∧
      (goTrap (atStamp tV 0 (sfuV 0 0)) 0 5 (restOf tV 0 5 (sfuInfo (sfuV 0 0))) (sfuV 0 0) (actCc tV 0 (sfuV 0 0)) = none) ∧
      (∀ o ∈ (tileOf tV 0).oldRows, actCc tV 0 (sfuV 0 0) ≤ o.w → o.row < fld (sfuV 0 0) 58 13 ∨ fld (sfuV 0 0) 58 13 + rowsOf (sN (sfuV 0 0)) (fbits (sFo (sfuV 0 0))) ≤ o.row) ∧
      (srcRows (atStamp tV 0 (sfuV 0 0)) 0 (sSrc (sfuV 0 0)) (fld (sfuV 0 0) 32 13) (actCc tV 0 (sfuV 0 0)) (readUse 0 (rowsOf (sN (sfuV 0 0)) (fbits (sFi (sfuV 0 0)))) (sfuInfo (sfuV 0 0)).occ) (rowsOf (sN (sfuV 0 0)) (fbits (sFi (sfuV 0 0)))) = some ((sfuR (sfuV 0 0)).1, (sfuR (sfuV 0 0)).2)) ∧
      (∀ k < rowsOf (sN (sfuV 0 0)) (fbits (sFo (sfuV 0 0))), carryBroken (tileOf tV 0) (fld (sfuV 0 0) 58 13 + k) 1 = false) ∧
      (∀ e < sN (sfuV 0 0), byteValid (sfuR (sfuV 0 0)).2 (fbits (sFi (sfuV 0 0)) * e / 8) = true)) ∧
    ((issues (tileOf tV 0) (waitsIn (tileOf tV 0) 5) = true) ∧ (halts tV (siteRing 0) = false) ∧ (mirrorOn tV 0 = false) ∧
      (waitHeld tV 0 5 (actCc tV 0 (sfuV 16 0)) = false) ∧
      (goTrap (atStamp tV 0 (sfuV 16 0)) 0 5 (restOf tV 0 5 (sfuInfo (sfuV 16 0))) (sfuV 16 0) (actCc tV 0 (sfuV 16 0)) = none) ∧
      (∀ o ∈ (tileOf tV 0).oldRows, actCc tV 0 (sfuV 16 0) ≤ o.w → o.row < fld (sfuV 16 0) 58 13 ∨ fld (sfuV 16 0) 58 13 + rowsOf (sN (sfuV 16 0)) (fbits (sFo (sfuV 16 0))) ≤ o.row) ∧
      (srcRows (atStamp tV 0 (sfuV 16 0)) 0 (sSrc (sfuV 16 0)) (fld (sfuV 16 0) 32 13) (actCc tV 0 (sfuV 16 0)) (readUse 0 (rowsOf (sN (sfuV 16 0)) (fbits (sFi (sfuV 16 0)))) (sfuInfo (sfuV 16 0)).occ) (rowsOf (sN (sfuV 16 0)) (fbits (sFi (sfuV 16 0)))) = some ((sfuR (sfuV 16 0)).1, (sfuR (sfuV 16 0)).2)) ∧
      (∀ k < rowsOf (sN (sfuV 16 0)) (fbits (sFo (sfuV 16 0))), carryBroken (tileOf tV 0) (fld (sfuV 16 0) 58 13 + k) 1 = false) ∧
      (∀ e < sN (sfuV 16 0), byteValid (sfuR (sfuV 16 0)).2 (fbits (sFi (sfuV 16 0)) * e / 8) = true)) := by
  and_intros <;> decide +kernel

theorem test_SpecialFunctionVerbsWriteTheirRows_2 :
    ((issues (tileOf tV 0) (waitsIn (tileOf tV 0) 5) = true) ∧ (halts tV (siteRing 0) = false) ∧ (mirrorOn tV 0 = false) ∧
      (waitHeld tV 0 5 (actCc tV 0 (sfuV 32 0)) = false) ∧
      (goTrap (atStamp tV 0 (sfuV 32 0)) 0 5 (restOf tV 0 5 (sfuInfo (sfuV 32 0))) (sfuV 32 0) (actCc tV 0 (sfuV 32 0)) = none) ∧
      (∀ o ∈ (tileOf tV 0).oldRows, actCc tV 0 (sfuV 32 0) ≤ o.w → o.row < fld (sfuV 32 0) 58 13 ∨ fld (sfuV 32 0) 58 13 + rowsOf (sN (sfuV 32 0)) (fbits (sFo (sfuV 32 0))) ≤ o.row) ∧
      (srcRows (atStamp tV 0 (sfuV 32 0)) 0 (sSrc (sfuV 32 0)) (fld (sfuV 32 0) 32 13) (actCc tV 0 (sfuV 32 0)) (readUse 0 (rowsOf (sN (sfuV 32 0)) (fbits (sFi (sfuV 32 0)))) (sfuInfo (sfuV 32 0)).occ) (rowsOf (sN (sfuV 32 0)) (fbits (sFi (sfuV 32 0)))) = some ((sfuR (sfuV 32 0)).1, (sfuR (sfuV 32 0)).2)) ∧
      (∀ k < rowsOf (sN (sfuV 32 0)) (fbits (sFo (sfuV 32 0))), carryBroken (tileOf tV 0) (fld (sfuV 32 0) 58 13 + k) 1 = false) ∧
      (∀ e < sN (sfuV 32 0), byteValid (sfuR (sfuV 32 0)).2 (fbits (sFi (sfuV 32 0)) * e / 8) = true)) ∧
    ((issues (tileOf tV 0) (waitsIn (tileOf tV 0) 5) = true) ∧ (halts tV (siteRing 0) = false) ∧ (mirrorOn tV 0 = false) ∧
      (waitHeld tV 0 5 (actCc tV 0 redV) = false) ∧
      (goTrap (atStamp tV 0 redV) 0 5 (restOf tV 0 5 (redInfo redV)) redV (actCc tV 0 redV) = none) ∧ (rPart redV = false) ∧
      (∀ o ∈ (tileOf tV 0).oldRows, actCc tV 0 redV ≤ o.w → o.row < fld redV 58 13 ∨ fld redV 58 13 + rowsOf (redCount redV) (fbits (rFo redV)) ≤ o.row) ∧
      (∀ k < rowsOf (redCount redV) (fbits (rFo redV)), carryBroken (tileOf tV 0) (fld redV 58 13 + k) 1 = false)) := by
  and_intros <;> decide +kernel

theorem test_SpecialFunctionVerbsWriteTheirRows_3 :
    ((issues (tileOf tV 0) (waitsIn (tileOf tV 0) 5) = true) ∧ (halts tV (siteRing 0) = false) ∧ (mirrorOn tV 0 = false) ∧
      (waitHeld tV 0 5 (actCc tV 0 redP) = false) ∧
      (goTrap (atStamp tV 0 redP) 0 5 (restOf tV 0 5 (redInfo redP)) redP (actCc tV 0 redP) = none) ∧ (rPart redP = true) ∧
      (∀ o ∈ (tileOf tV 0).oldRows, actCc tV 0 redP ≤ o.w → o.row < fld redP 58 13 ∨ fld redP 58 13 + rowsOf (redCount redP) 256 ≤ o.row) ∧
      (∀ k < rowsOf (redCount redP) 256, carryBroken (tileOf tV 0) (fld redP 58 13 + k) 1 = false) ∧
      (∀ r ∈ (redInfo redP).reads, (∀ o ∈ (tileOf tV 0).oldRows, actCc tV 0 redP ≤ o.w → o.row < r.1 ∨ r.1 + r.2 ≤ o.row) ∧ ∀ k < r.2, poisonWords tV 0 (r.1 + k) = [] ∧ corrWords tV 0 (r.1 + k) = 0)) ∧
    ((issues (tileOf tV 0) (waitsIn (tileOf tV 0) 5) = true) ∧ (halts tV (siteRing 0) = false) ∧ (mirrorOn tV 0 = false) ∧
      (waitHeld tV 0 5 (actCc tV 0 smaxV) = false) ∧
      (goTrap (atStamp tV 0 smaxV) 0 5 (restOf tV 0 5 (smaxInfo smaxV)) smaxV (actCc tV 0 smaxV) = none) ∧
      (∀ o ∈ (tileOf tV 0).oldRows, actCc tV 0 smaxV ≤ o.w → o.row < fld smaxV 45 13 ∨ fld smaxV 45 13 + rowsOf (mLen smaxV * mSegs smaxV) (fbits (mFo smaxV)) ≤ o.row) ∧
      (∀ k < rowsOf (mLen smaxV * mSegs smaxV) (fbits (mFo smaxV)), carryBroken (tileOf tV 0) (fld smaxV 45 13 + k) 1 = false)) := by
  and_intros <;> decide +kernel

theorem test_SpecialFunctionVerbsWriteTheirRows_4 :
    ((issues (tileOf tV 0) (waitsIn (tileOf tV 0) 5) = true) ∧ (halts tV (siteRing 0) = false) ∧ (mirrorOn tV 0 = false) ∧
      (waitHeld tV 0 5 (actCc tV 0 (castV 0 10 11)) = false) ∧
      (goTrap (atStamp tV 0 (castV 0 10 11)) 0 5 (restOf tV 0 5 (castInfo (castV 0 10 11))) (castV 0 10 11) (actCc tV 0 (castV 0 10 11)) = none) ∧
      (cMode (castV 0 10 11) = 0) ∧ (cScale (castV 0 10 11) = false) ∧
      (∀ o ∈ (tileOf tV 0).oldRows, actCc tV 0 (castV 0 10 11) ≤ o.w → o.row < fld (castV 0 10 11) 45 13 ∨ fld (castV 0 10 11) 45 13 + rowsOf (castN (castV 0 10 11)) (fbits (cFo (castV 0 10 11))) ≤ o.row) ∧
      (∀ k < rowsOf (castN (castV 0 10 11)) (fbits (cFo (castV 0 10 11))), carryBroken (tileOf tV 0) (fld (castV 0 10 11) 45 13 + k) 1 = false)) ∧
    ((issues (tileOf tV 0) (waitsIn (tileOf tV 0) 5) = true) ∧ (halts tV (siteRing 0) = false) ∧ (mirrorOn tV 0 = false) ∧
      (waitHeld tV 0 5 (actCc tV 0 (castV 2 15 10)) = false) ∧
      (goTrap (atStamp tV 0 (castV 2 15 10)) 0 5 (restOf tV 0 5 (castInfo (castV 2 15 10))) (castV 2 15 10) (actCc tV 0 (castV 2 15 10)) = none) ∧
      (cMode (castV 2 15 10) = 2) ∧
      (∀ o ∈ (tileOf tV 0).oldRows, actCc tV 0 (castV 2 15 10) ≤ o.w → o.row < fld (castV 2 15 10) 45 13 ∨ fld (castV 2 15 10) 45 13 + rowsOf (castN (castV 2 15 10)) (fbits (cFo (castV 2 15 10))) ≤ o.row) ∧
      (∀ k < rowsOf (castN (castV 2 15 10)) (fbits (cFo (castV 2 15 10))), carryBroken (tileOf tV 0) (fld (castV 2 15 10) 45 13 + k) 1 = false)) := by
  and_intros <;> decide +kernel

theorem test_SpecialFunctionVerbsWriteTheirRows_5 :
    ((issues (tileOf tV 0) (waitsIn (tileOf tV 0) 5) = true) ∧ (halts tV (siteRing 0) = false) ∧ (mirrorOn tV 0 = false) ∧
      (waitHeld tV 0 5 (actCc tV 0 castS) = false) ∧
      (goTrap (atStamp tV 0 castS) 0 5 (restOf tV 0 5 (castInfo castS)) castS (actCc tV 0 castS) = none) ∧ (cMode castS = 1) ∧
      (∀ k < castDst castS, carryBroken (tileOf tV 0) (fld castS 45 13 + k) 1 = false) ∧
      (∀ k < 1, carryBroken (tileOf tV 0) (fld castS 89 13 + k) 1 = false)) := by
  and_intros <;> decide +kernel

theorem test_MovDropAndSteerTakeEffect :
    ((issues (tileOf tRl 0) (waitsIn (tileOf tRl 0) 5) = true) ∧ (halts tRl (siteRing 0) = false) ∧ (mirrorOn tRl 0 = false) ∧
      (waitHeld tRl 0 5 (actCc tRl 0 (stV 0)) = false) ∧
      (goTrap (atStamp tRl 0 (stV 0)) 0 5 (restOf tRl 0 5 (steerInfo (stV 0))) (stV 0) (actCc tRl 0 (stV 0)) = none) ∧
      (bit (stV 0) 67 = false)) ∧
    ((issues (tileOf tRl 0) (waitsIn (tileOf tRl 0) 5) = true) ∧ (halts tRl (siteRing 0) = false) ∧ (mirrorOn tRl 0 = false) ∧
      (waitHeld tRl 0 5 (actCc tRl 0 (stV 1)) = false) ∧
      (goTrap (atStamp tRl 0 (stV 1)) 0 5 (restOf tRl 0 5 (steerInfo (stV 1))) (stV 1) (actCc tRl 0 (stV 1)) = none) ∧
      (bit (stV 1) 67 = true)) := by
  and_intros <;> decide +kernel

theorem test_MovDropAndSteerTakeEffect_2 :
    ((issues (tileOf tV 0) (waitsIn (tileOf tV 0) 5) = true) ∧ (halts tV (siteRing 0) = false) ∧ (mirrorOn tV 0 = false) ∧
      (waitHeld tV 0 5 (actCc tV 0 (mvV 0 0 []) 7) = false) ∧
      (goTrap (atStamp tV 0 (mvV 0 0 []) 7) 0 5 (restOf tV 0 5 (movInfo (mvV 0 0 []))) (mvV 0 0 []) (actCc tV 0 (mvV 0 0 []) 7) = none) ∧
      (vDrop (mvV 0 0 []) = false) ∧ (vSk (mvV 0 0 []) = 0) ∧ (vDk (mvV 0 0 []) = 0) ∧
      (∀ k < vRows (mvV 0 0 []), carryBroken (tileOf tV 0) (fld (mvV 0 0 []) 55 13 + k) 1 = false) ∧
      (∀ o ∈ (tileOf tV 0).oldRows, actCc tV 0 (mvV 0 0 []) 7 ≤ o.w → o.row < fld (mvV 0 0 []) 42 13 ∨ fld (mvV 0 0 []) 42 13 + vRows (mvV 0 0 []) ≤ o.row) ∧
      (∀ o ∈ (tileOf tV 0).oldRows, actCc tV 0 (mvV 0 0 []) 7 ≤ o.w → o.row < fld (mvV 0 0 []) 55 13 ∨ fld (mvV 0 0 []) 55 13 + vRows (mvV 0 0 []) ≤ o.row)) := by
  and_intros <;> decide +kernel

theorem test_MovDropAndSteerTakeEffect_3 :
    ((issues (tileOf tIn 0) (waitsIn (tileOf tIn 0) 5) = true) ∧ (halts tIn (siteRing 0) = false) ∧ (mirrorOn tIn 0 = false) ∧
      (waitHeld tIn 0 5 (actCc tIn 0 (mvV 1 0 []) 7) = false) ∧
      (goTrap (atStamp tIn 0 (mvV 1 0 []) 7) 0 5 (restOf tIn 0 5 (movInfo (mvV 1 0 []))) (mvV 1 0 []) (actCc tIn 0 (mvV 1 0 []) 7) = none) ∧
      (vDrop (mvV 1 0 []) = false) ∧ (vSk (mvV 1 0 []) = 1) ∧ (vDk (mvV 1 0 []) = 0) ∧
      (∀ k < vRows (mvV 1 0 []), carryBroken (tileOf tIn 0) (fld (mvV 1 0 []) 55 13 + k) 1 = false) ∧
      (∀ o ∈ (tileOf tIn 0).oldRows, actCc tIn 0 (mvV 1 0 []) 7 ≤ o.w → o.row < fld (mvV 1 0 []) 55 13 ∨ fld (mvV 1 0 []) 55 13 + vRows (mvV 1 0 []) ≤ o.row) ∧
      (takeRows (atStamp tIn 0 (mvV 1 0 []) 7) 0 (vSbuf (mvV 1 0 [])) (vRows (mvV 1 0 [])) = some (tIn1.1, tIn1.2))) := by
  and_intros <;> decide +kernel

theorem test_MovDropAndSteerTakeEffect_4 :
    ((outBuf (tileOf tOutT 0) 2 = outBuf (tileOf tOutT 0) (vDbuf (mvV 0 1 []))) ∧
      (issues (tileOf tOutT 0) (waitsIn (tileOf tOutT 0) 5) = true) ∧ (halts tOutT (siteRing 0) = false) ∧ (mirrorOn tOutT 0 = false) ∧
      (waitHeld tOutT 0 5 (actCc tOutT 0 (mvV 0 1 []) 7) = false) ∧
      (goTrap (atStamp tOutT 0 (mvV 0 1 []) 7) 0 5 (restOf tOutT 0 5 (movInfo (mvV 0 1 []))) (mvV 0 1 []) (actCc tOutT 0 (mvV 0 1 []) 7) = none) ∧
      (vDrop (mvV 0 1 []) = false) ∧ (vSk (mvV 0 1 []) = 0) ∧ (vDk (mvV 0 1 []) = 1) ∧ ((outBuf (tileOf tOutT 0) 2).dest.isSome = true) ∧
      (waitsIn (tileOf tOutT 0) 5 = false) ∧
      (∀ o ∈ (tileOf tOutT 0).oldRows, actCc tOutT 0 (mvV 0 1 []) 7 ≤ o.w → o.row < fld (mvV 0 1 []) 42 13 ∨ fld (mvV 0 1 []) 42 13 + vRows (mvV 0 1 []) ≤ o.row) ∧
      (outTaken (tileOf tOutT 0) (vDbuf (mvV 0 1 [])) = true)) := by
  and_intros <;> decide +kernel

theorem test_MovDropAndSteerTakeEffect_5 :
    ((outBuf (tileOf tOut 0) 2 = outBuf (tileOf tOut 0) (vDbuf (mvV 0 1 []))) ∧
      (issues (tileOf tOut 0) (waitsIn (tileOf tOut 0) 5) = true) ∧ (halts tOut (siteRing 0) = false) ∧ (mirrorOn tOut 0 = false) ∧
      (waitHeld tOut 0 5 (actCc tOut 0 (mvV 0 1 []) 7) = false) ∧
      (goTrap (atStamp tOut 0 (mvV 0 1 []) 7) 0 5 (restOf tOut 0 5 (movInfo (mvV 0 1 []))) (mvV 0 1 []) (actCc tOut 0 (mvV 0 1 []) 7) = none) ∧
      (vDrop (mvV 0 1 []) = false) ∧ (vSk (mvV 0 1 []) = 0) ∧ (vDk (mvV 0 1 []) = 1) ∧ ((outBuf (tileOf tOut 0) 2).dest.isSome = true) ∧
      (waitsIn (tileOf tOut 0) 5 = false) ∧
      (∀ o ∈ (tileOf tOut 0).oldRows, actCc tOut 0 (mvV 0 1 []) 7 ≤ o.w → o.row < fld (mvV 0 1 []) 42 13 ∨ fld (mvV 0 1 []) 42 13 + vRows (mvV 0 1 []) ≤ o.row) ∧
      (outTaken (tileOf tOut 0) (vDbuf (mvV 0 1 [])) = false) ∧ ((outBuf (tileOf tOut 0) 2).rows.length + vRows (mvV 0 1 []) ≤ 64)) := by
  and_intros <;> decide +kernel

theorem test_MovDropAndSteerTakeEffect_6 :
    ((outBuf (tileOf tOutF 0) 2 = outBuf (tileOf tOutF 0) (vDbuf (mvV 0 1 []))) ∧
      (issues (tileOf tOutF 0) (waitsIn (tileOf tOutF 0) 5) = true) ∧ (halts tOutF (siteRing 0) = false) ∧ (mirrorOn tOutF 0 = false) ∧
      (waitHeld tOutF 0 5 (actCc tOutF 0 (mvV 0 1 []) 7) = false) ∧
      (goTrap (atStamp tOutF 0 (mvV 0 1 []) 7) 0 5 (restOf tOutF 0 5 (movInfo (mvV 0 1 []))) (mvV 0 1 []) (actCc tOutF 0 (mvV 0 1 []) 7) = none) ∧
      (vDrop (mvV 0 1 []) = false) ∧ (vSk (mvV 0 1 []) = 0) ∧ (vDk (mvV 0 1 []) = 1) ∧ ((outBuf (tileOf tOutF 0) 2).dest.isSome = true) ∧
      (waitsIn (tileOf tOutF 0) 5 = false) ∧
      (∀ o ∈ (tileOf tOutF 0).oldRows, actCc tOutF 0 (mvV 0 1 []) 7 ≤ o.w → o.row < fld (mvV 0 1 []) 42 13 ∨ fld (mvV 0 1 []) 42 13 + vRows (mvV 0 1 []) ≤ o.row) ∧
      (outTaken (tileOf tOutF 0) (vDbuf (mvV 0 1 [])) = false) ∧ ((outBuf (tileOf tOutF 0) 2).rows.length ≤ 64) ∧
      (64 < (outBuf (tileOf tOutF 0) 2).rows.length + vRows (mvV 0 1 []))) := by
  and_intros <;> decide +kernel

theorem test_MovDropAndSteerTakeEffect_7 :
    ((issues (tileOf tIn 0) (waitsIn (tileOf tIn 0) 5) = true) ∧ (halts tIn (siteRing 0) = false) ∧ (mirrorOn tIn 0 = false) ∧
      (waitHeld tIn 0 5 (actCc tIn 0 (vb 16 [(32, 1), (38, 1), (108, 1)])) = false) ∧
      (goTrap (atStamp tIn 0 (vb 16 [(32, 1), (38, 1), (108, 1)])) 0 5 (restOf tIn 0 5 (movInfo (vb 16 [(32, 1), (38, 1), (108, 1)]))) (vb 16 [(32, 1), (38, 1), (108, 1)]) (actCc tIn 0 (vb 16 [(32, 1), (38, 1), (108, 1)])) = none) ∧
      (vDrop (vb 16 [(32, 1), (38, 1), (108, 1)]) = true)) := by
  and_intros <;> decide +kernel

theorem test_NearMovesTransferTheirRows :
    ((issues (tileOf tNe 0) (waitsIn (tileOf tNe 0) 5) = true) ∧ (halts tNe (siteRing 0) = false) ∧ (mirrorOn tNe 0 = false) ∧
      (waitHeld tNe 0 5 (actCc tNe 0 (nmV 0 2 4096) 6) = false) ∧
      (goTrap (atStamp tNe 0 (nmV 0 2 4096) 6) 0 5 (restOf tNe 0 5 (movInfo (nmV 0 2 4096))) (nmV 0 2 4096) (actCc tNe 0 (nmV 0 2 4096) 6) = none) ∧
      (waitsIn (tileOf tNe 0) 5 = false) ∧ (vDrop (nmV 0 2 4096) = false) ∧ (vSk (nmV 0 2 4096) = 2 ∨ vDk (nmV 0 2 4096) = 2) ∧
      (meOf (nmV 0 2 4096) = { site := 0, slot := 5, ch := vCh (nmV 0 2 4096), cc := stampOf (nmV 0 2 4096), rows := vRows (nmV 0 2 4096), off := vOff (nmV 0 2 4096), write := decide (vDk (nmV 0 2 4096) = 2), dst := fld (nmV 0 2 4096) 55 13 : NearXfer }) ∧
      (nearSlotHit tNe (vCh (nmV 0 2 4096)) (stampOf (nmV 0 2 4096)) (vRows (nmV 0 2 4096)) = false) ∧
      (List.filter (fun o => (decide (o.site ≠ 0) || decide (o.slot ≠ 5)) && xferMeets (meOf (nmV 0 2 4096)) o) (fieldOf tNe (siteField 0)).xfers = []) ∧
      (∀ k < vRows (nmV 0 2 4096), nearAllowed tNe 0 (vCh (nmV 0 2 4096)) (vOff (nmV 0 2 4096) + k) (decide (vDk (nmV 0 2 4096) = 2)) = true) ∧
      (vSk (nmV 0 2 4096) = 0) ∧ (vDk (nmV 0 2 4096) = 2)) := by
  and_intros <;> decide +kernel

theorem test_NearMovesTransferTheirRows_2 :
    ((issues (tileOf tNe 0) (waitsIn (tileOf tNe 0) 5) = true) ∧ (halts tNe (siteRing 0) = false) ∧ (mirrorOn tNe 0 = false) ∧
      (waitHeld tNe 0 5 (actCc tNe 0 (nmV 2 0 4096) 6) = false) ∧
      (goTrap (atStamp tNe 0 (nmV 2 0 4096) 6) 0 5 (restOf tNe 0 5 (movInfo (nmV 2 0 4096))) (nmV 2 0 4096) (actCc tNe 0 (nmV 2 0 4096) 6) = none) ∧
      (waitsIn (tileOf tNe 0) 5 = false) ∧ (vDrop (nmV 2 0 4096) = false) ∧ (vSk (nmV 2 0 4096) = 2 ∨ vDk (nmV 2 0 4096) = 2) ∧
      (meOf (nmV 2 0 4096) = { site := 0, slot := 5, ch := vCh (nmV 2 0 4096), cc := stampOf (nmV 2 0 4096), rows := vRows (nmV 2 0 4096), off := vOff (nmV 2 0 4096), write := decide (vDk (nmV 2 0 4096) = 2), dst := fld (nmV 2 0 4096) 55 13 : NearXfer }) ∧
      (nearSlotHit tNe (vCh (nmV 2 0 4096)) (stampOf (nmV 2 0 4096)) (vRows (nmV 2 0 4096)) = false) ∧
      (List.filter (fun o => (decide (o.site ≠ 0) || decide (o.slot ≠ 5)) && xferMeets (meOf (nmV 2 0 4096)) o) (fieldOf tNe (siteField 0)).xfers = []) ∧
      (∀ k < vRows (nmV 2 0 4096), nearAllowed tNe 0 (vCh (nmV 2 0 4096)) (vOff (nmV 2 0 4096) + k) (decide (vDk (nmV 2 0 4096) = 2)) = true) ∧
      (vSk (nmV 2 0 4096) = 2) ∧ (vDk (nmV 2 0 4096) = 0) ∧
      (∀ k < vRows (nmV 2 0 4096), carryBroken (tileOf tNe 0) (fld (nmV 2 0 4096) 55 13 + k) 1 = false)) := by
  and_intros <;> decide +kernel

theorem test_NearMovesTransferTheirRows_3 :
    ((issues (tileOf tNe 0) (waitsIn (tileOf tNe 0) 5) = true) ∧ (halts tNe (siteRing 0) = false) ∧ (mirrorOn tNe 0 = false) ∧
      (waitHeld tNe 0 5 (actCc tNe 0 nmR 6) = false) ∧
      (goTrap (atStamp tNe 0 nmR 6) 0 5 (restOf tNe 0 5 (movInfo nmR)) nmR (actCc tNe 0 nmR 6) = none) ∧
      (waitsIn (tileOf tNe 0) 5 = false) ∧ (vDrop nmR = false) ∧ (vSk nmR = 2 ∨ vDk nmR = 2) ∧
      (meOf nmR = { site := 0, slot := 5, ch := vCh nmR, cc := stampOf nmR, rows := vRows nmR, off := vOff nmR, write := decide (vDk nmR = 2), dst := fld nmR 55 13 : NearXfer }) ∧
      (nearSlotHit tNe (vCh nmR) (stampOf nmR) (vRows nmR) = true)) := by
  and_intros <;> decide +kernel

theorem test_NearMovesTransferTheirRows_4 :
    ((issues (tileOf tNe2 0) (waitsIn (tileOf tNe2 0) 5) = true) ∧ (halts tNe2 (siteRing 0) = false) ∧ (mirrorOn tNe2 0 = false) ∧
      (waitHeld tNe2 0 5 (actCc tNe2 0 (nmV 2 0 4096) 6) = false) ∧
      (goTrap (atStamp tNe2 0 (nmV 2 0 4096) 6) 0 5 (restOf tNe2 0 5 (movInfo (nmV 2 0 4096))) (nmV 2 0 4096) (actCc tNe2 0 (nmV 2 0 4096) 6) = none) ∧
      (waitsIn (tileOf tNe2 0) 5 = false) ∧ (vDrop (nmV 2 0 4096) = false) ∧ (vSk (nmV 2 0 4096) = 2 ∨ vDk (nmV 2 0 4096) = 2) ∧
      (meOf (nmV 2 0 4096) = { site := 0, slot := 5, ch := vCh (nmV 2 0 4096), cc := stampOf (nmV 2 0 4096), rows := vRows (nmV 2 0 4096), off := vOff (nmV 2 0 4096), write := decide (vDk (nmV 2 0 4096) = 2), dst := fld (nmV 2 0 4096) 55 13 : NearXfer }) ∧
      (nearSlotHit tNe2 (vCh (nmV 2 0 4096)) (stampOf (nmV 2 0 4096)) (vRows (nmV 2 0 4096)) = false) ∧
      (List.filter (fun o => (decide (o.site ≠ 0) || decide (o.slot ≠ 5)) && xferMeets (meOf (nmV 2 0 4096)) o) (fieldOf tNe2 (siteField 0)).xfers ≠ [])) := by
  and_intros <;> decide +kernel

theorem test_ChannelVerbsMoveOneDescriptor :
    ((issues (tileOf tSd 0) (waitsIn (tileOf tSd 0) 5) = true) ∧ (halts tSd (siteRing 0) = false) ∧ (mirrorOn tSd 0 = false) ∧
      (waitHeld tSd 0 5 (actCc tSd 0 sdV 7) = false) ∧
      (goTrap (atStamp tSd 0 sdV 7) 0 5 (restOf tSd 0 5 (chanInfo false sdV)) sdV (actCc tSd 0 sdV 7) = none) ∧
      (sdQ = readRows (atStamp tSd 0 sdV 7) 0 (fld sdV 37 13) (actCc tSd 0 sdV 7) 1 1) ∧ (sdD = seqAt (rowsNat sdQ.2) 256 (fld sdV 50 4)) ∧
      (chanSend sdQ.1 0 (fld sdV 32 5) sdD = SendRes.sent cSent)) ∧
    ((issues (tileOf tSd 0) (waitsIn (tileOf tSd 0) 5) = true) ∧ (halts tSd (siteRing 0) = false) ∧ (mirrorOn tSd 0 = false) ∧
      (waitHeld tSd 0 5 (actCc tSd 0 rcV 7) = false) ∧
      (goTrap (atStamp tSd 0 rcV 7) 0 5 (restOf tSd 0 5 (chanInfo true rcV)) rcV (actCc tSd 0 rcV 7) = none) ∧
      (∀ k < 1, carryBroken (tileOf tSd 0) (fld rcV 37 13 + k) 1 = false) ∧
      (∀ o ∈ (tileOf tSd 0).oldRows, actCc tSd 0 rcV 7 ≤ o.w → o.row < fld rcV 37 13 ∨ fld rcV 37 13 + 1 ≤ o.row) ∧
      ((recvOf (tileOf tSd 0) (fld rcV 32 5)).queue = [77, 78])) := by
  and_intros <;> first | (with_reducible refine sent_of ?_; decide +kernel) | decide +kernel

theorem test_CountsAndChecksReport :
    ((issues (tileOf tV 0) (waitsIn (tileOf tV 0) 5) = true) ∧ (halts tV (siteRing 0) = false) ∧ (mirrorOn tV 0 = false) ∧
      (waitHeld tV 0 5 (actCc tV 0 ccV) = false) ∧
      (goTrap (atStamp tV 0 ccV) 0 5 (restOf tV 0 5 (ccountInfo ccV)) ccV (actCc tV 0 ccV) = none) ∧
      (∀ k < 1, carryBroken (tileOf tV 0) (fld ccV 104 13 + k) 1 = false) ∧
      (∀ o ∈ (tileOf tV 0).oldRows, actCc tV 0 ccV ≤ o.w → o.row < fld ccV 104 13 ∨ fld ccV 104 13 + 1 ≤ o.row) ∧
      (srcRows (atStamp tV 0 ccV) 0 (cc131Src ccV) (fld ccV 32 13) (actCc tV 0 ccV) { cc := 0, n := rowsOf (cc131N ccV) (fbits (cc131Type ccV)), step := 1, reads := 1, writes := 0 : PortUse } (rowsOf (cc131N ccV) (fbits (cc131Type ccV))) = some (ccR.1, ccR.2)) ∧
      (∀ e < cc131N ccV, byteValid ccR.2 (fbits (cc131Type ccV) * e / 8) = true)) ∧
    ((issues (tileOf tV 0) (waitsIn (tileOf tV 0) 5) = true) ∧ (halts tV (siteRing 0) = false) ∧ (mirrorOn tV 0 = false) ∧
      (waitHeld tV 0 5 (actCc tV 0 (ckV 0)) = false) ∧
      (goTrap (atStamp tV 0 (ckV 0)) 0 5 (restOf tV 0 5 (checkInfo (ckV 0))) (ckV 0) (actCc tV 0 (ckV 0)) = none) ∧ (chkMode (ckV 0) = 0) ∧
      (∀ r ∈ [(chkX (ckV 0) + chkN (ckV 0), 4)], (∀ o ∈ (tileOf tV 0).oldRows, actCc tV 0 (ckV 0) ≤ o.w → o.row < r.1 ∨ r.1 + r.2 ≤ o.row) ∧ ∀ k < r.2, poisonWords tV 0 (r.1 + k) = [] ∧ corrWords tV 0 (r.1 + k) = 0)) := by
  and_intros <;> decide +kernel

theorem test_CountsAndChecksReport_2 :
    ((issues (tileOf tCk 0) (waitsIn (tileOf tCk 0) 5) = true) ∧ (halts tCk (siteRing 0) = false) ∧ (mirrorOn tCk 0 = false) ∧
      (waitHeld tCk 0 5 (actCc tCk 0 (ckV 0)) = false) ∧
      (goTrap (atStamp tCk 0 (ckV 0)) 0 5 (restOf tCk 0 5 (checkInfo (ckV 0))) (ckV 0) (actCc tCk 0 (ckV 0)) = none) ∧
      (chkMode (ckV 0) = 0) ∧
      (∀ r ∈ [(chkX (ckV 0) + chkN (ckV 0), 4)], (∀ o ∈ (tileOf tCk 0).oldRows, actCc tCk 0 (ckV 0) ≤ o.w → o.row < r.1 ∨ r.1 + r.2 ≤ o.row) ∧ ∀ k < r.2, poisonWords tCk 0 (r.1 + k) = [] ∧ corrWords tCk 0 (r.1 + k) = 0)) ∧
    ((issues (tileOf tV 0) (waitsIn (tileOf tV 0) 5) = true) ∧ (halts tV (siteRing 0) = false) ∧ (mirrorOn tV 0 = false) ∧
      (waitHeld tV 0 5 (actCc tV 0 (ckV 1)) = false) ∧
      (goTrap (atStamp tV 0 (ckV 1)) 0 5 (restOf tV 0 5 (checkInfo (ckV 1))) (ckV 1) (actCc tV 0 (ckV 1)) = none) ∧ (chkMode (ckV 1) = 1) ∧
      (∀ r ∈ [(chkX (ckV 1), chkN (ckV 1)), (chkY (ckV 1), chkN (ckV 1))], (∀ o ∈ (tileOf tV 0).oldRows, actCc tV 0 (ckV 1) ≤ o.w → o.row < r.1 ∨ r.1 + r.2 ≤ o.row) ∧ ∀ k < r.2, poisonWords tV 0 (r.1 + k) = [] ∧ corrWords tV 0 (r.1 + k) = 0)) := by
  and_intros <;> decide +kernel

theorem test_CountsAndChecksReport_3 :
    ((issues (tileOf tNe 0) (waitsIn (tileOf tNe 0) 5) = true) ∧ (halts tNe (siteRing 0) = false) ∧ (mirrorOn tNe 0 = false) ∧
      (waitHeld tNe 0 5 (actCc tNe 0 (ckV 1)) = false) ∧
      (goTrap (atStamp tNe 0 (ckV 1)) 0 5 (restOf tNe 0 5 (checkInfo (ckV 1))) (ckV 1) (actCc tNe 0 (ckV 1)) = none) ∧
      (chkMode (ckV 1) = 1) ∧
      (∀ r ∈ [(chkX (ckV 1), chkN (ckV 1)), (chkY (ckV 1), chkN (ckV 1))], (∀ o ∈ (tileOf tNe 0).oldRows, actCc tNe 0 (ckV 1) ≤ o.w → o.row < r.1 ∨ r.1 + r.2 ≤ o.row) ∧ ∀ k < r.2, poisonWords tNe 0 (r.1 + k) = [] ∧ corrWords tNe 0 (r.1 + k) = 0)) ∧
    ((issues (tileOf tV 0) (waitsIn (tileOf tV 0) 5) = true) ∧ (halts tV (siteRing 0) = false) ∧ (mirrorOn tV 0 = false) ∧
      (waitHeld tV 0 5 (actCc tV 0 (ckV 2)) = false) ∧
      (goTrap (atStamp tV 0 (ckV 2)) 0 5 (restOf tV 0 5 (checkInfo (ckV 2))) (ckV 2) (actCc tV 0 (ckV 2)) = none) ∧ (chkMode (ckV 2) = 2) ∧
      (∀ o ∈ (tileOf tV 0).oldRows, actCc tV 0 (ckV 2) ≤ o.w → o.row < chkX (ckV 2) ∨ chkX (ckV 2) + chkN (ckV 2) ≤ o.row) ∧
      (∀ k < chkN (ckV 2), corrWords tV 0 (chkX (ckV 2) + k) = 0 ∧ deadWords tV 0 (chkX (ckV 2) + k) = [])) := by
  and_intros <;> decide +kernel

theorem test_DynamicVerbsStartAtTheHead :
    (((tileOf (pruneAt tDy 0 50) 0).stopped = false) ∧ (halts (pruneAt tDy 0 50) (siteRing 0) = false) ∧
      ((tileOf (pruneAt tDy 0 50) 0).st = TileSt.running ∨ (tileOf (pruneAt tDy 0 50) 0).st = TileSt.replay) ∧
      (mirrorOn (pruneAt tDy 0 50) 0 = false) ∧ (List.find? (fun d => d.done.isNone) (tileOf (pruneAt tDy 0 50) 0).dynQ = some dyD) ∧
      (dynTimes verbInfo (pruneAt tDy 0 50) 0 (verbInfo dyD.verb) 50 = some tDyT) ∧ (tDyV = setShift (pruneAt tDy 0 50) 0 tDyT.shift) ∧
      (unitHeld (tileOf (pruneAt tDy 0 50) 0).eng (verbInfo dyD.verb).unit 50 = false) ∧
      (boardFree (pruneAt tDy 0 50) 0 (verbInfo dyD.verb) dyD.tag = true) ∧
      (tDyT.occ ≤ if (tileOf (pruneAt tDy 0 50) 0).eng.past = 0 then nextStamp (pruneAt tDy 0 50) (tileOf (pruneAt tDy 0 50) 0) (fun v => (verbInfo v).unit) (verbInfo dyD.verb).unit 50 else windowAt (pruneAt tDy 0 50)) ∧
      (verbEff tDyV 0 dyD.verb 50 = VRes.done tDyP.1 tDyP.2) ∧ (carryHit tDyV tDyP.2 = false) ∧
      (applyWrs (writeAt (tileOf tDyV 0) dyX 50 tDyT.late) tDyP.1 0 0 tDyP.2 = applyWrs (writeAt (tileOf tDyV 0) (verbInfo dyD.verb) 50 tDyT.late) tDyP.1 0 0 tDyP.2)) := by
  and_intros <;> first | (with_reducible refine done_of ?_; decide +kernel) | decide +kernel

theorem test_DynamicVerbsStartAtTheHead_2 :
    (((tileOf (pruneAt tDy2 0 50) 0).stopped = false) ∧ (halts (pruneAt tDy2 0 50) (siteRing 0) = false) ∧
      ((tileOf (pruneAt tDy2 0 50) 0).st = TileSt.running ∨ (tileOf (pruneAt tDy2 0 50) 0).st = TileSt.replay) ∧
      (mirrorOn (pruneAt tDy2 0 50) 0 = false) ∧ (List.find? (fun d => d.done.isNone) (tileOf (pruneAt tDy2 0 50) 0).dynQ = some dyD) ∧
      (dynTimes verbInfo (pruneAt tDy2 0 50) 0 (verbInfo dyD.verb) 50 = some tDy2T) ∧
      (setShift (tDyU tDy2) 0 tDy2T.shift = setShift (pruneAt tDy2 0 50) 0 tDy2T.shift) ∧
      (unitHeld (tileOf (pruneAt tDy2 0 50) 0).eng (verbInfo dyD.verb).unit 50 = true ∨ boardFree (pruneAt tDy2 0 50) 0 (verbInfo dyD.verb) dyD.tag = false ∨ (if (tileOf (pruneAt tDy2 0 50) 0).eng.past = 0 then nextStamp (pruneAt tDy2 0 50) (tileOf (pruneAt tDy2 0 50) 0) (fun v => (verbInfo v).unit) (verbInfo dyD.verb).unit 50 else windowAt (pruneAt tDy2 0 50)) < tDy2T.occ)) ∧
    (((tileOf (pruneAt (tDyE dyS) 0 50) 0).stopped = false) ∧ (halts (pruneAt (tDyE dyS) 0 50) (siteRing 0) = false) ∧
      ((tileOf (pruneAt (tDyE dyS) 0 50) 0).st = TileSt.running ∨ (tileOf (pruneAt (tDyE dyS) 0 50) 0).st = TileSt.replay) ∧
      (mirrorOn (pruneAt (tDyE dyS) 0 50) 0 = false) ∧
      (List.find? (fun d => d.done.isNone) (tileOf (pruneAt (tDyE dyS) 0 50) 0).dynQ = some dyS) ∧
      (dynTimes verbInfo (pruneAt (tDyE dyS) 0 50) 0 (verbInfo dyS.verb) 50 = some (dyPl dyS)) ∧
      (tDyW dyS = setShift (pruneAt (tDyE dyS) 0 50) 0 (dyPl dyS).shift) ∧
      (unitHeld (tileOf (pruneAt (tDyE dyS) 0 50) 0).eng (verbInfo dyS.verb).unit 50 = false) ∧
      (boardFree (pruneAt (tDyE dyS) 0 50) 0 (verbInfo dyS.verb) dyS.tag = true) ∧
      ((dyPl dyS).occ ≤ if (tileOf (pruneAt (tDyE dyS) 0 50) 0).eng.past = 0 then nextStamp (pruneAt (tDyE dyS) 0 50) (tileOf (pruneAt (tDyE dyS) 0 50) 0) (fun v => (verbInfo v).unit) (verbInfo dyS.verb).unit 50 else windowAt (pruneAt (tDyE dyS) 0 50)) ∧
      (verbEff (tDyW dyS) 0 dyS.verb 50 = VRes.trap 3)) := by
  and_intros <;> first | (with_reducible refine trap_of ?_; decide +kernel) | decide +kernel

theorem test_DynamicVerbsStartAtTheHead_3 :
    (((tileOf (pruneAt (tDyE dyR) 0 50) 0).stopped = false) ∧ (halts (pruneAt (tDyE dyR) 0 50) (siteRing 0) = false) ∧
      ((tileOf (pruneAt (tDyE dyR) 0 50) 0).st = TileSt.running ∨ (tileOf (pruneAt (tDyE dyR) 0 50) 0).st = TileSt.replay) ∧
      (mirrorOn (pruneAt (tDyE dyR) 0 50) 0 = false) ∧
      (List.find? (fun d => d.done.isNone) (tileOf (pruneAt (tDyE dyR) 0 50) 0).dynQ = some dyR) ∧
      (dynTimes verbInfo (pruneAt (tDyE dyR) 0 50) 0 (verbInfo dyR.verb) 50 = some (dyPl dyR)) ∧
      (tDyW dyR = setShift (pruneAt (tDyE dyR) 0 50) 0 (dyPl dyR).shift) ∧
      (unitHeld (tileOf (pruneAt (tDyE dyR) 0 50) 0).eng (verbInfo dyR.verb).unit 50 = false) ∧
      (boardFree (pruneAt (tDyE dyR) 0 50) 0 (verbInfo dyR.verb) dyR.tag = true) ∧
      ((dyPl dyR).occ ≤ if (tileOf (pruneAt (tDyE dyR) 0 50) 0).eng.past = 0 then nextStamp (pruneAt (tDyE dyR) 0 50) (tileOf (pruneAt (tDyE dyR) 0 50) 0) (fun v => (verbInfo v).unit) (verbInfo dyR.verb).unit 50 else windowAt (pruneAt (tDyE dyR) 0 50)) ∧
      (verbEff (tDyW dyR) 0 dyR.verb 50 = VRes.wait (effD (verbEff (tDyW dyR) 0 dyR.verb 50)).1 (effD (verbEff (tDyW dyR) 0 dyR.verb 50)).2 (effW (verbEff (tDyW dyR) 0 dyR.verb 50)).1 (effW (verbEff (tDyW dyR) 0 dyR.verb 50)).2)) ∧
    (((tileOf (pruneAt tDy3 0 50) 0).stopped = false) ∧ (halts (pruneAt tDy3 0 50) (siteRing 0) = false) ∧
      ((tileOf (pruneAt tDy3 0 50) 0).st = TileSt.running ∨ (tileOf (pruneAt tDy3 0 50) 0).st = TileSt.replay) ∧
      (mirrorOn (pruneAt tDy3 0 50) 0 = false) ∧ (List.find? (fun d => d.done.isNone) (tileOf (pruneAt tDy3 0 50) 0).dynQ = some dyN) ∧
      (dynTimes verbInfo (pruneAt tDy3 0 50) 0 (verbInfo dyN.verb) 50 = none)) := by
  and_intros <;> first | (with_reducible refine wait_of ?_; decide +kernel) | decide +kernel

theorem test_ScalarArithmeticWritesItsRegister :
    ((coreRuns (tileOf tSc 0) = true) ∧ (halts tSc (siteRing 0) = false) ∧ (coreHeld tSc 0 (beatCc tSc) = false) ∧
      ((tileOf tSc 0).badParity.contains (2 ^ 16 + (tileOf tSc 0).core.pc) = false) ∧ ((tileOf tSc 0).core.pc < 16384) ∧
      (guardOk (tileOf tSc 0) (sw 0 [(17, 9), (12, 3), (7, 2), (0, 9)]) = true) ∧ (opFn (sw 0 [(17, 9), (12, 3), (7, 2), (0, 9)]) ≤ 13)) ∧
    ((coreRuns (tileOf tSc 0) = true) ∧ (halts tSc (siteRing 0) = false) ∧ (coreHeld tSc 0 (beatCc tSc) = false) ∧
      ((tileOf tSc 0).badParity.contains (2 ^ 16 + (tileOf tSc 0).core.pc) = false) ∧ ((tileOf tSc 0).core.pc < 16384) ∧
      (guardOk (tileOf tSc 0) (sw 0 [(17, 9), (12, 3), (7, 2), (0, 13)]) = true) ∧ (opFn (sw 0 [(17, 9), (12, 3), (7, 2), (0, 13)]) ≤ 13)) := by
  and_intros <;> decide +kernel

theorem test_ScalarArithmeticWritesItsRegister_2 :
    ((coreRuns (tileOf tSc 0) = true) ∧ (halts tSc (siteRing 0) = false) ∧ (coreHeld tSc 0 (beatCc tSc) = false) ∧
      ((tileOf tSc 0).badParity.contains (2 ^ 16 + (tileOf tSc 0).core.pc) = false) ∧ ((tileOf tSc 0).core.pc < 16384) ∧
      (guardOk (tileOf tSc 0) (sw 0 [(17, 0), (12, 3), (7, 2), (0, 10)]) = true) ∧ (opFn (sw 0 [(17, 0), (12, 3), (7, 2), (0, 10)]) ≤ 13)) ∧
    ((coreRuns (tileOf tSc 0) = true) ∧ (halts tSc (siteRing 0) = false) ∧ (coreHeld tSc 0 (beatCc tSc) = false) ∧
      ((tileOf tSc 0).badParity.contains (2 ^ 16 + (tileOf tSc 0).core.pc) = false) ∧ ((tileOf tSc 0).core.pc < 16384) ∧
      (guardOk (tileOf tSc 0) (sw 0 [(17, 9), (12, 3), (7, 2), (0, 14)]) = true) ∧ (13 < opFn (sw 0 [(17, 9), (12, 3), (7, 2), (0, 14)]))) ∧
    ((coreRuns (tileOf tSc 0) = true) ∧ (halts tSc (siteRing 0) = false) ∧ (coreHeld tSc 0 (beatCc tSc) = false) ∧
      ((tileOf tSc 0).badParity.contains (2 ^ 16 + (tileOf tSc 0).core.pc) = false) ∧ ((tileOf tSc 0).core.pc < 16384) ∧
      (guardOk (tileOf tSc 0) (sw 1 [(17, 9), (12, 3), (0, 4095)]) = true)) := by
  and_intros <;> decide +kernel

theorem test_ScalarArithmeticWritesItsRegister_3 :
    ((coreRuns (tileOf tSc 0) = true) ∧ (halts tSc (siteRing 0) = false) ∧ (coreHeld tSc 0 (beatCc tSc) = false) ∧
      ((tileOf tSc 0).badParity.contains (2 ^ 16 + (tileOf tSc 0).core.pc) = false) ∧ ((tileOf tSc 0).core.pc < 16384) ∧
      (guardOk (tileOf tSc 0) (sw 2 [(17, 9), (12, 3), (0, 4095)]) = true)) ∧
    ((coreRuns (tileOf tSc 0) = true) ∧ (halts tSc (siteRing 0) = false) ∧ (coreHeld tSc 0 (beatCc tSc) = false) ∧
      ((tileOf tSc 0).badParity.contains (2 ^ 16 + (tileOf tSc 0).core.pc) = false) ∧ ((tileOf tSc 0).core.pc < 16384) ∧
      (guardOk (tileOf tSc 0) (sw 3 [(17, 0), (12, 3), (0, 4095)]) = true)) ∧
    ((coreRuns (tileOf tSc 0) = true) ∧ (halts tSc (siteRing 0) = false) ∧ (coreHeld tSc 0 (beatCc tSc) = false) ∧
      ((tileOf tSc 0).badParity.contains (2 ^ 16 + (tileOf tSc 0).core.pc) = false) ∧ ((tileOf tSc 0).core.pc < 16384) ∧
      (guardOk (tileOf tSc 0) (sw 4 [(17, 9), (12, 3), (0, 4095)]) = true)) := by
  and_intros <;> decide +kernel

theorem test_ScalarArithmeticWritesItsRegister_4 :
    ((coreRuns (tileOf tSc 0) = true) ∧ (halts tSc (siteRing 0) = false) ∧ (coreHeld tSc 0 (beatCc tSc) = false) ∧
      ((tileOf tSc 0).badParity.contains (2 ^ 16 + (tileOf tSc 0).core.pc) = false) ∧ ((tileOf tSc 0).core.pc < 16384) ∧
      (guardOk (tileOf tSc 0) (sw 5 [(17, 9), (12, 3), (0, 63)]) = true)) ∧
    ((coreRuns (tileOf tSc 0) = true) ∧ (halts tSc (siteRing 0) = false) ∧ (coreHeld tSc 0 (beatCc tSc) = false) ∧
      ((tileOf tSc 0).badParity.contains (2 ^ 16 + (tileOf tSc 0).core.pc) = false) ∧ ((tileOf tSc 0).core.pc < 16384) ∧
      (guardOk (tileOf tSc 0) (sw 6 [(17, 9), (12, 3), (0, 3)]) = true)) ∧
    ((coreRuns (tileOf tSc 0) = true) ∧ (halts tSc (siteRing 0) = false) ∧ (coreHeld tSc 0 (beatCc tSc) = false) ∧
      ((tileOf tSc 0).badParity.contains (2 ^ 16 + (tileOf tSc 0).core.pc) = false) ∧ ((tileOf tSc 0).core.pc < 16384) ∧
      (guardOk (tileOf tSc 0) (sw 7 [(17, 9), (12, 3), (0, 3)]) = true)) := by
  and_intros <;> decide +kernel

theorem test_ScalarArithmeticWritesItsRegister_5 :
    ((coreRuns (tileOf tSc 0) = true) ∧ (halts tSc (siteRing 0) = false) ∧ (coreHeld tSc 0 (beatCc tSc) = false) ∧
      ((tileOf tSc 0).badParity.contains (2 ^ 16 + (tileOf tSc 0).core.pc) = false) ∧ ((tileOf tSc 0).core.pc < 16384) ∧
      (guardOk (tileOf tSc 0) (sw 8 [(17, 9), (0, 131071)]) = true)) := by
  and_intros <;> decide +kernel

theorem test_PredicatesAndJumps :
    ((coreRuns (tileOf tSc 0) = true) ∧ (halts tSc (siteRing 0) = false) ∧ (coreHeld tSc 0 (beatCc tSc) = false) ∧
      ((tileOf tSc 0).badParity.contains (2 ^ 16 + (tileOf tSc 0).core.pc) = false) ∧ ((tileOf tSc 0).core.pc < 16384) ∧
      (guardOk (tileOf tSc 0) (sw 24 [(0, 4194303)]) = true)) ∧
    ((coreRuns (tileOf tSc 0) = true) ∧ (halts tSc (siteRing 0) = false) ∧ (coreHeld tSc 0 (beatCc tSc) = false) ∧
      ((tileOf tSc 0).badParity.contains (2 ^ 16 + (tileOf tSc 0).core.pc) = false) ∧ ((tileOf tSc 0).core.pc < 16384) ∧
      (guardOk (tileOf tSc 0) (sw 25 [(17, 5), (0, 131071)]) = true)) ∧
    ((coreRuns (tileOf tSc 0) = true) ∧ (halts tSc (siteRing 0) = false) ∧ (coreHeld tSc 0 (beatCc tSc) = false) ∧
      ((tileOf tSc 0).badParity.contains (2 ^ 16 + (tileOf tSc 0).core.pc) = false) ∧ ((tileOf tSc 0).core.pc < 16384) ∧
      (guardOk (tileOf tSc 0) (sw 26 [(12, 3)]) = true)) := by
  and_intros <;> decide +kernel

theorem test_PredicatesAndJumps_2 :
    ((coreRuns (tileOf tSc 0) = true) ∧ (halts tSc (siteRing 0) = false) ∧ (coreHeld tSc 0 (beatCc tSc) = false) ∧
      ((tileOf tSc 0).badParity.contains (2 ^ 16 + (tileOf tSc 0).core.pc) = false) ∧ ((tileOf tSc 0).core.pc < 16384) ∧
      (guardOk (tileOf tSc 0) (sw 9 [(19, 3), (12, 3), (7, 2), (0, 5)]) = true) ∧
      (fld (sw 9 [(19, 3), (12, 3), (7, 2), (0, 5)]) 17 2 = 0) ∧ (opFn (sw 9 [(19, 3), (12, 3), (7, 2), (0, 5)]) ≤ 5)) ∧
    ((coreRuns (tileOf tSc 0) = true) ∧ (halts tSc (siteRing 0) = false) ∧ (coreHeld tSc 0 (beatCc tSc) = false) ∧
      ((tileOf tSc 0).badParity.contains (2 ^ 16 + (tileOf tSc 0).core.pc) = false) ∧ ((tileOf tSc 0).core.pc < 16384) ∧
      (guardOk (tileOf tSc 0) (sw 9 [(19, 0), (12, 3), (7, 2), (0, 0)]) = true) ∧
      (fld (sw 9 [(19, 0), (12, 3), (7, 2), (0, 0)]) 17 2 = 0) ∧ (opFn (sw 9 [(19, 0), (12, 3), (7, 2), (0, 0)]) ≤ 5)) := by
  and_intros <;> decide +kernel

theorem test_PredicatesAndJumps_3 :
    ((coreRuns (tileOf tSc 0) = true) ∧ (halts tSc (siteRing 0) = false) ∧ (coreHeld tSc 0 (beatCc tSc) = false) ∧
      ((tileOf tSc 0).badParity.contains (2 ^ 16 + (tileOf tSc 0).core.pc) = false) ∧ ((tileOf tSc 0).core.pc < 16384) ∧
      (guardOk (tileOf tSc 0) (sw 9 [(19, 3), (12, 3), (7, 2), (0, 6)]) = true) ∧
      (fld (sw 9 [(19, 3), (12, 3), (7, 2), (0, 6)]) 17 2 ≠ 0 ∨ 5 < opFn (sw 9 [(19, 3), (12, 3), (7, 2), (0, 6)]))) ∧
    ((coreRuns (tileOf tSc 0) = true) ∧ (halts tSc (siteRing 0) = false) ∧ (coreHeld tSc 0 (beatCc tSc) = false) ∧
      ((tileOf tSc 0).badParity.contains (2 ^ 16 + (tileOf tSc 0).core.pc) = false) ∧ ((tileOf tSc 0).core.pc < 16384) ∧
      (guardOk (tileOf tSc 0) (sw 10 [(19, 3), (16, 0), (13, 1), (11, 3)]) = true) ∧
      (fld (sw 10 [(19, 3), (16, 0), (13, 1), (11, 3)]) 0 11 = 0)) := by
  and_intros <;> decide +kernel

theorem test_PredicatesAndJumps_4 :
    ((coreRuns (tileOf tSc 0) = true) ∧ (halts tSc (siteRing 0) = false) ∧ (coreHeld tSc 0 (beatCc tSc) = false) ∧
      ((tileOf tSc 0).badParity.contains (2 ^ 16 + (tileOf tSc 0).core.pc) = false) ∧ ((tileOf tSc 0).core.pc < 16384) ∧
      (guardOk (tileOf tSc 0) (sw 10 [(0, 1)]) = true) ∧ (fld (sw 10 [(0, 1)]) 0 11 ≠ 0)) := by
  and_intros <;> decide +kernel

theorem test_NarrowLoadsAndStores :
    ((coreRuns (tileOf (tLd 393216) 0) = true) ∧ (halts (tLd 393216) (siteRing 0) = false) ∧
      (coreHeld (tLd 393216) 0 (beatCc (tLd 393216)) = false) ∧
      ((tileOf (tLd 393216) 0).badParity.contains (2 ^ 16 + (tileOf (tLd 393216) 0).core.pc) = false) ∧
      ((tileOf (tLd 393216) 0).core.pc < 16384) ∧ (guardOk (tileOf (tLd 393216) 0) (sw 16 [(17, 2), (12, 1)]) = true) ∧
      (393216 ≤ (gReg (tileOf (pruneAt (tLd 393216) 0 8) 0) (opRa (sw 16 [(17, 2), (12, 1)])) + BitVec.signExtend 64 (BitVec.extractLsb' 0 12 (sw 16 [(17, 2), (12, 1)]))).toNat)) ∧
    ((coreRuns (tileOf (tLd (9 * 64)) 0) = true) ∧ (halts (tLd (9 * 64)) (siteRing 0) = false) ∧
      (coreHeld (tLd (9 * 64)) 0 (beatCc (tLd (9 * 64))) = false) ∧
      ((tileOf (tLd (9 * 64)) 0).badParity.contains (2 ^ 16 + (tileOf (tLd (9 * 64)) 0).core.pc) = false) ∧
      ((tileOf (tLd (9 * 64)) 0).core.pc < 16384) ∧ (guardOk (tileOf (tLd (9 * 64)) 0) (sw 16 [(17, 2), (12, 1)]) = true) ∧
      ((gReg (tileOf (pruneAt (tLd (9 * 64)) 0 8) 0) (opRa (sw 16 [(17, 2), (12, 1)])) + BitVec.signExtend 64 (BitVec.extractLsb' 0 12 (sw 16 [(17, 2), (12, 1)]))).toNat < 393216) ∧
      (ldWaits (tileOf (pruneAt (tLd (9 * 64)) 0 8) 0) ((gReg (tileOf (pruneAt (tLd (9 * 64)) 0 8) 0) (opRa (sw 16 [(17, 2), (12, 1)])) + BitVec.signExtend 64 (BitVec.extractLsb' 0 12 (sw 16 [(17, 2), (12, 1)]))).toNat / 64) = true ∨ ¬(coreSlot (tileOf (pruneAt (tLd (9 * 64)) 0 8) 0) 8 = true ∧ coreHeld (pruneAt (tLd (9 * 64)) 0 8) 0 8 = false))) := by
  and_intros <;> decide +kernel

theorem test_NarrowLoadsAndStores_2 :
    ((coreRuns (tileOf (tLd 0) 0) = true) ∧ (halts (tLd 0) (siteRing 0) = false) ∧ (coreHeld (tLd 0) 0 (beatCc (tLd 0)) = false) ∧
      ((tileOf (tLd 0) 0).badParity.contains (2 ^ 16 + (tileOf (tLd 0) 0).core.pc) = false) ∧ ((tileOf (tLd 0) 0).core.pc < 16384) ∧
      (guardOk (tileOf (tLd 0) 0) (sw 16 [(17, 2), (12, 1)]) = true) ∧
      ((gReg (tileOf (pruneAt (tLd 0) 0 8) 0) (opRa (sw 16 [(17, 2), (12, 1)])) + BitVec.signExtend 64 (BitVec.extractLsb' 0 12 (sw 16 [(17, 2), (12, 1)]))).toNat < 393216) ∧
      (ldWaits (tileOf (pruneAt (tLd 0) 0 8) 0) ((gReg (tileOf (pruneAt (tLd 0) 0 8) 0) (opRa (sw 16 [(17, 2), (12, 1)])) + BitVec.signExtend 64 (BitVec.extractLsb' 0 12 (sw 16 [(17, 2), (12, 1)]))).toNat / 64) = false) ∧
      (coreSlot (tileOf (pruneAt (tLd 0) 0 8) 0) 8 = true) ∧ (coreHeld (pruneAt (tLd 0) 0 8) 0 8 = false) ∧
      (∀ o ∈ (tileOf (tLd 0) 0).oldRows, 8 ≤ o.w → o.row < (gReg (tileOf (pruneAt (tLd 0) 0 8) 0) (opRa (sw 16 [(17, 2), (12, 1)])) + BitVec.signExtend 64 (BitVec.extractLsb' 0 12 (sw 16 [(17, 2), (12, 1)]))).toNat / 64 ∨ (gReg (tileOf (pruneAt (tLd 0) 0 8) 0) (opRa (sw 16 [(17, 2), (12, 1)])) + BitVec.signExtend 64 (BitVec.extractLsb' 0 12 (sw 16 [(17, 2), (12, 1)]))).toNat / 64 + 1 ≤ o.row)) := by
  and_intros <;> decide +kernel

theorem test_NarrowLoadsAndStores_3 :
    ((coreRuns (tileOf (tLd 0) 0) = true) ∧ (halts (tLd 0) (siteRing 0) = false) ∧ (coreHeld (tLd 0) 0 (beatCc (tLd 0)) = false) ∧
      ((tileOf (tLd 0) 0).badParity.contains (2 ^ 16 + (tileOf (tLd 0) 0).core.pc) = false) ∧ ((tileOf (tLd 0) 0).core.pc < 16384) ∧
      (guardOk (tileOf (tLd 0) 0) (sw 16 [(17, 0), (12, 1)]) = true) ∧
      ((gReg (tileOf (pruneAt (tLd 0) 0 8) 0) (opRa (sw 16 [(17, 0), (12, 1)])) + BitVec.signExtend 64 (BitVec.extractLsb' 0 12 (sw 16 [(17, 0), (12, 1)]))).toNat < 393216) ∧
      (ldWaits (tileOf (pruneAt (tLd 0) 0 8) 0) ((gReg (tileOf (pruneAt (tLd 0) 0 8) 0) (opRa (sw 16 [(17, 0), (12, 1)])) + BitVec.signExtend 64 (BitVec.extractLsb' 0 12 (sw 16 [(17, 0), (12, 1)]))).toNat / 64) = false) ∧
      (coreSlot (tileOf (pruneAt (tLd 0) 0 8) 0) 8 = true) ∧ (coreHeld (pruneAt (tLd 0) 0 8) 0 8 = false) ∧
      (∀ o ∈ (tileOf (tLd 0) 0).oldRows, 8 ≤ o.w → o.row < (gReg (tileOf (pruneAt (tLd 0) 0 8) 0) (opRa (sw 16 [(17, 0), (12, 1)])) + BitVec.signExtend 64 (BitVec.extractLsb' 0 12 (sw 16 [(17, 0), (12, 1)]))).toNat / 64 ∨ (gReg (tileOf (pruneAt (tLd 0) 0 8) 0) (opRa (sw 16 [(17, 0), (12, 1)])) + BitVec.signExtend 64 (BitVec.extractLsb' 0 12 (sw 16 [(17, 0), (12, 1)]))).toNat / 64 + 1 ≤ o.row)) := by
  and_intros <;> decide +kernel

theorem test_NarrowLoadsAndStores_4 :
    ((coreRuns (tileOf tLdO 0) = true) ∧ (halts tLdO (siteRing 0) = false) ∧ (coreHeld tLdO 0 (beatCc tLdO) = false) ∧
      ((tileOf tLdO 0).badParity.contains (2 ^ 16 + (tileOf tLdO 0).core.pc) = false) ∧ ((tileOf tLdO 0).core.pc < 16384) ∧
      (guardOk (tileOf tLdO 0) (sw 16 [(17, 2), (12, 1)]) = true) ∧
      ((gReg (tileOf (pruneAt tLdO 0 8) 0) (opRa (sw 16 [(17, 2), (12, 1)])) + BitVec.signExtend 64 (BitVec.extractLsb' 0 12 (sw 16 [(17, 2), (12, 1)]))).toNat < 393216) ∧
      (ldWaits (tileOf (pruneAt tLdO 0 8) 0) ((gReg (tileOf (pruneAt tLdO 0 8) 0) (opRa (sw 16 [(17, 2), (12, 1)])) + BitVec.signExtend 64 (BitVec.extractLsb' 0 12 (sw 16 [(17, 2), (12, 1)]))).toNat / 64) = false) ∧
      (coreSlot (tileOf (pruneAt tLdO 0 8) 0) 8 = true) ∧ (coreHeld (pruneAt tLdO 0 8) 0 8 = false) ∧
      (oldRow (tileOf (pruneAt tLdO 0 8) 0) ((gReg (tileOf (pruneAt tLdO 0 8) 0) (opRa (sw 16 [(17, 2), (12, 1)])) + BitVec.signExtend 64 (BitVec.extractLsb' 0 12 (sw 16 [(17, 2), (12, 1)]))).toNat / 64) 8 = some oldOf)) := by
  and_intros <;> decide +kernel

theorem test_NarrowLoadsAndStores_5 :
    ((coreRuns (tileOf tLdO 0) = true) ∧ (halts tLdO (siteRing 0) = false) ∧ (coreHeld tLdO 0 (beatCc tLdO) = false) ∧
      ((tileOf tLdO 0).badParity.contains (2 ^ 16 + (tileOf tLdO 0).core.pc) = false) ∧ ((tileOf tLdO 0).core.pc < 16384) ∧
      (guardOk (tileOf tLdO 0) (sw 17 [(17, 2), (12, 1)]) = true) ∧
      ((gReg (tileOf (pruneAt tLdO 0 8) 0) (opRa (sw 17 [(17, 2), (12, 1)])) + BitVec.signExtend 64 (BitVec.extractLsb' 0 12 (sw 17 [(17, 2), (12, 1)]))).toNat < 393216) ∧
      (stWaits (pruneAt tLdO 0 8) 0 ((gReg (tileOf (pruneAt tLdO 0 8) 0) (opRa (sw 17 [(17, 2), (12, 1)])) + BitVec.signExtend 64 (BitVec.extractLsb' 0 12 (sw 17 [(17, 2), (12, 1)]))).toNat / 64) = false) ∧
      (coreSlot (tileOf (pruneAt tLdO 0 8) 0) 8 = true) ∧ (coreHeld (pruneAt tLdO 0 8) 0 8 = false) ∧
      (carryBroken (tileOf (pruneAt tLdO 0 8) 0) ((gReg (tileOf (pruneAt tLdO 0 8) 0) (opRa (sw 17 [(17, 2), (12, 1)])) + BitVec.signExtend 64 (BitVec.extractLsb' 0 12 (sw 17 [(17, 2), (12, 1)]))).toNat / 64) 1 = false)) ∧
    ((coreRuns (tileOf (tLd 0) 0) = true) ∧ (halts (tLd 0) (siteRing 0) = false) ∧ (coreHeld (tLd 0) 0 (beatCc (tLd 0)) = false) ∧
      ((tileOf (tLd 0) 0).badParity.contains (2 ^ 16 + (tileOf (tLd 0) 0).core.pc) = false) ∧ ((tileOf (tLd 0) 0).core.pc < 16384) ∧
      (guardOk (tileOf (tLd 0) 0) (sw 16 [(17, 2), (12, 1)]) = true) ∧
      ((gReg (tileOf (pruneAt (tLd 0) 0 9) 0) (opRa (sw 16 [(17, 2), (12, 1)])) + BitVec.signExtend 64 (BitVec.extractLsb' 0 12 (sw 16 [(17, 2), (12, 1)]))).toNat < 393216) ∧
      (ldWaits (tileOf (pruneAt (tLd 0) 0 9) 0) ((gReg (tileOf (pruneAt (tLd 0) 0 9) 0) (opRa (sw 16 [(17, 2), (12, 1)])) + BitVec.signExtend 64 (BitVec.extractLsb' 0 12 (sw 16 [(17, 2), (12, 1)]))).toNat / 64) = true ∨ ¬(coreSlot (tileOf (pruneAt (tLd 0) 0 9) 0) 9 = true ∧ coreHeld (pruneAt (tLd 0) 0 9) 0 9 = false))) := by
  and_intros <;> decide +kernel

theorem test_NarrowLoadsAndStores_6 :
    ((coreRuns (tileOf (tLd (10 * 64)) 0) = true) ∧ (halts (tLd (10 * 64)) (siteRing 0) = false) ∧
      (coreHeld (tLd (10 * 64)) 0 (beatCc (tLd (10 * 64))) = false) ∧
      ((tileOf (tLd (10 * 64)) 0).badParity.contains (2 ^ 16 + (tileOf (tLd (10 * 64)) 0).core.pc) = false) ∧
      ((tileOf (tLd (10 * 64)) 0).core.pc < 16384) ∧ (guardOk (tileOf (tLd (10 * 64)) 0) (sw 17 [(17, 2), (12, 1)]) = true) ∧
      ((gReg (tileOf (pruneAt (tLd (10 * 64)) 0 8) 0) (opRa (sw 17 [(17, 2), (12, 1)])) + BitVec.signExtend 64 (BitVec.extractLsb' 0 12 (sw 17 [(17, 2), (12, 1)]))).toNat < 393216) ∧
      (stWaits (pruneAt (tLd (10 * 64)) 0 8) 0 ((gReg (tileOf (pruneAt (tLd (10 * 64)) 0 8) 0) (opRa (sw 17 [(17, 2), (12, 1)])) + BitVec.signExtend 64 (BitVec.extractLsb' 0 12 (sw 17 [(17, 2), (12, 1)]))).toNat / 64) = true ∨ ¬(coreSlot (tileOf (pruneAt (tLd (10 * 64)) 0 8) 0) 8 = true ∧ coreHeld (pruneAt (tLd (10 * 64)) 0 8) 0 8 = false))) ∧
    ((coreRuns (tileOf (tLd (18 * 64)) 0) = true) ∧ (halts (tLd (18 * 64)) (siteRing 0) = false) ∧
      (coreHeld (tLd (18 * 64)) 0 (beatCc (tLd (18 * 64))) = false) ∧
      ((tileOf (tLd (18 * 64)) 0).badParity.contains (2 ^ 16 + (tileOf (tLd (18 * 64)) 0).core.pc) = false) ∧
      ((tileOf (tLd (18 * 64)) 0).core.pc < 16384) ∧ (guardOk (tileOf (tLd (18 * 64)) 0) (sw 17 [(17, 2), (12, 1)]) = true) ∧
      ((gReg (tileOf (pruneAt (tLd (18 * 64)) 0 8) 0) (opRa (sw 17 [(17, 2), (12, 1)])) + BitVec.signExtend 64 (BitVec.extractLsb' 0 12 (sw 17 [(17, 2), (12, 1)]))).toNat < 393216) ∧
      (stWaits (pruneAt (tLd (18 * 64)) 0 8) 0 ((gReg (tileOf (pruneAt (tLd (18 * 64)) 0 8) 0) (opRa (sw 17 [(17, 2), (12, 1)])) + BitVec.signExtend 64 (BitVec.extractLsb' 0 12 (sw 17 [(17, 2), (12, 1)]))).toNat / 64) = false) ∧
      (coreSlot (tileOf (pruneAt (tLd (18 * 64)) 0 8) 0) 8 = true) ∧ (coreHeld (pruneAt (tLd (18 * 64)) 0 8) 0 8 = false) ∧
      (carryBroken (tileOf (pruneAt (tLd (18 * 64)) 0 8) 0) ((gReg (tileOf (pruneAt (tLd (18 * 64)) 0 8) 0) (opRa (sw 17 [(17, 2), (12, 1)])) + BitVec.signExtend 64 (BitVec.extractLsb' 0 12 (sw 17 [(17, 2), (12, 1)]))).toNat / 64) 1 = true)) := by
  and_intros <;> decide +kernel

theorem test_NarrowLoadsAndStores_7 :
    ((coreRuns (tileOf (tLd 393215) 0) = true) ∧ (halts (tLd 393215) (siteRing 0) = false) ∧
      (coreHeld (tLd 393215) 0 (beatCc (tLd 393215)) = false) ∧
      ((tileOf (tLd 393215) 0).badParity.contains (2 ^ 16 + (tileOf (tLd 393215) 0).core.pc) = false) ∧
      ((tileOf (tLd 393215) 0).core.pc < 16384) ∧ (guardOk (tileOf (tLd 393215) 0) (sw 17 [(17, 2), (12, 1)]) = true) ∧
      ((gReg (tileOf (pruneAt (tLd 393215) 0 8) 0) (opRa (sw 17 [(17, 2), (12, 1)])) + BitVec.signExtend 64 (BitVec.extractLsb' 0 12 (sw 17 [(17, 2), (12, 1)]))).toNat < 393216) ∧
      (stWaits (pruneAt (tLd 393215) 0 8) 0 ((gReg (tileOf (pruneAt (tLd 393215) 0 8) 0) (opRa (sw 17 [(17, 2), (12, 1)])) + BitVec.signExtend 64 (BitVec.extractLsb' 0 12 (sw 17 [(17, 2), (12, 1)]))).toNat / 64) = false) ∧
      (coreSlot (tileOf (pruneAt (tLd 393215) 0 8) 0) 8 = true) ∧ (coreHeld (pruneAt (tLd 393215) 0 8) 0 8 = false) ∧
      (carryBroken (tileOf (pruneAt (tLd 393215) 0 8) 0) ((gReg (tileOf (pruneAt (tLd 393215) 0 8) 0) (opRa (sw 17 [(17, 2), (12, 1)])) + BitVec.signExtend 64 (BitVec.extractLsb' 0 12 (sw 17 [(17, 2), (12, 1)]))).toNat / 64) 1 = false)) := by
  and_intros <;> decide +kernel

theorem test_ScalarUnitInstructionsTakeEffect :
    ((coreRuns (tileOf tCh 0) = true) ∧ (halts tCh (siteRing 0) = false) ∧ (coreHeld tCh 0 (beatCc tCh) = false) ∧
      ((tileOf tCh 0).badParity.contains (2 ^ 16 + (tileOf tCh 0).core.pc) = false) ∧ ((tileOf tCh 0).core.pc < 16384) ∧
      (guardOk (tileOf tCh 0) (sw 34 [(17, 5), (12, 4)]) = true) ∧ (fld (sw 34 [(17, 5), (12, 4)]) 0 12 = 0)) ∧
    ((coreRuns (tileOf tCh 0) = true) ∧ (halts tCh (siteRing 0) = false) ∧ (coreHeld tCh 0 (beatCc tCh) = false) ∧
      ((tileOf tCh 0).badParity.contains (2 ^ 16 + (tileOf tCh 0).core.pc) = false) ∧ ((tileOf tCh 0).core.pc < 16384) ∧
      (guardOk (tileOf tCh 0) (sw 49 [(17, 5)]) = true)) ∧
    ((coreRuns (tileOf tCh 0) = true) ∧ (halts tCh (siteRing 0) = false) ∧ (coreHeld tCh 0 (beatCc tCh) = false) ∧
      ((tileOf tCh 0).badParity.contains (2 ^ 16 + (tileOf tCh 0).core.pc) = false) ∧ ((tileOf tCh 0).core.pc < 16384) ∧
      (guardOk (tileOf tCh 0) (sw 48 [(17, 5), (0, 80)]) = true) ∧ (fld (sw 48 [(17, 5), (0, 80)]) 0 3 = 0)) := by
  and_intros <;> decide +kernel

theorem test_ScalarUnitInstructionsTakeEffect_2 :
    ((coreRuns (tileOf tCh 0) = true) ∧ (halts tCh (siteRing 0) = false) ∧ (coreHeld tCh 0 (beatCc tCh) = false) ∧
      ((tileOf tCh 0).badParity.contains (2 ^ 16 + (tileOf tCh 0).core.pc) = false) ∧ ((tileOf tCh 0).core.pc < 16384) ∧
      (guardOk (tileOf tCh 0) (sw 48 [(17, 5), (0, 81)]) = true) ∧ (fld (sw 48 [(17, 5), (0, 81)]) 0 3 ≠ 0)) ∧
    ((coreRuns (tileOf tCh 0) = true) ∧ (halts tCh (siteRing 0) = false) ∧ (coreHeld tCh 0 (beatCc tCh) = false) ∧
      ((tileOf tCh 0).badParity.contains (2 ^ 16 + (tileOf tCh 0).core.pc) = false) ∧ ((tileOf tCh 0).core.pc < 16384) ∧
      (guardOk (tileOf tCh 0) (sw 41 [(0, 0)]) = true) ∧ ((tileOf tCh 0).sb.length ≤ fld (sw 41 [(0, 0)]) 0 5)) := by
  and_intros <;> decide +kernel

theorem test_ScalarUnitInstructionsTakeEffect_3 :
    ((coreRuns (tileOf tSb 0) = true) ∧ (halts tSb (siteRing 0) = false) ∧ (coreHeld tSb 0 (beatCc tSb) = false) ∧
      ((tileOf tSb 0).badParity.contains (2 ^ 16 + (tileOf tSb 0).core.pc) = false) ∧ ((tileOf tSb 0).core.pc < 16384) ∧
      (guardOk (tileOf tSb 0) (sw 41 [(0, 0)]) = true) ∧ (fld (sw 41 [(0, 0)]) 0 5 < (tileOf tSb 0).sb.length)) ∧
    ((coreRuns (tileOf tCh 0) = true) ∧ (halts tCh (siteRing 0) = false) ∧ (coreHeld tCh 0 (beatCc tCh) = false) ∧
      ((tileOf tCh 0).badParity.contains (2 ^ 16 + (tileOf tCh 0).core.pc) = false) ∧ ((tileOf tCh 0).core.pc < 16384) ∧
      (guardOk (tileOf tCh 0) scW = true) ∧ (fld scW 0 12 = 0) ∧ (opRd scW ≤ 28) ∧
      (chanSend tCh 0 (opRa scW) (packN 64 (List.map (fun k => (gReg (tileOf tCh 0) (opRd scW + k)).toNat) (List.range 4))) = SendRes.sent scSent)) := by
  and_intros <;> first | (with_reducible refine sent_of ?_; decide +kernel) | decide +kernel

theorem test_ScalarUnitInstructionsTakeEffect_4 :
    ((coreRuns (tileOf tInv 0) = true) ∧ (halts tInv (siteRing 0) = false) ∧ (coreHeld tInv 0 (beatCc tInv) = false) ∧
      ((tileOf tInv 0).badParity.contains (2 ^ 16 + (tileOf tInv 0).core.pc) = false) ∧ ((tileOf tInv 0).core.pc < 16384) ∧
      (guardOk (tileOf tInv 0) scW = true) ∧ (fld scW 0 12 = 0) ∧ (opRd scW ≤ 28) ∧
      (chanSend tInv 0 (opRa scW) (packN 64 (List.map (fun k => (gReg (tileOf tInv 0) (opRd scW + k)).toNat) (List.range 4))) = SendRes.format)) ∧
    ((coreRuns (tileOf tCh 0) = true) ∧ (halts tCh (siteRing 0) = false) ∧ (coreHeld tCh 0 (beatCc tCh) = false) ∧
      ((tileOf tCh 0).badParity.contains (2 ^ 16 + (tileOf tCh 0).core.pc) = false) ∧ ((tileOf tCh 0).core.pc < 16384) ∧
      (guardOk (tileOf tCh 0) (sw 32 [(17, 29), (12, 3)]) = true) ∧ (fld (sw 32 [(17, 29), (12, 3)]) 0 12 = 0) ∧
      (28 < opRd (sw 32 [(17, 29), (12, 3)]))) := by
  and_intros <;> first | (with_reducible refine format_of ?_; decide +kernel) | decide +kernel

theorem test_ScalarUnitInstructionsTakeEffect_5 :
    ((coreRuns (tileOf tCh 0) = true) ∧ (halts tCh (siteRing 0) = false) ∧ (coreHeld tCh 0 (beatCc tCh) = false) ∧
      ((tileOf tCh 0).badParity.contains (2 ^ 16 + (tileOf tCh 0).core.pc) = false) ∧ ((tileOf tCh 0).core.pc < 16384) ∧
      (guardOk (tileOf tCh 0) (sw 33 [(17, 28), (12, 4)]) = true) ∧ (fld (sw 33 [(17, 28), (12, 4)]) 0 12 = 0) ∧
      (opRd (sw 33 [(17, 28), (12, 4)]) ≤ 28) ∧ ((recvOf (tileOf tCh 0) (opRa (sw 33 [(17, 28), (12, 4)]))).queue = [77, 78])) ∧
    ((coreRuns (tileOf tCh 0) = true) ∧ (halts tCh (siteRing 0) = false) ∧ (coreHeld tCh 0 (beatCc tCh) = false) ∧
      ((tileOf tCh 0).badParity.contains (2 ^ 16 + (tileOf tCh 0).core.pc) = false) ∧ ((tileOf tCh 0).core.pc < 16384) ∧
      (guardOk (tileOf tCh 0) (sw 33 [(17, 28), (12, 5)]) = true) ∧ (fld (sw 33 [(17, 28), (12, 5)]) 0 12 = 0) ∧
      (opRd (sw 33 [(17, 28), (12, 5)]) ≤ 28) ∧ ((recvOf (tileOf tCh 0) (opRa (sw 33 [(17, 28), (12, 5)]))).queue = [])) := by
  and_intros <;> decide +kernel

theorem test_ScalarUnitInstructionsTakeEffect_6 :
    ((coreRuns (tileOf tIs 0) = true) ∧ (halts tIs (siteRing 0) = false) ∧ (coreHeld tIs 0 (beatCc tIs) = false) ∧
      ((tileOf tIs 0).badParity.contains (2 ^ 16 + (tileOf tIs 0).core.pc) = false) ∧ ((tileOf tIs 0).core.pc < 16384) ∧
      (guardOk (tileOf tIs 0) (sw 40 [(12, 2)]) = true) ∧ (opRa (sw 40 [(12, 2)]) % 2 = 0) ∧
      (isV = BitVec.ofNat 128 ((gReg (tileOf tIs 0) (opRa (sw 40 [(12, 2)]))).toNat + (gReg (tileOf tIs 0) (opRa (sw 40 [(12, 2)]) + 1)).toNat * 2 ^ 64)) ∧
      ((verbInfo isV).trap = none) ∧ ((verbInfo isV).never = false) ∧
      (entryRoom (tileOf tIs 0) (List.filter (fun r => decide (r.2 ≠ 0)) (verbInfo isV).writes).length = true) ∧
      (∀ (j : Nat), fused tIs 0 (verbInfo isV).unit = some j → entryRoom (tileOf tIs j) (List.filter (fun r => decide (r.2 ≠ 0)) (verbInfo isV).writes).length = true) ∧
      ((List.filter (fun d => d.done.isNone) (tileOf tIs 0).dynQ).length < 16)) ∧
    ((coreRuns (tileOf tIs 0) = true) ∧ (halts tIs (siteRing 0) = false) ∧ (coreHeld tIs 0 (beatCc tIs) = false) ∧
      ((tileOf tIs 0).badParity.contains (2 ^ 16 + (tileOf tIs 0).core.pc) = false) ∧ ((tileOf tIs 0).core.pc < 16384) ∧
      (guardOk (tileOf tIs 0) (sw 40 [(12, 3)]) = true) ∧ (opRa (sw 40 [(12, 3)]) % 2 = 1)) := by
  and_intros <;> decide +kernel

theorem test_ScalarControlGuardsTrapsAndEnds :
    ((coreRuns (tileOf tSc 0) = true) ∧ (halts tSc (siteRing 0) = false) ∧ (coreHeld tSc 0 (beatCc tSc) = false) ∧
      ((tileOf tSc 0).badParity.contains (2 ^ 16 + (tileOf tSc 0).core.pc) = false) ∧ ((tileOf tSc 0).core.pc < 16384) ∧
      (guardOk (tileOf tSc 0) (sw 62 [(0, 48879)]) = true)) ∧
    ((coreRuns (tileOf tSc 0) = true) ∧ (halts tSc (siteRing 0) = false) ∧ (coreHeld tSc 0 (beatCc tSc) = false) ∧
      ((tileOf tSc 0).badParity.contains (2 ^ 16 + (tileOf tSc 0).core.pc) = false) ∧ ((tileOf tSc 0).core.pc < 16384) ∧
      (guardOk (tileOf tSc 0) (sw 63 []) = true)) ∧
    ((coreRuns (tileOf tSc 0) = true) ∧ (halts tSc (siteRing 0) = false) ∧ (coreHeld tSc 0 (beatCc tSc) = false) ∧
      ((tileOf tSc 0).badParity.contains (2 ^ 16 + (tileOf tSc 0).core.pc) = false) ∧ ((tileOf tSc 0).core.pc < 16384) ∧
      (guardOk (tileOf tSc 0) (sw 61 []) = true)) ∧
    ((Instr.alu 0 gNo ∈ [Instr.addi 0 gNo, Instr.andi 0 gNo, Instr.ori 0 gNo, Instr.xori 0 gNo, Instr.shli 0 gNo, Instr.shri 0 gNo, Instr.srai 0 gNo, Instr.lui 0 gNo, Instr.ld 0 { w := gNo, cc := 8 : NarrowOp }, Instr.st 0 { w := gNo, cc := 8 : NarrowOp }, Instr.br 0 gNo, Instr.jal 0 gNo, Instr.jr 0 gNo, Instr.issue 0 gNo, Instr.sbwait 0 gNo, Instr.rdtime 0 gNo, Instr.rdreg 0 gNo, Instr.trap 0 gNo, Instr.endCore 0 gNo] ∨ Instr.alu 0 gNo = Instr.alu 0 gNo ∧ opFn gNo ≤ 13 ∨ Instr.alu 0 gNo = Instr.cmp 0 gNo ∧ fld gNo 17 2 = 0 ∧ opFn gNo ≤ 5 ∨ Instr.alu 0 gNo = Instr.plog 0 gNo ∧ fld gNo 0 11 = 0 ∨ Instr.alu 0 gNo ∈ [Instr.scalarSend 0 gNo, Instr.scalarRecv 0 gNo, Instr.qlen 0 gNo] ∧ fld gNo 0 12 = 0) ∧
      (¬(coreRuns (tileOf tOn 0) = true ∧ halts tOn (siteRing 0) = false ∧ coreHeld tOn 0 (beatCc tOn) = false))) := by
  and_intros <;> decide +kernel

theorem test_ScalarControlGuardsTrapsAndEnds_2 :
    ((Instr.st 0 { w := gNo, cc := 8 : NarrowOp } ∈ [Instr.addi 0 gNo, Instr.andi 0 gNo, Instr.ori 0 gNo, Instr.xori 0 gNo, Instr.shli 0 gNo, Instr.shri 0 gNo, Instr.srai 0 gNo, Instr.lui 0 gNo, Instr.ld 0 { w := gNo, cc := 8 : NarrowOp }, Instr.st 0 { w := gNo, cc := 8 : NarrowOp }, Instr.br 0 gNo, Instr.jal 0 gNo, Instr.jr 0 gNo, Instr.issue 0 gNo, Instr.sbwait 0 gNo, Instr.rdtime 0 gNo, Instr.rdreg 0 gNo, Instr.trap 0 gNo, Instr.endCore 0 gNo] ∨ Instr.st 0 { w := gNo, cc := 8 : NarrowOp } = Instr.alu 0 gNo ∧ opFn gNo ≤ 13 ∨ Instr.st 0 { w := gNo, cc := 8 : NarrowOp } = Instr.cmp 0 gNo ∧ fld gNo 17 2 = 0 ∧ opFn gNo ≤ 5 ∨ Instr.st 0 { w := gNo, cc := 8 : NarrowOp } = Instr.plog 0 gNo ∧ fld gNo 0 11 = 0 ∨ Instr.st 0 { w := gNo, cc := 8 : NarrowOp } ∈ [Instr.scalarSend 0 gNo, Instr.scalarRecv 0 gNo, Instr.qlen 0 gNo] ∧ fld gNo 0 12 = 0) ∧
      (coreRuns (tileOf tPc 0) = true) ∧ (halts tPc (siteRing 0) = false) ∧ (coreHeld tPc 0 (beatCc tPc) = false) ∧
      ((tileOf tPc 0).badParity.contains (2 ^ 16 + (tileOf tPc 0).core.pc) = false) ∧ (16384 ≤ (tileOf tPc 0).core.pc)) ∧
    ((Instr.endCore 0 gNo ∈ [Instr.addi 0 gNo, Instr.andi 0 gNo, Instr.ori 0 gNo, Instr.xori 0 gNo, Instr.shli 0 gNo, Instr.shri 0 gNo, Instr.srai 0 gNo, Instr.lui 0 gNo, Instr.ld 0 { w := gNo, cc := 8 : NarrowOp }, Instr.st 0 { w := gNo, cc := 8 : NarrowOp }, Instr.br 0 gNo, Instr.jal 0 gNo, Instr.jr 0 gNo, Instr.issue 0 gNo, Instr.sbwait 0 gNo, Instr.rdtime 0 gNo, Instr.rdreg 0 gNo, Instr.trap 0 gNo, Instr.endCore 0 gNo] ∨ Instr.endCore 0 gNo = Instr.alu 0 gNo ∧ opFn gNo ≤ 13 ∨ Instr.endCore 0 gNo = Instr.cmp 0 gNo ∧ fld gNo 17 2 = 0 ∧ opFn gNo ≤ 5 ∨ Instr.endCore 0 gNo = Instr.plog 0 gNo ∧ fld gNo 0 11 = 0 ∨ Instr.endCore 0 gNo ∈ [Instr.scalarSend 0 gNo, Instr.scalarRecv 0 gNo, Instr.qlen 0 gNo] ∧ fld gNo 0 12 = 0) ∧
      (coreRuns (tileOf tBp 0) = true) ∧ (halts tBp (siteRing 0) = false) ∧ (coreHeld tBp 0 (beatCc tBp) = false) ∧
      ((tileOf tBp 0).badParity.contains (2 ^ 16 + (tileOf tBp 0).core.pc) = true)) := by
  and_intros <;> decide +kernel

theorem test_ScalarControlGuardsTrapsAndEnds_3 :
    ((Instr.endCore 0 gNo ∈ [Instr.addi 0 gNo, Instr.andi 0 gNo, Instr.ori 0 gNo, Instr.xori 0 gNo, Instr.shli 0 gNo, Instr.shri 0 gNo, Instr.srai 0 gNo, Instr.lui 0 gNo, Instr.ld 0 { w := gNo, cc := 8 : NarrowOp }, Instr.st 0 { w := gNo, cc := 8 : NarrowOp }, Instr.br 0 gNo, Instr.jal 0 gNo, Instr.jr 0 gNo, Instr.issue 0 gNo, Instr.sbwait 0 gNo, Instr.rdtime 0 gNo, Instr.rdreg 0 gNo, Instr.trap 0 gNo, Instr.endCore 0 gNo] ∨ Instr.endCore 0 gNo = Instr.alu 0 gNo ∧ opFn gNo ≤ 13 ∨ Instr.endCore 0 gNo = Instr.cmp 0 gNo ∧ fld gNo 17 2 = 0 ∧ opFn gNo ≤ 5 ∨ Instr.endCore 0 gNo = Instr.plog 0 gNo ∧ fld gNo 0 11 = 0 ∨ Instr.endCore 0 gNo ∈ [Instr.scalarSend 0 gNo, Instr.scalarRecv 0 gNo, Instr.qlen 0 gNo] ∧ fld gNo 0 12 = 0) ∧
      (coreRuns (tileOf tSc 0) = true) ∧ (halts tSc (siteRing 0) = false) ∧ (coreHeld tSc 0 (beatCc tSc) = false) ∧
      ((tileOf tSc 0).badParity.contains (2 ^ 16 + (tileOf tSc 0).core.pc) = false) ∧ ((tileOf tSc 0).core.pc < 16384) ∧
      (guardOk (tileOf tSc 0) gNo = false)) ∧
    ((Instr.cmp 0 gNo ∈ [Instr.addi 0 gNo, Instr.andi 0 gNo, Instr.ori 0 gNo, Instr.xori 0 gNo, Instr.shli 0 gNo, Instr.shri 0 gNo, Instr.srai 0 gNo, Instr.lui 0 gNo, Instr.ld 0 { w := gNo, cc := 8 : NarrowOp }, Instr.st 0 { w := gNo, cc := 8 : NarrowOp }, Instr.br 0 gNo, Instr.jal 0 gNo, Instr.jr 0 gNo, Instr.issue 0 gNo, Instr.sbwait 0 gNo, Instr.rdtime 0 gNo, Instr.rdreg 0 gNo, Instr.trap 0 gNo, Instr.endCore 0 gNo] ∨ Instr.cmp 0 gNo = Instr.alu 0 gNo ∧ opFn gNo ≤ 13 ∨ Instr.cmp 0 gNo = Instr.cmp 0 gNo ∧ fld gNo 17 2 = 0 ∧ opFn gNo ≤ 5 ∨ Instr.cmp 0 gNo = Instr.plog 0 gNo ∧ fld gNo 0 11 = 0 ∨ Instr.cmp 0 gNo ∈ [Instr.scalarSend 0 gNo, Instr.scalarRecv 0 gNo, Instr.qlen 0 gNo] ∧ fld gNo 0 12 = 0) ∧
      (coreRuns (tileOf tSc 0) = true) ∧ (halts tSc (siteRing 0) = false) ∧ (coreHeld tSc 0 (beatCc tSc) = false) ∧
      ((tileOf tSc 0).badParity.contains (2 ^ 16 + (tileOf tSc 0).core.pc) = false) ∧ ((tileOf tSc 0).core.pc < 16384) ∧
      (guardOk (tileOf tSc 0) gNo = false)) := by
  and_intros <;> decide +kernel

theorem test_ScalarControlGuardsTrapsAndEnds_4 :
    ((Instr.plog 0 gNo ∈ [Instr.addi 0 gNo, Instr.andi 0 gNo, Instr.ori 0 gNo, Instr.xori 0 gNo, Instr.shli 0 gNo, Instr.shri 0 gNo, Instr.srai 0 gNo, Instr.lui 0 gNo, Instr.ld 0 { w := gNo, cc := 8 : NarrowOp }, Instr.st 0 { w := gNo, cc := 8 : NarrowOp }, Instr.br 0 gNo, Instr.jal 0 gNo, Instr.jr 0 gNo, Instr.issue 0 gNo, Instr.sbwait 0 gNo, Instr.rdtime 0 gNo, Instr.rdreg 0 gNo, Instr.trap 0 gNo, Instr.endCore 0 gNo] ∨ Instr.plog 0 gNo = Instr.alu 0 gNo ∧ opFn gNo ≤ 13 ∨ Instr.plog 0 gNo = Instr.cmp 0 gNo ∧ fld gNo 17 2 = 0 ∧ opFn gNo ≤ 5 ∨ Instr.plog 0 gNo = Instr.plog 0 gNo ∧ fld gNo 0 11 = 0 ∨ Instr.plog 0 gNo ∈ [Instr.scalarSend 0 gNo, Instr.scalarRecv 0 gNo, Instr.qlen 0 gNo] ∧ fld gNo 0 12 = 0) ∧
      (coreRuns (tileOf tSc 0) = true) ∧ (halts tSc (siteRing 0) = false) ∧ (coreHeld tSc 0 (beatCc tSc) = false) ∧
      ((tileOf tSc 0).badParity.contains (2 ^ 16 + (tileOf tSc 0).core.pc) = false) ∧ ((tileOf tSc 0).core.pc < 16384) ∧
      (guardOk (tileOf tSc 0) gNo = false)) ∧
    ((Instr.qlen 0 gNo ∈ [Instr.addi 0 gNo, Instr.andi 0 gNo, Instr.ori 0 gNo, Instr.xori 0 gNo, Instr.shli 0 gNo, Instr.shri 0 gNo, Instr.srai 0 gNo, Instr.lui 0 gNo, Instr.ld 0 { w := gNo, cc := 8 : NarrowOp }, Instr.st 0 { w := gNo, cc := 8 : NarrowOp }, Instr.br 0 gNo, Instr.jal 0 gNo, Instr.jr 0 gNo, Instr.issue 0 gNo, Instr.sbwait 0 gNo, Instr.rdtime 0 gNo, Instr.rdreg 0 gNo, Instr.trap 0 gNo, Instr.endCore 0 gNo] ∨ Instr.qlen 0 gNo = Instr.alu 0 gNo ∧ opFn gNo ≤ 13 ∨ Instr.qlen 0 gNo = Instr.cmp 0 gNo ∧ fld gNo 17 2 = 0 ∧ opFn gNo ≤ 5 ∨ Instr.qlen 0 gNo = Instr.plog 0 gNo ∧ fld gNo 0 11 = 0 ∨ Instr.qlen 0 gNo ∈ [Instr.scalarSend 0 gNo, Instr.scalarRecv 0 gNo, Instr.qlen 0 gNo] ∧ fld gNo 0 12 = 0) ∧
      (coreRuns (tileOf tSc 0) = true) ∧ (halts tSc (siteRing 0) = false) ∧ (coreHeld tSc 0 (beatCc tSc) = false) ∧
      ((tileOf tSc 0).badParity.contains (2 ^ 16 + (tileOf tSc 0).core.pc) = false) ∧ ((tileOf tSc 0).core.pc < 16384) ∧
      (guardOk (tileOf tSc 0) gNo = false)) := by
  and_intros <;> decide +kernel

theorem test_ScalarControlGuardsTrapsAndEnds_5 :
    ((Instr.scalarRecv 0 gNo ∈ [Instr.addi 0 gNo, Instr.andi 0 gNo, Instr.ori 0 gNo, Instr.xori 0 gNo, Instr.shli 0 gNo, Instr.shri 0 gNo, Instr.srai 0 gNo, Instr.lui 0 gNo, Instr.ld 0 { w := gNo, cc := 8 : NarrowOp }, Instr.st 0 { w := gNo, cc := 8 : NarrowOp }, Instr.br 0 gNo, Instr.jal 0 gNo, Instr.jr 0 gNo, Instr.issue 0 gNo, Instr.sbwait 0 gNo, Instr.rdtime 0 gNo, Instr.rdreg 0 gNo, Instr.trap 0 gNo, Instr.endCore 0 gNo] ∨ Instr.scalarRecv 0 gNo = Instr.alu 0 gNo ∧ opFn gNo ≤ 13 ∨ Instr.scalarRecv 0 gNo = Instr.cmp 0 gNo ∧ fld gNo 17 2 = 0 ∧ opFn gNo ≤ 5 ∨ Instr.scalarRecv 0 gNo = Instr.plog 0 gNo ∧ fld gNo 0 11 = 0 ∨ Instr.scalarRecv 0 gNo ∈ [Instr.scalarSend 0 gNo, Instr.scalarRecv 0 gNo, Instr.qlen 0 gNo] ∧ fld gNo 0 12 = 0) ∧
      (coreRuns (tileOf tSc 0) = true) ∧ (halts tSc (siteRing 0) = false) ∧ (coreHeld tSc 0 (beatCc tSc) = false) ∧
      ((tileOf tSc 0).badParity.contains (2 ^ 16 + (tileOf tSc 0).core.pc) = false) ∧ ((tileOf tSc 0).core.pc < 16384) ∧
      (guardOk (tileOf tSc 0) gNo = false)) ∧
    ((Instr.rdreg 0 gNo ∈ [Instr.addi 0 gNo, Instr.andi 0 gNo, Instr.ori 0 gNo, Instr.xori 0 gNo, Instr.shli 0 gNo, Instr.shri 0 gNo, Instr.srai 0 gNo, Instr.lui 0 gNo, Instr.ld 0 { w := gNo, cc := 8 : NarrowOp }, Instr.st 0 { w := gNo, cc := 8 : NarrowOp }, Instr.br 0 gNo, Instr.jal 0 gNo, Instr.jr 0 gNo, Instr.issue 0 gNo, Instr.sbwait 0 gNo, Instr.rdtime 0 gNo, Instr.rdreg 0 gNo, Instr.trap 0 gNo, Instr.endCore 0 gNo] ∨ Instr.rdreg 0 gNo = Instr.alu 0 gNo ∧ opFn gNo ≤ 13 ∨ Instr.rdreg 0 gNo = Instr.cmp 0 gNo ∧ fld gNo 17 2 = 0 ∧ opFn gNo ≤ 5 ∨ Instr.rdreg 0 gNo = Instr.plog 0 gNo ∧ fld gNo 0 11 = 0 ∨ Instr.rdreg 0 gNo ∈ [Instr.scalarSend 0 gNo, Instr.scalarRecv 0 gNo, Instr.qlen 0 gNo] ∧ fld gNo 0 12 = 0) ∧
      (coreRuns (tileOf tSc 0) = true) ∧ (halts tSc (siteRing 0) = false) ∧ (coreHeld tSc 0 (beatCc tSc) = false) ∧
      ((tileOf tSc 0).badParity.contains (2 ^ 16 + (tileOf tSc 0).core.pc) = false) ∧ ((tileOf tSc 0).core.pc < 16384) ∧
      (guardOk (tileOf tSc 0) gNo = false)) := by
  and_intros <;> decide +kernel

theorem test_NarrowSlotScrubsInTurn :
    ((4 % 4 = 0) ∧ ((ringOf tMd (siteRing 0)).supply = 0) ∧ ((tileOf tMd 0).core.slotAt ≠ some 4) ∧ (4 % 64 ≠ 60) ∧
      ((tileOf tMd 0).spm.maDue ≠ 0)) ∧
    ((60 % 4 = 0) ∧ ((ringOf tMd (siteRing 0)).supply = 0) ∧ ((tileOf tMd 0).core.slotAt ≠ some 60) ∧
      (60 % 64 = 60 ∨ (tileOf tMd 0).spm.maDue = 0) ∧ ((tileOf tMd 0).st ≠ TileSt.fenced) ∧ ((tileOf tMd 0).spm.writeback = none) ∧
      ((tileOf tMd 0).spm.hints = []) ∧ (corrWords tMd 0 (tileOf tMd 0).spm.scrubRow = 0) ∧
      (deadWords tMd 0 (tileOf tMd 0).spm.scrubRow = [])) ∧
    ((4 % 4 = 0) ∧ ((ringOf tWb (siteRing 0)).supply = 0) ∧ ((tileOf tWb 0).core.slotAt ≠ some 4) ∧
      (4 % 64 = 60 ∨ (tileOf tWb 0).spm.maDue = 0) ∧ ((tileOf tWb 0).st ≠ TileSt.fenced) ∧ ((tileOf tWb 0).spm.writeback = some 0)) := by
  and_intros <;> decide +kernel

theorem test_NarrowSlotScrubsInTurn_2 :
    ((4 % 4 = 0) ∧ ((ringOf tV (siteRing 0)).supply = 0) ∧ ((tileOf tV 0).core.slotAt ≠ some 4) ∧
      (4 % 64 = 60 ∨ (tileOf tV 0).spm.maDue = 0) ∧ ((tileOf tV 0).st ≠ TileSt.fenced) ∧ ((tileOf tV 0).spm.writeback = none) ∧
      ((tileOf tV 0).spm.hints = []) ∧ (corrWords tV 0 (tileOf tV 0).spm.scrubRow = 0) ∧ (deadWords tV 0 (tileOf tV 0).spm.scrubRow = [])) ∧
    ((4 % 4 = 0) ∧ ((ringOf tFn (siteRing 0)).supply = 0) ∧ ((tileOf tFn 0).core.slotAt ≠ some 4) ∧ (4 % 64 ≠ 60) ∧
      ((tileOf tFn 0).spm.maDue ≠ 0)) ∧
    ((60 % 4 = 0) ∧ ((ringOf tFn (siteRing 0)).supply = 0) ∧ ((tileOf tFn 0).core.slotAt ≠ some 60) ∧
      (60 % 64 = 60 ∨ (tileOf tFn 0).spm.maDue = 0) ∧ ((tileOf tFn 0).st = TileSt.fenced)) := by
  and_intros <;> decide +kernel

theorem test_NarrowSlotScrubsInTurn_3 :
    ((8 % 4 = 0) ∧ ((ringOf tHi (siteRing 0)).supply = 0) ∧ ((tileOf tHi 0).core.slotAt ≠ some 8) ∧
      (8 % 64 = 60 ∨ (tileOf tHi 0).spm.maDue = 0) ∧ ((tileOf tHi 0).st ≠ TileSt.fenced) ∧ ((tileOf tHi 0).spm.writeback = none) ∧
      ((tileOf tHi 0).spm.hints = [7, 9]) ∧ (corrWords tHi 0 7 = 0) ∧ (deadWords tHi 0 7 = [])) := by
  and_intros <;> decide +kernel

theorem test_MeshWordsArriveAndPacketsAreSteered :
    ((halts t11 (siteRing 0) = false) ∧ ((tileOf t11 0).stopped = false) ∧ (extProducer (Producer.stream 0) = true) ∧
      (mirrorOn t11 0 = false) ∧ (((ringOf t11 (siteRing 0)).words.any fun x => decide (x.site = 0) && decide (x.buf = 3)) = false) ∧
      ((tileOf t11 0).bound = true) ∧ ((mw 4).epoch = (tileOf t11 0).epoch) ∧ ((tileOf t11 0).st ≠ TileSt.replay) ∧
      ((tileOf t11 0).grace = false) ∧ ((inBuf (tileOf t11 0) 3).live.dropped.contains (inBuf (tileOf t11 0) 3).wrPkt = false) ∧
      ((inBuf (tileOf t11 0) 3).wrw = 0) ∧ (pktRows (inBuf (tileOf t11 0) 3).live (inBuf (tileOf t11 0) 3).wrPkt = []) ∧
      ((inBuf (tileOf t11 0) 3).live.rows.length < 64) ∧
      ((mw 4).eop = false ∨ wordVb (mw 4) ≠ 64 ∨ fldN (leNat (List.take 8 (mw 4).bytes)) 24 3 ≠ 7)) := by
  and_intros <;> decide +kernel

theorem test_MeshWordsArriveAndPacketsAreSteered_2 :
    ((halts t11 (siteRing 0) = false) ∧ ((tileOf t11 0).stopped = false) ∧ (extProducer (Producer.stream 0) = true) ∧
      (mirrorOn t11 0 = false) ∧ (((ringOf t11 (siteRing 0)).words.any fun x => decide (x.site = 0) && decide (x.buf = 3)) = false) ∧
      ((tileOf t11 0).bound = true) ∧ ((mw 5).epoch ≠ (tileOf t11 0).epoch)) ∧
    ((halts t11f (siteRing 0) = false) ∧ ((tileOf t11f 0).stopped = false) ∧ (extProducer (Producer.stream 0) = true) ∧
      ((tileOf t11f 0).bound = true) ∧
      (((ringOf t11f (siteRing 0)).words.any fun x => decide (x.site = 0) && decide (x.buf = 3)) = true ∨ takeWord t11f 0 3 (Producer.stream 0) (mw 4) = none) ∧
      (wordRoom t11f 0 = true)) := by
  and_intros <;> decide +kernel

theorem test_MeshWordsArriveAndPacketsAreSteered_3 :
    ((halts tWd (siteRing 0) = false) ∧ ((tileOf tWd 0).stopped = false) ∧ (extProducer (Producer.stream 0) = true) ∧
      (mirrorOn tWd 0 = false) ∧ (((ringOf tWd (siteRing 0)).words.any fun x => decide (x.site = 0) && decide (x.buf = 3)) = false) ∧
      ((tileOf tWd 0).bound = true) ∧ (mwWd.epoch = (tileOf tWd 0).epoch) ∧ ((tileOf tWd 0).st ≠ TileSt.replay) ∧
      ((tileOf tWd 0).grace = false) ∧ ((inBuf (tileOf tWd 0) 3).live.dropped.contains (inBuf (tileOf tWd 0) 3).wrPkt = false) ∧
      ((inBuf (tileOf tWd 0) 3).wrw = 0) ∧ (pktRows (inBuf (tileOf tWd 0) 3).live (inBuf (tileOf tWd 0) 3).wrPkt = []) ∧
      ((inBuf (tileOf tWd 0) 3).live.rows.length < 64) ∧ (ringTen tWd (siteRing 0) = some 2) ∧ ((tenOf tWd 2).sentence = some sSpec) ∧
      (sSpec.spec = true) ∧ (tokenBuf (tileOf tWd 0) 3 = false) ∧ (mwWd.eop = true) ∧ (wordVb mwWd = 64) ∧
      (fldN (leNat (List.take 8 mwWd.bytes)) 24 3 = 7) ∧ (fldN (leNat (List.take 8 mwWd.bytes)) 27 8 = (tileOf tWd 0).epoch.toNat) ∧
      ((inBuf (tileOf tWd 0) 3).live.rows = [rWd]) ∧ ((inBuf (tileOf tWd 0) 3).rd = 0) ∧ (rWd.discard = false) ∧
      (tkRule (leNat (List.take 8 rWd.bytes)) = tkRule (leNat (List.take 8 mwWd.bytes))) ∧
      (tkSeq (leNat (List.take 8 rWd.bytes)) = tkSeq (leNat (List.take 8 mwWd.bytes))) ∧ (fldN (leNat (List.take 8 rWd.bytes)) 25 2 = 2)) := by
  and_intros <;> decide +kernel

theorem test_MeshWordsArriveAndPacketsAreSteered_4 :
    ((halts t11p (siteRing 0) = false) ∧ ((tileOf t11p 0).stopped = false) ∧ (extProducer (Producer.stream 0) = true) ∧
      ((tileOf t11p 0).bound = true) ∧
      (((ringOf t11p (siteRing 0)).words.any fun x => decide (x.site = 0) && decide (x.buf = 3)) = true ∨ takeWord t11p 0 3 (Producer.stream 0) (mw 4) = none) ∧
      (wordRoom t11p 0 = false)) ∧
    ((halts t11k (siteRing 0) = false) ∧ ((tileOf t11k 0).stopped = false) ∧ (ringTen t11k (siteRing 0) = some 2) ∧
      (vSite t11k 2 0 0 1 = some 1) ∧ (1 ≠ 0) ∧ (halts t11k (siteRing 1) = false) ∧ ((tileOf t11k 1).stopped = false) ∧
      (sentWord t11k 1 (outBuf (tileOf t11k 1) 2) = some (w11 2)) ∧ (hopsOf t11k 1 100 [Side.west] = some (h11, 0, 101)) ∧
      ((h11.any fun h => dark t11k (siteRing h.site)) = false) ∧
      (destIs (outBuf (tileOf t11k 1) 2).dest [Side.west] (tileOf t11k 0) 0 = true) ∧ ([Side.west] = [] ∨ 0 = 0) ∧
      (h11.any (hopTaken t11k) = true)) := by
  and_intros <;> decide +kernel

theorem test_MeshWordsArriveAndPacketsAreSteered_5 :
    ((halts t11m (siteRing 0) = false) ∧ ((tileOf t11m 0).stopped = false) ∧ (ringTen t11m (siteRing 0) = some 2) ∧
      (vSite t11m 2 0 0 1 = some 1) ∧ (1 ≠ 0) ∧ (halts t11m (siteRing 1) = false) ∧ ((tileOf t11m 1).stopped = false) ∧
      (sentWord t11m 1 (outBuf (tileOf t11m 1) 2) = some (w11 2)) ∧ (hopsOf t11m 1 100 [Side.west] = some (h11, 0, 101)) ∧
      ((h11.any fun h => dark t11m (siteRing h.site)) = false) ∧
      (destIs (outBuf (tileOf t11m 1) 2).dest [Side.west] (tileOf t11m 0) 0 = true) ∧ ([Side.west] = [] ∨ 0 = 0) ∧
      (h11.any (hopTaken t11m) = false) ∧ (mirrorOn t11m 0 = false) ∧
      ([Side.west] = [] → ((ringOf t11m (siteRing 0)).words.any fun x => decide (x.site = 0) && decide (x.buf = 0)) = false) ∧
      ((tileOf t11m 0).bound = true) ∧ ((w11 2).epoch = (tileOf t11m 0).epoch) ∧
      (storeWord (inBuf (tileOf t11m 0) 0) (decide ((tileOf t11m 0).st = TileSt.replay)) false (decide ((w11 2).btag.toNat = ((tileOf t11m 0).sentBeat.toNat + 3) % 4)) (Producer.tile 0 0 1) (transit (w11 2) 1 false) = some (b11 0 2))) := by
  and_intros <;> decide +kernel

theorem test_MeshWordsArriveAndPacketsAreSteered_6 :
    ((halts t11m (siteRing 0) = false) ∧ ((tileOf t11m 0).stopped = false) ∧ (ringTen t11m (siteRing 0) = some 2) ∧
      (vSite t11m 2 0 0 1 = some 1) ∧ (1 ≠ 0) ∧ (halts t11m (siteRing 1) = false) ∧ ((tileOf t11m 1).stopped = false) ∧
      (sentWord t11m 1 (outBuf (tileOf t11m 1) 3) = some (w11 3)) ∧ (hopsOf t11m 1 100 [] = some ([], 1, 100)) ∧
      ((([] : List Hop).any fun h => dark t11m (siteRing h.site)) = false) ∧ (destIs (outBuf (tileOf t11m 1) 3).dest [] (tileOf t11m 0) 1 = true) ∧
      (([] : List Nat) = [] ∨ 1 = 0) ∧ ([].any (hopTaken t11m) = false) ∧ (mirrorOn t11m 0 = false) ∧
      (([] : List Side) = [] → ((ringOf t11m (siteRing 0)).words.any fun x => decide (x.site = 0) && decide (x.buf = 1)) = false) ∧
      ((tileOf t11m 0).bound = true) ∧ ((w11 3).epoch = (tileOf t11m 0).epoch) ∧
      (storeWord (inBuf (tileOf t11m 0) 1) (decide ((tileOf t11m 0).st = TileSt.replay)) false (decide ((w11 3).btag.toNat = ((tileOf t11m 0).sentBeat.toNat + 3) % 4)) (Producer.tile 0 0 1) (transit (w11 3) 1 false) = some (b11 1 3))) := by
  and_intros <;> decide +kernel

theorem test_MeshWordsArriveAndPacketsAreSteered_7 :
    ((halts t11w (siteRing 0) = false) ∧ ((tileOf t11w 0).stopped = false) ∧ (mirrorOn t11w 0 = false) ∧
      (coreHeld t11w 0 (beatCc t11w) = false) ∧ ((tileOf t11w 0).st = TileSt.running ∨ (tileOf t11w 0).st = TileSt.replay) ∧
      ((tileOf t11w 0).matchBuf = []) ∧ (tokenBuf (tileOf t11w 0) 3 = true) ∧
      (nextToken (inBuf (tileOf t11w 0) 3) = some (0, tkRow, (tok0 2 5).toNat, false)) ∧ (fldN (tok0 2 5).toNat 24 1 = 1) ∧
      (fldN (tok0 2 5).toNat 27 8 = (tileOf t11w 0).epoch.toNat) ∧ (fldN (tok0 2 5).toNat 25 1 = 0) ∧ (tkDest (tok0 2 5).toNat ≤ 5)) := by
  and_intros <;> decide +kernel

theorem test_MeshWordsArriveAndPacketsAreSteered_8 :
    ((halts t11s (siteRing 0) = false) ∧ ((tileOf t11s 0).stopped = false) ∧ (mirrorOn t11s 0 = false) ∧
      (coreHeld t11s 0 (beatCc t11s) = false) ∧ ((tileOf t11s 0).st = TileSt.running ∨ (tileOf t11s 0).st = TileSt.replay) ∧
      ((tileOf t11s 0).matchBuf = [e11]) ∧ (e11.rule = 2) ∧ (e11.token = some (tok0 2 3).toNat) ∧ (e11.rows = none) ∧ (e11.left = 0) ∧
      (List.find? (fun p => decide (p.1 = 2)) (tileOf t11s 0).rules = some (2, r11)) ∧ (e11.seq = r11.seq % 2 ^ 16) ∧
      (packetRows (inBuf (tileOf t11s 0) r11.din) = some 2) ∧ (takeRows t11s 0 r11.din 2 = some (t11t.1, t11t.2)) ∧
      (tkDest (tok0 2 3).toNat ≤ 3) ∧ ((outBuf (tileOf t11s 0) (tkDest (tok0 2 3).toNat)).dest.isSome = true) ∧
      (min 64 (2 + 1) ≤ outRoom (tileOf t11s 0) (tkDest (tok0 2 3).toNat))) := by
  and_intros <;> decide +kernel

theorem test_RoutersForwardEjectDropOrWait :
    ((List.find? (IsAt 0 (RPort.link Side.north) pOn) tNet3.net = some (fl 0 (RPort.link Side.north) pOn)) ∧ (pOn.crcResent = 0) ∧
      (onDeck tNet3 (fl 0 (RPort.link Side.north) pOn) = false)) ∧
    ((List.find? (IsAt 0 RPort.loc pDead) (tNet pCtl 0 RPort.loc).net = some (fl 0 RPort.loc pCtl)) ∧ (pDead.crcResent = 0) ∧
      (onDeck (tNet pCtl 0 RPort.loc) (fl 0 RPort.loc pCtl) = true) ∧ (pDead.crcDead = true)) ∧
    ((List.find? (IsAt 0 (RPort.link Side.north) pOld) (tNet pOld 0 (RPort.link Side.north)).net = some (fl 0 (RPort.link Side.north) pOld)) ∧
      (pOld.crcResent = 0) ∧ (onDeck (tNet pOld 0 (RPort.link Side.north)) (fl 0 (RPort.link Side.north) pOld) = true) ∧
      (pOld.crcDead = false) ∧ (pOld.urg = false) ∧ (RPort.link Side.north ≠ RPort.loc) ∧
      (3584 ≤ ageNow (tNet pOld 0 (RPort.link Side.north)) (fl 0 (RPort.link Side.north) pOld))) := by
  and_intros <;> decide +kernel

theorem test_RoutersForwardEjectDropOrWait_2 :
    ((List.find? (IsAt 0 RPort.loc pCtl) (tNet pCtl 0 RPort.loc).net = some (fl 0 RPort.loc pCtl)) ∧ (pCtl.crcResent = 0) ∧
      (onDeck (tNet pCtl 0 RPort.loc) (fl 0 RPort.loc pCtl) = true) ∧ (pCtl.crcDead = false) ∧
      (pCtl.urg = true ∨ RPort.loc = RPort.loc ∨ ageNow (tNet pCtl 0 RPort.loc) (fl 0 RPort.loc pCtl) < 3584) ∧ (pCtl.route = [4]) ∧
      (pCtl.body = Body.ctl (cm CType.ack))) ∧
    ((List.find? (IsAt 0 RPort.loc pEnd) (tNet pEnd 0 RPort.loc).net = some (fl 0 RPort.loc pEnd)) ∧ (pEnd.crcResent = 0) ∧
      (onDeck (tNet pEnd 0 RPort.loc) (fl 0 RPort.loc pEnd) = true) ∧ (pEnd.crcDead = false) ∧
      (pEnd.urg = true ∨ RPort.loc = RPort.loc ∨ ageNow (tNet pEnd 0 RPort.loc) (fl 0 RPort.loc pEnd) < 3584) ∧ (pEnd.route = [4]) ∧
      (pEnd.body = Body.data (dm DType.svc 8)) ∧ (wins (tNet pEnd 0 RPort.loc) 0 (fl 0 RPort.loc pEnd) [RPort.loc] RPort.loc = true) ∧
      (ejects (tNet pEnd 0 RPort.loc) 0 (dm DType.svc 8) = true) ∧ ((ringOf (tNet pEnd 0 RPort.loc) (fieldRing 0)).ejectOff = false)) := by
  and_intros <;> decide +kernel

theorem test_RoutersForwardEjectDropOrWait_3 :
    ((List.find? (IsAt 0 RPort.loc pEnd) tLostR.net = some (fl 0 RPort.loc pEnd)) ∧ (pEnd.crcResent = 0) ∧
      (onDeck tLostR (fl 0 RPort.loc pEnd) = true) ∧ (pEnd.crcDead = false) ∧
      (pEnd.urg = true ∨ RPort.loc = RPort.loc ∨ ageNow tLostR (fl 0 RPort.loc pEnd) < 3584) ∧ (pEnd.route = [4]) ∧
      (pEnd.body = Body.data (dm DType.svc 8)) ∧ (wins tLostR 0 (fl 0 RPort.loc pEnd) [RPort.loc] RPort.loc = true) ∧
      (ejects tLostR 0 (dm DType.svc 8) = true) ∧ ((ringOf tLostR (fieldRing 0)).ejectOff = true)) := by
  and_intros <;> decide +kernel

theorem test_RoutersForwardEjectDropOrWait_4 :
    ((List.find? (IsAt 0 RPort.loc pOn) (tNet pOn 0 RPort.loc).net = some (fl 0 RPort.loc pOn)) ∧ (pOn.crcResent = 0) ∧
      (onDeck (tNet pOn 0 RPort.loc) (fl 0 RPort.loc pOn) = true) ∧ (pOn.crcDead = false) ∧
      (pOn.urg = true ∨ RPort.loc = RPort.loc ∨ ageNow (tNet pOn 0 RPort.loc) (fl 0 RPort.loc pOn) < 3584) ∧ (pOn.route = [2, 4]) ∧
      ([4] ≠ []) ∧ (2 ≤ 3) ∧ (2 = 3 → RPort.loc ≠ RPort.loc) ∧ (linkOk (tNet pOn 0 RPort.loc) 0 (turnSide pOn.head 2) = true) ∧
      (neighbour 0 (turnSide pOn.head 2) = some 12) ∧
      (wins (tNet pOn 0 RPort.loc) 0 (fl 0 RPort.loc pOn) [RPort.link Side.south] (RPort.link (turnSide pOn.head 2)) = true)) := by
  and_intros <;> decide +kernel

theorem test_RoutersForwardEjectDropOrWait_5 :
    ((List.find? (IsAt 0 (RPort.link Side.west) pOn) (tNet pOn 0 (RPort.link Side.west)).net = some (fl 0 (RPort.link Side.west) pOn)) ∧
      (pOn.crcResent = 0) ∧ (onDeck (tNet pOn 0 (RPort.link Side.west)) (fl 0 (RPort.link Side.west) pOn) = true) ∧ (pOn.crcDead = false) ∧
      (pOn.urg = true ∨ RPort.link Side.west = RPort.loc ∨ ageNow (tNet pOn 0 (RPort.link Side.west)) (fl 0 (RPort.link Side.west) pOn) < 3584) ∧
      (pOn.route = [2, 4]) ∧ ([4] ≠ []) ∧ (2 ≤ 3) ∧ (2 = 3 → RPort.link Side.west ≠ RPort.loc) ∧
      (linkOk (tNet pOn 0 (RPort.link Side.west)) 0 (turnSide pOn.head 2) = true) ∧ (neighbour 0 (turnSide pOn.head 2) = some 12) ∧
      (wins (tNet pOn 0 (RPort.link Side.west)) 0 (fl 0 (RPort.link Side.west) pOn) [RPort.link Side.south] (RPort.link (turnSide pOn.head 2)) = true)) := by
  and_intros <;> decide +kernel

theorem test_RoutersForwardEjectDropOrWait_6 :
    ((List.find? (IsAt 0 RPort.loc pOn) (tNet pOn 0 RPort.loc).net = some (fl 0 RPort.loc pOn)) ∧ (pOn.crcResent = 0) ∧
      (onDeck (tNet pOn 0 RPort.loc) (fl 0 RPort.loc pOn) = true) ∧ (pOn.crcDead = false) ∧
      (pOn.urg = true ∨ RPort.loc = RPort.loc ∨ ageNow (tNet pOn 0 RPort.loc) (fl 0 RPort.loc pOn) < 3584) ∧ (pOn.route = [2, 4]) ∧
      ([4] ≠ []) ∧ (2 ≤ 3) ∧ (2 = 3 → RPort.loc ≠ RPort.loc) ∧ (linkOk (tNet pOn 0 RPort.loc) 0 (turnSide pOn.head 2) = true) ∧
      (neighbour 0 (turnSide pOn.head 2) = some 12) ∧ (pOn.urg = false) ∧ (pOn.dcnt ≠ 255 ∨ pOn.det = true ∧ 2 = 3)) := by
  and_intros <;> decide +kernel

theorem test_RoutersForwardEjectDropOrWait_7 :
    ((List.find? (IsAt 0 RPort.loc pDcnt) (tNet pDcnt 0 RPort.loc).net = some (fl 0 RPort.loc pDcnt)) ∧ (pDcnt.crcResent = 0) ∧
      (onDeck (tNet pDcnt 0 RPort.loc) (fl 0 RPort.loc pDcnt) = true) ∧ (pDcnt.crcDead = false) ∧
      (pDcnt.urg = true ∨ RPort.loc = RPort.loc ∨ ageNow (tNet pDcnt 0 RPort.loc) (fl 0 RPort.loc pDcnt) < 3584) ∧ (pDcnt.route = [2, 4]) ∧
      ([4] ≠ []) ∧ (2 ≤ 3) ∧ (2 = 3 → RPort.loc ≠ RPort.loc) ∧ (linkOk (tNet pDcnt 0 RPort.loc) 0 (turnSide pDcnt.head 2) = true) ∧
      (neighbour 0 (turnSide pDcnt.head 2) = some 12) ∧ (pDcnt.urg = false) ∧ (pDcnt.det = false ∨ 2 ≠ 3) ∧ (pDcnt.dcnt = 255)) := by
  and_intros <;> decide +kernel

theorem test_RoutersForwardEjectDropOrWait_8 :
    ((List.find? (IsAt 0 RPort.loc pEc) (tNet pEc 0 RPort.loc).net = some (fl 0 RPort.loc pEc)) ∧ (pEc.crcResent = 0) ∧
      (onDeck (tNet pEc 0 RPort.loc) (fl 0 RPort.loc pEc) = true) ∧ (pEc.crcDead = false) ∧
      (pEc.urg = true ∨ RPort.loc = RPort.loc ∨ ageNow (tNet pEc 0 RPort.loc) (fl 0 RPort.loc pEc) < 3584) ∧ (pEc.route = [5#3, 4]) ∧
      ([4] ≠ []) ∧ (pEc.body = Body.data (dm DType.svc 8)) ∧ (linkOk (tNet pEc 0 RPort.loc) 0 pEc.head = true) ∧
      (neighbour 0 pEc.head = some 1) ∧
      (wins (tNet pEc 0 RPort.loc) 0 (fl 0 RPort.loc pEc) [RPort.link Side.east] (RPort.link pEc.head) = true)) := by
  and_intros <;> decide +kernel

theorem test_RoutersForwardEjectDropOrWait_9 :
    ((List.find? (IsAt 0 RPort.loc pFk) (tNet pFk 0 RPort.loc).net = some (fl 0 RPort.loc pFk)) ∧ (pFk.crcResent = 0) ∧
      (onDeck (tNet pFk 0 RPort.loc) (fl 0 RPort.loc pFk) = true) ∧ (pFk.crcDead = false) ∧
      (pFk.urg = true ∨ RPort.loc = RPort.loc ∨ ageNow (tNet pFk 0 RPort.loc) (fl 0 RPort.loc pFk) < 3584) ∧ (pFk.route = [7, 4, 0, 4]) ∧
      (7 = 6 ∨ 7 = 7) ∧ (subroute 1 [4, 0, 4] = some ([4], [0, 4])) ∧ (Option.map (fun x => x.2) (subroute 1 [0, 4]) = some []) ∧
      (linkOk (tNet pFk 0 RPort.loc) 0 (turnSide pFk.head (7 - 5)) = true) ∧ (linkOk (tNet pFk 0 RPort.loc) 0 pFk.head = true) ∧
      (neighbour 0 (turnSide pFk.head (7 - 5)) = some 12) ∧ (neighbour 0 pFk.head = some 1) ∧
      (wins (tNet pFk 0 RPort.loc) 0 (fl 0 RPort.loc pFk) [RPort.link Side.south, RPort.link Side.east] (RPort.link (turnSide pFk.head (7 - 5))) = true) ∧
      (wins (tNet pFk 0 RPort.loc) 0 (fl 0 RPort.loc pFk) [RPort.link Side.south, RPort.link Side.east] (RPort.link pFk.head) = true)) := by
  and_intros <;> decide +kernel

theorem test_RoutersForwardEjectDropOrWait_10 :
    ((List.find? (IsAt 0 RPort.loc pMl) tLostM.net = some (fl 0 RPort.loc pMl)) ∧ (pMl.crcResent = 0) ∧
      (onDeck tLostM (fl 0 RPort.loc pMl) = true) ∧ (pMl.crcDead = false) ∧
      (pMl.urg = true ∨ RPort.loc = RPort.loc ∨ ageNow tLostM (fl 0 RPort.loc pMl) < 3584) ∧ (pMl.route = [4]) ∧
      (pMl.body =   Body.data     (let __src := dm DType.mcast 8;     { dtype := __src.dtype, btag := __src.btag, src := __src.src, dst := __src.dst, len := __src.len, seq := __src.seq, ten := __src.ten, rgen := __src.rgen, tgen := __src.tgen, ngen := __src.ngen, epoch := __src.epoch, tspec := BitVec.ofNat 256 (2 ^ 16 + (epAddr 0 72).toNat * 2 ^ 24), payload := __src.payload, psn := __src.psn, sch := __src.sch, rch := __src.rch, who := __src.who : DataMsg })) ∧
      (wins tLostM 0 (fl 0 RPort.loc pMl) [RPort.loc] RPort.loc = true) ∧
      (ejects tLostM 0     (let __src := dm DType.mcast 8;     { dtype := __src.dtype, btag := __src.btag, src := __src.src, dst := __src.dst, len := __src.len, seq := __src.seq, ten := __src.ten, rgen := __src.rgen, tgen := __src.tgen, ngen := __src.ngen, epoch := __src.epoch, tspec := BitVec.ofNat 256 (2 ^ 16 + (epAddr 0 72).toNat * 2 ^ 24), payload := __src.payload, psn := __src.psn, sch := __src.sch, rch := __src.rch, who := __src.who : DataMsg }) =   true) ∧
      ((ringOf tLostM (fieldRing 0)).ejectOff = true)) := by
  and_intros <;> decide +kernel

theorem test_DescriptorsEnterTheirChannelInOrder :
    ((siteField 648 = 9) ∧ (dsc.dst = epAddr (siteField 648) (siteNo 648)) ∧ (dark t3r (siteRing 648) = false) ∧
      (((ringOf t3r (siteRing 648)).ejected.any fun p => decide (p.2 = dsc)) = true ∨ poolFits t3r (siteRing 648) (tileQueue (tileOf t3r 648)) dsc = true) ∧
      (∀ e ∈ queueOf (ringOf t3r (siteRing 648)) (tileQueue (tileOf t3r 648)), e.dst = dsc.dst → e.rch = dsc.rch → e.seq.toNat % 256 = dsc.seq.toNat % 256 → e = dsc) ∧
      (ringTen t3r (siteRing 648) = some 2) ∧ (fld dsc.tspec 208 8 = (tileOf t3r 648).epoch.toNat) ∧
      (fld dsc.tspec 200 8 = (tileOf t3r 648).gen.toNat) ∧ ((recvOf (tileOf t3r 648) dsc.rch).expect % 256 = dsc.seq.toNat % 256) ∧
      (recvClosed (tileOf t3r 648) dsc.rch = false) ∧ (srcMatches t3r 2 (recvOf (tileOf t3r 648) dsc.rch) dsc = true) ∧
      ((recvOf (tileOf t3r 648) dsc.rch).queue.length < 16) ∧ ((recvOf (tileOf t3r 648) dsc.rch).ring = false) ∧
      (graceHeld (tileOf t3r 648) dsc = false)) := by
  and_intros <;> decide +kernel

theorem test_DescriptorsEnterTheirChannelInOrder_2 :
    ((epNo eg.dst = 77) ∧ (epPort eg.dst = some 9) ∧ (ringTen tEg (fieldRing (epField eg.src)) = some 2) ∧
      (egressBinding tEg 2 9 eg = some bnd) ∧ (fld eg.tspec 208 8 = (tenOf tEg 2).epoch.toNat) ∧ (agentPos tEg eg = SeqPos.next) ∧
      (parkedNext (agentGot tEg eg) eg = none)) ∧
    ((epNo egO.dst = 77) ∧ (epPort egO.dst = some 9) ∧ (ringTen tEg (fieldRing (epField egO.src)) = some 2) ∧
      (egressBinding tEg 2 9 egO = some bnd) ∧ (fld egO.tspec 208 8 ≠ (tenOf tEg 2).epoch.toNat)) ∧
    ((epNo egD.dst = 77) ∧ (epPort egD.dst = some 9) ∧ (ringTen tEg (fieldRing (epField egD.src)) = some 2) ∧
      (egressBinding tEg 2 9 egD = some bnd) ∧ (fld egD.tspec 208 8 = (tenOf tEg 2).epoch.toNat) ∧ (agentPos tEg egD = SeqPos.dup)) := by
  and_intros <;> decide +kernel

theorem test_DescriptorsEnterTheirChannelInOrder_3 :
    ((epNo egL.dst = 77) ∧ (epPort egL.dst = some 9) ∧ (ringTen tEg (fieldRing (epField egL.src)) = some 2) ∧
      (egressBinding tEg 2 9 egL = some bnd) ∧ (fld egL.tspec 208 8 = (tenOf tEg 2).epoch.toNat) ∧ (agentPos tEg egL = SeqPos.later) ∧
      ((egL.seq.toNat + 256 - SMap.get 0 tEg.agentSeq (agentKey egL) % 256) % 256 ≤ 15) ∧ (egL ∉ tEg.agentPark)) ∧
    ((epNo eg.dst = 77) ∧ (epPort eg.dst = some 9) ∧ (ringTen tEg0 (fieldRing (epField eg.src)) = some 2) ∧
      (egressBinding tEg0 2 9 eg = none) ∧ (fld eg.tspec 208 8 = (tenOf tEg0 2).epoch.toNat) ∧ (agentPos tEg0 eg = SeqPos.next) ∧
      (parkedNext (agentGot tEg0 eg) eg = none)) := by
  and_intros <;> decide +kernel

theorem test_DescriptorsEnterTheirChannelInOrder_4 :
    ((dark t3q (siteRing 648) = false) ∧ (queueOf (ringOf t3q (siteRing 648)) (tileQueue (tileOf t3q 648)) = [dsc]) ∧
      (dsc.dst = epAddr (siteField 648) (siteNo 648)) ∧ (dsc.rch = 4) ∧ (dsc.seq.toNat % 256 = (recvOf (tileOf t3q 648) 4).expect % 256) ∧
      ((recvOf (tileOf t3q 648) 4).queue.length < 16) ∧ ((recvOf (tileOf t3q 648) 4).ring = false) ∧
      (graceHeld (tileOf t3q 648) dsc = false)) := by
  and_intros <;> decide +kernel

theorem test_FenceAdmitsHoldsAndApplies :
    ((dark (tF Attr.master) 3 = false) ∧
      (((ringOf (tF Attr.master) 3).ejected.any fun p => decide (p.2 = dm DType.wwrite 8)) = true ∨ poolFits (tF Attr.master) 3 386 (dm DType.wwrite 8) = true) ∧
      (ringTen (tF Attr.master) 3 = some 2) ∧ ((dm DType.wwrite 8).ten.toNat = 2) ∧
      ((dm DType.wwrite 8).ngen = (tenOf (tF Attr.master) 2).gen) ∧
      (epNo (dm DType.wwrite 8).src < 72 → (dm DType.wwrite 8).epoch = (tenOf (tF Attr.master) 2).epoch) ∧
      (seqPos (tF Attr.master) 3 (dm DType.wwrite 8) = SeqPos.next ∧ ∀ (q : Nat), q = 386 ∨ q = 388 ∨ q = 390 → ∀ e ∈ queueOf (ringOf (tF Attr.master) 3) q, seqPos (takeSeq (tF Attr.master) 3 (dm DType.wwrite 8)) 3 e ≠ SeqPos.next) ∧
      (admits (Entered (tF Attr.master) 3 (dm DType.wwrite 8)) 3 2 (dm DType.wwrite 8) = true) ∧
      ((dm DType.wwrite 8).dtype = DType.wwrite) ∧ (reqCheck (tF Attr.master) 3 2 (dm DType.wwrite 8) = Except.ok wM) ∧
      ((provisional (tenOf (tF Attr.master) 2) (dm DType.wwrite 8) && (decide (wM.attr = Attr.master) || decide (wM.attr = Attr.output))) = false)) := by
  and_intros <;> first | decide +kernel | (with_reducible refine ok_of ?_; decide +kernel) |
    (rintro _ (rfl | rfl | rfl) <;> decide +kernel)

theorem test_FenceAdmitsHoldsAndApplies_2 :
    ((dark (tF Attr.master) 3 = false) ∧
      (((ringOf (tF Attr.master) 3).ejected.any fun p => decide (p.2 = dmP)) = true ∨ poolFits (tF Attr.master) 3 386 dmP = true) ∧
      (ringTen (tF Attr.master) 3 = some 2) ∧ (dmP.ten.toNat = 2) ∧ (dmP.ngen = (tenOf (tF Attr.master) 2).gen) ∧
      (epNo dmP.src < 72 → dmP.epoch = (tenOf (tF Attr.master) 2).epoch) ∧
      (seqPos (tF Attr.master) 3 dmP = SeqPos.next ∧ ∀ (q : Nat), q = 386 ∨ q = 388 ∨ q = 390 → ∀ e ∈ queueOf (ringOf (tF Attr.master) 3) q, seqPos (takeSeq (tF Attr.master) 3 dmP) 3 e ≠ SeqPos.next) ∧
      (admits (Entered (tF Attr.master) 3 dmP) 3 2 dmP = true) ∧ (dmP.dtype = DType.wwrite) ∧
      (reqCheck (tF Attr.master) 3 2 dmP = Except.ok wM) ∧
      ((provisional (tenOf (tF Attr.master) 2) dmP && (decide (wM.attr = Attr.master) || decide (wM.attr = Attr.output))) = true)) := by
  and_intros <;> first | decide +kernel | (with_reducible refine ok_of ?_; decide +kernel) |
    (rintro _ (rfl | rfl | rfl) <;> decide +kernel)

theorem test_FenceAdmitsHoldsAndApplies_3 :
    ((dark (tF Attr.master) 3 = false) ∧
      (((ringOf (tF Attr.master) 3).ejected.any fun p => decide (p.2 = dm DType.wread 1024)) = true ∨ poolFits (tF Attr.master) 3 388 (dm DType.wread 1024) = true) ∧
      (ringTen (tF Attr.master) 3 = some 2) ∧ ((dm DType.wread 1024).ten.toNat = 2) ∧
      ((dm DType.wread 1024).ngen = (tenOf (tF Attr.master) 2).gen) ∧
      (epNo (dm DType.wread 1024).src < 72 → (dm DType.wread 1024).epoch = (tenOf (tF Attr.master) 2).epoch) ∧
      (seqPos (tF Attr.master) 3 (dm DType.wread 1024) = SeqPos.next ∧ ∀ (q : Nat), q = 386 ∨ q = 388 ∨ q = 390 → ∀ e ∈ queueOf (ringOf (tF Attr.master) 3) q, seqPos (takeSeq (tF Attr.master) 3 (dm DType.wread 1024)) 3 e ≠ SeqPos.next) ∧
      (admits (Entered (tF Attr.master) 3 (dm DType.wread 1024)) 3 2 (dm DType.wread 1024) = true) ∧
      ((dm DType.wread 1024).dtype = DType.wread) ∧ (reqCheck (tF Attr.master) 3 2 (dm DType.wread 1024) = Except.ok wM)) ∧
    ((ringTen (tF Attr.master) 3 = some 2) ∧ (dmT.ten.toNat ≠ 2) ∧ (dark (tF Attr.master) 3 = false) ∧
      (((ringOf (tF Attr.master) 3).ejected.any fun p => decide (p.2 = dmT)) = true ∨ poolFits (tF Attr.master) 3 386 dmT = true)) ∧
    ((ringTen (tF Attr.master) 3 = some 2) ∧ (dmT.ten.toNat ≠ 2) ∧ (dark (tF Attr.master) 3 = false) ∧
      (((ringOf (tF Attr.master) 3).ejected.any fun p => decide (p.2 = dmT)) = true ∨ poolFits (tF Attr.master) 3 388 dmT = true)) := by
  and_intros <;> first | decide +kernel | (with_reducible refine ok_of ?_; decide +kernel) |
    (rintro _ (rfl | rfl | rfl) <;> decide +kernel)

theorem test_FenceAdmitsHoldsAndApplies_4 :
    ((ringTen (tFq 386 (dm DType.wwrite 8)) 3 = some 2) ∧ (dark (tFq 386 (dm DType.wwrite 8)) 3 = false) ∧
      (applicable (tFq 386 (dm DType.wwrite 8)) 3 true = [dm DType.wwrite 8]) ∧ ((dm DType.wwrite 8).dtype = DType.wwrite) ∧
      (reqCheck (tFq 386 (dm DType.wwrite 8)) 3 2 (dm DType.wwrite 8) = Except.ok wM) ∧
      (aU true (dm DType.wwrite 8) = applyReq (takeReq (tFq 386 (dm DType.wwrite 8)) 3 true (dm DType.wwrite 8)) 3 2 (dm DType.wwrite 8)) ∧
      (∀ e ∈ queueOf (ringOf (aU true (dm DType.wwrite 8)) 3) 386 ++ queueOf (ringOf (aU true (dm DType.wwrite 8)) 3) 388 ++ queueOf (ringOf (aU true (dm DType.wwrite 8)) 3) 390, admits (aU true (dm DType.wwrite 8)) 3 2 e = false)) := by
  and_intros <;> first | (with_reducible refine ok_of ?_; decide +kernel) | decide +kernel

theorem test_FenceAdmitsHoldsAndApplies_5 :
    ((ringTen (tFq 388 (dm DType.wread 8)) 3 = some 2) ∧ (dark (tFq 388 (dm DType.wread 8)) 3 = false) ∧
      (applicable (tFq 388 (dm DType.wread 8)) 3 false = [dm DType.wread 8]) ∧ ((dm DType.wread 8).dtype = DType.wread) ∧
      (reqCheck (tFq 388 (dm DType.wread 8)) 3 2 (dm DType.wread 8) = Except.ok wM) ∧
      (aU false (dm DType.wread 8) = applyReq (takeReq (tFq 388 (dm DType.wread 8)) 3 false (dm DType.wread 8)) 3 2 (dm DType.wread 8)) ∧
      (∀ e ∈ queueOf (ringOf (aU false (dm DType.wread 8)) 3) 386 ++ queueOf (ringOf (aU false (dm DType.wread 8)) 3) 388 ++ queueOf (ringOf (aU false (dm DType.wread 8)) 3) 390, admits (aU false (dm DType.wread 8)) 3 2 e = false) ∧
      (((ringOf (tFq 388 (dm DType.wread 8)) 3).commitQ.any fun e => e.released && decide (e.msg = dm DType.wread 8)) = false)) ∧
    ((dark (tF Attr.master) 3 = false) ∧
      (((ringOf (tF Attr.master) 3).ejected.any fun p => decide (p.2 = dm DType.svc 8)) = true ∨ poolFits (tF Attr.master) 3 390 (dm DType.svc 8) = true) ∧
      (seqPos (tF Attr.master) 3 (dm DType.svc 8) = SeqPos.next) ∧
      (∀ (q : Nat), q = 386 ∨ q = 388 ∨ q = 390 → ∀ e ∈ queueOf (ringOf (tF Attr.master) 3) q, seqPos (takeSeq (tF Attr.master) 3 (dm DType.svc 8)) 3 e ≠ SeqPos.next) ∧
      (admits (Entered (tF Attr.master) 3 (dm DType.svc 8)) 3 ((ringTen (tF Attr.master) 3).getD 64) (dm DType.svc 8) = true)) ∧
    ((applicable (tF Attr.master) 3 false = [])) ∧
    ((dark tDk3 3 = true)) ∧
    ((dark tFull 3 = false) ∧ (((ringOf tFull 3).ejected.any fun p => decide (p.2 = dm DType.svc 1024)) = false) ∧
      (poolFits tFull 3 390 (dm DType.svc 1024) = false)) := by
  and_intros <;> first | decide +kernel | (with_reducible refine ok_of ?_; decide +kernel) |
    (rintro _ (rfl | rfl | rfl) <;> decide +kernel)

theorem test_FenceAdmitsHoldsAndApplies_6 :
    ((mcTargets 9 dmM = [(1, mcA)]) ∧ (darkEp (tF Attr.master) mcA = false) ∧
      (((fenceSrc (tF Attr.master) (fieldRing 9) (2 ^ 16 + mcA.toNat * 2 ^ 16 + dmM.src.toNat)).answers.any fun p => decide (p.1 = dmM.seq.toNat)) = false) ∧
      (poolFits (Entered (tF Attr.master) (fieldRing 9) dmM) (fieldRing 9) 390 dmM = true)) := by
  and_intros <;> decide +kernel

theorem test_RepliesReleaseCopiesAndRequestsRetry :
    ((darkEp (tRq DType.wwrite) (c3 CType.ack (2 ^ 29)).dst = false) ∧
      (¬gensNow (tRq DType.wwrite) (c3 CType.ack (2 ^ 29)).dst (answeredTen (tRq DType.wwrite) (c3 CType.ack (2 ^ 29))) (fld (c3 CType.ack (2 ^ 29)).arg 29 8) (fld (c3 CType.ack (2 ^ 29)).arg (29 + 8) 8) (fld (c3 CType.ack (2 ^ 29)).arg (29 + 16) 8) = true)) ∧
    ((darkEp (tRq DType.wwrite) (c3 CType.nack (2 ^ 29)).dst = false) ∧
      (¬gensNow (tRq DType.wwrite) (c3 CType.nack (2 ^ 29)).dst (answeredTen (tRq DType.wwrite) (c3 CType.nack (2 ^ 29))) (fld (c3 CType.nack (2 ^ 29)).arg 29 8) (fld (c3 CType.nack (2 ^ 29)).arg (29 + 8) 8) (fld (c3 CType.nack (2 ^ 29)).arg (29 + 16) 8) = true)) ∧
    ((darkEp (tRq DType.wwrite) (c3 CType.ack 9).dst = false) ∧
      (gensNow (tRq DType.wwrite) (c3 CType.ack 9).dst (answeredTen (tRq DType.wwrite) (c3 CType.ack 9)) (fld (c3 CType.ack 9).arg 29 8) (fld (c3 CType.ack 9).arg (29 + 8) 8) (fld (c3 CType.ack 9).arg (29 + 16) 8) = true) ∧
      (fld (c3 CType.ack 9).arg 20 1 = 0) ∧ (fld (c3 CType.ack 9).arg 16 4 ≠ 1)) ∧
    ((darkEp (tRq DType.wwrite) (c3 CType.ack 9).dst = false) ∧
      (gensNow (tRq DType.wwrite) (c3 CType.ack 9).dst (answeredTen (tRq DType.wwrite) (c3 CType.ack 9)) (fld (c3 CType.ack 9).arg 29 8) (fld (c3 CType.ack 9).arg (29 + 8) 8) (fld (c3 CType.ack 9).arg (29 + 16) 8) = true) ∧
      (fld (c3 CType.ack 9).arg 20 1 = 0) ∧ (fld (c3 CType.ack 9).arg 16 4 ≠ 1) ∧
      (∀ q ∈ reqsOf (tRq DType.wwrite) (c3 CType.ack 9).dst, q.sent = true)) ∧
    ((darkEp (tRq DType.wwrite) (c3 CType.ack (9 + 2 ^ 16)).dst = false) ∧
      (gensNow (tRq DType.wwrite) (c3 CType.ack (9 + 2 ^ 16)).dst (answeredTen (tRq DType.wwrite) (c3 CType.ack (9 + 2 ^ 16))) (fld (c3 CType.ack (9 + 2 ^ 16)).arg 29 8) (fld (c3 CType.ack (9 + 2 ^ 16)).arg (29 + 8) 8) (fld (c3 CType.ack (9 + 2 ^ 16)).arg (29 + 16) 8) = true) ∧
      (fld (c3 CType.ack (9 + 2 ^ 16)).arg 20 1 = 0) ∧ (fld (c3 CType.ack (9 + 2 ^ 16)).arg 16 4 = 1)) := by
  and_intros <;> decide +kernel

theorem test_RepliesReleaseCopiesAndRequestsRetry_2 :
    ((darkEp (tRq DType.wwrite) (c3 CType.nack 9).dst = false) ∧
      (gensNow (tRq DType.wwrite) (c3 CType.nack 9).dst (answeredTen (tRq DType.wwrite) (c3 CType.nack 9)) (fld (c3 CType.nack 9).arg 29 8) (fld (c3 CType.nack 9).arg (29 + 8) 8) (fld (c3 CType.nack 9).arg (29 + 16) 8) = true) ∧
      (fld (c3 CType.nack 9).arg 20 1 = 0) ∧
      (∀ q ∈ reqsOf (tRq DType.wwrite) (c3 CType.nack 9).dst, q.msg.dtype ≠ DType.desc ∧ q.sent = true)) ∧
    ((darkEp (tRq DType.desc) (c3 CType.nack (9 + 2 ^ 16 + 6 * 2 ^ 24)).dst = false) ∧
      (gensNow (tRq DType.desc) (c3 CType.nack (9 + 2 ^ 16 + 6 * 2 ^ 24)).dst (answeredTen (tRq DType.desc) (c3 CType.nack (9 + 2 ^ 16 + 6 * 2 ^ 24))) (fld (c3 CType.nack (9 + 2 ^ 16 + 6 * 2 ^ 24)).arg 29 8) (fld (c3 CType.nack (9 + 2 ^ 16 + 6 * 2 ^ 24)).arg (29 + 8) 8) (fld (c3 CType.nack (9 + 2 ^ 16 + 6 * 2 ^ 24)).arg (29 + 16) 8) = true) ∧
      (epSite (c3 CType.nack (9 + 2 ^ 16 + 6 * 2 ^ 24)).dst = some (ringField 3 0 * 72)) ∧
      (fld (c3 CType.nack (9 + 2 ^ 16 + 6 * 2 ^ 24)).arg 16 4 = 1) ∧ (fld (c3 CType.nack (9 + 2 ^ 16 + 6 * 2 ^ 24)).arg 20 1 = 0) ∧
      (List.find? (answers (c3 CType.nack (9 + 2 ^ 16 + 6 * 2 ^ 24))) (tileOf (tRq DType.desc) (ringField 3 0 * 72)).reqs = some (rq DType.desc)) ∧
      ((rq DType.desc).msg.dtype = DType.desc)) ∧
    ((darkEp (tRq DType.desc) (c3 CType.credit (6 + 4 * 2 ^ 5)).dst = false) ∧
      (gensNow (tRq DType.desc) (c3 CType.credit (6 + 4 * 2 ^ 5)).dst (ringTen (tRq DType.desc) (fieldRing (epField (c3 CType.credit (6 + 4 * 2 ^ 5)).src))) (fld (c3 CType.credit (6 + 4 * 2 ^ 5)).arg 13 8) (fld (c3 CType.credit (6 + 4 * 2 ^ 5)).arg (13 + 8) 8) (fld (c3 CType.credit (6 + 4 * 2 ^ 5)).arg (13 + 16) 8) = true) ∧
      (epSite (c3 CType.credit (6 + 4 * 2 ^ 5)).dst = some (ringField 3 0 * 72)) ∧
      (((sendOf (tileOf (tRq DType.desc) (ringField 3 0 * 72)) (fld (c3 CType.credit (6 + 4 * 2 ^ 5)).arg 0 5)).sent + 256 - fld (c3 CType.credit (6 + 4 * 2 ^ 5)).arg 5 8) % 256 ≤ 16)) := by
  and_intros <;> decide +kernel

theorem test_RepliesReleaseCopiesAndRequestsRetry_3 :
    ((darkEp (tRq DType.desc) (c3 CType.credit (6 + 20 * 2 ^ 5)).dst = false) ∧
      (gensNow (tRq DType.desc) (c3 CType.credit (6 + 20 * 2 ^ 5)).dst (ringTen (tRq DType.desc) (fieldRing (epField (c3 CType.credit (6 + 20 * 2 ^ 5)).src))) (fld (c3 CType.credit (6 + 20 * 2 ^ 5)).arg 13 8) (fld (c3 CType.credit (6 + 20 * 2 ^ 5)).arg (13 + 8) 8) (fld (c3 CType.credit (6 + 20 * 2 ^ 5)).arg (13 + 16) 8) = true) ∧
      (epSite (c3 CType.credit (6 + 20 * 2 ^ 5)).dst = some (ringField 3 0 * 72)) ∧
      (((sendOf (tileOf (tRq DType.desc) (ringField 3 0 * 72)) (fld (c3 CType.credit (6 + 20 * 2 ^ 5)).arg 0 5)).sent + 256 - fld (c3 CType.credit (6 + 20 * 2 ^ 5)).arg 5 8) % 256 ≤ 16)) ∧
    ((darkEp (tRq DType.wread) rdM.dst = false) ∧ (dark (tRq DType.wread) 3 = false) ∧
      (((ringOf (tRq DType.wread) 3).ejected.any fun p => decide (p.2 = rdM)) = true ∨ poolFits (tRq DType.wread) 3 389 rdM = true) ∧
      (gensNow (tRq DType.wread) rdM.dst (some rdM.ten.toNat) rdM.rgen.toNat rdM.tgen.toNat rdM.ngen.toNat = true) ∧
      (∀ q ∈ reqsOf (tRq DType.wread) rdM.dst, q.sent = true)) ∧
    ((darkEp (tRq DType.wread) rdO.dst = false) ∧ (dark (tRq DType.wread) 3 = false) ∧
      (((ringOf (tRq DType.wread) 3).ejected.any fun p => decide (p.2 = rdO)) = true ∨ poolFits (tRq DType.wread) 3 389 rdO = true) ∧
      (gensNow (tRq DType.wread) rdO.dst (some rdO.ten.toNat) rdO.rgen.toNat rdO.tgen.toNat rdO.ngen.toNat = false)) ∧
    ((dark (tRq DType.wread) 3 = false) ∧ ((c3 CType.abort 5).ctype = CType.abort)) ∧
    ((dark (tRq DType.wread) 3 = false) ∧ ((c3 CType.release 5).ctype = CType.release)) := by
  and_intros <;> decide +kernel

theorem test_RepliesReleaseCopiesAndRequestsRetry_4 :
    ((rc3 = recvOf (tileOf tPr 648) (fld (c3 CType.probe 4).arg 0 5)) ∧ (darkEp tPr (c3 CType.probe 4).dst = false) ∧
      (epNo (c3 CType.probe 4).dst < 72) ∧ (ringTen tPr (siteRing 648) = some 2) ∧ (rc3.srcVfield.toNat < 6) ∧
      (vSite tPr 2 rc3.srcVring.toNat rc3.srcVfield.toNat rc3.srcVtile.toNat = some (ringField 3 0 * 72)) ∧
      ((routeOf tPr (epField (epAddr (siteField 648) (siteNo 648))) (epField (epAddr (siteField (ringField 3 0 * 72)) (siteNo (ringField 3 0 * 72)))) 39).isSome = true)) ∧
    (({ vtile := 0, vfield := 0, vring := 0, unit := 1, kind := 1, ch := 6, since := 5 : WaitRec } ∈ waitRecs (tileOf tPr 648)) ∧
      (dark tPr (siteRing 648) = false) ∧ (1 ≤ 1) ∧ (5 + tPr.box.set.retryNs ≤ tPr.time.uptime) ∧
      ((sendOf (tileOf tPr 648) 6).credits = 0) ∧ (ringTen tPr (siteRing 648) = some 2) ∧
      (sendTarget tPr 2 (sendOf (tileOf tPr 648) 6) = some (epAddr (ringField 3 0) 0)) ∧
      ((routeOf tPr (epField (epAddr (siteField 648) (siteNo 648))) (epField (epAddr (ringField 3 0) 0)) 39).isSome = true)) ∧
    ((darkEp (tRq DType.wwrite) (epAddr (ringField 3 0) 0) = false) ∧
      (∀ q ∈ reqsOf (tRq DType.wwrite) (epAddr (ringField 3 0) 0), q.sent = true) ∧
      (List.find? (fun x => decide (x.msg.seq = 9) && !x.held && x.sent && decide (x.sentAt + x.retryNs ≤ (tRq DType.wwrite).time.uptime)) (reqsOf (tRq DType.wwrite) (epAddr (ringField 3 0) 0)) = some (rq DType.wwrite)) ∧
      ((rq DType.wwrite).resends < (rq DType.wwrite).retryMax)) := by
  and_intros <;> decide +kernel

theorem test_RepliesReleaseCopiesAndRequestsRetry_5 :
    ((darkEp tRqL (epAddr (ringField 3 0) 0) = false) ∧ (∀ q ∈ reqsOf tRqL (epAddr (ringField 3 0) 0), q.sent = true) ∧
      (List.find? (fun x => decide (x.msg.seq = 9) && !x.held && x.sent && decide (x.sentAt + x.retryNs ≤ tRqL.time.uptime)) (reqsOf tRqL (epAddr (ringField 3 0) 0)) = some rqL) ∧
      (rqL.retryMax ≤ rqL.resends)) ∧
    ((darkEp tMcR (cMc CType.ack).dst = false) ∧
      (gensNow tMcR (cMc CType.ack).dst (answeredTen tMcR (cMc CType.ack)) (fld (cMc CType.ack).arg 29 8) (fld (cMc CType.ack).arg (29 + 8) 8) (fld (cMc CType.ack).arg (29 + 16) 8) = true) ∧
      (fld (cMc CType.ack).arg 20 1 = 1) ∧ (∀ q ∈ reqsOf tMcR (cMc CType.ack).dst, q.sent = true)) ∧
    ((darkEp tMcR (cMc CType.nack).dst = false) ∧
      (gensNow tMcR (cMc CType.nack).dst (answeredTen tMcR (cMc CType.nack)) (fld (cMc CType.nack).arg 29 8) (fld (cMc CType.nack).arg (29 + 8) 8) (fld (cMc CType.nack).arg (29 + 16) 8) = true) ∧
      (fld (cMc CType.nack).arg 20 1 = 1) ∧ (∀ q ∈ reqsOf tMcR (cMc CType.nack).dst, q.sent = true)) := by
  and_intros <;> decide +kernel

theorem test_RepliesReleaseCopiesAndRequestsRetry_6 :
    ((darkEp (tAg true 3)     (let __src := c3 CType.nack (9 + 2 ^ 16);       { ctype := __src.ctype, src := __src.src, dst := agD.src, arg := __src.arg : CtlMsg }).dst =   false) ∧
      (gensNow (tAg true 3)     (let __src := c3 CType.nack (9 + 2 ^ 16);       { ctype := __src.ctype, src := __src.src, dst := agD.src, arg := __src.arg : CtlMsg }).dst     (answeredTen (tAg true 3)       (let __src := c3 CType.nack (9 + 2 ^ 16);       { ctype := __src.ctype, src := __src.src, dst := agD.src, arg := __src.arg : CtlMsg }))     (fld       (let __src := c3 CType.nack (9 + 2 ^ 16);         { ctype := __src.ctype, src := __src.src, dst := agD.src, arg := __src.arg : CtlMsg }).arg       29 8)     (fld       (let __src := c3 CType.nack (9 + 2 ^ 16);         { ctype := __src.ctype, src := __src.src, dst := agD.src, arg := __src.arg : CtlMsg }).arg       (29 + 8) 8)     (fld       (let __src := c3 CType.nack (9 + 2 ^ 16);         { ctype := __src.ctype, src := __src.src, dst := agD.src, arg := __src.arg : CtlMsg }).arg       (29 + 16) 8) =   true) ∧
      (epSite     (let __src := c3 CType.nack (9 + 2 ^ 16);       { ctype := __src.ctype, src := __src.src, dst := agD.src, arg := __src.arg : CtlMsg }).dst =   none) ∧
      (72 ≤ epNo agR.msg.src) ∧
      (fld     (let __src := c3 CType.nack (9 + 2 ^ 16);       { ctype := __src.ctype, src := __src.src, dst := agD.src, arg := __src.arg : CtlMsg }).arg     20 1 =   0) ∧
      (∀   q ∈     reqsOf (tAg true 3)       (let __src := c3 CType.nack (9 + 2 ^ 16);         { ctype := __src.ctype, src := __src.src, dst := agD.src, arg := __src.arg : CtlMsg }).dst,   q.sent = true) ∧
      (List.find?     (answers       (let __src := c3 CType.nack (9 + 2 ^ 16);       { ctype := __src.ctype, src := __src.src, dst := agD.src, arg := __src.arg : CtlMsg }))     (reqsOf (tAg true 3)       (let __src := c3 CType.nack (9 + 2 ^ 16);         { ctype := __src.ctype, src := __src.src, dst := agD.src, arg := __src.arg : CtlMsg }).dst) =   some agR) ∧
      (agR.msg.dtype = DType.desc)) := by
  and_intros <;> decide +kernel

theorem test_RepliesReleaseCopiesAndRequestsRetry_7 :
    ((darkEp (tAg true 3)     (let __src := c3 CType.credit (4 + 20 * 2 ^ 5);       { ctype := __src.ctype, src := __src.src, dst := agD.src, arg := __src.arg : CtlMsg }).dst =   false) ∧
      (gensNow (tAg true 3)     (let __src := c3 CType.credit (4 + 20 * 2 ^ 5);       { ctype := __src.ctype, src := __src.src, dst := agD.src, arg := __src.arg : CtlMsg }).dst     (ringTen (tAg true 3)       (fieldRing         (epField           (let __src := c3 CType.credit (4 + 20 * 2 ^ 5);             { ctype := __src.ctype, src := __src.src, dst := agD.src, arg := __src.arg : CtlMsg }).src)))     (fld       (let __src := c3 CType.credit (4 + 20 * 2 ^ 5);         { ctype := __src.ctype, src := __src.src, dst := agD.src, arg := __src.arg : CtlMsg }).arg       13 8)     (fld       (let __src := c3 CType.credit (4 + 20 * 2 ^ 5);         { ctype := __src.ctype, src := __src.src, dst := agD.src, arg := __src.arg : CtlMsg }).arg       (13 + 8) 8)     (fld       (let __src := c3 CType.credit (4 + 20 * 2 ^ 5);         { ctype := __src.ctype, src := __src.src, dst := agD.src, arg := __src.arg : CtlMsg }).arg       (13 + 16) 8) =   true) ∧
      (epSite     (let __src := c3 CType.credit (4 + 20 * 2 ^ 5);       { ctype := __src.ctype, src := __src.src, dst := agD.src, arg := __src.arg : CtlMsg }).dst =   none) ∧
      (∀   q ∈     reqsOf (tAg true 3)       (let __src := c3 CType.credit (4 + 20 * 2 ^ 5);         { ctype := __src.ctype, src := __src.src, dst := agD.src, arg := __src.arg : CtlMsg }).dst,   q.sent = true) ∧
      (((SMap.get { : AgentCh } (tAg true 3).agentOut             (2 ^ 40 +                 ((let __src := c3 CType.credit (4 + 20 * 2 ^ 5);                           { ctype := __src.ctype, src := __src.src, dst := agD.src, arg := __src.arg : CtlMsg }).dst.toNat *                       2 ^ 16 +                     (let __src := c3 CType.credit (4 + 20 * 2 ^ 5);                         { ctype := __src.ctype, src := __src.src, dst := agD.src, arg := __src.arg : CtlMsg }).src.toNat) *                   32 +               fld                 (let __src := c3 CType.credit (4 + 20 * 2 ^ 5);                   { ctype := __src.ctype, src := __src.src, dst := agD.src, arg := __src.arg : CtlMsg }).arg                 0 5)).sent +         256 -       fld         (let __src := c3 CType.credit (4 + 20 * 2 ^ 5);           { ctype := __src.ctype, src := __src.src, dst := agD.src, arg := __src.arg : CtlMsg }).arg         5 8) %     256 ≤   16)) := by
  and_intros <;> decide +kernel

theorem test_RepliesReleaseCopiesAndRequestsRetry_8 :
    (((let __src := rc3;   { srcVtile := __src.srcVtile, srcVfield := 7, srcVring := __src.srcVring, valid := __src.valid, fin := __src.fin, ring := __src.ring, seg := __src.seg, size := __src.size, queue := __src.queue, expect := __src.expect, nacked := __src.nacked, recvd := __src.recvd, wp := __src.wp, rp := __src.rp, used := __src.used, units := __src.units, taken := __src.taken, past := __src.past : RecvCh }) =   recvOf (tileOf tSrc 648) (fld (c3 CType.probe 4).arg 0 5)) ∧
      (darkEp tSrc (c3 CType.probe 4).dst = false) ∧ (epNo (c3 CType.probe 4).dst < 72) ∧ (ringTen tSrc (siteRing 648) = some 2) ∧
      (6 ≤   (let __src := rc3;       { srcVtile := __src.srcVtile, srcVfield := 7, srcVring := __src.srcVring, valid := __src.valid, fin := __src.fin, ring := __src.ring, seg := __src.seg, size := __src.size, queue := __src.queue, expect := __src.expect, nacked := __src.nacked, recvd := __src.recvd, wp := __src.wp, rp := __src.rp, used := __src.used, units := __src.units, taken := __src.taken, past := __src.past : RecvCh }).srcVfield.toNat) ∧
      (agentSource tSrc 2     (let __src := rc3;     { srcVtile := __src.srcVtile, srcVfield := 7, srcVring := __src.srcVring, valid := __src.valid, fin := __src.fin, ring := __src.ring, seg := __src.seg, size := __src.size, queue := __src.queue, expect := __src.expect, nacked := __src.nacked, recvd := __src.recvd, wp := __src.wp, rp := __src.rp, used := __src.used, units := __src.units, taken := __src.taken, past := __src.past : RecvCh }) =   some (portEp 9)) ∧
      ((routeOf tSrc (epField (epAddr (siteField 648) (siteNo 648))) (epField (portEp 9)) 39).isSome = true)) := by
  and_intros <;> decide +kernel

theorem test_RepliesReleaseCopiesAndRequestsRetry_9 :
    ((darkEp (tAg false 0) agD.src = false) ∧
      (List.find? (fun x => decide (x.msg.seq = 9) && !x.held && x.sent && decide (x.sentAt + x.retryNs ≤ (tAg false 0).time.uptime)) (reqsOf (tAg false 0) agD.src) = none) ∧
      (List.find? (fun x => decide (x.msg.seq = 9) && !x.sent && !hasCredit (tAg false 0) x.msg && decide (x.sentAt + x.retryNs ≤ (tAg false 0).time.uptime)) (reqsOf (tAg false 0) agD.src) =   some     (let __src := agR;     { msg := __src.msg, sentAt := __src.sentAt, resends := __src.resends, held := __src.held, retryNs := __src.retryNs, retryMax := __src.retryMax, sent := false : Req })) ∧
      ((routeOf (tAg false 0) (epField agD.src)       (epField         (let __src := agR;             { msg := __src.msg, sentAt := __src.sentAt, resends := __src.resends, held := __src.held, retryNs := __src.retryNs, retryMax := __src.retryMax, sent := false : Req }).msg.dst)       39).isSome =   true)) := by
  and_intros <;> decide +kernel

theorem test_FarDmaQueuesStartsAndCompletes :
    ((ringTen (tD [] []) (fieldRing (epField (dd 5).src)) = some 2) ∧ ((dd 5).epoch = (tenOf (tD [] []) 2).epoch) ∧
      (engineRoom (tD [] []) stk (dd 5) = true) ∧ (agentPos (tD [] []) (dd 5) = SeqPos.next) ∧
      (parkedNext (agentGot (tD [] []) (dd 5)) (dd 5) = none)) ∧
    ((ringTen (tD [] []) (fieldRing (epField ddS.src)) = some 2) ∧ (ddS.epoch = (tenOf (tD [] []) 2).epoch) ∧
      (engineRoom (tD [] []) stk ddS = true) ∧ (agentPos (tD [] []) ddS ≠ SeqPos.next)) ∧
    ((ringTen (tD [] []) (fieldRing (epField ddE.src)) = some 2) ∧ (ddE.epoch ≠ (tenOf (tD [] []) 2).epoch)) ∧
    ((ringTen (tD (List.replicate 16 bigJob) []) (fieldRing (epField (dd 5).src)) = some 2) ∧
      ((dd 5).epoch = (tenOf (tD (List.replicate 16 bigJob) []) 2).epoch) ∧
      (engineRoom (tD (List.replicate 16 bigJob) []) stk (dd 5) = false)) ∧
    ((pickJob (stackOf (tD [jb 5, jb 4, jb 4] []) 3).queue = some (jb 4)) ∧
      (usesLex (jb 4).desc = false ∨ ∀ (n : Nat), ringTen (tD [jb 5, jb 4, jb 4] []) (fieldRing (epField (jb 4).msg.src)) = some n → auxStatus (tD [jb 5, jb 4, jb 4] []) n (jb 4).desc 65536 ≠ 0)) ∧
    ((pickJob (stackOf (tD [jb 5, jb 4, jb 4] []) 3).queue = some (jb 4))) := by
  and_intros <;> decide +kernel

theorem test_FarDmaQueuesStartsAndCompletes_2 :
    ((pickJob (stackOf tDl 3).queue = some jl) ∧ (usesLex jl.desc = true) ∧ (ringTen tDl (fieldRing (epField jl.msg.src)) = some 2) ∧
      (auxStatus tDl 2 jl.desc 65536 = 0) ∧ (provRange tDl 2 (auxAddr (tenOf tDl 2) jl.desc) 65536 = false) ∧ (lx.ten = 2) ∧
      (lx.at_ = jAux jl.desc) ∧
      ((stackOf tDl 3).lexicon = some lx ∨ (∀ (m : Lexicon), (stackOf tDl 3).lexicon = some m → m.ten = 2 → m.at_ ≠ jAux jl.desc) ∧ Option.any (fun m => (stackOf tDl 3).active.any fun k => decide (k.lex = some m)) (stackOf tDl 3).lexicon2 = false ∧ lx.w = (endSource tDl (auxAddr (tenOf tDl 2) jl.desc) 65536).w ∧ lx.psn = (endSource tDl (auxAddr (tenOf tDl 2) jl.desc) 65536).psn)) ∧
    ((pickJob (stackOf tDkk 3).queue = some jl) ∧ (usesLex jl.desc = true) ∧ (ringTen tDkk (fieldRing (epField jl.msg.src)) = some 2) ∧
      (auxStatus tDkk 2 jl.desc 65536 = 0) ∧
      (provRange tDkk 2 (auxAddr (tenOf tDkk 2) jl.desc) 65536 = true ∨ (∀ (m : Lexicon), (stackOf tDkk 3).lexicon = some m → m.ten = 2 → m.at_ ≠ jAux jl.desc) ∧ Option.any (fun m => (stackOf tDkk 3).active.any fun k => decide (k.lex = some m)) (stackOf tDkk 3).lexicon2 = true)) ∧
    ((List.find? (fun j => !jobHeld (tD [] [jb 1]) 3 j) (stackOf (tD [] [jb 1]) 3).active = some (jb 1)) ∧
      (ringTen (tD [] [jb 1]) (fieldRing (epField (jb 1).msg.src)) = some 2) ∧ (jobOk (jb 1).desc = false)) := by
  and_intros <;> decide +kernel

theorem test_FarDmaQueuesStartsAndCompletes_3 :
    ((List.find? (fun j => !jobHeld (tD [] [jc]) 3 j) (stackOf (tD [] [jc]) 3).active = some jc) ∧
      (ringTen (tD [] [jc]) (fieldRing (epField jc.msg.src)) = some 2) ∧ (tDm = tenOf (tD [] [jc]) 2) ∧ (jobOk jc.desc = true) ∧
      (jOp jc.desc = 0) ∧ (endStatus (tD [] [jc]) 2 3 (jSrc jc.desc) (jLen jc.desc) false = 0) ∧
      (endStatus (tD [] [jc]) 2 3 (jDst jc.desc) (jLen jc.desc) true = 0) ∧ (endFar tDm 3 (jDst jc.desc) ≠ endFar tDm 3 (jSrc jc.desc)) ∧
      ((endSource (tD [] [jc]) (endAddr tDm 3 (jSrc jc.desc)) (jLen jc.desc)).psn = [])) ∧
    ((∀ j ∈ (stackOf tDh 3).active, jobHeld tDh 3 j = true)) := by
  and_intros <;> decide +kernel

theorem test_CollectivesBeginCompleteAndAbort :
    ((ringTen (tCo []) (fieldRing (epField (dd 5).src)) = some 2) ∧ ((dd 5).epoch = (tenOf (tCo []) 2).epoch) ∧
      (agentPos (tCo []) (dd 5) = SeqPos.next) ∧ (parkedNext (agentGot (tCo []) (dd 5)) (dd 5) = none)) ∧
    (((List.filter (fun c => c.running) (plyOf (tCo [colB]) 0).colls).length < 16) ∧
      (List.find? (fun c => c.eligible && !c.running && c.status.isNone) (plyOf (tCo [colB]) 0).colls = some colB) ∧
      (collDark (tCo [colB]) colB.ten (cSrc colB) (srcLen colB) = false) ∧ (beginStatus (tCo [colB]) colB ≠ 0)) ∧
    (((List.filter (fun c => c.running) (plyOf (tCo [col 0]) 0).colls).length < 16) ∧
      (List.find? (fun c => c.eligible && !c.running && c.status.isNone) (plyOf (tCo [col 0]) 0).colls = some (col 0)) ∧
      (collDark (tCo [col 0]) (col 0).ten (cSrc (col 0)) (srcLen (col 0)) = false) ∧ (beginStatus (tCo [col 0]) (col 0) = 0) ∧
      (collPorts (tCo [col 0]) (col 0) = (some 8, some 9)) ∧ ((sportOf (tCo [col 0]) 8).st = SPortSt.up) ∧
      ((sportOf (tCo [col 0]) 9).st = SPortSt.up) ∧ ((sportOf (tCo [col 0]) 9).collHeld = [])) := by
  and_intros <;> decide +kernel

theorem test_CollectivesBeginCompleteAndAbort_2 :
    (((List.filter (fun c => c.running)       (plyOf           (let __src := tCo [col 0];           { pending := __src.pending, fused := __src.fused, time := __src.time, pins := __src.pins, pwr := __src.pwr, tiles := __src.tiles, fields := __src.fields, rings := [(3, { supply := 1 : Ring })], plies := __src.plies, farStacks := __src.farStacks, tens := __src.tens, hports := __src.hports, sports := __src.sports, box := __src.box, can := __src.can, net := __src.net, agentReqs := __src.agentReqs, reqSeq := __src.reqSeq, agentSeq := __src.agentSeq, agentTaken := __src.agentTaken, agentNack := __src.agentNack, agentOut := __src.agentOut, agentPark := __src.agentPark, hbSeen := __src.hbSeen, hbMissed := __src.hbMissed, hbLost := __src.hbLost, mem := __src.mem, poison := __src.poison, latent := __src.latent, hostOut := __src.hostOut, regOut := __src.regOut, regPoison := __src.regPoison, freeCtr := __src.freeCtr : State })           0).colls).length <   16) ∧
      (List.find? (fun c => c.eligible && !c.running && c.status.isNone)     (plyOf         (let __src := tCo [col 0];         { pending := __src.pending, fused := __src.fused, time := __src.time, pins := __src.pins, pwr := __src.pwr, tiles := __src.tiles, fields := __src.fields, rings := [(3, { supply := 1 : Ring })], plies := __src.plies, farStacks := __src.farStacks, tens := __src.tens, hports := __src.hports, sports := __src.sports, box := __src.box, can := __src.can, net := __src.net, agentReqs := __src.agentReqs, reqSeq := __src.reqSeq, agentSeq := __src.agentSeq, agentTaken := __src.agentTaken, agentNack := __src.agentNack, agentOut := __src.agentOut, agentPark := __src.agentPark, hbSeen := __src.hbSeen, hbMissed := __src.hbMissed, hbLost := __src.hbLost, mem := __src.mem, poison := __src.poison, latent := __src.latent, hostOut := __src.hostOut, regOut := __src.regOut, regPoison := __src.regPoison, freeCtr := __src.freeCtr : State })         0).colls =   some (col 0)) ∧
      (collDark     (let __src := tCo [col 0];     { pending := __src.pending, fused := __src.fused, time := __src.time, pins := __src.pins, pwr := __src.pwr, tiles := __src.tiles, fields := __src.fields, rings := [(3, { supply := 1 : Ring })], plies := __src.plies, farStacks := __src.farStacks, tens := __src.tens, hports := __src.hports, sports := __src.sports, box := __src.box, can := __src.can, net := __src.net, agentReqs := __src.agentReqs, reqSeq := __src.reqSeq, agentSeq := __src.agentSeq, agentTaken := __src.agentTaken, agentNack := __src.agentNack, agentOut := __src.agentOut, agentPark := __src.agentPark, hbSeen := __src.hbSeen, hbMissed := __src.hbMissed, hbLost := __src.hbLost, mem := __src.mem, poison := __src.poison, latent := __src.latent, hostOut := __src.hostOut, regOut := __src.regOut, regPoison := __src.regPoison, freeCtr := __src.freeCtr : State })     (col 0).ten (cSrc (col 0)) (srcLen (col 0)) =   true)) := by
  and_intros <;> decide +kernel

theorem test_CollectivesBeginCompleteAndAbort_3 :
    (((List.filter (fun c => c.running) (plyOf (tCo [col 1]) 0).colls).length < 16) ∧
      (List.find? (fun c => c.eligible && !c.running && c.status.isNone) (plyOf (tCo [col 1]) 0).colls = some (col 1)) ∧
      (collDark (tCo [col 1]) (col 1).ten (cSrc (col 1)) (srcLen (col 1)) = false) ∧ (beginStatus (tCo [col 1]) (col 1) = 0) ∧
      (collPorts (tCo [col 1]) (col 1) = (some 8, some 9)) ∧ ((sportOf (tCo [col 1]) 8).st = SPortSt.up) ∧
      ((sportOf (tCo [col 1]) 9).st = SPortSt.up) ∧ ((sportOf (tCo [col 1]) 9).collHeld = [])) ∧
    ((List.find? (fun c => c.status.isSome && decide (cId c = 77)) (plyOf (tCo [colD 0]) 0).colls = some (colD 0))) ∧
    ((List.find? (fun c => c.status.isSome && decide (cId c = 77)) (plyOf (tCo [colD 5]) 0).colls = some (colD 5))) ∧
    (((sportOf (tCo []) 9).st = SPortSt.up) ∧ (frameOk (fr 7 0 77 0 0 (leBytes 5 77)) = true) ∧
      (fType (fr 7 0 77 0 0 (leBytes 5 77)) = 7) ∧ (fLsn (fr 7 0 77 0 0 (leBytes 5 77)) = (sportOf (tCo []) 9).lsnRx) ∧
      (∀ k < 4, (plyOf (tCo []) k).colls = [])) := by
  and_intros <;> decide +kernel

theorem test_CollectivesBeginCompleteAndAbort_4 :
    (((sportOf (tCo [colR]) 9).st = SPortSt.up) ∧ (frameOk (fr 7 0 77 0 0 (leBytes 5 77)) = true) ∧
      (fType (fr 7 0 77 0 0 (leBytes 5 77)) = 7) ∧ (fLsn (fr 7 0 77 0 0 (leBytes 5 77)) = (sportOf (tCo [colR]) 9).lsnRx) ∧
      (∀ k < 4, (plyOf (tCo [colR]) k).colls = if k = 0 then [colR] else []) ∧ (colR.status = none) ∧
      (cId colR = startId (fr 7 0 77 0 0 (leBytes 5 77))) ∧ (collUses (tCo [colR]) colR 9 = true)) ∧
    (((sportOf (tCo []) 9).st = SPortSt.up) ∧ (frameOk (fr 5 0 77 0 0 (leBytes 5 77)) = true) ∧
      (fLsn (fr 5 0 77 0 0 (leBytes 5 77)) = (sportOf (tCo []) 9).lsnRx) ∧ ((tCo []).box.state = Boot.ready) ∧
      (∀ k < 4, (plyOf (tCo []) k).colls = []) ∧ (fType (fr 5 0 77 0 0 (leBytes 5 77)) = 5)) ∧
    (((sportOf (tCo []) 9).st = SPortSt.up) ∧ (frameOk (fr 6 0 77 0 0 (leBytes 5 77)) = true) ∧
      (fLsn (fr 6 0 77 0 0 (leBytes 5 77)) = (sportOf (tCo []) 9).lsnRx) ∧ ((tCo []).box.state = Boot.ready) ∧
      (∀ k < 4, (plyOf (tCo []) k).colls = []) ∧ (fType (fr 6 0 77 0 0 (leBytes 5 77)) = 6)) := by
  and_intros <;> decide +kernel

theorem test_CollectivesBeginCompleteAndAbort_5 :
    (((sportOf (tCo [colR]) 9).st = SPortSt.up) ∧ (fLsn (fr 6 0 77 0 0 (leBytes 5 77)) = (sportOf (tCo [colR]) 9).lsnRx) ∧
      (frameOk (fr 6 0 77 0 0 (leBytes 5 77)) = true) ∧ (fType (fr 6 0 77 0 0 (leBytes 5 77)) = 6) ∧
      ((collOn (tCo [colR]) 9 fun c => decide (cId c % 65536 = fStream (fr 6 0 77 0 0 (leBytes 5 77)))) = some (0, colR)) ∧
      (fEom (fr 6 0 77 0 0 (leBytes 5 77)) = false) ∧ (fMsg (fr 6 0 77 0 0 (leBytes 5 77)) = colR.step) ∧
      (fOffset (fr 6 0 77 0 0 (leBytes 5 77)) = colR.seg.length)) ∧
    (((sportOf (tCo [colR]) 9).st = SPortSt.up) ∧
      (fLsn (fr 5 0 77 0 0 (startPayload (tCo [colR]) colR)) = (sportOf (tCo [colR]) 9).lsnRx) ∧
      (frameOk (fr 5 0 77 0 0 (startPayload (tCo [colR]) colR)) = true) ∧ (fType (fr 5 0 77 0 0 (startPayload (tCo [colR]) colR)) = 5) ∧
      ((collOn (tCo [colR]) 9 fun c => decide (cId c = startId (fr 5 0 77 0 0 (startPayload (tCo [colR]) colR)))) = some (0, colR)) ∧
      (colR.peersOk = false) ∧ ((fr 5 0 77 0 0 (startPayload (tCo [colR]) colR)).payload = startPayload (tCo [colR]) colR)) := by
  and_intros <;> decide +kernel

theorem test_PortsTrainComeUpAndGoDown :
    ((tShed.pwr.lanesShed = true) ∧ ((sportOf tShed 31).st ≠ SPortSt.training)) ∧
    (((sportOf (tSpt { : SPort }) 31).st ≠ SPortSt.up) ∧ ((sportOf (tSpt { : SPort }) 31).st ≠ SPortSt.disabled) ∧
      ((sportOf (tSpt { : SPort }) 31).enable = true) ∧
      ((tSpt { : SPort }).pwr.lanesShed = false ∨ (sportOf (tSpt { : SPort }) 31).st = SPortSt.training)) ∧
    (((sportOf (tSpt { excluded := 255 : SPort }) 31).st ≠ SPortSt.up) ∧
      ((sportOf (tSpt { excluded := 255 : SPort }) 31).st ≠ SPortSt.disabled) ∧
      ((sportOf (tSpt { excluded := 255 : SPort }) 31).enable = true) ∧
      ((tSpt { excluded := 255 : SPort }).pwr.lanesShed = false ∨ (sportOf (tSpt { excluded := 255 : SPort }) 31).st = SPortSt.training) ∧
      (true = true ∨ true = true) ∧ (min (bestWidth (goodLanes (sportOf (tSpt { excluded := 255 : SPort }) 31) { : TrainReport })) 8 = 0)) ∧
    (((sportOf (tSpt { excluded := 1 : SPort }) 31).st ≠ SPortSt.up) ∧
      ((sportOf (tSpt { excluded := 1 : SPort }) 31).st ≠ SPortSt.disabled) ∧
      ((sportOf (tSpt { excluded := 1 : SPort }) 31).enable = true) ∧
      ((tSpt { excluded := 1 : SPort }).pwr.lanesShed = false ∨ (sportOf (tSpt { excluded := 1 : SPort }) 31).st = SPortSt.training) ∧
      (true = true ∨ true = true) ∧ (4 ≠ 0) ∧
      (min (bestWidth (goodLanes (sportOf (tSpt { excluded := 1 : SPort }) 31) { : TrainReport })) 8 = 4)) := by
  and_intros <;> decide +kernel

theorem test_PortsTrainComeUpAndGoDown_2 :
    (((sportOf (tSpt { width := 8 : SPort }) 31).st = SPortSt.training) ∧ ((sportOf (tSpt { width := 8 : SPort }) 31).width ≠ 0) ∧
      (frameOk (hf 2) = true) ∧ (fType (hf 2) = 4) ∧ (fldN (leNat (hf 2).payload) 8 8 = 2) ∧
      ((sportOf (tSpt { width := 8 : SPort }) 31).egress = []) ∧ ((sportOf (tSpt { width := 8 : SPort }) 31).outQ = [])) ∧
    (((sportOf (tSpt { width := 8 : SPort }) 31).st = SPortSt.training) ∧ ((sportOf (tSpt { width := 8 : SPort }) 31).width ≠ 0) ∧
      (frameOk (hf 3) = true) ∧ (fType (hf 3) = 4) ∧ (fldN (leNat (hf 3).payload) 8 8 ≠ 2)) ∧
    (((sportOf (tSpt { width := 8 : SPort }) 31).st = SPortSt.training) ∧ ((sportOf (tSpt { width := 8 : SPort }) 31).width ≠ 0) ∧
      ((sportOf (tSpt { width := 8 : SPort }) 31).helloSeen = false)) ∧
    (((sportOf (tSpt spUp) 31).st = SPortSt.up)) := by
  and_intros <;> decide +kernel

theorem test_StreamFramesFollowTheProtocol :
    (((sportOf (tSpt spUp) 31).st = SPortSt.up) ∧ (frameOk (fr 1 0 0 0 0 (leBytes 32 (2 ^ 100))) = true) ∧
      (fType (fr 1 0 0 0 0 (leBytes 32 (2 ^ 100))) = 1)) ∧
    (((sportOf (tSpt spUp) 31).st = SPortSt.up) ∧ (frameOk (fr 1 0 0 0 0 (leBytes 32 (2 ^ 100))) = true) ∧
      (fType (fr 1 0 0 0 0 (leBytes 32 (2 ^ 100))) = 1) ∧ ((sportOf (tSpt spUp) 31).egress = []) ∧ ((sportOf (tSpt spUp) 31).outQ = [])) ∧
    (((sportOf (tSpt spUp) 31).st = SPortSt.up) ∧ (frameOk (fr 2 5 0 0 0 []) = true) ∧ (fType (fr 2 5 0 0 0 []) = 2)) ∧
    (((sportOf (tSpt spUp) 31).st = SPortSt.up) ∧ (frameOk (fr 2 5 0 0 0 []) = true) ∧ (fType (fr 2 5 0 0 0 []) = 2) ∧
      ((sportOf (tSpt spUp) 31).egress = []) ∧ ((sportOf (tSpt spUp) 31).outQ = []) ∧
      (List.findIdx? (fun g => decide (fLsn g = fLsn (fr 2 5 0 0 0 []))) (sportOf (tSpt spUp) 31).retryBuf = some 1)) ∧
    (((sportOf (tSpt spUp) 31).st = SPortSt.up) ∧ ((sportOf (tSpt spUp) 31).retryBuf ≠ []) ∧
      ((sportOf (tSpt spUp) 31).noProgress + 1 < (tSpt spUp).box.set.retryLimit)) := by
  and_intros <;> decide +kernel

theorem test_StreamFramesFollowTheProtocol_2 :
    (((sportOf (tSpt spW) 31).st = SPortSt.up) ∧ ((sportOf (tSpt spW) 31).retryBuf ≠ []) ∧
      ((tSpt spW).box.set.retryLimit ≤ (sportOf (tSpt spW) 31).noProgress + 1)) ∧
    (((sportOf (tSpt { st := SPortSt.up, width := 8 : SPort }) 31).st = SPortSt.up) ∧
      ((sportOf (tSpt { st := SPortSt.up, width := 8 : SPort }) 31).retryBuf = [])) ∧
    (((sportOf (tSpt spUp) 31).st = SPortSt.up) ∧ (frameOk (fr 3 5 0 0 0 []) = true) ∧ (fType (fr 3 5 0 0 0 []) = 3) ∧
      (acked spUp (5 + 65535) = acked (sportOf (tSpt spUp) 31) (fLsn (fr 3 5 0 0 0 []) + 65535)) ∧
      ((acked spUp (5 + 65535)).retryBuf ≠ []) ∧ ((acked spUp (5 + 65535)).noProgress + 1 < (tSpt spUp).box.set.retryLimit)) ∧
    (((sportOf (tSpt spW) 31).st = SPortSt.up) ∧ (frameOk (fr 3 4 0 0 0 []) = true) ∧ (fType (fr 3 4 0 0 0 []) = 3) ∧
      (acked spW (4 + 65535) = acked (sportOf (tSpt spW) 31) (fLsn (fr 3 4 0 0 0 []) + 65535)) ∧ ((acked spW (4 + 65535)).retryBuf ≠ []) ∧
      ((tSpt spW).box.set.retryLimit ≤ (acked spW (4 + 65535)).noProgress + 1)) := by
  and_intros <;> decide +kernel

theorem test_StreamFramesFollowTheProtocol_3 :
    (((sportOf (tSpt spUp) 31).st = SPortSt.up) ∧ (frameOk (fr 3 7 0 0 0 []) = true) ∧ (fType (fr 3 7 0 0 0 []) = 3) ∧
      (acked spUp (7 + 65535) = acked (sportOf (tSpt spUp) 31) (fLsn (fr 3 7 0 0 0 []) + 65535)) ∧ ((acked spUp (7 + 65535)).retryBuf = [])) ∧
    (((sportOf (tSpt spUp) 31).st = SPortSt.up)) ∧
    (((sportOf       (tSpt         (let __src := spUp;         { st := __src.st, width := __src.width, enable := __src.enable, encap := __src.encap, version := __src.version, peerId := __src.peerId, retries := __src.retries, fecUncorr := __src.fecUncorr, laneAlarm := __src.laneAlarm, excluded := __src.excluded, ipv6 := __src.ipv6, mac := __src.mac, frameMax := __src.frameMax, frameLimit := __src.frameLimit, discards := __src.discards, protoErr := 2 ^ 32 - 1, helloSeen := __src.helloSeen, freedVl := __src.freedVl, txSent := __src.txSent, txLimit := __src.txLimit, txBase := __src.txBase, lsnTx := __src.lsnTx, lsnAcked := __src.lsnAcked, lsnRx := __src.lsnRx, gap := __src.gap, retryBuf := __src.retryBuf, noProgress := __src.noProgress, egress := __src.egress, msgs := __src.msgs, egressMsg := __src.egressMsg, outQ := __src.outQ, tx := __src.tx, collHeld := __src.collHeld, dataHeld := __src.dataHeld, withheld := __src.withheld, rr := __src.rr, lexicons := __src.lexicons : SPort }))       31).st =   SPortSt.up)) ∧
    (((sportOf (tSpt spUp) 31).st = SPortSt.up) ∧
      ((Instr.aspData 31 bf, 0) ∈ [(Instr.aspData 31 bf, 0), (Instr.aspCredit 31 bf, 1), (Instr.aspAck 31 bf, 2), (Instr.nak 31 bf, 3), (Instr.hello 31 bf, 4), (Instr.collStart 31 bf, 5), (Instr.collData 31 bf, 6), (Instr.aspAbort 31 bf, 7)]) ∧
      (frameOk bf = false ∨ fType bf ≠ 0)) ∧
    (((sportOf (tSpt spUp) 31).st = SPortSt.up) ∧
      ((Instr.aspCredit 31 (rf 0), 1) ∈ [(Instr.aspData 31 (rf 0), 0), (Instr.aspCredit 31 (rf 0), 1), (Instr.aspAck 31 (rf 0), 2), (Instr.nak 31 (rf 0), 3), (Instr.hello 31 (rf 0), 4), (Instr.collStart 31 (rf 0), 5), (Instr.collData 31 (rf 0), 6), (Instr.aspAbort 31 (rf 0), 7)]) ∧
      (frameOk (rf 0) = false ∨ fType (rf 0) ≠ 1)) := by
  and_intros <;> decide +kernel

theorem test_StreamFramesFollowTheProtocol_4 :
    (((sportOf (tIg 6) 31).st = SPortSt.up) ∧ (frameOk (rf 6) = true) ∧ (fType (rf 6) = 0) ∧ (fLsn (rf 6) = (sportOf (tIg 6) 31).lsnRx)) ∧
    (((sportOf tIgH 31).st = SPortSt.up) ∧ (frameOk (rf 6) = true) ∧ (fType (rf 6) = 0) ∧ ((sportOf tIgH 31).dataHeld = []) ∧
      (frameHeld tIgH 31 (rf 6) = true) ∧ (fLsn (rf 6) = (sportOf tIgH 31).lsnRx)) ∧
    (((sportOf (tIg 7) 31).st = SPortSt.up) ∧ (frameOk (rf 6) = true) ∧ (fType (rf 6) = 0) ∧ ((sportOf (tIg 7) 31).dataHeld = []) ∧
      (fLsn (rf 6) ≠ (sportOf (tIg 7) 31).lsnRx) ∧ (((sportOf (tIg 7) 31).lsnRx + 65536 - fLsn (rf 6)) % 65536 ≤ 32768)) := by
  and_intros <;> decide +kernel

theorem test_StreamFramesFollowTheProtocol_5 :
    (((sportOf (tIg 5) 31).st = SPortSt.up) ∧ (frameOk (rf 6) = true) ∧ (fType (rf 6) = 0) ∧ ((sportOf (tIg 5) 31).dataHeld = []) ∧
      (fLsn (rf 6) ≠ (sportOf (tIg 5) 31).lsnRx) ∧ (32768 < ((sportOf (tIg 5) 31).lsnRx + 65536 - fLsn (rf 6)) % 65536) ∧
      ((sportOf (tIg 5) 31).gap = false)) ∧
    (((sportOf (tIg 6) 31).st = SPortSt.up) ∧ (frameOk (rf 6) = true) ∧ (fType (rf 6) = 0) ∧ ((sportOf (tIg 6) 31).dataHeld = []) ∧
      (ingressBinding (tIg 6) 31 (fStream (rf 6)) = some (2, ib)) ∧ (frameHeld (tIg 6) 31 (rf 6) = false) ∧
      (fLsn (rf 6) = (sportOf (tIg 6) 31).lsnRx) ∧ (ib.op ≠ 1) ∧ (fOffset (rf 6) + (rf 6).payload.length ≤ ib.granules * granBytes) ∧
      (winAt (tenOf (tIg 6) 2) (ib.base + fOffset (rf 6)) = some (aWindow Attr.input)) ∧ ((aWindow Attr.input).attr = Attr.input) ∧
      (rangeDark (tIg 6) (tenOf (tIg 6) 2) (aWindow Attr.input) (ib.base + fOffset (rf 6)) (rf 6).payload.length = false) ∧
      (ib.base + fOffset (rf 6) + (rf 6).payload.length ≤ winEnd (aWindow Attr.input))) := by
  and_intros <;> decide +kernel

theorem test_StreamFramesFollowTheProtocol_6 :
    (((sportOf (tSpt spUp) 31).st = SPortSt.up) ∧ (frameOk (rf 0) = true) ∧ (fType (rf 0) = 0) ∧ ((sportOf (tSpt spUp) 31).dataHeld = []) ∧
      (ingressBinding (tSpt spUp) 31 (fStream (rf 0)) = none) ∧ (fLsn (rf 0) = (sportOf (tSpt spUp) 31).lsnRx)) := by
  and_intros <;> decide +kernel

theorem test_StepRunsTheFrontCommandOrIdles :
    ((tPd.pending = [Instr.unpowered, Instr.guardClear])) ∧
    ((tOn.pending = []) ∧ (tOn.pins.psuSeen = true) ∧
      (boxPaused       { pending := tOn.pending, fused := tOn.fused,         time :=           have __src := tOn.time;           { uptime := tOn.time.uptime + 10, ticks := __src.ticks, cc := __src.cc, beatStart := __src.beatStart, beatLog2 := __src.beatLog2, beatLog2Next := __src.beatLog2Next, cclkMhz := __src.cclkMhz, tickMhz := __src.tickMhz, spread := __src.spread, spreadNext := __src.spreadNext, poweredS := __src.poweredS, poweredStored := __src.poweredStored, flushed := __src.flushed, missDue := __src.missDue : Time },         pins := tOn.pins, pwr := tOn.pwr, tiles := tOn.tiles, fields := tOn.fields, rings := tOn.rings, plies := tOn.plies, farStacks := tOn.farStacks, tens := tOn.tens, hports := tOn.hports, sports := tOn.sports, box := tOn.box, can := tOn.can, net := tOn.net, agentReqs := tOn.agentReqs, reqSeq := tOn.reqSeq, agentSeq := tOn.agentSeq, agentTaken := tOn.agentTaken, agentNack := tOn.agentNack, agentOut := tOn.agentOut, agentPark := tOn.agentPark, hbSeen := tOn.hbSeen, hbMissed := tOn.hbMissed, hbLost := tOn.hbLost, mem := tOn.mem, poison := tOn.poison, latent := tOn.latent, hostOut := tOn.hostOut, regOut := tOn.regOut, regPoison := tOn.regPoison, freeCtr := tOn.freeCtr : State } =     true ∨   ∀ (p : HPortId), (hportOf tOn (↑p : Nat)).mbBusy = false)) ∧
    ((State.reset.pending = []) ∧ (State.reset.pins.psuSeen = false)) := by
  and_intros <;> decide +kernel

theorem test_CommandsKeepTheQueueAndTheIdentity :
    ((exec Instr.unpowered tPd = Host.Outcome.next tPdT)) := by
  and_intros <;> first | (with_reducible refine next_of ?_; decide +kernel) | decide +kernel

theorem test_ReservedIndexesDoNotExist :
    ((32768 ≤ 32768) ∧ (32768 ≤ 40959) ∧ (canServes tOn = true)) ∧
    ((32768 ≤ 40959) ∧ (40959 ≤ 40959) ∧ (canServes tOn = true)) ∧
    ((32768 ≤ 40959) ∧ (40959 ≤ 40959)) ∧
    ((32768 ≤ 32768) ∧ (32768 ≤ 40959) ∧ (pathServes tOn (Path.host 0) = true)) ∧
    ((32768 ≤ 40959) ∧ (40959 ≤ 40959) ∧ (pathServes tOn (Path.host 1) = true)) := by
  and_intros <;> decide +kernel

theorem test_RecoveryRestoresComplete :
    ((ringRun tRb (siteRing 648) = some (2, { phase := Phase.rebind 1, begun := true : Run })) ∧ ((tileOf tRb 648).restoring = true) ∧
      (servesRing tRb ((List.map siteRing []).headD (siteRing 648)) 2 = true) ∧ ((cfgOf (tenOf tRb 2)).isSome = true)) ∧
    (((tenOf tTk 2).run = some { phase := Phase.takeover 0 3, begun := true : Run })) ∧
    (((tenOf tHm 2).sentence =   some     (let __src := aSentence;     { seamFloor := __src.seamFloor, beatLog2 := __src.beatLog2, rings := __src.rings, trapeze := __src.trapeze, detColl := __src.detColl, guard := __src.guard, spec := __src.spec, mirror := __src.mirror, clauses := __src.clauses, bindings := __src.bindings, bound := __src.bound, farHome := [4], migrated := __src.migrated, low := __src.low, high := __src.high, nextNear := __src.nextNear, nextFar := __src.nextFar, portMap := __src.portMap : Sentence })) ∧
      ((let __src := aSentence;       { seamFloor := __src.seamFloor, beatLog2 := __src.beatLog2, rings := __src.rings, trapeze := __src.trapeze, detColl := __src.detColl, guard := __src.guard, spec := __src.spec, mirror := __src.mirror, clauses := __src.clauses, bindings := __src.bindings, bound := __src.bound, farHome := [4], migrated := __src.migrated, low := __src.low, high := __src.high, nextNear := __src.nextNear, nextFar := __src.nextFar, portMap := __src.portMap : Sentence }).bound[0]? =   some 3) ∧
      ((let __src := aSentence;       { seamFloor := __src.seamFloor, beatLog2 := __src.beatLog2, rings := __src.rings, trapeze := __src.trapeze, detColl := __src.detColl, guard := __src.guard, spec := __src.spec, mirror := __src.mirror, clauses := __src.clauses, bindings := __src.bindings, bound := __src.bound, farHome := [4], migrated := __src.migrated, low := __src.low, high := __src.high, nextNear := __src.nextNear, nextFar := __src.nextFar, portMap := __src.portMap : Sentence }).farHome[0]? =   some 4) ∧
      (3 ≠ 4)) := by
  and_intros <;> decide +kernel

theorem test_StepsKeepMemoryCanonical :
    ((Memory.wf tPd.mem = true) ∧ (Memory.wf tPd.hostOut = true) ∧ (step tPd = Host.Outcome.next tPdR)) := by
  and_intros <;> first | (with_reducible refine next_of ?_; decide +kernel) | decide +kernel

end Sys2Proof.Tests
end

/-! PROOFS. Family 00_scope: reserved dictionary indexes (R8), reserved verb codes (R9), accesses by Module Address (R11, R12)
and reads of counters (R6). -/

namespace Sys2Proof.Scope
open Sys2Proof Sys2Proof.Machine Sys2Proof.Laws

theorem nextWith_next {t : State} {P : State → Prop} (h : P t) : NextWith (.next t) P := ⟨t, rfl, h⟩

/-! ### The dictionary's answer to an access (R361, R401) -/

section Answers
variable (s : State) (p : HPortId) (cmd : BitVec 64) (bs : List Byte) (c : Nat)

@[simp] theorem hportOf_ask_path : (hportOf (ask s (.host p) cmd bs) p).path = (hportOf s p).path := by
  simp [ask]
@[simp] theorem hportOf_ask_role : (hportOf (ask s (.host p) cmd bs) p).role = (hportOf s p).role := by
  simp [ask]
@[simp] theorem isOwner_ask : isOwner (ask s (.host p) cmd bs) p = isOwner s p := by
  simp [isOwner]
@[simp] theorem hportOf_respond_mbAbort : (hportOf (respond s (.host p) c bs) p).mbAbort = c := by
  simp [respond, sendMsix]
@[simp] theorem hportOf_respond_path : (hportOf (respond s (.host p) c bs) p).path = (hportOf s p).path := by
  simp [respond, sendMsix]
@[simp] theorem hportOf_respond_mbData :
    (hportOf (respond s (.host p) c bs) p).mbData = mbPut (hportOf s p).mbData bs := by
  simp [respond, sendMsix]

end Answers

/-- A read that the dictionary aborts whatever the mailbox holds is answered with the abort code alone. -/
theorem readAccess_of_error {s : State} {path : Path} {i sub off c : Nat} (hs : pathServes s path = true)
    (h : ∀ t, dictRead t path i sub = .error c) :
    readAccess s path i sub off = respond (ask s path (mbWord i sub false false 1 off) []) path c [] := by
  simp [readAccess, hs, h, readLen, finishRead]

theorem writeAccess_of_error {s : State} {path : Path} {i sub off c : Nat} {bs : List Byte}
    (hs : pathServes s path = true) (h : ∀ t, dictWrite t path i sub off bs = .error c) :
    writeAccess s path i sub off bs =
      respond (ask s path (mbWord i sub true false bs.length (off / 256)) bs) path c [] := by
  simp [writeAccess, hs, h, finishWrite]

theorem writeAccess_of_ok {s t : State} {path : Path} {i sub off : Nat} {bs : List Byte} (hs : pathServes s path = true)
    (h : dictWrite (ask s path (mbWord i sub true false bs.length (off / 256)) bs) path i sub off bs = .ok t) :
    writeAccess s path i sub off bs = respond t path abNone [] := by
  simp [writeAccess, hs, h, finishWrite]

/-! ### Reserved indexes (R8) -/

/-- No row of the dictionary's tables lies in the reserved range. -/
theorem dictRows_index_not_reserved : ∀ e ∈ dictRows, e.index < 0x8000 ∨ 0x9FFF < e.index := by
  decide +kernel

section Reserved
variable {i : Nat} (hlo : 0x8000 ≤ i) (hhi : i ≤ 0x9FFF)
include hlo hhi

theorem objectRows_reserved : objectRows i = [] := by
  have hrow : rowIndex i = i := if_neg (by omega)
  rw [objectRows, hrow, List.filter_eq_nil_iff]
  intro e he
  have := dictRows_index_not_reserved e he
  simp only [decide_eq_true_eq]
  omega

theorem findEntry_reserved (s : State) (path : Path) (sub : Nat) : findEntry s path i sub = .error abObject := by
  simp [findEntry, objectRows_reserved hlo hhi]

theorem dictRead_reserved (s : State) (path : Path) (sub : Nat) : dictRead s path i sub = .error abObject := by
  simp [dictRead, findEntry_reserved hlo hhi]

theorem dictWrite_reserved (s : State) (path : Path) (sub off : Nat) (bs : List Byte) :
    dictWrite s path i sub off bs = .error abObject := by
  simp [dictWrite, findEntry_reserved hlo hhi]

end Reserved

/-- What a mailbox shows after an aborted request: the code, the path's own settings as they were, nothing else changed. -/
theorem aborted_request (s : State) (p : HPortId) (cmd : BitVec 64) (bs : List Byte) (c : Nat) :
    NextWith (.next (respond (ask s (.host p) cmd bs) (.host p) c [])) fun t =>
      t = { s with hports := t.hports } ∧ (hportOf t p).mbAbort = c ∧ (hportOf t p).path = (hportOf s p).path :=
  nextWith_next ⟨rfl, by simp, by simp⟩

/-- Settles O6: no row of the tables has a reserved index, so every access ends in the abort code. -/
theorem reservedIndexesDoNotExist : Obligations.ReservedIndexesDoNotExist := by
  intro s i sub hlo hhi
  have hr := fun t path => dictRead_reserved hlo hhi t path sub.toNat
  have hw := fun t path bs => dictWrite_reserved hlo hhi t path sub.toNat 0 bs
  refine ⟨fun hcan data => ?_, fun data => ⟨rfl, fun p => rfl⟩, fun p off data hp => ?_⟩
  · have hs : pathServes s .can = true := hcan
    exact ⟨congrArg Host.Outcome.next (readAccess_of_error hs fun t => hr t .can),
      congrArg Host.Outcome.next (writeAccess_of_error hs fun t => hw t .can data)⟩
  · have eRead : exec (.mailboxRead p i sub off) s = _ :=
      congrArg Host.Outcome.next (readAccess_of_error hp fun t => hr t (.host p))
    have eWrite : exec (.mailboxWrite p i sub data) s = _ :=
      congrArg Host.Outcome.next (writeAccess_of_error hp fun t => hw t (.host p) data)
    rw [eRead, eWrite]
    exact ⟨aborted_request .., aborted_request ..⟩

/-! ### Counters that a read clears (R6, R61, R185, R215) -/

theorem readTileReg_of_readable {s : State} {i off : Nat} (hd : dark s (siteRing i) = false)
    (hr : tileReadable (tileOf s i) = true) :
    readTileReg s i off = modTile (latchReg s (tileReg s i off)) i fun t => readClears t off := by
  simp [readTileReg, hd, hr]

theorem readTileReg_of_refused {s : State} {i off : Nat} (hoff : 0x48 ≤ off)
    (h : tileReadable (tileOf s i) = false ∨ dark s (siteRing i) = true) :
    readTileReg s i off = refusedRead s (tileRegAddr i off) := by
  rcases h with h | h <;> simp [readTileReg, h, Nat.not_lt.mpr hoff]

/-- What the read of a counter answers: the value is latched, the part that held it is cleared, nothing else changes. -/
theorem modTile_latchReg_answer (s : State) (v i : Nat) (g : Tile → Tile) {P : Tile → Prop} (hP : P (g (tileOf s i))) :
    NextWith (.next (modTile (latchReg s v) i g)) fun t => t.regOut = BitVec.ofNat 64 v ∧ t.regPoison = false ∧
      P (tileOf t i) ∧ t = { s with tiles := t.tiles, regOut := t.regOut, regPoison := t.regPoison } :=
  nextWith_next ⟨rfl, rfl, (tileOf_modTile_same _ i g).symm ▸ hP, rfl⟩

theorem modField_latchReg_answer (s : State) (v f : Nat) (g : Field → Field) {P : Field → Prop} (hP : P (g (fieldOf s f))) :
    NextWith (.next (modField (latchReg s v) f g)) fun t => t.regOut = BitVec.ofNat 64 v ∧ t.regPoison = false ∧
      P (fieldOf t f) ∧ t = { s with fields := t.fields, regOut := t.regOut, regPoison := t.regPoison } :=
  nextWith_next ⟨rfl, rfl, (fieldOf_modField_same _ f g).symm ▸ hP, rfl⟩

theorem readTileReg_answer {s : State} {i off : Nat} {P : Tile → Prop} (hd : dark s (siteRing i) = false)
    (hr : tileReadable (tileOf s i) = true) (hP : P (readClears (tileOf s i) off)) :
    NextWith (.next (readTileReg s i off)) fun t => t.regOut = BitVec.ofNat 64 (tileReg s i off) ∧ t.regPoison = false ∧
      P (tileOf t i) ∧ t = { s with tiles := t.tiles, regOut := t.regOut, regPoison := t.regPoison } := by
  rw [readTileReg_of_readable hd hr]
  exact modTile_latchReg_answer s _ i _ hP

/-- A counter's own map reads zero once its entry has been cleared. -/
theorem readSeam_answer (s : State) (f : Nat) (sd : Side) :
    NextWith (.next (readSeam s f sd)) fun t => t.regOut = BitVec.ofNat 64 (seamReg s f sd) ∧ t.regPoison = false ∧
      SMap.get 0 (fieldOf t f).crcErr (Side.no sd) = 0 ∧
      t = { s with fields := t.fields, regOut := t.regOut, regPoison := t.regPoison } := by
  refine modField_latchReg_answer s _ f _ (P := fun x => SMap.get 0 x.crcErr (Side.no sd) = 0) ?_
  simp only [smap_get_put_same]

theorem readNearCh_answer (s : State) (f c : Nat) :
    NextWith (.next (readNearCh s f c)) fun t => t.regOut = BitVec.ofNat 64 (nearChReg (nearCh (fieldOf s f) c)) ∧
      t.regPoison = false ∧ nearCh (fieldOf t f) c = { nearCh (fieldOf s f) c with corr := 0, uncorr := 0 } ∧
      t = { s with fields := t.fields, regOut := t.regOut, regPoison := t.regPoison } := by
  rw [readNearCh, modNearCh]
  refine modField_latchReg_answer s _ f _
    (P := fun x => nearCh x c = { nearCh (fieldOf s f) c with corr := 0, uncorr := 0 }) ?_
  exact smap_get_put_same ({} : NearCh) ..

/-- Settles O14: each read is its register's latch followed by the clearing of what it counted. -/
theorem counterReadsReturnAndClear : Obligations.CounterReadsReturnAndClear := by
  intro s
  refine ⟨fun i v hd => ?_, fun i hd hr => ?_, fun i h => ?_, fun f sd hd => ?_, fun f c hd => ?_⟩
  · exact congrArg Host.Outcome.next (if_neg (by simp [hd]))
  · exact ⟨readTileReg_answer (P := fun t => t.corr = 0) hd hr rfl,
      readTileReg_answer (P := fun t => t.discards = 0) hd hr rfl,
      readTileReg_answer (P := fun t => t.poisonCnt = 0) hd hr rfl⟩
  · have e : exec (.corrCount i) s = _ := congrArg Host.Outcome.next (readTileReg_of_refused (by decide) h)
    rw [e]
    exact nextWith_next ⟨rfl, rfl⟩
  · have e : exec (.crcErr f sd) s = .next (readSeam s f sd) := congrArg Host.Outcome.next (if_neg (by simp [hd]))
    rw [e]
    exact readSeam_answer s f sd
  · have e : exec (.nearChStatus f c) s = .next (readNearCh s f c) := congrArg Host.Outcome.next (if_neg (by simp [hd]))
    rw [e]
    obtain ⟨t, ht, hout, hpsn, hch, hframe⟩ := readNearCh_answer s f c
    exact ⟨t, ht, hout, hpsn, by rw [hch], by rw [hch], hframe⟩

/-! ### Reserved verb codes (R9) -/

/-- Halting the other half of a pair leaves a tile that halted already, be it the same one. -/
theorem tileOf_halt_partner (s : State) (i j : Nat) (x : Tile) (hx : x.st = .halted) :
    tileOf (modTile (setTile s i x) j fun t => { t with st := .halted }) i = x := by
  rw [tileOf_modTile]
  split
  · next hij =>
    rw [← hij, tileOf_setTile_same, ← hx]
  · exact tileOf_setTile_same ..

/-- What a trap other than PARITY leaves in its own tile; a partner site that is the tile itself halts it once more. -/
theorem tileOf_trapTile_same (s : State) (i code : Nat) (src : Src) (sw : Nat) (h : code ≠ trParity) :
    tileOf (trapTile s i code src sw) i =
      { tileOf s i with st := .halted, err := (tileOf s i).err ||| 0x80, trap := trapInfo (tileOf s i) code src sw } := by
  have hcode : (trapRecurs s i (trapInfo (tileOf s i) code src sw) && decide (code = trParity)) = false := by simp [h]
  simp only [trapTile, hcode, Bool.false_eq_true, if_false, tileOf_evTile]
  split
  case' h_1 => rw [tileOf_modRun]
  all_goals
    split
    · exact tileOf_halt_partner s _ _ _ rfl
    · exact tileOf_setTile_same ..

theorem trapTile_mem (s : State) (i code : Nat) (src : Src) (sw : Nat) (h : code ≠ trParity) :
    (trapTile s i code src sw).mem = s.mem := by
  have hcode : (trapRecurs s i (trapInfo (tileOf s i) code src sw) && decide (code = trParity)) = false := by simp [h]
  simp only [trapTile, hcode, Bool.false_eq_true, if_false, evTile_mem]
  split <;> split <;> rfl

/-- Before a verb issues, what has ended by its cc goes; the tile's traps, errors, parity faults and waiting verbs stay. -/
theorem tileOf_pruneAt_same (s : State) (i cc : Nat) : tileOf (pruneAt s i cc) i = boardPrune (tileOf s i) cc := by
  unfold pruneAt
  dsimp only
  split
  · rw [tileOf_modTile, if_neg (by omega), tileOf_modTile_same]
  · rw [tileOf_modTile_same]

@[simp] theorem pruneAt_mem (s : State) (i cc : Nat) : (pruneAt s i cc).mem = s.mem := by
  unfold pruneAt
  dsimp only
  split <;> rfl

theorem goTrap_reserved {s : State} {i slot m cc : Nat} {v : BitVec 128} (hw : waitsIn (tileOf s i) slot = false)
    (hpar : (tileOf s i).badParity.contains slot = false) :
    goTrap s i slot (reservedInfo.rest m) v cc = some trReserved := by
  simp only [goTrap, hw, issueTrap, hpar, Bool.false_eq_true, if_false]
  rfl

/-- A reserved verb on a tile that issues: the trap comes before any effect. -/
theorem schedule_reserved {s : State} {i slot : Nat} {v : BitVec 128} (eff : State → Nat → BitVec 128 → Nat → VRes)
    (hiss : issues (tileOf s i) false = true) (hhalt : halts s (siteRing i) = false)
    (hmir : (mirrorOn s i && (tileOf s i).role = 2) = false) (hw : waitsIn (tileOf s i) slot = false)
    (hpar : (tileOf s i).badParity.contains slot = false) :
    schedule reservedInfo eff s i slot v =
      trapTile (pruneAt s i (issueCc s (tileOf s i) (stampOf v) 0)) i trReserved (.slot slot) := by
  have htile := tileOf_pruneAt_same s i (issueCc s (tileOf s i) (stampOf v) 0)
  have htrap : goTrap (pruneAt s i (issueCc s (tileOf s i) (stampOf v) 0)) i slot
      (reservedInfo.rest (movedIn (tileOf s i) slot)) v (issueCc s (tileOf s i) (stampOf v) 0) = some trReserved :=
    goTrap_reserved (by rw [htile]; exact hw) (by rw [htile]; exact hpar)
  simp only [schedule, hw, hiss, hhalt, hmir, waitHeld, htrap, Bool.not_true, Bool.false_and, Bool.or_self,
    Bool.false_eq_true, if_false]

theorem verbInfo_reserved (v : BitVec 128) (h : 0x40 ≤ fld v 0 8) : verbInfo v = reservedInfo := by
  unfold verbInfo
  split
  case h_15 => rfl
  all_goals omega

/-- An instruction that executes has passed every check before its effect. -/
theorem scalarOp_of_executes {s : State} {i : SiteId} {w : BitVec 32} (run : State → State) (h : Executes s i w) :
    scalarOp s i w true run = run s := by
  obtain ⟨hrun, hhalt, hheld, hpar, hpc, hguard⟩ := h
  simp only [scalarOp, hrun, hhalt, hheld, hpar, hguard, Nat.not_le.mpr hpc, Bool.not_true, Bool.or_self,
    decide_false, Bool.false_eq_true, if_false]

theorem issueVerb_reserved {s : State} {i : Nat} {v : BitVec 128} (h : verbInfo v = reservedInfo) :
    issueVerb s i v = trapTile s i trReserved .issue := by
  simp only [issueVerb, h, reservedInfo]

/-- Settles O38: the trap of a reserved code is fixed by the code alone, so it comes before every other check but parity. -/
theorem reservedVerbsTrapTheirTile : Obligations.ReservedVerbsTrapTheirTile := by
  refine ⟨fun s i slot v hiss hhalt hmir hw hpar => ?_, verbInfo_reserved, fun s i w v hex hra hv hcode => ?_⟩
  · have e : exec (.reservedVerb i slot v) s = _ :=
      congrArg Host.Outcome.next (schedule_reserved nopEff hiss hhalt hmir hw hpar)
    rw [e]
    refine nextWith_next ?_
    rw [tileOf_trapTile_same _ _ _ _ _ (by decide), trapTile_mem _ _ _ _ _ (by decide), tileOf_pruneAt_same, pruneAt_mem]
    exact ⟨rfl, rfl, rfl, rfl, rfl⟩
  · have hodd : ¬ opRa w % 2 = 1 := by omega
    have hrun : exec (.issue i w) s = .next (issueVerb s i v) := by
      rw [hv]
      exact congrArg Host.Outcome.next ((scalarOp_of_executes _ hex).trans (if_neg hodd))
    rw [hrun, issueVerb_reserved (verbInfo_reserved v hcode)]
    rfl

/-! ### Bytes (R5) -/

@[simp] theorem length_leBytes (n v : Nat) : (leBytes n v).length = n := by
  induction n generalizing v with
  | zero => rfl
  | succ n ih => simp [leBytes, ih]

theorem leNat_leBytes (n v : Nat) : leNat (leBytes n v) = v % 256 ^ n := by
  induction n generalizing v with
  | zero => simp [leBytes, leNat, Nat.mod_one]
  | succ n ih =>
    have hb : (BitVec.ofNat 8 v).toNat = v % 256 := BitVec.toNat_ofNat v 8
    rw [leBytes, leNat, ih, hb, Nat.pow_succ', Nat.mod_mul]

theorem padTo_of_length {α : Type} (d : α) (xs : List α) : padTo d xs.length xs = xs := by
  induction xs with
  | nil => rfl
  | cons x xs ih => simp [padTo, ih]

@[simp] theorem length_memRead (s : State) (a n : Nat) : (memRead s a n).length = n := by
  simp [memRead]

/-- Bytes put into MB_DATA one by one are bytes written from address 0 on. -/
theorem foldl_put_zipIdx (bs : List Byte) (m : List (Nat × Byte)) (j : Nat) :
    (bs.zipIdx j).foldl (fun m p => SMap.put 0 m p.2 p.1) m = memPut m j bs := by
  induction bs generalizing m j with
  | nil => rfl
  | cons b bs ih =>
    rw [List.zipIdx_cons, List.foldl_cons, memPut]
    exact ih ..

theorem mbPut_eq_memPut (m : List (Nat × Byte)) (bs : List Byte) : mbPut m bs = memPut m 0 (bs.take 256) :=
  foldl_put_zipIdx _ m 0

theorem mbPut_get_of_lt (m : List (Nat × Byte)) (bs : List Byte) {k : Nat} (hk : k < bs.length) (h : bs.length ≤ 256) :
    SMap.get 0 (mbPut m bs) k = bs.getD k 0 := by
  rw [mbPut_eq_memPut, List.take_of_length_le h, memPut_get, if_pos (by omega), Nat.sub_zero]

/-! ### What a store of bytes leaves in memory -/

theorem memPut_append (m : List Host.Cell) (a : Nat) (xs ys : List Byte) :
    memPut m a (xs ++ ys) = memPut (memPut m a xs) (a + xs.length) ys := by
  induction xs generalizing m a with
  | nil => rfl
  | cons x xs ih =>
    simp only [List.cons_append, memPut, ih, List.length_cons]
    congr 1
    omega

/-- Memory that holds stored bytes reads them back, and reads as before everywhere else. -/
theorem memRead_of_memPut {t : State} {m : List Host.Cell} {a : Nat} {bs : List Byte} (h : t.mem = memPut m a bs) :
    memRead t a bs.length = bs := by
  refine List.ext_getElem (by simp) fun k hk hk' => ?_
  simp only [memRead, List.getElem_map, List.getElem_range, memByte, h]
  rw [memPut_get, if_pos (by omega), Nat.add_sub_cancel_left, List.getD_eq_getElem?_getD, List.getElem?_eq_getElem hk',
    Option.getD_some]

theorem memByte_of_memPut_outside {s t : State} {a x : Nat} {bs : List Byte} (h : t.mem = memPut s.mem a bs)
    (hx : x < a ∨ a + bs.length ≤ x) : memByte t x = memByte s x := by
  rw [memByte, h, memPut_get, if_neg (by omega), memByte]

section Pieces
variable {wr : State → Nat → List Byte → State}

/-- What each single piece leaves as it was, the whole write leaves as it was. -/
theorem pieces_keeps {α : Type} (g : State → α) (h : ∀ s o b, g (wr s o b) = g s) (s : State) (off : Nat) (bs : List Byte) :
    g (pieces wr s off bs) = g s :=
  List.foldlRecOn _ _ (motive := fun t => g t = g s) rfl fun t ht _ _ => (h t _ _).trans ht

/-- Successive pieces of 8 bytes, each stored at the address of its offset, store the bytes in one run. -/
theorem mem_foldl_chunks {adr : Nat → Nat} (hadr : ∀ o k, adr (o + k) = adr o + k)
    (hwr : ∀ s o b, (wr s o b).mem = memPut s.mem (adr o) b) (off f : Nat) (s : State) (j : Nat) (bs : List Byte)
    (hf : bs.length ≤ f) :
    (((chunks 8 f bs).zipIdx j).foldl (fun s p => wr s (off + 8 * p.2) p.1) s).mem = memPut s.mem (adr (off + 8 * j)) bs := by
  induction f generalizing s j bs with
  | zero =>
    obtain rfl : bs = [] := List.length_eq_zero_iff.mp (by omega)
    rfl
  | succ f ih =>
    cases bs with
    | nil => rfl
    | cons b r =>
      have hrest : (b :: r).drop 8 = [] ∨ ((b :: r).take 8).length = 8 := by
        rw [List.drop_eq_nil_iff, List.length_take]
        omega
      have hdrop : ((b :: r).drop 8).length ≤ f := by
        simp only [List.length_drop, List.length_cons] at hf ⊢
        omega
      conv => rhs; rw [← List.take_append_drop 8 (b :: r), memPut_append]
      have hch : chunks 8 (f + 1) (b :: r) = (b :: r).take 8 :: chunks 8 f ((b :: r).drop 8) := rfl
      rw [hch, List.zipIdx_cons, List.foldl_cons, ih _ _ _ hdrop, hwr]
      rcases hrest with hnil | hlen
      · rw [hnil]; rfl
      · rw [hlen, ← hadr, show off + 8 * (j + 1) = off + 8 * j + 8 by omega]

theorem pieces_mem {adr : Nat → Nat} (hadr : ∀ o k, adr (o + k) = adr o + k)
    (hwr : ∀ s o b, (wr s o b).mem = memPut s.mem (adr o) b) (s : State) (off : Nat) (bs : List Byte) :
    (pieces wr s off bs).mem = memPut s.mem (adr off) bs :=
  mem_foldl_chunks hadr hwr off bs.length s 0 bs (Nat.le_refl _)

end Pieces

section PlaceWrite
variable (s : State) (a n : Nat) (bs : List Byte) (psn : List Nat)

@[simp] theorem markWritten_mem : (markWritten s a).mem = s.mem := by
  unfold markWritten
  split <;> rfl
@[simp] theorem markWritten_tiles : (markWritten s a).tiles = s.tiles := by
  unfold markWritten
  split <;> rfl
@[simp] theorem noteWrite_mem : (noteWrite s a n).mem = s.mem := by
  unfold noteWrite
  dsimp only
  split
  · rfl
  · split
    · rfl
    · split <;> rfl
@[simp] theorem noteWrite_tiles : (noteWrite s a n).tiles = s.tiles := by
  unfold noteWrite
  dsimp only
  split
  · rfl
  · split
    · rfl
    · split <;> rfl

@[simp] theorem placeWrite_tiles : (placeWrite s a bs psn).tiles = s.tiles := by
  simp [placeWrite]
theorem placeWrite_mem : (placeWrite s a bs psn).mem = memPut s.mem a bs := by
  rw [placeWrite, markWritten_mem]
  exact congrArg (memPut · a bs) (noteWrite_mem s a bs.length)

end PlaceWrite

/-- One piece of a store to the near or far memory whose offset `o` lies at `adr o`. -/
def tierPut (adr : Nat → Nat) (s : State) (o : Nat) (b : List Byte) : State := placeWrite s (adr o) b []

theorem pieces_placeWrite (adr : Nat → Nat) :
    pieces (fun s o b => placeWrite s (adr o) b []) = pieces (tierPut adr) := rfl

/-- A store at addresses that go on with the offset puts its bytes there and touches no tile. -/
theorem pieces_tierPut_mem {adr : Nat → Nat} (hadr : ∀ o k, adr (o + k) = adr o + k) (s : State) (off : Nat)
    (bs : List Byte) : (pieces (tierPut adr) s off bs).mem = memPut s.mem (adr off) bs :=
  pieces_mem hadr (fun s o b => placeWrite_mem s (adr o) b []) s off bs
theorem pieces_tierPut_tiles (adr : Nat → Nat) (s : State) (off : Nat) (bs : List Byte) :
    (pieces (tierPut adr) s off bs).tiles = s.tiles :=
  pieces_keeps State.tiles (fun s o b => placeWrite_tiles s (adr o) b []) s off bs

theorem nearAddr_add (f ch off k : Nat) : nearAddr f ch (off + k) = nearAddr f ch off + k :=
  (Nat.add_assoc ..).symm

/-! ### A read of near memory without an error (R211) -/

/-- A codeword without a latent error, which no rehearsal has struck: its read counts and reports nothing. -/
theorem noteTier_of_clean {s : State} {a : Nat} (hl : latentAt s (a / 64 * 8) = none)
    (hp : ∀ l ∈ s.box.reh.poisonNext, l / 8 ≠ a / 64) : noteTier s a = s := by
  have hkeep : (s.box.reh.poisonNext.filter fun l => l / 8 ≠ a / 64) = s.box.reh.poisonNext :=
    List.filter_eq_self.mpr fun l h => by simp [hp l h]
  have hlat : ∀ b, latentAt { s with box := b } (a / 64 * 8) = none := fun _ => hl
  simp only [noteTier, hkeep, hlat]

theorem noteRange_of_clean {s : State} {a n : Nat} (hn : 0 < n) (hl : ∀ k < n, latentAt s ((a + k) / 64 * 8) = none)
    (hp : ∀ k < n, ∀ l ∈ s.box.reh.poisonNext, l / 8 ≠ (a + k) / 64) : noteRange s (fun k => some (a + k)) n = s := by
  have hone : ∀ k < n, noteTier s (a + k) = s := fun k hk => noteTier_of_clean (hl k hk) (hp k hk)
  have hwalk : (List.range (ceilDiv n 8)).foldl
      (fun s k => if k = 0 ∨ (a + 8 * k) % 64 < 8 then noteTier s (a + 8 * k) else s) s = s := by
    refine List.foldlRecOn _ _ (motive := (· = s)) rfl fun t ht k hk => ?_
    have hlt : 8 * k < n := by
      have := List.mem_range.mp hk
      simp only [ceilDiv] at this
      omega
    rw [ht, hone _ hlt, ite_self]
  simp only [noteRange, hwalk, hone _ (Nat.sub_lt hn Nat.one_pos), ite_self]

/-- No codeword of a range that no reader gets poisoned is one that a rehearsal has struck. -/
theorem poisonNext_of_not_tierPoisoned {s : State} {a n : Nat} (h : tierPoisoned s a n = false) :
    ∀ k < n, ∀ l ∈ s.box.reh.poisonNext, l / 8 ≠ (a + k) / 64 := by
  intro k hk l hl heq
  simp only [tierPoisoned, List.any_eq_false, List.mem_range, ceilDiv] at h
  have hbad := h ((a + k) / 64 - a / 64) (by omega)
  have hword : (a / 64 * 64 + 64 * ((a + k) / 64 - a / 64)) / 64 = l / 8 := by omega
  simp only [wordBad, hword, Bool.or_eq_true, List.any_eq_true, decide_eq_true_eq, not_or, not_exists, not_and] at hbad
  exact hbad.2 l hl rfl

/-! ### Accesses by Module Address to near memory (R11, R12) -/

section Near
variable {s : State} {ma n f ch off : Nat} {bs : List Byte}

/-- An access that names nothing, or whose ring runs a clause or has no power, is recorded. -/
theorem evAccess_staging_code (s : State) (ma : Nat) :
    ((evAccess s ma).box.staging.getLast?).map (·.code) = some 0x0305 := by
  simp [evAccess, evModule]

theorem maStore_of_no_target (h : maTarget s ma bs.length = none) : maStore s ma bs = (evAccess s ma, false) := by
  simp only [maStore, h]

theorem maLoad_near_of_refused (h : maTarget s ma n = some (.near f ch off))
    (hr : clauseOnRing s (fieldRing f) = true ∨ dark s (fieldRing f) = true) : maLoad s ma n = (evAccess s ma, none) := by
  have hor : (clauseOnRing s (fieldRing f) || dark s (fieldRing f)) = true := by simpa using hr
  simp only [maLoad, h, hor, if_true]

theorem maLoad_near_of_clean (h : maTarget s ma n = some (.near f ch off)) (hn : 0 < n) (hoff : off + n ≤ guardSave)
    (hc : clauseOnRing s (fieldRing f) = false) (hd : dark s (fieldRing f) = false)
    (hl : ∀ k < n, latentAt s ((nearAddr f ch off + k) / 64 * 8) = none)
    (hp : tierPoisoned s (nearAddr f ch off) n = false) (hcfg : inConfig s f off n = false) :
    maLoad s ma n = (s, some (memRead s (nearAddr f ch off) n)) := by
  have hlen : min n (guardSave - off) = n := by omega
  have hnote := noteRange_of_clean hn hl (poisonNext_of_not_tierPoisoned hp)
  have hpad : padTo 0 n (memRead s (nearAddr f ch off) n) = memRead s (nearAddr f ch off) n := by
    simpa using padTo_of_length (0 : Byte) (memRead s (nearAddr f ch off) n)
  simp only [maLoad, h, hc, hd, hlen, hnote, hp, hcfg, hpad, Bool.or_self, Bool.false_eq_true, if_false]

/-- A store that is performed puts its bytes at their Module Address and touches no tile. -/
theorem maStore_near (h : maTarget s ma bs.length = some (.near f ch off)) (hoff : off + bs.length ≤ guardSave)
    (hc : clauseOnRing s (fieldRing f) = false) (hd : dark s (fieldRing f) = false) :
    ∃ t, maStore s ma bs = (t, true) ∧ t.mem = memPut s.mem (nearAddr f ch off) bs ∧ t.tiles = s.tiles := by
  have htake : bs.take (guardSave - off) = bs := List.take_of_length_le (by omega)
  refine ⟨pieces (tierPut (nearAddr f ch)) s off bs, ?_, pieces_tierPut_mem (nearAddr_add f ch) s off bs,
    pieces_tierPut_tiles (nearAddr f ch) s off bs⟩
  simp only [maStore, h, hc, hd, htake, pieces_placeWrite, Bool.or_self, Bool.false_eq_true, if_false]

end Near

/-! ### The mailbox's requests by Module Address (R361) -/

section Ask
variable (s : State) (p : HPortId) (cmd : BitVec 64) (bs : List Byte)

@[simp] theorem maTarget_ask (ma n : Nat) : maTarget (ask s (.host p) cmd bs) ma n = maTarget s ma n := rfl
@[simp] theorem clauseOnRing_ask (r : Nat) : clauseOnRing (ask s (.host p) cmd bs) r = clauseOnRing s r := rfl
@[simp] theorem dark_ask (r : Nat) : dark (ask s (.host p) cmd bs) r = dark s r := rfl
@[simp] theorem latentAt_ask (w : Nat) : latentAt (ask s (.host p) cmd bs) w = latentAt s w := rfl
@[simp] theorem tierPoisoned_ask (a n : Nat) : tierPoisoned (ask s (.host p) cmd bs) a n = tierPoisoned s a n := rfl
@[simp] theorem inConfig_ask (f off n : Nat) : inConfig (ask s (.host p) cmd bs) f off n = inConfig s f off n := rfl
@[simp] theorem memRead_ask (a n : Nat) : memRead (ask s (.host p) cmd bs) a n = memRead s a n := rfl

end Ask

section Mailbox
variable {s t : State} {p : HPortId} {ma : BitVec 64} {n : Nat} {bs data : List Byte}

/-- An Owner's aligned read answers what the load gives, zeros with the poison code where it gives nothing. -/
theorem exec_maRead_of_load (hs : pathServes s (.host p) = true) (ho : isOwner s p = true) (hma : ma.toNat % 8 = 0)
    (hn : n % 8 = 0) (h8 : 8 ≤ n) (h256 : n ≤ 256) {r : Option (List Byte)}
    (h : maLoad (ask s (.host p) (mbWord 0 0 false true n 0) (leBytes 8 ma.toNat)) ma.toNat n = (t, r)) :
    exec (.maRead p ma n) s = .next (match r with
      | some bs => respond t (.host p) abNone bs
      | none => respond t (.host p) abPoison (padTo 0 n [])) := by
  change execMaRead p ma n s = _
  have hin : within 8 256 n = true := by simp [within, h8, h256]
  cases r <;> simp [execMaRead, mbMaRead, hs, ho, hma, hn, hin, h]

theorem exec_maWrite_of_store (hs : pathServes s (.host p) = true) (ho : isOwner s p = true) (hma : ma.toNat % 8 = 0)
    (hn : data.length % 8 = 0) (h8 : 8 ≤ data.length) (h248 : data.length ≤ 248)
    (h : maStore (ask s (.host p) (mbWord 0 0 true true data.length 0) (leBytes 8 ma.toNat ++ data)) ma.toNat data = (t, true)) :
    exec (.maWrite p ma data) s = .next (respond t (.host p) abNone []) := by
  change execMaWrite p ma data s = _
  have hin : within 8 248 data.length = true := by simp [within, h8, h248]
  simp [execMaWrite, mbMaWrite, hs, ho, hma, hn, hin, h]

end Mailbox

/-! ### A dictionary write that passes its checks (R399, R401) -/

theorem findEntry_of_find {s : State} {path : Path} {i sub : Nat} {e : Entry} (hl : introLevel i ≤ (pathOf s path).level)
    (he : ((objectRows i).find? fun e => decide (e.lo ≤ sub) && decide (sub ≤ e.hi)) = some e) :
    findEntry s path i sub = .ok e := by
  have hrows : (objectRows i).isEmpty = false := by
    cases hr : objectRows i with
    | nil => simp [hr] at he
    | cons _ _ => rfl
  simp only [findEntry, hrows, he, Nat.not_lt.mpr hl, decide_false, Bool.or_self, Bool.false_eq_true, if_false]

theorem dictWrite_of_checks {s : State} {path : Path} {i sub off : Nat} {bs : List Byte} {e : Entry}
    (he : findEntry s path i sub = .ok e) (hro : e.acc ≠ .ro) (hconst : e.acc ≠ .const)
    (hp : permits s path e.wr sub = true) (ht : typeOk e.ty bs = true) :
    dictWrite s path i sub off bs = applyWrite s path i sub off bs := by
  simp [dictWrite, he, hro, hconst, hp, ht]

/-- RETRY_NS (R260): an Owner writes it at any granted level. -/
theorem dictWrite_retryNs {s : State} {p : HPortId} {v : Nat} (ho : isOwner s p = true)
    (hl : 0x200 ≤ (hportOf s p).path.level) (hlo : 500 ≤ v) (hhi : v ≤ 100000) :
    dictWrite s (.host p) 0x2040 1 0 (leBytes 4 v) = .ok (setSettings s fun x => { x with retryNs := v }) := by
  have he : findEntry s (.host p) 0x2040 1 = .ok (eRw 0x2040 1 1 (.u 4) .owner) :=
    findEntry_of_find hl (by decide +kernel)
  rw [dictWrite_of_checks he (by decide) (by decide) ho (by simp [typeOk, eRw, tyLen])]
  have hv : leNat (leBytes 4 v) = v := by rw [leNat_leBytes]; omega
  simp [applyWrite, moduleWrite, hv, ranged, within, hlo, hhi]

/-- A register that takes 8 bytes takes their value (R353). -/
theorem merge_leBytes (old : Nat) (b : BitVec 64) : merge old (leBytes 8 b.toNat) = b.toNat := by
  have hb := b.isLt
  rw [merge, List.take_of_length_le (by simp), List.drop_eq_nil_of_le (by simp), List.append_nil, leNat_leBytes]
  omega

/-- Settles O31, by the equations of the near load and store and of the mailbox around them. -/
theorem moduleAddressAccesses : Obligations.ModuleAddressAccesses := by
  intro s p hs ho
  refine ⟨?cleanRead, ?write, ?refusedRead, ?noTarget, ?evqHead, ?retryNs⟩
  case cleanRead =>
    intro ma n f ch off hma hn h8 h256 htgt hoff hc hd hl hp hcfg
    rw [exec_maRead_of_load hs ho hma hn h8 h256
      (maLoad_near_of_clean (f := f) (ch := ch) (off := off) (by simpa using htgt) (by omega) hoff (by simpa using hc)
        (by simpa using hd) (by simpa using hl) (by simpa using hp) (by simpa using hcfg))]
    refine nextWith_next ⟨rfl, by simp [abNone], fun k hk => ?_⟩
    rw [hportOf_respond_mbData, mbPut_get_of_lt _ _ (by simpa using hk) (by simpa using h256), memRead_ask]
    simp [memRead, hk]
  case write =>
    intro ma data f ch off hma hn h8 h248 htgt hoff hc hd
    obtain ⟨t, hstore, hmem, htiles⟩ := maStore_near
      (s := ask s (.host p) (mbWord 0 0 true true data.length 0) (leBytes 8 ma.toNat ++ data)) (by simpa using htgt) hoff
      (by simpa using hc) (by simpa using hd)
    rw [exec_maWrite_of_store hs ho hma hn h8 h248 hstore]
    exact nextWith_next ⟨by simp [abNone], htiles, memRead_of_memPut hmem, fun a ha => memByte_of_memPut_outside hmem ha⟩
  case refusedRead =>
    intro ma n f ch off hma hn h8 h256 htgt hr
    rw [exec_maRead_of_load hs ho hma hn h8 h256
      (maLoad_near_of_refused (f := f) (ch := ch) (off := off) (by simpa using htgt) (by simpa using hr))]
    exact nextWith_next ⟨rfl, rfl, by simp [abPoison], evAccess_staging_code _ _⟩
  case noTarget =>
    intro ma data htgt hma hn
    have e : exec (.registerWrite (.ma ma) data) s = .next (maStore s ma.toNat data).1 :=
      congrArg Host.Outcome.next (if_neg (by simp [hma, hn]))
    rw [e, maStore_of_no_target htgt]
    exact nextWith_next ⟨rfl, rfl, evAccess_staging_code _ _⟩
  case evqHead =>
    intro b
    have e : exec (.registerWrite (.bar0 p 0x110) (leBytes 8 b.toNat)) s =
        .next (modHport s p fun x => { x with evqHead := merge x.evqHead (leBytes 8 b.toNat) }) := rfl
    rw [e]
    exact nextWith_next ⟨by rw [hportOf_modHport_same, merge_leBytes], rfl⟩
  case retryNs =>
    rintro ⟨-, hl⟩ v hlo hhi
    have e : exec (.registerWrite (.entry (.host p) 0x2040 1) (leBytes 4 v)) s = _ :=
      congrArg Host.Outcome.next (writeAccess_of_ok hs
        (dictWrite_retryNs (by simpa using ho) (by simpa [pathOf] using hl) hlo hhi))
    rw [e]
    exact nextWith_next ⟨rfl, by simp [abNone]⟩

end Sys2Proof.Scope

/-! PROOFS. Family 04_arithmetic: what the reads and the wide writes of a verb change, the issue of a scheduled verb, and the
results of the matrix engine's verbs (R83, R112, R113, R116). -/

namespace Sys2Proof.Arithmetic
open Sys2Proof Sys2Proof.Machine Sys2Proof.Laws Sys2Proof.Scope

/-! ### What a read of rows leaves as it was -/

/-- From one state to a later one that only reads of rows lie between: memory, the units and accumulators of every tile and the
writes that are not seen yet are as they were; counters, records and failures may be new. -/
structure ReadKeeps (s t : State) : Prop where
  mem : t.mem = s.mem
  eng : ∀ j, (tileOf t j).eng = (tileOf s j).eng
  oldRows : ∀ j, (tileOf t j).oldRows = (tileOf s j).oldRows

section Reads
variable {s t u : State} {i : Nat}

theorem ReadKeeps.refl (s : State) : ReadKeeps s s := ⟨rfl, fun _ => rfl, fun _ => rfl⟩

theorem ReadKeeps.trans (h : ReadKeeps s t) (k : ReadKeeps t u) : ReadKeeps s u :=
  ⟨k.mem.trans h.mem, fun j => (k.eng j).trans (h.eng j), fun j => (k.oldRows j).trans (h.oldRows j)⟩

theorem readKeeps_of_tiles (hm : t.mem = s.mem) (ht : t.tiles = s.tiles) : ReadKeeps s t :=
  ⟨hm, fun j => by rw [tileOf, ht, tileOf], fun j => by rw [tileOf, ht, tileOf]⟩

theorem readKeeps_setTile {x : Tile} (he : x.eng = (tileOf s i).eng) (ho : x.oldRows = (tileOf s i).oldRows) :
    ReadKeeps s (setTile s i x) := by
  refine ⟨rfl, fun j => ?_, fun j => ?_⟩ <;>
  · rw [tileOf_setTile]
    split
    next hj => subst hj; assumption
    next => rfl

theorem readKeeps_foldl {α : Type} {f : State → α → State} (hf : ∀ s x, ReadKeeps s (f s x)) (s : State) (xs : List α) :
    ReadKeeps s (xs.foldl f s) :=
  List.foldlRecOn xs f (motive := ReadKeeps s) (.refl s) fun t ht x _ => ht.trans (hf t x)

theorem readKeeps_ite {c : Prop} [Decidable c] (h : ReadKeeps s t) (k : ReadKeeps s u) : ReadKeeps s (if c then t else u) := by
  split
  · exact h
  · exact k

theorem readKeeps_box (s : State) (b : Box) : ReadKeeps s { s with box := b } := readKeeps_of_tiles rfl rfl

theorem readKeeps_evTile (s : State) (i cls code d : Nat) : ReadKeeps s (evTile s i cls code d) :=
  readKeeps_of_tiles (evTile_mem ..) (evTile_tiles ..)

theorem readKeeps_failTile (s : State) (i m : Nat) : ReadKeeps s (failTile s i m) :=
  readKeeps_of_tiles (failTile_mem ..) (failTile_tiles ..)

theorem readKeeps_noteReal (s : State) (n : Option Nat) : ReadKeeps s (noteReal s n) :=
  readKeeps_of_tiles (by unfold noteReal; split <;> rfl) (by unfold noteReal; split <;> rfl)

theorem readKeeps_setSiteMap (s : State) (i : Nat) (m : SiteMap) : ReadKeeps s (setSiteMap s i m) := readKeeps_of_tiles rfl rfl

theorem readKeeps_refine (s : State) (p : Nat) (e : BitVec 128) : ReadKeeps s (refine s p e) := readKeeps_of_tiles rfl rfl

theorem readKeeps_siteDies (s : State) (i : Nat) : ReadKeeps s (siteDies s i) := by
  have hfence : ReadKeeps s (modTile s i fun t => { t with st := .fenced }) := readKeeps_setTile rfl rfl
  exact readKeeps_ite ((hfence.trans (readKeeps_evTile ..)).trans (readKeeps_failTile ..)) hfence

theorem readKeeps_siteFails (s : State) (i : Nat) (b : Bool) (csrc cause : Nat) : ReadKeeps s (siteFails s i b csrc cause) := by
  unfold siteFails
  dsimp only
  refine .trans ?entry (readKeeps_ite (readKeeps_siteDies ..) (.refl _))
  refine .trans ?map (readKeeps_ite (.refl _) (readKeeps_refine ..))
  exact (readKeeps_noteReal ..).trans (readKeeps_setSiteMap ..)

theorem readKeeps_siteUnresolved (s : State) (i cause : Nat) : ReadKeeps s (siteUnresolved s i cause) := by
  unfold siteUnresolved
  dsimp only
  refine readKeeps_ite (.refl s) (.trans ?entry (readKeeps_siteDies ..))
  exact ((readKeeps_noteReal ..).trans (readKeeps_setSiteMap ..)).trans (readKeeps_refine ..)

theorem readKeeps_count (s : State) (i k : Nat) (old : Bool) :
    ReadKeeps s (modTile s i fun t => { t with spm := t.spm.count old k }) :=
  readKeeps_setTile rfl rfl

theorem readKeeps_countDead (s : State) (i row : Nat) (by_ : ReadBy) (old : Bool) (w : Nat) :
    ReadKeeps s (countDead s i row by_ old w) := by
  unfold countDead
  dsimp only
  refine readKeeps_ite (.refl s) (readKeeps_ite (.refl s) ((readKeeps_count s i (row * 64 + w) old).trans ?_))
  exact readKeeps_ite ((readKeeps_failTile ..).trans (readKeeps_siteUnresolved ..)) (readKeeps_siteFails ..)

theorem readKeeps_countRebuilt (s : State) (i row : Nat) (old : Bool) (w : Nat) : ReadKeeps s (countRebuilt s i row old w) := by
  unfold countRebuilt
  dsimp only
  refine readKeeps_ite (.refl s) ((readKeeps_count s i (row * 64 + w) old).trans ?_)
  exact readKeeps_ite (.refl _) (readKeeps_siteFails ..)

theorem readKeeps_noteErrs (s : State) (i row : Nat) (by_ : ReadBy) (e : RowErrs) (old : Bool) :
    ReadKeeps s (noteErrs s i row by_ e old) := by
  unfold noteErrs deadRecords
  dsimp only
  refine .trans ?rebuilt (readKeeps_foldl (fun _ _ => readKeeps_countDead ..) ..)
  refine .trans ?records (readKeeps_foldl (fun _ _ => readKeeps_countRebuilt ..) ..)
  refine .trans ?first (readKeeps_foldl (fun _ _ => readKeeps_evTile ..) ..)
  refine .trans ?counts (readKeeps_ite (readKeeps_evTile ..) (.refl _))
  refine .trans ?tile (readKeeps_box ..)
  exact readKeeps_setTile rfl rfl

theorem readKeeps_readRowAt (s : State) (i row cc : Nat) : ReadKeeps s (readRowAt s i row cc).1 := by
  unfold readRowAt readRowIn
  split <;> exact readKeeps_noteErrs ..

theorem readKeeps_readRows (s : State) (i row cc step n : Nat) : ReadKeeps s (readRows s i row cc step n).1 := by
  induction n generalizing s row cc with
  | zero => exact .refl s
  | succ n ih => exact (readKeeps_readRowAt s i row cc).trans (ih ..)

theorem readKeeps_readPairs (s : State) (i row cc step k n : Nat) : ReadKeeps s (readPairs s i row cc step k n).1 := by
  induction n generalizing s row k with
  | zero => exact .refl s
  | succ n ih => exact (readKeeps_readRowAt ..).trans (ih ..)

theorem readKeeps_readPort (s : State) (i row cc : Nat) (u : PortUse) (n : Nat) : ReadKeeps s (readPort s i row cc u n).1 := by
  unfold readPort
  split
  · exact readKeeps_readPairs ..
  · exact readKeeps_readRows ..

theorem readKeeps_noteRow (s : State) (i b k : Nat) (r : InRow) (x : InBuf) : ReadKeeps s (noteRow s i b k r x).1 := by
  unfold noteRow
  dsimp only
  refine .trans ?tile (readKeeps_ite (.refl _) (readKeeps_evTile ..))
  exact readKeeps_setTile rfl rfl

theorem readKeeps_takeRow {b : Nat} {p : State × RowRd} (h : takeRow s i b = some p) : ReadKeeps s p.1 := by
  unfold takeRow at h
  dsimp only at h
  split at h
  · cases h
  · split at h
    · cases h
    · obtain rfl := Option.some.inj h
      exact readKeeps_noteRow ..

theorem readKeeps_takeRows {b n : Nat} {p : State × List RowRd} (h : takeRows s i b n = some p) : ReadKeeps s p.1 := by
  induction n generalizing s p with
  | zero => cases h; exact .refl s
  | succ n ih =>
    rw [takeRows] at h
    split at h
    · cases h
    · next hrow =>
      split at h
      · cases h
      · next hrest =>
        obtain rfl := Option.some.inj h
        have hrest := ih hrest
        exact (readKeeps_takeRow hrow).trans hrest

/-- An operand of an engine verb, read from the scratchpad or taken from an inbound buffer. -/
theorem readKeeps_opRows {src row cc p q lag : Nat} {pn : Panel} {x : OpRows} {r : State × List RowRd}
    (h : opRows s i src row cc pn x p q lag = some r) : ReadKeeps s r.1 := by
  unfold opRows at h
  split at h
  · cases h
    exact (readKeeps_readPort ..).trans (readKeeps_readRows ..)
  · exact readKeeps_takeRows h

end Reads

/-! ### What a write of rows leaves in memory (R151, R153) -/

@[simp] theorem length_padTo {α : Type} (d : α) (n : Nat) (xs : List α) : (padTo d n xs).length = n := by
  induction n generalizing xs with
  | zero => rfl
  | succ n ih => cases xs <;> simp [padTo, ih]

@[simp] theorem padTo_padTo {α : Type} (d : α) (n : Nat) (xs : List α) : padTo d n (padTo d n xs) = padTo d n xs := by
  simpa using padTo_of_length d (padTo d n xs)

theorem spmAddr_add (i a b : Nat) : spmAddr i (a + b) = spmAddr i a + b := by
  unfold spmAddr
  omega

section Writes
variable {s t u : State} {i : Nat}

theorem readKeeps_carryPoison (s : State) (i row : Nat) (psn : List Nat) : ReadKeeps s (carryPoison s i row psn) :=
  readKeeps_ite (.refl s) (readKeeps_of_tiles (failCheck_mem ..) (failCheck_tiles ..))

/-- A wide write stores its bytes, and changes nothing of its tile's units and of the writes that are not seen yet. -/
theorem writeRow_frame (s : State) (i row : Nat) (bs : List Byte) (psn : List Nat) :
    (writeRow s i row bs psn).mem = memPut s.mem (spmAddr i (row * rowBytes)) (padTo 0 rowBytes bs) ∧
    (tileOf (writeRow s i row bs psn) i).eng = (tileOf s i).eng ∧
    (tileOf (writeRow s i row bs psn) i).oldRows = (tileOf s i).oldRows := by
  have hcarry := readKeeps_carryPoison (i := i) (row := row) (psn := psn)
  refine ⟨(hcarry _).mem, ((hcarry _).eng i).trans ?_, ((hcarry _).oldRows i).trans ?_⟩ <;>
  · rw [tileOf_modTile_same]
    rfl

theorem keepOld_frame (s : State) (i row w : Nat) (st : Bool) (words : List Nat) :
    (keepOld s i row w st words).mem = s.mem ∧ (tileOf (keepOld s i row w st words) i).eng = (tileOf s i).eng ∧
    ∀ o ∈ (tileOf (keepOld s i row w st words) i).oldRows, o ∈ (tileOf s i).oldRows ∨ o.row = row := by
  refine ⟨rfl, ?_, fun o ho => ?_⟩
  · rw [keepOld, tileOf_modTile_same]
  · rw [keepOld, tileOf_modTile_same] at ho
    simp only [putOld, List.mem_append, List.mem_cons, List.mem_filter] at ho
    rcases ho with ho | rfl | ho
    · exact .inl ho.1
    · exact .inr rfl
    · exact .inl ho.1

/-- A wide write to a row that no write not seen yet touches. -/
theorem writeRowAt_frame {row : Nat} (h : ∀ o ∈ (tileOf s i).oldRows, o.row ≠ row) (w : Nat) (bs : List Byte) (psn : List Nat) :
    (writeRowAt s i row w bs psn).mem = memPut s.mem (spmAddr i (row * rowBytes)) (padTo 0 rowBytes bs) ∧
    (tileOf (writeRowAt s i row w bs psn) i).eng = (tileOf s i).eng ∧
    ∀ o ∈ (tileOf (writeRowAt s i row w bs psn) i).oldRows, o ∈ (tileOf s i).oldRows ∨ o.row = row := by
  have hlater : (laterWrites (tileOf s i) row w false).isEmpty = true := by
    rw [List.isEmpty_iff, laterWrites, List.filter_eq_nil_iff]
    intro o ho
    simp [h o ho]
  obtain ⟨hkm, hke, hko⟩ := keepOld_frame s i row w false (List.range 64)
  obtain ⟨hm, he, ho⟩ := writeRow_frame (keepOld s i row w false (List.range 64)) i row (padTo 0 rowBytes bs) psn
  have e : writeRowAt s i row w bs psn = _ := if_pos hlater
  rw [e]
  exact ⟨by rw [hm, hkm, padTo_padTo], he.trans hke, fun o h => hko o (ho ▸ h)⟩

theorem rowsHold_nil (s : State) (i row : Nat) : RowsHold s s i row [] :=
  ⟨fun k r h => by simp at h, fun _ _ => rfl⟩

/-- A row that is written and the rows after it. -/
theorem rowsHold_cons {row : Nat} {r : List Byte × List Nat} {rs : List (List Byte × List Nat)}
    (hu : u.mem = memPut s.mem (spmAddr i (row * rowBytes)) (padTo 0 rowBytes r.1)) (ht : RowsHold u t i (row + 1) rs) :
    RowsHold s t i row (r :: rs) := by
  obtain ⟨hrows, hout⟩ := ht
  have hnext : spmAddr i ((row + 1) * rowBytes) = spmAddr i (row * rowBytes) + rowBytes := by
    rw [Nat.succ_mul, spmAddr_add]
  have hend : spmAddr i ((row + (r :: rs).length) * rowBytes) = spmAddr i ((row + 1 + rs.length) * rowBytes) := by
    rw [List.length_cons, Nat.add_right_comm, Nat.add_assoc]
  have hle : spmAddr i ((row + 1) * rowBytes) ≤ spmAddr i ((row + 1 + rs.length) * rowBytes) := by
    rw [Nat.add_mul (row + 1), spmAddr_add]
    exact Nat.le_add_right ..
  refine ⟨fun k q hk => ?_, fun a ha => ?_⟩
  · cases k with
    | zero =>
      obtain rfl : r = q := by simpa using hk
      have hread := memRead_of_memPut hu
      rw [length_padTo] at hread
      rw [Nat.add_zero, ← hread]
      refine List.map_congr_left fun k hk => hout _ (.inl ?_)
      rw [hnext]
      exact Nat.add_lt_add_left (List.mem_range.mp hk) _
    | succ k =>
      rw [show row + (k + 1) = row + 1 + k by omega]
      exact hrows k q (by simpa using hk)
  · rw [hend] at ha
    rw [hout a (by omega)]
    exact memByte_of_memPut_outside hu (by rw [length_padTo]; omega)

/-- What rows hold is a matter of memory alone. -/
theorem rowsHold_of_mem {s' t' : State} {row : Nat} {rs : List (List Byte × List Nat)} (hs : s'.mem = s.mem)
    (ht : t'.mem = t.mem) (h : RowsHold s' t i row rs) : RowsHold s t' i row rs := by
  obtain ⟨hrows, hout⟩ := h
  have hbyte (a : Nat) : memByte t' a = memByte t a := by rw [memByte, ht, memByte]
  refine ⟨fun k r hk => ?_, fun a ha => ?_⟩
  · rw [← hrows k r hk]
    exact List.map_congr_left fun n _ => hbyte _
  · rw [hbyte, hout a ha, memByte, hs, memByte]

theorem wrRows_append (row : Nat) (xs ys : List (List Byte × List Nat)) :
    wrRows row (xs ++ ys) = wrRows row xs ++ wrRows (row + xs.length) ys := by
  rw [wrRows, List.zipIdx_append, List.map_append, Nat.zero_add, wrRows, wrRows, List.zipIdx_eq_map_add (i := xs.length)]
  simp [Function.comp_def, Nat.add_assoc, Nat.add_comm xs.length]

theorem wrRows_cons (row : Nat) (r : List Byte × List Nat) (rs : List (List Byte × List Nat)) :
    wrRows row (r :: rs) = .row row r.1 r.2 :: wrRows (row + 1) rs := wrRows_append row [r] rs

/-- The writes of successive rows that no write not seen yet touches. -/
theorem applyWrs_rows (at_ : Nat → Nat) (s : State) (i row k : Nat) (rs : List (List Byte × List Nat))
    (h : ∀ o ∈ (tileOf s i).oldRows, o.row < row ∨ row + rs.length ≤ o.row) :
    RowsHold s (applyWrs at_ s i k (atSite i (wrRows row rs))) i row rs ∧
    (tileOf (applyWrs at_ s i k (atSite i (wrRows row rs))) i).eng = (tileOf s i).eng := by
  induction rs generalizing s row k with
  | nil => exact ⟨rowsHold_nil s i row, rfl⟩
  | cons r rs ih =>
    have hlen : (r :: rs).length = rs.length + 1 := rfl
    obtain ⟨hm, he, ho⟩ := writeRowAt_frame (row := row) (fun o ho => by have := h o ho; omega) (at_ k) r.1 r.2
    have hstep : applyWrs at_ s i k (atSite i (wrRows row (r :: rs))) =
        applyWrs at_ (writeRowAt s i row (at_ k) r.1 r.2) i (k + 1) (atSite i (wrRows (row + 1) rs)) := by
      rw [wrRows_cons, atSite, List.map_cons, applyWrs, if_pos rfl]
      rfl
    obtain ⟨hrows, heng⟩ := ih (writeRowAt s i row (at_ k) r.1 r.2) (row + 1) (k + 1) fun o h' => by
      rcases ho o h' with hold | rfl
      · have := h o hold; omega
      · omega
    rw [hstep]
    exact ⟨rowsHold_cons hm hrows, heng.trans he⟩

end Writes

/-! ### A scheduled verb that issues (R105, R106, R134, R150) -/

/-- A verb has run: it ends its wait, and its tile and the other half of a pair hold what it holds. -/
def endVerb (u : State) (i slot : Nat) (y : VInfo) (stamp cc : Nat) : State :=
  holdPair (modTile u i fun t => holdUnit (endWait t slot) y slot stamp cc) i y slot stamp cc

/-- Two engines of a tile agree in what the issue of a verb counts on: verbs issued, stamps, completions and ports. -/
def SameHolds (a b : Engine) : Prop :=
  a.issued = b.issued ∧ a.lastStamp = b.lastStamp ∧ a.doneBy = b.doneBy ∧ a.ports = b.ports

theorem sameHolds_trans {a b c : Engine} (h : SameHolds a b) (k : SameHolds b c) : SameHolds a c := by
  obtain ⟨hissued, hstamp, hdone, hports⟩ := h
  obtain ⟨kissued, kstamp, kdone, kports⟩ := k
  exact ⟨hissued.trans kissued, hstamp.trans kstamp, hdone.trans kdone, hports.trans kports⟩

section Issue
variable {s u : State} {i slot wait cc : Nat} {x y : VInfo} {v : BitVec 128} {ws : List (Nat × Wr)}
  {eff : State → Nat → BitVec 128 → Nat → VRes}

@[simp] theorem tileOf_holdPair_same (s : State) (i : Nat) (x : VInfo) (slot stamp cc : Nat) :
    tileOf (holdPair s i x slot stamp cc) i = tileOf s i := by
  have hother : i ≠ i + 9 := by omega
  unfold holdPair
  split
  · rfl
  · split
    · rw [tileOf_modTile, if_neg hother]
    · split
      · rw [tileOf_modTile, if_neg hother]
      · rfl

@[simp] theorem holdPair_mem (s : State) (i : Nat) (x : VInfo) (slot stamp cc : Nat) :
    (holdPair s i x slot stamp cc).mem = s.mem := by
  unfold holdPair
  split
  · rfl
  · split
    · rfl
    · split <;> rfl

theorem tileOf_endVerb_same (u : State) (i slot : Nat) (y : VInfo) (stamp cc : Nat) :
    tileOf (endVerb u i slot y stamp cc) i = holdUnit (endWait (tileOf u i) slot) y slot stamp cc := by
  rw [endVerb, tileOf_holdPair_same, tileOf_modTile_same]

@[simp] theorem endVerb_mem (u : State) (i slot : Nat) (y : VInfo) (stamp cc : Nat) :
    (endVerb u i slot y stamp cc).mem = u.mem := by
  rw [endVerb, holdPair_mem, modTile_mem]

section SetUnitTo
variable (e : Engine) (c : Nat) (q : VUnit)

@[simp] theorem setUnitTo_issued : (setUnitTo e c q).issued = e.issued := by cases q <;> rfl
@[simp] theorem setUnitTo_lastStamp : (setUnitTo e c q).lastStamp = e.lastStamp := by cases q <;> rfl
@[simp] theorem setUnitTo_doneBy : (setUnitTo e c q).doneBy = e.doneBy := by cases q <;> rfl
@[simp] theorem setUnitTo_ports : (setUnitTo e c q).ports = e.ports := by cases q <;> rfl
@[simp] theorem setUnitTo_waiting : (setUnitTo e c q).waiting = e.waiting := by cases q <;> rfl
@[simp] theorem setUnitTo_keep : (setUnitTo e c q).keep = e.keep := by cases q <;> rfl
@[simp] theorem setUnitTo_accs : (setUnitTo e c q).accs = e.accs := by cases q <;> rfl
theorem unitTo_setUnitTo (h : q ≠ .none) : unitTo (setUnitTo e c q) q = c := by
  cases q with
  | none => exact absurd rfl h
  | _ => rfl

end SetUnitTo

theorem endVerb_keep (u : State) (i slot : Nat) (y : VInfo) (stamp cc : Nat) :
    (tileOf (endVerb u i slot y stamp cc) i).eng.keep = (tileOf u i).eng.keep := by
  simp [tileOf_endVerb_same, holdUnit, endWait]

theorem endVerb_accs (u : State) (i slot : Nat) (y : VInfo) (stamp cc : Nat) :
    (tileOf (endVerb u i slot y stamp cc) i).eng.accs = (tileOf u i).eng.accs := by
  simp [tileOf_endVerb_same, holdUnit, endWait]

/-- The holds of a verb that has run, where its effect left what the issue counts on. -/
theorem issued_endVerb (h : SameHolds (tileOf u i).eng (tileOf s i).eng) :
    Issued s (endVerb u i slot (restOf s i slot x) (stampOf v) (actCc s i v wait)) i slot x v wait := by
  obtain ⟨hissued, hstamp, hdone, hports⟩ := h
  rw [Issued, tileOf_endVerb_same]
  refine ⟨?issued, ?waiting, ?lastStamp, fun hunit => unitTo_setUnitTo _ _ _ hunit, ?done, ?ports⟩
  case issued => simp [holdUnit, endWait, hissued]
  case waiting => simp [holdUnit, waitsIn, endWait]
  case lastStamp => simp [holdUnit, endWait, hstamp]
  case done => simp [holdUnit, endWait, hdone, restOf, VInfo.rest]
  case ports => simp [holdUnit, endWait, hports]

/-- The verb runs on one tile, and its writes break no rule of the carry region. -/
theorem runVerb_done (hm : mirrorOn s i = false) (he : eff s i v cc = .done u ws) (hc : carryHit s ws = false) :
    runVerb x eff s i v cc 0 = .done (applyWrs (writeAt (tileOf s i) x cc 0) u i 0 ws) [] := by
  simp [runVerb, hm, he, hc]

theorem runVerb_trap {c : Nat} (hm : mirrorOn s i = false) (he : eff s i v cc = .trap c) :
    runVerb x eff s i v cc 0 = .trap c := by
  simp [runVerb, hm, he]

theorem schedule_of_done (h : Issuable s i slot x v wait)
    (hr : runVerb (restOf s i slot x) eff (atStamp s i v wait) i v (actCc s i v wait) 0 = .done u ws) :
    schedule x eff s i slot v wait = endVerb u i slot (restOf s i slot x) (stampOf v) (actCc s i v wait) := by
  obtain ⟨hiss, hhalt, hmir, hheld, hgo⟩ := h
  simp only [atStamp, actCc, restOf] at *
  simp only [schedule, hiss, hhalt, hmir, hheld, hgo, hr, Bool.not_true, Bool.false_and, Bool.or_self, Bool.false_eq_true,
    if_false]
  rfl

theorem schedule_of_trap {c : Nat} (h : Issuable s i slot x v wait)
    (hr : runVerb (restOf s i slot x) eff (atStamp s i v wait) i v (actCc s i v wait) 0 = .trap c) :
    schedule x eff s i slot v wait = trapTile (atStamp s i v wait) i c (.slot slot) := by
  obtain ⟨hiss, hhalt, hmir, hheld, hgo⟩ := h
  simp only [atStamp, actCc, restOf] at *
  simp only [schedule, hiss, hhalt, hmir, hheld, hgo, hr, Bool.not_true, Bool.false_and, Bool.or_self, Bool.false_eq_true,
    if_false]

theorem tileOf_atStamp_same (s : State) (i : Nat) (v : BitVec 128) (wait : Nat) :
    tileOf (atStamp s i v wait) i = boardPrune (tileOf s i) (actCc s i v wait) := tileOf_pruneAt_same ..

theorem smap_mem_put_of_ne {α : Type} [DecidableEq α] {d : α} {m : List (Nat × α)} {j : Nat} {q : α} {p : Nat × α}
    (hp : p ∈ m) (h : p.1 ≠ j) : p ∈ SMap.put d m j q := by
  have herase : p ∈ SMap.erase m j := List.mem_filter.mpr ⟨hp, by simpa using h⟩
  unfold SMap.put
  split
  · exact herase
  · exact (smap_mem_insert ..).mpr (.inr herase)

/-- The sites that the running clause of a tenancy binds. -/
theorem mem_clauseSites {n k : Nat} : k ∈ clauseSites s n ↔
    ∃ y, (tenOf s n).sentence = some y ∧ ∃ p ∈ s.tiles, (p.2.bound && y.bound.contains (siteRing p.1)) = true ∧ p.1 = k := by
  unfold clauseSites
  split
  · next y hy => simp only [hy, List.mem_map, List.mem_filter, Option.some.injEq, exists_eq_left', and_assoc]
  · next hy => simp [hy]

theorem mirrorOn_iff : mirrorOn s i = true ↔ (tileOf s i).mirror = true ∧ (tileOf s i).role ≠ 0 ∧
    ∃ n u, ringRun s (siteRing i) = some (n, u) ∧ u.level = 4 ∧ (∃ y, (tenOf s n).sentence = some y ∧ y.mirror = true) ∧
      ∀ j ∈ clauseSites s n, (tileOf s j).role = 0 ∨ (tileOf s j).mirror = true := by
  unfold mirrorOn
  cases ringRun s (siteRing i) with
  | none => simp
  | some p =>
    obtain ⟨n, u⟩ := p
    cases hy : (tenOf s n).sentence <;> simp [hy, and_assoc]

/-- What ends by the cc of a verb makes its tile no mirror pair; a flyer prunes its catcher too. -/
theorem mirrorOn_atStamp (hrole : (tileOf s i).role ≠ 1) (h : mirrorOn s i = false) : mirrorOn (atStamp s i v wait) i = false := by
  have hp : atStamp s i v wait = modTile s i fun t => boardPrune t (actCc s i v wait) := if_neg (by
    rw [tileOf_modTile_same]
    exact hrole)
  rw [Bool.eq_false_iff] at h ⊢
  refine fun hon => h (mirrorOn_iff.mpr ?_)
  rw [hp] at hon
  obtain ⟨hmir, hne, n, u, hrun, hlevel, hsent, hall⟩ := mirrorOn_iff.mp hon
  rw [tileOf_modTile_same] at hmir hne
  refine ⟨hmir, hne, n, u, hrun, hlevel, hsent, fun j hj => ?_⟩
  by_cases hji : j = i
  · exact .inr (hji ▸ hmir)
  · obtain ⟨y, hy, p, hmem, hbound, rfl⟩ := mem_clauseSites.mp hj
    have hkeep := hall p.1 (mem_clauseSites.mpr ⟨y, hy, p, smap_mem_put_of_ne hmem hji, hbound, rfl⟩)
    rwa [tileOf_modTile, if_neg hji] at hkeep

theorem mirrorOn_of_role_zero (h : (tileOf s i).role = 0) : mirrorOn s i = false :=
  Bool.eq_false_iff.mpr fun hon => by
    obtain ⟨-, hne, -⟩ := mirrorOn_iff.mp hon
    exact hne h

end Issue

/-! ### The matrix engine (R83, R112, R113, R116) -/

@[simp] theorem length_packRows (b : Nat) (cs : List (Nat × Bool)) : (packRows b cs).length = rowsOf cs.length b := by
  simp [packRows, packFill]

theorem rowsOf_4096 (b : Nat) : rowsOf 4096 b = b := by
  simp only [rowsOf, ceilDiv]
  omega

theorem length_outBlock (fo out : Nat) (sat : Bool) {accs : List Acc} (h : accs.length = 4096) :
    (outBlock fo out sat accs).length = outRows fo out false := by
  unfold outBlock outRows
  split <;> simp [h, rowsOf_4096]

/-- CK adds the checksum rows to what an engine verb writes. -/
theorem outRows_ck (fo out : Nat) (ck : Bool) :
    outRows fo out ck = outRows fo out false + if ck && out ≠ 1 then 8 else 0 := by
  simp [outRows]

theorem length_mmaAccs (tr : Bool) (v : BitVec 128) (wa wb table : Nat) (pa pb pt : List Nat) (kept : List Acc) :
    (mmaAccs tr v wa wb table pa pb pt kept).length = 4096 := by
  rw [mmaAccs, List.length_map, List.length_range]

theorem length_mmaXAccs (v : BitVec 128) (wa wb sg : Nat) (pa pb ps : List Nat) (kept : List Acc) :
    (mmaXAccs v wa wb sg pa pb ps kept).length = 4096 := by
  rw [mmaXAccs, List.length_map, List.length_range]

/-- The operands of an engine verb have been read, from `s` on: memory is as it was, no write not seen yet is newer than those
of the tile, and of the engine only the end of its drain may be new. -/
structure EngineReads (s u : State) (i cc : Nat) : Prop where
  mem : u.mem = s.mem
  oldRows : ∀ o ∈ (tileOf u i).oldRows, o ∈ (tileOf s i).oldRows ∧ cc ≤ o.w
  holds : SameHolds (tileOf u i).eng (tileOf s i).eng
  accs : (tileOf u i).eng.accs = (tileOf s i).eng.accs

/-- What an engine verb leaves: with OUT KEEP its accumulators in the engine, else its output block in the rows from C_ROW on. -/
def EngineLeaves (s t : State) (i : Nat) (v : BitVec 128) (accs : List Acc) : Prop :=
  (eOut v = 1 → (tileOf t i).eng.keep = true ∧ (tileOf t i).eng.accs = accs ∧ t.mem = s.mem) ∧
  (eOut v ≠ 1 → (tileOf t i).eng.keep = false ∧
    (eCk v = false → RowsHold s t i (eCRow v) (outBlock (eFo v) (eOut v) (satBit v) accs)))

section Engine
variable {s u w : State} {i slot cc : Nat} {x : VInfo} {v : BitVec 128} {accs : List Acc} {pq : List Nat × List Nat}
  {eff : State → Nat → BitVec 128 → Nat → VRes}

theorem engineReads_atStamp (s : State) (i : Nat) (v : BitVec 128) (wait : Nat) :
    EngineReads s (atStamp s i v wait) i (actCc s i v wait) := by
  refine ⟨pruneAt_mem .., fun o ho => ?_, ?_, ?_⟩
  · rw [tileOf_atStamp_same] at ho
    obtain ⟨hmem, hcc⟩ := List.mem_filter.mp ho
    exact ⟨hmem, of_decide_eq_true hcc⟩
  · rw [tileOf_atStamp_same]
    exact ⟨rfl, rfl, rfl, rfl⟩
  · rw [tileOf_atStamp_same]
    rfl

theorem EngineReads.read (h : EngineReads s u i cc) (k : ReadKeeps u w) : EngineReads s w i cc :=
  ⟨k.mem.trans h.mem, fun o ho => h.oldRows o (k.oldRows i ▸ ho), k.eng i ▸ h.holds, k.eng i ▸ h.accs⟩

theorem EngineReads.drain (h : EngineReads s u i cc) (l d : Nat) : EngineReads s (setDrain u i l d) i cc := by
  obtain ⟨hmem, hold, hholds, haccs⟩ := h
  unfold setDrain
  split
  · exact ⟨hmem, hold, hholds, haccs⟩
  · refine ⟨hmem, ?_, ?_, ?_⟩ <;> rw [tileOf_modTile_same]
    · exact hold
    · exact hholds
    · exact haccs

/-- What the end of an engine verb leaves of its tile: the accumulators with OUT KEEP, and of the rest what the issue and the
writes count on. -/
theorem engFinish_frame (s : State) (i : Nat) (v : BitVec 128) (accs : List Acc) (pq : List Nat × List Nat) :
    (engFinish s i v accs pq).1.mem = s.mem ∧
    (tileOf (engFinish s i v accs pq).1 i).oldRows = (tileOf s i).oldRows ∧
    SameHolds (tileOf (engFinish s i v accs pq).1 i).eng (tileOf s i).eng ∧
    (tileOf (engFinish s i v accs pq).1 i).eng.keep = decide (eOut v = 1) ∧
    (eOut v = 1 → (tileOf (engFinish s i v accs pq).1 i).eng.accs = accs) := by
  unfold engFinish
  by_cases hout : eOut v = 1 <;> simp [hout, SameHolds]

/-- Without OUT KEEP an engine verb writes its output block, and behind it checksum rows where CK asks for them. -/
theorem engFinish_writes (s : State) (i : Nat) (accs : List Acc) (pq : List Nat × List Nat) (hout : eOut v ≠ 1) :
    ∃ checks, (engFinish s i v accs pq).2 = wrRows (eCRow v) (outBlock (eFo v) (eOut v) (satBit v) accs) ++
        wrRows (eCRow v + outRows (eFo v) (eOut v) false) checks ∧
      checks.length ≤ 8 ∧ (eCk v = false → checks = []) := by
  unfold engFinish
  dsimp only
  rw [if_neg hout]
  by_cases hvecs : (eCk v && (!eAcc v || (tileOf s i).eng.keepCk) && decide (eOut v ≠ 3)) = true
  · refine ⟨checkRows _ _ accs, congrArg (_ ++ ·) (if_pos hvecs), Nat.le_refl 8, fun hck => ?_⟩
    simp [hck] at hvecs
  · exact ⟨[], congrArg (_ ++ ·) (if_neg hvecs), Nat.zero_le 8, fun _ => rfl⟩

/-- The rows that an engine verb writes, all together. -/
theorem engFinish_rows (s : State) (i : Nat) (v : BitVec 128) (pq : List Nat × List Nat) (hlen : accs.length = 4096) :
    ∃ rs, (engFinish s i v accs pq).2 = wrRows (eCRow v) rs ∧ rs.length ≤ outRows (eFo v) (eOut v) (eCk v) ∧
      (eOut v = 1 → rs = []) ∧ (eOut v ≠ 1 → eCk v = false → rs = outBlock (eFo v) (eOut v) (satBit v) accs) := by
  have hblock := length_outBlock (eFo v) (eOut v) (satBit v) hlen
  by_cases hout : eOut v = 1
  · exact ⟨[], by simp [engFinish, hout, wrRows], Nat.zero_le _, fun _ => rfl, fun h => absurd hout h⟩
  · obtain ⟨checks, hws, hle, hnil⟩ := engFinish_writes s i accs pq hout
    refine ⟨outBlock (eFo v) (eOut v) (satBit v) accs ++ checks, ?_, ?_, fun h => absurd h hout, fun _ hck => ?_⟩
    · rw [hws, wrRows_append, hblock]
    · rw [List.length_append, hblock, outRows_ck _ _ (eCk v)]
      cases hck : eCk v with
      | false => simp [hnil hck]
      | true => simpa [hout] using hle
    · rw [hnil hck, List.append_nil]

/-- Rows that are not the carry copy that the beat only reads break no rule. -/
theorem carryHit_rows {row n : Nat} {rs : List (List Byte × List Nat)} (h : CarryFree s i row n) (hn : rs.length ≤ n) :
    carryHit s (atSite i (wrRows row rs)) = false := by
  simp only [carryHit, atSite, wrRows, List.any_eq_false, List.mem_map]
  rintro _ ⟨_, ⟨⟨r, k⟩, hk, rfl⟩, rfl⟩
  obtain ⟨-, hlt, -⟩ := List.mem_zipIdx hk
  rw [Nat.zero_add] at hlt
  simp [Wr.spmRow, h k (by omega)]

theorem carryFree_atStamp {row n wait : Nat} (h : CarryFree s i row n) : CarryFree (atStamp s i v wait) i row n := by
  intro k hk
  rw [tileOf_atStamp_same]
  exact h k hk

/-- An engine verb of a tile that is no half of a pair, whose effect ends with accumulators of its own. -/
theorem schedule_engineLeaves (hissue : Issuable s i slot x v) (hrole : (tileOf s i).role = 0)
    (hset : Settled s i (actCc s i v) (eCRow v) (outRows (eFo v) (eOut v) (eCk v)))
    (hcarry : CarryFree s i (eCRow v) (outRows (eFo v) (eOut v) (eCk v))) (hu : EngineReads s u i (actCc s i v))
    (hlen : accs.length = 4096) (heff : eff (atStamp s i v) i v (actCc s i v) =
      .done (engFinish u i v accs pq).1 (atSite i (engFinish u i v accs pq).2)) :
    NextWith (.next (schedule x eff s i slot v)) fun t => Issued s t i slot x v ∧ EngineLeaves s t i v accs := by
  obtain ⟨rs, hws, hn, hkeep, hblock⟩ := engFinish_rows u i v pq hlen
  obtain ⟨hfm, hfo, hfh, hfk, hfa⟩ := engFinish_frame u i v accs pq
  have hmir : mirrorOn (atStamp s i v) i = false := mirrorOn_atStamp (by simp [hrole]) (mirrorOn_of_role_zero hrole)
  have hrun := runVerb_done (x := restOf s i slot x) hmir heff (by rw [hws]; exact carryHit_rows (carryFree_atStamp hcarry) hn)
  rw [schedule_of_done hissue hrun, hws]
  have hold : ∀ o ∈ (tileOf (engFinish u i v accs pq).1 i).oldRows, o.row < eCRow v ∨ eCRow v + rs.length ≤ o.row := by
    intro o ho
    obtain ⟨hmem, hcc⟩ := hu.oldRows o (hfo ▸ ho)
    have := hset o hmem hcc
    omega
  obtain ⟨hrows, heng⟩ := applyWrs_rows
    (writeAt (tileOf (atStamp s i v) i) (restOf s i slot x) (actCc s i v) 0) _ i (eCRow v) 0 rs hold
  refine nextWith_next ⟨issued_endVerb (heng ▸ sameHolds_trans hfh hu.holds), fun hout => ?_, fun hout => ?_⟩
  · obtain rfl := hkeep hout
    exact ⟨by rw [endVerb_keep, heng, hfk, hout]; rfl, by rw [endVerb_accs, heng, hfa hout], by
      rw [endVerb_mem]; exact hfm.trans hu.mem⟩
  · refine ⟨by rw [endVerb_keep, heng, hfk, decide_eq_false hout], fun hck => ?_⟩
    obtain rfl := hblock hout hck
    exact rowsHold_of_mem (hfm.trans hu.mem) (endVerb_mem ..) hrows

/-- The effect of MMA and MMA.T where the operands are there: B's rows, then A's, then the table (the order of B and A where both
are taken from one inbound buffer is the model's DESIGN CHOICE, log entry 75). -/
theorem mmaEff_of_opRows {tr : Bool} {s₁ s₂ : State} {ra rb : List RowRd} {kept : List Acc} (hrole : (tileOf s i).role = 0)
    (hready : engReady (tileOf s i) v (cc + 5 + mmaQ tr v + mmaP v) (drainCc (eOut v) (eCk v)) = none)
    (hb : opRows s i (eSrcB v) (eBRow v) cc (panelB v) (rowsB v) (mmaP v) (mmaQ tr v) 1 = some (s₁, rb))
    (ha : opRows (setDrain s₁ i (cc + 5 + mmaQ tr v + mmaP v) (drainCc (eOut v) (eCk v))) i (eSrcA v) (eARow v) cc
      (panelA tr v) (rowsA tr v) (mmaP v) (mmaQ tr v) 0 = some (s₂, ra))
    (hkept : (tileOf (readRows s₂ i (eTRow v) cc 1 (rowsA tr v).table).1 i).eng.accs = kept) :
    mmaEff tr s i v cc =
      let rt := readRows s₂ i (eTRow v) cc 1 (rowsA tr v).table
      let p := engFinish rt.1 i v
        (mmaAccs tr v (rowsNat ra) (rowsNat rb) (rowsNat rt.2) (rowsPsn ra) (rowsPsn rb) (rowsPsn rt.2) kept)
        (mmaPredict tr v (rowsNat ra) (rowsNat rb))
      .done p.1 (atSite i p.2) := by
  simp [mmaEff, mmaHalf, catcherBars, fused, hrole, hready, hb, ha, hkept]

/-- The effect of MMA.X. -/
theorem mmaXEff_of_ready (hrole : (tileOf s i).role = 0)
    (hready : engReady (tileOf s i) v (cc + 5 + withCk (eCk v) (eK v)) (drainCc (eOut v) (eCk v)) = none) :
    mmaXEff s i v cc =
      let p := mmaXHalf (setDrain s i (cc + 5 + withCk (eCk v) (eK v)) (drainCc (eOut v) (eCk v))) i i cc v
      .done p.1 (atSite i p.2) := by
  simp [mmaXEff, catcherBars, fused, hrole, hready]

/-- A catcher that works for its flyer issues no engine verb (R73). -/
theorem schedule_catcher (hissue : Issuable s i slot x v) (hrole : (tileOf s i).role = 2)
    (heff : catcherBars (atStamp s i v) i = true → eff (atStamp s i v) i v (actCc s i v) = .trap trCatcher) :
    schedule x eff s i slot v = trapTile (atStamp s i v) i trCatcher (.slot slot) := by
  have hmir : mirrorOn (atStamp s i v) i = false := by
    obtain ⟨-, -, hmir, -⟩ := hissue
    exact mirrorOn_atStamp (by simp [hrole]) hmir
  have hrole' : (tileOf (atStamp s i v) i).role = 2 := by rw [tileOf_atStamp_same]; exact hrole
  exact schedule_of_trap hissue (runVerb_trap hmir (heff (by simp [catcherBars, hrole', hmir])))

theorem exec_mma (tr : Bool) (s : State) (i : SiteId) (slot : Fin 8192) (v : BitVec 128) :
    exec (if tr then .mmaT i slot v else .mma i slot v) s = .next (schedule (mmaInfo tr v) (mmaEff tr) s i slot v) := by
  cases tr <;> rfl

end Engine

/-- Settles O39: the reads of an engine verb leave memory and accumulators alone, so that its results are those of the rows
that it has read, and its writes are the only change of memory; a catcher's verb traps before it reads (R73). -/
theorem engineVerbsComputeTheirBlocks : Obligations.EngineVerbsComputeTheirBlocks := by
  intro s i slot v
  have hstart := engineReads_atStamp s i v 0
  have htile := tileOf_atStamp_same s i v 0
  refine ⟨?mma, ?mmaX, fun hrole => ⟨?trap, ?trapX⟩⟩
  case mma =>
    intro tr hissue hrole cc hset hready s₁ rb hb s₂ ra ha hcarry
    have hu := ((hstart.read (readKeeps_opRows hb)).drain _ _).read ((readKeeps_opRows ha).trans
      (readKeeps_readRows s₂ i (eTRow v) cc 1 (rowsA tr v).table))
    have heff := mmaEff_of_opRows (by rw [htile]; exact hrole) (by rw [htile]; exact hready) hb ha hu.accs
    rw [exec_mma]
    exact schedule_engineLeaves hissue hrole hset hcarry hu (length_mmaAccs ..) heff
  case mmaX =>
    intro hissue hrole cc p hset hready hcarry s₁ ua ub ra rb rs accs
    have hu := (hstart.drain (cc + 5 + p) (drainCc (eOut v) (eCk v))).read
      (((readKeeps_readRows s₁ i (eARow v) (cc + ua.cc) ua.step (planeX v).rows).trans
        (readKeeps_readRows ra.1 i (eBRow v) (cc + ub.cc) ub.step (planeX v).rows)).trans
        (readKeeps_readRows rb.1 i (eTRow v) cc 1 1))
    have heff := mmaXEff_of_ready (s := atStamp s i v) (by rw [htile]; exact hrole) (by rw [htile]; exact hready)
    have hhalf : mmaXHalf s₁ i i cc v = engFinish rs.1 i v accs (mmaXPredict v (rowsNat ra.2) (rowsNat rb.2) (rowsNat rs.2)) := by
      simp only [mmaXHalf, List.append_nil, accs, ← hu.accs]
      rfl
    exact schedule_engineLeaves hissue hrole hset hcarry hu (length_mmaXAccs ..) (heff.trans (by rw [hhalf]))
  case trap =>
    intro tr hissue
    rw [exec_mma]
    exact congrArg Host.Outcome.next (schedule_catcher hissue hrole fun hbar => if_pos hbar)
  case trapX =>
    intro hissue
    exact congrArg Host.Outcome.next (schedule_catcher (eff := mmaXEff) hissue hrole fun hbar => if_pos hbar)

end Sys2Proof.Arithmetic

/-! PROOFS. Family 05_tile_commands: the instructions of the scalar core (R135 to R138, R141). -/

namespace Sys2Proof.TileCommands
open Sys2Proof Sys2Proof.Machine Sys2Proof.Laws Sys2Proof.Scope Sys2Proof.Arithmetic

/-! ### One instruction of the scalar core (R135 to R138, R317) -/

/-- The core of a tile executes in this beat, its ring has power and no repair, and no sideshow window holds it. -/
def CoreActs (s : State) (i : Nat) : Prop :=
  coreRuns (tileOf s i) = true ∧ halts s (siteRing i) = false ∧ coreHeld s i (beatCc s) = false

section Scalar
variable {s : State} {i : Nat} {w : BitVec 32} {ok : Bool} {run : State → State}

theorem scalarOp_of_not_acts (h : ¬ CoreActs s i) : scalarOp s i w ok run = s := by
  refine if_pos ?_
  rw [CoreActs, not_and, not_and] at h
  by_cases hr : coreRuns (tileOf s i) = true
  · by_cases hh : halts s (siteRing i) = false
    · simp [h hr hh]
    · simp [hh]
  · simp [hr]

theorem scalarOp_of_acts (h : CoreActs s i) : scalarOp s i w ok run =
    if (tileOf s i).badParity.contains (2 ^ 16 + (tileOf s i).core.pc) then trapTile s i trParity .scalar
    else if 16384 ≤ (tileOf s i).core.pc || !ok then trapTile s i trIllegal .scalar
    else if !guardOk (tileOf s i) w then setTile s i (nextPc (tileOf s i)) else run s := by
  obtain ⟨hrun, hhalt, hheld⟩ := h
  simp only [scalarOp, hrun, hhalt, hheld, Bool.not_true, Bool.or_self, Bool.false_eq_true, if_false]

theorem scalarOp_of_badParity (h : CoreActs s i)
    (hp : (tileOf s i).badParity.contains (2 ^ 16 + (tileOf s i).core.pc) = true) :
    scalarOp s i w ok run = trapTile s i trParity .scalar := by
  rw [scalarOp_of_acts h, if_pos hp]

theorem scalarOp_of_undecoded (h : CoreActs s i)
    (hp : (tileOf s i).badParity.contains (2 ^ 16 + (tileOf s i).core.pc) = false)
    (hbad : 16384 ≤ (tileOf s i).core.pc ∨ ok = false) : scalarOp s i w ok run = trapTile s i trIllegal .scalar := by
  rw [scalarOp_of_acts h, if_neg (Bool.eq_false_iff.mp hp), if_pos (by simpa using hbad)]

theorem scalarOp_of_guard_fails (h : CoreActs s i)
    (hp : (tileOf s i).badParity.contains (2 ^ 16 + (tileOf s i).core.pc) = false) (hpc : (tileOf s i).core.pc < 16384)
    (hg : guardOk (tileOf s i) w = false) : scalarOp s i w true run = modTile s i nextPc := by
  rw [scalarOp_of_acts h, if_neg (Bool.eq_false_iff.mp hp), if_neg (by simpa using hpc), if_pos (by simp [hg])]
  rfl

theorem scalarOp_of_executes_decoded {i : SiteId} (h : Executes s i w) (hok : ok = true) : scalarOp s i w ok run = run s := by
  subst hok
  exact scalarOp_of_executes run h

/-- An instruction that would execute but for a field that no instruction has. -/
theorem scalarOp_of_executes_undecoded (h : Executes s i w) (hok : ok = false) :
    scalarOp s i w ok run = trapTile s i trIllegal .scalar := by
  obtain ⟨hrun, hhalt, hheld, hpar, -, -⟩ := h
  exact scalarOp_of_undecoded ⟨hrun, hhalt, hheld⟩ hpar (.inr hok)

/-- An update of a tile's scalar core alone. -/
theorem coreFrame_modTile {g : Tile → Tile} (h : g (tileOf s i) = { tileOf s i with core := (g (tileOf s i)).core }) :
    CoreFrame s (modTile s i g) i := by
  refine ⟨rfl, fun j hj => ?_, ?_⟩
  · rw [tileOf_modTile, if_neg hj]
  · rw [tileOf_modTile_same]
    exact h

/-- What a trap of the scalar core leaves: the tile halted with its code, its pc and its operand; memory as it was. -/
theorem scalar_trap (s : State) (i code sw : Nat) (h : code ≠ trParity) :
    NextWith (.next (trapTile s i code .scalar sw)) fun t => (tileOf t i).st = .halted ∧
      (tileOf t i).trap.code = BitVec.ofNat 8 code ∧ (tileOf t i).trap.scalar = true ∧
      (tileOf t i).trap.sw = BitVec.ofNat 16 sw ∧ (tileOf t i).trap.pc = (tileOf s i).core.pc ∧
      (tileOf t i).err = ((tileOf s i).err ||| 0x80) ∧ t.mem = s.mem := by
  refine nextWith_next ?_
  rw [tileOf_trapTile_same _ _ _ _ _ h, trapTile_mem _ _ _ _ _ h]
  exact ⟨rfl, rfl, rfl, rfl, rfl, rfl, rfl⟩

end Scalar

/-- A field that starts at some bit, as a word of its own. -/
theorem ofNat_fld {n : Nat} (w : BitVec n) (lo len : Nat) : BitVec.ofNat len (fld w lo len) = w.extractLsb' lo len := by
  apply BitVec.eq_of_toNat_eq
  simp [fld, fldN]

/-- Every instruction of the core but an undecodable one checks, guards and executes in one way. -/
theorem exec_scalarOp {s : State} {i : SiteId} {w : BitVec 32} {cc : Nat} {c : Instr}
    (h : c ∈ [.addi i w, .andi i w, .ori i w, .xori i w, .shli i w, .shri i w, .srai i w, .lui i w, .ld i ⟨w, cc⟩, .st i ⟨w, cc⟩,
      .br i w, .jal i w, .jr i w, .issue i w, .sbwait i w, .rdtime i w, .rdreg i w, .trap i w, .endCore i w] ∨
    (c = .alu i w ∧ opFn w ≤ 13) ∨ (c = .cmp i w ∧ fld w 17 2 = 0 ∧ opFn w ≤ 5) ∨ (c = .plog i w ∧ fld w 0 11 = 0) ∨
    (c ∈ [.scalarSend i w, .scalarRecv i w, .qlen i w] ∧ fld w 0 12 = 0)) :
    ∃ run, exec c s = .next (scalarOp s i w true run) := by
  have decoded {ok : Bool} {run : State → State} (hok : ok = true) (he : exec c s = .next (scalarOp s i w ok run)) :
      ∃ run, exec c s = .next (scalarOp s i w true run) := ⟨run, hok ▸ he⟩
  rcases h with h | ⟨rfl, hfn⟩ | ⟨rfl, hres, hfn⟩ | ⟨rfl, hres⟩ | ⟨h, hres⟩
  · simp only [List.mem_cons, List.not_mem_nil, or_false] at h
    rcases h with rfl | rfl | rfl | rfl | rfl | rfl | rfl | rfl | rfl | rfl | rfl | rfl | rfl | rfl | rfl | rfl | rfl |
      rfl | rfl <;> exact ⟨_, rfl⟩
  · exact decoded (decide_eq_true hfn) rfl
  · exact decoded (ok := fld w 17 2 = 0 && decide (opFn w ≤ 5)) (by simp [hres, hfn]) rfl
  · exact decoded (decide_eq_true hres) rfl
  · simp only [List.mem_cons, List.not_mem_nil, or_false] at h
    rcases h with rfl | rfl | rfl <;> exact decoded (decide_eq_true hres) rfl

/-- Settles O50: all instructions share one check of the core, the parity, the pc and the guard before their effect. -/
theorem scalarControlGuardsTrapsAndEnds : Obligations.ScalarControlGuardsTrapsAndEnds := by
  refine ⟨fun s i w hex => ⟨?trap, ?endCore, ?illegal⟩, fun s i w cc c hc => ?guards⟩
  case trap =>
    have e : exec (.trap i w) s = .next (trapTile s i trSoft .scalar (fld w 0 16)) :=
      congrArg Host.Outcome.next (scalarOp_of_executes _ hex)
    rw [e, ← ofNat_fld]
    exact scalar_trap s i trSoft _ (by decide)
  case endCore =>
    have e : exec (.endCore i w) s = _ := congrArg Host.Outcome.next (scalarOp_of_executes _ hex)
    rw [e]
    exact nextWith_next ⟨coreFrame_modTile rfl, by rw [tileOf_modTile_same]⟩
  case illegal =>
    have e : exec (.illegalInstruction i w) s = _ := congrArg Host.Outcome.next (scalarOp_of_executes_undecoded hex rfl)
    rw [e]
    obtain ⟨t, ht, hst, hcode, hscalar, -, -, herr, hmem⟩ := scalar_trap s i trIllegal 0 (by decide)
    exact ⟨t, ht, hst, hcode, hscalar, herr, hmem⟩
  case guards =>
    obtain ⟨run, e⟩ := exec_scalarOp (s := s) hc
    rw [e]
    refine ⟨fun h => ?_, fun h hp => ?_, fun h hp hpc => ?_, fun h hp hpc hg => ?_⟩
    · rw [scalarOp_of_not_acts h]
    · rw [scalarOp_of_badParity h hp]; rfl
    · rw [scalarOp_of_undecoded h hp (.inl hpc)]; rfl
    · rw [scalarOp_of_guard_fails h hp hpc hg]
      exact nextWith_next ⟨coreFrame_modTile rfl, by rw [tileOf_modTile_same]; rfl⟩

/-! ### Predicates and jumps (R135, R137) -/

section Registers
variable (t : Tile)

@[simp] theorem gReg_goPc (v : BitVec 64) (k : Nat) : gReg (goPc t v) k = gReg t k := rfl

theorem gReg_setG (r k : Nat) (v : BitVec 64) : gReg (setG t r v) k = if k = r ∧ k ≠ 0 then v else gReg t k := by
  by_cases hr : r = 0
  · rw [setG, if_pos hr, if_neg (by omega)]
  · rw [setG, if_neg hr]
    by_cases hk : k = 0
    · rw [if_neg (by simp [hk]), gReg, gReg, if_pos hk, if_pos hk]
    · simp only [gReg, hk, if_false, smap_get_put]
      simp [hk]

theorem setG_core (r : Nat) (v : BitVec 64) :
    setG t r v = { t with core := (setG t r v).core } ∧ (setG t r v).core.pred = t.core.pred := by
  unfold setG
  split <;> exact ⟨rfl, rfl⟩

theorem setP_core (p : Nat) (b : Bool) : setP t p b = { t with core := (setP t p b).core } ∧
    (setP t p b).core.pc = t.core.pc ∧ (setP t p b).core.g = t.core.g := by
  unfold setP
  split <;> exact ⟨rfl, rfl, rfl⟩

end Registers

/-- Bit `i` of a word, as the library spells it. -/
theorem bit_eq_getLsbD {n : Nat} (w : BitVec n) (i : Nat) : bit w i = w.getLsbD i := by
  simp [bit, fld, fldN, BitVec.getLsbD, Nat.testBit, Nat.and_comm]

theorem getLsbD_ofNat_two_pow {p k : Nat} (hk : k < 8) : (BitVec.ofNat 8 (2 ^ p)).getLsbD k = decide (k = p) := by
  rw [BitVec.getLsbD_ofNat, Nat.testBit_two_pow]
  simp [hk, eq_comm]

theorem pReg_setP (t : Tile) {p k : Nat} (b : Bool) (hk : k < 8) :
    pReg (setP t p b) k = if k = p ∧ k ≠ 0 then b else pReg t k := by
  by_cases hp0 : p = 0
  · rw [setP, if_pos hp0, if_neg (by omega)]
  by_cases hk0 : k = 0
  · rw [if_neg (by simp [hk0]), hk0]
    rfl
  have hbit : pReg (setP t p b) k = if k = p then b else bit t.core.pred k := by
    rw [setP, if_neg hp0]
    cases b
    · have hand : (t.core.pred &&& ~~~BitVec.ofNat 8 (2 ^ p)).getLsbD k = (t.core.pred.getLsbD k && !decide (k = p)) := by
        rw [BitVec.getLsbD_and, BitVec.getLsbD_not, getLsbD_ofNat_two_pow hk, decide_eq_true hk, Bool.true_and]
      simp only [pReg, hk0, decide_false, Bool.false_or, Bool.false_eq_true, if_false, bit_eq_getLsbD, hand]
      split <;> simp [*]
    · have hor : (t.core.pred ||| BitVec.ofNat 8 (2 ^ p)).getLsbD k = (t.core.pred.getLsbD k || decide (k = p)) := by
        rw [BitVec.getLsbD_or, getLsbD_ofNat_two_pow hk]
      simp only [pReg, hk0, decide_false, Bool.false_or, if_true, bit_eq_getLsbD, hor]
      split <;> simp [*]
  have hold : pReg t k = bit t.core.pred k := by simp [pReg, hk0]
  simp only [hbit, hold, hk0, ne_eq, not_false_eq_true, and_true]

/-- A jump of the core alone. -/
theorem jump_answer (s : State) (i : Nat) (v : BitVec 64) :
    NextWith (.next (modTile s i fun t => goPc t v)) fun t => CoreFrame s t i ∧
      (tileOf t i).core = { (tileOf s i).core with pc := v.toNat } :=
  nextWith_next ⟨coreFrame_modTile rfl, by rw [tileOf_modTile_same]; rfl⟩

/-- An instruction that writes a predicate and goes on. -/
theorem predicate_answer (s : State) (i p : Nat) (b : Bool) :
    NextWith (.next (modTile s i fun t => nextPc (setP t p b))) fun t => CoreFrame s t i ∧
      (tileOf t i).core.pc = (tileOf s i).core.pc + 1 ∧ (tileOf t i).core.g = (tileOf s i).core.g ∧
      ∀ k < 8, pReg (tileOf t i) k = if k = p ∧ k ≠ 0 then b else pReg (tileOf s i) k := by
  obtain ⟨hcore, hpc, hg⟩ := setP_core (tileOf s i) p b
  refine nextWith_next ⟨coreFrame_modTile ?_, ?_, ?_, fun k hk => ?_⟩
  · rw [nextPc, hcore]
  · rw [tileOf_modTile_same, nextPc, hpc]
  · rw [tileOf_modTile_same, nextPc, hg]
  · rw [tileOf_modTile_same]
    exact pReg_setP _ b hk

/-- Settles O47: a jump sets the pc alone, and a compare or a logic instruction one predicate and the pc. -/
theorem predicatesAndJumps : Obligations.PredicatesAndJumps := by
  intro s i w hex
  refine ⟨?br, ?jal, ?jr, fun hres hfn => ?cmp, fun hbad => ?cmpIllegal, fun hres => ?plog, fun hbad => ?plogIllegal⟩
  case br =>
    have e : exec (.br i w) s = _ := congrArg Host.Outcome.next (scalarOp_of_executes _ hex)
    rw [e, ← ofNat_fld]
    exact jump_answer s i _
  case jal =>
    have e : exec (.jal i w) s = _ := congrArg Host.Outcome.next (scalarOp_of_executes _ hex)
    obtain ⟨hcore, hpred⟩ := setG_core (tileOf s i) (opRd w) (pcWord (tileOf s i) + 1)
    rw [e, ← ofNat_fld]
    refine nextWith_next ⟨coreFrame_modTile ?_, ?_, ?_, fun k => ?_⟩
    · rw [goPc, hcore]
    · rw [tileOf_modTile_same]; rfl
    · rw [tileOf_modTile_same]; exact hpred
    · rw [tileOf_modTile_same]; exact gReg_setG ..
  case jr =>
    have e : exec (.jr i w) s = _ := congrArg Host.Outcome.next (scalarOp_of_executes _ hex)
    rw [e]
    exact jump_answer s i _
  case cmp =>
    have e : exec (.cmp i w) s = _ :=
      congrArg Host.Outcome.next (scalarOp_of_executes_decoded hex (by simp [hres, hfn]))
    rw [e]
    exact predicate_answer s i _ (cmpCond (opFn w) _ _)
  case cmpIllegal =>
    have hok : (decide (fld w 17 2 = 0) && decide (opFn w ≤ 5)) = false := by
      rcases hbad with hres | hfn
      · simp [hres]
      · simp [Nat.not_le.mpr hfn]
    exact congrArg Host.Outcome.next (scalarOp_of_executes_undecoded hex hok)
  case plog =>
    have e : exec (.plog i w) s = _ := congrArg Host.Outcome.next (scalarOp_of_executes_decoded hex (decide_eq_true hres))
    rw [e]
    exact predicate_answer s i _ (popOp (fld w 11 2) _ _)
  case plogIllegal =>
    exact congrArg Host.Outcome.next (scalarOp_of_executes_undecoded hex (decide_eq_false hbad))

end Sys2Proof.TileCommands

/-! PROOFS. Family 05_tile_commands: how a scheduled verb issues, traps, waits and ends (R74, R76, R105, R106, R109, R140). -/

namespace Sys2Proof.TileCommands
open Sys2Proof Sys2Proof.Machine Sys2Proof.Laws Sys2Proof.Scope Sys2Proof.Arithmetic

/-! ### What the run of a verb comes to (R62, R74, R76) -/

section RunVerb
variable {x : VInfo} {eff : State → Nat → BitVec 128 → Nat → VRes} {s s₁ s₂ : State} {i cc late m m₂ c : Nat} {v : BitVec 128}
  {ws wi wj : List (Nat × Wr)} {q q₂ : WaitRec}

theorem runVerb_single (h : mirrorOn s i = false ∨ (tileOf s i).role ≠ 1) : runVerb x eff s i v cc late =
    match eff s i v cc with
    | .trap c => .trap c
    | .done s₁ ws => if carryHit s ws then .trap trCarry else .done (applyWrs (writeAt (tileOf s i) x cc late) s₁ i 0 ws) []
    | .wait s₁ ws m w => .wait (applyWrs (writeAt (tileOf s i) x cc late) s₁ i 0 ws) [] m w := by
  have hpair : ¬ (mirrorOn s i && decide ((tileOf s i).role = 1)) = true := by
    rcases h with h | h
    · simp [h]
    · simpa using fun _ => h
  rw [runVerb]
  exact if_neg hpair

theorem runVerb_single_carry (h : mirrorOn s i = false ∨ (tileOf s i).role ≠ 1) (he : eff s i v cc = .done s₁ ws)
    (hc : carryHit s ws = true) : runVerb x eff s i v cc late = .trap trCarry := by
  simp only [runVerb_single h, he, hc, if_true]

theorem runVerb_single_done (h : mirrorOn s i = false ∨ (tileOf s i).role ≠ 1) (he : eff s i v cc = .done s₁ ws)
    (hc : carryHit s ws = false) :
    runVerb x eff s i v cc late = .done (applyWrs (writeAt (tileOf s i) x cc late) s₁ i 0 ws) [] := by
  simp only [runVerb_single h, he, hc, Bool.false_eq_true, if_false]

theorem runVerb_single_wait (h : mirrorOn s i = false ∨ (tileOf s i).role ≠ 1) (he : eff s i v cc = .wait s₁ ws m q) :
    runVerb x eff s i v cc late = .wait (applyWrs (writeAt (tileOf s i) x cc late) s₁ i 0 ws) [] m q := by
  simp only [runVerb_single h, he]

/-- A trap of the first half, or of the tile alone, is the verb's. -/
theorem runVerb_traps (he : eff s i v cc = .trap c) : runVerb x eff s i v cc late = .trap c := by
  simp only [runVerb, he, ite_self]

/-- In a mirror pair the halves end, wait or trap together. -/
theorem runVerb_pair (hm : mirrorOn s i = true) (hr : (tileOf s i).role = 1) : runVerb x eff s i v cc late =
    match eff s i v cc with
    | .trap c => .trap c
    | .done s₁ wi => match eff s₁ (i + 9) v cc with
      | .done s₂ wj => if carryHit s (wi ++ wj) then .trap trCarry else .done (mirrorWrites (writeAt (tileOf s i) x cc late) s₂ i wi wj) []
      | .wait _ _ _ w => .wait s [] 0 w
      | .trap c => .trap c
    | .wait s₁ wi m w => match eff s₁ (i + 9) v cc with
      | .wait s₂ wj _ _ => .wait (mirrorWrites (writeAt (tileOf s i) x cc late) s₂ i wi wj) [] m w
      | .trap c => .trap c
      | .done _ _ => .wait s [] 0 w := by
  rw [runVerb]
  exact if_pos (by simp [hm, hr])

end RunVerb

/-! ### The issue of a scheduled verb (R105, R106, R109, R140, R317) -/

/-- The tile issues no verb now, it is the catcher of a mirror pair, or a sideshow window holds the wait of this one. -/
def Mute (s : State) (i slot : Nat) (v : BitVec 128) (wait : Nat) : Prop :=
  issues (tileOf s i) (waitsIn (tileOf s i) slot) = false ∨ halts s (siteRing i) = true ∨
  (mirrorOn s i = true ∧ (tileOf s i).role = 2) ∨ waitHeld s i slot (actCc s i v wait) = true

section Schedule
variable {x : VInfo} {eff : State → Nat → BitVec 128 → Nat → VRes} {s u : State} {i slot wait m c : Nat} {v : BitVec 128}
  {ws : List (Nat × Wr)} {q : WaitRec}

theorem schedule_of_mute (h : Mute s i slot v wait) : schedule x eff s i slot v wait = s := by
  refine if_pos ?_
  rcases h with h | h | ⟨hm, hr⟩ | h
  · simp [h]
  · simp [h]
  · simp [hm, hr]
  · simp [show waitHeld s i slot (issueCc s (tileOf s i) (stampOf v) wait) = true from h]

section Speaks
variable (h : ¬ Mute s i slot v wait)
include h

theorem schedule_of_speaks : schedule x eff s i slot v wait =
    match goTrap (atStamp s i v wait) i slot (restOf s i slot x) v (actCc s i v wait) with
    | some c => trapTile (atStamp s i v wait) i c (.slot slot)
    | none => match runVerb (restOf s i slot x) eff (atStamp s i v wait) i v (actCc s i v wait) 0 with
      | .trap c => trapTile (atStamp s i v wait) i c (.slot slot)
      | .wait s' _ m w => beginWait s' i slot x.unit (stampOf v) m w
      | .done s' _ => endVerb s' i slot (restOf s i slot x) (stampOf v) (actCc s i v wait) := by
  refine if_neg ?_
  simp only [Mute, actCc, not_or, not_and] at h
  obtain ⟨hiss, hhalt, hmir, hheld⟩ := h
  by_cases hm : mirrorOn s i = true <;> simp_all

theorem schedule_goTrap (hgo : goTrap (atStamp s i v wait) i slot (restOf s i slot x) v (actCc s i v wait) = some c) :
    schedule x eff s i slot v wait = trapTile (atStamp s i v wait) i c (.slot slot) := by
  simp only [schedule_of_speaks h, hgo]

variable (hgo : goTrap (atStamp s i v wait) i slot (restOf s i slot x) v (actCc s i v wait) = none)
include hgo

theorem schedule_trap (hr : runVerb (restOf s i slot x) eff (atStamp s i v wait) i v (actCc s i v wait) 0 = .trap c) :
    schedule x eff s i slot v wait = trapTile (atStamp s i v wait) i c (.slot slot) := by
  simp only [schedule_of_speaks h, hgo, hr]

theorem schedule_wait (hr : runVerb (restOf s i slot x) eff (atStamp s i v wait) i v (actCc s i v wait) 0 = .wait u ws m q) :
    schedule x eff s i slot v wait = beginWait u i slot x.unit (stampOf v) m q := by
  simp only [schedule_of_speaks h, hgo, hr]

theorem schedule_done (hr : runVerb (restOf s i slot x) eff (atStamp s i v wait) i v (actCc s i v wait) 0 = .done u ws) :
    schedule x eff s i slot v wait = endVerb u i slot (restOf s i slot x) (stampOf v) (actCc s i v wait) := by
  simp only [schedule_of_speaks h, hgo, hr]

end Speaks
end Schedule

/-- Every verb that is scheduled runs as its stamp, its bits and its effect say. -/
theorem verbRuns_schedule (x : VInfo) (eff : State → Nat → BitVec 128 → Nat → VRes) (s : State) (i slot : Nat) (v : BitVec 128)
    (wait : Nat) : VerbRuns (.next (schedule x eff s i slot v wait)) x eff s i slot v wait := by
  refine ⟨fun h => congrArg _ (schedule_of_mute h), fun h c hgo => congrArg _ (schedule_goTrap h hgo), fun h hgo =>
    ⟨fun c he => congrArg _ (schedule_trap h hgo (runVerb_traps he)), fun hm hr => ?pair, fun hs => ?single⟩⟩
  case pair =>
    have run := runVerb_pair (x := restOf s i slot x) (eff := eff) (v := v) (cc := actCc s i v wait) (late := 0) hm hr
    refine ⟨fun s₁ wi s₂ wj hi hj => ⟨fun hc => ?_, fun hc => ?_⟩, fun s₁ wi m w s₂ wj m₂ w₂ hi hj => ?_,
      fun s₁ wi s₂ wj m w hi hj => ?_, fun s₁ wi m w s₂ wj hi hj => ?_, fun s₁ wi c hi hj => ?_,
      fun s₁ wi m w c hi hj => ?_⟩ <;> simp only [hi, hj] at run
    · exact congrArg _ (schedule_trap h hgo (run.trans (if_pos hc)))
    · exact congrArg _ (schedule_done h hgo (run.trans (if_neg (Bool.eq_false_iff.mp hc))))
    · exact congrArg _ (schedule_wait h hgo run)
    · exact congrArg _ (schedule_wait h hgo run)
    · exact congrArg _ (schedule_wait h hgo run)
    · exact congrArg _ (schedule_trap h hgo run)
    · exact congrArg _ (schedule_trap h hgo run)
  case single =>
    exact ⟨fun u ws m w he => congrArg _ (schedule_wait h hgo (runVerb_single_wait hs he)), fun u ws he =>
      ⟨fun hc => congrArg _ (schedule_trap h hgo (runVerb_single_carry hs he hc)),
        fun hc => congrArg _ (schedule_done h hgo (runVerb_single_done hs he hc))⟩⟩

/-- Settles O36: each verb but a near MOV is scheduled with its own fields and effect. -/
theorem scheduledVerbsIssueAtTheirStamps : Obligations.ScheduledVerbsIssueAtTheirStamps := by
  intro s i slot v
  have runs (x : VInfo) (eff : State → Nat → BitVec 128 → Nat → VRes) :
      VerbRuns (.next (schedule x eff s i slot v)) x eff s i slot v := verbRuns_schedule x eff s i slot v 0
  have mov (hnear : movNear v = false) (wait : Nat) : VerbRuns (exec (.mov i slot ⟨v, wait⟩) s) (movInfo v) movEff s i slot v wait := by
    have e : exec (.mov i slot ⟨v, wait⟩) s = _ := congrArg Host.Outcome.next (if_neg (by simp [hnear]))
    rw [e]
    exact verbRuns_schedule ..
  exact ⟨runs _ _, runs _ _, runs _ _, runs _ _, runs _ _, runs _ _, runs _ _, runs _ _, runs _ _, runs _ _, mov, runs _ _,
    fun wait => verbRuns_schedule _ _ s i slot v wait, fun wait => verbRuns_schedule _ _ s i slot v wait, runs _ _, runs _ _,
    runs _ _, runs _ _, runs _ _, runs _ _, runs _ _⟩

end Sys2Proof.TileCommands

/-! PROOFS. Family 05_tile_commands: the start of a dynamic verb (R107, R115, R140, R163, R189). -/

namespace Sys2Proof.TileCommands
open Sys2Proof Sys2Proof.Machine Sys2Proof.Laws Sys2Proof.Scope Sys2Proof.Arithmetic

/-! ### What makes a mirror pair (R76) -/

/-- The tile map of a state has no second entry for a site. -/
def SoleEntry (s : State) (j : Nat) : Prop := ∀ p ∈ s.tiles, p.1 = j → p.2 = tileOf s j

/-- An update leaves what decides whether a site is half of a mirror pair of a clause. -/
def KeepsPairing (f : Tile → Tile) : Prop := ∀ t, (f t).mirror = t.mirror ∧ (f t).role = t.role ∧ (f t).bound = t.bound

section Maps
variable {α : Type}

theorem smap_get_eq_default_or_mem (d : α) (m : List (Nat × α)) (i : Nat) : SMap.get d m i = d ∨ (i, SMap.get d m i) ∈ m := by
  induction m with
  | nil => exact .inl rfl
  | cons p m ih =>
    obtain ⟨k, v⟩ := p
    by_cases hk : i = k
    · simp [SMap.get, hk]
    · simpa [SMap.get, hk] using ih

theorem smap_mem_put_other [DecidableEq α] {d : α} {m : List (Nat × α)} {j : Nat} {v : α} {p : Nat × α} (h : p.1 ≠ j) :
    p ∈ SMap.put d m j v ↔ p ∈ m := by
  refine ⟨fun hp => ?_, fun hp => smap_mem_put_of_ne hp h⟩
  unfold SMap.put at hp
  split at hp
  · exact (List.mem_filter.mp hp).1
  · rcases (smap_mem_insert ..).mp hp with rfl | hp
    · exact absurd rfl h
    · exact (List.mem_filter.mp hp).1

theorem smap_mem_put_same [DecidableEq α] {d : α} {m : List (Nat × α)} {j : Nat} {v : α} {p : Nat × α}
    (hp : p ∈ SMap.put d m j v) (h : p.1 = j) : p.2 = v := by
  unfold SMap.put at hp
  split at hp
  · exact absurd h (smap_key_erase m j p hp)
  · rcases (smap_mem_insert ..).mp hp with rfl | hp
    · rfl
    · exact absurd h (smap_key_erase m j p hp)

end Maps

section Pairing
variable {s : State} {i j k : Nat} {f : Tile → Tile}

theorem soleEntry_modTile_same : SoleEntry (modTile s j f) j := by
  intro p hp hj
  rw [tileOf_modTile_same]
  exact smap_mem_put_same hp hj

theorem soleEntry_modTile (h : SoleEntry s k) : SoleEntry (modTile s j f) k := by
  by_cases hkj : k = j
  · exact hkj ▸ soleEntry_modTile_same
  · intro p hp hk
    rw [tileOf_modTile, if_neg hkj]
    exact h p ((smap_mem_put_other (by omega)).mp hp) hk

theorem listed_bound_iff (h : SoleEntry s k) : (∃ p ∈ s.tiles, p.2.bound = true ∧ p.1 = k) ↔ (tileOf s k).bound = true := by
  refine ⟨fun ⟨p, hp, hb, hk⟩ => h p hp hk ▸ hb, fun hb => ?_⟩
  rcases smap_get_eq_default_or_mem {} s.tiles k with hd | hm
  · rw [tileOf, hd] at hb
    cases hb
  · exact ⟨_, hm, hb, rfl⟩

theorem listed_bound_modTile (hf : KeepsPairing f) (h : SoleEntry s j) :
    (∃ p ∈ (modTile s j f).tiles, p.2.bound = true ∧ p.1 = k) ↔ ∃ p ∈ s.tiles, p.2.bound = true ∧ p.1 = k := by
  by_cases hkj : k = j
  · subst hkj
    obtain ⟨-, -, hbound⟩ := hf (tileOf s k)
    rw [listed_bound_iff soleEntry_modTile_same, listed_bound_iff h, tileOf_modTile_same, hbound]
  · constructor <;> rintro ⟨p, hp, hb, rfl⟩
    · exact ⟨p, (smap_mem_put_other hkj).mp hp, hb, rfl⟩
    · exact ⟨p, (smap_mem_put_other hkj).mpr hp, hb, rfl⟩

theorem mem_clauseSites_iff {n : Nat} : k ∈ clauseSites s n ↔
    (∃ y, (tenOf s n).sentence = some y ∧ y.bound.contains (siteRing k) = true) ∧ ∃ p ∈ s.tiles, p.2.bound = true ∧ p.1 = k := by
  rw [mem_clauseSites]
  constructor
  · rintro ⟨y, hy, p, hp, hb, rfl⟩
    rw [Bool.and_eq_true] at hb
    exact ⟨⟨y, hy, hb.2⟩, p, hp, hb.1, rfl⟩
  · rintro ⟨⟨y, hy, hc⟩, p, hp, hb, rfl⟩
    exact ⟨y, hy, p, hp, by rw [hb, hc]; rfl, rfl⟩

/-- A pair stays a mirror pair, and no other becomes one. -/
theorem mirrorOn_modTile (hf : KeepsPairing f) (h : SoleEntry s j) : mirrorOn (modTile s j f) i = mirrorOn s i := by
  have hflags (k : Nat) : (tileOf (modTile s j f) k).mirror = (tileOf s k).mirror ∧
      (tileOf (modTile s j f) k).role = (tileOf s k).role := by
    rw [tileOf_modTile]
    split
    · next hk =>
      obtain ⟨hmirror, hrole, -⟩ := hf (tileOf s j)
      exact ⟨hk ▸ hmirror, hk ▸ hrole⟩
    · exact ⟨rfl, rfl⟩
  have hsites (n k : Nat) : k ∈ clauseSites (modTile s j f) n ↔ k ∈ clauseSites s n := by
    rw [mem_clauseSites_iff, mem_clauseSites_iff, listed_bound_modTile hf h]
    rfl
  rw [Bool.eq_iff_iff, mirrorOn_iff, mirrorOn_iff]
  simp only [hsites, (hflags _).1, (hflags _).2]
  rfl

end Pairing

/-! ### The other half of a pair in the operations of a start -/

section Shift
variable (s : State) (i cc : Nat) (m : List (Nat × Nat))

theorem keepsPairing_boardPrune : KeepsPairing fun t => boardPrune t cc := fun _ => ⟨rfl, rfl, rfl⟩
theorem keepsPairing_shift : KeepsPairing fun t => { t with eng := { t.eng with shift := m } } := fun _ => ⟨rfl, rfl, rfl⟩

theorem soleEntry_pruneAt_same : SoleEntry (pruneAt s i cc) i := by
  unfold pruneAt
  dsimp only
  split
  · exact soleEntry_modTile soleEntry_modTile_same
  · exact soleEntry_modTile_same

theorem soleEntry_pruneAt_partner (h : (tileOf (pruneAt s i cc) i).role = 1) : SoleEntry (pruneAt s i cc) (i + 9) := by
  have hrole : (tileOf (modTile s i fun t => boardPrune t cc) i).role = 1 := by
    rw [tileOf_modTile_same]
    rwa [tileOf_pruneAt_same] at h
  rw [pruneAt, if_pos hrole]
  exact soleEntry_modTile_same

theorem tileOf_setShift_same : tileOf (setShift s i m) i = { tileOf s i with eng := { (tileOf s i).eng with shift := m } } := by
  unfold setShift
  dsimp only
  split
  · rw [tileOf_modTile, if_neg (by omega), tileOf_modTile_same]
  · rw [tileOf_modTile_same]

@[simp] theorem setShift_mem : (setShift s i m).mem = s.mem := by
  unfold setShift
  dsimp only
  split <;> rfl

/-- The pruned tile and its partner stand once in the tile map, so that planning an access makes no pair. -/
theorem mirrorOn_setShift_pruneAt (k : Nat) : mirrorOn (setShift (pruneAt s i cc) i m) k = mirrorOn (pruneAt s i cc) k := by
  have hself := mirrorOn_modTile (i := k) (keepsPairing_shift m) (soleEntry_pruneAt_same s i cc)
  unfold setShift
  dsimp only
  split
  · next hrole =>
    rw [tileOf_modTile_same] at hrole
    rw [mirrorOn_modTile (keepsPairing_shift m) (soleEntry_modTile (soleEntry_pruneAt_partner s i cc hrole)), hself]
  · exact hself

end Shift

@[simp] theorem setUnitTo_drainTo (e : Engine) (c : Nat) (q : VUnit) : (setUnitTo e c q).drainTo = e.drainTo := by cases q <;> rfl

section Start
variable (s : State) (i tag cc : Nat) (x : VInfo) (P : DynPlan)

theorem tileOf_releaseAt_same (c : Nat) : ∃ sb, tileOf (releaseAt s i x tag c) i = { tileOf s i with sb := sb } := by
  unfold releaseAt
  dsimp only
  split
  · next j hj =>
    have hji : i ≠ j := by
      unfold fused at hj
      split at hj <;> cases hj
      omega
    rw [tileOf_modTile, if_neg hji, tileOf_modTile_same]
    exact ⟨_, rfl⟩
  · rw [tileOf_modTile_same]
    exact ⟨_, rfl⟩

theorem tileOf_releaseAt_other {k : Nat} (c : Nat) (h : k < i) : tileOf (releaseAt s i x tag c) k = tileOf s k := by
  unfold releaseAt
  dsimp only
  split
  · next j hj =>
    have hij : k ≠ j := by
      unfold fused at hj
      split at hj <;> cases hj
      omega
    rw [tileOf_modTile, if_neg hij, tileOf_modTile, if_neg (by omega)]
  · rw [tileOf_modTile, if_neg (by omega)]

@[simp] theorem releaseAt_mem (c : Nat) : (releaseAt s i x tag c).mem = s.mem := by
  unfold releaseAt
  dsimp only
  split <;> rfl

@[simp] theorem tileOf_startPair_same : tileOf (startPair s i x cc P) i = tileOf s i := by
  unfold startPair
  split
  · rfl
  · split
    · split
      · rw [tileOf_releaseAt_other _ _ _ _ _ (by omega), tileOf_modTile, if_neg (by omega)]
      · rfl
    · rw [tileOf_modTile, if_neg (by omega)]

@[simp] theorem startPair_mem : (startPair s i x cc P).mem = s.mem := by
  unfold startPair
  split
  · rfl
  · split
    · split
      · rw [releaseAt_mem, modTile_mem]
      · rfl
    · rfl

/-- A dynamic verb has made its writes: it holds its unit and ports until its plan says, and ends its wait. -/
def endStart : State :=
  clearWait (startPair (releaseAt (modTile (setShift s i []) i fun t => startVerb t x tag cc P P.ports) i x tag P.done) i x cc P) i 2

@[simp] theorem endStart_mem : (endStart s i tag cc x P).mem = s.mem := by
  rw [endStart, clearWait, modTile_mem, startPair_mem, releaseAt_mem, modTile_mem, setShift_mem]

/-- Of its tile a started verb leaves the unit, the ports, the drain and its place in the queue as the plan says. -/
theorem endStart_tile : (x.unit ≠ .none → unitTo (tileOf (endStart s i tag cc x P) i).eng x.unit = max P.occ (cc + 1)) ∧
    (tileOf (endStart s i tag cc x P) i).eng.ports = (tileOf s i).eng.ports ++ P.ports ∧
    (tileOf (endStart s i tag cc x P) i).eng.drainTo = (tileOf s i).eng.drainTo + (if x.unit = .engine then P.late else 0) ∧
    (tileOf (endStart s i tag cc x P) i).dynQ = (tileOf s i).dynQ.map fun e =>
      if e.tag = tag && e.done.isNone then { e with done := some P.done } else e := by
  obtain ⟨sb, hsb⟩ := tileOf_releaseAt_same (modTile (setShift s i []) i fun t => startVerb t x tag cc P P.ports) i tag x P.done
  rw [endStart, clearWait, tileOf_modTile_same, tileOf_startPair_same, hsb, tileOf_modTile_same, tileOf_setShift_same]
  refine ⟨fun hq => unitTo_setUnitTo _ _ _ hq, ?_, ?_, rfl⟩
  · simp [startVerb]
  · simp only [startVerb, setUnitTo_drainTo]
    split <;> rfl

end Start

/-- What the run of a head that starts from `u` comes to; a break of the drain rule holds it back (R115). -/
def startResult (u : State) (i tag cc : Nat) (x : VInfo) (P : DynPlan) : VRes → State
  | .trap c => if c = trDrain then u else trapTile u i c .dyn
  | .wait s' _ _ w => setWait (setShift s' i []) i { w with unit := 2 }
  | .done s' _ => endStart s' i tag cc x P

/-! ### The start of the head of the queue -/

section Head
variable {s : State} {i cc : Nat} {d : DynVerb} {P : DynPlan} {info : BitVec 128 → VInfo}
  {eff : State → Nat → BitVec 128 → Nat → VRes}

/-- When the next scheduled verb of the head's unit issues, or the sideshow window begins. -/
def nextOnUnit (info : BitVec 128 → VInfo) (u : State) (i cc : Nat) (q : VUnit) : Nat :=
  if (tileOf u i).eng.past = 0 then nextStamp u (tileOf u i) (fun v => (info v).unit) q cc else windowAt u

/-- Nothing but the head's own conditions keeps a verb from starting. -/
def HeadReady (u : State) (i : Nat) (d : DynVerb) : Prop :=
  (tileOf u i).stopped = false ∧ halts u (siteRing i) = false ∧ ((tileOf u i).st = .running ∨ (tileOf u i).st = .replay) ∧
  mirrorOn u i = false ∧ (tileOf u i).dynQ.find? (fun d => d.done.isNone) = some d

variable (h : HeadReady (pruneAt s i cc) i d)
include h

/-- Without a plan the head stays. -/
theorem startDynamic_no_plan (hplan : dynTimes info (pruneAt s i cc) i (info d.verb) cc = none) :
    startDynamic info eff s i cc = pruneAt s i cc := by
  obtain ⟨-, -, -, -, hhead⟩ := h
  simp only [startDynamic, hhead, hplan, ite_self]

variable (hplan : dynTimes info (pruneAt s i cc) i (info d.verb) cc = some P)
include hplan

theorem startDynamic_held_back (hheld : unitHeld (tileOf (pruneAt s i cc) i).eng (info d.verb).unit cc = true ∨
    boardFree (pruneAt s i cc) i (info d.verb) d.tag = false ∨
    nextOnUnit info (pruneAt s i cc) i cc (info d.verb).unit < P.occ) : startDynamic info eff s i cc = pruneAt s i cc := by
  obtain ⟨-, -, -, -, hhead⟩ := h
  have hback : (unitHeld (tileOf (pruneAt s i cc) i).eng (info d.verb).unit cc ||
      !boardFree (pruneAt s i cc) i (info d.verb) d.tag ||
      decide (nextOnUnit info (pruneAt s i cc) i cc (info d.verb).unit < P.occ)) = true := by
    rcases hheld with hheld | hheld | hheld <;> simp [hheld]
  simp only [startDynamic, hhead, hplan]
  split
  · rfl
  · exact if_pos hback

section Starts
variable {v : State} (hv : v = setShift (pruneAt s i cc) i P.shift)
  (hunit : unitHeld (tileOf (pruneAt s i cc) i).eng (info d.verb).unit cc = false)
  (hboard : boardFree (pruneAt s i cc) i (info d.verb) d.tag = true)
  (hnext : P.occ ≤ nextOnUnit info (pruneAt s i cc) i cc (info d.verb).unit)
include hv hunit hboard hnext

theorem startDynamic_starts : startDynamic info eff s i cc =
    startResult (pruneAt s i cc) i d.tag cc (info d.verb) P (runVerb (info d.verb) eff v i d.verb cc P.late) := by
  obtain ⟨hstop, hhalt, hst, hmir, hhead⟩ := h
  have hrun : (decide ((tileOf (pruneAt s i cc) i).st = .running) || decide ((tileOf (pruneAt s i cc) i).st = .replay)) = true := by
    simpa using hst
  simp only [nextOnUnit] at hnext
  simp only [startDynamic, hstop, hhalt, hrun, hmir, hhead, hplan, hunit, hboard, Nat.not_lt.mpr hnext, ← hv, Bool.not_true,
    Bool.false_and, Bool.or_self, decide_false, Bool.false_eq_true, if_false]
  cases runVerb (info d.verb) eff v i d.verb cc P.late <;> rfl

end Starts

end Head

/-- Settles O45: the head's plan is made before its effect runs, and planning makes no mirror pair of its tile. -/
theorem dynamicVerbsStartAtTheHead : Obligations.DynamicVerbsStartAtTheHead := by
  intro s i cc d u x e next hstop hhalt hst hmir hhead
  subst x
  have h : HeadReady (pruneAt s i cc) i d := ⟨hstop, hhalt, hst, hmir, hhead⟩
  refine ⟨fun hplan => ?noPlan, fun P v hplan hv => ⟨fun hheld => ?held, fun hunit hboard hnext => ?starts⟩⟩
  case noPlan =>
    exact congrArg Host.Outcome.next (startDynamic_no_plan h hplan)
  case held => exact congrArg Host.Outcome.next (startDynamic_held_back h hplan hheld)
  case starts =>
    have hrun : exec (.dynamicVerbStart i cc) s = _ :=
      congrArg Host.Outcome.next (startDynamic_starts (eff := verbEff) h hplan hv hunit hboard hnext)
    have hsingle : mirrorOn v i = false ∨ (tileOf v i).role ≠ 1 := .inl (by rw [hv, mirrorOn_setShift_pruneAt]; exact hmir)
    refine ⟨fun c he => ?trap, fun f ws m y he => ?wait, fun f ws he => ⟨fun hc => ?carry, fun hc w hw => ?done⟩⟩
    case trap =>
      rw [runVerb_traps he, startResult] at hrun
      exact hrun
    case wait =>
      rw [runVerb_single_wait hsingle he, startResult] at hrun
      exact hrun
    case carry =>
      rw [runVerb_single_carry hsingle he hc, startResult, if_neg (by decide), trCarry] at hrun
      exact hrun
    case done =>
      rw [runVerb_single_done hsingle he hc, ← hw, startResult] at hrun
      exact ⟨endStart w i d.tag cc (verbInfo d.verb) P, hrun, endStart_mem .., endStart_tile ..⟩

end Sys2Proof.TileCommands

/-! PROOFS. Family 05_tile_commands: what a tile map with two entries for one site does to a flyer's verb. A state is plain data,
and no statement of this family says that its maps are canonical; a verb prunes its catcher first, which leaves one entry of
it, and a pair that was no mirror pair before is one then. -/

namespace Sys2Proof.TileCommands
open Sys2Proof Sys2Proof.Machine Sys2Proof.Laws Sys2Proof.Scope Sys2Proof.Arithmetic

/-- A flyer at site 0 of a clause with MIRROR, whose catcher at site 9 is listed twice: the entry that is read is bound to no
clause and has no MIRROR, and a second one behind it is bound. -/
def doubledCatcher : State :=
  { Tests.tM with
    tiles := [(0, { st := .running, bound := true, mirror := true, role := 1, recvCh := [(0, { queue := [1] })] }),
      (9, { role := 2 }), (9, { bound := true })]
    mem := [(spmAddr 0 0, 1), (spmAddr 9 (4 * rowBytes), 7)] }

def doubledNop : BitVec 128 := Tests.vb 0x3F []
/-- MOV of row 0 to row 0 of near channel 1. -/
def doubledMov : BitVec 128 := Tests.vb 0x10 [(35, 2), (68, 1), (81, 1)]
/-- RECV of channel 0 into row 4. -/
def doubledRecv : BitVec 128 := Tests.vb 0x19 [(37, 4)]
/-- CCOUNT of the first word of row 0, if it is zero, into row 4. -/
def doubledCcount : BitVec 128 := Tests.vb 0x28 [(45, 1), (65, 0xD), (104, 4)]

/-- Pruned, the two sites are a mirror pair, though they were none. -/
theorem doubledCatcher_becomes_pair :
    mirrorOn doubledCatcher 0 = false ∧ mirrorOn (atStamp doubledCatcher 0 doubledNop) 0 = true := by decide +kernel

/-- Refutes O37: in `doubledCatcher` a NOP of the flyer issues on its catcher too, which counts it. -/
theorem not_nopHoldsNoUnitAndCompletesAtOnce : ¬ Obligations.NopHoldsNoUnitAndCompletesAtOnce := by
  intro h
  have hissue : Issuable doubledCatcher (0 : SiteId) (5 : Fin 8192) (nopInfo doubledNop) doubledNop := by
    refine ⟨?_, ?_, ?_, ?_, ?_⟩ <;> decide +kernel
  obtain ⟨t, ht, -, -, -, hothers, -⟩ := (h doubledCatcher 0 5 doubledNop).1 hissue
  obtain rfl := Host.Outcome.next.inj ht
  have hissued := congrArg (fun t => t.eng.issued) (hothers 9 (by decide))
  revert hissued
  decide +kernel

/-- Refutes O42: in `doubledCatcher` the catcher of a near MOV's flyer writes its own row over the flyer's. -/
theorem not_nearMovesTransferTheirRows : ¬ Obligations.NearMovesTransferTheirRows := by
  intro h
  have hissue : Issuable doubledCatcher (0 : SiteId) (5 : Fin 8192) (movInfo doubledMov) doubledMov := by
    refine ⟨?_, ?_, ?_, ?_, ?_⟩ <;> decide +kernel
  obtain ⟨hmove, -, -⟩ := h doubledCatcher 0 5 doubledMov 0 _ hissue (by decide +kernel) (by decide +kernel)
    (.inr (by decide +kernel)) rfl
  obtain ⟨hwrite, -⟩ := hmove (by decide +kernel) (by decide +kernel) (by decide +kernel)
  obtain ⟨t, ht, -, hmem, -⟩ := hwrite (by decide +kernel) (by decide +kernel)
  obtain rfl := Host.Outcome.next.inj ht
  revert hmem
  decide +kernel

/-- Refutes O43: in `doubledCatcher` a RECV of the flyer, which has a descriptor, waits with its catcher, which has none. -/
theorem not_channelVerbsMoveOneDescriptor : ¬ Obligations.ChannelVerbsMoveOneDescriptor := by
  intro h
  have hissue : Issuable doubledCatcher (0 : SiteId) (5 : Fin 8192) (chanInfo true doubledRecv) doubledRecv := by
    refine ⟨?_, ?_, ?_, ?_, ?_⟩ <;> decide +kernel
  have hcarry : CarryFree doubledCatcher (0 : SiteId) (fld doubledRecv 37 13) 1 := fun k _ => rfl
  have hsettled : Settled doubledCatcher (0 : SiteId) (actCc doubledCatcher (0 : SiteId) doubledRecv) (fld doubledRecv 37 13) 1 :=
    fun o ho => by cases ho
  obtain ⟨-, hrecv⟩ := h doubledCatcher 0 5 doubledRecv 0
  obtain ⟨t, ht, ⟨-, hends, -⟩, -⟩ := hrecv 1 [] hissue hcarry hsettled (by decide +kernel)
  obtain rfl := Host.Outcome.next.inj ht
  revert hends
  decide +kernel

/-- Refutes O44: in `doubledCatcher` a CCOUNT of the flyer writes the catcher's word too. -/
theorem not_countsAndChecksReport : ¬ Obligations.CountsAndChecksReport := by
  intro h
  have hissue : Issuable doubledCatcher (0 : SiteId) (5 : Fin 8192) (ccountInfo doubledCcount) doubledCcount := by
    refine ⟨?_, ?_, ?_, ?_, ?_⟩ <;> decide +kernel
  have hcarry : CarryFree doubledCatcher (0 : SiteId) (fld doubledCcount 104 13) 1 := fun k _ => rfl
  have hsettled : Settled doubledCatcher (0 : SiteId) (actCc doubledCatcher (0 : SiteId) doubledCcount)
      (fld doubledCcount 104 13) 1 := fun o ho => by cases ho
  obtain ⟨t, ht, -, -, hframe⟩ := h.1 doubledCatcher 0 5 doubledCcount _ _ hissue hcarry hsettled (if_pos (by decide +kernel))
    (by decide +kernel)
  obtain rfl := Host.Outcome.next.inj ht
  have hbyte := hframe (spmAddr 9 (4 * rowBytes)) (.inr (by decide +kernel))
  revert hbyte
  decide +kernel

end Sys2Proof.TileCommands

/-! PROOFS. Family 05_tile_commands: a special-function verb that writes under poison of an earlier write (R122, R151, R160). -/

namespace Sys2Proof.TileCommands
open Sys2Proof Sys2Proof.Machine Sys2Proof.Laws Sys2Proof.Scope Sys2Proof.Arithmetic

/-- A beat whose carry copy is rows 0 to 15, where an earlier verb's poison in row 3 is only seen from cc 500 on. -/
def poisonedCarry : State :=
  { Tests.tSite { Tests.aTile with
      carryBase := 0, carryRows := 16
      oldRows := [{ row := 3, w := 500, bytes := List.replicate rowBytes 0, psn := [], words := List.range 64 }] } with
    poison := [rowLane 0 3] }

/-- CAST.SLICE of 32 FP16 values in rows 100 to 163 into rows 0 to 15, σ in row 96, stamped 100. -/
def carrySlice : BitVec 128 := Tests.vb 0x11 [(32, 100), (45, 0), (58, 32), (78, 0xA), (87, 1), (89, 96)]

theorem carrySlice_issuable :
    Issuable poisonedCarry (0 : SiteId) (5 : Fin 8192) (castInfo carrySlice) carrySlice := by
  refine ⟨?_, ?_, ?_, ?_, ?_⟩ <;> decide +kernel

/-- The slice reads clean rows, and σ goes to a clean one; its other destination rows are not looked at. -/
theorem carrySlice_cleanRows :
    CleanRows poisonedCarry (0 : SiteId) (actCc poisonedCarry (0 : SiteId) carrySlice)
      ((fld carrySlice 89 13, 1) :: (castInfo carrySlice).reads) := by
  have hrows : (fld carrySlice 89 13, 1) :: (castInfo carrySlice).reads = [(96, 1), (100, 64)] := by decide +kernel
  rw [hrows]
  unfold CleanRows Settled
  decide +kernel

/-- Refutes O40: the slice writes row 3 while the earlier write of it is still to be seen, its poisoned words with it. Poison written
into the carry copy fails the beat (R160), and an AUDIT_FAIL is staged, which `VerbFrame` does not allow. -/
theorem not_specialFunctionVerbsWriteTheirRows : ¬ Obligations.SpecialFunctionVerbsWriteTheirRows := by
  intro h
  obtain ⟨-, -, -, -, -, -, hslice⟩ := h poisonedCarry 0 5 carrySlice
  have hcarry : CarryFree poisonedCarry (0 : SiteId) (fld carrySlice 45 13) (castDst carrySlice) := by
    unfold CarryFree; decide +kernel
  have hsigma : CarryFree poisonedCarry (0 : SiteId) (fld carrySlice 89 13) 1 := by
    unfold CarryFree; decide +kernel
  obtain ⟨t, ht, -, -, hframe⟩ := hslice carrySlice_issuable (by decide +kernel) hcarry hsigma
  obtain rfl := Host.Outcome.next.inj ht
  obtain ⟨hrest, -, -⟩ := hframe carrySlice_cleanRows (by decide +kernel)
  have hplies := congrArg (fun t : State => t.plies.length) hrest
  revert hplies
  decide +kernel

end Sys2Proof.TileCommands

/-! PROOFS. Family 05_tile_commands: a NOP where the tile map lists the sites of its tile once (R105, R133). -/

namespace Sys2Proof.TileCommands
open Sys2Proof Sys2Proof.Machine Sys2Proof.Laws Sys2Proof.Scope Sys2Proof.Arithmetic

section Nop
variable {s : State} {i slot wait : Nat} {v : BitVec 128}

/-- A verb's stamp makes no mirror pair of a tile and a partner that stand once in the tile map. -/
theorem mirrorOn_atStamp_of_soleEntry (hi : SoleEntry s i) (hpartner : SoleEntry s (i + 9)) (k : Nat) :
    mirrorOn (atStamp s i v wait) k = mirrorOn s k := by
  have hself := mirrorOn_modTile (i := k) (keepsPairing_boardPrune (actCc s i v wait)) hi
  unfold atStamp pruneAt
  dsimp only
  split
  · rw [mirrorOn_modTile (keepsPairing_boardPrune _) (soleEntry_modTile hpartner), hself]
  · exact hself

/-- A verb of no unit holds nothing in the other half of its pair, unless the two mirror each other. -/
theorem endVerb_noUnit {u : State} {y : VInfo} (stamp cc : Nat) (hunit : y.unit = .none) (hm : mirrorOn u i = false)
    (hi : SoleEntry u i) : endVerb u i slot y stamp cc = modTile u i fun t => holdUnit (endWait t slot) y slot stamp cc := by
  have hkeeps : KeepsPairing fun t => holdUnit (endWait t slot) y slot stamp cc := fun _ => ⟨rfl, rfl, rfl⟩
  simp [endVerb, holdPair, mirrorOn_modTile hkeeps hi, hm, hunit]

theorem unitTo_holdUnit_noUnit {t : Tile} {y : VInfo} {q : VUnit} {stamp cc : Nat} (hunit : y.unit = .none) :
    unitTo (holdUnit (endWait t slot) y slot stamp cc).eng q = unitTo t.eng q := by
  simp only [holdUnit, hunit]
  cases q <;> rfl

theorem holdUnit_doneBy {t : Tile} {y : VInfo} {stamp cc : Nat} :
    (holdUnit (endWait t slot) y slot stamp cc).eng.doneBy = max t.eng.doneBy (cc + y.comp) := by
  simp [holdUnit, endWait]

theorem goTrap_of_bits {x : VInfo} {c cc : Nat} (hx : x.trap = some c) (hw : waitsIn (tileOf s i) slot = false)
    (hpar : (tileOf s i).badParity.contains slot = false) : goTrap s i slot x v cc = some c := by
  simp only [goTrap, hw, issueTrap, hpar, hx, Bool.false_eq_true, if_false]

theorem nopInfo_trap_of_reserved (h : fld v 32 96 ≠ 0) : (nopInfo v).trap = some trFormat := by
  simp [nopInfo, firstTrap, zeroF, h]

/-- A NOP with a Reserved bit set (R133). -/
theorem exec_nop_reserved {i : SiteId} {slot : Fin 8192} (hbits : fld v 32 96 ≠ 0) (hiss : issues (tileOf s i) false = true)
    (hhalt : halts s (siteRing i) = false) (hmir : (mirrorOn s i && (tileOf s i).role = 2) = false)
    (hw : waitsIn (tileOf s i) slot = false) (hpar : (tileOf s i).badParity.contains (slot : Nat) = false) :
    exec (.nop i slot v) s = .next (trapTile (atStamp s i v) i trFormat (.slot slot)) := by
  have hspeaks : ¬ Mute s i slot v 0 := by
    simp_all [Mute, waitHeld]
  have htile := tileOf_atStamp_same s i v 0
  exact congrArg _ (schedule_goTrap hspeaks (goTrap_of_bits (x := restOf s i slot (nopInfo v))
    (nopInfo_trap_of_reserved hbits)
    (by rw [htile]; exact hw) (by rw [htile]; exact hpar)))

/-- What a NOP does that issues on a tile of no mirror pair. -/
theorem exec_nop_issues {i : SiteId} {slot : Fin 8192} (hm : mirrorOn (atStamp s i v) i = false)
    (h : Issuable s i slot (nopInfo v) v) : exec (.nop i slot v) s =
      .next (endVerb (atStamp s i v) i slot (restOf s i slot (nopInfo v)) (stampOf v) (actCc s i v)) := by
  have hexec : exec (.nop i slot v) s = .next (schedule (nopInfo v) nopEff s i slot v) := rfl
  have hrun : runVerb (restOf s i slot (nopInfo v)) nopEff (atStamp s i v) i v (actCc s i v) 0 = .done (atStamp s i v) [] :=
    runVerb_done (ws := []) hm rfl rfl
  rw [hexec, schedule_of_done h hrun]

/-- What O37 says of a NOP holds where its tile and the partner stand once in the tile map. -/
theorem nop_of_soleEntry {i : SiteId} {slot : Fin 8192} (hi : SoleEntry s i) (hpartner : SoleEntry s (i + 9))
    (h : Issuable s i slot (nopInfo v) v) :
    NextWith (exec (.nop i slot v) s) fun t => Issued s t i slot (nopInfo v) v ∧ t.mem = s.mem ∧
      t = { s with tiles := t.tiles } ∧ (∀ j, j ≠ (i : Nat) → tileOf t j = tileOf (atStamp s i v) j) ∧
      tileOf t i = { boardPrune (tileOf s i) (actCc s i v) with eng := (tileOf t i).eng } ∧
      (∀ u, unitTo (tileOf t i).eng u = unitTo (tileOf s i).eng u) ∧
      (tileOf t i).eng.doneBy = max (tileOf s i).eng.doneBy (actCc s i v) := by
  have hm : mirrorOn (atStamp s i v) i = false := by
    obtain ⟨-, -, hmir, -⟩ := h
    rw [mirrorOn_atStamp_of_soleEntry hi hpartner, hmir]
  have hend : endVerb (atStamp s i v) i slot (restOf s i slot (nopInfo v)) (stampOf v) (actCc s i v) = _ :=
    endVerb_noUnit _ _ rfl hm fun p => soleEntry_pruneAt_same s i (actCc s i v) p
  have htile := tileOf_atStamp_same s i v 0
  rw [exec_nop_issues hm h]
  refine nextWith_next ⟨issued_endVerb (htile ▸ ⟨rfl, rfl, rfl, rfl⟩), ?mem, ?rest, ?others, ?tile, ?units, ?done⟩
  case mem => rw [endVerb_mem, atStamp, pruneAt_mem]
  case rest =>
    rw [hend]
    unfold atStamp pruneAt
    dsimp only
    split <;> rfl
  case others =>
    intro j hj
    rw [hend, tileOf_modTile, if_neg hj]
  all_goals rw [tileOf_endVerb_same, htile]
  case tile => simp [holdUnit, endWait]
  case units => exact fun q => unitTo_holdUnit_noUnit rfl
  case done => exact holdUnit_doneBy

end Nop
end Sys2Proof.TileCommands

/-! PROOFS. Family 06_scratchpad: what the narrow slot does, and what a scrub leaves of a row's errors (R148, R161, R162, R169). -/

namespace Sys2Proof.Scratchpad
open Sys2Proof Sys2Proof.Machine Sys2Proof.Laws Sys2Proof.Scope Sys2Proof.Arithmetic

/-! ### What leaves the memory and the scratchpad state of a site -/

/-- From one state to a later one the memory, its latent errors and the scratchpad state of a site are as they were. -/
structure SpmKeeps (i : Nat) (s t : State) : Prop where
  mem : t.mem = s.mem
  latent : t.latent = s.latent
  spm : (tileOf t i).spm = (tileOf s i).spm

section Keeps
variable {s t u : State} {i j : Nat}

theorem SpmKeeps.refl (s : State) : SpmKeeps i s s := ⟨rfl, rfl, rfl⟩

theorem SpmKeeps.trans (h : SpmKeeps i s t) (k : SpmKeeps i t u) : SpmKeeps i s u :=
  ⟨k.mem.trans h.mem, k.latent.trans h.latent, k.spm.trans h.spm⟩

theorem spmKeeps_ite {c : Prop} [Decidable c] (h : SpmKeeps i s t) (k : SpmKeeps i s u) : SpmKeeps i s (if c then t else u) := by
  split
  · exact h
  · exact k

theorem spmKeeps_modTile {f : Tile → Tile} (hf : (f (tileOf s j)).spm = (tileOf s j).spm) : SpmKeeps i s (modTile s j f) := by
  refine ⟨rfl, rfl, ?_⟩
  rw [tileOf_modTile]
  split
  next hij => rw [hf, hij]
  next => rfl

theorem spmKeeps_takeSlot (s : State) (j cc : Nat) : SpmKeeps i s (takeSlot s j cc) := spmKeeps_modTile rfl

theorem spmKeeps_pruneAt (s : State) (j cc : Nat) : SpmKeeps i s (pruneAt s j cc) := by
  have hprune (s : State) (j : Nat) : SpmKeeps i s (modTile s j fun t => boardPrune t cc) := spmKeeps_modTile rfl
  exact spmKeeps_ite ((hprune s j).trans (hprune _ (j + 9))) (hprune s j)

theorem spmKeeps_evTile (s : State) (j cls code d : Nat) : SpmKeeps i s (evTile s j cls code d) :=
  ⟨evTile_mem .., evTile_latent .., by rw [tileOf_evTile]⟩

theorem spmKeeps_noteReal (s : State) (n : Option Nat) : SpmKeeps i s (noteReal s n) := spmKeeps_ite ⟨rfl, rfl, rfl⟩ (.refl s)

theorem spmKeeps_siteDies (s : State) (j : Nat) : SpmKeeps i s (siteDies s j) := by
  have hfence : SpmKeeps i s (modTile s j fun t => { t with st := .fenced }) := spmKeeps_modTile rfl
  have hfail (s : State) : SpmKeeps i s (failTile s j mechDead) := ⟨failTile_mem .., failTile_latent .., by rw [tileOf_failTile]⟩
  exact spmKeeps_ite ((hfence.trans (spmKeeps_evTile ..)).trans (hfail _)) hfence

/-- A failure of a site fences it and goes to the map; its scratchpad is not touched. -/
theorem spmKeeps_siteFails (s : State) (j : Nat) (b : Bool) (csrc cause : Nat) : SpmKeeps i s (siteFails s j b csrc cause) := by
  have hmap (s : State) (m : SiteMap) : SpmKeeps i s (setSiteMap s j m) := ⟨rfl, rfl, by rw [tileOf_setSiteMap]⟩
  have hrefine (s : State) (p : Nat) (e : BitVec 128) : SpmKeeps i s (refine s p e) := ⟨rfl, rfl, by rw [tileOf_refine]⟩
  unfold siteFails
  dsimp only
  refine .trans ?entry (spmKeeps_ite (spmKeeps_siteDies ..) (.refl _))
  refine .trans ?map (spmKeeps_ite (.refl _) (hrefine ..))
  exact (spmKeeps_noteReal ..).trans (hmap ..)

theorem spmKeeps_foldl {α : Type} {f : State → α → State} (hf : ∀ s x, SpmKeeps i s (f s x)) (s : State) (xs : List α) :
    SpmKeeps i s (xs.foldl f s) :=
  List.foldlRecOn xs f (motive := SpmKeeps i s) (.refl s) fun t ht x _ => ht.trans (hf t x)

end Keeps

/-! ### The errors of a row, by the latent errors and the segment's code (R154, R156) -/

section Errors
variable {s t : State} {i row : Nat}

/-- Two states in which a site's rows show the same errors: the latent errors, the segment classes and the XV bits agree. -/
structure SameErrors (i : Nat) (s t : State) : Prop where
  latent : t.latent = s.latent
  segClass : (tileOf t i).spm.segClass = (tileOf s i).spm.segClass
  xv : (tileOf t i).spm.xv = (tileOf s i).spm.xv

theorem SpmKeeps.sameErrors (h : SpmKeeps i s t) : SameErrors i s t := ⟨h.latent, by rw [h.spm], by rw [h.spm]⟩

theorem SameErrors.trans {u : State} (h : SameErrors i s t) (k : SameErrors i t u) : SameErrors i s u :=
  ⟨k.latent.trans h.latent, k.segClass.trans h.segClass, k.xv.trans h.xv⟩

theorem SameErrors.latentAt_eq (h : SameErrors i s t) (w : Nat) : latentAt t w = latentAt s w := by
  rw [latentAt, h.latent, latentAt]

theorem SameErrors.badWords_eq (h : SameErrors i s t) (k : Latent) : badWords t i row k = badWords s i row k := by
  simp only [badWords, h.latentAt_eq]

theorem SameErrors.rebuilds_eq (h : SameErrors i s t) : rebuilds t i row = rebuilds s i row := by
  simp only [rebuilds, classW, h.latentAt_eq, h.badWords_eq, h.segClass, h.xv]

theorem SameErrors.deadWords_eq (h : SameErrors i s t) : deadWords t i row = deadWords s i row := by
  simp only [deadWords, h.rebuilds_eq, h.badWords_eq]

theorem SameErrors.corrWords_eq (h : SameErrors i s t) : corrWords t i row = corrWords s i row := by
  simp only [corrWords, fixedWords, h.rebuilds_eq, h.badWords_eq]

/-- A read of a row that needs no correction and has no dead word finds nothing: a rebuilt word would be a corrected one. -/
theorem rowErrs_of_clean (hc : corrWords s i row = 0) (hd : deadWords s i row = []) :
    (rowErrs s i row).fixed = [] ∧ (rowErrs s i row).dead = [] ∧ (rowErrs s i row).rebuilt = [] := by
  have hfixed : fixedWords s i row = [] := List.length_eq_zero_iff.mp hc
  exact ⟨hfixed, hd, (List.append_eq_nil_iff.mp hfixed).2⟩

end Errors

/-! ### The scrubber's read and writeback -/

section Scrub
variable {s : State} {i row : Nat}

/-- The scrubber's read of a clean row adds no hint, no record and no failure. -/
theorem spmKeeps_noteRead_scrub (hc : corrWords s i row = 0) (hd : deadWords s i row = []) :
    SpmKeeps i s (noteRead s i row .scrub) := by
  obtain ⟨hfixed, hdead, hrebuilt⟩ := rowErrs_of_clean hc hd
  unfold noteRead noteErrs deadRecords
  rw [hfixed, hdead, hrebuilt]
  exact ⟨rfl, rfl, by simp [tileOf, setTile]⟩

/-- The scratchpad state after a read of the scrubber that asks for no writeback: a hint is taken, or else the row counter goes
on. -/
def scrubAdvance (x : Spm) : Spm :=
  { x with hints := x.hints.drop 1
           scrubRow := if x.hints.isEmpty then (x.scrubRow + 1) % spmRows else x.scrubRow
           writeback := none }

/-- That read in the state, with `m` as the counts of words corrected in consecutive passes. -/
def scrubTook (s : State) (i : Nat) (m : List (Nat × Nat)) : State :=
  modTile s i fun t => { t with spm := { scrubAdvance t.spm with persist := m } }

theorem scrubTook_mem (s : State) (i : Nat) (m : List (Nat × Nat)) : (scrubTook s i m).mem = s.mem := rfl

theorem scrubTook_spm (s : State) (i : Nat) (m : List (Nat × Nat)) :
    (tileOf (scrubTook s i m) i).spm = { scrubAdvance (tileOf s i).spm with persist := m } := by
  rw [scrubTook, tileOf_modTile_same]

theorem sameErrors_scrubTook (s : State) (i : Nat) (m : List (Nat × Nat)) : SameErrors i s (scrubTook s i m) :=
  ⟨rfl, by rw [scrubTook_spm]; rfl, by rw [scrubTook_spm]; rfl⟩

/-- Counting consecutive corrections changes the scratchpad's counts of them only (R162). -/
theorem spmKeeps_scrubPersist (s : State) (i row : Nat) (m : List (Nat × Nat)) :
    ∃ m', SpmKeeps i (scrubTook s i m') (scrubPersist (scrubTook s i m) i row) := by
  have hcounts (m' : List (Nat × Nat)) : SpmKeeps i (scrubTook s i m')
      (modTile (scrubTook s i m) i fun t => { t with spm := { t.spm with persist := m' } }) :=
    ⟨rfl, rfl, by rw [tileOf_modTile_same, scrubTook_spm, scrubTook_spm]⟩
  exact ⟨_, (hcounts _).trans (spmKeeps_foldl (fun _ _ => spmKeeps_siteFails ..) ..)⟩

/-- The scrubber's read of a clean row does nothing else. -/
theorem scrubRead_of_clean (hrow : row = (tileOf s i).spm.hints.headD (tileOf s i).spm.scrubRow)
    (hc : corrWords s i row = 0) (hd : deadWords s i row = []) : ∃ m, SpmKeeps i (scrubTook s i m) (scrubRead s i) := by
  have hread {t : State} {m : List (Nat × Nat)} (ht : SpmKeeps i (scrubTook s i m) t) :
      SpmKeeps i (scrubTook s i m) (noteRead t i row .scrub) := by
    have herrs := (sameErrors_scrubTook s i m).trans ht.sameErrors
    exact ht.trans (spmKeeps_noteRead_scrub (herrs.corrWords_eq.trans hc) (herrs.deadWords_eq.trans hd))
  have hscrub : scrubRead s i = noteRead (if (tileOf s i).spm.hints.isEmpty
      then scrubPersist (scrubTook s i (tileOf s i).spm.persist) i row
      else scrubTook s i (tileOf s i).spm.persist) i row .scrub := by
    simp only [scrubRead, ← hrow, hc, hd, List.isEmpty_nil, if_true]
    rfl
  rw [hscrub]
  split
  · obtain ⟨m, hcount⟩ := spmKeeps_scrubPersist s i row (tileOf s i).spm.persist
    exact ⟨m, hread hcount⟩
  · exact ⟨_, hread (.refl _)⟩

@[simp] theorem scrubBack_mem (s : State) (i row : Nat) : (scrubBack s i row).mem = s.mem := rfl

@[simp] theorem scrubBack_writeback (s : State) (i row : Nat) : (tileOf (scrubBack s i row) i).spm.writeback = none := by
  rw [scrubBack, tileOf_modTile_same]

/-- A writeback clears the errors of the row's words, but those that could not be rebuilt. -/
theorem latentAt_scrubBack {l : Nat} (hlo : rowLane i row ≤ l) (hhi : l < rowLane i row + 64)
    (hdead : l - rowLane i row ∉ deadWords s i row) : latentAt (scrubBack s i row) l = none := by
  rw [latentAt, Option.map_eq_none_iff, List.find?_eq_none]
  intro p hp heq
  have hl : p.1 = l := of_decide_eq_true heq
  have hkept := (List.mem_filter.mp hp).2
  simp [hl, hlo, hhi, hdead] at hkept

end Scrub

/-! ### The branches of the narrow slot (R148) -/

section Slot
variable {s : State} {i : SiteId} {cc : Nat}

/-- A slot that is free: of every fourth cc, on a ring with power, and taken by no access of the core. -/
def FreeSlot (s : State) (i : SiteId) (cc : Nat) : Prop :=
  cc % 4 = 0 ∧ (ringOf s (siteRing i)).supply = 0 ∧ (tileOf s i).core.slotAt ≠ some cc

/-- The slot is the scrubber's own, or no Module Address word waits. -/
def ScrubTurn (s : State) (i : SiteId) (cc : Nat) : Prop := cc % 64 = 60 ∨ (tileOf s i).spm.maDue = 0

/-- The state in which the scrubber does its turn: what has ended by cc is gone, and the slot is taken. -/
def atSlot (s : State) (i cc : Nat) : State := takeSlot (pruneAt s i cc) i cc

theorem spmKeeps_atSlot (s : State) (i cc : Nat) : SpmKeeps i s (atSlot s i cc) :=
  (spmKeeps_pruneAt ..).trans (spmKeeps_takeSlot ..)

theorem ringOf_pruneAt (s : State) (i cc r : Nat) : ringOf (pruneAt s i cc) r = ringOf s r := by
  unfold pruneAt
  dsimp only
  split <;> rfl

/-- In a free slot nothing is tested but the turn. -/
theorem exec_narrowAccess_of_free (h : FreeSlot s i cc) : exec (.narrowAccess i cc) s = .next (
    match maSlot (pruneAt s i cc) i cc with
    | some t => takeSlot t i cc
    | none => if (tileOf s i).st = .fenced then pruneAt s i cc else
      match (tileOf s i).spm.writeback with
      | some row => scrubBack (atSlot s i cc) i row
      | none => scrubRead (atSlot s i cc) i) := by
  obtain ⟨hfourth, hpower, hslot⟩ := h
  have hexec : exec (.narrowAccess i cc) s = .next (narrowSlot s i cc) := rfl
  have hfree : (decide (cc % 4 ≠ 0) || decide ((tileOf (pruneAt s i cc) i).core.slotAt = some cc) ||
      dark (pruneAt s i cc) (siteRing i)) = false := by
    simp [dark, ringOf_pruneAt, tileOf_pruneAt_same, boardPrune, hfourth, hpower, hslot]
  rw [hexec, narrowSlot]
  dsimp only
  rw [if_neg (by rw [hfree]; exact Bool.false_ne_true), tileOf_pruneAt_same]
  rfl

/-- In the scrubber's turn no Module Address word goes. -/
theorem maSlot_of_scrubTurn (h : ScrubTurn s i cc) : maSlot (pruneAt s i cc) i cc = none := by
  have hspm := (spmKeeps_pruneAt (i := i) s i cc).spm
  rcases h with h | h <;> simp [maSlot, hspm, h]

theorem exec_narrowAccess_fenced (h : FreeSlot s i cc) (hturn : ScrubTurn s i cc) (hst : (tileOf s i).st = .fenced) :
    exec (.narrowAccess i cc) s = .next (pruneAt s i cc) := by
  rw [exec_narrowAccess_of_free h, maSlot_of_scrubTurn hturn]
  simp only [hst, if_true]

theorem exec_narrowAccess_writeback {r : Nat} (h : FreeSlot s i cc) (hturn : ScrubTurn s i cc)
    (hst : (tileOf s i).st ≠ .fenced) (hwb : (tileOf s i).spm.writeback = some r) :
    exec (.narrowAccess i cc) s = .next (scrubBack (atSlot s i cc) i r) := by
  rw [exec_narrowAccess_of_free h, maSlot_of_scrubTurn hturn]
  simp only [hst, if_false, hwb]

theorem exec_narrowAccess_read (h : FreeSlot s i cc) (hturn : ScrubTurn s i cc)
    (hst : (tileOf s i).st ≠ .fenced) (hwb : (tileOf s i).spm.writeback = none) :
    exec (.narrowAccess i cc) s = .next (scrubRead (atSlot s i cc) i) := by
  rw [exec_narrowAccess_of_free h, maSlot_of_scrubTurn hturn]
  simp only [hst, if_false, hwb]

/-- A Module Address word that waits takes a slot that is not the scrubber's own, in a FENCED tile too (R148, R169). -/
theorem narrowAccess_takes_waiting_word (h : FreeSlot s i cc) (hown : cc % 64 ≠ 60) (hdue : (tileOf s i).spm.maDue ≠ 0) :
    NextWith (exec (.narrowAccess i cc) s) fun t => t.mem = s.mem ∧ (tileOf t i).core.slotAt = some cc ∧
      (tileOf t i).spm = { (tileOf s i).spm with maDue := (tileOf s i).spm.maDue - 1 } := by
  have hkeeps := spmKeeps_pruneAt (i := i) s i cc
  have hword : maSlot (pruneAt s i cc) i cc = some (modTile (pruneAt s i cc) i fun t =>
      { t with spm := { t.spm with maDue := t.spm.maDue - 1 } }) := by
    simp [maSlot, hkeeps.spm, hown, hdue]
  rw [exec_narrowAccess_of_free h, hword]
  exact nextWith_next ⟨by simp [takeSlot], by simp [takeSlot], by simp [takeSlot, hkeeps.spm]⟩

/-- The writeback of a row clears its correctable errors. -/
theorem narrowAccess_writes_back {r : Nat} (h : FreeSlot s i cc) (hturn : ScrubTurn s i cc)
    (hst : (tileOf s i).st ≠ .fenced) (hwb : (tileOf s i).spm.writeback = some r) :
    NextWith (exec (.narrowAccess i cc) s) fun t => (tileOf t i).spm.writeback = none ∧ t.mem = s.mem ∧
      (∀ l : Nat, rowLane i r ≤ l → l < rowLane i r + 64 → (l - rowLane i r) ∉ deadWords s i r → latentAt t l = none) := by
  have hkeeps := spmKeeps_atSlot s i cc
  rw [exec_narrowAccess_writeback h hturn hst hwb]
  refine nextWith_next ⟨scrubBack_writeback .., by rw [scrubBack_mem, hkeeps.mem], fun l hlo hhi hdead => ?_⟩
  exact latentAt_scrubBack hlo hhi (by rwa [hkeeps.sameErrors.deadWords_eq])

/-- The scrubber's read of a clean row, of the first hint or else of the row counter (R161, R162). -/
theorem narrowAccess_reads_clean {row : Nat} (h : FreeSlot s i cc) (hturn : ScrubTurn s i cc)
    (hst : (tileOf s i).st ≠ .fenced) (hwb : (tileOf s i).spm.writeback = none)
    (hrow : row = (tileOf s i).spm.hints.headD (tileOf s i).spm.scrubRow)
    (hc : corrWords s i row = 0) (hd : deadWords s i row = []) :
    NextWith (exec (.narrowAccess i cc) s) fun t => t.mem = s.mem ∧ (tileOf t i).spm.writeback = none ∧
      (tileOf t i).spm.hints = (tileOf s i).spm.hints.drop 1 ∧
      (tileOf t i).spm.scrubRow =
        if (tileOf s i).spm.hints.isEmpty then ((tileOf s i).spm.scrubRow + 1) % 6144 else (tileOf s i).spm.scrubRow := by
  have hkeeps := spmKeeps_atSlot s i cc
  obtain ⟨m, hread⟩ := scrubRead_of_clean (by rwa [hkeeps.spm]) (hkeeps.sameErrors.corrWords_eq.trans hc)
    (hkeeps.sameErrors.deadWords_eq.trans hd)
  have hspm := hread.spm
  rw [scrubTook_spm, hkeeps.spm] at hspm
  rw [exec_narrowAccess_read h hturn hst hwb]
  exact nextWith_next ⟨by rw [hread.mem, scrubTook_mem, hkeeps.mem], by rw [hspm]; rfl, by rw [hspm]; rfl, by rw [hspm]; rfl⟩

end Slot

/-- Settles O51: the branches of the narrow slot, with the scrubber's turn and a clean row's read. -/
theorem narrowSlotScrubsInTurn : Obligations.NarrowSlotScrubsInTurn := by
  intro s i cc hfourth hpower hslot
  have hfree : FreeSlot s i cc := ⟨hfourth, hpower, hslot⟩
  refine ⟨narrowAccess_takes_waiting_word hfree, exec_narrowAccess_fenced hfree, fun hturn hst =>
    ⟨fun r => narrowAccess_writes_back hfree hturn hst, fun hwb hhints hc hd => ?counter, fun row rest hwb hhints hc hd => ?hint⟩⟩
  case counter =>
    obtain ⟨t, ht, hmem, hback, -, hnext⟩ := narrowAccess_reads_clean hfree hturn hst hwb (by rw [hhints]; rfl) hc hd
    rw [hhints] at hnext
    exact ⟨t, ht, hmem, hback, hnext⟩
  case hint =>
    obtain ⟨t, ht, hmem, -, htaken, hstays⟩ := narrowAccess_reads_clean hfree hturn hst hwb (by rw [hhints]; rfl) hc hd
    rw [hhints] at htaken hstays
    exact ⟨t, ht, hmem, htaken, hstays⟩

end Sys2Proof.Scratchpad

/-! PROOFS. Family 09_midway: what a router does with a packet at one of its inputs (R244, R245, R249 to R252, R254, R255, R258). -/

namespace Sys2Proof.Midway
open Sys2Proof Sys2Proof.Machine Sys2Proof.Laws Sys2Proof.Scope

/-! ### What the operations of a router leave as it was -/

/-- From one state to a later one at most the packets in transit, the routers and the rings have changed. -/
def RouterFrame (s t : State) : Prop := t = { s with net := t.net, fields := t.fields, rings := t.rings }

section Frame
variable {s t u : State} {f : Nat}

theorem RouterFrame.trans (h : RouterFrame s t) (k : RouterFrame t u) : RouterFrame s u := by
  unfold RouterFrame at *
  rw [k, h]

theorem RouterFrame.of_rings (h : RouterFrame s t) (hr : t.rings = s.rings) : t = { s with net := t.net, fields := t.fields } := by
  unfold RouterFrame at h
  rwa [hr] at h

theorem routerFrame_modField (s : State) (f : Nat) (g : Field → Field) : RouterFrame s (modField s f g) := rfl
theorem routerFrame_refuse (s : State) (f : Nat) : RouterFrame s (refuse s f) := rfl

/-- An answer is one more packet in transit. -/
theorem answer_frame (s : State) (d : DataMsg) (nack : Bool) (reason : Nat) (mc : Option Nat) :
    answer s d nack reason mc = { s with net := (answer s d nack reason mc).net } := by
  simp only [answer, sendCtl, inject]
  split
  · rfl
  · rfl

theorem lostAnswer_frame (s : State) (f : Nat) (d : DataMsg) : lostAnswer s f d = { s with net := (lostAnswer s f d).net } := by
  unfold lostAnswer
  split
  · refine List.foldlRecOn _ _ (motive := fun t : State => t = { s with net := t.net }) rfl fun t ht k _ => ?_
    rw [answer_frame, ht]
  · exact answer_frame ..

/-- A completed ejection of a ring that is not lost takes its place in its queue (R255). -/
theorem ejected_data (d : DataMsg) (ho : (ringOf s (fieldRing f)).ejectOff = false) :
    RouterFrame s (ejected s f (.data d)) ∧ (ejected s f (.data d)).net = s.net ∧ (ejected s f (.data d)).fields = s.fields ∧
      (ringOf (ejected s f (.data d)) (fieldRing f)).ejected = (ringOf s (fieldRing f)).ejected ++
        (match queueFor s f d with | some q => [(q, d)] | none => []) := by
  rw [ejected, ho, if_neg Bool.false_ne_true]
  cases queueFor s f d with
  | none => exact ⟨rfl, rfl, rfl, (List.append_nil _).symm⟩
  | some q => exact ⟨rfl, rfl, rfl, congrArg Ring.ejected (ringOf_modRing_same ..)⟩

/-- A lost ring consumes every data packet with its answer (R258). -/
theorem ejected_lost (d : DataMsg) (ho : (ringOf s (fieldRing f)).ejectOff = true) : ejected s f (.data d) = lostAnswer s f d := by
  simp [ejected, ho]

theorem routerFrame_ejected (s : State) (f : Nat) (d : DataMsg) : RouterFrame s (ejected s f (.data d)) := by
  cases ho : (ringOf s (fieldRing f)).ejectOff with
  | false => exact (ejected_data d ho).1
  | true =>
    rw [ejected_lost d ho, RouterFrame, lostAnswer_frame]

/-- The packet at the neighbour's input after a hop (R244, R245). -/
def hopTo (s : State) (f g : Nat) (sd : Side) (p : Packet) (rest : List (BitVec 3)) (det : Bool) : Flight :=
  { field := g, inp := .link (Side.back sd)
    p := { p with route := rest, head := sd, det := det, crcResent := 0, age := min 4095 (p.age + hopCc f sd p) }
    since := s.time.uptime + hopCc f sd p * 1000 / max 1 s.time.cclkMhz }

theorem forwardPkt_hopTo {g : Nat} {sd : Side} (p : Packet) (rest : List (BitVec 3)) (det : Bool) (hg : neighbour f sd = some g) :
    forwardPkt s f sd p rest det =
      { s with net := s.net ++ [hopTo s f g sd p rest det], fields := (forwardPkt s f sd p rest det).fields } := by
  simp only [forwardPkt, hg]
  rfl

theorem routerFrame_forwardPkt {g : Nat} {sd : Side} (p : Packet) (rest : List (BitVec 3)) (det : Bool)
    (hg : neighbour f sd = some g) : RouterFrame s (forwardPkt s f sd p rest det) := by
  rw [forwardPkt_hopTo p rest det hg]
  rfl

theorem forwardPkt_net {g : Nat} {sd : Side} (p : Packet) (rest : List (BitVec 3)) (det : Bool) (hg : neighbour f sd = some g) :
    (forwardPkt s f sd p rest det).net = s.net ++ [hopTo s f g sd p rest det] := by rw [forwardPkt_hopTo p rest det hg]

theorem forwardPkt_rings {g : Nat} {sd : Side} (p : Packet) (rest : List (BitVec 3)) (det : Bool) (hg : neighbour f sd = some g) :
    (forwardPkt s f sd p rest det).rings = s.rings := by rw [forwardPkt_hopTo p rest det hg]

end Frame

/-! ### The copy that EJECT_CONT leaves (R244, R255) -/

section Copy
variable {s : State} {f : Nat} {d : DataMsg}

/-- The local copy of EJECT_CONT: ejected where the handshake completes, else counted as refused. -/
def copyOut (s : State) (f : Nat) (d : DataMsg) : State :=
  if ejects s f d then ejected s f (.data d) else refuse s f

theorem copyOut_ejects (he : ejects s f d = true) : copyOut s f d = ejected s f (.data d) := if_pos he

theorem copyOut_refused (he : ejects s f d = false) : copyOut s f d = refuse s f := if_neg (by simp [he])

theorem routerFrame_copyOut (s : State) (f : Nat) (d : DataMsg) : RouterFrame s (copyOut s f d) := by
  cases he : ejects s f d with
  | true =>
    rw [copyOut_ejects he]
    exact routerFrame_ejected s f d
  | false =>
    rw [copyOut_refused he]
    exact routerFrame_refuse s f

theorem copyOut_net (ho : (ringOf s (fieldRing f)).ejectOff = false) : (copyOut s f d).net = s.net := by
  cases he : ejects s f d with
  | true =>
    obtain ⟨-, hnet, -, -⟩ := ejected_data d ho
    rw [copyOut_ejects he, hnet]
  | false => rw [copyOut_refused he, refuse, modRing_net]

end Copy

/-! ### How a packet leaves its input (R245, R249) -/

section Leave
variable {s : State} {f : FieldId} {inp : RPort} {p : Packet} {free : List RPort} {x : Flight}

/-- The router once the packet has left its input: an urgent one turns the order of the inputs (R249). -/
def leave (s : State) (f : FieldId) (inp : RPort) (p : Packet) : State :=
  let s := { s with net := eraseIdx1 s.net (IsAt f inp p) }
  if p.urg then modField s f fun y => { y with urgLast := inputNo inp } else s

/-- The packet as it leaves its input: older, and DET kept by one that turns back alone (R245, R250). -/
def aged (s : State) (x : Flight) (p : Packet) : Packet :=
  { p with age := ageNow s x, det := p.det && (match p.route with | c :: _ => c = 3 | [] => false) }

theorem leave_calm (hu : p.urg = false) : leave s f inp p = { s with net := eraseIdx1 s.net (IsAt f inp p) } := by
  simp [leave, hu]

theorem leave_urgent (hu : p.urg = true) : leave s f inp p =
    modField { s with net := eraseIdx1 s.net (IsAt f inp p) } f fun y => { y with urgLast := inputNo inp } := by
  simp [leave, hu]

theorem routerFrame_leave (s : State) (f : FieldId) (inp : RPort) (p : Packet) : RouterFrame s (leave s f inp p) := by
  unfold leave
  split <;> rfl

@[simp] theorem leave_net : (leave s f inp p).net = eraseIdx1 s.net (IsAt f inp p) := by
  unfold leave
  split <;> rfl

@[simp] theorem leave_rings : (leave s f inp p).rings = s.rings := by
  unfold leave
  split <;> rfl

@[simp] theorem leave_time : (leave s f inp p).time = s.time := by
  unfold leave
  split <;> rfl

@[simp] theorem ringOf_leave (r : Nat) : ringOf (leave s f inp p) r = ringOf s r := by rw [ringOf, leave_rings, ringOf]

@[simp] theorem queueFor_leave (g : Nat) (d : DataMsg) : queueFor (leave s f inp p) g d = queueFor s g d := by
  unfold leave
  split <;> rfl

@[simp] theorem ejects_leave (g : Nat) (d : DataMsg) : ejects (leave s f inp p) g d = ejects s g d := by
  unfold leave
  split <;> rfl

theorem fieldOf_leave (g : Nat) : fieldOf (leave s f inp p) g =
    if p.urg = true ∧ g = f then { fieldOf s g with urgLast := inputNo inp } else fieldOf s g := by
  cases hu : p.urg with
  | false => simp [leave_calm hu, fieldOf]
  | true =>
    rw [leave_urgent hu, fieldOf_modField]
    split <;> simp_all [fieldOf]

@[simp] theorem linkOk_leave (g : Nat) (sd : Side) : linkOk (leave s f inp p) g sd = linkOk s g sd := by
  have hfail (h : Nat) : (fieldOf (leave s f inp p) h).mwFail = (fieldOf s h).mwFail := by
    rw [fieldOf_leave]
    split <;> rfl
  simp only [linkOk, hfail]

/-- A packet behind another of its lane waits (R249). -/
theorem packetRoute_behind (hx : s.net.find? (IsAt f inp p) = some x) (hd : onDeck s x = false) :
    exec (.packetRoute f inp p free) s = .next s := by
  change Host.Outcome.next (route s f inp p free) = _
  delta IsAt at hx
  simp only [route, hx, Option.getD_some, hd, Bool.false_eq_true, if_false]

/-- A packet in a lane buffer leaves its input, older by the time it waited there. -/
theorem packetRoute_onDeck (hx : s.net.find? (IsAt f inp p) = some x) (hc : p.crcResent = 0) (hd : onDeck s x = true) :
    exec (.packetRoute f inp p free) s =
      .next (moveOn (leave s f inp p) s f inp (aged s x p) (wins s f x free) (free.filter (unused s f x free))) := by
  change Host.Outcome.next (route s f inp p free) = _
  delta IsAt at hx
  simp only [route, hx, Option.getD_some, hd, if_pos hc, if_true]
  rfl

end Leave

/-! ### What becomes of a packet that leaves its input (R244, R245, R250 to R252, R255, R258) -/

/-- The packet is readable and not too old (R245, R251, R252). -/
def GoesOn (inp : RPort) (p : Packet) : Prop := p.crcDead = false ∧ (!p.urg && inp ≠ .loc && 3584 ≤ p.age) = false

theorem turnCode_cases : ∀ c : BitVec 3, c.toNat ≤ 3 → c = 0 ∨ c = 1 ∨ c = 2 ∨ c = 3 := by decide

section MoveOn
variable {s s₀ : State} {f : Nat} {inp : RPort} {p : Packet} {got : RPort → Bool} {spare : List RPort}

theorem moveOn_unreadable (h : p.crcDead = true) : moveOn s s₀ f inp p got spare = dropFmt s f := by
  simp [moveOn, h]

theorem moveOn_tooOld (hc : p.crcDead = false) (hu : p.urg = false) (hi : inp ≠ .loc) (ha : 3584 ≤ p.age) :
    moveOn s s₀ f inp p got spare = dropAge s f := by
  simp [moveOn, hc, hu, hi, ha]

theorem moveOn_eject_ctl {c : CtlMsg} (h : GoesOn inp p) (hr : p.route = [4]) (hb : p.body = .ctl c) :
    moveOn s s₀ f inp p got spare = s := by
  obtain ⟨hc, ha⟩ := h
  rw [moveOn, hc, ha]
  simp [hr, hb]

theorem moveOn_eject_data {d : DataMsg} (h : GoesOn inp p) (hr : p.route = [4]) (hb : p.body = .data d) (hg : got .loc = true)
    (he : ejects s f d = true) : moveOn s s₀ f inp p got spare = ejected (takeLane s f .loc p) f (.data d) := by
  obtain ⟨hc, ha⟩ := h
  rw [moveOn, hc, ha]
  simp [hr, hb, hg, he]

/-- EJECT_CONT leaves a copy, or is refused, and goes straight on (R244). -/
theorem moveOn_ejectCont {d : DataMsg} {rest : List (BitVec 3)} (h : GoesOn inp p) (hr : p.route = 5#3 :: rest) (hn : rest ≠ [])
    (hb : p.body = .data d) (hl : linkOk s f p.head = true) (hg : got (.link p.head) = true) :
    moveOn s s₀ f inp p got spare = forwardPkt (copyOut s f d) f p.head p rest false := by
  obtain ⟨hc, ha⟩ := h
  rw [moveOn, hc, ha]
  simp [hr, hn, hb, hl, hg, copyOut]

/-- A fork sends one copy each way (R244). -/
theorem moveOn_fork {c : BitVec 3} {rest a b : List (BitVec 3)} (h : GoesOn inp p) (hr : p.route = c :: rest) (hc : c = 6 ∨ c = 7)
    (hs : subroute 1 rest = some (a, b)) (hb : (subroute 1 b).map (·.2) = some [])
    (hl : linkOk s f (turnSide p.head (c.toNat - 5)) = true) (hl' : linkOk s f p.head = true)
    (hg : got (.link (turnSide p.head (c.toNat - 5))) = true) (hg' : got (.link p.head) = true) :
    moveOn s s₀ f inp p got spare =
      forwardPkt (forwardPkt s f (turnSide p.head (c.toNat - 5)) p a false) f p.head p b false := by
  obtain ⟨hd, ha⟩ := h
  rw [moveOn, hd, ha]
  rcases hc with rfl | rfl
  · simp_all
  · simp_all

/-- A turn goes to its output where it has won it, and is deflected where it has not (R244, R250). -/
theorem moveOn_turn {c : BitVec 3} {rest : List (BitVec 3)} (h : GoesOn inp p) (hr : p.route = c :: rest) (hn : rest ≠ [])
    (hc : c.toNat ≤ 3) (hi : c = 3 → inp ≠ .loc) (hl : linkOk s f (turnSide p.head c.toNat) = true) :
    moveOn s s₀ f inp p got spare =
      if got (.link (turnSide p.head c.toNat)) then forwardPkt s f (turnSide p.head c.toNat) p rest false
      else deflect s s₀ f p c rest (some (turnSide p.head c.toNat)) spare := by
  obtain ⟨hd, ha⟩ := h
  rw [moveOn, hd, ha]
  rcases turnCode_cases c hc with rfl | rfl | rfl | rfl
  all_goals simp_all

end MoveOn

/-! ### A packet whose outputs are all taken (R250, R251) -/

theorem wins_nil (s : State) (f : Nat) (x : Flight) (o : RPort) : wins s f x [] o = false := by
  simp [wins, lanesFree]

section Deflect
variable {s s₀ : State} {f : Nat} {p : Packet} {c : BitVec 3} {rest : List (BitVec 3)} {want : Option Side}

theorem deflect_waits (h : p.dcnt ≠ 255 ∨ p.det = true) : deflect s s₀ f p c rest want [] = s₀ := by
  unfold deflect
  split
  · rfl
  · rw [if_neg (by simp_all), List.find?_eq_none.mpr (by simp)]

theorem deflect_dcnt_max (hu : p.urg = false) (hd : p.det = false) (h : p.dcnt = 255) (free : List RPort) :
    deflect s s₀ f p c rest want free = dropDcnt s f := by
  simp [deflect, hu, hd, h]

end Deflect

/-! ### Each outcome, from the command (R244, R245, R249 to R252, R254, R255, R258) -/

section Route
variable {s : State} {f : FieldId} {inp : RPort} {p : Packet} {x : Flight}

theorem goesOn_aged (hd : p.crcDead = false) (h : p.urg = true ∨ inp = .loc ∨ ageNow s x < 3584) : GoesOn inp (aged s x p) := by
  refine ⟨hd, ?_⟩
  rcases h with hu | hi | ha
  · simp [aged, hu]
  · simp [hi]
  · exact Bool.and_eq_false_iff.mpr (.inr (decide_eq_false (Nat.not_le.mpr ha)))

theorem aged_head : (aged s x p).head = p.head := rfl

/-- Where the router's counters and lanes alone change, the packet has left the network and the rings are as they were. -/
theorem modField_leave_frame (g : Field → Field) : modField (leave s f inp p) f g =
    { s with net := eraseIdx1 s.net (IsAt f inp p), fields := (modField (leave s f inp p) f g).fields } := by
  rw [← leave_net]
  exact ((routerFrame_leave s f inp p).trans (routerFrame_modField _ f g)).of_rings leave_rings

/-- A packet that is dropped leaves the network, and its router counts it (R245, R251, R252). -/
theorem modField_leave_counts (g : Field → Field) (count : Field → Nat)
    (hg : ∀ y n, count (g { y with urgLast := n }) = count (g y)) :
    NextWith (.next (modField (leave s f inp p) f g)) fun t =>
      t = { s with net := eraseIdx1 s.net (IsAt f inp p), fields := t.fields } ∧
        count (fieldOf t f) = count (g (fieldOf s f)) := by
  refine nextWith_next ⟨modField_leave_frame g, ?_⟩
  rw [fieldOf_modField_same, fieldOf_leave]
  split
  · exact hg _ _
  · rfl

theorem hopTo_leave (g : Nat) (sd : Side) (rest : List (BitVec 3)) (hc : p.crcResent = 0) :
    hopTo (leave s f inp p) f g sd (aged s x p) rest false =
      { field := g, inp := .link (Side.back sd)
        p := { p with route := rest, head := sd, det := false, age := min 4095 (ageNow s x + hopCc f sd p) }
        since := s.time.uptime + hopCc f sd p * 1000 / max 1 s.time.cclkMhz } := by
  rw [hopTo, leave_time, hc]
  rfl

/-- EJECT_CONT, from the state that the packet left: the copy's place or its refusal, and the packet at the next router (R244). -/
theorem forwardPkt_copyOut {d : DataMsg} {rest : List (BitVec 3)} {g : Nat} (hg : neighbour f p.head = some g) :
    NextWith (.next (forwardPkt (copyOut (leave s f inp p) f d) f p.head (aged s x p) rest false)) fun t =>
      t = { s with net := t.net, fields := t.fields, rings := t.rings } ∧
      (ejects s f d = true → (ringOf s (fieldRing f)).ejectOff = false →
        (ringOf t (fieldRing f)).ejected = (ringOf s (fieldRing f)).ejected ++
          (match queueFor s f d with | some q => [(q, d)] | none => [])) ∧
      (ejects s f d = false → (ringOf t (fieldRing f)).refused = sat 16 ((ringOf s (fieldRing f)).refused + 1)) ∧
      ((ringOf s (fieldRing f)).ejectOff = false → t.net.length = (eraseIdx1 s.net (IsAt f inp p)).length + 1) ∧
      ∃ y ∈ t.net, y.field = g ∧ y.inp = .link (Side.back p.head) ∧ y.p.route = rest ∧ y.p.head = p.head ∧
        y.p.body = p.body := by
  have hframe := ((routerFrame_leave s f inp p).trans (routerFrame_copyOut _ f d)).trans
    (routerFrame_forwardPkt (aged s x p) rest false hg)
  have hnet := forwardPkt_net (s := copyOut (leave s f inp p) f d) (aged s x p) rest false hg
  have hring (r : Nat) : ringOf (forwardPkt (copyOut (leave s f inp p) f d) f p.head (aged s x p) rest false) r =
      ringOf (copyOut (leave s f inp p) f d) r := by
    rw [ringOf, forwardPkt_rings _ _ _ hg, ringOf]
  refine nextWith_next ⟨hframe, fun he ho => ?copy, fun he => ?refused, fun ho => ?length,
    hopTo (copyOut (leave s f inp p) f d) f g p.head (aged s x p) rest false, ?next, rfl, rfl, rfl, rfl, rfl⟩
  case copy =>
    obtain ⟨-, -, -, hq⟩ := ejected_data (s := leave s f inp p) (f := f) d (by rw [ringOf_leave, ho])
    rw [hring, copyOut_ejects (by rw [ejects_leave, he]), hq, ringOf_leave, queueFor_leave]
  case refused =>
    rw [hring, copyOut_refused (by rw [ejects_leave, he]), refuse, ringOf_modRing_same, ringOf_leave]
  case length =>
    rw [hnet, copyOut_net (by rw [ringOf_leave, ho]), leave_net, List.length_append, List.length_singleton]
  case next =>
    rw [hnet]
    exact List.mem_append_right _ (List.mem_singleton_self _)

/-- A fork sends one copy each way (R244). -/
theorem forwardPkt_fork {sd : Side} {a b : List (BitVec 3)} {g h : Nat} (hg : neighbour f sd = some g)
    (hh : neighbour f p.head = some h) :
    NextWith (.next (forwardPkt (forwardPkt (leave s f inp p) f sd (aged s x p) a false) f p.head (aged s x p) b false)) fun t =>
      t = { s with net := t.net, fields := t.fields } ∧
      ∃ y z, t.net = eraseIdx1 s.net (IsAt f inp p) ++ [y, z] ∧
        y.field = g ∧ y.inp = .link (Side.back sd) ∧ y.p.route = a ∧ y.p.head = sd ∧ y.p.body = p.body ∧
        z.field = h ∧ z.inp = .link (Side.back p.head) ∧ z.p.route = b ∧ z.p.head = p.head ∧ z.p.body = p.body := by
  have hframe := ((routerFrame_leave s f inp p).trans (routerFrame_forwardPkt (aged s x p) a false hg)).trans
    (routerFrame_forwardPkt (aged s x p) b false hh)
  refine nextWith_next ⟨hframe.of_rings ?_, hopTo (leave s f inp p) f g sd (aged s x p) a false,
    hopTo (forwardPkt (leave s f inp p) f sd (aged s x p) a false) f h p.head (aged s x p) b false, ?_,
    rfl, rfl, rfl, rfl, rfl, rfl, rfl, rfl, rfl, rfl⟩
  · rw [forwardPkt_rings _ _ _ hh, forwardPkt_rings _ _ _ hg, leave_rings]
  · rw [forwardPkt_net _ _ _ hh, forwardPkt_net _ _ _ hg, leave_net, List.append_assoc, List.singleton_append]

/-- A turn that is won: the packet stands at the neighbour's input with the rest of its route (R244, R245, R249). -/
theorem forwardPkt_leave {sd : Side} {rest : List (BitVec 3)} {g : Nat} (hc : p.crcResent = 0) (hg : neighbour f sd = some g) :
    forwardPkt (leave s f inp p) f sd (aged s x p) rest false = { s with
      fields := (forwardPkt (leave s f inp p) f sd (aged s x p) rest false).fields
      net := eraseIdx1 s.net (IsAt f inp p) ++ [{
        field := g, inp := .link (Side.back sd)
        p := { p with route := rest, head := sd, det := false, age := min 4095 (ageNow s x + hopCc f sd p) }
        since := s.time.uptime + hopCc f sd p * 1000 / max 1 s.time.cclkMhz }] } := by
  rw [← hopTo_leave g sd rest hc, ← leave_net, ← forwardPkt_net (aged s x p) rest false hg]
  exact ((routerFrame_leave s f inp p).trans (routerFrame_forwardPkt _ _ _ hg)).of_rings
    ((forwardPkt_rings _ _ _ hg).trans leave_rings)

/-- A packet at its end keeps its place in its queue (R255). -/
theorem ejected_place {v : State} {n : List Flight} {d : DataMsg} (hv : v = { s with net := n, fields := v.fields })
    (ho : (ringOf s (fieldRing f)).ejectOff = false) :
    NextWith (.next (ejected v f (.data d))) fun t => t = { s with net := n, fields := t.fields, rings := t.rings } ∧
      (ringOf t (fieldRing f)).ejected = (ringOf s (fieldRing f)).ejected ++
        (match queueFor s f d with | some q => [(q, d)] | none => []) := by
  obtain ⟨hframe, hnet, -, hq⟩ := ejected_data (s := v) (f := f) d (by rw [hv]; exact ho)
  refine nextWith_next ⟨?_, ?_⟩
  · rw [hframe, hnet, hv]
  · rw [hq, hv]
    rfl

/-- A lost ring answers a packet once it has left its input (R258). -/
theorem lostAnswer_left {v : State} {n : List Flight} (d : DataMsg) (hv : v = { s with net := n, fields := v.fields }) :
    lostAnswer v f d = lostAnswer { s with net := n, fields := (lostAnswer v f d).fields } f d := by
  have hfields : (lostAnswer v f d).fields = v.fields := by rw [lostAnswer_frame]
  rw [hfields, ← hv]

end Route

/-- Settles O53: the packet leaves its lane buffer and its router takes the branch of its header and of the code in front. -/
theorem routersForwardEjectDropOrWait : Obligations.RoutersForwardEjectDropOrWait := by
  intro s f inp p free x hx hc gone
  refine ⟨packetRoute_behind hx, fun hd => ?_⟩
  rw [packetRoute_onDeck hx hc hd]
  refine ⟨fun hdead => ?unreadable, fun hdead hu hi ha => ?old, fun hdead ha => ?_⟩
  case unreadable =>
    rw [moveOn_unreadable (p := aged s x p) hdead]
    exact modField_leave_counts _ Field.dropFmt fun _ _ => rfl
  case old =>
    rw [moveOn_tooOld (p := aged s x p) hdead hu hi ha]
    exact modField_leave_counts _ Field.dropAge fun _ _ => rfl
  have hgo := goesOn_aged (s := s) (x := x) hdead ha
  refine ⟨fun c hr hb => ?ctl, fun d hr hb hw he => ?eject, fun d rest g hr hn hb hl hg hw => ?cont,
    fun c rest a b g h hr hcode hs hs' => ?fork, fun c rest g hr hn hcode hi hl hg => ?turn⟩
  case ctl =>
    rw [moveOn_eject_ctl hgo hr hb]
    refine nextWith_next ?_
    have hframe := (routerFrame_leave s f inp p).of_rings leave_rings
    rwa [leave_net] at hframe
  case eject =>
    rw [moveOn_eject_data hgo hr hb hw (by rw [ejects_leave, he])]
    refine ⟨fun ho => ejected_place (modField_leave_frame _) ho, fun ho => ?_⟩
    rw [ejected_lost d (by rw [takeLane, ringOf_modField, ringOf_leave, ho])]
    exact nextWith_next (lostAnswer_left d (modField_leave_frame _))
  case cont =>
    rw [moveOn_ejectCont hgo hr hn hb (by rw [linkOk_leave, aged_head, hl]) hw, aged_head]
    exact forwardPkt_copyOut hg
  case fork =>
    intro sd hl hl' hg hg' hw hw'
    rw [moveOn_fork hgo hr hcode hs hs' (by rw [linkOk_leave]; exact hl) (by rw [linkOk_leave]; exact hl') hw hw', aged_head]
    exact forwardPkt_fork hg hg'
  case turn =>
    rw [moveOn_turn hgo hr hn hcode hi (by rw [linkOk_leave]; exact hl), aged_head]
    refine ⟨fun hw => ?hop, fun hfree hu hdef => ?waits, fun hfree hu hdet hmax => ?dcnt⟩
    case hop =>
      rw [if_pos hw]
      exact nextWith_next (forwardPkt_leave hc hg)
    case waits =>
      subst hfree
      rw [wins_nil, if_neg Bool.false_ne_true, List.filter_nil, deflect_waits]
      rcases hdef with hdef | ⟨hdet, rfl⟩
      · exact .inl hdef
      · exact .inr (by simp [aged, hr, hdet])
    case dcnt =>
      subst hfree
      rw [wins_nil, if_neg Bool.false_ne_true, deflect_dcnt_max (p := aged s x p) hu ?_ hmax]
      · exact modField_leave_counts _ Field.dropDcnt fun _ _ => rfl
      · rcases hdet with hdet | hdet
        · simp [aged, hdet]
        · simpa [aged, hr] using fun _ => hdet

end Sys2Proof.Midway

/-! PROOFS. Family 11_audit_and_replay: margin canaries, optical lanes and powered time (R319, R320, R457), and the fault
rehearsals from their firing to their end (R321 to R325). -/

namespace Sys2Proof.Audit
open Sys2Proof Sys2Proof.Machine Sys2Proof.Laws Sys2Proof.Scope

/-! ### What a staged record leaves in the Box Office (R345) -/

/-- Of the Box Office a staged record can change the count of records lost in staging and nothing else. -/
theorem stageRec_box (s : State) (p : Nat) (r : EvRec) : ∃ n, (stageRec s p r).box = { s.box with stagedLost := n } := by
  unfold stageRec
  dsimp only
  repeat' split
  all_goals exact ⟨_, rfl⟩

section Records
variable (s : State) (i cls code d l : Nat)

@[simp] theorem stageRec_canaryRuns (r : EvRec) : (stageRec s i r).box.canaryRuns = s.box.canaryRuns := by
  obtain ⟨n, h⟩ := stageRec_box s i r
  rw [h]

@[simp] theorem stageRec_reh (r : EvRec) : (stageRec s i r).box.reh = s.box.reh := by
  obtain ⟨n, h⟩ := stageRec_box s i r
  rw [h]

@[simp] theorem evRing_canaryRuns : (evRing s i cls code d l).box.canaryRuns = s.box.canaryRuns := stageRec_canaryRuns _ _ _
@[simp] theorem evField_reh : (evField s i cls code d l).box.reh = s.box.reh := stageRec_reh _ _ _
@[simp] theorem evTile_reh : (evTile s i cls code d l).box.reh = s.box.reh := stageRec_reh _ _ _
@[simp] theorem evModule_set (n : Option Nat) (b : Bool) : (evModule s cls code d n l b).box.set = s.box.set := rfl

end Records

/-! ### Margin canaries (R319) -/

/-- The ring has the margins of a canary run, and the Box Office counts one run more than in the state before it. -/
structure MarginsKept (s : State) (ring : RingId) (rep : CanaryReport) (t : State) : Prop where
  timing : (ringOf t ring).timingPs = rep.timingPs
  volt : (ringOf t ring).voltMv = rep.voltMv
  counted : t.box.canaryRuns = s.box.canaryRuns + 1

/-- After a canary that failed the ring has 54 deep tests ahead, too. -/
structure CanaryTaken (s : State) (ring : RingId) (rep : CanaryReport) (t : State) : Prop extends MarginsKept s ring rep t where
  deep : rep.failed.isSome = true → (ringOf t ring).deepBeats = 54

section Canary
variable {s t u : State} {ring : RingId} {rep : CanaryReport}

theorem MarginsKept.of_parts (h : MarginsKept s ring rep t) (ht : (ringOf u ring).timingPs = (ringOf t ring).timingPs)
    (hv : (ringOf u ring).voltMv = (ringOf t ring).voltMv) (hc : u.box.canaryRuns = t.box.canaryRuns) :
    MarginsKept s ring rep u := ⟨ht.trans h.timing, hv.trans h.volt, hc.trans h.counted⟩

/-- The answer of the clock to a margin (R430) touches neither the rings nor the counts. -/
theorem CanaryTaken.of_pwr (h : CanaryTaken s ring rep t) (g : Power → Power) : CanaryTaken s ring rep (modPwr t g) :=
  ⟨⟨h.timing, h.volt, h.counted⟩, h.deep⟩

theorem canaryRun_next (rep : CanaryReport) (hheld : s.box.heldFrom = none) (hon : (ringOf s ring).supply = 0) :
    NextWith (exec (.canaryRun ring rep) s) (CanaryTaken s ring rep) := by
  refine nextWith_next ?_
  rw [if_neg (by simp [hheld, hon])]
  extract_lets clk low s1 s2 s3 s4 s5
  have hcount : MarginsKept s ring rep s2 := ⟨by simp [s2, s1], by simp [s2, s1], rfl⟩
  have hwarn : MarginsKept s ring rep s3 := by
    unfold s3
    split
    · exact hcount.of_parts (by simp) (by simp) (by simp)
    · exact hcount
  have hdeep : CanaryTaken s ring rep s4 := by
    unfold s4
    split
    next hf => exact ⟨hwarn.of_parts (by simp) (by simp) (by simp), fun _ => by simp⟩
    next hf => exact ⟨hwarn, fun h => by simp [hf] at h⟩
  have hclock : CanaryTaken s ring rep s5 := by
    unfold s5
    repeat' split
    · exact hdeep.of_pwr _
    · exact hdeep.of_pwr _
    · exact hdeep
  repeat' split
  · exact hdeep
  · exact hclock.of_pwr _
  · exact hclock

end Canary

/-! ### Optical lanes (R320) -/

/-- The step of OPTICAL_SAMPLE for one lane's reading. -/
def readLane (s : State) (l : LaneReading) : State :=
  let set := s.box.set
  let alarm := decide (l.centiDbm < set.optAlarm) || realGt l.ber set.berAlarm
  let warn := decide (l.centiDbm < set.optWarn) || realGt l.ber set.berWarn
  let m : BitVec 8 := 1#8 <<< (l.lane : Nat)
  let s := modSport s l.port fun x => { x with laneAlarm := if alarm then x.laneAlarm ||| m else x.laneAlarm &&& ~~~m }
  let d := (l.port : Nat) + (l.lane : Nat) * 2 ^ 5
  if alarm then evModule s 1 0x0408 d else if warn then evModule s 0 0x0407 d else s

theorem exec_opticalSample (s : State) (ls : List LaneReading) :
    exec (.opticalSample ls) s = .next (ls.foldl readLane s) := rfl

@[simp] theorem readLane_set (s : State) (l : LaneReading) : (readLane s l).box.set = s.box.set := by
  unfold readLane
  dsimp only
  split
  · simp
  · split <;> simp

/-- The reading's lane has its alarm bit set or cleared as the thresholds say, whatever its mask held. -/
theorem readLane_laneAlarm (s : State) (l : LaneReading) :
    (sportOf (readLane s l) l.port).laneAlarm.getLsbD l.lane =
      (decide (l.centiDbm < s.box.set.optAlarm) || realGt l.ber s.box.set.berAlarm) := by
  unfold readLane
  dsimp only
  generalize (decide (l.centiDbm < s.box.set.optAlarm) || realGt l.ber s.box.set.berAlarm) = alarm
  generalize (decide (l.centiDbm < s.box.set.optWarn) || realGt l.ber s.box.set.berWarn) = warn
  cases alarm with
  | true => simp
  | false => cases warn <;> simp

theorem readLanes_set (s : State) (ls : List LaneReading) : (ls.foldl readLane s).box.set = s.box.set :=
  List.foldlRecOn ls readLane (motive := fun t => t.box.set = s.box.set) rfl fun t ht l _ => (readLane_set t l).trans ht

/-! ### Powered time (R457) -/

theorem poweredSecond_next {s : State} (h : s.pins.psuSeen = true) :
    exec .poweredSecond s = .next { s with time := { s.time with poweredS := s.time.poweredS + 1 } } :=
  congrArg Host.Outcome.next (if_pos h)

theorem poweredCountStore_next {s : State} (h : s.pins.psuSeen = true) (hr : boxRuns s = true) :
    exec .poweredCountStore s = .next { s with time := { s.time with poweredStored := s.time.poweredS } } :=
  congrArg Host.Outcome.next (if_pos (by rw [powered, h, hr]; rfl))

/-- Settles O10: a canary run, the last of a sample's readings, and the two commands of the powered time. -/
theorem marginsLanesAndPoweredTimeCount : Obligations.MarginsLanesAndPoweredTimeCount := by
  unfold Obligations.MarginsLanesAndPoweredTimeCount
  refine fun s => ⟨fun ring rep hheld hon => ?canary, fun ls l => ?optical, poweredSecond_next, poweredCountStore_next⟩
  case canary =>
    obtain ⟨t, ht, h⟩ := canaryRun_next rep hheld hon
    exact ⟨t, ht, h.timing, h.volt, h.counted, h.deep⟩
  case optical =>
    rw [exec_opticalSample, List.foldl_append]
    refine nextWith_next ?_
    rw [← readLanes_set s ls]
    exact readLane_laneAlarm _ l

/-! ### What the injection of a rehearsed fault leaves as it was (R323, R325) -/

/-- From one state to a later one with the same rehearsal under way: memory is as it was, the rehearsal has its status, count and
uptime of firing, and every run knows the same rehearsal. -/
structure RehearsalKeeps (s t : State) : Prop where
  mem : t.mem = s.mem
  status : t.box.reh.status = s.box.reh.status
  count : t.box.reh.count = s.box.reh.count
  firedAt : t.box.reh.firedAt = s.box.reh.firedAt
  run : ∀ n, (tenOf t n).run.bind (·.rehearsedAt) = (tenOf s n).run.bind (·.rehearsedAt)

section Injection
variable {s t u : State}

theorem RehearsalKeeps.refl (s : State) : RehearsalKeeps s s := ⟨rfl, rfl, rfl, rfl, fun _ => rfl⟩

theorem RehearsalKeeps.trans (h : RehearsalKeeps s t) (k : RehearsalKeeps t u) : RehearsalKeeps s u :=
  ⟨k.mem.trans h.mem, k.status.trans h.status, k.count.trans h.count, k.firedAt.trans h.firedAt,
    fun n => (k.run n).trans (h.run n)⟩

/-- An update of neither memory, tenancies nor the rehearsal. -/
theorem RehearsalKeeps.of_parts (hm : t.mem = s.mem) (hr : t.box.reh = s.box.reh) (ht : t.tens = s.tens) :
    RehearsalKeeps s t :=
  ⟨hm, congrArg (·.status) hr, congrArg (·.count) hr, congrArg (·.firedAt) hr, fun n => by rw [tenOf, ht, tenOf]⟩

/-- An update of the Box Office that leaves the rehearsal's status, count and uptime of firing. -/
theorem rehearsalKeeps_modBox (s : State) {g : Box → Box} (hs : (g s.box).reh.status = s.box.reh.status)
    (hc : (g s.box).reh.count = s.box.reh.count) (hf : (g s.box).reh.firedAt = s.box.reh.firedAt) :
    RehearsalKeeps s (modBox s g) := ⟨rfl, hs, hc, hf, fun _ => rfl⟩

theorem rehearsalKeeps_modTile (s : State) (i : Nat) (g : Tile → Tile) : RehearsalKeeps s (modTile s i g) :=
  .of_parts rfl rfl rfl

theorem rehearsalKeeps_modField (s : State) (i : Nat) (g : Field → Field) : RehearsalKeeps s (modField s i g) :=
  .of_parts rfl rfl rfl

theorem rehearsalKeeps_evField (s : State) (f cls code d : Nat) : RehearsalKeeps s (evField s f cls code d) :=
  .of_parts (by simp) (by simp) (by simp)

theorem rehearsalKeeps_evTile (s : State) (i cls code d : Nat) : RehearsalKeeps s (evTile s i cls code d) :=
  .of_parts (by simp) (by simp) (by simp)

/-- What a run gets that is not its rehearsal. -/
theorem rehearsalKeeps_modRun (s : State) (n : Nat) {g : Run → Run} (hg : ∀ x, (g x).rehearsedAt = x.rehearsedAt) :
    RehearsalKeeps s (modRun s n g) := by
  refine ⟨rfl, rfl, rfl, rfl, fun k => ?_⟩
  rw [modRun, tenOf_modTen]
  split
  next hk =>
    subst hk
    cases (tenOf s k).run with
    | none => rfl
    | some x => exact hg x
  next => rfl

theorem rehearsalKeeps_failTile (s : State) (i m : Nat) : RehearsalKeeps s (failTile s i m) := by
  unfold failTile
  split
  next n _ =>
    have hfail : RehearsalKeeps s (failRun s n m) := rehearsalKeeps_modRun s n fun _ => rfl
    refine hfail.trans (rehearsalKeeps_modRun _ n ?_)
    exact fun _ => rfl
  next => exact .refl s

theorem rehearsalKeeps_spareLane {f c : Nat} {sd : Side} {mw : Bool} (h : spareLane s f sd c mw = some t) :
    RehearsalKeeps s t := by
  unfold spareLane at h
  dsimp only at h
  split at h
  next g _ =>
    obtain ⟨-, h⟩ := Option.ite_none_right_eq_some.mp h
    obtain rfl := Option.some.inj h
    exact (rehearsalKeeps_modField s f _).trans (rehearsalKeeps_modField _ g _)
  next => cases h

/-- Each of the five kinds of fault. -/
theorem rehearsalKeeps_injectFault (s : State) : RehearsalKeeps s (injectFault s) := by
  unfold injectFault
  dsimp only
  split
  case h_1 =>
    have hfence (i : Nat) : RehearsalKeeps s (modTile (modBox s fun b => { b with reh := { b.reh with fenced := some i } }) i
        fun t => { t with st := .fenced }) :=
      .trans (rehearsalKeeps_modBox s rfl rfl rfl) (rehearsalKeeps_modTile _ i _)
    split
    · exact (hfence _).trans (.trans (rehearsalKeeps_evTile _ _ _ _ _) (rehearsalKeeps_failTile _ _ _))
    · exact hfence _
  case h_2 => exact rehearsalKeeps_modBox s rfl rfl rfl
  case h_3 =>
    split
    next t ht =>
      refine (rehearsalKeeps_spareLane ht).trans (.trans ?_ (rehearsalKeeps_evField _ _ _ _ _))
      exact rehearsalKeeps_modBox t rfl rfl rfl
    next => exact .refl s
  case h_4 =>
    refine List.foldlRecOn _ _ (motive := RehearsalKeeps s) ?_ fun t ht i _ => ht.trans (rehearsalKeeps_modTile t i _)
    exact rehearsalKeeps_modBox s rfl rfl rfl
  case h_5 => exact rehearsalKeeps_modBox s rfl rfl rfl

end Injection

/-! ### A rehearsal fires (R321, R323) -/

/-- A clause on a ring is that of a tenancy that runs. -/
theorem run_of_clauseAt {s : State} {r : Nat} {q : Nat × Nat} (h : clauseAt s r = some q) :
    ∃ u, (tenOf s q.1).run = some u := by
  unfold clauseAt at h
  split at h
  next n u hu =>
    obtain ⟨p, -, rfl⟩ := Option.map_eq_some_iff.mp h
    unfold ringRun at hu
    split at hu
    · split at hu
      next v hv =>
        cases hu
        exact ⟨u, hv⟩
      · cases hu
    · cases hu
  next => cases h

/-- A clause on a ring knows the rehearsal that its run is given. -/
theorem rehearsedAt_modRun {s : State} {r now n vr : Nat} {q : Nat × Nat} {g : Run → Run}
    (hg : ∀ x, (g x).rehearsedAt = some now) (hn : clauseAt s r = some (n, vr)) (hq : clauseAt s r = some q) :
    (tenOf (modRun s n g) q.1).run.bind (·.rehearsedAt) = some now := by
  obtain ⟨u, hu⟩ := run_of_clauseAt hn
  obtain rfl := Option.some.inj (hn.symm.trans hq)
  simp [modRun, hu, hg]

/-- The rehearsal is under way since this uptime, and so knows the run of the clause it strikes. -/
structure Fired (s t : State) : Prop where
  status : t.box.reh.status = 2
  count : t.box.reh.count = s.box.reh.count
  firedAt : t.box.reh.firedAt = some s.time.uptime
  mem : t.mem = s.mem
  run : ∀ q, clauseAt s (rehRing s.box.reh) = some q → (tenOf t q.1).run.bind (·.rehearsedAt) = some s.time.uptime

theorem Fired.keeps {s t u : State} (h : Fired s t) (k : RehearsalKeeps t u) : Fired s u :=
  ⟨k.status.trans h.status, k.count.trans h.count, k.firedAt.trans h.firedAt, k.mem.trans h.mem,
    fun q hq => (k.run q.1).trans (h.run q hq)⟩

theorem rehearsalFire_fires {s : State} (harm : s.box.reh.status = 1) (hup : s.box.state = .ready) :
    NextWith (exec .rehearsalFire s) (Fired s) := by
  refine nextWith_next ?_
  dsimp only
  rw [if_neg (by simp [harm, computeUp, hup])]
  split
  next n vr hq =>
    refine Fired.keeps ?_ (rehearsalKeeps_injectFault _)
    exact ⟨rfl, rfl, rfl, rfl, fun q hc => rehearsedAt_modRun (fun _ => rfl) hq hc⟩
  next hq =>
    refine Fired.keeps ?_ (rehearsalKeeps_injectFault _)
    exact ⟨rfl, rfl, rfl, rfl, fun q hc => absurd (Eq.trans (Eq.symm hq) hc) (by simp)⟩

theorem rehearsalFire_idle {s : State} (h : s.box.reh.status ≠ 1 ∨ s.box.state ≠ .ready) :
    exec .rehearsalFire s = .next s :=
  congrArg Host.Outcome.next (if_pos (by simpa [computeUp] using h))

/-! ### A rehearsal is over (R323, R325) -/

/-- The rehearsal is over and counted (log entry 81). -/
def rehearsed (h : Rehearsal) : Rehearsal := { h with status := 3, refused := false, lastNs := 0, count := h.count + 1 }

theorem rehearsalTick_over {s : State} (h : s.box.reh.status = 2) (hp : s.box.reh.poisonNext = [])
    (hs : s.box.reh.stall = none) (hl : s.box.reh.lossRing = none) (hr : ∀ p ∈ s.tens, p.2.run.bind (·.rehearsedAt) = none) :
    rehearsalTick s = { s with box := { s.box with reh := rehearsed s.box.reh } } := by
  unfold rehearsalTick
  dsimp only
  rw [if_neg]
  · rfl
  simp only [h, hp, hs, hl, ne_eq, not_true_eq_false, decide_false, List.isEmpty_nil, Bool.not_true, Option.isSome_none,
    Bool.or_self, Bool.false_or, Bool.not_eq_true, List.any_eq_false]
  intro p hmem
  split
  next u hu => simpa [hu] using hr p hmem
  next => simp

theorem laneDropReturn_next {s : State} {at_ f k : Nat} {mw : Bool} (h : s.box.reh.lane = some (at_, f, k, mw))
    (hdue : at_ ≤ s.time.uptime) :
    NextWith (exec .laneDropReturn s) fun t => t.box.reh.lane = none ∧ t.mem = s.mem ∧ t.tiles = s.tiles := by
  refine nextWith_next ?_
  rw [h]
  dsimp only
  rw [if_neg (by omega)]
  refine ⟨rfl, ?_⟩
  split <;> exact ⟨rfl, rfl⟩

/-- Settles O17: what the firing writes lasts through the injection of each kind of fault; the end of a rehearsal at a tick and
the return of a dropped lane each have one outcome under their hypotheses. -/
theorem rehearsalFiresOnce : Obligations.RehearsalFiresOnce := by
  unfold Obligations.RehearsalFiresOnce
  refine fun s => ⟨fun harm hup => ?fires, rehearsalFire_idle, fun h hp hs hl hr => ?ends,
    fun _ _ _ _ h hdue => laneDropReturn_next h hdue⟩
  case fires =>
    obtain ⟨t, ht, h⟩ := rehearsalFire_fires harm hup
    exact ⟨t, ht, h.status, h.count, h.firedAt, h.mem, h.run⟩
  case ends =>
    rw [rehearsalTick_over h hp hs hl hr]
    exact ⟨rfl, rfl, rfl⟩

end Sys2Proof.Audit
